-- ==== Sys2Proof/Word.lean ====
section
/-! DEFINITION. The words of the VZ-4218: characters, belt positions, letter numbers, counters. -/

namespace Sys2Proof

/-- One character on the line link, or one byte of a print link frame. -/
abbrev Byte := BitVec 8

/-- A belt position: a 32-bit unsigned count of encoder counts, which wraps (R1). -/
abbrev Pos := BitVec 32

/-- A letter number: 32 bits, 0 never assigned (R7). -/
abbrev LetterNo := BitVec 32

/-- A counter of the Count Bank: 32 bits, wrapping (R162). -/
abbrev Counter := BitVec 32

/-- A field or a line of text on the line link, character by character. -/
abbrev Text := List Byte

end Sys2Proof
end

