-- ==== Sys2Proof/Syntax.lean ====
section
/-! DEFINITION. The commands of the VZ-4218, one constructor for each row of spec/opcode_table.json, and the names their
operands take. The table gives no operands: each operand below is what the row's rule says the event or request carries. -/

namespace Sys2Proof

/-- Direction of one encoder count (R1). -/
inductive Motion where
  | forward | reverse
deriving DecidableEq, Repr

/-- The six photocells, in the photocell order of R21. -/
inductive Photocell where
  | pe0 | pe1 | pe2 | pe3a | pe3b | pe4r
deriving DecidableEq, Repr

/-- The five photocells under arrival supervision (R23, R24), in photocell order. -/
inductive Sup where
  | pe1 | pe2 | pe3a | pe3b | pe4r
deriving DecidableEq, Repr

/-- A photocell level (R21). -/
inductive Level where
  | blocked | clear
deriving DecidableEq, Repr

/-- The four scan heads, in the order of R63 and R73. -/
inductive Head where
  | ft | fb | bt | bb
deriving DecidableEq, Repr

/-- The two streams, and with them the two cancellers and print modules. -/
inductive Stream where
  | a | b
deriving DecidableEq, Repr

/-- The seventeen pockets and end bins, in the order of R121. -/
inductive Pocket where
  | a1 | a2 | a3 | a4 | a5 | a6 | b1 | b2 | b3 | b4 | b5 | b6 | rm | rh | ea | eb | er
deriving DecidableEq, Repr

/-- The seventeen gates (section 5.4), in the order of the STATUS GATES reply (R190). -/
inductive Gate where
  | g1 | gr | g2 | a1 | a2 | a3 | a4 | a5 | a6 | b1 | b2 | b3 | b4 | b5 | b6 | rm | rh
deriving DecidableEq, Repr

/-- A sensor level of a pocket or end bin (R122). -/
inductive Paddle where
  | active | clear
deriving DecidableEq, Repr

/-- The six classes of a mark result (R66). -/
inductive MarkClass where
  | phosphor | meter | bright | noMark | offcorner | ambiguous
deriving DecidableEq, Repr

/-- The module state a print module reports (R96). -/
inductive ModuleState where
  | unprimed | primed | error
deriving DecidableEq, Repr

/-- The temperature band a print module reports (R96, R112). -/
inductive Band where
  | normal | warm | hot | over
deriving DecidableEq, Repr

/-- The completion a DONE frame carries: GOOD, or a print error code (R96). -/
inductive Completion where
  | good
  | printError (code : BitVec 8)
deriving DecidableEq, Repr

/-- The fourteen kinds of event flag, in the order of their bits (R186). -/
inductive Kind where
  | lineState | fault | feedHold | headState | cancellerState | parity | pocketState | endBin
  | recordsLost | linkError | linkSilent | profileDefaulted | reset | captureDone
deriving DecidableEq, Repr

/-- The sections of the STATUS reply (R182). -/
inductive Section where
  | line | track | heads | cancel | gates | pockets
deriving DecidableEq, Repr

/-- The dater record (R118). The office code is held as the request writes it, a space as a full stop. -/
structure Dater where
  office  : Text
  day     : Nat
  month   : Nat
  year    : Nat
  hour    : Nat
  machine : Nat
  bars    : Nat
deriving DecidableEq, Repr

/-- The commands: one constructor for each row of spec/opcode_table.json, in the table's order. A constructor of a request
stands for the completion of a valid request line with that verb and those arguments (R179, R180). -/
inductive Instr where
  /-- POWER_ON_RESET (R198). -/
  | powerOnReset
  /-- PROFILE_LOAD_COMPLETE (R195). -/
  | profileLoadComplete
  /-- ENCODER_COUNT (R1). -/
  | encoderCount (motion : Motion)
  /-- SPEED_RESULT (R4). -/
  | speedResult
  /-- RUN_UP_COMPLETE (R145). -/
  | runUpComplete
  /-- RUN_UP_LIMIT (R145). -/
  | runUpLimit
  /-- PHOTOCELL_RAW_CHANGE (R21): the input of the photocell comes to stand at the level. -/
  | photocellRawChange (cell : Photocell) (level : Level)
  /-- PHOTOCELL_QUALIFY_TRAVEL (R21). -/
  | photocellQualifyTravel (cell : Photocell)
  /-- PHOTOCELL_QUALIFY_TIME (R22). -/
  | photocellQualifyTime (cell : Photocell)
  /-- PREVIOUS_TAIL_DROP (R9). -/
  | previousTailDrop
  /-- OVER_LENGTH_POSITION (R14), of the letter being measured. -/
  | overLengthPosition
  /-- PE0_JAM_POSITION (R15), of the letter being measured. -/
  | pe0JamPosition
  /-- MISSING_POSITION (R29), of the letter at the photocell. -/
  | missingPosition (cell : Sup) (letter : LetterNo)
  /-- BLOCKED_POSITION (R31), of the letter in the photocell's passing slot. -/
  | blockedPosition (cell : Sup)
  /-- STATION_EXIT_POSITION (R40). -/
  | stationExitPosition (letter : LetterNo)
  /-- CALIBRATION_TIMER (R41). -/
  | calibrationTimer
  /-- HEAD_ANSWER (R36): one sample word (R190) on the head link. -/
  | headAnswer (head : Head) (word : BitVec 32)
  /-- HEAD_ANSWER_TIMEOUT (R36). -/
  | headAnswerTimeout (head : Head)
  /-- WARMUP_LIMIT (R143). -/
  | warmupLimit
  /-- SH_POSITION (R46). -/
  | shPosition (letter : LetterNo)
  /-- SCAN_PULSE (R48), of the letter's next cell. -/
  | scanPulse (letter : LetterNo)
  /-- RESULT_DELIVERY (R68), of the item in the computing slot. -/
  | resultDelivery
  /-- DP_DECISION (R76). -/
  | dpDecision (letter : LetterNo)
  /-- GATE_CLEAR_POSITION (R87), of the gate's user. -/
  | gateClearPosition (gate : Gate)
  /-- GATE_SETTLE_END (R88). -/
  | gateSettleEnd (gate : Gate)
  /-- ARM_POINT (R104). -/
  | armPoint (letter : LetterNo)
  /-- FIRE_POINT (R108). -/
  | firePoint (letter : LetterNo)
  /-- DONE_LIMIT (R110), of the canceller's held letter. -/
  | doneLimit (stream : Stream)
  /-- MODULE_STATUS (R96, R113): a STATUS frame, and whether its CRC-8 matches. -/
  | moduleStatus (stream : Stream) (state : ModuleState) (band : Band) (crcGood : Bool)
  /-- PRIMED (R96, R99). -/
  | primed (stream : Stream) (crcGood : Bool)
  /-- ACCEPTED (R96, R106). -/
  | accepted (stream : Stream) (letter : LetterNo) (crcGood : Bool)
  /-- PARITY_ERR (R96, R107). -/
  | parityErr (stream : Stream) (crcGood : Bool)
  /-- MODULE_DONE (R96, R109): a DONE frame. -/
  | moduleDone (stream : Stream) (letter : LetterNo) (completion : Completion) (crcGood : Bool)
  /-- MODULE_FAULT (R96, R111): a FAULT frame. -/
  | moduleFault (stream : Stream) (code : BitVec 8) (crcGood : Bool)
  /-- PRIME_TIMEOUT (R99). -/
  | primeTimeout (stream : Stream)
  /-- REPLY_TIMEOUT (R106). -/
  | replyTimeout (stream : Stream)
  /-- SELECT_POINT (R124, R126). -/
  | selectPoint (letter : LetterNo)
  /-- STACKING (R130). -/
  | stacking (letter : LetterNo)
  /-- POCKET_SENSOR_CHANGE (R123): the raw sensor of the pocket or end bin comes to stand at the level. -/
  | pocketSensorChange (pocket : Pocket) (level : Paddle)
  /-- POCKET_SENSOR_QUALIFY (R123). -/
  | pocketSensorQualify (pocket : Pocket)
  /-- SWEEP_BUTTON_PRESS (R132). -/
  | sweepButtonPress (pocket : Pocket)
  /-- SWEEP_BUTTON_RELEASE (R132); `bridged` says that the release returns within 20 ms and so is no release. -/
  | sweepButtonRelease (pocket : Pocket) (bridged : Bool)
  /-- ESTOP_CHANGE (R154): the input comes to stand asserted or released. -/
  | estopChange (asserted : Bool)
  /-- DRAIN_LIMIT_POSITION (R148). -/
  | drainLimitPosition
  /-- HOLD_COUNTDOWN_END (R151). -/
  | holdCountdownEnd
  /-- LINK_SILENCE (R147). -/
  | linkSilence
  /-- HORN_PULSE_END (R160). -/
  | hornPulseEnd
  /-- CHARACTER_RECEIVED (R178): one character, and whether it came with a framing error. -/
  | characterReceived (char : Byte) (framingError : Bool)
  /-- LINE_GAP_TIMEOUT (R178). -/
  | lineGapTimeout
  /-- PING (R182). -/
  | ping
  /-- STATUS (R182). -/
  | status (part : Option Section)
  /-- START (R144). -/
  | start
  /-- STOP (R146). -/
  | stop
  /-- CLEAR (R156), with or without OVERRIDE. -/
  | clear (override : Bool)
  /-- HOLD (R151), with the distance in hundredths of a metre where one is given. -/
  | hold (distance : Option Int)
  /-- RELEASE (R151). -/
  | release
  /-- SET (R183): the name and the value as the line's fields give them. -/
  | set (name : Text) (value : Text)
  /-- GET (R183). -/
  | get (name : Text)
  /-- SAVE (R196). -/
  | save
  /-- SAVE_WRITE_END (R196). -/
  | saveWriteEnd
  /-- LOAD (R197). -/
  | load
  /-- DATER (R118). -/
  | dater (record : Dater)
  /-- POCKET id SWEEP (R133). -/
  | pocketSweep (pocket : Pocket)
  /-- POCKET id DONE (R134). -/
  | pocketDone (pocket : Pocket)
  /-- POCKET id DISABLE (R135). -/
  | pocketDisable (pocket : Pocket)
  /-- POCKET id ENABLE (R135). -/
  | pocketEnable (pocket : Pocket)
  /-- POCKETS (R182). -/
  | pockets (pocket : Option Pocket)
  /-- SNAP (R170). -/
  | snap
  /-- COUNT p (R171). -/
  | count (page : Nat)
  /-- ZERO (R172). -/
  | zero
  /-- MASK kinds (R188): NONE is the empty list, ALL the list of every kind. -/
  | mask (kinds : List Kind)
  /-- ACK kinds (R188): ALL is the list of every kind. -/
  | ack (kinds : List Kind)
  /-- FLAGS (R188). -/
  | flags
  /-- HEADRETRY (R38). -/
  | headRetry (head : Head)
  /-- CANCELLER s CLEAR (R114). -/
  | cancellerClear (stream : Stream)
  /-- CAPTURE, with a class or for ANY (R71). -/
  | capture (wanted : Option MarkClass)
  /-- CAPTURE OFF (R71). -/
  | captureOff
  /-- TABLE i (R182). -/
  | table (first : Option Nat)
  /-- RESTART (R184). -/
  | restart
  /-- TRANSMIT_LINE_COMPLETE (R185). -/
  | transmitLineComplete
  /-- EVENT_REPEAT_EXPIRY (R187). -/
  | eventRepeatExpiry (kind : Kind)
  /-- MERGE_TAIL_DROP (R2, R80). -/
  | mergeTailDrop
deriving DecidableEq, Repr

end Sys2Proof
end

