-- ==== Sys2Proof/Decode.lean ====
section
/-! DEFINITION. Reading a command from the bits of the opcode table. spec/opcode_table.json gives no row any bits (log entry 5), so no
word spells a command. The text a request travels as is read in Machine/LinkParse.lean. -/

namespace Sys2Proof

/-- The command a word of the opcode table's bits spells: none, since no row has bits. -/
def decodeTableWord (_nbits _w : Nat) : Option Instr :=
  none

end Sys2Proof
end

