-- ==== Sys2Proof/Machine/Tables.lean ====
section
/-! DEFINITION. The finite index types of the part and tables over them: one value for each photocell, head, stream, pocket,
gate, flag kind, station and so on, with the operations that read and replace one place. -/

namespace Sys2Proof.Machine

/-- The four orientations of a letter (R62). -/
inductive Orient where
  | o0 | o1 | o2 | o3
deriving DecidableEq, Repr

/-- The twelve reject causes, in the order of counter page 2 (R162). -/
inductive RejectCause where
  | offsize | gap | double | unscanned | late | merge | noMark | offcorner | ambiguous | brightManual | noTwist | noPocket
deriving DecidableEq, Repr

/-- The length buckets of counter page 5, in its order (R162, R167): the six by their least millimetres, SHORT and LONG. -/
inductive Bucket where
  | b120 | b150 | b180 | b210 | b240 | b270 | short | long
deriving DecidableEq, Repr

/-- The three scan buffers, by number (R45). -/
inductive Buf where
  | b0 | b1 | b2
deriving DecidableEq, Repr

/-- The twelve stream pockets (R121). -/
inductive StackPocket where
  | a1 | a2 | a3 | a4 | a5 | a6 | b1 | b2 | b3 | b4 | b5 | b6
deriving DecidableEq, Repr

/-- The thirty-three station distances of the geometry record (R192), in the order of its table. -/
inductive Station where
  | pe1 | sh | dp | g1 | mp | pe2 | g2 | pe4r | gr | psr | rm | rh | er | pe3a | ca | psa | a1 | a2 | a3 | a4 | a5 | a6 | ea | pe3b | cb | psb | b1 | b2 | b3 | b4 | b5 | b6 | eb
deriving DecidableEq, Repr

/-- The photocells in photocell order (R21). -/
def Photocell.all : List Photocell :=
  [.pe0, .pe1, .pe2, .pe3a, .pe3b, .pe4r]

/-- The supervised photocells in photocell order. -/
def Sup.all : List Sup :=
  [.pe1, .pe2, .pe3a, .pe3b, .pe4r]

/-- The heads in the order FT, FB, BT, BB. -/
def Head.all : List Head :=
  [.ft, .fb, .bt, .bb]

/-- Stream A, then stream B. -/
def Stream.all : List Stream :=
  [.a, .b]

/-- The pockets in the order of R121. -/
def Pocket.all : List Pocket :=
  [.a1, .a2, .a3, .a4, .a5, .a6, .b1, .b2, .b3, .b4, .b5, .b6, .rm, .rh, .ea, .eb, .er]

/-- The gates in the order of STATUS GATES. -/
def Gate.all : List Gate :=
  [.g1, .gr, .g2, .a1, .a2, .a3, .a4, .a5, .a6, .b1, .b2, .b3, .b4, .b5, .b6, .rm, .rh]

/-- The kinds in the order of their bits (R186). -/
def Kind.all : List Kind :=
  [.lineState, .fault, .feedHold, .headState, .cancellerState, .parity, .pocketState, .endBin, .recordsLost, .linkError, .linkSilent, .profileDefaulted, .reset, .captureDone]

/-- The stream pockets in the order of R121. -/
def StackPocket.all : List StackPocket :=
  [.a1, .a2, .a3, .a4, .a5, .a6, .b1, .b2, .b3, .b4, .b5, .b6]

/-- The stations in the order of R192. -/
def Station.all : List Station :=
  [.pe1, .sh, .dp, .g1, .mp, .pe2, .g2, .pe4r, .gr, .psr, .rm, .rh, .er, .pe3a, .ca, .psa, .a1, .a2, .a3, .a4, .a5, .a6, .ea, .pe3b, .cb, .psb, .b1, .b2, .b3, .b4, .b5, .b6, .eb]

/-- The classes in the order of counter page 1. -/
def MarkClass.all : List MarkClass :=
  [.phosphor, .meter, .bright, .noMark, .offcorner, .ambiguous]

/-- The orientations in order. -/
def Orient.all : List Orient :=
  [.o0, .o1, .o2, .o3]

/-- The reject causes in the order of counter page 2. -/
def RejectCause.all : List RejectCause :=
  [.offsize, .gap, .double, .unscanned, .late, .merge, .noMark, .offcorner, .ambiguous, .brightManual, .noTwist, .noPocket]

/-- The buffers, lowest number first. -/
def Buf.all : List Buf :=
  [.b0, .b1, .b2]

/-- One value for each scan buffer. -/
structure PerBuf (α : Type) where
  b0 : α
  b1 : α
  b2 : α
deriving DecidableEq, Repr

/-- The same value in every place. -/
def PerBuf.fill {α : Type} (v : α) : PerBuf α :=
  ⟨v, v, v⟩

/-- The value held for one place. -/
def PerBuf.get {α : Type} (t : PerBuf α) (i : Buf) : α :=
  match i with
  | .b0 => t.b0
  | .b1 => t.b1
  | .b2 => t.b2

/-- The table with one place replaced. -/
def PerBuf.set {α : Type} (t : PerBuf α) (i : Buf) (v : α) : PerBuf α :=
  match i with
  | .b0 => { t with b0 := v }
  | .b1 => { t with b1 := v }
  | .b2 => { t with b2 := v }

/-- The table with one place changed by a function of its value. -/
def PerBuf.upd {α : Type} (t : PerBuf α) (i : Buf) (f : α → α) : PerBuf α :=
  t.set i (f (t.get i))

/-- The table with every place changed by one function. -/
def PerBuf.map {α β : Type} (t : PerBuf α) (f : α → β) : PerBuf β :=
  ⟨f t.b0, f t.b1, f t.b2⟩

/-- The values of the table, in order. -/
def PerBuf.toList {α : Type} (t : PerBuf α) : List α :=
  [t.b0, t.b1, t.b2]

/-- One value for each photocell. -/
structure PerCell (α : Type) where
  pe0 : α
  pe1 : α
  pe2 : α
  pe3a : α
  pe3b : α
  pe4r : α
deriving DecidableEq, Repr

/-- The same value in every place. -/
def PerCell.fill {α : Type} (v : α) : PerCell α :=
  ⟨v, v, v, v, v, v⟩

/-- The value held for one place. -/
def PerCell.get {α : Type} (t : PerCell α) (i : Photocell) : α :=
  match i with
  | .pe0 => t.pe0
  | .pe1 => t.pe1
  | .pe2 => t.pe2
  | .pe3a => t.pe3a
  | .pe3b => t.pe3b
  | .pe4r => t.pe4r

/-- The table with one place replaced. -/
def PerCell.set {α : Type} (t : PerCell α) (i : Photocell) (v : α) : PerCell α :=
  match i with
  | .pe0 => { t with pe0 := v }
  | .pe1 => { t with pe1 := v }
  | .pe2 => { t with pe2 := v }
  | .pe3a => { t with pe3a := v }
  | .pe3b => { t with pe3b := v }
  | .pe4r => { t with pe4r := v }

/-- The table with one place changed by a function of its value. -/
def PerCell.upd {α : Type} (t : PerCell α) (i : Photocell) (f : α → α) : PerCell α :=
  t.set i (f (t.get i))

/-- The table with every place changed by one function. -/
def PerCell.map {α β : Type} (t : PerCell α) (f : α → β) : PerCell β :=
  ⟨f t.pe0, f t.pe1, f t.pe2, f t.pe3a, f t.pe3b, f t.pe4r⟩

/-- The values of the table, in order. -/
def PerCell.toList {α : Type} (t : PerCell α) : List α :=
  [t.pe0, t.pe1, t.pe2, t.pe3a, t.pe3b, t.pe4r]

/-- One value for each supervised photocell. -/
structure PerSup (α : Type) where
  pe1 : α
  pe2 : α
  pe3a : α
  pe3b : α
  pe4r : α
deriving DecidableEq, Repr

/-- The same value in every place. -/
def PerSup.fill {α : Type} (v : α) : PerSup α :=
  ⟨v, v, v, v, v⟩

/-- The value held for one place. -/
def PerSup.get {α : Type} (t : PerSup α) (i : Sup) : α :=
  match i with
  | .pe1 => t.pe1
  | .pe2 => t.pe2
  | .pe3a => t.pe3a
  | .pe3b => t.pe3b
  | .pe4r => t.pe4r

/-- The table with one place replaced. -/
def PerSup.set {α : Type} (t : PerSup α) (i : Sup) (v : α) : PerSup α :=
  match i with
  | .pe1 => { t with pe1 := v }
  | .pe2 => { t with pe2 := v }
  | .pe3a => { t with pe3a := v }
  | .pe3b => { t with pe3b := v }
  | .pe4r => { t with pe4r := v }

/-- The table with one place changed by a function of its value. -/
def PerSup.upd {α : Type} (t : PerSup α) (i : Sup) (f : α → α) : PerSup α :=
  t.set i (f (t.get i))

/-- The table with every place changed by one function. -/
def PerSup.map {α β : Type} (t : PerSup α) (f : α → β) : PerSup β :=
  ⟨f t.pe1, f t.pe2, f t.pe3a, f t.pe3b, f t.pe4r⟩

/-- The values of the table, in order. -/
def PerSup.toList {α : Type} (t : PerSup α) : List α :=
  [t.pe1, t.pe2, t.pe3a, t.pe3b, t.pe4r]

/-- One value for each scan head. -/
structure PerHead (α : Type) where
  ft : α
  fb : α
  bt : α
  bb : α
deriving DecidableEq, Repr

/-- The same value in every place. -/
def PerHead.fill {α : Type} (v : α) : PerHead α :=
  ⟨v, v, v, v⟩

/-- The value held for one place. -/
def PerHead.get {α : Type} (t : PerHead α) (i : Head) : α :=
  match i with
  | .ft => t.ft
  | .fb => t.fb
  | .bt => t.bt
  | .bb => t.bb

/-- The table with one place replaced. -/
def PerHead.set {α : Type} (t : PerHead α) (i : Head) (v : α) : PerHead α :=
  match i with
  | .ft => { t with ft := v }
  | .fb => { t with fb := v }
  | .bt => { t with bt := v }
  | .bb => { t with bb := v }

/-- The table with one place changed by a function of its value. -/
def PerHead.upd {α : Type} (t : PerHead α) (i : Head) (f : α → α) : PerHead α :=
  t.set i (f (t.get i))

/-- The table with every place changed by one function. -/
def PerHead.map {α β : Type} (t : PerHead α) (f : α → β) : PerHead β :=
  ⟨f t.ft, f t.fb, f t.bt, f t.bb⟩

/-- The values of the table, in order. -/
def PerHead.toList {α : Type} (t : PerHead α) : List α :=
  [t.ft, t.fb, t.bt, t.bb]

/-- One value for each stream. -/
structure PerStream (α : Type) where
  a : α
  b : α
deriving DecidableEq, Repr

/-- The same value in every place. -/
def PerStream.fill {α : Type} (v : α) : PerStream α :=
  ⟨v, v⟩

/-- The value held for one place. -/
def PerStream.get {α : Type} (t : PerStream α) (i : Stream) : α :=
  match i with
  | .a => t.a
  | .b => t.b

/-- The table with one place replaced. -/
def PerStream.set {α : Type} (t : PerStream α) (i : Stream) (v : α) : PerStream α :=
  match i with
  | .a => { t with a := v }
  | .b => { t with b := v }

/-- The table with one place changed by a function of its value. -/
def PerStream.upd {α : Type} (t : PerStream α) (i : Stream) (f : α → α) : PerStream α :=
  t.set i (f (t.get i))

/-- The table with every place changed by one function. -/
def PerStream.map {α β : Type} (t : PerStream α) (f : α → β) : PerStream β :=
  ⟨f t.a, f t.b⟩

/-- The values of the table, in order. -/
def PerStream.toList {α : Type} (t : PerStream α) : List α :=
  [t.a, t.b]

/-- One value for each pocket and end bin, in the order of R121. -/
structure PerPocket (α : Type) where
  a1 : α
  a2 : α
  a3 : α
  a4 : α
  a5 : α
  a6 : α
  b1 : α
  b2 : α
  b3 : α
  b4 : α
  b5 : α
  b6 : α
  rm : α
  rh : α
  ea : α
  eb : α
  er : α
deriving DecidableEq, Repr

/-- The same value in every place. -/
def PerPocket.fill {α : Type} (v : α) : PerPocket α :=
  ⟨v, v, v, v, v, v, v, v, v, v, v, v, v, v, v, v, v⟩

/-- The value held for one place. -/
def PerPocket.get {α : Type} (t : PerPocket α) (i : Pocket) : α :=
  match i with
  | .a1 => t.a1
  | .a2 => t.a2
  | .a3 => t.a3
  | .a4 => t.a4
  | .a5 => t.a5
  | .a6 => t.a6
  | .b1 => t.b1
  | .b2 => t.b2
  | .b3 => t.b3
  | .b4 => t.b4
  | .b5 => t.b5
  | .b6 => t.b6
  | .rm => t.rm
  | .rh => t.rh
  | .ea => t.ea
  | .eb => t.eb
  | .er => t.er

/-- The table with one place replaced. -/
def PerPocket.set {α : Type} (t : PerPocket α) (i : Pocket) (v : α) : PerPocket α :=
  match i with
  | .a1 => { t with a1 := v }
  | .a2 => { t with a2 := v }
  | .a3 => { t with a3 := v }
  | .a4 => { t with a4 := v }
  | .a5 => { t with a5 := v }
  | .a6 => { t with a6 := v }
  | .b1 => { t with b1 := v }
  | .b2 => { t with b2 := v }
  | .b3 => { t with b3 := v }
  | .b4 => { t with b4 := v }
  | .b5 => { t with b5 := v }
  | .b6 => { t with b6 := v }
  | .rm => { t with rm := v }
  | .rh => { t with rh := v }
  | .ea => { t with ea := v }
  | .eb => { t with eb := v }
  | .er => { t with er := v }

/-- The table with one place changed by a function of its value. -/
def PerPocket.upd {α : Type} (t : PerPocket α) (i : Pocket) (f : α → α) : PerPocket α :=
  t.set i (f (t.get i))

/-- The table with every place changed by one function. -/
def PerPocket.map {α β : Type} (t : PerPocket α) (f : α → β) : PerPocket β :=
  ⟨f t.a1, f t.a2, f t.a3, f t.a4, f t.a5, f t.a6, f t.b1, f t.b2, f t.b3, f t.b4, f t.b5, f t.b6, f t.rm, f t.rh, f t.ea, f t.eb, f t.er⟩

/-- The values of the table, in order. -/
def PerPocket.toList {α : Type} (t : PerPocket α) : List α :=
  [t.a1, t.a2, t.a3, t.a4, t.a5, t.a6, t.b1, t.b2, t.b3, t.b4, t.b5, t.b6, t.rm, t.rh, t.ea, t.eb, t.er]

/-- One value for each stream pocket. -/
structure PerStack (α : Type) where
  a1 : α
  a2 : α
  a3 : α
  a4 : α
  a5 : α
  a6 : α
  b1 : α
  b2 : α
  b3 : α
  b4 : α
  b5 : α
  b6 : α
deriving DecidableEq, Repr

/-- The same value in every place. -/
def PerStack.fill {α : Type} (v : α) : PerStack α :=
  ⟨v, v, v, v, v, v, v, v, v, v, v, v⟩

/-- The value held for one place. -/
def PerStack.get {α : Type} (t : PerStack α) (i : StackPocket) : α :=
  match i with
  | .a1 => t.a1
  | .a2 => t.a2
  | .a3 => t.a3
  | .a4 => t.a4
  | .a5 => t.a5
  | .a6 => t.a6
  | .b1 => t.b1
  | .b2 => t.b2
  | .b3 => t.b3
  | .b4 => t.b4
  | .b5 => t.b5
  | .b6 => t.b6

/-- The table with one place replaced. -/
def PerStack.set {α : Type} (t : PerStack α) (i : StackPocket) (v : α) : PerStack α :=
  match i with
  | .a1 => { t with a1 := v }
  | .a2 => { t with a2 := v }
  | .a3 => { t with a3 := v }
  | .a4 => { t with a4 := v }
  | .a5 => { t with a5 := v }
  | .a6 => { t with a6 := v }
  | .b1 => { t with b1 := v }
  | .b2 => { t with b2 := v }
  | .b3 => { t with b3 := v }
  | .b4 => { t with b4 := v }
  | .b5 => { t with b5 := v }
  | .b6 => { t with b6 := v }

/-- The table with one place changed by a function of its value. -/
def PerStack.upd {α : Type} (t : PerStack α) (i : StackPocket) (f : α → α) : PerStack α :=
  t.set i (f (t.get i))

/-- The table with every place changed by one function. -/
def PerStack.map {α β : Type} (t : PerStack α) (f : α → β) : PerStack β :=
  ⟨f t.a1, f t.a2, f t.a3, f t.a4, f t.a5, f t.a6, f t.b1, f t.b2, f t.b3, f t.b4, f t.b5, f t.b6⟩

/-- The values of the table, in order. -/
def PerStack.toList {α : Type} (t : PerStack α) : List α :=
  [t.a1, t.a2, t.a3, t.a4, t.a5, t.a6, t.b1, t.b2, t.b3, t.b4, t.b5, t.b6]

/-- One value for each gate. -/
structure PerGate (α : Type) where
  g1 : α
  gr : α
  g2 : α
  a1 : α
  a2 : α
  a3 : α
  a4 : α
  a5 : α
  a6 : α
  b1 : α
  b2 : α
  b3 : α
  b4 : α
  b5 : α
  b6 : α
  rm : α
  rh : α
deriving DecidableEq, Repr

/-- The same value in every place. -/
def PerGate.fill {α : Type} (v : α) : PerGate α :=
  ⟨v, v, v, v, v, v, v, v, v, v, v, v, v, v, v, v, v⟩

/-- The value held for one place. -/
def PerGate.get {α : Type} (t : PerGate α) (i : Gate) : α :=
  match i with
  | .g1 => t.g1
  | .gr => t.gr
  | .g2 => t.g2
  | .a1 => t.a1
  | .a2 => t.a2
  | .a3 => t.a3
  | .a4 => t.a4
  | .a5 => t.a5
  | .a6 => t.a6
  | .b1 => t.b1
  | .b2 => t.b2
  | .b3 => t.b3
  | .b4 => t.b4
  | .b5 => t.b5
  | .b6 => t.b6
  | .rm => t.rm
  | .rh => t.rh

/-- The table with one place replaced. -/
def PerGate.set {α : Type} (t : PerGate α) (i : Gate) (v : α) : PerGate α :=
  match i with
  | .g1 => { t with g1 := v }
  | .gr => { t with gr := v }
  | .g2 => { t with g2 := v }
  | .a1 => { t with a1 := v }
  | .a2 => { t with a2 := v }
  | .a3 => { t with a3 := v }
  | .a4 => { t with a4 := v }
  | .a5 => { t with a5 := v }
  | .a6 => { t with a6 := v }
  | .b1 => { t with b1 := v }
  | .b2 => { t with b2 := v }
  | .b3 => { t with b3 := v }
  | .b4 => { t with b4 := v }
  | .b5 => { t with b5 := v }
  | .b6 => { t with b6 := v }
  | .rm => { t with rm := v }
  | .rh => { t with rh := v }

/-- The table with one place changed by a function of its value. -/
def PerGate.upd {α : Type} (t : PerGate α) (i : Gate) (f : α → α) : PerGate α :=
  t.set i (f (t.get i))

/-- The table with every place changed by one function. -/
def PerGate.map {α β : Type} (t : PerGate α) (f : α → β) : PerGate β :=
  ⟨f t.g1, f t.gr, f t.g2, f t.a1, f t.a2, f t.a3, f t.a4, f t.a5, f t.a6, f t.b1, f t.b2, f t.b3, f t.b4, f t.b5, f t.b6, f t.rm, f t.rh⟩

/-- The values of the table, in order. -/
def PerGate.toList {α : Type} (t : PerGate α) : List α :=
  [t.g1, t.gr, t.g2, t.a1, t.a2, t.a3, t.a4, t.a5, t.a6, t.b1, t.b2, t.b3, t.b4, t.b5, t.b6, t.rm, t.rh]

/-- One value for each kind of event flag, in the order of the bits (R186). -/
structure PerKind (α : Type) where
  lineState : α
  fault : α
  feedHold : α
  headState : α
  cancellerState : α
  parity : α
  pocketState : α
  endBin : α
  recordsLost : α
  linkError : α
  linkSilent : α
  profileDefaulted : α
  reset : α
  captureDone : α
deriving DecidableEq, Repr

/-- The same value in every place. -/
def PerKind.fill {α : Type} (v : α) : PerKind α :=
  ⟨v, v, v, v, v, v, v, v, v, v, v, v, v, v⟩

/-- The value held for one place. -/
def PerKind.get {α : Type} (t : PerKind α) (i : Kind) : α :=
  match i with
  | .lineState => t.lineState
  | .fault => t.fault
  | .feedHold => t.feedHold
  | .headState => t.headState
  | .cancellerState => t.cancellerState
  | .parity => t.parity
  | .pocketState => t.pocketState
  | .endBin => t.endBin
  | .recordsLost => t.recordsLost
  | .linkError => t.linkError
  | .linkSilent => t.linkSilent
  | .profileDefaulted => t.profileDefaulted
  | .reset => t.reset
  | .captureDone => t.captureDone

/-- The table with one place replaced. -/
def PerKind.set {α : Type} (t : PerKind α) (i : Kind) (v : α) : PerKind α :=
  match i with
  | .lineState => { t with lineState := v }
  | .fault => { t with fault := v }
  | .feedHold => { t with feedHold := v }
  | .headState => { t with headState := v }
  | .cancellerState => { t with cancellerState := v }
  | .parity => { t with parity := v }
  | .pocketState => { t with pocketState := v }
  | .endBin => { t with endBin := v }
  | .recordsLost => { t with recordsLost := v }
  | .linkError => { t with linkError := v }
  | .linkSilent => { t with linkSilent := v }
  | .profileDefaulted => { t with profileDefaulted := v }
  | .reset => { t with reset := v }
  | .captureDone => { t with captureDone := v }

/-- The table with one place changed by a function of its value. -/
def PerKind.upd {α : Type} (t : PerKind α) (i : Kind) (f : α → α) : PerKind α :=
  t.set i (f (t.get i))

/-- The table with every place changed by one function. -/
def PerKind.map {α β : Type} (t : PerKind α) (f : α → β) : PerKind β :=
  ⟨f t.lineState, f t.fault, f t.feedHold, f t.headState, f t.cancellerState, f t.parity, f t.pocketState, f t.endBin, f t.recordsLost, f t.linkError, f t.linkSilent, f t.profileDefaulted, f t.reset, f t.captureDone⟩

/-- The values of the table, in order. -/
def PerKind.toList {α : Type} (t : PerKind α) : List α :=
  [t.lineState, t.fault, t.feedHold, t.headState, t.cancellerState, t.parity, t.pocketState, t.endBin, t.recordsLost, t.linkError, t.linkSilent, t.profileDefaulted, t.reset, t.captureDone]

/-- One value for each station distance. -/
structure PerStation (α : Type) where
  pe1 : α
  sh : α
  dp : α
  g1 : α
  mp : α
  pe2 : α
  g2 : α
  pe4r : α
  gr : α
  psr : α
  rm : α
  rh : α
  er : α
  pe3a : α
  ca : α
  psa : α
  a1 : α
  a2 : α
  a3 : α
  a4 : α
  a5 : α
  a6 : α
  ea : α
  pe3b : α
  cb : α
  psb : α
  b1 : α
  b2 : α
  b3 : α
  b4 : α
  b5 : α
  b6 : α
  eb : α
deriving DecidableEq, Repr

/-- The same value in every place. -/
def PerStation.fill {α : Type} (v : α) : PerStation α :=
  ⟨v, v, v, v, v, v, v, v, v, v, v, v, v, v, v, v, v, v, v, v, v, v, v, v, v, v, v, v, v, v, v, v, v⟩

/-- The value held for one place. -/
def PerStation.get {α : Type} (t : PerStation α) (i : Station) : α :=
  match i with
  | .pe1 => t.pe1
  | .sh => t.sh
  | .dp => t.dp
  | .g1 => t.g1
  | .mp => t.mp
  | .pe2 => t.pe2
  | .g2 => t.g2
  | .pe4r => t.pe4r
  | .gr => t.gr
  | .psr => t.psr
  | .rm => t.rm
  | .rh => t.rh
  | .er => t.er
  | .pe3a => t.pe3a
  | .ca => t.ca
  | .psa => t.psa
  | .a1 => t.a1
  | .a2 => t.a2
  | .a3 => t.a3
  | .a4 => t.a4
  | .a5 => t.a5
  | .a6 => t.a6
  | .ea => t.ea
  | .pe3b => t.pe3b
  | .cb => t.cb
  | .psb => t.psb
  | .b1 => t.b1
  | .b2 => t.b2
  | .b3 => t.b3
  | .b4 => t.b4
  | .b5 => t.b5
  | .b6 => t.b6
  | .eb => t.eb

/-- The table with one place replaced. -/
def PerStation.set {α : Type} (t : PerStation α) (i : Station) (v : α) : PerStation α :=
  match i with
  | .pe1 => { t with pe1 := v }
  | .sh => { t with sh := v }
  | .dp => { t with dp := v }
  | .g1 => { t with g1 := v }
  | .mp => { t with mp := v }
  | .pe2 => { t with pe2 := v }
  | .g2 => { t with g2 := v }
  | .pe4r => { t with pe4r := v }
  | .gr => { t with gr := v }
  | .psr => { t with psr := v }
  | .rm => { t with rm := v }
  | .rh => { t with rh := v }
  | .er => { t with er := v }
  | .pe3a => { t with pe3a := v }
  | .ca => { t with ca := v }
  | .psa => { t with psa := v }
  | .a1 => { t with a1 := v }
  | .a2 => { t with a2 := v }
  | .a3 => { t with a3 := v }
  | .a4 => { t with a4 := v }
  | .a5 => { t with a5 := v }
  | .a6 => { t with a6 := v }
  | .ea => { t with ea := v }
  | .pe3b => { t with pe3b := v }
  | .cb => { t with cb := v }
  | .psb => { t with psb := v }
  | .b1 => { t with b1 := v }
  | .b2 => { t with b2 := v }
  | .b3 => { t with b3 := v }
  | .b4 => { t with b4 := v }
  | .b5 => { t with b5 := v }
  | .b6 => { t with b6 := v }
  | .eb => { t with eb := v }

/-- The table with one place changed by a function of its value. -/
def PerStation.upd {α : Type} (t : PerStation α) (i : Station) (f : α → α) : PerStation α :=
  t.set i (f (t.get i))

/-- The table with every place changed by one function. -/
def PerStation.map {α β : Type} (t : PerStation α) (f : α → β) : PerStation β :=
  ⟨f t.pe1, f t.sh, f t.dp, f t.g1, f t.mp, f t.pe2, f t.g2, f t.pe4r, f t.gr, f t.psr, f t.rm, f t.rh, f t.er, f t.pe3a, f t.ca, f t.psa, f t.a1, f t.a2, f t.a3, f t.a4, f t.a5, f t.a6, f t.ea, f t.pe3b, f t.cb, f t.psb, f t.b1, f t.b2, f t.b3, f t.b4, f t.b5, f t.b6, f t.eb⟩

/-- The values of the table, in order. -/
def PerStation.toList {α : Type} (t : PerStation α) : List α :=
  [t.pe1, t.sh, t.dp, t.g1, t.mp, t.pe2, t.g2, t.pe4r, t.gr, t.psr, t.rm, t.rh, t.er, t.pe3a, t.ca, t.psa, t.a1, t.a2, t.a3, t.a4, t.a5, t.a6, t.ea, t.pe3b, t.cb, t.psb, t.b1, t.b2, t.b3, t.b4, t.b5, t.b6, t.eb]

/-- One value for each mark class, in the order of counter page 1. -/
structure PerClass (α : Type) where
  phosphor : α
  meter : α
  bright : α
  noMark : α
  offcorner : α
  ambiguous : α
deriving DecidableEq, Repr

/-- The same value in every place. -/
def PerClass.fill {α : Type} (v : α) : PerClass α :=
  ⟨v, v, v, v, v, v⟩

/-- The value held for one place. -/
def PerClass.get {α : Type} (t : PerClass α) (i : MarkClass) : α :=
  match i with
  | .phosphor => t.phosphor
  | .meter => t.meter
  | .bright => t.bright
  | .noMark => t.noMark
  | .offcorner => t.offcorner
  | .ambiguous => t.ambiguous

/-- The table with one place replaced. -/
def PerClass.set {α : Type} (t : PerClass α) (i : MarkClass) (v : α) : PerClass α :=
  match i with
  | .phosphor => { t with phosphor := v }
  | .meter => { t with meter := v }
  | .bright => { t with bright := v }
  | .noMark => { t with noMark := v }
  | .offcorner => { t with offcorner := v }
  | .ambiguous => { t with ambiguous := v }

/-- The table with one place changed by a function of its value. -/
def PerClass.upd {α : Type} (t : PerClass α) (i : MarkClass) (f : α → α) : PerClass α :=
  t.set i (f (t.get i))

/-- The table with every place changed by one function. -/
def PerClass.map {α β : Type} (t : PerClass α) (f : α → β) : PerClass β :=
  ⟨f t.phosphor, f t.meter, f t.bright, f t.noMark, f t.offcorner, f t.ambiguous⟩

/-- The values of the table, in order. -/
def PerClass.toList {α : Type} (t : PerClass α) : List α :=
  [t.phosphor, t.meter, t.bright, t.noMark, t.offcorner, t.ambiguous]

/-- One value for each orientation. -/
structure PerOrient (α : Type) where
  o0 : α
  o1 : α
  o2 : α
  o3 : α
deriving DecidableEq, Repr

/-- The same value in every place. -/
def PerOrient.fill {α : Type} (v : α) : PerOrient α :=
  ⟨v, v, v, v⟩

/-- The value held for one place. -/
def PerOrient.get {α : Type} (t : PerOrient α) (i : Orient) : α :=
  match i with
  | .o0 => t.o0
  | .o1 => t.o1
  | .o2 => t.o2
  | .o3 => t.o3

/-- The table with one place replaced. -/
def PerOrient.set {α : Type} (t : PerOrient α) (i : Orient) (v : α) : PerOrient α :=
  match i with
  | .o0 => { t with o0 := v }
  | .o1 => { t with o1 := v }
  | .o2 => { t with o2 := v }
  | .o3 => { t with o3 := v }

/-- The table with one place changed by a function of its value. -/
def PerOrient.upd {α : Type} (t : PerOrient α) (i : Orient) (f : α → α) : PerOrient α :=
  t.set i (f (t.get i))

/-- The table with every place changed by one function. -/
def PerOrient.map {α β : Type} (t : PerOrient α) (f : α → β) : PerOrient β :=
  ⟨f t.o0, f t.o1, f t.o2, f t.o3⟩

/-- The values of the table, in order. -/
def PerOrient.toList {α : Type} (t : PerOrient α) : List α :=
  [t.o0, t.o1, t.o2, t.o3]

/-- One value for each reject cause, in the order of counter page 2. -/
structure PerCause (α : Type) where
  offsize : α
  gap : α
  double : α
  unscanned : α
  late : α
  merge : α
  noMark : α
  offcorner : α
  ambiguous : α
  brightManual : α
  noTwist : α
  noPocket : α
deriving DecidableEq, Repr

/-- The same value in every place. -/
def PerCause.fill {α : Type} (v : α) : PerCause α :=
  ⟨v, v, v, v, v, v, v, v, v, v, v, v⟩

/-- The value held for one place. -/
def PerCause.get {α : Type} (t : PerCause α) (i : RejectCause) : α :=
  match i with
  | .offsize => t.offsize
  | .gap => t.gap
  | .double => t.double
  | .unscanned => t.unscanned
  | .late => t.late
  | .merge => t.merge
  | .noMark => t.noMark
  | .offcorner => t.offcorner
  | .ambiguous => t.ambiguous
  | .brightManual => t.brightManual
  | .noTwist => t.noTwist
  | .noPocket => t.noPocket

/-- The table with one place replaced. -/
def PerCause.set {α : Type} (t : PerCause α) (i : RejectCause) (v : α) : PerCause α :=
  match i with
  | .offsize => { t with offsize := v }
  | .gap => { t with gap := v }
  | .double => { t with double := v }
  | .unscanned => { t with unscanned := v }
  | .late => { t with late := v }
  | .merge => { t with merge := v }
  | .noMark => { t with noMark := v }
  | .offcorner => { t with offcorner := v }
  | .ambiguous => { t with ambiguous := v }
  | .brightManual => { t with brightManual := v }
  | .noTwist => { t with noTwist := v }
  | .noPocket => { t with noPocket := v }

/-- The table with one place changed by a function of its value. -/
def PerCause.upd {α : Type} (t : PerCause α) (i : RejectCause) (f : α → α) : PerCause α :=
  t.set i (f (t.get i))

/-- The table with every place changed by one function. -/
def PerCause.map {α β : Type} (t : PerCause α) (f : α → β) : PerCause β :=
  ⟨f t.offsize, f t.gap, f t.double, f t.unscanned, f t.late, f t.merge, f t.noMark, f t.offcorner, f t.ambiguous, f t.brightManual, f t.noTwist, f t.noPocket⟩

/-- The values of the table, in order. -/
def PerCause.toList {α : Type} (t : PerCause α) : List α :=
  [t.offsize, t.gap, t.double, t.unscanned, t.late, t.merge, t.noMark, t.offcorner, t.ambiguous, t.brightManual, t.noTwist, t.noPocket]

/-- One value for each length bucket, in the order of counter page 5. -/
structure PerBucket (α : Type) where
  b120 : α
  b150 : α
  b180 : α
  b210 : α
  b240 : α
  b270 : α
  short : α
  long : α
deriving DecidableEq, Repr

/-- The same value in every place. -/
def PerBucket.fill {α : Type} (v : α) : PerBucket α :=
  ⟨v, v, v, v, v, v, v, v⟩

/-- The value held for one place. -/
def PerBucket.get {α : Type} (t : PerBucket α) (i : Bucket) : α :=
  match i with
  | .b120 => t.b120
  | .b150 => t.b150
  | .b180 => t.b180
  | .b210 => t.b210
  | .b240 => t.b240
  | .b270 => t.b270
  | .short => t.short
  | .long => t.long

/-- The table with one place replaced. -/
def PerBucket.set {α : Type} (t : PerBucket α) (i : Bucket) (v : α) : PerBucket α :=
  match i with
  | .b120 => { t with b120 := v }
  | .b150 => { t with b150 := v }
  | .b180 => { t with b180 := v }
  | .b210 => { t with b210 := v }
  | .b240 => { t with b240 := v }
  | .b270 => { t with b270 := v }
  | .short => { t with short := v }
  | .long => { t with long := v }

/-- The table with one place changed by a function of its value. -/
def PerBucket.upd {α : Type} (t : PerBucket α) (i : Bucket) (f : α → α) : PerBucket α :=
  t.set i (f (t.get i))

/-- The table with every place changed by one function. -/
def PerBucket.map {α β : Type} (t : PerBucket α) (f : α → β) : PerBucket β :=
  ⟨f t.b120, f t.b150, f t.b180, f t.b210, f t.b240, f t.b270, f t.short, f t.long⟩

/-- The values of the table, in order. -/
def PerBucket.toList {α : Type} (t : PerBucket α) : List α :=
  [t.b120, t.b150, t.b180, t.b210, t.b240, t.b270, t.short, t.long]

end Sys2Proof.Machine
end

