-- ==== Sys2Proof/Machine/Text.lean ====
section
/-! DEFINITION. Text on the links: characters, decimal and hexadecimal numbers, the CRC-8 of R95 and R179, the fields of a line,
and the names the part writes and reads (R190). -/

namespace Sys2Proof.Machine

/-- The characters of a name. -/
def text (s : String) : Text :=
  s.toList.map fun c => BitVec.ofNat 8 c.toNat

/-! ### Single characters -/

def chSpace : Byte := 0x20
def chStar : Byte := 0x2A
def chComma : Byte := 0x2C
def chMinus : Byte := 0x2D
def chStop : Byte := 0x2E
def chCR : Byte := 0x0D
def chLF : Byte := 0x0A

/-- A printable character, 20 hex to 7E hex (R178). -/
def printable (c : Byte) : Bool :=
  0x20 ≤ c.toNat && c.toNat ≤ 0x7E

/-- The value of a decimal digit. -/
def digit? (c : Byte) : Option Nat :=
  if 0x30 ≤ c.toNat && c.toNat ≤ 0x39 then some (c.toNat - 0x30) else none

/-- The value of a hexadecimal digit, A to F in either case (R179). -/
def hexDigit? (c : Byte) : Option Nat :=
  if 0x30 ≤ c.toNat && c.toNat ≤ 0x39 then some (c.toNat - 0x30)
  else if 0x41 ≤ c.toNat && c.toNat ≤ 0x46 then some (c.toNat - 0x37)
  else if 0x61 ≤ c.toNat && c.toNat ≤ 0x66 then some (c.toNat - 0x57)
  else none

/-- The character of a digit 0 to 15, upper case (R179). -/
def digitChar (n : Nat) : Byte :=
  if n < 10 then BitVec.ofNat 8 (0x30 + n) else BitVec.ofNat 8 (0x37 + n)

/-! ### Numbers -/

/-- The decimal digits of `n`, most significant first, given that `fuel` exceeds their count. -/
def decDigits : Nat → Nat → Text
  | 0, _ => []
  | fuel + 1, n => if n < 10 then [digitChar n] else decDigits fuel (n / 10) ++ [digitChar (n % 10)]

/-- A number in decimal with no leading zeros (R190). -/
def dec (n : Nat) : Text :=
  decDigits (n + 1) n

/-- A number with two decimals, given in hundredths: the form of speeds and metres (R190). -/
def dec2 (hundredths : Nat) : Text :=
  dec (hundredths / 100) ++ [chStop, digitChar (hundredths / 10 % 10), digitChar (hundredths % 10)]

/-- The lowest `k` hexadecimal digits of `n`, most significant first. -/
def hexDigits : Nat → Nat → Text
  | 0, _ => []
  | k + 1, n => hexDigits k (n / 16) ++ [digitChar (n % 16)]

/-- A 32-bit counter, snapshot number or belt position as eight hex digits (R190). -/
def hex8 (v : BitVec 32) : Text :=
  hexDigits 8 v.toNat

/-- The number a run of decimal digits gives; none where it is empty or holds another character. -/
def readDigits : Text → Option Nat
  | [] => none
  | cs => cs.foldl (fun acc c => do let a ← acc; let d ← digit? c; pure (a * 10 + d)) (some 0)

/-- A whole number (log entry 17). -/
def readNat (t : Text) : Option Nat :=
  readDigits t

/-- A decimal number as (digits, number of digits after the point): `12`, `12.25`, and the same after a minus sign, which
negates the digits (log entry 17). -/
def readDecimal (t : Text) : Option (Int × Nat) :=
  let unsigned (u : Text) : Option (Nat × Nat) :=
    let whole := u.takeWhile (· != chStop)
    match u.drop whole.length with
    | [] => (readDigits whole).map fun n => (n, 0)
    | _ :: frac => do
      let _ ← readDigits whole
      let _ ← readDigits frac
      let n ← readDigits (whole ++ frac)
      pure (n, frac.length)
  match t with
  | c :: u => if c == chMinus then (unsigned u).map fun p => (-(p.1 : Int), p.2) else (unsigned t).map fun p => ((p.1 : Int), p.2)
  | [] => none

/-- A decimal number in units of one `per`-th; none where it is no multiple of the unit, or no number (R183, R191). -/
def readUnits (per : Nat) (t : Text) : Option Int :=
  match readDecimal t with
  | none => none
  | some (n, k) => if n * per % (10 ^ k : Nat) = 0 then some (n * per / (10 ^ k : Nat)) else none

/-! ### CRC-8 -/

/-- One bit of the CRC-8 with polynomial x^8 + x^2 + x + 1 (R95, R179), most significant bit first and not reflected: the model's choice (log
entry 48). -/
def crcBit (c : Byte) : Byte :=
  if c.msb then (c <<< 1) ^^^ 0x07 else c <<< 1

/-- One byte of the CRC-8, its most significant bit first (log entry 48). -/
def crcByte (c b : Byte) : Byte :=
  let x := c ^^^ b
  crcBit (crcBit (crcBit (crcBit (crcBit (crcBit (crcBit (crcBit x)))))))

/-- The CRC-8 over bytes in the order sent, initial value 0 (R95, R179). -/
def crc8 (bytes : List Byte) : Byte :=
  bytes.foldl crcByte 0

/-- The check suffix of a line: the star and the two digits of its CRC-8 (R179). -/
def checkSuffix (body : Text) : Text :=
  chStar :: hexDigits 2 (crc8 body).toNat

/-! ### Fields -/

/-- The fields of a line, separated by single spaces (R179). -/
def splitAt (sep : Byte) : Text → List Text
  | [] => [[]]
  | c :: cs =>
    if c == sep then [] :: splitAt sep cs
    else
      match splitAt sep cs with
      | [] => [[c]]
      | f :: fs => (c :: f) :: fs

/-- Fields joined by one separator. -/
def joinWith (sep : Byte) : List Text → Text
  | [] => []
  | [f] => f
  | f :: fs => f ++ sep :: joinWith sep fs

/-- An absent field (R190). -/
def absent : Text := [chMinus]

/-- A field that may be absent (R190). -/
def field {α : Type} (f : α → Text) : Option α → Text
  | none => absent
  | some v => f v

/-- A field that holds a list, `-` where it is empty (R190). -/
def listField (items : List Text) : Text :=
  if items.isEmpty then absent else joinWith chComma items

/-- A line as sent: its fields, the check suffix, CR and LF (R179, R190). -/
def lineBytes (fields : List Text) : List Byte :=
  let body := joinWith chSpace fields
  body ++ checkSuffix body ++ [chCR, chLF]

/-! ### Names -/

/-- The value a name stands for in a table of names. -/
def named? {α : Type} (all : List α) (name : α → Text) (t : Text) : Option α :=
  all.find? fun v => name v == t

def cellName : Photocell → Text
  | .pe0 => text "PE0"
  | .pe1 => text "PE1"
  | .pe2 => text "PE2"
  | .pe3a => text "PE3A"
  | .pe3b => text "PE3B"
  | .pe4r => text "PE4R"

def headName : Head → Text
  | .ft => text "FT"
  | .fb => text "FB"
  | .bt => text "BT"
  | .bb => text "BB"

def streamName : Stream → Text
  | .a => text "A"
  | .b => text "B"

def pocketName : Pocket → Text
  | .a1 => text "A1" | .a2 => text "A2" | .a3 => text "A3" | .a4 => text "A4" | .a5 => text "A5" | .a6 => text "A6"
  | .b1 => text "B1" | .b2 => text "B2" | .b3 => text "B3" | .b4 => text "B4" | .b5 => text "B5" | .b6 => text "B6"
  | .rm => text "RM" | .rh => text "RH" | .ea => text "EA" | .eb => text "EB" | .er => text "ER"

def stackName : StackPocket → Text
  | .a1 => text "A1" | .a2 => text "A2" | .a3 => text "A3" | .a4 => text "A4" | .a5 => text "A5" | .a6 => text "A6"
  | .b1 => text "B1" | .b2 => text "B2" | .b3 => text "B3" | .b4 => text "B4" | .b5 => text "B5" | .b6 => text "B6"

def gateName : Gate → Text
  | .g1 => text "G1" | .gr => text "GR" | .g2 => text "G2"
  | .a1 => text "A1" | .a2 => text "A2" | .a3 => text "A3" | .a4 => text "A4" | .a5 => text "A5" | .a6 => text "A6"
  | .b1 => text "B1" | .b2 => text "B2" | .b3 => text "B3" | .b4 => text "B4" | .b5 => text "B5" | .b6 => text "B6"
  | .rm => text "RM" | .rh => text "RH"

def kindName : Kind → Text
  | .lineState => text "LINE_STATE"
  | .fault => text "FAULT"
  | .feedHold => text "FEED_HOLD"
  | .headState => text "HEAD_STATE"
  | .cancellerState => text "CANCELLER_STATE"
  | .parity => text "PARITY"
  | .pocketState => text "POCKET_STATE"
  | .endBin => text "END_BIN"
  | .recordsLost => text "RECORDS_LOST"
  | .linkError => text "LINK_ERROR"
  | .linkSilent => text "LINK_SILENT"
  | .profileDefaulted => text "PROFILE_DEFAULTED"
  | .reset => text "RESET"
  | .captureDone => text "CAPTURE_DONE"

def className : MarkClass → Text
  | .phosphor => text "PHOSPHOR"
  | .meter => text "METER"
  | .bright => text "BRIGHT"
  | .noMark => text "NONE"
  | .offcorner => text "OFFCORNER"
  | .ambiguous => text "AMBIGUOUS"

def orientName : Orient → Text
  | .o0 => text "O0"
  | .o1 => text "O1"
  | .o2 => text "O2"
  | .o3 => text "O3"

def causeName : RejectCause → Text
  | .offsize => text "OFFSIZE"
  | .gap => text "GAP"
  | .double => text "DOUBLE"
  | .unscanned => text "UNSCANNED"
  | .late => text "LATE"
  | .merge => text "MERGE"
  | .noMark => text "NO_MARK"
  | .offcorner => text "OFFCORNER"
  | .ambiguous => text "AMBIGUOUS"
  | .brightManual => text "BRIGHT_MANUAL"
  | .noTwist => text "NO_TWIST"
  | .noPocket => text "NO_POCKET"

def sectionName : Section → Text
  | .line => text "LINE"
  | .track => text "TRACK"
  | .heads => text "HEADS"
  | .cancel => text "CANCEL"
  | .gates => text "GATES"
  | .pockets => text "POCKETS"

def moduleStateName : ModuleState → Text
  | .unprimed => text "UNPRIMED"
  | .primed => text "PRIMED"
  | .error => text "ERROR"

def bandName : Band → Text
  | .normal => text "NORMAL"
  | .warm => text "WARM"
  | .hot => text "HOT"
  | .over => text "OVER"

def onOff (b : Bool) : Text :=
  if b then text "ON" else text "OFF"

def yesNo (b : Bool) : Text :=
  if b then text "YES" else text "NO"

end Sys2Proof.Machine
end

