-- ==== Sys2Proof/Machine/Profile.lean ====
section
/-! DEFINITION. The working profile of the Profile Store (chapter 11): its parameters, their ranges, forms and classes,
and the START checks of R193. Distances are held in counts, a quarter of a millimetre each, the resolution
of R191; a speed in hundredths of m/s; LINK_TIMEOUT in tenths of a second. -/

namespace Sys2Proof.Machine

inductive BrightPolicy where
  | stamp | manual
deriving DecidableEq, Repr

inductive CancelPolicy where
  | divert | hold
deriving DecidableEq, Repr

inductive DegradePolicy where
  | continue | drain
deriving DecidableEq, Repr

/-- The class of a stream pocket (R121). -/
inductive PocketClass where
  | cancelled | metered | uncancelled | overflow
deriving DecidableEq, Repr

/-- The eight sources of the signal tower (R159), each in the set or not. -/
structure Sources where
  run             : Bool
  feeding         : Bool
  held            : Bool
  fault           : Bool
  pocketAttention : Bool
  headAttention   : Bool
  cancelAttention : Bool
  anyFlag         : Bool
deriving DecidableEq, Repr

/-- The four lines of the signal tower (R159). -/
inductive Tower where
  | green | amber | red | horn
deriving DecidableEq, Repr

/-- The settings of one stream pocket (R121, R192). -/
structure StackCfg where
  fit  : Bool
  cls  : PocketClass
  cap  : Nat
  near : Nat
deriving DecidableEq, Repr

/-- The working profile (R191, R192). -/
structure Profile where
  stations       : PerStation (Option Nat)
  twist          : Option Nat
  settleG1       : Nat
  settleGr       : Nat
  settleG2       : Nat
  settlePkt      : Nat
  stack          : PerStack StackCfg
  rmCap          : Nat
  rmNear         : Nat
  rhCap          : Nat
  rhNear         : Nat
  minGap         : Nat
  slipTol        : Nat
  minBlock       : Nat
  holdAt         : Nat
  releaseAt      : Nat
  lnom           : Nat
  w              : Nat
  z              : Nat
  tPh            : Nat
  tMt            : Nat
  tBr            : Nat
  qMin           : Nat
  ambig          : Nat
  brightPolicy   : BrightPolicy
  minMergeGap    : Nat
  pre            : Nat
  impLen         : Nat
  armDist        : Nat
  doneMargin     : Nat
  cancelPolicy   : CancelPolicy
  persistParity  : Bool
  degradePolicy  : DegradePolicy
  records        : Bool
  reportHold     : Bool
  calInterval    : Nat
  eventRepeat    : Nat
  linkTimeout    : Nat
  minRunSpeed    : Nat
  drainLimit     : Nat
  cleanRun       : Nat
  faultLimit     : Nat
  green          : Sources
  amber          : Sources
  red            : Sources
  horn           : Sources
deriving DecidableEq, Repr

/-- The empty source set. -/
def Sources.empty : Sources :=
  ⟨false, false, false, false, false, false, false, false⟩

/-! ### Parameters by name -/

inductive Settle where
  | g1 | gr | g2 | pkt
deriving DecidableEq, Repr

/-- The parameters SET and GET name (R191, R192). -/
inductive Param where
  | stn (s : Station)
  | twist
  | settle (g : Settle)
  | fit (p : StackPocket)
  | cls (p : StackPocket)
  | cap (p : StackPocket)
  | near (p : StackPocket)
  | rmCap | rmNear | rhCap | rhNear
  | minGap | slipTol | minBlock | holdAt | releaseAt
  | lnom | w | z | tPh | tMt | tBr | qMin | ambig
  | brightPolicy | minMergeGap | pre | impLen | armDist | doneMargin
  | cancelPolicy | persistParity | degradePolicy | records | reportHold
  | calInterval | eventRepeat | linkTimeout | minRunSpeed | drainLimit | cleanRun | faultLimit
  | tower (l : Tower)
deriving DecidableEq, Repr

/-- The name of a station distance after STN_ (R192). -/
def stationName : Station → Text
  | .pe1 => text "PE1"
  | .sh => text "SH"
  | .dp => text "DP"
  | .g1 => text "G1"
  | .mp => text "MP"
  | .pe2 => text "PE2"
  | .g2 => text "G2"
  | .pe4r => text "PE4R"
  | .gr => text "GR"
  | .psr => text "PSR"
  | .rm => text "RM"
  | .rh => text "RH"
  | .er => text "ER"
  | .pe3a => text "PE3A"
  | .ca => text "CA"
  | .psa => text "PSA"
  | .a1 => text "A1"
  | .a2 => text "A2"
  | .a3 => text "A3"
  | .a4 => text "A4"
  | .a5 => text "A5"
  | .a6 => text "A6"
  | .ea => text "EA"
  | .pe3b => text "PE3B"
  | .cb => text "CB"
  | .psb => text "PSB"
  | .b1 => text "B1"
  | .b2 => text "B2"
  | .b3 => text "B3"
  | .b4 => text "B4"
  | .b5 => text "B5"
  | .b6 => text "B6"
  | .eb => text "EB"

/-- The name of a parameter, as SET and GET use it. -/
def paramName : Param → Text
  | .stn s => text "STN_" ++ stationName s
  | .twist => text "TWIST"
  | .settle .g1 => text "SETTLE_G1"
  | .settle .gr => text "SETTLE_GR"
  | .settle .g2 => text "SETTLE_G2"
  | .settle .pkt => text "SETTLE_PKT"
  | .fit p => stackName p ++ text "_FIT"
  | .cls p => stackName p ++ text "_CLASS"
  | .cap p => stackName p ++ text "_CAP"
  | .near p => stackName p ++ text "_NEAR"
  | .rmCap => text "RM_CAP"
  | .rmNear => text "RM_NEAR"
  | .rhCap => text "RH_CAP"
  | .rhNear => text "RH_NEAR"
  | .minGap => text "MIN_GAP"
  | .slipTol => text "SLIP_TOL"
  | .minBlock => text "MIN_BLOCK"
  | .holdAt => text "HOLD_AT"
  | .releaseAt => text "RELEASE_AT"
  | .lnom => text "LNOM"
  | .w => text "W"
  | .z => text "Z"
  | .tPh => text "T_PH"
  | .tMt => text "T_MT"
  | .tBr => text "T_BR"
  | .qMin => text "Q_MIN"
  | .ambig => text "AMBIG"
  | .brightPolicy => text "BRIGHT_POLICY"
  | .minMergeGap => text "MIN_MERGE_GAP"
  | .pre => text "PRE"
  | .impLen => text "IMP_LEN"
  | .armDist => text "ARM_DIST"
  | .doneMargin => text "DONE_MARGIN"
  | .cancelPolicy => text "CANCEL_POLICY"
  | .persistParity => text "PERSIST_PARITY"
  | .degradePolicy => text "DEGRADE_POLICY"
  | .records => text "RECORDS"
  | .reportHold => text "REPORT_HOLD"
  | .calInterval => text "CAL_INTERVAL"
  | .eventRepeat => text "EVENT_REPEAT"
  | .linkTimeout => text "LINK_TIMEOUT"
  | .minRunSpeed => text "MIN_RUN_SPEED"
  | .drainLimit => text "DRAIN_LIMIT"
  | .cleanRun => text "CLEAN_RUN"
  | .faultLimit => text "FAULT_LIMIT"
  | .tower .green => text "TOWER_GREEN"
  | .tower .amber => text "TOWER_AMBER"
  | .tower .red => text "TOWER_RED"
  | .tower .horn => text "TOWER_HORN"

/-- Every parameter of the working profile. -/
def Param.all : List Param :=
  List.flatten
    [Station.all.map Param.stn, StackPocket.all.map Param.fit, StackPocket.all.map Param.cls, StackPocket.all.map Param.cap,
      StackPocket.all.map Param.near,
      [.twist, .settle .g1, .settle .gr, .settle .g2, .settle .pkt,
      .rmCap, .rmNear, .rhCap, .rhNear, .minGap, .slipTol, .minBlock, .holdAt, .releaseAt, .lnom, .w, .z, .tPh, .tMt, .tBr,
      .qMin, .ambig, .brightPolicy, .minMergeGap, .pre, .impLen, .armDist, .doneMargin, .cancelPolicy, .persistParity,
      .degradePolicy, .records, .reportHold, .calInterval, .eventRepeat, .linkTimeout, .minRunSpeed, .drainLimit, .cleanRun,
      .faultLimit, .tower .green, .tower .amber, .tower .red, .tower .horn]]

/-- The parameter a name stands for (R183). -/
def readParam (t : Text) : Option Param :=
  named? Param.all paramName t

/-- The form of a parameter's value (R191, R192). -/
inductive Form where
  | distance | speed | metres | tenths | whole
  | choice (names : List Text)
  | twist
  | sources
deriving DecidableEq, Repr

/-- A value of a parameter: a number in the parameter's unit, the place of a name in its list, a source set, or TWIST NONE. -/
inductive Value where
  | num (n : Nat)
  | choice (k : Nat)
  | sources (s : Sources)
  | noTwist
deriving DecidableEq, Repr

/-- The form of each parameter. -/
def paramForm : Param → Form
  | .stn _ | .settle _ | .minGap | .slipTol | .minBlock | .minMergeGap | .pre | .impLen | .armDist | .doneMargin => .distance
  | .twist => .twist
  | .fit _ => .choice [text "NO", text "YES"]
  | .cls _ => .choice [text "CANCELLED", text "METERED", text "UNCANCELLED", text "OVERFLOW"]
  | .cap _ | .near _ | .rmCap | .rmNear | .rhCap | .rhNear | .holdAt | .releaseAt | .lnom | .w | .z | .tPh | .tMt | .tBr
  | .qMin | .ambig | .calInterval | .eventRepeat | .cleanRun | .faultLimit => .whole
  | .drainLimit => .metres
  | .brightPolicy => .choice [text "STAMP", text "MANUAL"]
  | .cancelPolicy => .choice [text "DIVERT", text "HOLD"]
  | .degradePolicy => .choice [text "CONTINUE", text "DRAIN"]
  | .persistParity | .records | .reportHold => .choice [text "OFF", text "ON"]
  | .linkTimeout => .tenths
  | .minRunSpeed => .speed
  | .tower _ => .sources

/-- The range of a number, in the parameter's unit (R191, R192); of a choice or a source set there is none. For EVENT_REPEAT
and LINK_TIMEOUT it is the range beside 0, which means off. -/
def paramRange : Param → Nat × Nat
  | .stn _ => (4, 40000)
  | .twist => (800, 8000)
  | .settle _ => (40, 320)
  | .cap _ | .rmCap | .rhCap => (100, 3000)
  | .near _ | .rmNear | .rhNear => (50, 2999)
  | .minGap => (120, 800)
  | .slipTol => (16, 160)
  | .minBlock => (8, 80)
  | .holdAt => (8, 62)
  | .releaseAt => (0, 61)
  | .lnom => (256, 960)
  | .w => (4, 24)
  | .z => (10, 30)
  | .tPh | .tMt | .tBr => (0, 24552)
  | .qMin => (16, 240)
  | .ambig => (8, 16)
  | .minMergeGap => (40, 800)
  | .pre => (0, 160)
  | .impLen => (160, 480)
  | .armDist => (80, 800)
  | .doneMargin => (20, 200)
  | .calInterval => (2, 60)
  | .eventRepeat => (1, 60)
  | .linkTimeout => (5, 100)
  | .minRunSpeed => (100, 400)
  | .drainLimit => (5, 200)
  | .cleanRun => (50, 5000)
  | .faultLimit => (1, 8)
  | .fit _ | .cls _ | .brightPolicy | .cancelPolicy | .degradePolicy | .persistParity | .records | .reportHold | .tower _ => (0, 0)

/-- The tuning class of R183: out of range, its values are clamped. -/
def tuning : Param → Bool
  | .lnom | .w | .z | .tPh | .tMt | .tBr | .qMin | .ambig | .pre | .impLen | .eventRepeat | .linkTimeout => true
  | .stn _ | .twist | .settle _ | .fit _ | .cls _ | .cap _ | .near _ | .rmCap | .rmNear | .rhCap | .rhNear
  | .minGap | .slipTol | .minBlock | .holdAt | .releaseAt | .brightPolicy | .minMergeGap | .armDist | .doneMargin
  | .cancelPolicy | .persistParity | .degradePolicy | .records | .reportHold | .calInterval | .minRunSpeed | .drainLimit
  | .cleanRun | .faultLimit | .tower _ => false

/-- The parameters that may change in WARMUP and STANDBY only (R191, R192). -/
def restricted : Param → Bool
  | .stn _ | .twist | .settle _ | .fit _ | .cls _ | .cap _ | .near _ | .rmCap | .rmNear | .rhCap | .rhNear
  | .minGap | .slipTol | .minBlock | .holdAt | .releaseAt => true
  | .lnom | .w | .z | .tPh | .tMt | .tBr | .qMin | .ambig | .pre | .impLen | .eventRepeat | .linkTimeout
  | .brightPolicy | .minMergeGap | .armDist | .doneMargin
  | .cancelPolicy | .persistParity | .degradePolicy | .records | .reportHold | .calInterval | .minRunSpeed | .drainLimit
  | .cleanRun | .faultLimit | .tower _ => false

/-! ### Reading and writing one parameter -/

def boolChoice (b : Bool) : Value :=
  .choice (if b then 1 else 0)

def classChoice : PocketClass → Value
  | .cancelled => .choice 0
  | .metered => .choice 1
  | .uncancelled => .choice 2
  | .overflow => .choice 3

def choiceClass : Nat → PocketClass
  | 0 => .cancelled
  | 1 => .metered
  | 2 => .uncancelled
  | _ => .overflow

def towerSources (p : Profile) : Tower → Sources
  | .green => p.green
  | .amber => p.amber
  | .red => p.red
  | .horn => p.horn

/-- The value of a parameter; none for an absent station distance (R183, R192). -/
def Profile.read (p : Profile) : Param → Option Value
  | .stn s => (p.stations.get s).map .num
  | .twist => some (match p.twist with | none => .noTwist | some t => .num t)
  | .settle .g1 => some (.num p.settleG1)
  | .settle .gr => some (.num p.settleGr)
  | .settle .g2 => some (.num p.settleG2)
  | .settle .pkt => some (.num p.settlePkt)
  | .fit q => some (boolChoice (p.stack.get q).fit)
  | .cls q => some (classChoice (p.stack.get q).cls)
  | .cap q => some (.num (p.stack.get q).cap)
  | .near q => some (.num (p.stack.get q).near)
  | .rmCap => some (.num p.rmCap)
  | .rmNear => some (.num p.rmNear)
  | .rhCap => some (.num p.rhCap)
  | .rhNear => some (.num p.rhNear)
  | .minGap => some (.num p.minGap)
  | .slipTol => some (.num p.slipTol)
  | .minBlock => some (.num p.minBlock)
  | .holdAt => some (.num p.holdAt)
  | .releaseAt => some (.num p.releaseAt)
  | .lnom => some (.num p.lnom)
  | .w => some (.num p.w)
  | .z => some (.num p.z)
  | .tPh => some (.num p.tPh)
  | .tMt => some (.num p.tMt)
  | .tBr => some (.num p.tBr)
  | .qMin => some (.num p.qMin)
  | .ambig => some (.num p.ambig)
  | .minMergeGap => some (.num p.minMergeGap)
  | .pre => some (.num p.pre)
  | .impLen => some (.num p.impLen)
  | .armDist => some (.num p.armDist)
  | .doneMargin => some (.num p.doneMargin)
  | .calInterval => some (.num p.calInterval)
  | .eventRepeat => some (.num p.eventRepeat)
  | .linkTimeout => some (.num p.linkTimeout)
  | .minRunSpeed => some (.num p.minRunSpeed)
  | .drainLimit => some (.num p.drainLimit)
  | .cleanRun => some (.num p.cleanRun)
  | .faultLimit => some (.num p.faultLimit)
  | .brightPolicy => some (.choice (match p.brightPolicy with | .stamp => 0 | .manual => 1))
  | .cancelPolicy => some (.choice (match p.cancelPolicy with | .divert => 0 | .hold => 1))
  | .degradePolicy => some (.choice (match p.degradePolicy with | .continue => 0 | .drain => 1))
  | .persistParity => some (boolChoice p.persistParity)
  | .records => some (boolChoice p.records)
  | .reportHold => some (boolChoice p.reportHold)
  | .tower l => some (.sources (towerSources p l))

/-- The number a value holds; 0 for a value of another form, which `readValue` never gives such a parameter. -/
def Value.toNum : Value → Nat
  | .num n => n
  | .choice k => k
  | .sources _ => 0
  | .noTwist => 0

/-- The profile with one parameter replaced (R183). -/
def Profile.write (p : Profile) (v : Value) : Param → Profile
  | .stn s => { p with stations := p.stations.set s (some v.toNum) }
  | .twist => { p with twist := match v with | .num t => some t | .choice _ | .sources _ | .noTwist => none }
  | .settle .g1 => { p with settleG1 := v.toNum }
  | .settle .gr => { p with settleGr := v.toNum }
  | .settle .g2 => { p with settleG2 := v.toNum }
  | .settle .pkt => { p with settlePkt := v.toNum }
  | .fit q => { p with stack := p.stack.upd q fun c => { c with fit := v.toNum == 1 } }
  | .cls q => { p with stack := p.stack.upd q fun c => { c with cls := choiceClass v.toNum } }
  | .cap q => { p with stack := p.stack.upd q fun c => { c with cap := v.toNum } }
  | .near q => { p with stack := p.stack.upd q fun c => { c with near := v.toNum } }
  | .rmCap => { p with rmCap := v.toNum }
  | .rmNear => { p with rmNear := v.toNum }
  | .rhCap => { p with rhCap := v.toNum }
  | .rhNear => { p with rhNear := v.toNum }
  | .minGap => { p with minGap := v.toNum }
  | .slipTol => { p with slipTol := v.toNum }
  | .minBlock => { p with minBlock := v.toNum }
  | .holdAt => { p with holdAt := v.toNum }
  | .releaseAt => { p with releaseAt := v.toNum }
  | .lnom => { p with lnom := v.toNum }
  | .w => { p with w := v.toNum }
  | .z => { p with z := v.toNum }
  | .tPh => { p with tPh := v.toNum }
  | .tMt => { p with tMt := v.toNum }
  | .tBr => { p with tBr := v.toNum }
  | .qMin => { p with qMin := v.toNum }
  | .ambig => { p with ambig := v.toNum }
  | .minMergeGap => { p with minMergeGap := v.toNum }
  | .pre => { p with pre := v.toNum }
  | .impLen => { p with impLen := v.toNum }
  | .armDist => { p with armDist := v.toNum }
  | .doneMargin => { p with doneMargin := v.toNum }
  | .calInterval => { p with calInterval := v.toNum }
  | .eventRepeat => { p with eventRepeat := v.toNum }
  | .linkTimeout => { p with linkTimeout := v.toNum }
  | .minRunSpeed => { p with minRunSpeed := v.toNum }
  | .drainLimit => { p with drainLimit := v.toNum }
  | .cleanRun => { p with cleanRun := v.toNum }
  | .faultLimit => { p with faultLimit := v.toNum }
  | .brightPolicy => { p with brightPolicy := if v.toNum = 0 then .stamp else .manual }
  | .cancelPolicy => { p with cancelPolicy := if v.toNum = 0 then .divert else .hold }
  | .degradePolicy => { p with degradePolicy := if v.toNum = 0 then .continue else .drain }
  | .persistParity => { p with persistParity := v.toNum == 1 }
  | .records => { p with records := v.toNum == 1 }
  | .reportHold => { p with reportHold := v.toNum == 1 }
  | .tower l =>
    let set := match v with | .sources s => s | .num _ | .choice _ | .noTwist => Sources.empty
    match l with
    | .green => { p with green := set }
    | .amber => { p with amber := set }
    | .red => { p with red := set }
    | .horn => { p with horn := set }

/-! ### The text of a value -/

/-- The names of the sources in a set, in the order of R159. -/
def sourceNames (s : Sources) : List Text :=
  [(s.run, text "RUN"), (s.feeding, text "FEEDING"), (s.held, text "HELD"), (s.fault, text "FAULT"),
    (s.pocketAttention, text "POCKET_ATTENTION"), (s.headAttention, text "HEAD_ATTENTION"),
    (s.cancelAttention, text "CANCEL_ATTENTION"), (s.anyFlag, text "ANY_FLAG")].filterMap
    fun p => if p.1 then some p.2 else none

/-- A set with one source added by name; none for a name of no source. -/
def addSource (s : Sources) (t : Text) : Option Sources :=
  if t = text "RUN" then some { s with run := true }
  else if t = text "FEEDING" then some { s with feeding := true }
  else if t = text "HELD" then some { s with held := true }
  else if t = text "FAULT" then some { s with fault := true }
  else if t = text "POCKET_ATTENTION" then some { s with pocketAttention := true }
  else if t = text "HEAD_ATTENTION" then some { s with headAttention := true }
  else if t = text "CANCEL_ATTENTION" then some { s with cancelAttention := true }
  else if t = text "ANY_FLAG" then some { s with anyFlag := true }
  else none

/-- A list of sources as SET takes it: names joined by commas, `-` for the empty set (R190, log entry 17). -/
def readSources (t : Text) : Option Sources :=
  if t = absent then some Sources.empty
  else (splitAt chComma t).foldl (fun acc f => do let s ← acc; addSource s f) (some Sources.empty)

/-- A distance in millimetres, with the decimals of its quarter (log entry 17). -/
def mmText (counts : Nat) : Text :=
  match counts % 4 with
  | 0 => dec (counts / 4)
  | 1 => dec (counts / 4) ++ text ".25"
  | 2 => dec (counts / 4) ++ text ".5"
  | _ => dec (counts / 4) ++ text ".75"

/-- A value as GET and SET reply it (R183, R190). -/
def valueText (f : Form) : Option Value → Text
  | none => absent
  | some .noTwist => text "NONE"
  | some (.sources s) => listField (sourceNames s)
  | some (.choice k) => match f with
    | .choice names => (names[k]?).getD absent
    | .distance | .speed | .metres | .tenths | .whole | .twist | .sources => absent
  | some (.num n) => match f with
    | .distance | .twist => mmText n
    | .speed => dec2 n
    | .metres => dec2 (100 * n)
    | .tenths => dec (n / 10) ++ [chStop, digitChar (n % 10)]
    | .whole => dec n
    | .choice _ | .sources => absent

/-- What a SET value comes to: a value to store, marked where it was clamped, or a refusal RANGE (R183 steps 3 and 4). -/
inductive SetValue where
  | store (v : Value) (clamped : Bool)
  | range
deriving DecidableEq, Repr

/-- A number against the range of its parameter (R183): a tuning value is clamped to the nearer end, a structural one outside
its range is refused. EVENT_REPEAT takes 0 as off and a value between 0 and 1 s as 1 s; LINK_TIMEOUT takes 0 as off and a value
between 0 and 0.5 s as 0.5 s (R147). -/
def clampNum (p : Param) (n : Int) : SetValue :=
  let lo := (paramRange p).1
  let hi := (paramRange p).2
  if (p = .eventRepeat ∨ p = .linkTimeout) ∧ n ≤ 0 then .store (.num 0) (decide (n < 0))
  else if (lo : Int) ≤ n ∧ n ≤ hi then .store (.num n.toNat) false
  else if tuning p then .store (.num (if n < lo then lo else hi)) true
  else .range

/-- The value a SET's second field gives its parameter (R183 steps 3 and 4). -/
def readValue (p : Param) (t : Text) : SetValue :=
  match paramForm p with
  | .distance => match readUnits 4 t with | none => .range | some n => clampNum p n
  | .speed => match readUnits 100 t with | none => .range | some n => clampNum p n
  | .metres => match readUnits 1 t with | none => .range | some n => clampNum p n
  | .tenths => match readUnits 10 t with | none => .range | some n => clampNum p n
  | .whole =>
    match readUnits 1 t with
    | some n => clampNum p n
    | none =>
      match p, readDecimal t with
      | .eventRepeat, some (n, k) => if 0 < n ∧ n < (10 ^ k : Nat) then .store (.num 1) true else .range
      | _, _ => .range
  | .choice names => match names.findIdx? (· == t) with | none => .range | some k => .store (.choice k) false
  | .twist => if t = text "NONE" then .store .noTwist false
      else match readUnits 4 t with | none => .range | some n => clampNum p n
  | .sources => match readSources t with | none => .range | some s => .store (.sources s) false

/-! ### Geometry -/

/-- A station distance in counts; 0 while it is absent, which no running line meets (R193, log entry 34). -/
def Profile.dist (p : Profile) (s : Station) : Nat :=
  (p.stations.get s).getD 0

/-- The twist extra in counts; 0 where the loop is not fitted (R79). -/
def Profile.twistExtra (p : Profile) : Nat :=
  p.twist.getD 0

/-- The geometry is set when every station distance is present (R192). -/
def Profile.geometrySet (p : Profile) : Bool :=
  p.stations.toList.all (·.isSome)

/-- The station of a stream pocket (R121). -/
def stackStation : StackPocket → Station
  | .a1 => .a1
  | .a2 => .a2
  | .a3 => .a3
  | .a4 => .a4
  | .a5 => .a5
  | .a6 => .a6
  | .b1 => .b1
  | .b2 => .b2
  | .b3 => .b3
  | .b4 => .b4
  | .b5 => .b5
  | .b6 => .b6

/-- The pocket id of a stream pocket. -/
def stackPocket : StackPocket → Pocket
  | .a1 => .a1
  | .a2 => .a2
  | .a3 => .a3
  | .a4 => .a4
  | .a5 => .a5
  | .a6 => .a6
  | .b1 => .b1
  | .b2 => .b2
  | .b3 => .b3
  | .b4 => .b4
  | .b5 => .b5
  | .b6 => .b6

/-- The stream pocket a pocket id names, if it is one. -/
def stackOf : Pocket → Option StackPocket
  | .a1 => some .a1
  | .a2 => some .a2
  | .a3 => some .a3
  | .a4 => some .a4
  | .a5 => some .a5
  | .a6 => some .a6
  | .b1 => some .b1
  | .b2 => some .b2
  | .b3 => some .b3
  | .b4 => some .b4
  | .b5 => some .b5
  | .b6 => some .b6
  | .rm | .rh | .ea | .eb | .er => none

/-- The stream of a stream pocket. -/
def stackStream : StackPocket → Stream
  | .a1 | .a2 | .a3 | .a4 | .a5 | .a6 => .a
  | .b1 | .b2 | .b3 | .b4 | .b5 | .b6 => .b

/-- The stream pockets of one stream, pocket 1 first (R121). -/
def stackOn : Stream → List StackPocket
  | .a => [.a1, .a2, .a3, .a4, .a5, .a6]
  | .b => [.b1, .b2, .b3, .b4, .b5, .b6]

/-- An end bin of R121. -/
def isBin : Pocket → Bool
  | .ea | .eb | .er => true
  | .a1 | .a2 | .a3 | .a4 | .a5 | .a6 | .b1 | .b2 | .b3 | .b4 | .b5 | .b6 | .rm | .rh => false

/-- Whether the pocket is fitted; always so for RM and RH (R122). End bins are not fitted pockets. -/
def Profile.fitted (p : Profile) (q : Pocket) : Bool :=
  match stackOf q with
  | some sp => (p.stack.get sp).fit
  | none => !isBin q

/-- The capacity of a stream or reject pocket (R122); 0 for an end bin, which has none. -/
def Profile.capacity (p : Profile) (q : Pocket) : Nat :=
  match stackOf q with
  | some sp => (p.stack.get sp).cap
  | none => match q with
    | .rm => p.rmCap
    | .rh => p.rhCap
    | .ea | .eb | .er | .a1 | .a2 | .a3 | .a4 | .a5 | .a6 | .b1 | .b2 | .b3 | .b4 | .b5 | .b6 => 0

/-- The near-full mark of a stream or reject pocket (R122). -/
def Profile.nearFull (p : Profile) (q : Pocket) : Nat :=
  match stackOf q with
  | some sp => (p.stack.get sp).near
  | none => match q with
    | .rm => p.rmNear
    | .rh => p.rhNear
    | .ea | .eb | .er | .a1 | .a2 | .a3 | .a4 | .a5 | .a6 | .b1 | .b2 | .b3 | .b4 | .b5 | .b6 => 0

/-! ### The START checks -/

/-- The seventeen START checks, in their order (R193). -/
inductive StartCheck where
  | unset | orderA | orderB | orderR | scan | decision | turnGate | rejectGate | gap | mergeGap | selectA | selectB
  | classesA | classesB | nearFull | tableMarks | window
deriving DecidableEq, Repr

/-- The checks in the order of R193. -/
def StartCheck.all : List StartCheck :=
  [.unset, .orderA, .orderB, .orderR, .scan, .decision, .turnGate, .rejectGate, .gap, .mergeGap, .selectA, .selectB,
    .classesA, .classesB, .nearFull, .tableMarks, .window]

/-- Each distance of the list lies before the next. -/
def rising : List Nat → Bool
  | [] => true
  | [_] => true
  | a :: b :: rest => decide (a < b) && rising (b :: rest)

/-- A stream has, for each of CANCELLED, METERED and UNCANCELLED, a fitted pocket of that class or a fitted OVERFLOW pocket. -/
def Profile.classesOn (p : Profile) (s : Stream) : Bool :=
  let fit := (stackOn s).map p.stack.get |>.filter (·.fit)
  [PocketClass.cancelled, .metered, .uncancelled].all fun c => fit.any fun x => decide (x.cls = c ∨ x.cls = .overflow)

/-- The largest of the four settle distances. -/
def Profile.largestSettle (p : Profile) : Nat :=
  max (max p.settleG1 p.settleGr) (max p.settleG2 p.settlePkt)

/-- Whether one START check passes (R193). Distances are compared in counts, four to the millimetre. -/
def Profile.passes (p : Profile) : StartCheck → Bool
  | .unset => p.geometrySet
  | .orderA => rising ([.pe1, .sh, .dp, .g1, .mp, .pe2, .g2, .pe3a, .ca, .psa, .a1, .a2, .a3, .a4, .a5, .a6, .ea].map p.dist)
  | .orderB => rising ([.pe1, .sh, .dp, .g1, .mp, .pe2, .g2, .pe3b, .cb, .psb, .b1, .b2, .b3, .b4, .b5, .b6, .eb].map p.dist)
  | .orderR => rising ([.g1, .pe4r, .gr, .psr].map p.dist) && rising ([.psr, .rm, .er].map p.dist)
      && rising ([.psr, .rh, .er].map p.dist)
  | .scan => decide (1200 + p.minBlock + 16 ≤ p.dist .sh)
  | .decision => decide (p.dist .sh + 1232 ≤ p.dist .dp)
  | .turnGate => decide (p.dist .dp + p.settleG1 + p.slipTol ≤ p.dist .g1)
  | .rejectGate => decide (p.dist .dp + p.settleGr + p.slipTol ≤ p.dist .gr)
  | .gap => decide (p.largestSettle + 2 * p.slipTol ≤ p.minGap)
  | .mergeGap => decide (p.minMergeGap ≤ p.minGap)
  | .selectA => decide (p.dist .ca + 1200 + p.doneMargin ≤ p.dist .psa)
  | .selectB => decide (p.dist .cb + 1200 + p.doneMargin ≤ p.dist .psb)
  | .classesA => p.classesOn .a
  | .classesB => p.classesOn .b
  | .nearFull => (p.stack.toList.all fun c => decide (c.near < c.cap)) && decide (p.rmNear < p.rmCap)
      && decide (p.rhNear < p.rhCap)
  | .tableMarks => decide (p.releaseAt < p.holdAt)
  | .window => decide (p.w ≤ p.z)

/-- The first START check that fails, if any (R193). -/
def Profile.failing (p : Profile) : Option StartCheck :=
  StartCheck.all.find? fun c => !p.passes c

def checkName : StartCheck → Text
  | .unset => text "UNSET"
  | .orderA => text "ORDER_A"
  | .orderB => text "ORDER_B"
  | .orderR => text "ORDER_R"
  | .scan => text "SCAN"
  | .decision => text "DECISION"
  | .turnGate => text "TURN_GATE"
  | .rejectGate => text "REJECT_GATE"
  | .gap => text "GAP"
  | .mergeGap => text "MERGE_GAP"
  | .selectA => text "SELECT_A"
  | .selectB => text "SELECT_B"
  | .classesA => text "CLASSES_A"
  | .classesB => text "CLASSES_B"
  | .nearFull => text "NEAR_FULL"
  | .tableMarks => text "TABLE_MARKS"
  | .window => text "WINDOW"

def pocketClassName : PocketClass → Text
  | .cancelled => text "CANCELLED"
  | .metered => text "METERED"
  | .uncancelled => text "UNCANCELLED"
  | .overflow => text "OVERFLOW"

end Sys2Proof.Machine
end

