-- ==== Sys2Proof/Config.lean ====
section
/-! DEFINITION. The values the spec leaves open: constants with no body, so that no proof can see what they are. -/

namespace Sys2Proof.Config

open Sys2Proof.Machine

/-- The CRC-16 over a format number and the parameters. R194 gives neither its polynomial nor the layout it runs over. DESIGN CHOICE
(log entry 10): a free value, a function of the two. -/
opaque imageCrc : Nat → Profile → BitVec 16

/-- The CRC-16 that stands in the image while a write is in progress, and after one cut short by power loss (R196), for the n-th such
loss. DESIGN CHOICE (log entry 11): a free value, which an image takes only as far as it fails the check. -/
opaque tornCrc : Nat → BitVec 16

/-- The format number that a write cut short by power loss leaves in the image (R196), for the n-th such loss.
DESIGN CHOICE (log entry 11): a free value. -/
opaque tornFormat : Nat → Nat

/-! Where two rules of the spec give one event two outcomes and nothing settles which holds, the choice between the two is a free value: every
claim is true under either rule. -/

/-- Whether the factory default of MIN_GAP is R12's 64 mm (true) or R191's 60 mm (false). DESIGN CHOICE (log entry 13): a free value. -/
opaque minGapOfR12 : Bool

/-- Whether a GET of a name is taken in POWERUP as R183 takes it in every line state (true), or refused with WRONG_STATE as R191 says
(false). DESIGN CHOICE (log entry 39): a free value for each name. -/
opaque getInPowerup : Text → Bool

/-- Whether a SET of a name is taken in POWERUP under the checks of R183, as R159 and R176 have it for the tower source sets and REPORT_HOLD
(true), or refused with WRONG_STATE as R191 says (false). DESIGN CHOICE (log entry 39): a free value for each name. -/
opaque setInPowerup : Text → Bool

/-- Whether the report of PROFILE_DEFAULTED is the second line sent after a reset, as R195 says (true), or takes its turn among the replies and
reports of POWERUP as R185 and R187 pick them (false). DESIGN CHOICE (log entry 49): a free value. -/
opaque defaultedSecond : Bool

end Sys2Proof.Config
end

