-- ==== Sys2Proof/Machine/Types.lean ====
section
/-! DEFINITION. The records the part keeps: letter entries, head records, gates, cancellers, pockets, counters, link items. Plain
data, one structure for each record the spec names. -/

namespace Sys2Proof.Machine

/-! ### Letters (chapter 1) -/

/-- The early dispositions (R6, R8). -/
inductive Early where
  | offsize | gap | double | unscanned
deriving DecidableEq, Repr

/-- The scan states (R6). -/
inductive ScanState where
  | none | scanning | waiting | computing | done | aborted
deriving DecidableEq, Repr

/-- The paths (R6). -/
inductive Path where
  | straight | twist | reject
deriving DecidableEq, Repr

/-- The latched scan parameters (R47). -/
structure Latched where
  lnom   : Nat
  w      : Nat
  z      : Nat
  tPh    : Nat
  tMt    : Nat
  tBr    : Nat
  qMin   : Nat
  ambig  : Nat
  n      : Nat
  lref   : PerHead Nat
  usable : PerHead Bool
deriving DecidableEq, Repr

/-- The mark result (R66). -/
structure MarkResult where
  cls       : MarkClass
  orient    : Option Orient
  strength  : Option Nat
  cell      : Option Nat
  q         : Option Nat
  degraded  : Bool
  saturated : Bool
deriving DecidableEq, Repr

/-- The cancel outcomes (R83, R97). -/
inductive CancelOutcome where
  | pending | done | skippedBusy | skippedUnavailable | skippedParity | failed
deriving DecidableEq, Repr

inductive Direction where
  | forward | reversed
deriving DecidableEq, Repr

inductive Density where
  | full | reduced
deriving DecidableEq, Repr

/-- A cancel job (R83), with the marks of its positions taken (R3, R103). `dater` copies the dater record, which START requires
to be present. -/
structure CancelJob where
  outcome   : CancelOutcome
  dater     : Option Dater
  pre       : Nat
  impLen    : Nat
  direction : Direction
  winStart  : Nat
  winEnd    : Nat
  truncated : Bool
  density   : Option Density
  armTaken  : Bool
  fireTaken : Bool
deriving DecidableEq, Repr

/-- A letter entry (R6), with the mark of its SH position taken (R3) and whether it is in the scan station (R40). -/
structure Entry where
  number    : LetterNo
  anchor    : Pos
  length0   : Option Nat
  length1   : Option Int
  early     : Option Early
  scan      : ScanState
  latched   : Option Latched
  result    : Option MarkResult
  late      : Bool
  path      : Option Path
  stream    : Option Stream
  cause     : Option RejectCause
  job       : Option CancelJob
  pocket    : Option Pocket
  lastPe    : Photocell
  stranded  : Bool
  shTaken   : Bool
  inStation : Bool
deriving DecidableEq, Repr

/-- The Track Unit (R20). Its PE0 measurement record is `measuring`, `overTaken` and `prevTail` (R9). -/
structure Trk where
  belt       : Pos
  samples    : List Pos
  speed      : Nat
  table      : List Entry
  nextNumber : LetterNo
  measuring  : Option LetterNo
  overTaken  : Bool
  prevTail   : Option Pos
deriving DecidableEq, Repr

/-! ### Photocells (chapter 2) -/

/-- A pending change: the belt position and the time at which the raw level last came to differ (R21). -/
structure Change where
  pos  : Pos
  time : Nat
deriving DecidableEq, Repr

/-- One photocell (R21). -/
structure CellRec where
  raw    : Level
  qual   : Level
  change : Option Change
deriving DecidableEq, Repr

/-- A filled passing slot (R30). -/
structure Passing where
  letter  : LetterNo
  arrival : Pos
  blocked : Pos
deriving DecidableEq, Repr

/-- The supervision of one photocell: its expected-arrival list and passing slot (R24, R30). -/
structure SupRec where
  expected : List LetterNo
  passing  : Option Passing
deriving DecidableEq, Repr

structure Pcm where
  cells : PerCell CellRec
  sups  : PerSup SupRec
deriving DecidableEq, Repr

/-! ### Scan heads and buffers (chapter 3) -/

inductive HeadState where
  | cold | warming | ready | weak | failed
deriving DecidableEq, Repr

/-- A scan pulse: the letter, its buffer, the cell, and the scheduled position it fell due at (R36, R48). -/
structure Pulse where
  letter : LetterNo
  buf    : Buf
  cell   : Nat
  pos    : Pos
deriving DecidableEq, Repr

/-- What an outstanding pulse was sent for. An answer to a dropped one is discarded (R50). -/
inductive PulseFor where
  | calibration
  | scan (p : Pulse)
  | dropped
deriving DecidableEq, Repr

/-- The outstanding pulse of a head link, with the drive code of its command (R36). -/
structure Outstanding where
  what : PulseFor
  code : Nat
deriving DecidableEq, Repr

/-- A head record and its link (R36, R37, R42). -/
structure HeadRec where
  state   : HeadState
  run     : Nat
  code    : Nat
  refCode : Nat
  lref    : Nat
  out     : Option Outstanding
  waiting : List Pulse
deriving DecidableEq, Repr

/-- The three values of a sample (R35). -/
structure Sample where
  gp : Nat
  ga : Nat
  rp : Nat
deriving DecidableEq, Repr

inductive BufPhase where
  | free | filling | waiting | computing | capture
deriving DecidableEq, Repr

/-- A scan buffer (R45): its state and letter, the next cell to be pulsed, the samples of each head in cell order, and the first
cell written as 0 for each lost head (R49). -/
structure BufRec where
  phase  : BufPhase
  letter : Option LetterNo
  next   : Nat
  cells  : PerHead (List Sample)
  lost   : PerHead (Option Nat)
deriving DecidableEq, Repr

structure Scu where
  heads    : PerHead HeadRec
  bufs     : PerBuf BufRec
  calStart : Nat
  calDue   : Bool
deriving DecidableEq, Repr

/-! ### Mark Finder (chapter 4) -/

/-- An item of the work list (R53). -/
structure WorkItem where
  buf    : Buf
  letter : LetterNo
  time   : Nat
deriving DecidableEq, Repr

/-- The computing slot's item, an item of the work list with the latched values read at take-up (R53). -/
structure SlotItem where
  buf    : Buf
  letter : LetterNo
  time   : Nat
  params : Option Latched
deriving DecidableEq, Repr

inductive Channel where
  | gp | ga | rp
deriving DecidableEq, Repr

/-- One capture line still to be sent: its head, channel and first cell (R73). -/
structure CaptureKey where
  head    : Head
  channel : Channel
  first   : Nat
deriving DecidableEq, Repr

/-- A draining capture (R71). -/
structure Draining where
  buf    : Buf
  letter : LetterNo
  cls    : MarkClass
  lines  : List CaptureKey
deriving DecidableEq, Repr

/-- The capture slot (R71); ARMED with none wants ANY. -/
inductive Capture where
  | off
  | armed (wanted : Option MarkClass)
  | draining (d : Draining)
deriving DecidableEq, Repr

structure Mkf where
  work    : List WorkItem
  slot    : Option SlotItem
  capture : Capture
deriving DecidableEq, Repr

/-! ### Gates (chapter 5) -/

inductive Setting where
  | straight | twist | reject | machine | manual | a | b | divert | pass
deriving DecidableEq, Repr

/-- The user of a gate: its letter, and the distance from the letter's anchor to its clear position (R87). -/
structure GateUser where
  letter : LetterNo
  dist   : Nat
deriving DecidableEq, Repr

/-- A gate record (R85). `settle` is the settle end while SETTLING, absent while IDLE. -/
structure GateRec where
  setting : Setting
  settle  : Option Pos
  user    : Option GateUser
  queue   : List (LetterNo × Setting)
deriving DecidableEq, Repr

/-- The previous main-line letter and its merge tail (R80). -/
structure MergeRec where
  letter : LetterNo
  tail   : Pos
deriving DecidableEq, Repr

structure Ptc where
  gates : PerGate GateRec
  merge : Option MergeRec
deriving DecidableEq, Repr

/-! ### Cancellers (chapter 6) -/

inductive CancState where
  | off | priming | ready | arming | armed | printing | overheat | fault
deriving DecidableEq, Repr

inductive CancCause where
  | primeTimeout | timeout | parity | module
deriving DecidableEq, Repr

/-- An impression record (R104). -/
structure Impression where
  letter    : LetterNo
  direction : Direction
  density   : Density
  length    : Nat
  dater     : Option Dater
deriving DecidableEq, Repr

/-- A frame the part sends on a print link (R95). -/
inductive Frame where
  | prime
  | impression (i : Impression)
  | abort
  | standby
deriving DecidableEq, Repr

/-- A canceller record (R97), the frames called for on its print link, and the letters its strobe was pulsed for (R95). -/
structure CancRec where
  state      : CancState
  held       : Option LetterNo
  deferred   : Option LetterNo
  cause      : Option CancCause
  parityRun  : Nat
  band       : Band
  module     : ModuleState
  faultCode  : Option (BitVec 8)
  armDist    : Nat
  doneMargin : Nat
  primeTimer : Option Nat
  replyTimer : Option Nat
  frames     : List Frame
  strobes    : List LetterNo
deriving DecidableEq, Repr

structure Can where
  recs  : PerStream CancRec
  dater : Option Dater
deriving DecidableEq, Repr

/-! ### Pockets (chapter 7) -/

inductive PocketState where
  | open | nearFull | full | sweepPending | sweep | disabled
deriving DecidableEq, Repr

/-- A pocket or end bin record (R122) with its raw sensor, the time of a raw change not yet qualified (R123), and the time of a
button press in progress (R132). An end bin has no state: its field stays OPEN. -/
structure PocketRec where
  count     : Nat
  committed : Nat
  state     : PocketState
  raw       : Paddle
  sensor    : Paddle
  change    : Option Nat
  press     : Option Nat
deriving DecidableEq, Repr

/-- The eight classes judged for the blocked set (R138). -/
inductive BlockClass where
  | on (s : Stream) (c : PocketClass)
  | machine
  | manual
deriving DecidableEq, Repr

structure Pkc where
  recs    : PerPocket PocketRec
  blocked : List BlockClass
deriving DecidableEq, Repr

/-! ### The line (chapter 8) -/

inductive LineState where
  | powerup | warmup | standby | starting | run | drain | fault
deriving DecidableEq, Repr

inductive Jam where
  | missing | blocked
deriving DecidableEq, Repr

/-- A fault call: its cause and detail (R153). -/
inductive FaultCall where
  | jam (cell : Photocell) (kind : Jam)
  | stray (cell : Photocell)
  | overrunTable
  | overrunGate (gate : Gate)
  | speed
  | drain
  | endBinFull (bin : Pocket)
  | estop
deriving DecidableEq, Repr

/-- The cause of a change of line state (R142). -/
inductive LineCause where
  | start | runUp | stop | linkSilent | head | empty | clear | warm | warmupLimit | loaded
  | fault (call : FaultCall)
deriving DecidableEq, Repr

inductive HoldCause where
  | table | pockets | cancel | records | line
deriving DecidableEq, Repr

/-- The hold cause set (R150). -/
structure Holds where
  table   : Bool
  pockets : Bool
  cancel  : Bool
  records : Bool
  line    : Bool
deriving DecidableEq, Repr

/-- The fault record (R155). -/
structure FaultRec where
  call : FaultCall
  pos  : Pos
  left : LineState
deriving DecidableEq, Repr

structure Flc where
  line       : LineState
  holds      : Holds
  countdown  : Option Pos
  fault      : Option FaultRec
  faultCount : Nat
  cleanRun   : Nat
  runUp      : Option Nat
  runUpQual  : Option Nat
  warmup     : Option Nat
  drainLimit : Option Pos
  estop      : Bool
  horn       : Option Nat
deriving DecidableEq, Repr

/-! ### Counts and records (chapter 9) -/

/-- Page 0, less IN_TABLE (R162). -/
structure FlowPage where
  inducted  : Counter
  scanned   : Counter
  unscanned : Counter
  stacked   : Counter
  rejected  : Counter
  cleared   : Counter
  late      : Counter
deriving DecidableEq, Repr

/-- Page 1. -/
structure MarksPage where
  classes   : PerClass Counter
  degraded  : Counter
  saturated : Counter
  orients   : PerOrient Counter
deriving DecidableEq, Repr

/-- Page 3 for one stream. -/
structure CancelPage where
  done         : Counter
  busy         : Counter
  unavailable  : Counter
  parity       : Counter
  failed       : Counter
  truncated    : Counter
  reduced      : Counter
  parityErrors : Counter
deriving DecidableEq, Repr

/-- Page 6, less UTILISATION. -/
structure LinePage where
  faultStops    : Counter
  holdCrossings : Counter
  beltRunMm     : Counter
  lengthSumMm   : Counter
  recordsLost   : Counter
deriving DecidableEq, Repr

/-- The live bank (R162). -/
structure Bank where
  flow    : FlowPage
  marks   : MarksPage
  rejects : PerCause Counter
  cancel  : PerStream CancelPage
  pockets : PerPocket Counter
  lengths : PerBucket Counter
  line    : LinePage
deriving DecidableEq, Repr

/-- The snapshot (R170). -/
structure Snapshot where
  number      : Counter
  pos         : Pos
  bank        : Bank
  inTable     : Nat
  utilisation : Nat
deriving DecidableEq, Repr

inductive Disposition where
  | stacked (p : Pocket)
  | cleared
deriving DecidableEq, Repr

/-- A letter record (R173). An absent class is NOT_SCANNED; `marks` holds truncated and reduced where there is a job. -/
structure LetterRecord where
  number      : LetterNo
  length      : Option Nat
  cls         : Option MarkClass
  orient      : Option Orient
  strength    : Option Nat
  cell        : Option Nat
  q           : Option Nat
  degraded    : Bool
  saturated   : Bool
  late        : Bool
  path        : Option Path
  stream      : Option Stream
  outcome     : Option CancelOutcome
  marks       : Option (Bool × Bool)
  disposition : Disposition
  committed   : Option Pocket
  cause       : Option RejectCause
deriving DecidableEq, Repr

structure Cnb where
  bank      : Bank
  remainder : Int
  snap      : Snapshot
  records   : List LetterRecord
deriving DecidableEq, Repr

/-! ### The line link (chapter 10) -/

/-- The receive line buffer and its marks (R178). -/
structure Rx where
  buf      : Text
  overlong : Bool
  bad      : Bool
  crNoted  : Bool
  crLast   : Bool
  lastChar : Nat
deriving DecidableEq, Repr

inductive LinkError where
  | check | length
  | unknown (field : Text)
  | gap | overflow
deriving DecidableEq, Repr

inductive ImageFault where
  | format | crc
deriving DecidableEq, Repr

inductive ResetCause where
  | power | restart
deriving DecidableEq, Repr

/-- The detail of a flag's last setting (R186). -/
inductive Detail where
  | line (state : LineState) (cause : LineCause) (snapshot : Option Counter)
  | fault (call : FaultCall)
  | held (causes : List HoldCause)
  | released
  | head (h : Head) (state : HeadState)
  | canceller (s : Stream) (state : CancState) (cause : Option CancCause)
  | parity (s : Stream) (letter : LetterNo)
  | pocket (p : Pocket) (state : PocketState)
  | bin (p : Pocket) (level : Paddle)
  | lost (letter : LetterNo) (count : Counter)
  | linkError (e : LinkError)
  | silent (line : LineState)
  | defaulted (f : ImageFault)
  | reset (c : ResetCause)
  | captured (letter : LetterNo) (cls : MarkClass)
deriving DecidableEq, Repr

/-- One event flag (R186, R187). `detail` is absent until the first setting; `repeating` is the start of a running repeat timer. -/
structure Flag where
  set       : Bool
  detail    : Option Detail
  masked    : Bool
  repeating : Option Nat
deriving DecidableEq, Repr

/-- The refusal causes of a request (R181). -/
inductive Deny where
  | check | length | unknown | busy | wrongState | range | name | estop | geometry | daterUnset | heads | repeatedFault
  | endBinFull | photocell | committed | notFitted
deriving DecidableEq, Repr

/-- A reply (R181): accepted with its results, or refused with a cause and perhaps a detail. -/
inductive Reply where
  | ok (verb : Text) (results : List Text)
  | deny (verb : Text) (cause : Deny) (detail : Option Text)
deriving DecidableEq, Repr

/-- The POCKET actions (R136). -/
inductive PocketAction where
  | sweep | done | disable | enable
deriving DecidableEq, Repr

/-- A valid request line (R179): its verb and arguments, or a verb whose arguments are missing, surplus or malformed (R181). -/
inductive Request where
  | ping
  | status (part : Option Section)
  | start
  | stop
  | clear (override : Bool)
  | hold (distance : Option Int)
  | release
  | set (name : Text) (value : Text)
  | get (name : Text)
  | save
  | load
  | dater (record : Dater)
  | pocket (p : Pocket) (action : PocketAction)
  | pockets (p : Option Pocket)
  | snap
  | count (page : Nat)
  | zero
  | mask (kinds : List Kind)
  | ack (kinds : List Kind)
  | flags
  | headRetry (h : Head)
  | cancellerClear (s : Stream)
  | capture (wanted : Option MarkClass)
  | captureOff
  | table (first : Option Nat)
  | restart
  | malformed (verb : Text)
deriving DecidableEq, Repr

/-- An item of the answer list (R180). Only a SAVE is IN_PROGRESS. -/
inductive Item where
  | waiting (r : Request)
  | inProgress
  | answered (r : Reply)
deriving DecidableEq, Repr

/-- A capture line (R73). -/
structure CaptureLine where
  letter : LetterNo
  key    : CaptureKey
  values : List Nat
deriving DecidableEq, Repr

/-- The line the transmitter is sending (R185). -/
inductive TxLine where
  | reply (r : Reply)
  | report (k : Kind) (d : Option Detail)
  | record (r : LetterRecord)
  | capture (l : CaptureLine)
deriving DecidableEq, Repr

/-- How far the lines that follow a reset have come (R189, R195): whether the report of PROFILE_DEFAULTED is still to be sent as
the second one, where it is to be (log entry 49). -/
inductive Opening where
  /-- The stored image fails its check and its load is not complete: no line is begun behind that of RESET. -/
  | loading
  /-- The load is complete: the report of PROFILE_DEFAULTED is the next line. -/
  | due
  /-- The lines follow one another by R185 alone. -/
  | done
deriving DecidableEq, Repr

structure Llk where
  rx           : Rx
  answers      : List Item
  restarting   : Bool
  silenceStart : Nat
  silent       : Bool
  flags        : PerKind Flag
  reports      : List Kind
  tx           : Option TxLine
  opening      : Opening
deriving DecidableEq, Repr

/-! ### The profile store (chapter 11) -/

/-- The stored profile image (R194): its format number, its copy of every parameter, and its CRC-16 over the two. -/
structure Image where
  format   : Nat
  contents : Profile
  crc      : BitVec 16
deriving DecidableEq, Repr

structure Pfs where
  profile : Profile
  image   : Image
  saving  : Option Profile
deriving DecidableEq, Repr

end Sys2Proof.Machine
end

