-- ==== Sys2Proof/Machine/Reset.lean ====
section
/-! DEFINITION. The values of each block after reset: the tables of R20, R34, R52, R75, R94, R97 and R120, R141, R161, R177, R189; and
the factory defaults of the profile (R191, R192), with the check of the stored image (R194). -/

namespace Sys2Proof.Machine

/-- The factory defaults of R191 and R192: geometry unset, no stream pocket fitted. MIN_GAP is R12's
64 mm or R191's 60 mm, a free value between the two (log entry 13). -/
def Profile.factory : Profile where
  stations := PerStation.fill none
  twist := none
  settleG1 := 160
  settleGr := 160
  settleG2 := 160
  settlePkt := 160
  stack := PerStack.fill { fit := false, cls := .overflow, cap := 1000, near := 900 }
  rmCap := 1000
  rmNear := 900
  rhCap := 1000
  rhNear := 900
  minGap := if Config.minGapOfR12 then 256 else 240
  slipTol := 48
  minBlock := 32
  holdAt := 56
  releaseAt := 40
  lnom := 800
  w := 12
  z := 25
  tPh := 2400
  tMt := 3000
  tBr := 4000
  qMin := 64
  ambig := 12
  brightPolicy := .manual
  minMergeGap := 160
  pre := 32
  impLen := 400
  armDist := 400
  doneMargin := 80
  cancelPolicy := .divert
  persistParity := false
  degradePolicy := .continue
  records := true
  reportHold := false
  calInterval := 10
  eventRepeat := 5
  linkTimeout := 20
  minRunSpeed := 300
  drainLimit := 30
  cleanRun := 500
  faultLimit := 3
  green := { Sources.empty with feeding := true }
  amber := { Sources.empty with pocketAttention := true, headAttention := true, cancelAttention := true }
  red := { Sources.empty with fault := true }
  horn := Sources.empty

/-- The check of the stored image (R194, R195). -/
def imageFault (i : Image) : Option ImageFault :=
  if i.format ≠ 1 then some .format else if i.crc = Config.imageCrc i.format i.contents then none else some .crc

/-- R20. -/
def resetTrk : Trk where
  belt := 0
  samples := List.replicate 16 0
  speed := 0
  table := []
  nextNumber := 1
  measuring := none
  overTaken := false
  prevTail := none

/-- R34: each photocell takes its raw level as its qualified level, with the pending change absent. -/
def resetPcm (raw : PerCell Level) : Pcm where
  cells := raw.map fun l => { raw := l, qual := l, change := none }
  sups := PerSup.fill { expected := [], passing := none }

/-- R52. -/
def resetHead : HeadRec where
  state := .cold
  run := 0
  code := 8
  refCode := 8
  lref := 0
  out := none
  waiting := []

/-- A FREE scan buffer (R45). -/
def freeBuf : BufRec where
  phase := .free
  letter := none
  next := 0
  cells := PerHead.fill []
  lost := PerHead.fill none

/-- R52. -/
def resetScu : Scu where
  heads := PerHead.fill resetHead
  bufs := PerBuf.fill freeBuf
  calStart := 0
  calDue := false

/-- R75. -/
def resetMkf : Mkf where
  work := []
  slot := none
  capture := .off

/-- The rest settings (R85). -/
def restSetting : Gate → Setting
  | .g1 => .reject
  | .g2 => .a
  | .gr => .machine
  | .a1 | .a2 | .a3 | .a4 | .a5 | .a6 | .b1 | .b2 | .b3 | .b4 | .b5 | .b6 | .rm | .rh => .pass

/-- A gate at rest: IDLE, no user, queue empty. -/
def restGate (s : Setting) : GateRec where
  setting := s
  settle := none
  user := none
  queue := []

/-- R94. -/
def resetPtc : Ptc where
  gates := { PerGate.fill (restGate .pass) with g1 := restGate .reject, g2 := restGate .a, gr := restGate .machine }
  merge := none

/-- R97, R120, with the STANDBY frame sent at reset (R95). The arm distance and done margin are those of the working profile
(log entry 24). -/
def resetCanc (p : Profile) : CancRec where
  state := .off
  held := none
  deferred := none
  cause := none
  parityRun := 0
  band := .normal
  module := .unprimed
  faultCode := none
  armDist := p.armDist
  doneMargin := p.doneMargin
  primeTimer := none
  replyTimer := none
  frames := [.standby]
  strobes := []

def resetCan (p : Profile) : Can where
  recs := PerStream.fill (resetCanc p)
  dater := none

/-- R141: count and committed 0, the sensor equal to its raw level, FULL if it is ACTIVE and OPEN otherwise. -/
def resetPocket (p : Pocket) (raw : Paddle) : PocketRec where
  count := 0
  committed := 0
  state := if raw = .active ∧ ¬ isBin p then .full else .open
  raw := raw
  sensor := raw
  change := none
  press := none

def resetPkc (raw : PerPocket Paddle) : Pkc where
  recs := ⟨resetPocket .a1 raw.a1, resetPocket .a2 raw.a2, resetPocket .a3 raw.a3, resetPocket .a4 raw.a4,
    resetPocket .a5 raw.a5, resetPocket .a6 raw.a6, resetPocket .b1 raw.b1, resetPocket .b2 raw.b2, resetPocket .b3 raw.b3,
    resetPocket .b4 raw.b4, resetPocket .b5 raw.b5, resetPocket .b6 raw.b6, resetPocket .rm raw.rm, resetPocket .rh raw.rh,
    resetPocket .ea raw.ea, resetPocket .eb raw.eb, resetPocket .er raw.er⟩
  blocked := []

/-- R161. -/
def resetFlc (estop : Bool) : Flc where
  line := .powerup
  holds := ⟨false, false, false, false, false⟩
  countdown := none
  fault := none
  faultCount := 0
  cleanRun := 0
  runUp := none
  runUpQual := none
  warmup := none
  drainLimit := none
  estop := estop
  horn := none

/-- The live bank with every counter 0 (R172, R177). -/
def zeroBank : Bank where
  flow := ⟨0, 0, 0, 0, 0, 0, 0⟩
  marks := ⟨PerClass.fill 0, 0, 0, PerOrient.fill 0⟩
  rejects := PerCause.fill 0
  cancel := PerStream.fill ⟨0, 0, 0, 0, 0, 0, 0, 0⟩
  pockets := PerPocket.fill 0
  lengths := PerBucket.fill 0
  line := ⟨0, 0, 0, 0, 0⟩

/-- The snapshot set to 0 (R172, R177). -/
def zeroSnapshot : Snapshot where
  number := 0
  pos := 0
  bank := zeroBank
  inTable := 0
  utilisation := 0

/-- R177. -/
def resetCnb : Cnb where
  bank := zeroBank
  remainder := 0
  snap := zeroSnapshot
  records := []

/-- The empty receive line buffer (R178). -/
def emptyRx : Rx where
  buf := []
  overlong := false
  bad := false
  crNoted := false
  crLast := false
  lastChar := 0

/-- Where the opening stands after a reset, or after the load, of an image that fails its check or passes it: at `o` where the report of
PROFILE_DEFAULTED is set and is to be the second line (R195), and otherwise past it, every line following by R185; which of the two rules
holds is a free value (log entry 49). -/
def openingAt (o : Opening) (defaults : Bool) : Opening :=
  if defaults && Config.defaultedSecond then o else .done

/-- R189: every flag clear and unmasked except RESET. Its report is pending and the transmitter idle, so that the transmitter begins the
report's line in the event of the reset itself (R185, R189, log entry 12). Where the stored image fails its check (`defaults`), the report of
PROFILE_DEFAULTED may have to come next (R189, R195, log entry 49). -/
def resetLlk (cause : ResetCause) (defaults : Bool) : Llk where
  rx := emptyRx
  answers := []
  restarting := false
  silenceStart := 0
  silent := false
  flags := { PerKind.fill { set := false, detail := none, masked := false, repeating := none } with
    reset := { set := true, detail := some (.reset cause), masked := false, repeating := none } }
  reports := []
  tx := some (.report .reset (some (.reset cause)))
  opening := openingAt .loading defaults

end Sys2Proof.Machine
end

