-- ==== Sys2Proof/Machine/State.lean ====
section
/-! DEFINITION. The state of the part, block by block, with the queue of commands waiting; the reasons a step could stop; and the
state right after a power-on reset. -/

namespace Sys2Proof.Machine

/-- The part: one record for each block of the block overview, the model's clock and free-value counter, and the queue of commands
waiting, first in, first out. -/
structure State where
  trk     : Trk
  pcm     : Pcm
  scu     : Scu
  mkf     : Mkf
  ptc     : Ptc
  can     : Can
  pkc     : Pkc
  flc     : Flc
  cnb     : Cnb
  llk     : Llk
  pfs     : Pfs
  /-- Milliseconds since reset, the clock the timers are measured on (log entry 2). -/
  now     : Nat
  /-- How many free values have been taken (log entry 11). -/
  fresh   : Nat
  pending : List Instr
deriving DecidableEq, Repr

/-- The faults of the machine model: none. The spec names no event that stops the part; a fault stop (R155) and a canceller fault
(R98) are states it goes on from. -/
inductive Fault where
deriving DecidableEq, Repr

/-- The refusals. -/
inductive Refusal where
  /-- The command has no meaning yet. Raised by `exec` alone, and by no arm of it: every command has its meaning. Safe. -/
  | notModelled (mnemonic : String)
deriving DecidableEq, Repr

/-- A stored image that has never been written (log entry 9): its format number alone fails the check (R194). -/
def blankImage : Image where
  format := 0
  contents := Profile.factory
  crc := 0

/-- The part right after a power-on reset: every field at the value its block's rule gives (R198). The inputs are taken at rest
(log entry 7), the stored image as one never written (log entry 9), the working profile as the factory defaults until the load
(log entry 8). -/
def State.reset : State where
  trk := resetTrk
  pcm := resetPcm (PerCell.fill .clear)
  scu := resetScu
  mkf := resetMkf
  ptc := resetPtc
  can := resetCan Profile.factory
  pkc := resetPkc (PerPocket.fill .clear)
  flc := resetFlc false
  cnb := resetCnb
  llk := resetLlk .power (imageFault blankImage).isSome
  pfs := { profile := Profile.factory, image := blankImage, saving := none }
  now := 0
  fresh := 0
  pending := []

end Sys2Proof.Machine
end

