-- ==== Sys2Proof/Machine/Belt.lean ====
section
/-! DEFINITION. Belt positions and their comparison (R2), scheduled positions (R3), and the order of letter numbers (R5). -/

namespace Sys2Proof.Machine

/-- The distance from `p` to `q` in counts, read signed (R2). -/
def distance (p q : Pos) : Int :=
  (q - p).toInt

/-- Position `p` has been reached with the belt at `cur` (R2). -/
def reached (cur p : Pos) : Bool :=
  decide (0 ≤ distance p cur)

/-- `p` lies before `q` (R2). -/
def before (p q : Pos) : Bool :=
  decide (distance q p < 0)

/-- The position `d` counts from `p`; for a scheduled position `p` is the anchor (R3). -/
def at' (p : Pos) (d : Int) : Pos :=
  p + BitVec.ofInt 32 d

/-- Letter number `a` was assigned before `b`, in the order of assignment, in which 1 follows the greatest number (R5, R7). -/
def older (a b : LetterNo) : Bool :=
  decide (0 < (b - a).toInt)

/-- The letter number after `n`: from the greatest it goes to 1, so 0 is never assigned (R7). -/
def nextLetter (n : LetterNo) : LetterNo :=
  if n = BitVec.allOnes 32 then 1 else n + 1

/-- A letter number placed after every older one and before every newer one (R24, R86). -/
def insertByAge {α : Type} (num : α → LetterNo) (x : α) (l : List α) : List α :=
  l.takeWhile (fun y => older (num y) (num x)) ++ x :: l.dropWhile (fun y => older (num y) (num x))

/-- The reported speed in hundredths of m/s for a net change over 16 ms (R4). -/
def speedOf (net : Int) : Nat :=
  if net ≤ 0 then 0 else if net ≤ 320 then net.toNat * 100 / 64 else 500

/-- 1000 m of belt travel, after which the previous tail and the merge tail are dropped (R2, R9). -/
def dropDistance : Int := 4000000

end Sys2Proof.Machine
end

