-- ==== Sys2Proof/Machine/Flags.lean ====
section
/-! DEFINITION. The event flags and their reports (R186, R187), and the conditions the flags hold under. -/

namespace Sys2Proof.Machine

/-- A flag is set, with its detail; an unmasked kind without a pending report has one queued, and a pending report keeps its place
and takes the new detail (R187). -/
def setFlag (k : Kind) (d : Detail) (s : State) : State :=
  { s with llk := { s.llk with
      flags := s.llk.flags.set k { s.llk.flags.get k with set := true, detail := some d }
      reports :=
        if (s.llk.flags.get k).masked || s.llk.reports.contains k then s.llk.reports else s.llk.reports ++ [k] } }

/-- A hold cause of the set (R150). -/
def Holds.get (h : Holds) : HoldCause → Bool
  | .table => h.table
  | .pockets => h.pockets
  | .cancel => h.cancel
  | .records => h.records
  | .line => h.line

/-- The set with one cause present or absent (R150). -/
def Holds.put (h : Holds) (b : Bool) : HoldCause → Holds
  | .table => { h with table := b }
  | .pockets => { h with pockets := b }
  | .cancel => { h with cancel := b }
  | .records => { h with records := b }
  | .line => { h with line := b }

/-- The causes present, in the order of R150. -/
def Holds.present (h : Holds) : List HoldCause :=
  [HoldCause.table, .pockets, .cancel, .records, .line].filter h.get

/-- The hold cause set is not empty. -/
def Holds.any (h : Holds) : Bool :=
  h.table || h.pockets || h.cancel || h.records || h.line

/-- A canceller is available in READY, ARMING, ARMED and PRINTING (R97). -/
def available : CancState → Bool
  | .ready | .arming | .armed | .printing => true
  | .off | .priming | .overheat | .fault => false

/-- Either canceller is unavailable (R117, R159). -/
def cancellerOut (s : State) : Bool :=
  !available s.can.recs.a.state || !available s.can.recs.b.state

/-- Some pocket is NEAR_FULL, FULL or SWEEP_PENDING (R159). -/
def pocketAttention (s : State) : Bool :=
  s.pkc.recs.toList.any fun r => decide (r.state = .nearFull ∨ r.state = .full ∨ r.state = .sweepPending)

/-- Some head is in a state other than READY (R37, R159). -/
def headAttention (s : State) : Bool :=
  s.scu.heads.toList.any fun h => decide (h.state ≠ .ready)

/-- Whether the condition of a kind holds; a kind with no condition has none that holds (R186, R187). -/
def condition (s : State) : Kind → Bool
  | .lineState => false
  | .fault => decide (s.flc.line = .fault)
  | .feedHold => s.flc.holds.any
  | .headState => headAttention s
  | .cancellerState => cancellerOut s
  | .parity => false
  | .pocketState => pocketAttention s
  | .endBin => decide (s.pkc.recs.ea.sensor = .active ∨ s.pkc.recs.eb.sensor = .active ∨ s.pkc.recs.er.sensor = .active)
  | .recordsLost => decide (s.cnb.records.length = 96)
  | .linkError => false
  | .linkSilent => s.llk.silent
  | .profileDefaulted => false
  | .reset => false
  | .captureDone => false

/-- The bits of the flags that satisfy a test, bit 0 the first kind (R186). -/
def flagBits (s : State) (test : Flag → Bool) : Nat :=
  (s.llk.flags.toList.map test).foldr (fun b acc => (if b then 1 else 0) + 2 * acc) 0

/-! ### Outputs that follow the state -/

/-- Drive enable (R149). -/
def driveEnable (s : State) : Bool :=
  match s.flc.line with
  | .starting | .run | .drain => true
  | .powerup | .warmup | .standby | .fault => false

/-- Feed enable: on only in RUN with the hold cause set empty (R149). -/
def feedEnable (s : State) : Bool :=
  decide (s.flc.line = .run) && !s.flc.holds.any

/-- Whether a source of the signal tower holds (R159). -/
def sourceHolds (s : State) (set : Sources) : Bool :=
  (set.run && decide (s.flc.line = .run))
    || (set.feeding && feedEnable s)
    || (set.held && decide (s.flc.line = .run) && s.flc.holds.any)
    || (set.fault && decide (s.flc.line = .fault))
    || (set.pocketAttention && pocketAttention s)
    || (set.headAttention && headAttention s)
    || (set.cancelAttention && cancellerOut s)
    || (set.anyFlag && s.llk.flags.toList.any (·.set))

/-- Whether a line of the signal tower is on (R159, R160): off in POWERUP, on with a source of its set, and HORN on through its
pulse. -/
def towerOn (s : State) (l : Tower) : Bool :=
  decide (s.flc.line ≠ .powerup) && (sourceHolds s (towerSources s.pfs.profile l) || (decide (l = .horn) && s.flc.horn.isSome))

/-- The encoder copy of a print link (R95): the belt encoder's signals, handed on from reset whatever the canceller's state. The output
is the belt position its counts have come to since reset (R120, log entry 33). -/
def encoderCopy (s : State) : Stream → Pos
  | .a | .b => s.trk.belt

end Sys2Proof.Machine
end

