-- ==== Sys2Proof/Machine/Ops.lean ====
section
/-! DEFINITION. The shared operations: reading and writing letter entries (R17), the counters, the clock, the hold cause set
(R150, R152), and a change of line state (R142). -/

namespace Sys2Proof.Machine

/-! ### Letter entries -/

/-- The entry of a letter number; none where it is not in the Letter Table (R17). -/
def State.entry? (s : State) (n : LetterNo) : Option Entry :=
  s.trk.table.find? fun e => decide (e.number = n)

/-- The table with the entry of a letter number changed; unchanged where the number is not in it (R17). -/
def updTable (n : LetterNo) (f : Entry → Entry) : List Entry → List Entry
  | [] => []
  | e :: es => if e.number = n then f e :: es else e :: updTable n f es

/-- A write to the entry of a letter number; discarded where the number is not in the table (R17). -/
def updEntry (n : LetterNo) (f : Entry → Entry) (s : State) : State :=
  { s with trk := { s.trk with table := updTable n f s.trk.table } }

/-- The table less the entry of a letter number (R18). -/
def dropEntry (n : LetterNo) : List Entry → List Entry
  | [] => []
  | e :: es => if e.number = n then es else e :: dropEntry n es

/-- An early disposition keeps the first finding written to it, and gives an absent reject cause the same name (R8). -/
def withEarly (d : Early) (e : Entry) : Entry :=
  if e.early.isSome then e
  else
    { e with
      early := some d
      cause := match e.cause with
        | some c => some c
        | none => some (match d with | .offsize => .offsize | .gap => .gap | .double => .double | .unscanned => .unscanned) }

/-- The final or other outcome written into a letter's cancel job (R97). -/
def writeOutcome (n : LetterNo) (o : CancelOutcome) (s : State) : State :=
  updEntry n (fun e => { e with job := e.job.map fun j => { j with outcome := o } }) s

/-! ### Small updates -/

/-- A change of the live bank (R162). -/
def count (f : Bank → Bank) (s : State) : State :=
  { s with cnb := { s.cnb with bank := f s.cnb.bank } }

/-- A change of one head record. -/
def updHead (h : Head) (f : HeadRec → HeadRec) (s : State) : State :=
  { s with scu := { s.scu with heads := s.scu.heads.upd h f } }

/-- A change of one scan buffer. -/
def updBuf (b : Buf) (f : BufRec → BufRec) (s : State) : State :=
  { s with scu := { s.scu with bufs := s.scu.bufs.upd b f } }

/-- A change of one gate record. -/
def updGate (g : Gate) (f : GateRec → GateRec) (s : State) : State :=
  { s with ptc := { s.ptc with gates := s.ptc.gates.upd g f } }

/-- A change of one canceller record. -/
def updCanc (c : Stream) (f : CancRec → CancRec) (s : State) : State :=
  { s with can := { s.can with recs := s.can.recs.upd c f } }

/-- A change of one pocket record. -/
def updPocket (p : Pocket) (f : PocketRec → PocketRec) (s : State) : State :=
  { s with pkc := { s.pkc with recs := s.pkc.recs.upd p f } }

/-- A change of one photocell's supervision. -/
def updSup (c : Sup) (f : SupRec → SupRec) (s : State) : State :=
  { s with pcm := { s.pcm with sups := s.pcm.sups.upd c f } }

/-- A change of one photocell. -/
def updCell (c : Photocell) (f : CellRec → CellRec) (s : State) : State :=
  { s with pcm := { s.pcm with cells := s.pcm.cells.upd c f } }

/-- The clock moved on to the time a timer ends, where it is not past it (log entry 2). -/
def waitUntil (t : Nat) (s : State) : State :=
  { s with now := max s.now t }

/-- The line states in which the events that act on letters are taken (R76, R103, R130, ...). -/
def running (s : State) : Bool :=
  match s.flc.line with
  | .starting | .run | .drain => true
  | .powerup | .warmup | .standby | .fault => false

/-! ### The hold cause set -/

/-- HOLD_CROSSINGS rises by one (R152). -/
def countCrossing (s : State) : State :=
  count (fun b => { b with line := { b.line with holdCrossings := b.line.holdCrossings + 1 } }) s

/-- A hold cause is raised or lowered by its owner (R150). What the changes of an event come to is judged at its end (R152). -/
def setHold (c : HoldCause) (b : Bool) (s : State) : State :=
  { s with flc := { s.flc with holds := s.flc.holds.put b c } }

/-- The hold cause set judged at the end of an event (R152), `held` telling whether it was not empty before the event: a crossing between
empty and not empty sets FEED_HOLD, and one to not empty counts HOLD_CROSSINGS. A command is one event (log entry 47). -/
def judgeHold (held : Bool) (s : State) : State :=
  if s.flc.holds.any = held then s
  else if s.flc.holds.any then setFlag .feedHold (.held s.flc.holds.present) (countCrossing s)
  else setFlag .feedHold .released s

/-- The hold cause CANCEL follows CANCEL_POLICY, the line state and the availability of the cancellers (R117). -/
def refreshCancel (s : State) : State :=
  setHold .cancel
    (decide (s.pfs.profile.cancelPolicy = .hold) && (decide (s.flc.line = .starting) || decide (s.flc.line = .run))
      && cancellerOut s) s

/-- A change of line state sets LINE_STATE with the new state and the cause (R142), and CANCEL follows it (R117). -/
def setLine (l : LineState) (c : LineCause) (snapshot : Option Counter) (s : State) : State :=
  refreshCancel (setFlag .lineState (.line l c snapshot) { s with flc := { s.flc with line := l } })

/-! ### Stations -/

/-- The photocell a supervised photocell is. -/
def supCell : Sup → Photocell
  | .pe1 => .pe1
  | .pe2 => .pe2
  | .pe3a => .pe3a
  | .pe3b => .pe3b
  | .pe4r => .pe4r

/-- The supervision of a photocell; PE0 has none (R23). -/
def cellSup : Photocell → Option Sup
  | .pe0 => none
  | .pe1 => some .pe1
  | .pe2 => some .pe2
  | .pe3a => some .pe3a
  | .pe3b => some .pe3b
  | .pe4r => some .pe4r

/-- The twist extra a letter has travelled after the merge (R79). -/
def twistOf (p : Profile) (e : Entry) : Nat :=
  if e.path = some .twist then p.twistExtra else 0

/-- The distance of a supervised photocell along a letter's path (R24). -/
def supDist (p : Profile) (e : Entry) : Sup → Nat
  | .pe1 => p.dist .pe1
  | .pe4r => p.dist .pe4r
  | .pe2 => p.dist .pe2 + twistOf p e
  | .pe3a => p.dist .pe3a + twistOf p e
  | .pe3b => p.dist .pe3b + twistOf p e

/-- The print line distance of a stream along a letter's path (R103). -/
def printDist (p : Profile) (e : Entry) : Stream → Nat
  | .a => p.dist .ca + twistOf p e
  | .b => p.dist .cb + twistOf p e

/-- A length in counts, 0 while absent (R87: length0 is present wherever it is read). -/
def length0Of (e : Entry) : Nat :=
  e.length0.getD 0

end Sys2Proof.Machine
end

