-- ==== Sys2Proof/Machine/CancelOps.lean ====
section
/-! DEFINITION. The Cancel Controllers' shared operations (chapter 6): state changes, arming, the entry to FAULT, deferred letters,
the impression window. -/

namespace Sys2Proof.Machine

/-- The states whose entry and leaving set CANCELLER_STATE (R119). -/
def cancReported : CancState → Bool
  | .off | .priming | .overheat | .fault => true
  | .ready | .arming | .armed | .printing => false

/-- A change of a canceller's state: CANCELLER_STATE at each change into, out of or between OFF, PRIMING, OVERHEAT and FAULT (R119),
and CANCEL follows the availability (R117). -/
def cancTo (c : Stream) (new : CancState) (s : State) : State :=
  let old := (s.can.recs.get c).state
  let t := updCanc c (fun r => { r with state := new }) s
  let t :=
    if old ≠ new ∧ (cancReported old ∨ cancReported new) then
      setFlag .cancellerState (.canceller c new (if new = .fault then (s.can.recs.get c).cause else none)) t
    else t
  refreshCancel t

/-- A frame is called for on a print link, after those called for before it (R95). -/
def sendFrame (c : Stream) (f : Frame) (s : State) : State :=
  updCanc c (fun r => { r with frames := r.frames ++ [f] }) s

/-- The held letter takes an outcome, and the held letter becomes absent in the same event (R97). -/
def releaseHeld (c : Stream) (o : CancelOutcome) (s : State) : State :=
  let t := match (s.can.recs.get c).held with
    | some n => writeOutcome n o s
    | none => s
  updCanc c (fun r => { r with held := none }) t

/-- The deferred letter, if any, takes an outcome and becomes absent (R98, R105). -/
def releaseDeferred (c : Stream) (o : CancelOutcome) (s : State) : State :=
  let t := match (s.can.recs.get c).deferred with
    | some n => writeOutcome n o s
    | none => s
  updCanc c (fun r => { r with deferred := none }) t

/-- The entry to FAULT with a cause (R98): the cause recorded, both timers stopped, ABORT sent, the held letter's outcome written
where one is given, the deferred letter SKIPPED_UNAVAILABLE. A canceller already in FAULT takes no second cause. -/
def cancFault (c : Stream) (cause : CancCause) (outcome : Option CancelOutcome) (s : State) : State :=
  if (s.can.recs.get c).state = .fault then s
  else
    let t := updCanc c (fun r => { r with cause := some cause, primeTimer := none, replyTimer := none }) s
    let t := sendFrame c .abort t
    let t := match outcome with
      | some o => releaseHeld c o t
      | none => updCanc c (fun r => { r with held := none }) t
    cancTo c .fault (releaseDeferred c .skippedUnavailable t)

/-- The impression record of a letter's job (R104). -/
def impressionOf (e : Entry) (j : CancelJob) (d : Density) : Impression where
  letter := e.number
  direction := j.direction
  density := d
  length := j.winEnd - j.winStart
  dater := j.dater

/-- The arming of a letter in READY (R104): its density from the band, the IMPRESSION sent, ARMING, the letter held, the reply timer
started. -/
def armLetter (c : Stream) (n : LetterNo) (s : State) : State :=
  match s.entry? n with
  | none => s
  | some e =>
    match e.job with
    | none => s
    | some j =>
      let d : Density := if (s.can.recs.get c).band = .hot then .reduced else .full
      let t := updEntry n (fun e => { e with job := e.job.map fun j => { j with density := some d } }) s
      let t := sendFrame c (.impression (impressionOf e j d)) t
      let t := updCanc c (fun r => { r with held := some n, replyTimer := some s.now }) t
      cancTo c .arming t

/-- The entry to READY, with a deferred arm taken in the same event (R105). -/
def cancReady (c : Stream) (s : State) : State :=
  let t := cancTo c .ready s
  match (t.can.recs.get c).deferred with
  | none => t
  | some n => armLetter c n (updCanc c (fun r => { r with deferred := none }) t)

/-- The entry to OVERHEAT: a deferred letter is SKIPPED_UNAVAILABLE (R98, R113). -/
def cancOverheat (c : Stream) (s : State) : State :=
  cancTo c .overheat (releaseDeferred c .skippedUnavailable s)

/-- READY, or OVERHEAT where the recorded band is OVER (R99, R109). -/
def cancReadyOrHot (c : Stream) (s : State) : State :=
  if (s.can.recs.get c).band = .over then cancOverheat c s else cancReady c s

/-- PRIME sent and the prime timer started (R99, R114). -/
def cancPrime (c : Stream) (s : State) : State :=
  let t := sendFrame c .prime s
  let t := updCanc c (fun r => { r with parityRun := 0, primeTimer := some s.now }) t
  cancTo c .priming t

/-- A canceller's part in a fault stop (R115). -/
def cancStop (c : Stream) (s : State) : State :=
  match (s.can.recs.get c).state with
  | .arming | .armed | .printing =>
    let t := sendFrame c .standby (sendFrame c .abort s)
    let t := releaseHeld c .failed t
    let t := updCanc c (fun r => { r with primeTimer := none, replyTimer := none }) t
    cancTo c .off (releaseDeferred c .skippedUnavailable t)
  | .priming | .ready | .overheat =>
    let t := sendFrame c .standby s
    let t := updCanc c (fun r => { r with primeTimer := none }) t
    cancTo c .off (releaseDeferred c .skippedUnavailable t)
  | .fault => sendFrame c .standby s
  | .off => s

/-- A canceller's part in the change from DRAIN to STANDBY (R116). -/
def cancDrained (c : Stream) (s : State) : State :=
  match (s.can.recs.get c).state with
  | .priming | .ready | .overheat =>
    cancTo c .off (updCanc c (fun r => { r with primeTimer := none }) (sendFrame c .standby s))
  | .fault => sendFrame c .standby s
  | .off | .arming | .armed | .printing => s

/-- A canceller's part in the entry to STARTING (R99): the arm distance and done margin taken, and a canceller in OFF primes. -/
def cancStarting (c : Stream) (s : State) : State :=
  let t := updCanc c (fun r => { r with armDist := s.pfs.profile.armDist, doneMargin := s.pfs.profile.doneMargin }) s
  if (t.can.recs.get c).state = .off then cancPrime c t else t

/-- A canceller's part in the removal of a letter's entry: a held letter's removal sends ABORT, stops the reply timer and returns it
to READY, a deferred letter's removal drops the deferral, and no outcome is written (R105, R116). -/
def cancRemoved (c : Stream) (n : LetterNo) (s : State) : State :=
  let t :=
    if (s.can.recs.get c).deferred = some n then updCanc c (fun r => { r with deferred := none }) s else s
  if (t.can.recs.get c).held = some n then
    cancReady c (updCanc c (fun r => { r with held := none, replyTimer := none }) (sendFrame c .abort t))
  else t

/-! ### The impression window (R100, R101) -/

/-- The window start and end of a job, in counts from the letter's head: `j` is the mark cell, `w` the latched W, `len` length0,
`pre` and `imp` PRE and IMP_LEN in counts. FORWARD clamps the start first, REVERSED the end. -/
def impressionWindow (d : Direction) (j w len pre imp : Nat) : Nat × Nat :=
  match d with
  | .forward => (8 * j - pre, min (8 * j - pre + imp) len)
  | .reversed => (min (8 * (j + w) + pre) len - imp, min (8 * (j + w) + pre) len)

/-- The IMPRESSION frame's 21 bytes before its CRC-8 (R190). -/
def impressionBody (i : Impression) : List Byte :=
  let n := i.letter.toNat
  let d := i.dater.getD { office := [], day := 0, month := 0, year := 2000, hour := 0, machine := 0, bars := 0 }
  let code := (d.office.map fun c => if c == chStop then chSpace else c) ++ List.replicate (6 - d.office.length) chSpace
  [0x03, BitVec.ofNat 8 (n / 16777216), BitVec.ofNat 8 (n / 65536), BitVec.ofNat 8 (n / 256), BitVec.ofNat 8 n,
    (match i.direction with | .forward => 0 | .reversed => 1), (match i.density with | .full => 0 | .reduced => 1),
    BitVec.ofNat 8 (i.length / 256), BitVec.ofNat 8 i.length]
    ++ (code.take 6
    ++ [BitVec.ofNat 8 d.day, BitVec.ofNat 8 d.month, BitVec.ofNat 8 (d.year - 2000), BitVec.ofNat 8 d.hour,
      BitVec.ofNat 8 d.machine, BitVec.ofNat 8 d.bars])

/-- The IMPRESSION frame as sent: 22 bytes, the last the CRC-8 over those before it (R95, R190). -/
def impressionBytes (i : Impression) : List Byte :=
  impressionBody i ++ [crc8 (impressionBody i)]

end Sys2Proof.Machine
end

