-- ==== Sys2Proof/Machine/CountOps.lean ====
section
/-! DEFINITION. The Count Bank's shared operations (chapter 9): the counters of a delivery, a tail, a stacking and a clearing,
snapshots, letter records and the record queue. -/

namespace Sys2Proof.Machine

/-! ### Counters -/

/-- The length bucket of a length0 in counts (R167). -/
def bucketOf (len : Nat) : Bucket :=
  if len ≤ 479 then .short
  else if len ≤ 599 then .b120
  else if len ≤ 719 then .b150
  else if len ≤ 839 then .b180
  else if len ≤ 959 then .b210
  else if len ≤ 1079 then .b240
  else if len ≤ 1200 then .b270
  else .long

/-- The counters of a result delivery that writes a result into an entry (R164). -/
def countResult (r : MarkResult) (b : Bank) : Bank :=
  { b with
    flow := { b.flow with scanned := b.flow.scanned + 1 }
    marks := {
      classes := b.marks.classes.upd r.cls (· + 1)
      degraded := if r.degraded then b.marks.degraded + 1 else b.marks.degraded
      saturated := if r.saturated then b.marks.saturated + 1 else b.marks.saturated
      orients := match r.orient with
        | some o => b.marks.orients.upd o (· + 1)
        | none => b.marks.orients } }

/-- The cancel counters of a stacked letter's job (R165). -/
def countJob (j : CancelJob) (p : CancelPage) : CancelPage :=
  let p := match j.outcome with
    | .pending => p
    | .done => { p with done := p.done + 1 }
    | .skippedBusy => { p with busy := p.busy + 1 }
    | .skippedUnavailable => { p with unavailable := p.unavailable + 1 }
    | .skippedParity => { p with parity := p.parity + 1 }
    | .failed => { p with failed := p.failed + 1 }
  { p with
    truncated := if j.truncated then p.truncated + 1 else p.truncated
    reduced := if j.density = some .reduced then p.reduced + 1 else p.reduced }

/-- The counters of a stacking into a pocket or end bin, from the entry as it stood (R165). -/
def countStacking (e : Entry) (p : Pocket) (b : Bank) : Bank :=
  let flow := match stackOf p with
    | some _ => { b.flow with stacked := b.flow.stacked + 1 }
    | none => { b.flow with rejected := b.flow.rejected + 1 }
  { b with
    flow := { flow with late := if e.late then flow.late + 1 else flow.late }
    rejects := match e.cause with
      | some c => b.rejects.upd c (· + 1)
      | none => b.rejects
    cancel := match e.job, e.stream with
      | some j, some c => b.cancel.upd c (countJob j)
      | _, _ => b.cancel
    pockets := b.pockets.upd p (· + 1)
    line := match stackOf p with
      | some _ => { b.line with lengthSumMm := b.line.lengthSumMm + BitVec.ofNat 32 (length0Of e / 4) }
      | none => b.line }

/-! ### Snapshots -/

/-- UTILISATION (R169). -/
def utilisationOf (b : Bank) : Nat :=
  if b.line.beltRunMm.toNat = 0 then 0
  else min 1000 (1000 * b.line.lengthSumMm.toNat / b.line.beltRunMm.toNat)

/-- A snapshot number rises by one, from the greatest to 1 (R170). -/
def nextSnapshot (n : Counter) : Counter :=
  if n = BitVec.allOnes 32 then 1 else n + 1

/-- A snapshot, taken whole at one event (R170). -/
def takeSnapshot (s : State) : State :=
  { s with cnb := { s.cnb with snap := {
      number := nextSnapshot s.cnb.snap.number
      pos := s.trk.belt
      bank := s.cnb.bank
      inTable := s.trk.table.length
      utilisation := utilisationOf s.cnb.bank } } }

/-! ### Letter records -/

/-- The letter record of an entry as it stands, with a disposition (R173). -/
def recordOf (e : Entry) (d : Disposition) : LetterRecord where
  number := e.number
  length := e.length0.map (· / 4)
  cls := e.result.map (·.cls)
  orient := e.result.bind (·.orient)
  strength := e.result.bind (·.strength)
  cell := e.result.bind (·.cell)
  q := e.result.bind (·.q)
  degraded := (e.result.map (·.degraded)).getD false
  saturated := (e.result.map (·.saturated)).getD false
  late := e.late
  path := e.path
  stream := e.stream
  outcome := e.job.map (·.outcome)
  marks := e.job.map fun j => (j.truncated, decide (j.density = some .reduced))
  disposition := d
  committed := match d with
    | .cleared => e.pocket
    | .stacked _ => none
  cause := e.cause

/-- A record is offered to the queue while RECORDS is on (R174): it joins the newest end, bringing RECORDS up at 80 under
REPORT_HOLD (R176), or is dropped at 96 with RECORDS_LOST counted and its flag set. -/
def offerRecord (r : LetterRecord) (s : State) : State :=
  if s.pfs.profile.records = false then s
  else if s.cnb.records.length < 96 then
    let t := { s with cnb := { s.cnb with records := s.cnb.records ++ [r] } }
    if s.pfs.profile.reportHold && decide (t.cnb.records.length = 80) then setHold .records true t else t
  else
    let t := count (fun b => { b with line := { b.line with recordsLost := b.line.recordsLost + 1 } }) s
    setFlag .recordsLost (.lost r.number t.cnb.bank.line.recordsLost) t

/-- RECORDS after a change of REPORT_HOLD, by SET or LOAD (R176, R197): lowered with it off, raised with it on and 80 or more
queued, and otherwise kept. -/
def refreshRecords (s : State) : State :=
  if s.pfs.profile.reportHold = false then setHold .records false s
  else if 80 ≤ s.cnb.records.length then setHold .records true s
  else s

end Sys2Proof.Machine
end

