-- ==== Sys2Proof/Machine/LineOps.lean ====
section
/-! DEFINITION. The Feed and Line Controller's shared operations (chapter 8): the change to DRAIN and its end, and the fault stop with
the response of every block. -/

namespace Sys2Proof.Machine

/-- The end of DRAIN at an empty table (R148): the cancellers send STANDBY (R116), an automatic snapshot is taken (R170), and the line
enters STANDBY with cause EMPTY. -/
def drainEmpty (s : State) : State :=
  let t := cancDrained .b (cancDrained .a s)
  let t := takeSnapshot t
  let t := { t with flc := { t.flc with drainLimit := none } }
  setLine .standby .empty (some t.cnb.snap.number) t

/-- STANDBY if the line is in DRAIN with an empty table (R148). -/
def checkDrained (s : State) : State :=
  if s.flc.line = .drain ∧ s.trk.table = [] then drainEmpty s else s

/-- The change from STARTING or RUN to DRAIN (R146), passing on to STANDBY where the table is empty (R148). -/
def enterDrain (c : LineCause) (s : State) : State :=
  let t := { s with flc := { s.flc with
      runUp := none
      runUpQual := none
      drainLimit := some (at' s.trk.belt (s.pfs.profile.drainLimit * 4000 : Nat)) } }
  checkDrained (setLine .drain c none t)

/-- A scan state at a fault stop (R50). -/
def abortScan : ScanState → ScanState
  | .scanning | .waiting | .computing => .aborted
  | .none => .none
  | .done => .done
  | .aborted => .aborted

/-- A stranded entry: it keeps every field but the scan in progress (R50, R155). -/
def strand (e : Entry) : Entry :=
  { e with stranded := true, scan := abortScan e.scan }

/-- A head link at a fault stop: waiting pulses dropped, the answer of an outstanding one to be discarded (R50). -/
def stopLink (h : HeadRec) : HeadRec :=
  { h with waiting := [], out := h.out.map fun o => { o with what := .dropped } }

/-- A scan buffer at a fault stop: FREE unless it is in CAPTURE (R50). -/
def stopBuf (b : BufRec) : BufRec :=
  if b.phase = .capture then b else freeBuf

/-- A gate at a fault stop: queue emptied, user absent, IDLE, setting unchanged (R92). -/
def stopGate (g : GateRec) : GateRec :=
  { g with settle := none, user := none, queue := [] }

/-- The other blocks' response to a fault stop, the Cancel Controllers apart (R9, R32, R50, R53, R92, R131). -/
def stopBlocks (s : State) : State :=
  { s with
    trk := { s.trk with measuring := none, overTaken := false, table := s.trk.table.map strand }
    pcm := { s.pcm with sups := PerSup.fill { expected := [], passing := none } }
    scu := { s.scu with heads := s.scu.heads.map stopLink, bufs := s.scu.bufs.map stopBuf }
    mkf := { s.mkf with work := [], slot := none }
    ptc := { s.ptc with gates := s.ptc.gates.map stopGate } }

/-- A fault call (R153). In STARTING, RUN or DRAIN it makes the fault stop of R155; in any other state it is not recorded. -/
def faultStop (call : FaultCall) (s : State) : State :=
  if running s then
    let t := { s with flc := { s.flc with
        fault := some { call := call, pos := s.trk.belt, left := s.flc.line }
        faultCount := min 8 (s.flc.faultCount + 1)
        cleanRun := 0
        runUp := none
        runUpQual := none
        drainLimit := none
        horn := some s.now } }
    let t := count (fun b => { b with line := { b.line with faultStops := b.line.faultStops + 1 } }) t
    let t := setFlag .fault (.fault call) t
    let t := setLine .fault (.fault call) none t
    cancStop .b (cancStop .a (stopBlocks t))
  else s

end Sys2Proof.Machine
end

