-- ==== Sys2Proof/Machine/ScanOps.lean ====
section
/-! DEFINITION. The Scan Control Unit's shared operations (chapter 3): the sample word, the head states, the free station and
calibration, the pulses of a scan, its completion and take-up, and a head that does not answer. -/

namespace Sys2Proof.Machine

/-! ### The sample word (R190) -/

/-- The exclusive or of the `k` lowest bits of a number. -/
def parity : Nat → Nat → Bool
  | 0, _ => false
  | k + 1, n => xor (n % 2 == 1) (parity k (n / 2))

/-- The checks of a sample word: odd parity over bits 31 and 29 to 15, and over bits 30 and 14 to 0 (R190). -/
def wordGood (w : BitVec 32) : Bool :=
  xor (w.getLsbD 31) (parity 15 (w.toNat / 32768)) && xor (w.getLsbD 30) (parity 15 w.toNat)

/-- The three values of a sample word (R190). -/
def wordSample (w : BitVec 32) : Sample where
  gp := w.toNat / 1048576 % 1024
  ga := w.toNat / 1024 % 1024
  rp := w.toNat % 1024

/-! ### Work list and completion -/

/-- The oldest item of the work list is taken up where the computing slot is empty; the latched values are read from the entry
(R53). A letter no longer in the table gives none (log entry 30). -/
def takeUp (s : State) : State :=
  match s.mkf.slot, s.mkf.work with
  | none, w :: rest =>
    let item : SlotItem :=
      { buf := w.buf, letter := w.letter, time := w.time, params := (s.entry? w.letter).bind (·.latched) }
    let t := { s with mkf := { s.mkf with work := rest, slot := some item } }
    updEntry w.letter (fun e => { e with scan := .computing }) (updBuf w.buf (fun b => { b with phase := .computing }) t)
  | _, _ => s

/-- Each cell has been answered or written as 0 for every head of the usable-head set (R49). -/
def allCells (l : Latched) (b : BufRec) : Bool :=
  Head.all.all fun h => !l.usable.get h || decide (l.n ≤ (b.cells.get h).length)

/-- A complete scan: the buffer and the entry's scan state become WAITING, and the buffer joins the work list with the time of the
event (R49, R53). -/
def checkComplete (b : Buf) (s : State) : State :=
  let r := s.scu.bufs.get b
  match r.phase, r.letter with
  | .filling, some n =>
    match (s.entry? n).bind (·.latched) with
    | some l =>
      if allCells l r then
        let t := updEntry n (fun e => { e with scan := .waiting }) (updBuf b (fun r => { r with phase := .waiting }) s)
        takeUp { t with mkf := { t.mkf with work := t.mkf.work ++ [{ buf := b, letter := n, time := t.now }] } }
      else s
    | none => s
  | _, _ => s

/-! ### Head states -/

/-- All four heads READY ends WARMUP with cause WARM, stopping the warm-up timer (R143). -/
def checkWarm (s : State) : State :=
  if s.flc.line = .warmup ∧ headAttention s = false then
    setLine .standby .warm none { s with flc := { s.flc with warmup := none } }
  else s

/-- A change of a head's state (R37, R39): run count 0, HEAD_STATE set; a change into WEAK or FAILED is the head-degrade signal
(log entry 14), which drains the line from STARTING or RUN under DEGRADE_POLICY DRAIN (R146). -/
def headTo (h : Head) (new : HeadState) (s : State) : State :=
  let t := setFlag .headState (.head h new) (updHead h (fun r => { r with state := new, run := 0 }) s)
  let t :=
    if (new = .weak ∨ new = .failed) ∧ s.pfs.profile.degradePolicy = .drain ∧ (s.flc.line = .starting ∨ s.flc.line = .run) then
      enterDrain .head t
    else t
  checkWarm t

/-- The move of a head's state at a good calibration (R37). -/
def headGood (h : Head) (s : State) : State :=
  let r := s.scu.heads.get h
  match r.state with
  | .cold => headTo h .warming s
  | .warming => headTo h .ready s
  | .ready => updHead h (fun r => { r with run := 0 }) s
  | .weak => if r.run = 0 then updHead h (fun r => { r with run := 1 }) s else headTo h .ready s
  | .failed => s

/-- The move of a head's state at a bad calibration (R37). -/
def headBad (h : Head) (s : State) : State :=
  let r := s.scu.heads.get h
  match r.state with
  | .cold => s
  | .warming => headTo h .cold s
  | .ready => if r.run = 0 then updHead h (fun r => { r with run := 1 }) s else headTo h .weak s
  | .weak => updHead h (fun r => { r with run := 0 }) s
  | .failed => s

/-- The drive loop (R43). -/
def driveCode (lref lnom code : Nat) : Nat :=
  if lref * 8 < lnom * 7 then min 15 (code + 1)
  else if lnom * 9 < lref * 8 then code - 1
  else code

/-- A good reference level (R42). -/
def calGood (lnom ga : Nat) : Bool :=
  decide (lnom ≤ ga * 2) && decide (ga ≤ 1022)

/-- A calibration answer judged against LNOM as it stands (R42): the level, the code its pulse was sent at, the drive loop. -/
def judgeCalibration (h : Head) (sentAt ga : Nat) (s : State) : State :=
  let lnom := s.pfs.profile.lnom
  if calGood lnom ga then
    headGood h (updHead h (fun r => { r with lref := ga, refCode := sentAt, code := driveCode ga lnom r.code }) s)
  else headBad h s

/-! ### Calibration -/

/-- The scan station is free (R40). -/
def stationFree (s : State) : Bool :=
  decide (s.pcm.cells.pe1.qual = .clear) && s.pcm.cells.pe1.change.isNone
    && s.trk.table.all (fun e => !e.inStation)
    && s.scu.heads.toList.all fun h => h.out.isNone && h.waiting.isEmpty

/-- The calibration interval of a line state in ms; none where no calibration is taken (R41). -/
def calInterval (p : Profile) : LineState → Option Nat
  | .warmup => some 500
  | .standby | .starting | .run | .drain => some (p.calInterval * 1000)
  | .powerup | .fault => none

/-- A head's part in a calibration: one pulse at its drive code, unless it is FAILED (R42). -/
def calPulse (h : HeadRec) : HeadRec :=
  if h.state = .failed then h else { h with out := some { what := .calibration, code := h.code } }

/-- A calibration is taken with the due mark set, the station free and a line state that permits one; the due mark is cleared and the
timer restarts (R41, R42). -/
def tryCalibrate (s : State) : State :=
  if s.scu.calDue && stationFree s && (calInterval s.pfs.profile s.flc.line).isSome then
    { s with scu := { s.scu with heads := s.scu.heads.map calPulse, calStart := s.now, calDue := false } }
  else s

/-! ### Scanning -/

/-- The usable-head set for an LNOM (R44). -/
def usableHeads (lnom : Nat) (heads : PerHead HeadRec) : PerHead Bool :=
  heads.map fun h => decide (h.state = .ready) && decide (lnom ≤ h.lref * 2)

/-- The parameters latched at a scan start (R47). -/
def latch (p : Profile) (heads : PerHead HeadRec) (len : Nat) : Latched where
  lnom := p.lnom
  w := p.w
  z := p.z
  tPh := p.tPh
  tMt := p.tMt
  tBr := p.tBr
  qMin := p.qMin
  ambig := p.ambig
  n := (len + 7) / 8
  lref := heads.map (·.lref)
  usable := usableHeads p.lnom heads

/-- The lowest-numbered free buffer (R46). -/
def freeBuffer (s : State) : Option Buf :=
  Buf.all.find? fun b => decide ((s.scu.bufs.get b).phase = .free)

/-- A scan is refused: early disposition UNSCANNED, counted on page 0 (R46, R163). -/
def refuseScan (n : LetterNo) (s : State) : State :=
  count (fun b => { b with flow := { b.flow with unscanned := b.flow.unscanned + 1 } }) (updEntry n (withEarly .unscanned) s)

/-- A letter at its SH position (R46): its scan starts, is refused, or, with an early disposition, is not called for. -/
def shAct (n : LetterNo) (s : State) : State :=
  match s.entry? n with
  | none => s
  | some e =>
    let t := updEntry n (fun e => { e with shTaken := true }) s
    if e.early.isSome then t
    else
      let l := latch s.pfs.profile s.scu.heads (length0Of e)
      match freeBuffer s with
      | none => refuseScan n t
      | some b =>
        if l.usable.toList.any id then
          updEntry n (fun e => { e with scan := .scanning, latched := some l })
            (updBuf b (fun _ => { freeBuf with phase := .filling, letter := some n }) t)
        else refuseScan n t

/-- A pulse placed among those waiting: in the order of their positions and, within one letter, in cell order (R36). -/
def placePulse (p : Pulse) (l : List Pulse) : List Pulse :=
  l.takeWhile (fun q => decide (q.letter = p.letter) || !before p.pos q.pos) ++
    p :: l.dropWhile (fun q => decide (q.letter = p.letter) || !before p.pos q.pos)

/-- The waiting pulses of a letter moved with its anchor (R48), and so placed again among the others (R36). -/
def movePulses (n : LetterNo) (by' : Pos) (h : HeadRec) : HeadRec :=
  let own := h.waiting.filter fun p => decide (p.letter = n)
  let rest := h.waiting.filter fun p => decide (p.letter ≠ n)
  { h with waiting := own.foldl (fun l p => placePulse { p with pos := p.pos + by' } l) rest }

/-- The first pulse waiting on an idle head link is sent, at the reference drive code, where the belt has reached its position (R36, R43): a
later anchor or reverse motion delays a pulse not yet sent until its position is reached (R48). -/
def sendNext (belt : Pos) (h : HeadRec) : HeadRec :=
  match h.out, h.waiting with
  | none, p :: rest =>
    if reached belt p.pos then { h with out := some { what := .scan p, code := h.refCode }, waiting := rest } else h
  | _, _ => h

/-- A scan pulse falls due on a head link: it is sent, or waits behind the one outstanding (R36, R48). -/
def sendPulse (belt : Pos) (p : Pulse) (h : HeadRec) : HeadRec :=
  sendNext belt { h with waiting := placePulse p h.waiting }

/-- The first pulse waiting on a head link is a letter's, and none is outstanding: its position had not been reached when the link came to be
idle, and it is sent when it is (R48). -/
def delayed (n : LetterNo) (h : HeadRec) : Option Pulse :=
  match h.out, h.waiting with
  | none, p :: _ => if p.letter = n then some p else none
  | _, _ => none

/-- A delayed pulse of a letter whose position the belt has reached. -/
def resumes (n : LetterNo) (belt : Pos) (h : HeadRec) : Bool :=
  match delayed n h with
  | some p => reached belt p.pos
  | none => false

/-- The buffer a letter's scan is filling. -/
def fillingOf (s : State) (n : LetterNo) : Option Buf :=
  Buf.all.find? fun b => decide ((s.scu.bufs.get b).phase = .filling) && decide ((s.scu.bufs.get b).letter = some n)

/-- A head still takes part in a letter's scan: it is in the usable-head set, has not failed, and was not lost to the scan before (R48,
R49). -/
def scans (l : Latched) (b : BufRec) (h : Head) (r : HeadRec) : Bool :=
  l.usable.get h && decide (r.state ≠ .failed) && (b.lost.get h).isNone

/-- The pulse of a letter's next cell goes to each head of its usable-head set that has not failed (R48). -/
def nextPulse (n : LetterNo) (s : State) : State :=
  match s.entry? n, fillingOf s n with
  | some e, some b =>
    match e.latched with
    | some l =>
      let k := (s.scu.bufs.get b).next
      let p : Pulse := { letter := n, buf := b, cell := k, pos := at' e.anchor (s.pfs.profile.dist .sh + 8 * k + 4 : Nat) }
      let go (h : Head) (t : State) : State :=
        if scans l (s.scu.bufs.get b) h (t.scu.heads.get h) then updHead h (sendPulse s.trk.belt p) t else t
      updBuf b (fun r => { r with next := r.next + 1 }) (go .bb (go .bt (go .fb (go .ft s))))
    | none => s
  | _, _ => s

/-- The belt reaches the position of a letter's pulse (R48): the delayed pulses of the letter whose positions have been reached are sent on
their links, and where there is none, the pulse of the next cell falls due. -/
def pulseAct (n : LetterNo) (s : State) : State :=
  if s.scu.heads.toList.any (resumes n s.trk.belt) then
    let sent (r : HeadRec) : HeadRec := if resumes n s.trk.belt r then sendNext s.trk.belt r else r
    { s with scu := { s.scu with heads := s.scu.heads.map sent } }
  else nextPulse n s

/-- A buffer awaits the answer to a pulse: it is filling for the pulse's letter, the head is not lost to the scan, and the pulse's cell is
the next one to be answered (R48, R49). -/
def awaits (b : BufRec) (h : Head) (p : Pulse) : Bool :=
  decide (b.phase = .filling) && decide (b.letter = some p.letter) && (b.lost.get h).isNone
    && decide ((b.cells.get h).length = p.cell)

/-- The answer to a scan pulse is written into the letter's buffer (R49); no other buffer, and no cell answered or written as 0 before, takes
it. -/
def scanAnswer (h : Head) (p : Pulse) (v : Sample) (s : State) : State :=
  if awaits (s.scu.bufs.get p.buf) h p then
    checkComplete p.buf (updBuf p.buf (fun r => { r with cells := r.cells.upd h (· ++ [v]) }) s)
  else s

/-- The answer to the outstanding pulse is taken (R36): it is judged, written, or discarded, and the next waiting pulse is sent. -/
def answerHead (h : Head) (v : Sample) (s : State) : State :=
  match (s.scu.heads.get h).out with
  | none => s
  | some o =>
    let t := updHead h (fun r => { r with out := none }) s
    let t := match o.what with
      | .calibration => judgeCalibration h o.code v.ga t
      | .scan p => scanAnswer h p v t
      | .dropped => t
    tryCalibrate (updHead h (sendNext t.trk.belt) t)

/-- A head lost to the scan in a buffer (R49): every cell it has not answered is written as 0, and the first such cell recorded. A head that has
answered every cell of the letter is not lost to its scan (log entry 50). -/
def loseHead (h : Head) (b : Buf) (s : State) : State :=
  let r := s.scu.bufs.get b
  match r.phase, r.letter with
  | .filling, some n =>
    match (s.entry? n).bind (·.latched) with
    | some l =>
      let got := (r.cells.get h).length
      if l.usable.get h && decide (got < l.n) then
        checkComplete b (updBuf b (fun r => { r with
          cells := r.cells.upd h (· ++ List.replicate (l.n - got) { gp := 0, ga := 0, rp := 0 })
          lost := r.lost.set h (some got) }) s)
      else s
    | none => s
  | _, _ => s

/-- A head becomes FAILED (R36, R49): its pulses are no longer outstanding or waiting, and every letter in SCANNING loses it. -/
def failHead (h : Head) (s : State) : State :=
  let t := headTo h .failed (updHead h (fun r => { r with out := none, waiting := [] }) s)
  loseHead h .b2 (loseHead h .b1 (loseHead h .b0 t))

end Sys2Proof.Machine
end

