-- ==== Sys2Proof/Machine/MarkOps.lean ====
section
/-! DEFINITION. The Mark Finder (chapter 4): the mark computation stage by stage (R55 to R67), the capture lines (R73) and the
delivery of a result (R68 to R72). -/

namespace Sys2Proof.Machine

/-! ### Normalisation and background -/

/-- One channel of a sample. -/
def Sample.get (v : Sample) : Channel → Nat
  | .gp => v.gp
  | .ga => v.ga
  | .rp => v.rp

/-- A normalised value (R56). -/
def normalise (lnom lref v : Nat) : Nat :=
  if v = 1023 then 1023 else min 1023 (v * lnom / lref)

/-- A sample with its three values normalised. -/
def normalSample (lnom lref : Nat) (v : Sample) : Sample where
  gp := normalise lnom lref v.gp
  ga := normalise lnom lref v.ga
  rp := normalise lnom lref v.rp

/-- The background of a channel: its smallest value over the cells (R57). -/
def background (c : Channel) (cells : List Sample) : Nat :=
  cells.foldl (fun m v => min m (v.get c)) 1023

/-- The net values of one head's cells (R57). -/
def netCells (lnom lref : Nat) (raw : List Sample) : List Sample :=
  let normal := raw.map (normalSample lnom lref)
  let gp := background .gp normal
  let ga := background .ga normal
  let rp := background .rp normal
  normal.map fun v => { gp := v.gp - gp, ga := v.ga - ga, rp := v.rp - rp }

/-! ### Windows, classes and candidates -/

inductive Zone where
  | lead | trail
deriving DecidableEq, Repr

/-- The three kinds of mark a window is tested for (R60), the highest-ranked first (R63). -/
inductive MarkKind where
  | phosphor | meter | bright
deriving DecidableEq, Repr

def MarkKind.cls : MarkKind → MarkClass
  | .phosphor => .phosphor
  | .meter => .meter
  | .bright => .bright

/-- A window: its start and its sums (R58). -/
structure Window where
  start : Nat
  sGp   : Nat
  sGa   : Nat
  sRp   : Nat
deriving DecidableEq, Repr

/-- The sum of a channel over the cells of a window (R58). -/
def windowSum (c : Channel) (w j : Nat) (net : List Sample) : Nat :=
  (((net.drop j).take w).map fun v => v.get c).sum

/-- The afterglow ratio Q (R58). -/
def Window.q (x : Window) : Nat :=
  if x.sGp = 0 then 0 else min 255 (256 * x.sGa / x.sGp)

/-- The window starting at cell `j` (R58). -/
def window (w j : Nat) (net : List Sample) : Window where
  start := j
  sGp := windowSum .gp w j net
  sGa := windowSum .ga w j net
  sRp := windowSum .rp w j net

/-- A window start belongs to a zone (R59). -/
def inZone (l : Latched) (j : Nat) : Zone → Bool
  | .lead => decide (j + l.w ≤ l.z)
  | .trail => decide (l.n ≤ j + l.z)

/-- A window passes the test of a kind (R60). -/
def passesKind (l : Latched) (x : Window) : MarkKind → Bool
  | .phosphor => decide (l.tPh ≤ x.sGa) && decide (l.qMin ≤ x.q)
  | .meter => decide (l.tMt ≤ x.sRp) && decide (x.sGp ≤ x.sRp)
  | .bright => decide (l.tBr ≤ x.sGp) && decide (x.q < l.qMin)

/-- The strength of a window for a kind (R60). -/
def strengthOf (x : Window) : MarkKind → Nat
  | .phosphor => x.sGa
  | .meter => x.sRp
  | .bright => x.sGp

/-- A candidate (R61). -/
structure Candidate where
  kind     : MarkKind
  head     : Head
  zone     : Zone
  strength : Nat
  win      : Window
deriving DecidableEq, Repr

/-- The orientation of a head and zone; none where they are off-corner (R62). -/
def orientOf : Head → Zone → Option Orient
  | .ft, .lead => some .o0
  | .fb, .trail => some .o1
  | .bt, .trail => some .o2
  | .bb, .lead => some .o3
  | .ft, .trail | .fb, .lead | .bt, .lead | .bb, .trail => none

/-- The first element of greatest strength (R61, R63). -/
def strongest {α : Type} (strength : α → Nat) : List α → Option α
  | [] => none
  | x :: xs =>
    match strongest strength xs with
    | none => some x
    | some y => if strength x < strength y then some y else some x

/-- The windows of one head in a zone, by rising start (R58, R59). -/
def zoneWindows (l : Latched) (net : List Sample) (zn : Zone) : List Window :=
  ((List.range (l.n + 1 - l.w)).filter fun j => inZone l j zn).map fun j => window l.w j net

/-- The candidate of a head, zone and kind (R61). -/
def candidate (l : Latched) (h : Head) (zn : Zone) (wins : List Window) (k : MarkKind) : Option Candidate :=
  (strongest (fun x => strengthOf x k) (wins.filter fun x => passesKind l x k)).map fun x =>
    { kind := k, head := h, zone := zn, strength := strengthOf x k, win := x }

/-- Every candidate of one head: lead zone before trail zone (R61). -/
def headCandidates (l : Latched) (h : Head) (net : List Sample) : List Candidate :=
  let lead := zoneWindows l net .lead
  let trail := zoneWindows l net .trail
  [candidate l h .lead lead .phosphor, candidate l h .lead lead .meter, candidate l h .lead lead .bright,
    candidate l h .trail trail .phosphor, candidate l h .trail trail .meter, candidate l h .trail trail .bright].filterMap id

/-- Every candidate of a letter, by head in the order FT, FB, BT, BB, for the heads of the usable-head set (R55, R61). -/
def candidates (l : Latched) (net : PerHead (List Sample)) : List Candidate :=
  Head.all.flatMap fun h => if l.usable.get h then headCandidates l h (net.get h) else []

/-! ### The choice -/

/-- The top class (R63). -/
def topKind (cs : List Candidate) : Option MarkKind :=
  [MarkKind.phosphor, .meter, .bright].find? fun k => cs.any fun c => decide (c.kind = k)

/-- What the choice comes to: the class, the chosen or reported candidate, and the orientation (R63, R64, R65). -/
structure Choice where
  cls    : MarkClass
  chosen : Option Candidate
  orient : Option Orient
deriving DecidableEq, Repr

/-- The choice among candidates given in the order of R63's second and third steps (R63, R64, R65). -/
def choose (ambig : Nat) (cs : List Candidate) : Choice :=
  match topKind cs with
  | none => { cls := .noMark, chosen := none, orient := none }
  | some k =>
    let top := cs.filter fun c => decide (c.kind = k)
    let valid := top.filter fun c => (orientOf c.head c.zone).isSome
    match strongest (·.strength) valid with
    | none => { cls := .offcorner, chosen := strongest (·.strength) top, orient := none }
    | some m =>
      match strongest (·.strength) (valid.filter fun c => decide (c.head ≠ m.head)) with
      | none => { cls := k.cls, chosen := some m, orient := orientOf m.head m.zone }
      | some second =>
        if m.strength * ambig ≤ second.strength * 16 then { cls := .ambiguous, chosen := some m, orient := none }
        else { cls := k.cls, chosen := some m, orient := orientOf m.head m.zone }

/-- Whether a cell of the chosen window carries the saturated mark in the channels of its kind (R56, R67). -/
def saturatedIn (l : Latched) (raw : PerHead (List Sample)) (c : Candidate) : Bool :=
  (((raw.get c.head).drop c.win.start).take l.w).any fun v =>
    match c.kind with
    | .phosphor => decide (v.ga = 1023) || decide (v.gp = 1023)
    | .meter => decide (v.rp = 1023)
    | .bright => decide (v.gp = 1023)

/-- DEGRADED: the usable-head set lacks a head, or a head of it was lost (R55). -/
def degradedOf (l : Latched) (lost : PerHead (Option Nat)) : Bool :=
  Head.all.any fun h => !l.usable.get h || (lost.get h).isSome

/-- The net values of every head taking part (R55 to R57). -/
def netOf (l : Latched) (raw : PerHead (List Sample)) : PerHead (List Sample) where
  ft := if l.usable.ft then netCells l.lnom l.lref.ft raw.ft else raw.ft
  fb := if l.usable.fb then netCells l.lnom l.lref.fb raw.fb else raw.fb
  bt := if l.usable.bt then netCells l.lnom l.lref.bt raw.bt else raw.bt
  bb := if l.usable.bb then netCells l.lnom l.lref.bb raw.bb else raw.bb

/-- The mark result of a letter (R66). -/
def markResult (l : Latched) (raw : PerHead (List Sample)) (lost : PerHead (Option Nat)) : MarkResult :=
  let c := choose l.ambig (candidates l (netOf l raw))
  { cls := c.cls
    orient := c.orient
    strength := c.chosen.map (·.strength)
    cell := c.chosen.map (·.win.start)
    q := if c.cls = .phosphor then c.chosen.map (·.win.q) else none
    degraded := degradedOf l lost
    saturated := (c.chosen.map (saturatedIn l raw)).getD false }

/-! ### Capture -/

/-- The first cells of a channel's capture lines: 0, 32, 64, ... below `n` (R73). -/
def captureFirsts (n : Nat) : List Nat :=
  (List.range ((n + 31) / 32)).map (32 * ·)

/-- The capture lines of a letter, in the order of R73. -/
def captureKeys (l : Latched) : List CaptureKey :=
  Head.all.flatMap fun h =>
    if l.usable.get h then
      [Channel.gp, .ga, .rp].flatMap fun c => (captureFirsts l.n).map fun f => { head := h, channel := c, first := f }
    else []

/-- A delivered class matches the class wanted; ANY matches every class (R72). -/
def wants (c : Capture) (cls : MarkClass) : Bool :=
  match c with
  | .armed none => true
  | .armed (some w) => decide (w = cls)
  | .off => false
  | .draining _ => false

/-! ### Delivery -/

/-- The result written into an entry in COMPUTING, and counted (R68, R69); discarded where the letter is gone (R70). -/
def writeResult (n : LetterNo) (r : MarkResult) (s : State) : State :=
  match s.entry? n with
  | none => s
  | some e =>
    if e.scan = .computing then
      count (countResult r) (updEntry n (fun e => { e with result := some r, late := e.path.isSome, scan := .done }) s)
    else s

/-- The buffer of a delivery is returned, or kept for the capture it matches with the net values in it (R51, R57, R72). -/
def returnBuf (i : SlotItem) (l : Latched) (r : MarkResult) (s : State) : State :=
  if wants s.mkf.capture r.cls then
    let t := updBuf i.buf (fun b => { b with phase := .capture, cells := netOf l b.cells }) s
    { t with mkf := { t.mkf with
        capture := .draining { buf := i.buf, letter := i.letter, cls := r.cls, lines := captureKeys l } } }
  else updBuf i.buf (fun _ => freeBuf) s

/-- The end of the computation of the computing slot's item (R68 to R72), and the next take-up. -/
def deliver (i : SlotItem) (s : State) : State :=
  let b := s.scu.bufs.get i.buf
  let t := match i.params with
    | none => updBuf i.buf (fun _ => freeBuf) s
    | some l =>
      let r := markResult l b.cells b.lost
      returnBuf i l r (writeResult i.letter r s)
  takeUp { t with mkf := { t.mkf with slot := none } }

/-- The net values of a capture line, from the buffer kept (R73). -/
def captureLine (d : Draining) (k : CaptureKey) (s : State) : CaptureLine where
  letter := d.letter
  key := k
  values := ((((s.scu.bufs.get d.buf).cells.get k.head).drop k.first).take 32).map fun v => v.get k.channel

/-- A capture line has been sent (R74): it leaves the draining capture, and with the last one the buffer is FREE, the slot OFF and
CAPTURE_DONE set. A line of a capture ended meanwhile by CAPTURE OFF changes nothing. -/
def captureSent (c : CaptureLine) (s : State) : State :=
  match s.mkf.capture with
  | .draining d =>
    if d.letter = c.letter ∧ d.lines.head? = some c.key then
      match d.lines.tail with
      | [] =>
        let t := updBuf d.buf (fun _ => freeBuf) s
        setFlag .captureDone (.captured d.letter d.cls) { t with mkf := { t.mkf with capture := .off } }
      | rest => { s with mkf := { s.mkf with capture := .draining { d with lines := rest } } }
    else s
  | .off => s
  | .armed _ => s

end Sys2Proof.Machine
end

