-- ==== Sys2Proof/Machine/GateOps.lean ====
section
/-! DEFINITION. The gates of the Path Controller (section 5.4): clear positions, taking an entry, placing an entry. -/

namespace Sys2Proof.Machine

/-- The station of a gate (R85, R192). -/
def gateStation : Gate → Station
  | .g1 => .g1
  | .gr => .gr
  | .g2 => .g2
  | .a1 => .a1
  | .a2 => .a2
  | .a3 => .a3
  | .a4 => .a4
  | .a5 => .a5
  | .a6 => .a6
  | .b1 => .b1
  | .b2 => .b2
  | .b3 => .b3
  | .b4 => .b4
  | .b5 => .b5
  | .b6 => .b6
  | .rm => .rm
  | .rh => .rh

/-- The settle distance of a gate (R85, R192). -/
def gateSettle (p : Profile) : Gate → Nat
  | .g1 => p.settleG1
  | .gr => p.settleGr
  | .g2 => p.settleG2
  | .a1 | .a2 | .a3 | .a4 | .a5 | .a6 | .b1 | .b2 | .b3 | .b4 | .b5 | .b6 | .rm | .rh => p.settlePkt

/-- The distance of a gate along a letter's path: the twist extra counts for G2 and the stream pocket gates (R87). -/
def gateDist (p : Profile) (e : Entry) (g : Gate) : Nat :=
  match g with
  | .g1 | .gr | .rm | .rh => p.dist (gateStation g)
  | .g2 | .a1 | .a2 | .a3 | .a4 | .a5 | .a6 | .b1 | .b2 | .b3 | .b4 | .b5 | .b6 => p.dist (gateStation g) + twistOf p e

/-- The track length of a letter (R87). -/
def trackLength (e : Entry) : Nat :=
  match e.length1 with
  | some l => max (length0Of e) l.toNat
  | none => length0Of e

/-- The distance from a letter's anchor to its clear position at a gate (R87). -/
def clearDist (p : Profile) (e : Entry) (g : Gate) : Nat :=
  gateDist p e g + trackLength e + p.slipTol

/-- A gate that is free, IDLE and has a queue takes its oldest entry (R88): the letter becomes the user, and where the required
setting differs the gate switches and settles. Only in STARTING, RUN and DRAIN (R91). -/
def gateTry (g : Gate) (s : State) : State :=
  if running s then
    let r := s.ptc.gates.get g
    match r.user, r.settle, r.queue with
    | none, none, (n, set) :: rest =>
      match s.entry? n with
      | none => updGate g (fun r => { r with queue := rest }) s
      | some e =>
        updGate g (fun r => { r with
          queue := rest
          user := some { letter := n, dist := clearDist s.pfs.profile e g }
          setting := set
          settle := if r.setting = set then none else some (at' s.trk.belt (gateSettle s.pfs.profile g)) }) s
    | _, _, _ => s
  else s

/-- A required setting is placed in a gate's schedule queue, after every older letter and before every newer one (R86); an entry that
would make the queue hold more than 8 calls for a fault stop OVERRUN. Nothing is placed once the line is in FAULT (R91). -/
def placeEntry (g : Gate) (n : LetterNo) (set : Setting) (s : State) : State :=
  if running s then
    let r := s.ptc.gates.get g
    if 8 ≤ r.queue.length then faultStop (.overrunGate g) s
    else gateTry g (updGate g (fun r => { r with queue := insertByAge Prod.fst (n, set) r.queue }) s)
  else s

/-- A gate released by a letter leaving the Letter Table: withdrawn from the queue, and from the gate where it is the user (R87, R92);
the gate may then take its next entry (R88). -/
def gateRemoved (n : LetterNo) (s : State) (g : Gate) : State :=
  gateTry g (updGate g (fun r => { r with
    user := match r.user with
      | some u => if u.letter = n then none else some u
      | none => none
    queue := r.queue.filter fun q => decide (q.1 ≠ n) }) s)

end Sys2Proof.Machine
end

