-- ==== Sys2Proof/Machine/PocketOps.lean ====
section
/-! DEFINITION. The Pocket Controller's shared operations (chapter 7): state by count and sensor, the blocked set, the choice of a
pocket, commitment, the gates of pockets not fitted, sweeping and disabling. -/

namespace Sys2Proof.Machine

/-! ### State by count and sensor, and the blocked set -/

/-- The state by count and sensor (R123); the sensor of a pocket that is not fitted has no effect on it (R122). -/
def byCountSensor (p : Profile) (q : Pocket) (r : PocketRec) : PocketState :=
  if (p.fitted q && decide (r.sensor = .active)) || decide (p.capacity q ≤ r.count) then .full
  else if p.nearFull q ≤ r.count then .nearFull
  else .open

/-- A pocket that takes new letters. -/
def usable : PocketState → Bool
  | .open | .nearFull => true
  | .full | .sweepPending | .sweep | .disabled => false

/-- The fitted pockets of a stream that a class may use: those of the class and the OVERFLOW pockets (R138). -/
def classPockets (p : Profile) (s : Stream) (c : PocketClass) : List StackPocket :=
  (stackOn s).filter fun q => (p.stack.get q).fit && decide ((p.stack.get q).cls = c ∨ (p.stack.get q).cls = .overflow)

/-- Whether a class is blocked (R138). OVERFLOW is the class of a pocket only, and is not judged. -/
def isBlocked (s : State) : BlockClass → Bool
  | .on _ .overflow => false
  | .on st c => (classPockets s.pfs.profile st c).all fun q => !usable (s.pkc.recs.get (stackPocket q)).state
  | .machine => !usable s.pkc.recs.rm.state
  | .manual => !usable s.pkc.recs.rh.state

/-- The eight classes judged, in the order of their codes (R138, R190). -/
def BlockClass.all : List BlockClass :=
  [.on .a .cancelled, .on .a .metered, .on .a .uncancelled, .on .b .cancelled, .on .b .metered, .on .b .uncancelled,
    .machine, .manual]

/-- The blocked set is judged afresh and POCKETS follows it (R138); not before the end of POWERUP (R141, log entry 22). -/
def judgeBlocked (s : State) : State :=
  if s.flc.line = .powerup then s
  else
    let blocked := BlockClass.all.filter (isBlocked s)
    setHold .pockets (!blocked.isEmpty) { s with pkc := { s.pkc with blocked := blocked } }

/-- A pocket's state comes to stand at a value; a change sets POCKET_STATE (R123). -/
def restate (q : Pocket) (new : PocketState) (s : State) : State :=
  if (s.pkc.recs.get q).state = new then s
  else setFlag .pocketState (.pocket q new) (updPocket q (fun r => { r with state := new }) s)

/-- A change of a pocket's state sets POCKET_STATE, and the blocked set is judged (R123, R138). -/
def setPocketState (q : Pocket) (new : PocketState) (s : State) : State :=
  if (s.pkc.recs.get q).state = new then s else judgeBlocked (restate q new s)

/-- A pocket's state taken by count and sensor, whatever it was (R133 to R135). -/
def retake (q : Pocket) (s : State) : State :=
  setPocketState q (byCountSensor s.pfs.profile q (s.pkc.recs.get q)) s

/-- The state a pocket follows to: by count and sensor in OPEN, NEAR_FULL and FULL; SWEEP_PENDING, SWEEP and DISABLED stay, and an end bin
has none (R123). -/
def followed (p : Profile) (q : Pocket) (r : PocketRec) : PocketState :=
  if isBin q then r.state
  else
    match r.state with
    | .open | .nearFull | .full => byCountSensor p q r
    | .sweepPending => .sweepPending
    | .sweep => .sweep
    | .disabled => .disabled

/-- A pocket follows its count, its sensor, its capacity and its near-full mark (R123, R140). -/
def follow (q : Pocket) (s : State) : State :=
  setPocketState q (followed s.pfs.profile q (s.pkc.recs.get q)) s

/-- A pocket in SWEEP_PENDING with committed count 0 becomes SWEEP (R134). -/
def sweepIfClear (q : Pocket) (s : State) : State :=
  if (s.pkc.recs.get q).state = .sweepPending ∧ (s.pkc.recs.get q).committed = 0 ∧ ¬ isBin q then setPocketState q .sweep s else s

/-- A pocket's committed count falls by one, at the removal of an entry that names it (R130, R131). -/
def lowerCommitted (q : Pocket) (s : State) : State :=
  updPocket q (fun r => { r with committed := r.committed - 1 }) s

/-! ### The select point -/

/-- The stacking class of a stream letter (R125). -/
def stackingClass (e : Entry) : PocketClass :=
  if e.result.map (·.cls) = some .meter then .metered
  else if e.job.map (·.outcome) = some .done then .cancelled
  else .uncancelled

/-- The reject lane of a reject cause: MANUAL for five causes, MACHINE for the others (R86, R125). -/
def manualCause : Option RejectCause → Bool
  | some .noMark | some .offcorner | some .ambiguous | some .brightManual | some .noTwist => true
  | some .offsize | some .gap | some .double | some .unscanned | some .late | some .merge | some .noPocket | none => false

/-- The first pocket of a stream with a class and a state (R126). -/
def firstPocket (s : State) (st : Stream) (c : PocketClass) (w : PocketState) : Option Pocket :=
  ((stackOn st).find? fun q =>
    (s.pfs.profile.stack.get q).fit && decide ((s.pfs.profile.stack.get q).cls = c)
      && decide ((s.pkc.recs.get (stackPocket q)).state = w)).map stackPocket

/-- The end bin of a stream (R121). -/
def streamBin : Stream → Pocket
  | .a => .ea
  | .b => .eb

/-- The pocket or end bin a stream letter is committed to (R126). -/
def chooseStream (s : State) (st : Stream) (c : PocketClass) : Pocket :=
  match firstPocket s st c .open, firstPocket s st c .nearFull, firstPocket s st .overflow .open,
    firstPocket s st .overflow .nearFull with
  | some q, _, _, _ => q
  | none, some q, _, _ => q
  | none, none, some q, _ => q
  | none, none, none, some q => q
  | none, none, none, none => streamBin st

/-- The reject pocket of a lane. -/
def rejectPocket (manual : Bool) : Pocket :=
  if manual then .rh else .rm

/-- The pocket or end bin a reject-line letter is committed to (R127). -/
def chooseReject (s : State) (manual : Bool) : Pocket :=
  if usable (s.pkc.recs.get (rejectPocket manual)).state then rejectPocket manual else .er

/-- The gate of a pocket with a gate (R85). -/
def stackGate : StackPocket → Gate
  | .a1 => .a1
  | .a2 => .a2
  | .a3 => .a3
  | .a4 => .a4
  | .a5 => .a5
  | .a6 => .a6
  | .b1 => .b1
  | .b2 => .b2
  | .b3 => .b3
  | .b4 => .b4
  | .b5 => .b5
  | .b6 => .b6

/-- The gate of every stream pocket that is not fitted stands at PASS (R85). R91 holds every setting where the line does not run; R85's
sentence on these gates is taken as its exception, and nothing but the setting changes (log entry 42). -/
def passUnfitted (s : State) : State :=
  StackPocket.all.foldl (fun t x =>
    if (t.pfs.profile.stack.get x).fit then t else updGate (stackGate x) (fun r => { r with setting := .pass }) t) s

/-- The pocket-gate entries of a commitment on a stream (R86): PASS at each fitted gate before the committed pocket, DIVERT at its
own, PASS at every fitted gate for the end bin. -/
def streamEntries (p : Profile) (st : Stream) (q : Pocket) : List (Gate × Setting) :=
  let before := ((stackOn st).takeWhile fun x => decide (stackPocket x ≠ q)).filter fun x => (p.stack.get x).fit
  before.map (fun x => (stackGate x, .pass)) ++
    match stackOf q with
    | some x => [(stackGate x, .divert)]
    | none => []

/-- The pocket-gate entry of a commitment on the reject line, at the gate of the letter's lane (R86). -/
def rejectEntries (manual : Bool) (q : Pocket) : List (Gate × Setting) :=
  [(if manual then .rh else .rm, if q = rejectPocket manual then .divert else .pass)]

/-- A commitment (R128): the committed count, the pocket field, NO_POCKET for an end bin (R126, R127), and the gate entries in
turn. -/
def commit (n : LetterNo) (q : Pocket) (entries : List (Gate × Setting)) (s : State) : State :=
  let t := updPocket q (fun r => { r with committed := r.committed + 1 }) s
  let t := updEntry n (fun e => { e with pocket := some q, cause := if isBin q then some .noPocket else e.cause }) t
  entries.foldl (fun t ge => placeEntry ge.1 n ge.2 t) t

/-- A letter at its select point (R124 to R128). -/
def selectAct (n : LetterNo) (s : State) : State :=
  match s.entry? n with
  | none => s
  | some e =>
    match e.stream with
    | some st =>
      let q := chooseStream s st (stackingClass e)
      commit n q (streamEntries s.pfs.profile st q) s
    | none =>
      let manual := manualCause e.cause
      let q := chooseReject s manual
      commit n q (rejectEntries manual q) s

/-! ### Sweeping and disabling -/

/-- A sweep request in OPEN, NEAR_FULL, FULL or SWEEP_PENDING (R133); none where the state is another. -/
def sweepRequest (q : Pocket) (s : State) : Option State :=
  match (s.pkc.recs.get q).state with
  | .open | .nearFull | .full =>
    some (setPocketState q (if (s.pkc.recs.get q).committed = 0 then .sweep else .sweepPending) s)
  | .sweepPending => some (retake q s)
  | .sweep | .disabled => none

/-- A sweep completion (R134): the count set to 0, the state by count and sensor. -/
def sweepComplete (q : Pocket) (s : State) : State :=
  retake q (updPocket q (fun r => { r with count := 0 }) s)

/-- A long press (R135): it disables with committed count 0, and enables a DISABLED pocket. -/
def longPress (q : Pocket) (s : State) : State :=
  if (s.pkc.recs.get q).state = .disabled then retake q s
  else if (s.pkc.recs.get q).committed = 0 then setPocketState q .disabled s
  else s

/-- A short press (R133, R134). -/
def shortPress (q : Pocket) (s : State) : State :=
  if (s.pkc.recs.get q).state = .sweep then sweepComplete q s
  else (sweepRequest q s).getD s

/-- The class of a press by its duration in ms (R132), and its effect. -/
def pressAct (q : Pocket) (d : Nat) (s : State) : State :=
  if d < 50 then s
  else if d < 2000 then shortPress q s
  else if d ≤ 8000 then longPress q s
  else s

end Sys2Proof.Machine
end

