-- ==== Sys2Proof/Machine/TrackOps.lean ====
section
/-! DEFINITION. Letters entering and leaving the Letter Table (sections 1.4, 1.6, 7.3, 8.7): induction, the PE0 tail, removal,
stacking, the clearing of the line. -/

namespace Sys2Proof.Machine

/-! ### Induction and the PE0 tail -/

/-- The gap check fails (R12). -/
def gapShort (s : State) (anchor : Pos) : Bool :=
  match s.trk.prevTail with
  | some t => decide (distance t anchor < s.pfs.profile.minGap)
  | none => false

/-- A new entry with the values R6 gives. -/
def newEntry (n : LetterNo) (anchor : Pos) : Entry where
  number := n
  anchor := anchor
  length0 := none
  length1 := none
  early := none
  scan := .none
  latched := none
  result := none
  late := false
  path := none
  stream := none
  cause := none
  job := none
  pocket := none
  lastPe := .pe0
  stranded := false
  shTaken := false
  inStation := false

/-- A blocking of PE0 dated at `a`, in STARTING, RUN or DRAIN with the record IDLE (R10): the entry, the gap check, the measurement,
the PE1 list, INDUCTED, the TABLE hold cause (R19); or OVERRUN at a full table (R11). -/
def induct (a : Pos) (s : State) : State :=
  if 64 ≤ s.trk.table.length then faultStop .overrunTable s
  else
    let n := s.trk.nextNumber
    let e := newEntry n a
    let e := if gapShort s a then withEarly .gap e else e
    let t := { s with trk := { s.trk with
        table := s.trk.table ++ [e], nextNumber := nextLetter n, measuring := some n, overTaken := false } }
    let t := updSup .pe1 (fun r => { r with expected := insertByAge id n r.expected }) t
    let t := count (fun b => { b with flow := { b.flow with inducted := b.flow.inducted + 1 } }) t
    if t.trk.table.length = s.pfs.profile.holdAt then setHold .table true t else t

/-- The length check of R13. -/
def offsize (len : Nat) : Bool :=
  decide (len < 480) || decide (1200 < len)

/-- A clearing of PE0 dated at `t` while measuring letter `n` (R13, R167). -/
def pe0Tail (n : LetterNo) (tail : Pos) (s : State) : State :=
  let t := { s with trk := { s.trk with prevTail := some tail, measuring := none, overTaken := false } }
  match s.entry? n with
  | none => t
  | some e =>
    let len := (distance e.anchor tail).toNat
    let t := updEntry n (fun e =>
      let e := { e with length0 := some len }
      if offsize len then withEarly .offsize e else e) t
    count (fun b => { b with lengths := b.lengths.upd (bucketOf len) (· + 1) }) t

/-! ### Removal -/

/-- An expected-arrival list and passing slot less a letter (R18, R30). -/
def supRemoved (n : LetterNo) (r : SupRec) : SupRec where
  expected := r.expected.filter fun m => decide (m ≠ n)
  passing := match r.passing with
    | some p => if p.letter = n then none else some p
    | none => none

/-- The removal of an entry from the Letter Table (R18), with its withdrawal from lists, slots and gates, the TABLE hold cause (R19),
the held letter of a canceller (R116), and the scan station it may leave free (R40). -/
def removeEntry (n : LetterNo) (s : State) : State :=
  let t := { s with
    trk := { s.trk with table := dropEntry n s.trk.table }
    pcm := { s.pcm with sups := s.pcm.sups.map (supRemoved n) } }
  let t := if t.trk.table.length = s.pfs.profile.releaseAt then setHold .table false t else t
  let t := Gate.all.foldl (gateRemoved n) t
  tryCalibrate (cancRemoved .b n (cancRemoved .a n t))

/-! ### Stacking -/

/-- The clean-run count at a stacking (R158). -/
def cleanRunCount (q : Pocket) (s : State) : State :=
  if isBin q then s
  else if s.pfs.profile.cleanRun ≤ s.flc.cleanRun + 1 then { s with flc := { s.flc with faultCount := 0, cleanRun := 0 } }
  else { s with flc := { s.flc with cleanRun := s.flc.cleanRun + 1 } }

/-- A letter at its stacking position (R130): the pocket's counts and state, the removal, the counters and the letter record of the
entry as it stood, the clean-run count. -/
def stackAct (n : LetterNo) (s : State) : State :=
  match s.entry? n with
  | none => s
  | some e =>
    match e.pocket with
    | none => s
    | some q =>
      let t := updPocket q (fun r => { r with count := r.count + 1, committed := r.committed - 1 }) s
      let t := sweepIfClear q (follow q t)
      let t := removeEntry n t
      let t := offerRecord (recordOf e (.stacked q)) (count (countStacking e q) t)
      cleanRunCount q t

/-! ### Clearing the line -/

/-- One entry removed by CLEAR (R157): the committed count of its pocket, CLEARED, its letter record, the removal. -/
def clearEntry (s : State) (e : Entry) : State :=
  let t := match e.pocket with
    | some q => sweepIfClear q (lowerCommitted q s)
    | none => s
  let t := count (fun b => { b with flow := { b.flow with cleared := b.flow.cleared + 1 } }) t
  removeEntry e.number (offerRecord (recordOf e .cleared) t)

/-- The clearing of R157: every entry oldest first, the fault record removed, STANDBY with cause CLEAR. A calibration that fell due in
FAULT is taken if the station is free (R41). -/
def lineClearing (s : State) : State :=
  let t := s.trk.table.foldl clearEntry s
  tryCalibrate (setLine .standby .clear none { t with flc := { t.flc with fault := none } })

end Sys2Proof.Machine
end

