-- ==== Sys2Proof/Machine/PathOps.lean ====
section
/-! DEFINITION. The Path Controller's decision at DP (sections 5.1 to 5.3), and the arm and fire points it schedules (sections 6.5 and
6.6). -/

namespace Sys2Proof.Machine

/-! ### Arm and fire points -/

/-- A change of a letter's cancel job. -/
def updJob (n : LetterNo) (f : CancelJob → CancelJob) (s : State) : State :=
  updEntry n (fun e => { e with job := e.job.map f }) s

/-- A letter at its arm point (R104): only a PENDING job is acted on (R103). -/
def armAct (n : LetterNo) (s : State) : State :=
  match s.entry? n with
  | none => s
  | some e =>
    let t := updJob n (fun j => { j with armTaken := true }) s
    match e.stream, e.job with
    | some c, some j =>
      if j.outcome = .pending then
        match (t.can.recs.get c).state with
        | .ready => armLetter c n t
        | .arming | .armed | .printing =>
          if (t.can.recs.get c).deferred = none then updCanc c (fun r => { r with deferred := some n }) t
          else writeOutcome n .skippedBusy t
        | .off | .priming | .overheat | .fault => writeOutcome n .skippedUnavailable t
      else t
    | _, _ => t

/-- A letter at its fire point (R108): only a PENDING job is acted on (R103). -/
def fireAct (n : LetterNo) (s : State) : State :=
  match s.entry? n with
  | none => s
  | some e =>
    let t := updJob n (fun j => { j with fireTaken := true }) s
    match e.stream, e.job with
    | some c, some j =>
      if j.outcome = .pending then
        let r := t.can.recs.get c
        if r.held = some n ∧ r.state = .armed then
          cancTo c .printing (updCanc c (fun r => { r with strobes := r.strobes ++ [n] }) t)
        else if r.held = some n ∧ r.state = .arming then
          let t := releaseHeld c .skippedBusy (sendFrame c .abort t)
          cancReady c (updCanc c (fun r => { r with replyTimer := none }) t)
        else if r.deferred = some n then
          updCanc c (fun r => { r with deferred := none }) (writeOutcome n .skippedBusy t)
        else writeOutcome n .skippedBusy t
      else t
    | _, _ => t

/-- The distance of a letter's arm point from its anchor (R103). -/
def armOffset (s : State) (e : Entry) (c : Stream) : Int :=
  (printDist s.pfs.profile e c : Int) - (s.can.recs.get c).armDist

/-- The distance of a letter's fire point from its anchor (R103). -/
def fireOffset (s : State) (e : Entry) (c : Stream) (j : CancelJob) : Int :=
  (printDist s.pfs.profile e c : Int) + j.winStart

/-- The distance of a letter's done limit from its anchor (R103). -/
def doneOffset (s : State) (e : Entry) (c : Stream) : Int :=
  (printDist s.pfs.profile e c : Int) + length0Of e + (s.can.recs.get c).doneMargin - 1

/-- An arm point or fire point already reached at the DP event is taken in it, the arm point first (R103). -/
def armAtDp (n : LetterNo) (s : State) : State :=
  let arm (s : State) : State :=
    match s.entry? n with
    | some e => match e.stream, e.job with
      | some c, some _ =>
        if running s && reached s.trk.belt (at' e.anchor (armOffset s e c)) then armAct n s else s
      | _, _ => s
    | none => s
  let fire (s : State) : State :=
    match s.entry? n with
    | some e => match e.stream, e.job with
      | some c, some j =>
        if running s && reached s.trk.belt (at' e.anchor (fireOffset s e c j)) then fireAct n s else s
      | _, _ => s
    | none => s
  fire (arm s)

/-! ### The decision -/

/-- A decision: path, stream, and the reject cause it gives a letter that has none (R77 to R82). -/
structure Decision where
  path   : Path
  stream : Option Stream
  cause  : Option RejectCause
deriving DecidableEq, Repr

def rejectFor (c : RejectCause) : Decision where
  path := .reject
  stream := none
  cause := some c

/-- The facing of a letter by its orientation (R79). -/
def faceBy (p : Profile) : Orient → Decision
  | .o0 => { path := .straight, stream := some .a, cause := none }
  | .o1 => { path := .straight, stream := some .b, cause := none }
  | .o2 => if p.twist.isSome then { path := .twist, stream := some .b, cause := none } else rejectFor .noTwist
  | .o3 => if p.twist.isSome then { path := .twist, stream := some .a, cause := none } else rejectFor .noTwist

/-- The decision on a mark result (R78, R79). A class that carries an orientation always holds one (R66). -/
def decideResult (p : Profile) (r : MarkResult) : Decision :=
  match r.cls, r.orient with
  | .noMark, _ => rejectFor .noMark
  | .offcorner, _ => rejectFor .offcorner
  | .ambiguous, _ => rejectFor .ambiguous
  | .bright, o => if p.brightPolicy = .manual then rejectFor .brightManual else (o.map (faceBy p)).getD (rejectFor .noMark)
  | .phosphor, o => (o.map (faceBy p)).getD (rejectFor .noMark)
  | .meter, o => (o.map (faceBy p)).getD (rejectFor .noMark)

/-- The decision before the merge check (R77 to R79). -/
def firstDecision (p : Profile) (e : Entry) : Decision :=
  if e.early.isSome then { path := .reject, stream := none, cause := none }
  else
    match e.scan, e.result with
    | .done, some r => decideResult p r
    | .done, none | .none, _ | .scanning, _ | .waiting, _ | .computing, _ | .aborted, _ => rejectFor .late

/-- The merge head of a letter (R80). -/
def mergeHead (p : Profile) (e : Entry) (path : Path) : Pos :=
  at' e.anchor (p.dist .mp + (if path = .twist then p.twistExtra else 0) : Nat)

/-- The merge check passes (R81). -/
def mergePasses (s : State) (e : Entry) (path : Path) : Bool :=
  match s.ptc.merge with
  | none => true
  | some m => decide ((s.pfs.profile.minMergeGap : Int) ≤ distance m.tail (mergeHead s.pfs.profile e path))

/-- The final decision (R77 to R81). -/
def finalDecision (s : State) (e : Entry) : Decision :=
  let d := firstDecision s.pfs.profile e
  match d.path with
  | .reject => d
  | .straight | .twist => if mergePasses s e d.path then d else rejectFor .merge

/-- The cancel job of a final decision, where it makes one (R83, R100 to R102). -/
def makeJob (s : State) (e : Entry) (d : Decision) : Option CancelJob :=
  match d.stream, e.result, e.latched with
  | some c, some r, some l =>
    if r.cls = .phosphor ∨ (r.cls = .bright ∧ s.pfs.profile.brightPolicy = .stamp) then
      let dir : Direction := match c with | .a => .forward | .b => .reversed
      let w := impressionWindow dir (r.cell.getD 0) l.w (length0Of e) s.pfs.profile.pre s.pfs.profile.impLen
      some
        { outcome := .pending
          dater := s.can.dater
          pre := s.pfs.profile.pre
          impLen := s.pfs.profile.impLen
          direction := dir
          winStart := w.1
          winEnd := w.2
          truncated := decide (w.2 - w.1 < s.pfs.profile.impLen)
          density := none
          armTaken := false
          fireTaken := false }
    else none
  | _, _, _ => none

/-- The decision written into the entry (R82). -/
def writeDecision (d : Decision) (j : Option CancelJob) (e : Entry) : Entry :=
  { e with
    path := some d.path
    stream := d.stream
    cause := match e.cause with
      | some c => some c
      | none => d.cause
    job := j }

/-- A letter joins an expected-arrival list in induction order, and no list holds it twice (R24). -/
def joinList (c : Sup) (n : LetterNo) (s : State) : State :=
  updSup c (fun r => { r with expected := if r.expected.contains n then r.expected else insertByAge id n r.expected }) s

/-- The setting of G1 for a path (R86). -/
def pathSetting : Path → Setting
  | .straight => .straight
  | .twist => .twist
  | .reject => .reject

/-- The lists a decision joins (R24). -/
def joinLists (n : LetterNo) (d : Decision) (s : State) : State :=
  match d.path with
  | .reject => joinList .pe4r n s
  | .straight | .twist =>
    match d.stream with
    | some .a => joinList .pe3a n (joinList .pe2 n s)
    | some .b => joinList .pe3b n (joinList .pe2 n s)
    | none => joinList .pe2 n s

/-- The gate entries a decision places (R82, R86): G1, then G2 or the reject-line gate, by the cause standing in the entry. -/
def placeGates (n : LetterNo) (d : Decision) (cause : Option RejectCause) (s : State) : State :=
  let t := placeEntry .g1 n (pathSetting d.path) s
  match d.path with
  | .reject => placeEntry .gr n (if manualCause cause then .manual else .machine) t
  | .straight | .twist => placeEntry .g2 n (match d.stream with | some .b => .b | some .a | none => .a) t

/-- A letter given STRAIGHT or TWIST becomes the previous main-line letter, with its merge tail (R80, R81). -/
def recordMerge (e : Entry) (d : Decision) (s : State) : State :=
  match d.path with
  | .reject => s
  | .straight | .twist =>
    { s with ptc := { s.ptc with merge := some {
        letter := e.number
        tail := at' (mergeHead s.pfs.profile e d.path) (length0Of e) } } }

/-- The DP decision of a letter (R76 to R83) and what it hands on (R82). -/
def dpAct (n : LetterNo) (s : State) : State :=
  match s.entry? n with
  | none => s
  | some e =>
    let d := finalDecision s e
    let j := makeJob s e d
    let t := updEntry n (writeDecision d j) s
    let t := recordMerge e d t
    let t := joinLists n d t
    armAtDp n (placeGates n d (writeDecision d j e).cause t)

end Sys2Proof.Machine
end

