-- ==== Sys2Proof/Machine/Positions.lean ====
section
/-! DEFINITION. The scheduled positions of a letter (R3): the ones not yet taken, when one is due, its action, and the positions one
anchor correction brings to be reached (R27). -/

namespace Sys2Proof.Machine

/-- The actions scheduled for a letter. -/
inductive PosKind where
  | overLength | pe0Jam
  | missing (c : Sup)
  | stationExit | sh | pulse | dp
  | gateClear (g : Gate)
  | arm | fire
  | doneLimit (c : Stream)
  | select | stacking
deriving DecidableEq, Repr

/-! ### The positions not yet taken -/

/-- The over-length and jam positions of the letter being measured (R14, R15). -/
def pe0Positions (s : State) (e : Entry) : List (PosKind × Int) :=
  if s.trk.measuring = some e.number then
    (if s.trk.overTaken then [] else [(PosKind.overLength, ((1201 + s.pfs.profile.minBlock : Nat) : Int))])
      ++ [(PosKind.pe0Jam, ((2401 + s.pfs.profile.minBlock : Nat) : Int))]
  else []

/-- The missing positions at the photocells whose lists hold the letter (R25). -/
def missingPositions (s : State) (e : Entry) : List (PosKind × Int) :=
  (Sup.all.filter fun c => (s.pcm.sups.get c).expected.contains e.number).map fun c =>
    (PosKind.missing c, ((supDist s.pfs.profile e c + s.pfs.profile.slipTol + s.pfs.profile.minBlock + 1 : Nat) : Int))

/-- The distance of a letter's station exit position (R40). -/
def exitOffset (p : Profile) (e : Entry) : Nat :=
  match e.length0 with
  | some l => p.dist .sh + l + 16
  | none => p.dist .sh + 2416

/-- The station exit position (R40). -/
def exitPositions (s : State) (e : Entry) : List (PosKind × Int) :=
  if e.inStation then [(PosKind.stationExit, (exitOffset s.pfs.profile e : Int))] else []

/-- The positions of the letter's delayed pulses (R48), one for each head link whose first waiting pulse is the letter's and none is
outstanding. -/
def delayedPositions (s : State) (e : Entry) : List (PosKind × Int) :=
  s.scu.heads.toList.filterMap fun h => (delayed e.number h).map fun p => (PosKind.pulse, (p.pos - e.anchor).toInt)

/-- The SH position, the delayed pulses and the next scan pulse (R46, R48). -/
def scanPositions (s : State) (e : Entry) : List (PosKind × Int) :=
  (if e.shTaken then [] else [(PosKind.sh, (s.pfs.profile.dist .sh : Int))]) ++ delayedPositions s e ++
    match e.scan, fillingOf s e.number, e.latched with
    | .scanning, some b, some l =>
      if (s.scu.bufs.get b).next < l.n then
        [(PosKind.pulse, ((s.pfs.profile.dist .sh + 8 * (s.scu.bufs.get b).next + 4 : Nat) : Int))]
      else []
    | _, _, _ => []

/-- An entry that a DP decision can be taken on: R77 gives one for an early disposition, a scan in progress and a result. -/
def decidable (e : Entry) : Bool :=
  e.early.isSome ||
    match e.scan with
    | .scanning | .waiting | .computing | .done => true
    | .none | .aborted => false

/-- The DP position (R76). -/
def dpPositions (s : State) (e : Entry) : List (PosKind × Int) :=
  if e.path = none ∧ decidable e then [(PosKind.dp, (s.pfs.profile.dist .dp : Int))] else []

/-- The clear positions of the gates whose user the letter is (R87). -/
def clearPositions (s : State) (e : Entry) : List (PosKind × Int) :=
  Gate.all.filterMap fun g =>
    match (s.ptc.gates.get g).user with
    | some u => if u.letter = e.number then some (PosKind.gateClear g, (u.dist : Int)) else none
    | none => none

/-- The arm point, the fire point and the done limit of a letter with a cancel job (R103). -/
def cancelPositions (s : State) (e : Entry) : List (PosKind × Int) :=
  match e.stream, e.job with
  | some c, some j =>
    (if j.armTaken then [] else [(PosKind.arm, armOffset s e c)])
      ++ (if j.fireTaken then [] else [(PosKind.fire, fireOffset s e c j)])
      ++ (if (s.can.recs.get c).held = some e.number ∧ (s.can.recs.get c).state = .printing then
          [(PosKind.doneLimit c, doneOffset s e c)] else [])
  | _, _ => []

/-- The distance of a letter's select point (R124). -/
def selectOffset (p : Profile) (e : Entry) : Nat :=
  match e.stream with
  | some .a => p.dist .psa + twistOf p e
  | some .b => p.dist .psb + twistOf p e
  | none => p.dist .psr

/-- The station of a pocket or end bin. -/
def pocketStation : Pocket → Station
  | .a1 => .a1
  | .a2 => .a2
  | .a3 => .a3
  | .a4 => .a4
  | .a5 => .a5
  | .a6 => .a6
  | .b1 => .b1
  | .b2 => .b2
  | .b3 => .b3
  | .b4 => .b4
  | .b5 => .b5
  | .b6 => .b6
  | .rm => .rm
  | .rh => .rh
  | .ea => .ea
  | .eb => .eb
  | .er => .er

/-- The distance of a letter's stacking position (R130): the twist extra on the streams, 25 mm past a pocket's gate. -/
def stackOffset (p : Profile) (e : Entry) (q : Pocket) : Nat :=
  let base := p.dist (pocketStation q) + length0Of e
  match q with
  | .rm | .rh => base + 100
  | .er => base
  | .ea | .eb => base + twistOf p e
  | .a1 | .a2 | .a3 | .a4 | .a5 | .a6 | .b1 | .b2 | .b3 | .b4 | .b5 | .b6 => base + twistOf p e + 100

/-- The select point, and the stacking position once the letter is committed (R124, R130). -/
def pocketPositions (s : State) (e : Entry) : List (PosKind × Int) :=
  if e.path = none then []
  else
    match e.pocket with
    | none => [(PosKind.select, (selectOffset s.pfs.profile e : Int))]
    | some q => [(PosKind.stacking, (stackOffset s.pfs.profile e q : Int))]

/-- The scheduled positions of a letter not yet taken, as distances from its anchor (R3). Those that act on letters exist in STARTING,
RUN and DRAIN only; the station exit position stands in every line state (R40). -/
def positions (s : State) (e : Entry) : List (PosKind × Int) :=
  exitPositions s e ++
    if running s then
      pe0Positions s e ++ missingPositions s e ++ scanPositions s e ++ dpPositions s e ++ clearPositions s e
        ++ cancelPositions s e ++ pocketPositions s e
    else []

/-- The positions of a letter that have been reached and not taken. -/
def reachedPositions (s : State) (e : Entry) : List (PosKind × Int) :=
  (positions s e).filter fun p => reached s.trk.belt (at' e.anchor p.2)

/-- An action is due for a letter: its position has been reached and not been taken (R3). -/
def due (s : State) (n : LetterNo) (k : PosKind) : Bool :=
  match s.entry? n with
  | none => false
  | some e => (reachedPositions s e).any fun p => decide (p.1 = k)

/-! ### Actions -/

/-- The over-length check (R14). -/
def overLengthAct (n : LetterNo) (s : State) : State :=
  updEntry n (withEarly .offsize) { s with trk := { s.trk with overTaken := true } }

/-- A letter leaves the scan station (R40). -/
def exitAct (n : LetterNo) (s : State) : State :=
  tryCalibrate (updEntry n (fun e => { e with inStation := false }) s)

/-- A gate's user clears it, and the gate may take its next entry (R87, R88). -/
def clearAct (g : Gate) (s : State) : State :=
  gateTry g (updGate g (fun r => { r with user := none }) s)

/-- The done limit of a canceller's held letter (R110). -/
def doneLimitAct (c : Stream) (s : State) : State :=
  cancFault c .timeout (some .failed) s

/-- The action of a scheduled position. -/
def act (n : LetterNo) (k : PosKind) (s : State) : State :=
  match k with
  | .overLength => overLengthAct n s
  | .pe0Jam => faultStop (.jam .pe0 .blocked) s
  | .missing c => faultStop (.jam (supCell c) .missing) s
  | .stationExit => exitAct n s
  | .sh => shAct n s
  | .pulse => pulseAct n s
  | .dp => dpAct n s
  | .gateClear g => clearAct g s
  | .arm => armAct n s
  | .fire => fireAct n s
  | .doneLimit c => doneLimitAct c s
  | .select => selectAct n s
  | .stacking => stackAct n s

/-- A scheduled position taken, where it is due (R3); a position not due changes nothing (log entry 1). -/
def takeDue (n : LetterNo) (k : PosKind) (s : State) : State :=
  if due s n k then act n k s else s

/-- The first of the given positions with the smallest distance. -/
def earliest : List (PosKind × Int) → Option (PosKind × Int)
  | [] => none
  | p :: ps =>
    match earliest ps with
    | none => some p
    | some q => if q.2 < p.2 then some q else some p

/-- The positions of a letter that have been reached, taken in the order of their positions (R27), at most `fuel` of them. -/
def takeReached (n : LetterNo) : Nat → State → State
  | 0, s => s
  | fuel + 1, s =>
    match s.entry? n with
    | none => s
    | some e =>
      match earliest (reachedPositions s e) with
      | none => s
      | some (k, _) => takeReached n fuel (act n k s)

/-- More actions than one correction can bring to be reached: 150 scan pulses and the other positions of a letter. -/
def correctionFuel : Nat := 200

end Sys2Proof.Machine
end

