-- ==== Sys2Proof/Machine/PhotocellOps.lean ====
section
/-! DEFINITION. The Photocell Monitor (chapter 2): raw changes, qualified edges, arrivals, tails and the double check. -/

namespace Sys2Proof.Machine

/-- A raw level comes to stand at a new level (R21): the pending change is recorded, or dropped where the level returns. PE1 free of a
pending change may leave the scan station free (R40). -/
def rawChange (c : Photocell) (l : Level) (s : State) : State :=
  if (s.pcm.cells.get c).raw = l then s
  else
    let t := updCell c (fun r => { r with
      raw := l
      change := if l = r.qual then none else some { pos := s.trk.belt, time := s.now } }) s
    if c = .pe1 then tryCalibrate t else t

/-! ### Arrivals -/

/-- The merge tail of the previous main-line letter moves with its anchor (R80). -/
def shiftMerge (n : LetterNo) (by' : Pos) (m : Option MergeRec) : Option MergeRec :=
  m.map fun r => if r.letter = n then { r with tail := r.tail + by' } else r

/-- The distance from a letter's arrival at a photocell to its blocked limit (R31). -/
def blockedLimit (p : Profile) (c : Sup) (e : Entry) : Nat :=
  match c with
  | .pe1 => 2400
  | .pe2 | .pe3a | .pe3b | .pe4r => length0Of e + 2 * p.slipTol

/-- A matched arrival dated at `a` (R26, R27): the list, the anchor, the last photocell passed, the passing slot, the scan station
(R40), the merge tail (R80), the pulses not yet sent (R48), and the positions the correction brings to be reached. -/
def matched (c : Sup) (e : Entry) (a : Pos) (s : State) : State :=
  let n := e.number
  let anchor := at' a (-(supDist s.pfs.profile e c : Int))
  let blocked := at' a (blockedLimit s.pfs.profile c e + s.pfs.profile.minBlock + 1 : Nat)
  let t := updSup c (fun r => { expected := r.expected.tail, passing := some { letter := n, arrival := a, blocked := blocked } }) s
  let t := updEntry n (fun e => { e with
    anchor := anchor
    lastPe := supCell c
    inStation := if c = .pe1 then true else e.inStation }) t
  let t := { t with
    ptc := { t.ptc with merge := shiftMerge n (anchor - e.anchor) t.ptc.merge }
    scu := { t.scu with heads := t.scu.heads.map (movePulses n (anchor - e.anchor)) } }
  takeReached n correctionFuel t

/-- An arrival dated at `a` (R26): STRAY, matched, or JAM MISSING. -/
def arrival (c : Sup) (a : Pos) (s : State) : State :=
  match (s.pcm.sups.get c).expected.head?.bind s.entry? with
  | none => faultStop (.stray (supCell c)) s
  | some e =>
    let x := at' e.anchor (supDist s.pfs.profile e c)
    if before a (at' x (-(s.pfs.profile.slipTol : Int))) then faultStop (.stray (supCell c)) s
    else if before (at' x s.pfs.profile.slipTol) a then faultStop (.jam (supCell c) .missing) s
    else matched c e a s

/-! ### Tails -/

/-- The second measurement differs from the first by more than 2 × SLIP_TOL (R31). -/
def isDouble (p : Profile) (e : Entry) (length1 : Int) : Bool :=
  match e.length0 with
  | some l => decide ((2 * p.slipTol : Nat) < (length1 - l).natAbs)
  | none => false

/-- Length1 and the double check at a PE1 tail (R31). -/
def secondLength (n : LetterNo) (length1 : Int) (s : State) : State :=
  updEntry n (fun e =>
    let e := { e with length1 := some length1 }
    if isDouble s.pfs.profile e length1 ∧ e.path = none then withEarly .double e else e) s

/-- A tail dated at `t` (R30, R31). -/
def cellTail (c : Sup) (tail : Pos) (s : State) : State :=
  match (s.pcm.sups.get c).passing with
  | none => s
  | some p =>
    if before (at' p.blocked (-(s.pfs.profile.minBlock + 1 : Nat))) tail then faultStop (.jam (supCell c) .blocked) s
    else
      let t := updSup c (fun r => { r with passing := none }) s
      if c = .pe1 then secondLength p.letter (distance p.arrival tail) t else t

/-! ### Qualified edges -/

/-- A qualified edge handed to its user (R9, R23). -/
def edge (c : Photocell) (l : Level) (pos : Pos) (s : State) : State :=
  match cellSup c, l with
  | none, .blocked =>
    if running s && s.trk.measuring.isNone then induct pos s else s
  | none, .clear =>
    match s.trk.measuring with
    | some n => pe0Tail n pos s
    | none => s
  | some x, .blocked => if running s then arrival x pos s else s
  | some x, .clear => if running s then cellTail x pos s else s

/-- A pending change qualifies (R21, R22): the qualified level takes the raw level, and the edge is dated at the pending position. -/
def qualify (c : Photocell) (ch : Change) (s : State) : State :=
  let l := (s.pcm.cells.get c).raw
  let t := edge c l ch.pos (updCell c (fun r => { r with qual := r.raw, change := none }) s)
  if c = .pe1 then tryCalibrate t else t

end Sys2Proof.Machine
end

