-- ==== Sys2Proof/Machine/LinkText.lean ====
section
/-! DEFINITION. The text of the lines the part sends (R181, R186, R190): names, details, replies, records, capture lines. Where R190
leaves a layout open, the model's choice is log entry 18. -/

namespace Sys2Proof.Machine

/-! ### Names -/

def lineName : LineState → Text
  | .powerup => text "POWERUP"
  | .warmup => text "WARMUP"
  | .standby => text "STANDBY"
  | .starting => text "STARTING"
  | .run => text "RUN"
  | .drain => text "DRAIN"
  | .fault => text "FAULT"

def holdName : HoldCause → Text
  | .table => text "TABLE"
  | .pockets => text "POCKETS"
  | .cancel => text "CANCEL"
  | .records => text "RECORDS"
  | .line => text "LINE"

def faultName : FaultCall → Text
  | .jam _ _ => text "JAM"
  | .stray _ => text "STRAY"
  | .overrunTable => text "OVERRUN"
  | .overrunGate _ => text "OVERRUN"
  | .speed => text "SPEED"
  | .drain => text "DRAIN"
  | .endBinFull _ => text "END_BIN_FULL"
  | .estop => text "ESTOP"

def jamName : Jam → Text
  | .missing => text "MISSING"
  | .blocked => text "BLOCKED"

/-- The detail fields of a fault call (R153). -/
def faultDetail : FaultCall → List Text
  | .jam c k => [cellName c, jamName k]
  | .stray c => [cellName c]
  | .overrunTable => [text "TABLE"]
  | .overrunGate g => [gateName g]
  | .speed => []
  | .drain => []
  | .endBinFull b => [pocketName b]
  | .estop => []

def lineCauseName : LineCause → Text
  | .start => text "START"
  | .runUp => text "RUN_UP"
  | .stop => text "STOP"
  | .linkSilent => text "LINK_SILENT"
  | .head => text "HEAD"
  | .empty => text "EMPTY"
  | .clear => text "CLEAR"
  | .warm => text "WARM"
  | .warmupLimit => text "WARMUP_LIMIT"
  | .loaded => text "LOADED"
  | .fault c => faultName c

def headStateName : HeadState → Text
  | .cold => text "COLD"
  | .warming => text "WARMING"
  | .ready => text "READY"
  | .weak => text "WEAK"
  | .failed => text "FAILED"

def cancStateName : CancState → Text
  | .off => text "OFF"
  | .priming => text "PRIMING"
  | .ready => text "READY"
  | .arming => text "ARMING"
  | .armed => text "ARMED"
  | .printing => text "PRINTING"
  | .overheat => text "OVERHEAT"
  | .fault => text "FAULT"

def cancCauseName : CancCause → Text
  | .primeTimeout => text "PRIME_TIMEOUT"
  | .timeout => text "TIMEOUT"
  | .parity => text "PARITY"
  | .module => text "MODULE"

def pocketStateName : PocketState → Text
  | .open => text "OPEN"
  | .nearFull => text "NEAR_FULL"
  | .full => text "FULL"
  | .sweepPending => text "SWEEP_PENDING"
  | .sweep => text "SWEEP"
  | .disabled => text "DISABLED"

/-- The pocket state codes (R190). -/
def pocketStateCode : PocketState → Text
  | .open => text "O"
  | .nearFull => text "N"
  | .full => text "F"
  | .sweepPending => text "P"
  | .sweep => text "S"
  | .disabled => text "D"

def paddleName : Paddle → Text
  | .active => text "ACTIVE"
  | .clear => text "CLEAR"

def outcomeName : CancelOutcome → Text
  | .pending => text "PENDING"
  | .done => text "DONE"
  | .skippedBusy => text "SKIPPED_BUSY"
  | .skippedUnavailable => text "SKIPPED_UNAVAILABLE"
  | .skippedParity => text "SKIPPED_PARITY"
  | .failed => text "FAILED"

def pathName : Path → Text
  | .straight => text "STRAIGHT"
  | .twist => text "TWIST"
  | .reject => text "REJECT"

def settingName : Setting → Text
  | .straight => text "STRAIGHT"
  | .twist => text "TWIST"
  | .reject => text "REJECT"
  | .machine => text "MACHINE"
  | .manual => text "MANUAL"
  | .a => text "A"
  | .b => text "B"
  | .divert => text "DIVERT"
  | .pass => text "PASS"

def channelName : Channel → Text
  | .gp => text "GP"
  | .ga => text "GA"
  | .rp => text "RP"

/-- The codes of the blocked classes (R190). -/
def blockCode : BlockClass → Text
  | .on .a .cancelled => text "AC"
  | .on .a .metered => text "AM"
  | .on .a .uncancelled => text "AU"
  | .on .a .overflow => text "AO"
  | .on .b .cancelled => text "BC"
  | .on .b .metered => text "BM"
  | .on .b .uncancelled => text "BU"
  | .on .b .overflow => text "BO"
  | .machine => text "MC"
  | .manual => text "MN"

def denyName : Deny → Text
  | .check => text "CHECK"
  | .length => text "LENGTH"
  | .unknown => text "UNKNOWN"
  | .busy => text "BUSY"
  | .wrongState => text "WRONG_STATE"
  | .range => text "RANGE"
  | .name => text "NAME"
  | .estop => text "ESTOP"
  | .geometry => text "GEOMETRY"
  | .daterUnset => text "DATER_UNSET"
  | .heads => text "HEADS"
  | .repeatedFault => text "REPEATED_FAULT"
  | .endBinFull => text "END_BIN_FULL"
  | .photocell => text "PHOTOCELL"
  | .committed => text "COMMITTED"
  | .notFitted => text "NOT_FITTED"

def linkErrorFields : LinkError → List Text
  | .check => [text "CHECK"]
  | .length => [text "LENGTH"]
  | .unknown f => [text "UNKNOWN", if f.isEmpty then absent else f]
  | .gap => [text "GAP"]
  | .overflow => [text "OVERFLOW"]

def imageFaultName : ImageFault → Text
  | .format => text "FORMAT"
  | .crc => text "CRC"

def resetCauseName : ResetCause → Text
  | .power => text "POWER"
  | .restart => text "RESTART"

/-! ### Event reports -/

/-- The detail fields of an event report (R186), an absent one written `-` (R190). -/
def detailFields : Detail → List Text
  | .line st c snapshot => [lineName st, lineCauseName c, field hex8 snapshot]
  | .fault c => faultName c :: (if faultDetail c = [] then [absent] else faultDetail c)
  | .held causes => [text "HELD", listField (causes.map holdName)]
  | .released => [text "RELEASED"]
  | .head h st => [headName h, headStateName st]
  | .canceller c st cause => [streamName c, cancStateName st, field cancCauseName cause]
  | .parity c n => [streamName c, dec n.toNat]
  | .pocket q st => [pocketName q, pocketStateName st]
  | .bin q l => [pocketName q, paddleName l]
  | .lost n c => [dec n.toNat, hex8 c]
  | .linkError e => linkErrorFields e
  | .silent l => [lineName l]
  | .defaulted f => [imageFaultName f]
  | .reset c => [resetCauseName c]
  | .captured n c => [dec n.toNat, className c]

/-! ### Letter records and capture lines -/

/-- A flag character: its letter when set, `-` when clear (R190). -/
def flagChar (b : Bool) (c : Text) : Text :=
  if b then c else absent

/-- The flags of a cancel job, truncated and reduced (R190). -/
def marksField (m : Bool × Bool) : Text :=
  flagChar m.1 (text "T") ++ flagChar m.2 (text "R")

/-- The fifteen fields of a letter record (R190). -/
def recordFields (r : LetterRecord) : List Text :=
  [dec r.number.toNat, field dec r.length, (match r.cls with | some c => className c | none => text "NOT_SCANNED"),
    field orientName r.orient, field dec r.strength, field dec r.cell, field dec r.q,
    flagChar r.degraded (text "D") ++ flagChar r.saturated (text "S") ++ flagChar r.late (text "L"),
    field pathName r.path, field streamName r.stream, field outcomeName r.outcome,
    field marksField r.marks,
    (match r.disposition with | .stacked q => pocketName q | .cleared => text "CLEARED"),
    field pocketName r.committed, field causeName r.cause]

/-- The fields of a capture line (R190). -/
def captureFields (c : CaptureLine) : List Text :=
  [dec c.letter.toNat, headName c.key.head, channelName c.key.channel, dec c.key.first] ++ c.values.map dec

/-! ### Lines sent -/

/-- The fields of a line as sent (R181, R190). -/
def txFields : TxLine → List Text
  | .reply (.ok v results) => [text "=", v] ++ results
  | .reply (.deny v c detail) => [text "!", v, denyName c] ++ (match detail with | some d => [d] | none => [])
  | .report k d => [text "#EV", kindName k] ++ (match d with | some x => detailFields x | none => [])
  | .record r => text "#LR" :: recordFields r
  | .capture c => text "#CP" :: captureFields c

/-- The characters of a line as sent: its fields, check suffix, CR and LF (R179, R190). -/
def txBytes (l : TxLine) : List Byte :=
  lineBytes (txFields l)

/-! ### The reading replies -/

/-- STATUS LINE (R190). A tower line that is off is written `-`, and a fault detail of two parts as one field joined by a comma (log entry
18). -/
def statusLine (s : State) : List Text :=
  [lineName s.flc.line, onOff (driveEnable s), onOff (feedEnable s), listField (s.flc.holds.present.map holdName),
    field (fun p => dec2 ((distance s.trk.belt p).toNat / 40)) s.flc.countdown,
    field (fun f => faultName f.call) s.flc.fault,
    field (fun f => listField (faultDetail f.call)) s.flc.fault,
    field (fun f => hex8 f.pos) s.flc.fault,
    field (fun f => lineName f.left) s.flc.fault,
    dec s.flc.faultCount, dec s.flc.cleanRun, if s.flc.estop then text "ASSERTED" else text "RELEASED",
    flagChar (towerOn s .green) (text "G") ++ flagChar (towerOn s .amber) (text "A") ++ flagChar (towerOn s .red) (text "R")
      ++ flagChar (towerOn s .horn) (text "H")]

/-- STATUS TRACK (R190). -/
def statusTrack (s : State) : List Text :=
  [hex8 s.trk.belt, dec2 s.trk.speed, dec s.trk.table.length, dec s.trk.nextNumber.toNat,
    (Photocell.all.map fun c => if (s.pcm.cells.get c).qual = .blocked then text "B" else text "C").flatten]

/-- STATUS HEADS (R190). -/
def statusHeads (s : State) : List Text :=
  Head.all.flatMap fun h =>
    let r := s.scu.heads.get h
    [headStateName r.state, dec r.run, dec r.code, dec r.refCode, dec r.lref]

/-- STATUS CANCEL (R190). -/
def statusCancel (s : State) : List Text :=
  Stream.all.flatMap fun c =>
    let r := s.can.recs.get c
    [cancStateName r.state, field cancCauseName r.cause, bandName r.band, moduleStateName r.module,
      field (fun (v : BitVec 8) => dec v.toNat) r.faultCode, dec r.parityRun]

/-- STATUS GATES (R190). -/
def statusGates (s : State) : List Text :=
  Gate.all.map fun g =>
    let r := s.ptc.gates.get g
    settingName r.setting ++ [chStop] ++ if r.settle.isNone then text "I" else text "S"

/-- POCKETS and STATUS POCKETS (R182, R190). The state code and the committed count of a pocket are one field, with nothing between them (log
entry 18). -/
def pocketsFields (s : State) : List Text :=
  (Pocket.all.map fun q =>
    let r := s.pkc.recs.get q
    (if isBin q then (if r.sensor = .active then text "A" else text "C")
      else if s.pfs.profile.fitted q then pocketStateCode r.state else text "X") ++ dec r.committed)
    ++ [listField (s.pkc.blocked.map blockCode)]

/-- The class of a pocket in POCKETS id (R121, R122). -/
def pocketClassField (p : Profile) (q : Pocket) : Text :=
  match stackOf q, q with
  | some x, _ => pocketClassName (p.stack.get x).cls
  | none, .rm => text "MACHINE"
  | none, .rh => text "MANUAL"
  | none, _ => absent

/-- POCKETS id (R182, R190): the state and the sensor by name, and the record's state where the pocket is not fitted (log entry 18). -/
def pocketFields (s : State) (q : Pocket) : List Text :=
  let r := s.pkc.recs.get q
  let p := s.pfs.profile
  if isBin q then [pocketName q, dec r.count, dec r.committed, paddleName r.sensor]
  else [pocketName q, yesNo (p.fitted q), pocketClassField p q, dec (p.capacity q), dec (p.nearFull q), dec r.count,
    dec r.committed, pocketStateName r.state, paddleName r.sensor]

/-- A section of STATUS; LINE when none is named (R182). -/
def statusFields (s : State) : Section → List Text
  | .line => statusLine s
  | .track => statusTrack s
  | .heads => statusHeads s
  | .cancel => statusCancel s
  | .gates => statusGates s
  | .pockets => pocketsFields s

/-- The head distance of an entry in whole millimetres (R16): at the fault position where it is stranded. -/
def headDistance (s : State) (e : Entry) : Nat :=
  let p := if e.stranded then (s.flc.fault.map (·.pos)).getD s.trk.belt else s.trk.belt
  (distance e.anchor p).toNat / 4

/-- The fields of an entry in the reply to TABLE (R182, R190). -/
def entryFields (s : State) (e : Entry) : List Text :=
  [dec e.number.toNat, field pathName e.path, cellName e.lastPe, flagChar e.stranded (text "S"), dec (headDistance s e)]

/-- What the reply to TABLE shows besides: the outcome, the truncated flag and the density of the cancel job (R119), the pocket committed and
NO_POCKET (R140), in the forms of places 11, 12, 14 and 15 of a letter record (R190). -/
def disposalFields (e : Entry) : List Text :=
  [field (fun j => outcomeName j.outcome) e.job,
    field (fun j => marksField (j.truncated, decide (j.density = some .reduced))) e.job,
    field pocketName e.pocket, if e.cause = some .noPocket then causeName .noPocket else absent]

/-- TABLE i (R119, R140, R182, R190): the fields of R190 for each entry shown, each in its place, and after them the fields of R119 and R140
for the same entries in the same order (log entry 40). -/
def tableFields (s : State) (i : Nat) : List Text :=
  let shown := (s.trk.table.drop i).take 5
  [dec s.trk.table.length, dec i] ++ shown.flatMap (entryFields s) ++ shown.flatMap disposalFields

/-- One stream's counters of page 3, in the order of R162. -/
def cancelPage (p : CancelPage) : List Counter :=
  [p.done, p.busy, p.unavailable, p.parity, p.failed, p.truncated, p.reduced, p.parityErrors]

/-- The entries of a page of the snapshot, in the order of R162. IN_TABLE and UTILISATION are no counters, and are decimal. -/
def pageFields (n : Snapshot) (page : Nat) : List Text :=
  let b := n.bank
  match page with
  | 0 => [b.flow.inducted, b.flow.scanned, b.flow.unscanned, b.flow.stacked, b.flow.rejected, b.flow.cleared, b.flow.late].map hex8
      ++ [dec n.inTable]
  | 1 => (b.marks.classes.toList ++ [b.marks.degraded, b.marks.saturated] ++ b.marks.orients.toList).map hex8
  | 2 => b.rejects.toList.map hex8
  | 3 => (cancelPage b.cancel.a ++ cancelPage b.cancel.b).map hex8
  | 4 => b.pockets.toList.map hex8
  | 5 => b.lengths.toList.map hex8
  | 6 => [b.line.faultStops, b.line.holdCrossings, b.line.beltRunMm, b.line.lengthSumMm, b.line.recordsLost].map hex8
      ++ [dec n.utilisation]
  | _ => []

/-- COUNT p (R171, R190). -/
def countFields (s : State) (page : Nat) : List Text :=
  [dec page, hex8 s.cnb.snap.number, hex8 s.cnb.snap.pos] ++ pageFields s.cnb.snap page

/-- The dater record in a reply, with the office code as the request writes it (R118, R190). -/
def daterFields (d : Dater) : List Text :=
  [d.office, dec d.day, dec d.month, dec d.year, dec d.hour, dec d.machine, dec d.bars]

/-- The state of the capture slot in a reply (R71). -/
def captureName : Capture → Text
  | .off => text "OFF"
  | .armed _ => text "ARMED"
  | .draining _ => text "DRAINING"

end Sys2Proof.Machine
end

