-- ==== Sys2Proof/Machine/LinkParse.lean ====
section
/-! DEFINITION. Reading request lines (sections 10.1 to 10.3): the check, the fields, the verbs and their arguments. -/

namespace Sys2Proof.Machine

/-- The verbs of section 10.3. -/
inductive Verb where
  | ping | status | start | stop | clear | hold | release | set | get | save | load | dater | pocket | pockets | snap | count
  | zero | mask | ack | flags | headretry | canceller | capture | table | restart
deriving DecidableEq, Repr

def Verb.all : List Verb :=
  [.ping, .status, .start, .stop, .clear, .hold, .release, .set, .get, .save, .load, .dater, .pocket, .pockets, .snap, .count,
    .zero, .mask, .ack, .flags, .headretry, .canceller, .capture, .table, .restart]

def verbName : Verb → Text
  | .ping => text "PING"
  | .status => text "STATUS"
  | .start => text "START"
  | .stop => text "STOP"
  | .clear => text "CLEAR"
  | .hold => text "HOLD"
  | .release => text "RELEASE"
  | .set => text "SET"
  | .get => text "GET"
  | .save => text "SAVE"
  | .load => text "LOAD"
  | .dater => text "DATER"
  | .pocket => text "POCKET"
  | .pockets => text "POCKETS"
  | .snap => text "SNAP"
  | .count => text "COUNT"
  | .zero => text "ZERO"
  | .mask => text "MASK"
  | .ack => text "ACK"
  | .flags => text "FLAGS"
  | .headretry => text "HEADRETRY"
  | .canceller => text "CANCELLER"
  | .capture => text "CAPTURE"
  | .table => text "TABLE"
  | .restart => text "RESTART"

/-- The verb of a request, as its reply writes it (R181). -/
def requestVerb : Request → Text
  | .ping => verbName .ping
  | .status _ => verbName .status
  | .start => verbName .start
  | .stop => verbName .stop
  | .clear _ => verbName .clear
  | .hold _ => verbName .hold
  | .release => verbName .release
  | .set _ _ => verbName .set
  | .get _ => verbName .get
  | .save => verbName .save
  | .load => verbName .load
  | .dater _ => verbName .dater
  | .pocket _ _ => verbName .pocket
  | .pockets _ => verbName .pockets
  | .snap => verbName .snap
  | .count _ => verbName .count
  | .zero => verbName .zero
  | .mask _ => verbName .mask
  | .ack _ => verbName .ack
  | .flags => verbName .flags
  | .headRetry _ => verbName .headretry
  | .cancellerClear _ => verbName .canceller
  | .capture _ => verbName .capture
  | .captureOff => verbName .capture
  | .table _ => verbName .table
  | .restart => verbName .restart
  | .malformed v => v

/-! ### Arguments -/

/-- A list of kinds: names joined by commas (R188), `-` for the empty list (R190). -/
def readKinds (t : Text) : Option (List Kind) :=
  if t = absent then some [] else (splitAt chComma t).mapM fun f => named? Kind.all kindName f

/-- An optional argument: absent where it is missing or written `-` (R190, log entry 17). -/
def optional {α : Type} (read : Text → Option α) : List Text → Option (Option α)
  | [] => some none
  | [x] => if x = absent then some none else (read x).map some
  | _ => none

/-- The seven fields of DATER (R118). -/
def readDater : List Text → Option Dater
  | [office, d, m, y, h, mach, bars] => do
    let d ← readNat d
    let m ← readNat m
    let y ← readNat y
    let h ← readNat h
    let mach ← readNat mach
    let bars ← readNat bars
    pure { office := office, day := d, month := m, year := y, hour := h, machine := mach, bars := bars }
  | _ => none

/-- An action of POCKET (R136). -/
def readAction (t : Text) : Option PocketAction :=
  named? [PocketAction.sweep, .done, .disable, .enable]
    (fun a => match a with
      | .sweep => text "SWEEP"
      | .done => text "DONE"
      | .disable => text "DISABLE"
      | .enable => text "ENABLE") t

/-- The request a verb and its arguments make; none where an argument is missing, surplus or malformed (R181). -/
def readArgs (v : Verb) (args : List Text) : Option Request :=
  match v, args with
  | .ping, [] => some .ping
  | .status, xs => (optional (named? [Section.line, .track, .heads, .cancel, .gates, .pockets] sectionName) xs).map .status
  | .start, [] => some .start
  | .stop, [] => some .stop
  | .clear, xs => (optional (fun x => if x = text "OVERRIDE" then some () else none) xs).map fun o => .clear o.isSome
  | .hold, xs => (optional (readUnits 100) xs).map .hold
  | .release, [] => some .release
  | .set, [x, y] => if x.isEmpty || y.isEmpty then none else some (.set x y)
  | .get, [x] => if x.isEmpty then none else some (.get x)
  | .save, [] => some .save
  | .load, [] => some .load
  | .dater, xs => (readDater xs).map .dater
  | .pocket, [x, y] => do
    let p ← named? Pocket.all pocketName x
    let a ← readAction y
    pure (.pocket p a)
  | .pockets, xs => (optional (named? Pocket.all pocketName) xs).map .pockets
  | .snap, [] => some .snap
  | .count, [x] => (readNat x).map .count
  | .zero, [] => some .zero
  | .mask, [x] =>
    if x = text "ALL" then some (.mask Kind.all)
    else if x = text "NONE" then some (.mask [])
    else (readKinds x).map .mask
  | .ack, [x] => if x = text "ALL" then some (.ack Kind.all) else (readKinds x).map .ack
  | .flags, [] => some .flags
  | .headretry, [x] => (named? Head.all headName x).map .headRetry
  | .canceller, [x, y] => if y = text "CLEAR" then (named? Stream.all streamName x).map .cancellerClear else none
  | .capture, xs =>
    if xs = [text "OFF"] then some .captureOff else (optional (named? MarkClass.all className) xs).map .capture
  | .table, xs => (optional readNat xs).map .table
  | .restart, [] => some .restart
  | _, _ => none

/-! ### Lines -/

/-- What a complete line comes to (R179). -/
inductive Classified where
  | long
  | badCheck
  | unknown (field : Text)
  | request (r : Request)
deriving DecidableEq, Repr

/-- The value of two hexadecimal digits. -/
def hexPair (a b : Byte) : Option Nat := do
  let x ← hexDigit? a
  let y ← hexDigit? b
  pure (x * 16 + y)

/-- The characters before the check suffix, where the line ends in a star and two hexadecimal digits whose value is the CRC-8 of those
characters (R179). -/
def checkedBody (line : Text) : Option Text :=
  match line.reverse with
  | b :: a :: star :: rest =>
    let body := rest.reverse
    if star = chStar ∧ hexPair a b = some (crc8 body).toNat then some body else none
  | _ => none

/-- A complete line classified by the first test that applies (R179). -/
def classify (rx : Rx) : Classified :=
  if rx.overlong then .long
  else if rx.bad || !rx.crLast then .badCheck
  else
    match checkedBody rx.buf with
    | none => .badCheck
    | some body =>
      match splitAt chSpace body with
      | [] => .unknown []
      | f :: args =>
        match named? Verb.all verbName f with
        | none => .unknown f
        | some v => .request ((readArgs v args).getD (.malformed f))

end Sys2Proof.Machine
end

