-- ==== Sys2Proof/Machine/Requests.lean ====
section
/-! DEFINITION. The effect and the reply of each request, in the one event it is taken (R180 to R184 and the owning rules). -/

namespace Sys2Proof.Machine

/-- An accepted reply. -/
def accept (v : Verb) (results : List Text) : Item :=
  .answered (.ok (verbName v) results)

/-- A refused reply with no detail field. -/
def deny (v : Verb) (c : Deny) : Item :=
  .answered (.deny (verbName v) c none)

/-- A refused reply with its detail field. -/
def denyWith (v : Verb) (c : Deny) (detail : Text) : Item :=
  .answered (.deny (verbName v) c (some detail))

/-! ### START, STOP, CLEAR, HOLD, RELEASE -/

/-- A gate on entry to STARTING (R91). -/
def startGate (g : GateRec) : GateRec :=
  { g with settle := none, user := none, queue := [] }

/-- The entry to STARTING (R9, R80, R91, R99, R144, R145). -/
def enterStarting (s : State) : State :=
  let t := { s with
    trk := { s.trk with prevTail := none }
    ptc := { s.ptc with merge := none, gates := s.ptc.gates.map startGate }
    flc := { s.flc with runUp := some s.now, runUpQual := none } }
  cancStarting .b (cancStarting .a (setLine .starting .start none t))

/-- The first head not READY, in the order of R144. -/
def firstUnready (s : State) : Option Head :=
  Head.all.find? fun h => decide ((s.scu.heads.get h).state ≠ .ready)

/-- The first end bin whose sensor is ACTIVE, in the order of R144. -/
def firstFullBin (s : State) : Option Pocket :=
  [Pocket.ea, .eb, .er].find? fun b => decide ((s.pkc.recs.get b).sensor = .active)

/-- The conditions of R144 in their order; none where START is accepted. -/
def startRefusal (s : State) : Option Item :=
  if s.flc.line ≠ .standby then some (deny .start .wrongState)
  else if s.flc.estop then some (deny .start .estop)
  else
    match s.pfs.profile.failing with
    | some c => some (denyWith .start .geometry (checkName c))
    | none =>
      if s.can.dater = none then some (deny .start .daterUnset)
      else
        match (if s.pfs.profile.degradePolicy = .drain then firstUnready s else none) with
        | some h => some (denyWith .start .heads (headName h))
        | none =>
          if s.pfs.profile.faultLimit ≤ s.flc.faultCount then some (deny .start .repeatedFault)
          else
            match firstFullBin s with
            | some b => some (denyWith .start .endBinFull (pocketName b))
            | none => none

/-- START (R144). -/
def doStart (s : State) : State × Item :=
  match startRefusal s with
  | some i => (s, i)
  | none => (enterStarting s, accept .start [])

/-- STOP (R146). -/
def doStop (s : State) : State × Item :=
  match s.flc.line with
  | .starting | .run => (enterDrain .stop s, accept .stop [])
  | .drain => (s, accept .stop [])
  | .powerup | .warmup | .standby | .fault => (s, deny .stop .wrongState)

/-- Fault count and clean-run count set to 0 (R156). -/
def resetFaultCount (s : State) : State :=
  { s with flc := { s.flc with faultCount := 0, cleanRun := 0 } }

/-- The first photocell not qualified CLEAR, in the photocell order (R156). -/
def firstBlockedCell (s : State) : Option Photocell :=
  Photocell.all.find? fun c => decide ((s.pcm.cells.get c).qual = .blocked)

/-- CLEAR (R156, R157). Its reply gives the line state (log entry 18). -/
def doClear (override : Bool) (s : State) : State × Item :=
  if s.flc.line = .standby ∧ override = true then (resetFaultCount s, accept .clear [lineName .standby])
  else if s.flc.line ≠ .fault then (s, deny .clear .wrongState)
  else if s.flc.estop then (s, deny .clear .estop)
  else
    match firstBlockedCell s with
    | some c => (s, denyWith .clear .photocell (cellName c))
    | none =>
      let t := lineClearing s
      ((if override then resetFaultCount t else t), accept .clear [lineName .standby])

/-- A HOLD distance in hundredths of a metre, clamped to 0 to 1000 m (R151). -/
def clampHold (d : Int) : Nat :=
  min 100000 d.toNat

/-- HOLD (R151). A hundredth of a metre is 40 counts. -/
def doHold (distance : Option Int) (s : State) : State × Item :=
  match distance with
  | none => (setHold .line true { s with flc := { s.flc with countdown := none } }, accept .hold [absent])
  | some d =>
    let used := clampHold d
    let countdown := if used = 0 then none else some (at' s.trk.belt (used * 40 : Nat))
    (setHold .line true { s with flc := { s.flc with countdown := countdown } },
      accept .hold (dec2 used :: if (used : Int) = d then [] else [text "CLAMPED"]))

/-- RELEASE (R151). -/
def doRelease (s : State) : State × Item :=
  (setHold .line false { s with flc := { s.flc with countdown := none } }, accept .release [])

/-! ### SET, GET, SAVE, LOAD -/

/-- The pocket a SET of a capacity or near-full mark bears on (R140). -/
def paramPocket : Param → Option Pocket
  | .cap q => some (stackPocket q)
  | .near q => some (stackPocket q)
  | .rmCap | .rmNear => some .rm
  | .rhCap | .rhNear => some .rh
  | _ => none

/-- A SET of a pocket's class or capacity with letters committed to it (R140). -/
def committedTo (s : State) (p : Param) : Bool :=
  match p with
  | .cls q => decide ((s.pkc.recs.get (stackPocket q)).committed ≠ 0)
  | .cap q => decide ((s.pkc.recs.get (stackPocket q)).committed ≠ 0)
  | .rmCap => decide (s.pkc.recs.rm.committed ≠ 0)
  | .rhCap => decide (s.pkc.recs.rh.committed ≠ 0)
  | _ => false

/-- The repeat timers stopped without a report, at an EVENT_REPEAT of 0 (R187). -/
def stopRepeats (s : State) : State :=
  if s.pfs.profile.eventRepeat = 0 then
    { s with llk := { s.llk with flags := s.llk.flags.map fun f => { f with repeating := none } } }
  else s

/-- What the blocks do at once after a SET (R85, R117, R138, R140, R176, R187). A pocket set not fitted leaves its gate at PASS (R85, log entry
42). A capacity or near-full mark takes the pocket's state by count and sensor at every accepted SET, one that gives the value held among
them: R123 and R140 speak of a change, and R191 has such a SET accepted and answered in the same way, so this is the model's choice
(log entry 51). -/
def afterSet (p : Param) (s : State) : State :=
  match p with
  | .fit _ => judgeBlocked (passUnfitted s)
  | .cls _ => judgeBlocked s
  | .cap _ | .near _ | .rmCap | .rmNear | .rhCap | .rhNear =>
    judgeBlocked (match paramPocket p with | some q => follow q s | none => s)
  | .cancelPolicy => refreshCancel s
  | .reportHold => refreshRecords s
  | .eventRepeat => stopRepeats s
  | _ => s

/-- The conditions of R183 and R192 on a SET of a known parameter, in their order: a refusal, or the value and whether it
was clamped. -/
def setCheck (p : Param) (value : Text) (s : State) : Deny ⊕ (Value × Bool) :=
  if restricted p ∧ ¬ (s.flc.line = .warmup ∨ s.flc.line = .standby) then .inl .wrongState
  else
    match readValue p value with
    | .range => .inl .range
    | .store v clamped =>
      match p with
      | .fit _ =>
        if v = .choice 1 ∧ s.pfs.profile.geometrySet = false then .inl .wrongState else .inr (v, clamped)
      | _ => if committedTo s p then .inl .committed else .inr (v, clamped)

/-- SET (R183). In POWERUP R191 refuses every SET, and R183, R159 and R176 do not: which holds is a free value (log entry 39). -/
def doSet (name value : Text) (s : State) : State × Item :=
  if s.flc.line = .powerup ∧ Config.setInPowerup name = false then (s, deny .set .wrongState)
  else
    match readParam name with
    | none => (s, deny .set .name)
    | some p =>
      match setCheck p value s with
      | .inl c => (s, deny .set c)
      | .inr (v, clamped) =>
        let t := afterSet p { s with pfs := { s.pfs with profile := s.pfs.profile.write v p } }
        (t, accept .set ([name, valueText (paramForm p) (t.pfs.profile.read p)] ++ if clamped then [text "CLAMPED"] else []))

/-- GET (R183). In POWERUP R191 refuses every GET, and R183 accepts it in every line state: which holds is a free value (log entry 39). -/
def doGet (name : Text) (s : State) : State × Item :=
  if s.flc.line = .powerup ∧ Config.getInPowerup name = false then (s, deny .get .wrongState)
  else
    match readParam name with
    | none => (s, deny .get .name)
    | some p => (s, accept .get [name, valueText (paramForm p) (s.pfs.profile.read p)])

/-- A CRC-16 that does not match the image (R196): the free value `v`, or, where that would match, its complement. -/
def wrongCrc (v : BitVec 16) (i : Image) : BitVec 16 :=
  if v = Config.imageCrc i.format i.contents then ~~~v else v

/-- SAVE taken (R196): the content fixed, the stored image failing its check, the write begun. -/
def doSave (s : State) : State × Item :=
  if s.flc.line = .warmup ∨ s.flc.line = .standby then
    ({ s with pfs := { s.pfs with
        saving := some s.pfs.profile
        image := { s.pfs.image with crc := wrongCrc (Config.tornCrc s.fresh) s.pfs.image } } }, .inProgress)
  else (s, deny .save .wrongState)

/-- The working profile taken from the stored image, or the factory defaults with PROFILE_DEFAULTED set (R195, R197). -/
def loadProfile (s : State) : State :=
  match imageFault s.pfs.image with
  | none => { s with pfs := { s.pfs with profile := s.pfs.image.contents } }
  | some f => setFlag .profileDefaulted (.defaulted f) { s with pfs := { s.pfs with profile := Profile.factory } }

/-- LOAD (R197): the profile replaced, and its effects on the blocks. The gates of the pockets it leaves not fitted stand at PASS (R85, log
entry 42). The pockets follow one after another in the order of R121, and the blocked set is judged once, on their new states (log entry
19). -/
def doLoad (s : State) : State × Item :=
  if s.flc.line = .standby then
    let t := judgeBlocked
      (Pocket.all.foldl (fun t q => restate q (followed t.pfs.profile q (t.pkc.recs.get q)) t) (passUnfitted (loadProfile s)))
    (stopRepeats (refreshCancel (refreshRecords t)),
      accept .load [if (imageFault s.pfs.image).isNone then text "LOADED" else text "DEFAULTED"])
  else (s, deny .load .wrongState)

/-! ### DATER, POCKET -/

/-- The days of a month (R118). -/
def monthDays (month year : Nat) : Nat :=
  match month with
  | 1 | 3 | 5 | 7 | 8 | 10 | 12 => 31
  | 4 | 6 | 9 | 11 => 30
  | 2 => if year % 4 = 0 then 29 else 28
  | _ => 0

/-- A character of an office code, a space written as a full stop (R118). -/
def officeChar (c : Byte) : Bool :=
  (0x41 ≤ c.toNat && c.toNat ≤ 0x5A) || (0x30 ≤ c.toNat && c.toNat ≤ 0x39) || c == chStop

/-- Every field of a dater record is within its range (R118). -/
def daterGood (d : Dater) : Bool :=
  (1 ≤ d.office.length && d.office.length ≤ 6) && d.office.all officeChar
    && (1 ≤ d.day && d.day ≤ monthDays d.month d.year)
    && (2000 ≤ d.year && d.year ≤ 2099) && d.hour ≤ 23 && (1 ≤ d.machine && d.machine ≤ 99) && d.bars ≤ 7

/-- DATER (R118). -/
def doDater (d : Dater) (s : State) : State × Item :=
  if daterGood d then ({ s with can := { s.can with dater := some d } }, accept .dater (daterFields d))
  else (s, deny .dater .range)

/-- The reply to an accepted POCKET request: the pocket's state after it, `-` for an end bin (R136, log entry 18). -/
def pocketReply (q : Pocket) (s : State) : Item :=
  accept .pocket [if isBin q then absent else pocketStateName (s.pkc.recs.get q).state]

/-- POCKET id action of a stream or reject pocket that is fitted (R133 to R136). -/
def doPocketAction (q : Pocket) (a : PocketAction) (s : State) : State × Item :=
  let r := s.pkc.recs.get q
  match a with
  | .sweep =>
    match sweepRequest q s with
    | some t => (t, pocketReply q t)
    | none => (s, deny .pocket .wrongState)
  | .done =>
    if r.state = .sweep then (sweepComplete q s, pocketReply q (sweepComplete q s)) else (s, deny .pocket .wrongState)
  | .disable =>
    if r.state = .disabled then (s, deny .pocket .wrongState)
    else if r.committed = 0 then (setPocketState q .disabled s, pocketReply q (setPocketState q .disabled s))
    else (s, deny .pocket .committed)
  | .enable =>
    if r.state = .disabled then (retake q s, pocketReply q (retake q s)) else (s, deny .pocket .wrongState)

/-- POCKET id action (R136). -/
def doPocket (q : Pocket) (a : PocketAction) (s : State) : State × Item :=
  if isBin q then
    match a with
    | .done => (updPocket q (fun r => { r with count := 0 }) s, pocketReply q s)
    | .sweep | .disable | .enable => (s, deny .pocket .wrongState)
  else if s.pfs.profile.fitted q then doPocketAction q a s
  else (s, deny .pocket .notFitted)

/-! ### SNAP, COUNT, ZERO, and the reading verbs -/

/-- SNAP (R170). -/
def doSnap (s : State) : State × Item :=
  let t := takeSnapshot s
  (t, accept .snap [hex8 t.cnb.snap.number, hex8 t.cnb.snap.pos])

/-- COUNT p (R171). -/
def doCount (page : Nat) (s : State) : State × Item :=
  if page ≤ 6 then (s, accept .count (countFields s page)) else (s, deny .count .range)

/-- ZERO (R172). -/
def doZero (s : State) : State × Item :=
  if s.trk.table = [] ∧ (s.flc.line = .warmup ∨ s.flc.line = .standby) then
    ({ s with cnb := { s.cnb with bank := zeroBank, remainder := 0, snap := zeroSnapshot } }, accept .zero [])
  else (s, deny .zero .wrongState)

/-- TABLE i (R182). -/
def doTable (first : Option Nat) (s : State) : State × Item :=
  let i := first.getD 0
  if i ≤ 63 then (s, accept .table (tableFields s i)) else (s, deny .table .range)

/-! ### MASK, ACK, FLAGS -/

/-- Four hexadecimal digits of flag bits (R190). -/
def flagHex (n : Nat) : Text :=
  hexDigits 4 n

/-- ACK of one kind (R188). The repeat timer of a flag already clear is stopped too (log entry 44). -/
def ackKind (k : Kind) (s : State) : State :=
  { s with llk := { s.llk with
      flags := s.llk.flags.upd k fun f => { f with set := false, repeating := none }
      reports := s.llk.reports.filter fun r => decide (r ≠ k) } }

/-- ACK (R188). -/
def doAck (kinds : List Kind) (s : State) : State × Item :=
  let t := kinds.foldl (fun t k => ackKind k t) s
  (t, accept .ack [flagHex (flagBits t (·.set))])

/-- One kind under a new mask (R188): newly masked, its report is withdrawn and its repeat timer stopped; newly unmasked with its flag
set, a report is queued. -/
def maskKind (mask : List Kind) (s : State) (k : Kind) : State :=
  let f := s.llk.flags.get k
  let on := mask.contains k
  if f.masked = on then s
  else if on then
    { s with llk := { s.llk with
        flags := s.llk.flags.upd k fun f => { f with masked := true, repeating := none }
        reports := s.llk.reports.filter fun r => decide (r ≠ k) } }
  else
    { s with llk := { s.llk with
        flags := s.llk.flags.upd k fun f => { f with masked := false }
        reports := if f.set && !s.llk.reports.contains k then s.llk.reports ++ [k] else s.llk.reports } }

/-- MASK (R188). -/
def doMask (kinds : List Kind) (s : State) : State × Item :=
  let t := Kind.all.foldl (maskKind kinds) s
  (t, accept .mask [flagHex (flagBits t (·.masked))])

/-! ### HEADRETRY, CANCELLER, CAPTURE, RESTART -/

/-- HEADRETRY (R38). -/
def doHeadRetry (h : Head) (s : State) : State × Item :=
  if (s.scu.heads.get h).state = .failed then
    let t := headTo h .cold s
    (tryCalibrate { t with scu := { t.scu with calDue := true } }, accept .headretry [headName h, headStateName .cold])
  else (s, deny .headretry .wrongState)

/-- CANCELLER s CLEAR (R114). -/
def doCancellerClear (c : Stream) (s : State) : State × Item :=
  if (s.can.recs.get c).state = .fault then
    let t := updCanc c (fun r => { r with cause := none }) s
    let t := if running s then cancPrime c t else cancTo c .off (sendFrame c .standby t)
    (t, accept .canceller [streamName c, cancStateName (t.can.recs.get c).state])
  else (s, deny .canceller .wrongState)

/-- CAPTURE, with a class or for ANY (R71). -/
def doCapture (wanted : Option MarkClass) (s : State) : State × Item :=
  match s.mkf.capture with
  | .off => ({ s with mkf := { s.mkf with capture := .armed wanted } }, accept .capture [captureName (.armed wanted)])
  | .armed _ => (s, deny .capture .busy)
  | .draining _ => (s, deny .capture .busy)

/-- CAPTURE OFF (R71, R74). -/
def doCaptureOff (s : State) : State × Item :=
  let off := { s with mkf := { s.mkf with capture := .off } }
  match s.mkf.capture with
  | .off => (s, accept .capture [captureName .off])
  | .armed _ => (off, accept .capture [captureName .off])
  | .draining d => (updBuf d.buf (fun _ => freeBuf) off, accept .capture [captureName .off])

/-- RESTART (R184). -/
def doRestart (s : State) : State × Item :=
  match s.flc.line with
  | .powerup | .warmup | .standby | .fault =>
    ({ s with llk := { s.llk with restarting := true } }, accept .restart [])
  | .starting | .run | .drain => (s, deny .restart .wrongState)

/-! ### Taking a request -/

/-- A request taken: its effect, and the item it becomes (R180). -/
def perform (r : Request) (s : State) : State × Item :=
  match r with
  | .ping => (s, accept .ping [])
  | .status p => (s, accept .status (sectionName (p.getD .line) :: statusFields s (p.getD .line)))
  | .start => doStart s
  | .stop => doStop s
  | .clear o => doClear o s
  | .hold d => doHold d s
  | .release => doRelease s
  | .set n v => doSet n v s
  | .get n => doGet n s
  | .save => doSave s
  | .load => doLoad s
  | .dater d => doDater d s
  | .pocket q a => doPocket q a s
  | .pockets none => (s, accept .pockets (pocketsFields s))
  | .pockets (some q) => (s, accept .pockets (pocketFields s q))
  | .snap => doSnap s
  | .count p => doCount p s
  | .zero => doZero s
  | .mask ks => doMask ks s
  | .ack ks => doAck ks s
  | .flags => (s, accept .flags [flagHex (flagBits s (·.set)), flagHex (flagBits s (·.masked))])
  | .headRetry h => doHeadRetry h s
  | .cancellerClear c => doCancellerClear c s
  | .capture w => doCapture w s
  | .captureOff => doCaptureOff s
  | .table i => doTable i s
  | .restart => doRestart s
  | .malformed v => (s, .answered (.deny v .range none))

end Sys2Proof.Machine
end

