-- ==== Sys2Proof/Machine/LinkOps.lean ====
section
/-! DEFINITION. The Line Link (chapter 10): the answer list, the receiver, the transmitter; and the reset of the whole part (R198). -/

namespace Sys2Proof.Machine

/-! ### The transmitter -/

/-- The transmitter begins a line. -/
def begin' (l : TxLine) (s : State) : State :=
  { s with llk := { s.llk with tx := some l } }

/-- The pick of an idle transmitter by R185 alone: the oldest answer where it is ANSWERED, the oldest pending report, which leaves the
pending reports, the oldest letter record, the next capture line; with nothing available it stays idle. -/
def pickAvailable (s : State) : State :=
  match s.llk.answers, s.llk.reports, s.cnb.records, s.mkf.capture with
  | .answered r :: _, _, _, _ => begin' (.reply r) s
  | _, k :: rest, _, _ =>
    begin' (.report k (s.llk.flags.get k).detail) { s with llk := { s.llk with reports := rest } }
  | _, [], r :: _, _ => begin' (.record r) s
  | _, [], [], .draining d =>
    match d.lines with
    | k :: _ => begin' (.capture (captureLine d k s)) s
    | [] => s
  | _, [], [], .off => s
  | _, [], [], .armed _ => s

/-- The pick of an idle transmitter (R185), and ahead of it, where R195 holds against R185 (log entry 49), the second line after a reset whose
stored image fails its check: nothing is begun until the load ends, and then the report of PROFILE_DEFAULTED, unless a MASK or an ACK has
withdrawn it. -/
def pick (s : State) : State :=
  match s.llk.opening with
  | .done => pickAvailable s
  | .loading => s
  | .due =>
    let t := { s with llk := { s.llk with opening := .done } }
    if s.llk.reports.contains .profileDefaulted then
      begin' (.report .profileDefaulted (s.llk.flags.get .profileDefaulted).detail)
        { t with llk := { t.llk with reports := t.llk.reports.filter fun k => decide (k ≠ .profileDefaulted) } }
    else pickAvailable t

/-- An item made available to an idle transmitter is begun at once (R185). -/
def pump (s : State) : State :=
  if s.llk.tx.isSome then s else pick s

/-- The end of an event that began in `s` and has come to `t`: the hold cause set is judged (R152), and an idle transmitter begins what is
available (R185). -/
def endEvent (s t : State) : State :=
  pump (judgeHold s.flc.holds.any t)

/-- The end of an event that may stack letters: a drain ends with the letter that empties the table (R148), its automatic snapshot
holding the event's crossing of the hold cause set (R170). -/
def endStacking (s t : State) : State :=
  let t := judgeHold s.flc.holds.any t
  pump (if s.trk.table.isEmpty then t else checkDrained t)

/-! ### The answer list -/

/-- The oldest WAITING item with no IN_PROGRESS item ahead of it, with the items before and after it (R180). -/
def firstTakeable : List Item → Option (List Item × Request × List Item)
  | [] => none
  | .waiting r :: rest => some ([], r, rest)
  | .inProgress :: _ => none
  | .answered a :: rest => (firstTakeable rest).map fun p => (.answered a :: p.1, p.2.1, p.2.2)

/-- Waiting requests taken one after another (R180), at most `fuel` of them; none once a RESTART has been accepted (R184). -/
def takeRequests : Nat → State → State
  | 0, s => s
  | fuel + 1, s =>
    if s.llk.restarting then s
    else
      match firstTakeable s.llk.answers with
      | none => s
      | some (ahead, r, behind) =>
        let p := perform r s
        takeRequests fuel { p.1 with llk := { p.1.llk with answers := ahead ++ p.2 :: behind } }

/-- How many items wait (R180). -/
def waitingCount (items : List Item) : Nat :=
  items.countP fun i => match i with
    | .waiting _ => true
    | .inProgress => false
    | .answered _ => false

/-- An item joins the newest end of the answer list. -/
def join (i : Item) (s : State) : State :=
  { s with llk := { s.llk with answers := s.llk.answers ++ [i] } }

/-- LINK_ERROR set with a detail (R186). -/
def linkError (e : LinkError) (s : State) : State :=
  setFlag .linkError (.linkError e) s

/-- The silence timer restarts at a valid request line (R147, R179). -/
def restartSilence (s : State) : State :=
  { s with llk := { s.llk with silenceStart := s.now, silent := false } }

/-- A valid request line completed (R179, R180): the silence timer restarts, and the line is discarded after an accepted RESTART (R184,
log entry 27), dropped with OVERFLOW at 8 items, refused BUSY with 4 WAITING, and otherwise joins and is taken where nothing is in
progress ahead of it. -/
def submit (r : Request) (s : State) : State :=
  let t := restartSilence s
  if t.llk.restarting then t
  else if 8 ≤ t.llk.answers.length then linkError .overflow t
  else if 4 ≤ waitingCount t.llk.answers then join (.answered (.deny (requestVerb r) .busy none)) t
  else takeRequests 8 (join (.waiting r) t)

/-- A malformed line completed (R179, R180): LINK_ERROR, and its refusal joins ANSWERED, or OVERFLOW at 8 items. After an accepted RESTART
it has no reply (R184, log entry 27). -/
def submitMalformed (e : LinkError) (reply : Reply) (s : State) : State :=
  let t := linkError e s
  if t.llk.restarting then t
  else if 8 ≤ t.llk.answers.length then linkError .overflow t
  else join (.answered reply) t

/-- A complete line (R179). -/
def completeLine (rx : Rx) (s : State) : State :=
  match classify rx with
  | .long => submitMalformed .length (.deny (text "?") .length none) s
  | .badCheck => submitMalformed .check (.deny (text "?") .check none) s
  | .unknown f => submitMalformed (.unknown f) (.deny (if f.isEmpty then absent else f.take 16) .unknown none) s
  | .request r => submit r s

/-! ### The receiver -/

/-- A line is in progress (R178). -/
def lineInProgress (rx : Rx) : Bool :=
  !rx.buf.isEmpty || rx.crNoted || rx.overlong

/-- The receive line buffer with one character taken that does not complete the line (R178). A character with a framing error marks the line
bad and has no other effect: a printable one is not appended, a CR not noted (log entry 46). -/
def takeChar (c : Byte) (framingError : Bool) (now : Nat) (rx : Rx) : Rx :=
  let rx := { rx with lastChar := now }
  if rx.overlong then rx
  else if framingError then { rx with bad := true, crLast := false }
  else if printable c then
    if rx.buf.length < 200 then { rx with buf := rx.buf ++ [c], crLast := false } else { rx with overlong := true, crLast := false }
  else if c = chCR then { rx with crNoted := true, crLast := true }
  else { rx with bad := true, crLast := false }

/-- A character received (R178): an LF completes the line, and a line with no character collected is discarded. An LF with a framing error
marks the line bad and does not complete it (log entry 46). -/
def receive (c : Byte) (framingError : Bool) (s : State) : State :=
  if c = chLF ∧ framingError = false then
    let rx := s.llk.rx
    let t := { s with llk := { s.llk with rx := { emptyRx with lastChar := s.now } } }
    if rx.buf.isEmpty && !rx.overlong then t else completeLine rx t
  else { s with llk := { s.llk with rx := takeChar c framingError s.now s.llk.rx } }

/-! ### Reset -/

/-- The image that a write cut short by power loss leaves (R196): it fails its check, its format number and its CRC-16 free values (log
entry 11). -/
def tornImage (fresh : Nat) (i : Image) : Image :=
  let torn := { i with format := Config.tornFormat fresh }
  { torn with crc := wrongCrc (Config.tornCrc fresh) torn }

/-- The stored image at a reset (R194, R196): a write in progress is cut short, and leaves an image that fails its check. -/
def resetPfs (fresh : Nat) (p : Pfs) : Pfs where
  profile := Profile.factory
  image := match p.saving with
    | none => p.image
    | some _ => tornImage fresh p.image
  saving := none

/-- A reset of the whole part (R198): every block at the values of its rule, the inputs as they stand, the stored image kept. The
queue of commands is the outside's, and stays. -/
def resetPart (c : ResetCause) (s : State) : State where
  trk := resetTrk
  pcm := resetPcm (s.pcm.cells.map (·.raw))
  scu := resetScu
  mkf := resetMkf
  ptc := resetPtc
  can := resetCan Profile.factory
  pkc := resetPkc (s.pkc.recs.map (·.raw))
  flc := resetFlc s.flc.estop
  cnb := resetCnb
  llk := resetLlk c (imageFault (resetPfs s.fresh s.pfs).image).isSome
  pfs := resetPfs s.fresh s.pfs
  now := 0
  fresh := if s.pfs.saving.isSome then s.fresh + 1 else s.fresh
  pending := s.pending

/-! ### A line completed -/

/-- The oldest letter record has been sent and leaves the queue, lowering RECORDS at 32 under REPORT_HOLD (R175, R176). -/
def recordSent (s : State) : State :=
  let t := { s with cnb := { s.cnb with records := s.cnb.records.tail } }
  if s.pfs.profile.reportHold && decide (s.cnb.records.length = 33) then setHold .records false t else t

/-- The line that completes: what leaves, and the repeat timer of a report (R180, R185, R187). -/
def lineSent (l : TxLine) (s : State) : State :=
  match l with
  | .reply _ => { s with llk := { s.llk with answers := s.llk.answers.tail } }
  | .report k _ =>
    if s.pfs.profile.eventRepeat = 0 then s
    else { s with llk := { s.llk with flags := s.llk.flags.upd k fun f => { f with repeating := some s.now } } }
  | .record _ => recordSent s
  | .capture c => captureSent c s

/-- The `= RESTART` line (R184). -/
def isRestartReply (l : TxLine) : Bool :=
  decide (l = .reply (.ok (verbName .restart) []))

/-- The completion of the line being sent (R185): the next line, or the reset that `= RESTART` completes (R184, R198). What the completion
itself makes available, the CAPTURE_DONE report of a last capture line among it, competes at this boundary (R185 allows it to wait for
the next; log entry 41). -/
def transmitComplete (s : State) : State :=
  match s.llk.tx with
  | none => s
  | some l =>
    if isRestartReply l then resetPart .restart s
    else endEvent s (lineSent l { s with llk := { s.llk with tx := none } })

end Sys2Proof.Machine
end

