-- ==== Sys2Proof/Machine/Power.lean ====
section
/-! DEFINITION. The meanings of reset and of the profile load at start-up (chapter 11). -/

namespace Sys2Proof.Machine

/-- POWER_ON_RESET (R198). -/
def execPowerOnReset (s : State) : Host.Outcome State Fault Refusal :=
  .next (resetPart .power s)

/-- The POWERUP load completed (R195): the working profile, WARMUP with its timer and the calibration due mark (R41, R143), the blocked
set (R138), EVENT_REPEAT at its next comparison (R187). The report of PROFILE_DEFAULTED is the second line the part sends, ahead of what became
available in POWERUP (R189, R195), or takes its turn by R185 and R187, a free value (log entry 49). -/
def profileLoaded (s : State) : State :=
  let t := loadProfile s
  let t := { t with
    flc := { t.flc with warmup := some t.now }
    scu := { t.scu with calDue := true }
    llk := { t.llk with opening := openingAt .due (imageFault s.pfs.image).isSome } }
  stopRepeats (tryCalibrate (judgeBlocked (setLine .warmup .loaded none t)))

/-- PROFILE_LOAD_COMPLETE (R195): only in POWERUP. -/
def execProfileLoadComplete (s : State) : Host.Outcome State Fault Refusal :=
  .next (if s.flc.line = .powerup then endEvent s (profileLoaded s) else s)

end Sys2Proof.Machine
end

