-- ==== Sys2Proof/Machine/Track.lean ====
section
/-! DEFINITION. The meanings of the Track Unit's events (chapter 1). -/

namespace Sys2Proof.Machine

/-- The belt position after one encoder count (R1). -/
def beltStep (m : Motion) (p : Pos) : Pos :=
  match m with
  | .forward => p + 1
  | .reverse => p - 1

/-- BELT_RUN_MM and the travel remainder after one encoder count in RUN (R168). -/
def travelStep (m : Motion) (c : Cnb) : Cnb :=
  let r : Int := match m with
    | .forward => c.remainder + 1
    | .reverse => c.remainder - 1
  let mm := c.bank.line.beltRunMm
  if r = 4 then { c with remainder := 0, bank := { c.bank with line := { c.bank.line with beltRunMm := mm + 1 } } }
  else if r = -4 then { c with remainder := 0, bank := { c.bank with line := { c.bank.line with beltRunMm := mm - 1 } } }
  else { c with remainder := r }

/-- ENCODER_COUNT (R1, R168). The positions the count brings to be reached are commands of their own (log entry 3). -/
def execEncoderCount (m : Motion) (s : State) : Host.Outcome State Fault Refusal :=
  .next { s with
    trk := { s.trk with belt := beltStep m s.trk.belt }
    cnb := if s.flc.line = .run then travelStep m s.cnb else s.cnb }

/-- The Track Unit at a speed result: the net change over the last 16 ms, the measured speed, the window moved on (R4). -/
def speedStep (t : Trk) : Trk :=
  { t with
    speed := speedOf (distance ((t.samples.getLast?).getD 0) t.belt)
    samples := t.belt :: t.samples.dropLast }

/-- The run-up qualification at a speed result (R145). -/
def qualStep (p : Profile) (speed now : Nat) (f : Flc) : Flc :=
  if f.line = .starting then
    { f with runUpQual := if p.minRunSpeed ≤ speed then some (f.runUpQual.getD now) else none }
  else f

/-- SPEED_RESULT (R4, R145): one millisecond has passed (log entry 2). -/
def execSpeedResult (s : State) : Host.Outcome State Fault Refusal :=
  let trk := speedStep s.trk
  .next { s with trk := trk, now := s.now + 1, flc := qualStep s.pfs.profile trk.speed (s.now + 1) s.flc }

/-- PREVIOUS_TAIL_DROP (R2, R9). -/
def execPreviousTailDrop (s : State) : Host.Outcome State Fault Refusal :=
  match s.trk.prevTail with
  | some p =>
    .next (if reached s.trk.belt (at' p dropDistance) then { s with trk := { s.trk with prevTail := none } } else s)
  | none => .next s

/-- OVER_LENGTH_POSITION (R14). -/
def execOverLengthPosition (s : State) : Host.Outcome State Fault Refusal :=
  match s.trk.measuring with
  | some n => .next (takeDue n .overLength s)
  | none => .next s

/-- PE0_JAM_POSITION (R15). -/
def execPe0JamPosition (s : State) : Host.Outcome State Fault Refusal :=
  match s.trk.measuring with
  | some n => .next (endEvent s (takeDue n .pe0Jam s))
  | none => .next s

end Sys2Proof.Machine
end

