-- ==== Sys2Proof/Machine/Photocells.lean ====
section
/-! DEFINITION. The meanings of the Photocell Monitor's events (chapter 2). -/

namespace Sys2Proof.Machine

/-- PHOTOCELL_RAW_CHANGE (R21). -/
def execPhotocellRawChange (c : Photocell) (l : Level) (s : State) : Host.Outcome State Fault Refusal :=
  .next (rawChange c l s)

/-- PHOTOCELL_QUALIFY_TRAVEL (R21): a pending change that has stood MIN_BLOCK of travel, in STARTING, RUN and DRAIN. -/
def execPhotocellQualifyTravel (c : Photocell) (s : State) : Host.Outcome State Fault Refusal :=
  match (s.pcm.cells.get c).change with
  | some ch =>
    .next (if running s ∧ (s.pfs.profile.minBlock : Int) ≤ distance ch.pos s.trk.belt then endStacking s (qualify c ch s) else s)
  | none => .next s

/-- PHOTOCELL_QUALIFY_TIME (R22): a pending change that has stood 20 ms, in the other line states. -/
def execPhotocellQualifyTime (c : Photocell) (s : State) : Host.Outcome State Fault Refusal :=
  match (s.pcm.cells.get c).change with
  | some ch => .next (if running s then s else endEvent s (qualify c ch (waitUntil (ch.time + 20) s)))
  | none => .next s

/-- MISSING_POSITION (R29). -/
def execMissingPosition (c : Sup) (n : LetterNo) (s : State) : Host.Outcome State Fault Refusal :=
  .next (endEvent s (takeDue n (.missing c) s))

/-- BLOCKED_POSITION (R31). -/
def execBlockedPosition (c : Sup) (s : State) : Host.Outcome State Fault Refusal :=
  match (s.pcm.sups.get c).passing with
  | some p => .next (if reached s.trk.belt p.blocked then endEvent s (faultStop (.jam (supCell c) .blocked) s) else s)
  | none => .next s

end Sys2Proof.Machine
end

