-- ==== Sys2Proof/Machine/Scan.lean ====
section
/-! DEFINITION. The meanings of the Scan Control Unit's and the Mark Finder's events (chapters 3 and 4). -/

namespace Sys2Proof.Machine

/-- STATION_EXIT_POSITION (R40). -/
def execStationExitPosition (n : LetterNo) (s : State) : Host.Outcome State Fault Refusal :=
  .next (takeDue n .stationExit s)

/-- CALIBRATION_TIMER (R41): the due mark at the interval of the line state. -/
def execCalibrationTimer (s : State) : Host.Outcome State Fault Refusal :=
  match calInterval s.pfs.profile s.flc.line with
  | some i =>
    let t := waitUntil (s.scu.calStart + i) s
    .next (tryCalibrate { t with scu := { t.scu with calDue := true } })
  | none => .next s

/-- HEAD_ANSWER (R36): a word whose checks fail is discarded. -/
def execHeadAnswer (h : Head) (w : BitVec 32) (s : State) : Host.Outcome State Fault Refusal :=
  .next (if wordGood w then endEvent s (answerHead h (wordSample w) s) else s)

/-- HEAD_ANSWER_TIMEOUT (R36): 100 µs after a command without an answer taken. -/
def execHeadAnswerTimeout (h : Head) (s : State) : Host.Outcome State Fault Refusal :=
  .next (if (s.scu.heads.get h).out.isSome then endEvent s (tryCalibrate (failHead h s)) else s)

/-- A head at the warm-up limit (R39). -/
def limitHead (s : State) (h : Head) : State :=
  match (s.scu.heads.get h).state with
  | .cold | .warming | .weak => failHead h s
  | .ready | .failed => s

/-- WARMUP_LIMIT (R39, R143): 60 s in WARMUP. The heads fail in the order FT, FB, BT, BB (log entry 20). -/
def execWarmupLimit (s : State) : Host.Outcome State Fault Refusal :=
  match s.flc.line, s.flc.warmup with
  | .warmup, some t0 =>
    let t := Head.all.foldl limitHead (waitUntil (t0 + 60000) s)
    .next (endEvent s (tryCalibrate (setLine .standby .warmupLimit none { t with flc := { t.flc with warmup := none } })))
  | _, _ => .next s

/-- SH_POSITION (R46). -/
def execShPosition (n : LetterNo) (s : State) : Host.Outcome State Fault Refusal :=
  .next (takeDue n .sh s)

/-- SCAN_PULSE (R48). -/
def execScanPulse (n : LetterNo) (s : State) : Host.Outcome State Fault Refusal :=
  .next (takeDue n .pulse s)

/-- RESULT_DELIVERY (R68). -/
def execResultDelivery (s : State) : Host.Outcome State Fault Refusal :=
  match s.mkf.slot with
  | some i => .next (endEvent s (deliver i s))
  | none => .next s

end Sys2Proof.Machine
end

