-- ==== Sys2Proof/Machine/Paths.lean ====
section
/-! DEFINITION. The meanings of the Path Controller's events (chapter 5). -/

namespace Sys2Proof.Machine

/-- DP_DECISION (R76). -/
def execDpDecision (n : LetterNo) (s : State) : Host.Outcome State Fault Refusal :=
  .next (endEvent s (takeDue n .dp s))

/-- GATE_CLEAR_POSITION (R87). -/
def execGateClearPosition (g : Gate) (s : State) : Host.Outcome State Fault Refusal :=
  match (s.ptc.gates.get g).user with
  | some u => .next (takeDue u.letter (.gateClear g) s)
  | none => .next s

/-- GATE_SETTLE_END (R88). -/
def execGateSettleEnd (g : Gate) (s : State) : Host.Outcome State Fault Refusal :=
  match (s.ptc.gates.get g).settle with
  | some p =>
    .next (if reached s.trk.belt p then gateTry g (updGate g (fun r => { r with settle := none }) s) else s)
  | none => .next s

/-- MERGE_TAIL_DROP (R2). -/
def execMergeTailDrop (s : State) : Host.Outcome State Fault Refusal :=
  match s.ptc.merge with
  | some m =>
    .next (if reached s.trk.belt (at' m.tail dropDistance) then { s with ptc := { s.ptc with merge := none } } else s)
  | none => .next s

end Sys2Proof.Machine
end

