-- ==== Sys2Proof/Machine/Cancel.lean ====
section
/-! DEFINITION. The meanings of the Cancel Controllers' events (chapter 6). -/

namespace Sys2Proof.Machine

/-- ARM_POINT (R104). -/
def execArmPoint (n : LetterNo) (s : State) : Host.Outcome State Fault Refusal :=
  .next (endEvent s (takeDue n .arm s))

/-- FIRE_POINT (R108). -/
def execFirePoint (n : LetterNo) (s : State) : Host.Outcome State Fault Refusal :=
  .next (endEvent s (takeDue n .fire s))

/-- DONE_LIMIT (R110). -/
def execDoneLimit (c : Stream) (s : State) : Host.Outcome State Fault Refusal :=
  match (s.can.recs.get c).held with
  | some n => .next (endEvent s (takeDue n (.doneLimit c) s))
  | none => .next s

/-- The outcome the held letter takes where the module itself fails (R111). -/
def moduleOutcome : CancState → Option CancelOutcome
  | .arming | .armed => some .skippedUnavailable
  | .printing => some .failed
  | .off | .priming | .ready | .overheat | .fault => none

/-- The entry to FAULT with cause MODULE (R111). -/
def moduleTrouble (c : Stream) (s : State) : State :=
  cancFault c .module (moduleOutcome (s.can.recs.get c).state) s

/-- A STATUS reporting a band, by the canceller's state (R113). -/
def bandAct (c : Stream) (b : Band) (s : State) : State :=
  match (s.can.recs.get c).state, b with
  | .ready, .over => cancOverheat c s
  | .arming, .over | .armed, .over =>
    let t := releaseHeld c .skippedUnavailable (sendFrame c .abort s)
    cancOverheat c (updCanc c (fun r => { r with replyTimer := none }) t)
  | .overheat, .normal | .overheat, .warm => cancReady c s
  | _, _ => s

/-- A STATUS recorded (R96, R112) and acted on (R111, R113). One that R111 takes to FAULT is acted on by R111 alone, whatever its band
(log entry 43). -/
def statusAct (c : Stream) (m : ModuleState) (b : Band) (s : State) : State :=
  let t := updCanc c (fun r => { r with module := m, band := b }) s
  match m, (s.can.recs.get c).state with
  | _, .off | _, .fault => t
  | .error, .priming | .error, .ready | .error, .arming | .error, .armed | .error, .printing | .error, .overheat =>
    moduleTrouble c t
  | .unprimed, .ready | .unprimed, .arming | .unprimed, .armed | .unprimed, .printing | .unprimed, .overheat =>
    moduleTrouble c t
  | .unprimed, .priming => t
  | .primed, _ => bandAct c b t

/-- MODULE_STATUS (R113): a frame that fails its CRC-8 is discarded (R96). -/
def execModuleStatus (c : Stream) (m : ModuleState) (b : Band) (good : Bool) (s : State) : Host.Outcome State Fault Refusal :=
  .next (if good then endEvent s (statusAct c m b s) else s)

/-- PRIMED (R99). -/
def execPrimed (c : Stream) (good : Bool) (s : State) : Host.Outcome State Fault Refusal :=
  .next (if good ∧ (s.can.recs.get c).state = .priming then
      endEvent s (cancReadyOrHot c (updCanc c (fun r => { r with primeTimer := none }) s))
    else s)

/-- ACCEPTED (R106): only for the held letter, in ARMING (R96). -/
def execAccepted (c : Stream) (n : LetterNo) (good : Bool) (s : State) : Host.Outcome State Fault Refusal :=
  .next (if good ∧ (s.can.recs.get c).state = .arming ∧ (s.can.recs.get c).held = some n then
      endEvent s (cancTo c .armed (updCanc c (fun r => { r with replyTimer := none, parityRun := 0 }) s))
    else s)

/-- A PARITY_ERR taken in ARMING (R107, R166). -/
def parityAct (c : Stream) (s : State) : State :=
  let r := s.can.recs.get c
  let run := r.parityRun + 1
  let t := count (fun b => { b with cancel := b.cancel.upd c fun p => { p with parityErrors := p.parityErrors + 1 } }) s
  let t := match r.held with
    | some n => setFlag .parity (.parity c n) t
    | none => t
  let t := releaseHeld c .skippedParity (updCanc c (fun r => { r with replyTimer := none, parityRun := run }) t)
  if s.pfs.profile.persistParity || decide (3 ≤ run) then cancFault c .parity none t else cancReady c t

/-- PARITY_ERR (R107). -/
def execParityErr (c : Stream) (good : Bool) (s : State) : Host.Outcome State Fault Refusal :=
  .next (if good ∧ (s.can.recs.get c).state = .arming then endEvent s (parityAct c s) else s)

/-- The outcome a DONE frame gives (R109). -/
def completionOutcome : Completion → CancelOutcome
  | .good => .done
  | .printError _ => .failed

/-- MODULE_DONE (R109): only for the held letter, in PRINTING (R96). -/
def execModuleDone (c : Stream) (n : LetterNo) (done : Completion) (good : Bool) (s : State) : Host.Outcome State Fault Refusal :=
  .next (if good ∧ (s.can.recs.get c).state = .printing ∧ (s.can.recs.get c).held = some n then
      endEvent s (cancReadyOrHot c (releaseHeld c (completionOutcome done) s))
    else s)

/-- MODULE_FAULT (R111): discarded in OFF (R96). -/
def execModuleFault (c : Stream) (code : BitVec 8) (good : Bool) (s : State) : Host.Outcome State Fault Refusal :=
  .next (if good ∧ (s.can.recs.get c).state ≠ .off then
      endEvent s (moduleTrouble c (updCanc c (fun r => { r with faultCode := some code }) s))
    else s)

/-- PRIME_TIMEOUT (R99): 5 s after the PRIME. -/
def execPrimeTimeout (c : Stream) (s : State) : Host.Outcome State Fault Refusal :=
  match (s.can.recs.get c).primeTimer with
  | some t0 => .next (endEvent s (cancFault c .primeTimeout none (waitUntil (t0 + 5000) s)))
  | none => .next s

/-- REPLY_TIMEOUT (R106): 2 ms after the IMPRESSION. -/
def execReplyTimeout (c : Stream) (s : State) : Host.Outcome State Fault Refusal :=
  match (s.can.recs.get c).replyTimer with
  | some t0 => .next (endEvent s (cancFault c .timeout (some .skippedUnavailable) (waitUntil (t0 + 2) s)))
  | none => .next s

end Sys2Proof.Machine
end

