-- ==== Sys2Proof/Machine/Pockets.lean ====
section
/-! DEFINITION. The meanings of the Pocket Controller's events (chapter 7). -/

namespace Sys2Proof.Machine

/-- SELECT_POINT (R126). -/
def execSelectPoint (n : LetterNo) (s : State) : Host.Outcome State Fault Refusal :=
  .next (endEvent s (takeDue n .select s))

/-- STACKING (R130). -/
def execStacking (n : LetterNo) (s : State) : Host.Outcome State Fault Refusal :=
  .next (endStacking s (takeDue n .stacking s))

/-- POCKET_SENSOR_CHANGE (R123). -/
def execPocketSensorChange (q : Pocket) (l : Paddle) (s : State) : Host.Outcome State Fault Refusal :=
  .next (if (s.pkc.recs.get q).raw = l then s
    else updPocket q (fun r => { r with raw := l, change := if l = r.sensor then none else some s.now }) s)

/-- A raw sensor level becomes the qualified level (R123, R139); the sensor of a pocket that is not fitted does not act on its state
(R122). -/
def sensorQualified (q : Pocket) (s : State) : State :=
  let l := (s.pkc.recs.get q).raw
  let t := updPocket q (fun r => { r with sensor := r.raw, change := none }) s
  if isBin q then
    let t := setFlag .endBin (.bin q l) t
    if l = .active then faultStop (.endBinFull q) t else t
  else if s.pfs.profile.fitted q then follow q t
  else t

/-- POCKET_SENSOR_QUALIFY (R123): a raw level that has stood 100 ms. -/
def execPocketSensorQualify (q : Pocket) (s : State) : Host.Outcome State Fault Refusal :=
  match (s.pkc.recs.get q).change with
  | some t0 => .next (endEvent s (sensorQualified q (waitUntil (t0 + 100) s)))
  | none => .next s

/-- SWEEP_BUTTON_PRESS (R132): the press is timed from its raw press. An end bin has no button. -/
def execSweepButtonPress (q : Pocket) (s : State) : Host.Outcome State Fault Refusal :=
  .next (if isBin q ∨ (s.pkc.recs.get q).press.isSome then s else updPocket q (fun r => { r with press := some s.now }) s)

/-- SWEEP_BUTTON_RELEASE (R132): a release that returns within 20 ms is bridged (log entry 15); the press of a pocket that is not
fitted has no effect. -/
def execSweepButtonRelease (q : Pocket) (bridged : Bool) (s : State) : Host.Outcome State Fault Refusal :=
  match (s.pkc.recs.get q).press with
  | some t0 =>
    let t := updPocket q (fun r => { r with press := none }) s
    .next (if bridged then s else if s.pfs.profile.fitted q then endEvent s (pressAct q (s.now - t0) t) else t)
  | none => .next s

end Sys2Proof.Machine
end

