-- ==== Sys2Proof/Machine/Line.lean ====
section
/-! DEFINITION. The meanings of the Feed and Line Controller's events (chapter 8). -/

namespace Sys2Proof.Machine

/-- RUN_UP_COMPLETE (R145): the run-up qualification present for 200 ms. -/
def execRunUpComplete (s : State) : Host.Outcome State Fault Refusal :=
  match s.flc.line, s.flc.runUpQual with
  | .starting, some t0 =>
    let t := waitUntil (t0 + 200) s
    .next (endEvent s (setLine .run .runUp none { t with flc := { t.flc with runUp := none, runUpQual := none } }))
  | _, _ => .next s

/-- RUN_UP_LIMIT (R145): 3 s in STARTING. -/
def execRunUpLimit (s : State) : Host.Outcome State Fault Refusal :=
  match s.flc.line, s.flc.runUp with
  | .starting, some t0 => .next (endEvent s (faultStop .speed (waitUntil (t0 + 3000) s)))
  | _, _ => .next s

/-- ESTOP_CHANGE (R154). -/
def execEstopChange (asserted : Bool) (s : State) : Host.Outcome State Fault Refusal :=
  .next (if s.flc.estop = asserted then s
    else
      let t := { s with flc := { s.flc with estop := asserted } }
      if asserted then endEvent s (faultStop .estop t) else t)

/-- DRAIN_LIMIT_POSITION (R148). -/
def execDrainLimitPosition (s : State) : Host.Outcome State Fault Refusal :=
  match s.flc.line, s.flc.drainLimit with
  | .drain, some p => .next (if reached s.trk.belt p then endEvent s (faultStop .drain s) else s)
  | _, _ => .next s

/-- HOLD_COUNTDOWN_END (R151). -/
def execHoldCountdownEnd (s : State) : Host.Outcome State Fault Refusal :=
  match s.flc.countdown with
  | some p =>
    .next (if reached s.trk.belt p then endEvent s (setHold .line false { s with flc := { s.flc with countdown := none } }) else s)
  | none => .next s

/-- Link silence (R147): LINK_SILENT with the line state at the expiry, and DRAIN from STARTING or RUN. -/
def silenceAct (s : State) : State :=
  let t := setFlag .linkSilent (.silent s.flc.line) { s with llk := { s.llk with silent := true } }
  match s.flc.line with
  | .starting | .run => enterDrain .linkSilent t
  | .powerup | .warmup | .standby | .drain | .fault => t

/-- LINK_SILENCE (R147): LINK_TIMEOUT after the last valid request line, once until the next one. -/
def execLinkSilence (s : State) : Host.Outcome State Fault Refusal :=
  .next (if s.pfs.profile.linkTimeout = 0 ∨ s.llk.silent = true then s
    else endEvent s (silenceAct (waitUntil (s.llk.silenceStart + s.pfs.profile.linkTimeout * 100) s)))

/-- HORN_PULSE_END (R160): 3 s after the fault stop. -/
def execHornPulseEnd (s : State) : Host.Outcome State Fault Refusal :=
  match s.flc.horn with
  | some t0 =>
    let t := waitUntil (t0 + 3000) s
    .next { t with flc := { t.flc with horn := none } }
  | none => .next s

end Sys2Proof.Machine
end

