-- ==== Sys2Proof/Machine/Link.lean ====
section
/-! DEFINITION. The meanings of the Line Link's events and of the end of a SAVE (chapters 10 and 11). -/

namespace Sys2Proof.Machine

/-- CHARACTER_RECEIVED (R178). -/
def execCharacterReceived (c : Byte) (framingError : Bool) (s : State) : Host.Outcome State Fault Refusal :=
  .next (endEvent s (receive c framingError s))

/-- LINE_GAP_TIMEOUT (R178): 20 ms after the last character of a line in progress. -/
def execLineGapTimeout (s : State) : Host.Outcome State Fault Refusal :=
  .next (if lineInProgress s.llk.rx then
      let t := waitUntil (s.llk.rx.lastChar + 20) s
      endEvent s (linkError .gap { t with llk := { t.llk with rx := { emptyRx with lastChar := t.llk.rx.lastChar } } })
    else s)

/-- TRANSMIT_LINE_COMPLETE (R185). -/
def execTransmitLineComplete (s : State) : Host.Outcome State Fault Refusal :=
  .next (transmitComplete s)

/-- The expiry of a kind's repeat timer (R187). -/
def repeatAct (k : Kind) (s : State) : State :=
  let f := s.llk.flags.get k
  { s with llk := { s.llk with
      flags := s.llk.flags.upd k fun f => { f with repeating := none }
      reports :=
        if f.set && !f.masked && condition s k && !s.llk.reports.contains k then s.llk.reports ++ [k] else s.llk.reports } }

/-- A repeat timer stopped without a report (R187). -/
def stopRepeat (k : Kind) (s : State) : State :=
  { s with llk := { s.llk with flags := s.llk.flags.upd k fun f => { f with repeating := none } } }

/-- EVENT_REPEAT_EXPIRY (R187); at an EVENT_REPEAT of 0 the timer stops without a report. -/
def execEventRepeatExpiry (k : Kind) (s : State) : Host.Outcome State Fault Refusal :=
  match (s.llk.flags.get k).repeating with
  | some t0 =>
    .next (if s.pfs.profile.eventRepeat = 0 then stopRepeat k s
      else endEvent s (repeatAct k (waitUntil (t0 + s.pfs.profile.eventRepeat * 1000) s)))
  | none => .next s

/-- The SAVE item of the answer list with its reply (R196). -/
def saveAnswered (crc : BitVec 16) (i : Item) : Item :=
  match i with
  | .inProgress => accept .save [hexDigits 4 crc.toNat]
  | .waiting r => .waiting r
  | .answered r => .answered r

/-- The end of a write (R196): the image holds the fixed content and passes its check, the SAVE is answered, and the requests behind
it are taken (R180). -/
def writeEnd (p : Profile) (s : State) : State :=
  takeRequests 8 { s with
    pfs := { s.pfs with image := { format := 1, contents := p, crc := Config.imageCrc 1 p }, saving := none }
    llk := { s.llk with answers := s.llk.answers.map (saveAnswered (Config.imageCrc 1 p)) } }

/-- SAVE_WRITE_END (R196). -/
def execSaveWriteEnd (s : State) : Host.Outcome State Fault Refusal :=
  match s.pfs.saving with
  | some p => .next (endEvent s (writeEnd p s))
  | none => .next s

end Sys2Proof.Machine
end

