-- ==== Sys2Proof/Machine/RequestCommands.lean ====
section
/-! DEFINITION. The meanings of the requests: each is the completion of a valid request line with its verb and arguments (R179, R180, log entry
16). The effect at its taking is in Requests.lean. -/

namespace Sys2Proof.Machine

/-- PING (R182). -/
def execPing (s : State) : Host.Outcome State Fault Refusal :=
  .next (endEvent s (submit .ping s))

/-- STATUS (R182). -/
def execStatus (p : Option Section) (s : State) : Host.Outcome State Fault Refusal :=
  .next (endEvent s (submit (.status p) s))

/-- START (R144). -/
def execStart (s : State) : Host.Outcome State Fault Refusal :=
  .next (endEvent s (submit .start s))

/-- STOP (R146). -/
def execStop (s : State) : Host.Outcome State Fault Refusal :=
  .next (endEvent s (submit .stop s))

/-- CLEAR (R156). -/
def execClear (o : Bool) (s : State) : Host.Outcome State Fault Refusal :=
  .next (endEvent s (submit (.clear o) s))

/-- HOLD (R151). -/
def execHold (d : Option Int) (s : State) : Host.Outcome State Fault Refusal :=
  .next (endEvent s (submit (.hold d) s))

/-- RELEASE (R151). -/
def execRelease (s : State) : Host.Outcome State Fault Refusal :=
  .next (endEvent s (submit .release s))

/-- SET (R183). -/
def execSet (n v : Text) (s : State) : Host.Outcome State Fault Refusal :=
  .next (endEvent s (submit (.set n v) s))

/-- GET (R183). -/
def execGet (n : Text) (s : State) : Host.Outcome State Fault Refusal :=
  .next (endEvent s (submit (.get n) s))

/-- SAVE (R196). -/
def execSave (s : State) : Host.Outcome State Fault Refusal :=
  .next (endEvent s (submit .save s))

/-- LOAD (R197). -/
def execLoad (s : State) : Host.Outcome State Fault Refusal :=
  .next (endEvent s (submit .load s))

/-- DATER (R118). -/
def execDater (r : Dater) (s : State) : Host.Outcome State Fault Refusal :=
  .next (endEvent s (submit (.dater r) s))

/-- POCKET_SWEEP, the request POCKET id SWEEP (R133). -/
def execPocketSweep (q : Pocket) (s : State) : Host.Outcome State Fault Refusal :=
  .next (endEvent s (submit (.pocket q .sweep) s))

/-- POCKET_DONE, the request POCKET id DONE (R134). -/
def execPocketDone (q : Pocket) (s : State) : Host.Outcome State Fault Refusal :=
  .next (endEvent s (submit (.pocket q .done) s))

/-- POCKET_DISABLE, the request POCKET id DISABLE (R135). -/
def execPocketDisable (q : Pocket) (s : State) : Host.Outcome State Fault Refusal :=
  .next (endEvent s (submit (.pocket q .disable) s))

/-- POCKET_ENABLE, the request POCKET id ENABLE (R135). -/
def execPocketEnable (q : Pocket) (s : State) : Host.Outcome State Fault Refusal :=
  .next (endEvent s (submit (.pocket q .enable) s))

/-- POCKETS (R182). -/
def execPockets (q : Option Pocket) (s : State) : Host.Outcome State Fault Refusal :=
  .next (endEvent s (submit (.pockets q) s))

/-- SNAP (R170). -/
def execSnap (s : State) : Host.Outcome State Fault Refusal :=
  .next (endEvent s (submit .snap s))

/-- COUNT p (R171). -/
def execCount (p : Nat) (s : State) : Host.Outcome State Fault Refusal :=
  .next (endEvent s (submit (.count p) s))

/-- ZERO (R172). -/
def execZero (s : State) : Host.Outcome State Fault Refusal :=
  .next (endEvent s (submit .zero s))

/-- MASK kinds (R188). -/
def execMask (ks : List Kind) (s : State) : Host.Outcome State Fault Refusal :=
  .next (endEvent s (submit (.mask ks) s))

/-- ACK kinds (R188). -/
def execAck (ks : List Kind) (s : State) : Host.Outcome State Fault Refusal :=
  .next (endEvent s (submit (.ack ks) s))

/-- FLAGS (R188). -/
def execFlags (s : State) : Host.Outcome State Fault Refusal :=
  .next (endEvent s (submit .flags s))

/-- HEADRETRY (R38). -/
def execHeadRetry (h : Head) (s : State) : Host.Outcome State Fault Refusal :=
  .next (endEvent s (submit (.headRetry h) s))

/-- CANCELLER s CLEAR (R114). -/
def execCancellerClear (c : Stream) (s : State) : Host.Outcome State Fault Refusal :=
  .next (endEvent s (submit (.cancellerClear c) s))

/-- CAPTURE, with a class or for ANY (R71). -/
def execCapture (w : Option MarkClass) (s : State) : Host.Outcome State Fault Refusal :=
  .next (endEvent s (submit (.capture w) s))

/-- CAPTURE OFF (R71). -/
def execCaptureOff (s : State) : Host.Outcome State Fault Refusal :=
  .next (endEvent s (submit .captureOff s))

/-- TABLE i (R182). -/
def execTable (i : Option Nat) (s : State) : Host.Outcome State Fault Refusal :=
  .next (endEvent s (submit (.table i) s))

/-- RESTART (R184). -/
def execRestart (s : State) : Host.Outcome State Fault Refusal :=
  .next (endEvent s (submit .restart s))

end Sys2Proof.Machine
end

