-- ==== Sys2Proof/Machine/Dispatch.lean ====
section
/-! DEFINITION. One arm for each command, each one direct call of its meaning. -/

namespace Sys2Proof.Machine

def exec (i : Instr) (s : State) : Host.Outcome State Fault Refusal :=
  match i with
  | .powerOnReset => Sys2Proof.Machine.execPowerOnReset s
  | .profileLoadComplete => Sys2Proof.Machine.execProfileLoadComplete s
  | .encoderCount motion => Sys2Proof.Machine.execEncoderCount motion s
  | .speedResult => Sys2Proof.Machine.execSpeedResult s
  | .runUpComplete => Sys2Proof.Machine.execRunUpComplete s
  | .runUpLimit => Sys2Proof.Machine.execRunUpLimit s
  | .photocellRawChange cell level => Sys2Proof.Machine.execPhotocellRawChange cell level s
  | .photocellQualifyTravel cell => Sys2Proof.Machine.execPhotocellQualifyTravel cell s
  | .photocellQualifyTime cell => Sys2Proof.Machine.execPhotocellQualifyTime cell s
  | .previousTailDrop => Sys2Proof.Machine.execPreviousTailDrop s
  | .overLengthPosition => Sys2Proof.Machine.execOverLengthPosition s
  | .pe0JamPosition => Sys2Proof.Machine.execPe0JamPosition s
  | .missingPosition cell letter => Sys2Proof.Machine.execMissingPosition cell letter s
  | .blockedPosition cell => Sys2Proof.Machine.execBlockedPosition cell s
  | .stationExitPosition letter => Sys2Proof.Machine.execStationExitPosition letter s
  | .calibrationTimer => Sys2Proof.Machine.execCalibrationTimer s
  | .headAnswer head word => Sys2Proof.Machine.execHeadAnswer head word s
  | .headAnswerTimeout head => Sys2Proof.Machine.execHeadAnswerTimeout head s
  | .warmupLimit => Sys2Proof.Machine.execWarmupLimit s
  | .shPosition letter => Sys2Proof.Machine.execShPosition letter s
  | .scanPulse letter => Sys2Proof.Machine.execScanPulse letter s
  | .resultDelivery => Sys2Proof.Machine.execResultDelivery s
  | .dpDecision letter => Sys2Proof.Machine.execDpDecision letter s
  | .gateClearPosition gate => Sys2Proof.Machine.execGateClearPosition gate s
  | .gateSettleEnd gate => Sys2Proof.Machine.execGateSettleEnd gate s
  | .armPoint letter => Sys2Proof.Machine.execArmPoint letter s
  | .firePoint letter => Sys2Proof.Machine.execFirePoint letter s
  | .doneLimit stream => Sys2Proof.Machine.execDoneLimit stream s
  | .moduleStatus stream state band crcGood => Sys2Proof.Machine.execModuleStatus stream state band crcGood s
  | .primed stream crcGood => Sys2Proof.Machine.execPrimed stream crcGood s
  | .accepted stream letter crcGood => Sys2Proof.Machine.execAccepted stream letter crcGood s
  | .parityErr stream crcGood => Sys2Proof.Machine.execParityErr stream crcGood s
  | .moduleDone stream letter completion crcGood => Sys2Proof.Machine.execModuleDone stream letter completion crcGood s
  | .moduleFault stream code crcGood => Sys2Proof.Machine.execModuleFault stream code crcGood s
  | .primeTimeout stream => Sys2Proof.Machine.execPrimeTimeout stream s
  | .replyTimeout stream => Sys2Proof.Machine.execReplyTimeout stream s
  | .selectPoint letter => Sys2Proof.Machine.execSelectPoint letter s
  | .stacking letter => Sys2Proof.Machine.execStacking letter s
  | .pocketSensorChange pocket level => Sys2Proof.Machine.execPocketSensorChange pocket level s
  | .pocketSensorQualify pocket => Sys2Proof.Machine.execPocketSensorQualify pocket s
  | .sweepButtonPress pocket => Sys2Proof.Machine.execSweepButtonPress pocket s
  | .sweepButtonRelease pocket bridged => Sys2Proof.Machine.execSweepButtonRelease pocket bridged s
  | .estopChange asserted => Sys2Proof.Machine.execEstopChange asserted s
  | .drainLimitPosition => Sys2Proof.Machine.execDrainLimitPosition s
  | .holdCountdownEnd => Sys2Proof.Machine.execHoldCountdownEnd s
  | .linkSilence => Sys2Proof.Machine.execLinkSilence s
  | .hornPulseEnd => Sys2Proof.Machine.execHornPulseEnd s
  | .characterReceived char framingError => Sys2Proof.Machine.execCharacterReceived char framingError s
  | .lineGapTimeout => Sys2Proof.Machine.execLineGapTimeout s
  | .ping => Sys2Proof.Machine.execPing s
  | .status part => Sys2Proof.Machine.execStatus part s
  | .start => Sys2Proof.Machine.execStart s
  | .stop => Sys2Proof.Machine.execStop s
  | .clear override => Sys2Proof.Machine.execClear override s
  | .hold distance => Sys2Proof.Machine.execHold distance s
  | .release => Sys2Proof.Machine.execRelease s
  | .set name value => Sys2Proof.Machine.execSet name value s
  | .get name => Sys2Proof.Machine.execGet name s
  | .save => Sys2Proof.Machine.execSave s
  | .saveWriteEnd => Sys2Proof.Machine.execSaveWriteEnd s
  | .load => Sys2Proof.Machine.execLoad s
  | .dater record => Sys2Proof.Machine.execDater record s
  | .pocketSweep pocket => Sys2Proof.Machine.execPocketSweep pocket s
  | .pocketDone pocket => Sys2Proof.Machine.execPocketDone pocket s
  | .pocketDisable pocket => Sys2Proof.Machine.execPocketDisable pocket s
  | .pocketEnable pocket => Sys2Proof.Machine.execPocketEnable pocket s
  | .pockets pocket => Sys2Proof.Machine.execPockets pocket s
  | .snap => Sys2Proof.Machine.execSnap s
  | .count page => Sys2Proof.Machine.execCount page s
  | .zero => Sys2Proof.Machine.execZero s
  | .mask kinds => Sys2Proof.Machine.execMask kinds s
  | .ack kinds => Sys2Proof.Machine.execAck kinds s
  | .flags => Sys2Proof.Machine.execFlags s
  | .headRetry head => Sys2Proof.Machine.execHeadRetry head s
  | .cancellerClear stream => Sys2Proof.Machine.execCancellerClear stream s
  | .capture wanted => Sys2Proof.Machine.execCapture wanted s
  | .captureOff => Sys2Proof.Machine.execCaptureOff s
  | .table first => Sys2Proof.Machine.execTable first s
  | .restart => Sys2Proof.Machine.execRestart s
  | .transmitLineComplete => Sys2Proof.Machine.execTransmitLineComplete s
  | .eventRepeatExpiry kind => Sys2Proof.Machine.execEventRepeatExpiry kind s
  | .mergeTailDrop => Sys2Proof.Machine.execMergeTailDrop s

end Sys2Proof.Machine
end

