-- ==== Sys2Proof/Safety.lean ====
section
/-! DEFINITION. What a sound state of the part is, in the terms the claims use: the bounds of its lists and counts, the relations the
rules say always hold, and the states in which no scheduled position has been passed over. -/

namespace Sys2Proof.Safety

open Sys2Proof Sys2Proof.Machine

/-! ### Bounds -/

/-- Every list and bounded count within the bound its rule gives (R4, R5, R86, R158, R168, R169, R174, R178, R180). -/
structure Bounded (s : State) : Prop where
  table       : s.trk.table.length ≤ 64
  samples     : s.trk.samples.length = 16
  speed       : s.trk.speed ≤ 500
  queues      : ∀ g, (s.ptc.gates.get g).queue.length ≤ 8
  faultCount  : s.flc.faultCount ≤ 8
  remainder   : -3 ≤ s.cnb.remainder ∧ s.cnb.remainder ≤ 3
  utilisation : s.cnb.snap.utilisation ≤ 1000
  records     : s.cnb.records.length ≤ 96
  answers     : s.llk.answers.length ≤ 8
  waiting     : waitingCount s.llk.answers ≤ 4
  line        : s.llk.rx.buf.length ≤ 200

/-! ### Letters -/

/-- No letter number is 0: neither the next one nor that of an entry (R7). -/
structure NumberedFromOne (s : State) : Prop where
  next    : s.trk.nextNumber ≠ 0
  entries : ∀ e ∈ s.trk.table, e.number ≠ 0

/-- The table is in order of age, and every number in it is older than the next letter number (R5, R7). -/
structure InOrder (s : State) : Prop where
  rising : s.trk.table.Pairwise fun a b => older a.number b.number = true
  next   : ∀ e ∈ s.trk.table, older e.number s.trk.nextNumber = true

/-- Every letter of the table is one of the last 2^31 - 3 assigned, so that the order of numbers is that of assignment (R5). -/
def NumbersYoung (s : State) : Prop :=
  ∀ e ∈ s.trk.table, (s.trk.nextNumber - e.number).toNat < 2147483646

/-- What a decision leaves in an entry (R6, R77, R82): without a path there is no stream, cancel job or pocket, a letter on the reject
line has no stream, one on the main line has a stream, and a cancel job belongs to a stream. -/
structure Shaped (e : Entry) : Prop where
  undecided : e.path = none → e.stream = none ∧ e.job = none ∧ e.pocket = none
  rejected  : e.path = some .reject → e.stream = none
  faced     : e.path = some .straight ∨ e.path = some .twist → e.stream.isSome = true
  cancelled : e.job.isSome = true → e.stream.isSome = true
  early     : e.early.isSome = true → e.cause.isSome = true

/-- No letter is tracked in POWERUP, WARMUP or STANDBY, and the letters of the table are stranded exactly in FAULT (R142, R155,
R157). -/
structure TrackedByLine (s : State) : Prop where
  empty    : s.flc.line = .powerup ∨ s.flc.line = .warmup ∨ s.flc.line = .standby → s.trk.table = []
  stranded : ∀ e ∈ s.trk.table, e.stranded = decide (s.flc.line = .fault)

/-! ### The line -/

/-- The records and timers of the line stand exactly in their line states (R143, R145, R146, R155, R156). -/
structure LineRecords (s : State) : Prop where
  fault      : s.flc.fault.isSome = true ↔ s.flc.line = .fault
  warmup     : s.flc.warmup.isSome = true ↔ s.flc.line = .warmup
  runUp      : s.flc.runUp.isSome = true ↔ s.flc.line = .starting
  qualified  : s.flc.runUpQual.isSome = true → s.flc.line = .starting
  drainLimit : s.flc.drainLimit.isSome = true ↔ s.flc.line = .drain

/-- The hold cause CANCEL is present exactly while CANCEL_POLICY is HOLD, the line is in STARTING or RUN, and either canceller is
unavailable (R117). -/
def CancelHeld (s : State) : Prop :=
  s.flc.holds.cancel = true ↔
    s.pfs.profile.cancelPolicy = .hold ∧ (s.flc.line = .starting ∨ s.flc.line = .run) ∧ cancellerOut s = true

/-- The blocked set holds exactly the classes now blocked, and POCKETS is present exactly while it is not empty; in POWERUP both are
still empty (R138, R141). -/
structure PocketsHeld (s : State) : Prop where
  before : s.flc.line = .powerup → s.pkc.blocked = [] ∧ s.flc.holds.pockets = false
  after  : s.flc.line ≠ .powerup →
    (∀ c, c ∈ s.pkc.blocked ↔ isBlocked s c = true) ∧ (s.flc.holds.pockets = true ↔ s.pkc.blocked ≠ [])

/-! ### Cancellers -/

/-- A canceller holds a letter, a fault cause and a running timer exactly in the states R97 gives for them (R97, R98, R105, R107). -/
structure CancellerSound (r : CancRec) : Prop where
  held     : r.held.isSome = true ↔ r.state = .arming ∨ r.state = .armed ∨ r.state = .printing
  deferred : r.deferred.isSome = true → r.state = .arming ∨ r.state = .armed ∨ r.state = .printing
  cause    : r.cause.isSome = true ↔ r.state = .fault
  prime    : r.primeTimer.isSome = true ↔ r.state = .priming
  reply    : r.replyTimer.isSome = true ↔ r.state = .arming
  parity   : r.parityRun ≤ 3 ∧ (r.state ≠ .off → r.state ≠ .fault → r.parityRun ≤ 2)

/-- While the line is in FAULT, each canceller is in OFF or FAULT (R114, R115). -/
def StoppedInFault (s : State) : Prop :=
  s.flc.line = .fault → ∀ c, (s.can.recs.get c).state = .off ∨ (s.can.recs.get c).state = .fault

/-! ### Pockets -/

/-- Every pocket's committed count equals the number of entries naming it (R128). -/
def CommittedCounts (s : State) : Prop :=
  ∀ q, (s.pkc.recs.get q).committed = s.trk.table.countP fun e => decide (e.pocket = some q)

/-- A pocket in SWEEP or DISABLED has committed count 0, one in SWEEP_PENDING has letters still to come (R128, R133 to R135); an end bin
has neither state nor button (R121, R122). -/
structure PocketsSwept (s : State) : Prop where
  swept    : ∀ q, (s.pkc.recs.get q).state = .sweep ∨ (s.pkc.recs.get q).state = .disabled → (s.pkc.recs.get q).committed = 0
  coming   : ∀ q, (s.pkc.recs.get q).state = .sweepPending → (s.pkc.recs.get q).committed ≠ 0
  bins     : ∀ q, isBin q = true → (s.pkc.recs.get q).state = .open ∧ (s.pkc.recs.get q).press = none

/-! ### Counts -/

/-- The sum of the seventeen pocket counters. -/
def pocketSum (b : Bank) : Counter :=
  b.pockets.toList.foldr (· + ·) 0

/-- The sum of the six class counters. -/
def classSum (b : Bank) : Counter :=
  b.marks.classes.toList.foldr (· + ·) 0

/-- The sum of the four orientation counters. -/
def orientSum (b : Bank) : Counter :=
  b.marks.orients.toList.foldr (· + ·) 0

/-- The relations of R163 and R164 between the counters of a bank, with a number of letters in the table. -/
structure Balanced (b : Bank) (inTable : Nat) : Prop where
  flow     : b.flow.inducted = pocketSum b + b.flow.cleared + BitVec.ofNat 32 inTable
  disposed : b.flow.stacked + b.flow.rejected = pocketSum b
  scanned  : b.flow.scanned = classSum b
  oriented : orientSum b = b.marks.classes.phosphor + b.marks.classes.meter + b.marks.classes.bright

/-- The relations hold in the live bank and in the snapshot (R163, R164, R170). -/
structure CountsBalanced (s : State) : Prop where
  live     : Balanced s.cnb.bank s.trk.table.length
  snapshot : Balanced s.cnb.snap.bank s.cnb.snap.inTable

/-! ### Heads and buffers -/

/-- A head's drive codes lie in 0 to 15, and a FAILED head has no pulse outstanding and none waiting (R36, R37, R43). -/
structure HeadSound (h : HeadRec) : Prop where
  code    : h.code ≤ 15 ∧ h.refCode ≤ 15
  sent    : ∀ o, h.out = some o → o.code ≤ 15
  run     : h.run ≤ 1
  failed  : h.state = .failed → h.out = none ∧ h.waiting = []

/-- The buffers and the blocks that hold them agree (R45, R53, R71): a WAITING buffer is on the work list and once only, the COMPUTING one
is in the computing slot, the CAPTURE one is the draining capture's, a FREE one has no letter, and nothing waits while the slot is
empty. -/
structure BuffersHeld (s : State) : Prop where
  free      : ∀ b, (s.scu.bufs.get b).phase = .free ↔ (s.scu.bufs.get b).letter = none
  waiting   : ∀ b, (s.scu.bufs.get b).phase = .waiting ↔ b ∈ s.mkf.work.map (·.buf)
  once      : (s.mkf.work.map (·.buf)).Nodup
  computing : ∀ b, (s.scu.bufs.get b).phase = .computing ↔ ∃ i, s.mkf.slot = some i ∧ i.buf = b
  capture   : ∀ b, (s.scu.bufs.get b).phase = .capture ↔ ∃ d, s.mkf.capture = .draining d ∧ d.buf = b
  taken     : s.mkf.slot = none → s.mkf.work = []

/-! ### The line link -/

/-- The pending reports hold a kind at most once, and only one whose flag is set and unmasked (R187, R188). -/
structure ReportsSound (s : State) : Prop where
  once : s.llk.reports.Nodup
  due  : ∀ k ∈ s.llk.reports, (s.llk.flags.get k).set = true ∧ (s.llk.flags.get k).masked = false

/-- How many items are IN_PROGRESS. -/
def progressCount (items : List Item) : Nat :=
  items.countP fun i => decide (i = .inProgress)

/-- The answer list (R180, R184, R196): no request waits that could be taken, one item is IN_PROGRESS exactly while a write is, and a
reply being sent is that of the oldest item. -/
structure AnswersSound (s : State) : Prop where
  length : s.llk.answers.length ≤ 8
  taken  : s.llk.restarting = true ∨ firstTakeable s.llk.answers = none
  saving : progressCount s.llk.answers = if s.pfs.saving.isSome then 1 else 0
  oldest : ∀ r, s.llk.tx = some (.reply r) → s.llk.answers.head? = some (.answered r)

/-! ### The profile -/

/-- A number lies in the range of its parameter, where 0 is off for EVENT_REPEAT and LINK_TIMEOUT (R183, R191, R192). -/
def inRange (p : Param) (n : Nat) : Prop :=
  (paramRange p).1 ≤ n ∧ n ≤ (paramRange p).2 ∨ n = 0 ∧ (p = .eventRepeat ∨ p = .linkTimeout)

/-- Every number of a profile lies in its range, and a stream pocket is fitted only in a set geometry (R191, R192). -/
structure ProfileSound (p : Profile) : Prop where
  ranges : ∀ q n, p.read q = some (.num n) → inRange q n
  fitted : ∀ q, (p.stack.get q).fit = true → p.geometrySet = true

/-- The working profile, the stored image and the content of a write in progress are sound. -/
structure ProfilesSound (s : State) : Prop where
  working : ProfileSound s.pfs.profile
  image   : ProfileSound s.pfs.image.contents
  saving  : ∀ p, s.pfs.saving = some p → ProfileSound p

/-! ### Punctual states -/

/-- No scheduled position of a letter has been reached and left untaken (R3). In a run in which every encoder count is taken in such a
state, each action is taken at the very count that reaches its position (log entry 3). -/
def Punctual (s : State) : Prop :=
  ∀ e ∈ s.trk.table, reachedPositions s e = []

/-- The command whose event is the reaching of a letter's scheduled position (R3). -/
def commandOf (n : LetterNo) : PosKind → Instr
  | .overLength => .overLengthPosition
  | .pe0Jam => .pe0JamPosition
  | .missing c => .missingPosition c n
  | .stationExit => .stationExitPosition n
  | .sh => .shPosition n
  | .pulse => .scanPulse n
  | .dp => .dpDecision n
  | .gateClear g => .gateClearPosition g
  | .arm => .armPoint n
  | .fire => .firePoint n
  | .doneLimit c => .doneLimit c
  | .select => .selectPoint n
  | .stacking => .stacking n

/-- From `s` the positions of a letter that have been reached are taken one after another, each time one with the smallest distance of
those reached then, until none is left or as many as the budget have been taken (R27). -/
inductive TookReached (n : LetterNo) : Nat → State → State → Prop where
  | done (k : Nat) (s : State) (none : ∀ e, s.entry? n = some e → reachedPositions s e = []) : TookReached n k s s
  | spent (s : State) : TookReached n 0 s s
  | next (k : Nat) (s t : State) (e : Entry) (a : PosKind) (d : Int) (entry : s.entry? n = some e) (reached : (a, d) ∈ reachedPositions s e)
      (first : ∀ p ∈ reachedPositions s e, d ≤ p.2) (rest : TookReached n k (act n a s) t) : TookReached n (k + 1) s t

/-! ### Resets and images -/

/-- A command that resets the whole part: a power-on reset, or the completion of the reply `= RESTART` (R184, R198). -/
def Resets (c : Instr) (s : State) : Prop :=
  c = .powerOnReset ∨ c = .transmitLineComplete ∧ s.llk.tx = some (.reply (.ok (text "RESTART") []))

/-- A stored image passes its check: its format number is 1 and its CRC-16 is that of its format number and parameters (R194, R195). -/
abbrev ImagePasses (i : Image) : Prop :=
  i.format = 1 ∧ i.crc = Config.imageCrc i.format i.contents

/-- The second line after a reset (R189, R195). Where the stored image fails its check and R195 holds against R185 (log entry 49), no line but
that of RESET is begun in POWERUP, and the report of PROFILE_DEFAULTED is the next one; no write is in progress in POWERUP (R196, R198). -/
structure SecondLine (s : State) : Prop where
  loading : s.llk.opening = .loading ↔ s.flc.line = .powerup ∧ ¬ ImagePasses s.pfs.image ∧ Config.defaultedSecond = true
  writing : s.flc.line = .powerup → s.pfs.saving = none
  due     : s.llk.opening = .due → s.llk.tx ≠ none
  first   : s.llk.opening ≠ .done → ∀ l, s.llk.tx = some l → ∃ d, l = .report .reset d

/-- The state `s` with every repeat timer stopped without a report, as an EVENT_REPEAT of 0 stops them (R187). -/
def timersStopped (s : State) : State :=
  { s with llk := { s.llk with flags := s.llk.flags.map fun f => { f with repeating := none } } }

/-! ### Requests -/

/-- The request that a command is the completed line of (R179). -/
def requestOf (c : Instr) : Option Request :=
  match c with
  | .ping => some .ping
  | .status p => some (.status p)
  | .start => some .start
  | .stop => some .stop
  | .clear o => some (.clear o)
  | .hold d => some (.hold d)
  | .release => some .release
  | .set n v => some (.set n v)
  | .get n => some (.get n)
  | .save => some .save
  | .load => some .load
  | .dater d => some (.dater d)
  | .pocketSweep q => some (.pocket q .sweep)
  | .pocketDone q => some (.pocket q .done)
  | .pocketDisable q => some (.pocket q .disable)
  | .pocketEnable q => some (.pocket q .enable)
  | .pockets q => some (.pockets q)
  | .snap => some .snap
  | .count p => some (.count p)
  | .zero => some .zero
  | .mask ks => some (.mask ks)
  | .ack ks => some (.ack ks)
  | .flags => some .flags
  | .headRetry h => some (.headRetry h)
  | .cancellerClear st => some (.cancellerClear st)
  | .capture w => some (.capture w)
  | .captureOff => some .captureOff
  | .table i => some (.table i)
  | .restart => some .restart
  | .powerOnReset | .profileLoadComplete | .encoderCount _ | .speedResult | .runUpComplete | .runUpLimit
  | .photocellRawChange _ _ | .photocellQualifyTravel _ | .photocellQualifyTime _ | .previousTailDrop | .overLengthPosition
  | .pe0JamPosition | .missingPosition _ _ | .blockedPosition _ | .stationExitPosition _ | .calibrationTimer | .headAnswer _ _
  | .headAnswerTimeout _ | .warmupLimit | .shPosition _ | .scanPulse _ | .resultDelivery | .dpDecision _ | .gateClearPosition _
  | .gateSettleEnd _ | .armPoint _ | .firePoint _ | .doneLimit _ | .moduleStatus _ _ _ _ | .primed _ _ | .accepted _ _ _
  | .parityErr _ _ | .moduleDone _ _ _ _ | .moduleFault _ _ _ | .primeTimeout _ | .replyTimeout _ | .selectPoint _ | .stacking _
  | .pocketSensorChange _ _ | .pocketSensorQualify _ | .sweepButtonPress _ | .sweepButtonRelease _ _ | .estopChange _
  | .drainLimitPosition | .holdCountdownEnd | .linkSilence | .hornPulseEnd | .characterReceived _ _ | .lineGapTimeout
  | .saveWriteEnd | .transmitLineComplete | .eventRepeatExpiry _ | .mergeTailDrop => none

/-- The line link is at rest: nothing to answer, no line being sent and none that R195 puts next, no RESTART accepted. -/
structure LinkIdle (s : State) : Prop where
  answers    : s.llk.answers = []
  tx         : s.llk.tx = none
  restarting : s.llk.restarting = false
  opening    : s.llk.opening ≠ .due

/-- The state in which a request is taken: the silence timer has restarted (R147, R179). -/
def heard (s : State) : State :=
  { s with llk := { s.llk with silenceStart := s.now, silent := false } }

/-- A reply formed at the taking of a request on a link at rest, its line begun (R180, R185), but where the report of PROFILE_DEFAULTED is still
to be the second line sent: there it waits for the end of the load (R195, against R185; log entry 49). -/
def replying (r : Reply) (s : State) : State :=
  { s with llk := { s.llk with
      answers := [.answered r]
      tx := if s.llk.opening = .loading then s.llk.tx else some (.reply r) } }

/-- A flag of `t` as a setting in `s` leaves it: set, with the detail, its mask and repeat timer as they were (R187). -/
def FlagSet (k : Kind) (d : Detail) (s t : State) : Prop :=
  t.llk.flags.get k = { s.llk.flags.get k with set := true, detail := some d }

/-! ### What a command leaves -/

/-- The line link is as it was but for flags of the kinds given, their reports, and a line the transmitter begins: no other flag
changes, no report of another kind joins, and a line being sent goes on with the reports behind it in their order (R185, R187). The second
line after a reset stays to come until an idle transmitter comes to it (R195). -/
structure LinkKept (kinds : List Kind) (s t : State) : Prop where
  rest    : t.llk = { s.llk with flags := t.llk.flags, reports := t.llk.reports, tx := t.llk.tx, opening := t.llk.opening }
  flags   : ∀ k, k ∉ kinds → t.llk.flags.get k = s.llk.flags.get k
  reports : ∀ k ∈ t.llk.reports, k ∈ s.llk.reports ∨ k ∈ kinds
  sending : ∀ l, s.llk.tx = some l → t.llk.tx = some l ∧ s.llk.reports <+: t.llk.reports
  opening : t.llk.opening = s.llk.opening ∨ s.llk.tx = none ∧ s.llk.opening = .due ∧ t.llk.opening = .done

/-- What the event from `s` to `t` did to the hold cause set was judged once (R152): FEED_HOLD is set exactly where the set crossed between
empty and not empty, and HOLD_CROSSINGS rises exactly where it came to be not empty. -/
structure HoldJudged (s t : State) : Prop where
  flag  : t.llk.flags.get .feedHold =
    if s.flc.holds.any = t.flc.holds.any then s.llk.flags.get .feedHold
    else
      { s.llk.flags.get .feedHold with
        set := true, detail := some (if t.flc.holds.any then .held t.flc.holds.present else .released) }
  count : t.cnb.bank.line.holdCrossings =
    if s.flc.holds.any = false ∧ t.flc.holds.any = true then s.cnb.bank.line.holdCrossings + 1
    else s.cnb.bank.line.holdCrossings

/-- A hold cause came to stand at `b`, the other causes as they were: FEED_HOLD is set exactly where the set crossed between empty and
not empty, and HOLD_CROSSINGS rises exactly where it came to be not empty (R150, R152). -/
structure HoldMoved (c : HoldCause) (b : Bool) (s t : State) : Prop extends HoldJudged s t where
  holds : t.flc.holds = s.flc.holds.put b c

/-- The state `s` with the hold cause set, and the counter HOLD_CROSSINGS, of `t`: the parts HoldMoved speaks of. -/
def withHolds (s t : State) : State :=
  { s with
    flc := { s.flc with holds := t.flc.holds }
    cnb := { s.cnb with bank := { s.cnb.bank with line := { s.cnb.bank.line with holdCrossings := t.cnb.bank.line.holdCrossings } } } }

/-- The state `s` with the entry of a letter number changed, and nothing else (R17). -/
def withEntry (n : LetterNo) (e : Entry) (s : State) : State :=
  { s with trk := { s.trk with table := updTable n (fun _ => e) s.trk.table } }

/-- A calibration was taken: a pulse to every head that is not FAILED at its drive code, the due mark clear, the timer restarted (R41,
R42). -/
structure Calibrated (s t : State) : Prop where
  heads : ∀ h, t.scu.heads.get h =
    if (s.scu.heads.get h).state = .failed then s.scu.heads.get h
    else { s.scu.heads.get h with out := some { what := .calibration, code := (s.scu.heads.get h).code } }
  rest  : t.scu = { s.scu with heads := t.scu.heads, calStart := s.now, calDue := false }

/-- A calibration that is due was taken exactly where the station is free as the event leaves the track and the photocells, and the line
state permits one (R40, R41). -/
structure CalibratedIfFree (s t : State) : Prop where
  taken : s.scu.calDue = true → s.flc.line ≠ .powerup → s.flc.line ≠ .fault → stationFree { t with scu := s.scu } = true →
    Calibrated s t
  kept  : s.scu.calDue = false ∨ s.flc.line = .powerup ∨ s.flc.line = .fault ∨ stationFree { t with scu := s.scu } = false →
    t.scu = s.scu

/-- The fields of an entry, its cancel job apart, as a fault stop leaves them (R50, R155). -/
def strandedCore (e : Entry) : Entry :=
  { e with
    job := none
    stranded := true
    scan := match e.scan with
      | .scanning | .waiting | .computing => .aborted
      | .none => .none
      | .done => .done
      | .aborted => .aborted }

/-- A canceller record as a fault stop leaves it (R115). -/
def stoppedCanceller (r : CancRec) : CancRec :=
  match r.state with
  | .arming | .armed | .printing =>
    { r with
      state := .off, held := none, deferred := none, primeTimer := none, replyTimer := none
      frames := r.frames ++ [.abort, .standby] }
  | .priming | .ready | .overheat =>
    { r with state := .off, deferred := none, primeTimer := none, frames := r.frames ++ [.standby] }
  | .fault => { r with frames := r.frames ++ [.standby] }
  | .off => r

/-- Both cancellers took the record that `f` gives, A before B: CANCELLER_STATE holds the last change of state there was, and is as it was where
there was none (R119, log entry 19). -/
def CancellersReported (f : CancRec → CancRec) (s t : State) : Prop :=
  let a := s.can.recs.get .a
  let b := s.can.recs.get .b;
  ((f b).state ≠ b.state → FlagSet .cancellerState (.canceller .b (f b).state none) s t) ∧
  ((f b).state = b.state → (f a).state ≠ a.state → FlagSet .cancellerState (.canceller .a (f a).state none) s t) ∧
  ((f b).state = b.state → (f a).state = a.state → t.llk.flags.get .cancellerState = s.llk.flags.get .cancellerState)

/-- The fault stop of the call (R155) and what every block does at it (R9, R32, R50, R53, R92, R115, R117, R152, R153, R160). -/
structure FaultStopped (call : FaultCall) (s t : State) : Prop where
  line     : t.flc = { s.flc with
    line := .fault
    holds := { s.flc.holds with cancel := false }
    fault := some { call := call, pos := s.trk.belt, left := s.flc.line }
    faultCount := min 8 (s.flc.faultCount + 1)
    cleanRun := 0, runUp := none, runUpQual := none, drainLimit := none
    horn := some s.now }
  letters  : t.trk.table.map (fun e => { e with job := none }) = s.trk.table.map strandedCore
  track    : t.trk = { s.trk with measuring := none, overTaken := false, table := t.trk.table }
  lists    : ∀ c, t.pcm.sups.get c = { expected := [], passing := none }
  cells    : t.pcm.cells = s.pcm.cells
  heads    : ∀ h, t.scu.heads.get h =
    { s.scu.heads.get h with waiting := [], out := (s.scu.heads.get h).out.map fun o => { o with what := .dropped } }
  buffers  : ∀ b, if (s.scu.bufs.get b).phase = .capture then t.scu.bufs.get b = s.scu.bufs.get b
    else (t.scu.bufs.get b).phase = .free ∧ (t.scu.bufs.get b).letter = none
  timer    : t.scu = { s.scu with heads := t.scu.heads, bufs := t.scu.bufs }
  marks    : t.mkf = { s.mkf with work := [], slot := none }
  gates    : ∀ g, t.ptc.gates.get g = { s.ptc.gates.get g with settle := none, user := none, queue := [] }
  merge    : t.ptc.merge = s.ptc.merge
  cancel   : ∀ c, t.can.recs.get c = stoppedCanceller (s.can.recs.get c)
  held     : ∀ c n e j, (s.can.recs.get c).held = some n →
    ((s.can.recs.get c).state = .arming ∨ (s.can.recs.get c).state = .armed ∨ (s.can.recs.get c).state = .printing) →
    (∀ d, (s.can.recs.get d).deferred ≠ some n) → (∀ d, d ≠ c → (s.can.recs.get d).held ≠ some n) →
    s.entry? n = some e → e.job = some j → (t.entry? n).bind (·.job) = some { j with outcome := .failed }
  deferred : ∀ c n e j, (s.can.recs.get c).deferred = some n → (s.can.recs.get c).state ≠ .off → (s.can.recs.get c).state ≠ .fault →
    (∀ d, d ≠ c → (s.can.recs.get d).held ≠ some n ∧ (s.can.recs.get d).deferred ≠ some n) →
    s.entry? n = some e → e.job = some j → (t.entry? n).bind (·.job) = some { j with outcome := .skippedUnavailable }
  jobs     : ∀ n e, (∀ c, (s.can.recs.get c).held ≠ some n ∧ (s.can.recs.get c).deferred ≠ some n) → s.entry? n = some e →
    (t.entry? n).bind (·.job) = e.job
  dater    : t.can.dater = s.can.dater
  counts   : t.cnb = { s.cnb with bank := { s.cnb.bank with line :=
    { s.cnb.bank.line with faultStops := s.cnb.bank.line.faultStops + 1 } } }
  flags    : FlagSet .fault (.fault call) s t ∧ FlagSet .lineState (.line .fault (.fault call) none) s t ∧
    CancellersReported stoppedCanceller s t
  hold     : HoldMoved .cancel false s t
  link     : LinkKept [.fault, .lineState, .feedHold, .cancellerState] s t
  others   : t.pkc = s.pkc ∧ t.pfs = s.pfs ∧ t.now = s.now ∧ t.fresh = s.fresh ∧ t.pending = s.pending

/-- A head link whose outstanding pulse has ended: the first waiting pulse is sent where the belt has reached its position, at the reference
drive code, and none otherwise (R36, R43, R48). -/
def nextSent (belt : Pos) (r : HeadRec) : HeadRec :=
  match r.waiting with
  | p :: rest =>
    if reached belt p.pos = true then { r with waiting := rest, out := some { what := .scan p, code := r.refCode } } else { r with out := none }
  | [] => { r with out := none }

/-- A letter's pulse is delayed on an idle head link, first of those waiting, and the belt has reached its position (R48). -/
def DelayedReached (n : LetterNo) (s : State) (r : HeadRec) : Prop :=
  r.out = none ∧ ∃ p rest, r.waiting = p :: rest ∧ p.letter = n ∧ reached s.trk.belt p.pos = true

/-- Where a calibration takes a head state and its run count (R37): `good` as R42 judges the answer. -/
def calibratedState (good : Bool) (state : HeadState) (run : Nat) : HeadState × Nat :=
  match good, state with
  | true, .cold => (.warming, 0)
  | true, .warming => (.ready, 0)
  | true, .ready => (.ready, 0)
  | true, .weak => if run = 0 then (.weak, 1) else (.ready, 0)
  | false, .cold => (.cold, run)
  | false, .warming => (.cold, 0)
  | false, .ready => if run = 0 then (.ready, 1) else (.weak, 0)
  | false, .weak => (.weak, 0)
  | _, .failed => (.failed, run)

/-- The letter of a canceller takes an outcome in its cancel job (R97). -/
def OutcomeWritten (n : LetterNo) (o : CancelOutcome) (s t : State) : Prop :=
  ∀ e j, s.entry? n = some e → e.job = some j → (t.entry? n).bind (·.job) = some { j with outcome := o }

/-- What a canceller's own events touch: the cancellers, the jobs of the letters it holds or defers, the hold cause CANCEL, the
flags (R17, R97, R117, R119). -/
structure CancellerKept (c : Stream) (s t : State) : Prop where
  rest    : t = { withHolds s t with trk := { s.trk with table := t.trk.table }, can := t.can, llk := t.llk }
  letters : t.trk.table.map (fun e => { e with job := none }) = s.trk.table.map (fun e => { e with job := none })
  jobs    : ∀ n e, (s.can.recs.get c).held ≠ some n → (s.can.recs.get c).deferred ≠ some n → s.entry? n = some e →
    (t.entry? n).bind (·.job) = e.job
  other   : ∀ d, d ≠ c → t.can.recs.get d = s.can.recs.get d
  dater   : t.can.dater = s.can.dater
  hold    : HoldMoved .cancel (decide (s.pfs.profile.cancelPolicy = .hold ∧ (s.flc.line = .starting ∨ s.flc.line = .run) ∧
    cancellerOut t = true)) s t

/-- The entry of a canceller to FAULT (R98), with the outcome it gives the held letter, if any, and its FAULT flag (R119). -/
structure CancellerFaulted (c : Stream) (cause : CancCause) (outcome : Option CancelOutcome) (s t : State) : Prop where
  kept     : CancellerKept c s t
  record   : t.can.recs.get c = { s.can.recs.get c with
    state := .fault, held := none, deferred := none, cause := some cause, primeTimer := none, replyTimer := none
    frames := (s.can.recs.get c).frames ++ [.abort] }
  held     : ∀ n o, (s.can.recs.get c).held = some n → (s.can.recs.get c).deferred ≠ some n → outcome = some o →
    OutcomeWritten n o s t
  unheld   : ∀ n e, (s.can.recs.get c).held = some n → (s.can.recs.get c).deferred ≠ some n → outcome = none →
    s.entry? n = some e → (t.entry? n).bind (·.job) = e.job
  deferred : ∀ n, (s.can.recs.get c).deferred = some n → OutcomeWritten n .skippedUnavailable s t
  flag     : FlagSet .cancellerState (.canceller c .fault (some cause)) s t
  link     : LinkKept [.cancellerState, .feedHold] s t

/-- A pocket's state came to stand at `new`, or stood there: POCKET_STATE is set at a change, the blocked set is judged afresh and
POCKETS follows it (R123, R138). In POWERUP neither is judged before the end of the load (R141, log entry 22). -/
structure PocketStateTo (q : Pocket) (new : PocketState) (s t : State) : Prop where
  record  : t.pkc.recs.get q = { s.pkc.recs.get q with state := new }
  other   : ∀ p, p ≠ q → t.pkc.recs.get p = s.pkc.recs.get p
  rest    : t = { withHolds s t with pkc := t.pkc, llk := t.llk }
  same    : (s.pkc.recs.get q).state = new → t.llk.flags = s.llk.flags ∧ t.pkc = s.pkc ∧ t.flc = s.flc ∧ t.cnb = s.cnb
  flag    : (s.pkc.recs.get q).state ≠ new → FlagSet .pocketState (.pocket q new) s t
  blocked : (s.pkc.recs.get q).state ≠ new → s.flc.line ≠ .powerup →
    (∀ c, c ∈ t.pkc.blocked ↔ isBlocked t c = true) ∧ HoldMoved .pockets (!t.pkc.blocked.isEmpty) s t
  waiting : s.flc.line = .powerup → t.pkc.blocked = s.pkc.blocked ∧ t.flc = s.flc
  link    : LinkKept [.pocketState, .feedHold] s t

/-- The state by count and sensor of a pocket's record (R123); the sensor of a pocket that is not fitted does not act (R122). -/
def stateByCount (p : Profile) (q : Pocket) (r : PocketRec) : PocketState :=
  if r.sensor = .active ∧ p.fitted q = true ∨ p.capacity q ≤ r.count then .full
  else if p.nearFull q ≤ r.count then .nearFull
  else .open

/-- The gate of each stream pocket that is not fitted stands at PASS, and every gate is otherwise as it was (R85). That this moves the gate of a
pocket that comes to be not fitted, where R91 holds every setting, is log entry 42. -/
structure UnfittedPassed (s t : State) : Prop where
  stream : ∀ p ∈ [(StackPocket.a1, Gate.a1), (.a2, .a2), (.a3, .a3), (.a4, .a4), (.a5, .a5), (.a6, .a6), (.b1, .b1), (.b2, .b2), (.b3, .b3),
      (.b4, .b4), (.b5, .b5), (.b6, .b6)],
    t.ptc.gates.get p.2 = if (t.pfs.profile.stack.get p.1).fit = true then s.ptc.gates.get p.2
      else { s.ptc.gates.get p.2 with setting := .pass }
  others : ∀ g ∈ [Gate.g1, .gr, .g2, .rm, .rh], t.ptc.gates.get g = s.ptc.gates.get g
  merge  : t.ptc.merge = s.ptc.merge

/-- An entry given OFFSIZE, where no early disposition stands, and the reject cause of its name, where none does (R8). -/
def withOffsize (e : Entry) : Entry :=
  if e.early = none then { e with early := some .offsize, cause := some (e.cause.getD .offsize) } else e

/-- A gate whose record stood at `r` with the queue `q`: held or settling, it keeps the queue; free and IDLE, it takes the oldest entry, whose
letter becomes the user, and switches and settles where the setting differs (R87, R88). -/
structure GateTook (g : Gate) (r : GateRec) (q : List (LetterNo × Setting)) (s t : State) : Prop where
  waits : r.user ≠ none ∨ r.settle ≠ none → t.ptc.gates.get g = { r with queue := q }
  empty : q = [] → t.ptc.gates.get g = { r with queue := [] }
  takes : r.user = none → r.settle = none → ∀ n set rest e, q = (n, set) :: rest → t.entry? n = some e →
    t.ptc.gates.get g =
      { setting := set, queue := rest
        user := some { letter := n, dist := clearDist s.pfs.profile e g }
        settle := if r.setting = set then none else some (at' s.trk.belt (gateSettle s.pfs.profile g)) }

/-- A setting for a letter was placed in a gate's queue, after every older letter and before every newer one, and the gate may have taken
an entry in the same event (R86, R88). -/
def GateQueued (g : Gate) (n : LetterNo) (set : Setting) (s t : State) : Prop :=
  ∃ l r, (s.ptc.gates.get g).queue = l ++ r ∧ (∀ x ∈ l, older x.1 n = true) ∧
    (∀ x, r.head? = some x → older x.1 n = false) ∧ GateTook g (s.ptc.gates.get g) (l ++ (n, set) :: r) s t

/-- A letter joined a photocell's expected-arrival list in induction order, no list holding it twice (R24). -/
def ListJoined (c : Sup) (n : LetterNo) (s t : State) : Prop :=
  (n ∈ (s.pcm.sups.get c).expected → t.pcm.sups.get c = s.pcm.sups.get c) ∧
  (n ∉ (s.pcm.sups.get c).expected → ∃ l r, (s.pcm.sups.get c).expected = l ++ r ∧
    t.pcm.sups.get c = { s.pcm.sups.get c with expected := l ++ n :: r } ∧
    (∀ m ∈ l, older m n = true) ∧ (∀ m, r.head? = some m → older m n = false))

/-- A canceller record at the change from DRAIN to STANDBY (R116). -/
def drainedCanceller (r : CancRec) : CancRec :=
  match r.state with
  | .priming | .ready | .overheat => { r with state := .off, primeTimer := none, frames := r.frames ++ [.standby] }
  | .fault => { r with frames := r.frames ++ [.standby] }
  | .off | .arming | .armed | .printing => r

/-- The line left STARTING or RUN for DRAIN with a cause (R146): with letters in the table it is in DRAIN with its limit position, and with
none it passes on to STANDBY, the cancellers sent to OFF and a snapshot taken (R116, R148, R170). -/
structure DrainEntered (c : LineCause) (s t : State) : Prop where
  coming : s.trk.table ≠ [] → t = { s with
    flc := { s.flc with
      line := .drain, runUp := none, runUpQual := none
      holds := { s.flc.holds with cancel := false }
      drainLimit := some (at' s.trk.belt (s.pfs.profile.drainLimit * 4000 : Nat)) }
    llk := t.llk } ∧ FlagSet .lineState (.line .drain c none) s t ∧ HoldMoved .cancel false s t ∧
    LinkKept [.lineState, .feedHold] s t
  empty  : s.trk.table = [] → t = { s with
    flc := { s.flc with
      line := .standby, runUp := none, runUpQual := none, drainLimit := none
      holds := { s.flc.holds with cancel := false } }
    can := { s.can with recs := s.can.recs.map drainedCanceller }
    cnb := { s.cnb with snap := t.cnb.snap }
    llk := t.llk } ∧
    t.cnb.snap = { number := nextSnapshot s.cnb.snap.number, pos := s.trk.belt, bank := s.cnb.bank, inTable := 0
                   utilisation := utilisationOf s.cnb.bank } ∧
    FlagSet .lineState (.line .standby .empty (some t.cnb.snap.number)) s t ∧ HoldMoved .cancel false s t ∧
    CancellersReported drainedCanceller s t ∧
    LinkKept [.lineState, .feedHold, .cancellerState] s t

/-- The line in DRAIN with an empty table left it for STANDBY: the cancellers sent to OFF, a snapshot taken (R116, R148, R170). The hold cause
set was judged before, in `s` (log entry 47). -/
structure DrainEmptied (s t : State) : Prop where
  rest    : t = { s with
    flc := { s.flc with line := .standby, drainLimit := none, holds := { s.flc.holds with cancel := false } }
    can := { s.can with recs := s.can.recs.map drainedCanceller }
    cnb := { s.cnb with snap :=
      { number := nextSnapshot s.cnb.snap.number, pos := s.trk.belt, bank := s.cnb.bank, inTable := 0
        utilisation := utilisationOf s.cnb.bank } }
    llk := t.llk }
  line    : FlagSet .lineState (.line .standby .empty (some t.cnb.snap.number)) s t
  cancels : CancellersReported drainedCanceller s t
  link    : LinkKept [.lineState, .cancellerState] s t

/-- A letter with the entry `e` and the cancel job `j` took its arm point (R103, R104): a pending job arms the letter, defers it or is skipped by
the state of its canceller, and any other is only marked. -/
def ArmTaken (n : LetterNo) (e : Entry) (c : Stream) (j : CancelJob) (s t : State) : Prop :=
  let r := s.can.recs.get c
  let density := if r.band = .hot then Density.reduced else .full
  let became := fun j' r' => t = { withEntry n { e with job := some { j' with armTaken := true } } s with
    can := { s.can with recs := s.can.recs.set c r' }
    llk := t.llk };
  (j.outcome ≠ .pending → became j r) ∧
  (j.outcome = .pending →
    (r.state = .ready → became { j with density := some density }
      { r with
        state := .arming, held := some n, replyTimer := some s.now
        frames := r.frames ++ [.impression
          { letter := n, direction := j.direction, density := density, length := j.winEnd - j.winStart, dater := j.dater }] }) ∧
    ((r.state = .arming ∨ r.state = .armed ∨ r.state = .printing) →
      (r.deferred = none → became j { r with deferred := some n }) ∧
      (r.deferred ≠ none → became { j with outcome := .skippedBusy } r)) ∧
    ((r.state = .off ∨ r.state = .priming ∨ r.state = .overheat ∨ r.state = .fault) →
      became { j with outcome := .skippedUnavailable } r))

/-- A letter with the entry `e` and the cancel job `j` took its fire point (R103, R105, R108): a pending job is printed with its strobe where the
letter is armed, and otherwise skipped, with ABORT and the deferred arm where its arming was under way; any other is only marked. -/
def FireTaken (n : LetterNo) (e : Entry) (c : Stream) (j : CancelJob) (s t : State) : Prop :=
  let r := s.can.recs.get c
  let became := fun o r' => t = { withEntry n { e with job := some { j with outcome := o, fireTaken := true } } s with
    can := { s.can with recs := s.can.recs.set c r' }
    llk := t.llk };
  (j.outcome ≠ .pending → became j.outcome r) ∧
  (j.outcome = .pending →
    (r.held = some n → r.state = .armed → became .pending { r with state := .printing, strobes := r.strobes ++ [n] }) ∧
    (r.held = some n → r.state = .arming → r.deferred = none →
      became .skippedBusy { r with state := .ready, held := none, replyTimer := none, frames := r.frames ++ [.abort] }) ∧
    (∀ m f k, r.held = some n → r.state = .arming → r.deferred = some m → m ≠ n → s.entry? m = some f → f.job = some k →
      let density := if r.band = .hot then Density.reduced else .full;
      t = { withEntry m { f with job := some { k with density := some density } }
          (withEntry n { e with job := some { j with outcome := .skippedBusy, fireTaken := true } } s) with
        can := { s.can with recs := s.can.recs.set c { r with
          held := some m, deferred := none, replyTimer := some s.now
          frames := r.frames ++ [.abort, .impression (impressionOf f k density)] } }
        llk := t.llk }) ∧
    (r.held ≠ some n ∨ r.state ≠ .armed ∧ r.state ≠ .arming → r.deferred = some n →
      became .skippedBusy { r with deferred := none }) ∧
    (r.held ≠ some n ∨ r.state ≠ .armed ∧ r.state ≠ .arming → r.deferred ≠ some n → became .skippedBusy r))

/-- The outcome the held letter takes where its module fails (R111). -/
def moduleFailure : CancState → Option CancelOutcome
  | .arming | .armed => some .skippedUnavailable
  | .printing => some .failed
  | .off | .priming | .ready | .overheat | .fault => none

/-- The value of a hexadecimal digit in either case (R179). -/
def hexValue (c : Byte) : Option Nat :=
  if 0x30 ≤ c.toNat ∧ c.toNat ≤ 0x39 then some (c.toNat - 0x30)
  else if 0x41 ≤ c.toNat ∧ c.toNat ≤ 0x46 then some (c.toNat - 0x41 + 10)
  else if 0x61 ≤ c.toNat ∧ c.toNat ≤ 0x66 then some (c.toNat - 0x61 + 10)
  else none

/-- A request on a link at rest is answered in the event it is completed: the effect `u`, the reply formed and its line begun (R180, R181,
R185), or waiting in POWERUP for the second line after a reset (R195). -/
def Answers (c : Instr) (s : State) (r : Reply) (u : State) : Prop :=
  exec c s = .next (replying r u)

/-- The state a record comes to at a change of its count, its sensor, its capacity or its near-full mark (R123): by count and sensor in OPEN,
NEAR_FULL and FULL, and otherwise as it was; an end bin has none (R122). -/
def stateAfter (p : Profile) (q : Pocket) (r : PocketRec) : PocketState :=
  if isBin q = true then r.state
  else match r.state with
    | .open | .nearFull | .full => stateByCount p q r
    | .sweepPending => .sweepPending
    | .sweep => .sweep
    | .disabled => .disabled

end Sys2Proof.Safety
end

