-- ==== Sys2Proof/Certificates/Slice0/Obligations.lean ====
section
/-! DEFINITION. The statements for the provers: how a step runs a command, the invariants every step keeps, and for each command of the
table the state it leaves. -/

open Sys2Proof Sys2Proof.Machine Sys2Proof.Safety

/-! ### Steps and invariants -/

/-- A step runs the command at the front of the queue on the state with the rest of the queue. -/
def Obligations.StepRunsFrontCommand : Prop :=
  ∀ (c : Instr) (rest : List Instr) (s : State), s.pending = c :: rest → step s = exec c { s with pending := rest }

/-- The state right after reset meets the invariants stated below. Its inputs, working profile and stored image are the model's choices
(log entries 7, 8, 9); the invariants hold of them. -/
def Obligations.ResetMeetsInvariants : Prop :=
  NumberedFromOne State.reset ∧ (∀ e ∈ State.reset.trk.table, Shaped e) ∧ InOrder State.reset ∧ NumbersYoung State.reset ∧
  TrackedByLine State.reset ∧ LineRecords State.reset ∧
  CancelHeld State.reset ∧ PocketsHeld State.reset ∧ (∀ c, CancellerSound (State.reset.can.recs.get c)) ∧
  StoppedInFault State.reset ∧
  CommittedCounts State.reset ∧ PocketsSwept State.reset ∧ CountsBalanced State.reset ∧
  (∀ h, HeadSound (State.reset.scu.heads.get h)) ∧ BuffersHeld State.reset ∧ ReportsSound State.reset ∧
  SecondLine State.reset ∧ AnswersSound State.reset ∧ ProfilesSound State.reset ∧ Bounded State.reset

/-- Letter numbers stay above 0, and entries keep the shape their decisions give them (R6, R7, R8, R77, R79, R82, R83). The Letter Table
stays in order of age and every number in it older than the next one, as long as every letter in it is one of the last 2^31 - 3
assigned, so that the order of numbers is that of assignment (R5, R7). -/
def Obligations.LettersSoundKept : Prop :=
  (∀ s t, NumberedFromOne s → (∀ e ∈ s.trk.table, Shaped e) → step s = .next t →
    NumberedFromOne t ∧ ∀ e ∈ t.trk.table, Shaped e) ∧
  (∀ s t, InOrder s → NumbersYoung s → step s = .next t → InOrder t)

/-- No letter is tracked in POWERUP, WARMUP and STANDBY, and the letters of the table are stranded exactly in FAULT (R142, R148, R155,
R157). The fault record, the warm-up timer, the run-up timer and the drain limit position stand exactly in FAULT, WARMUP, STARTING and
DRAIN (R143, R145, R146, R148, R155, R157). -/
def Obligations.LineStatesHoldTheirRecords : Prop :=
  (∀ s t, TrackedByLine s → step s = .next t → TrackedByLine t) ∧
  (∀ s t, LineRecords s → step s = .next t → LineRecords t)

/-- The hold cause CANCEL stays present exactly while CANCEL_POLICY is HOLD, the line is in STARTING or RUN and a canceller is
unavailable (R117); and the hold cause POCKETS and the blocked set stay as R138 gives them, empty until the end of POWERUP (R141, log
entry 22). The classes judged, the pockets each may use, and the states in which a pocket takes letters (R121, R138). -/
def Obligations.HoldCausesFollowOwners : Prop :=
  (∀ s t, CancelHeld s → PocketsHeld s → step s = .next t → CancelHeld t ∧ PocketsHeld t) ∧
  (∀ s (c : BlockClass),
    let takes := fun q => (s.pkc.recs.get q).state = .open ∨ (s.pkc.recs.get q).state = .nearFull;
    isBlocked s c = true ↔ match c with
      | .on st k => k ≠ .overflow ∧ ∀ x ∈ stackOn st, (s.pfs.profile.stack.get x).fit = true →
          ((s.pfs.profile.stack.get x).cls = k ∨ (s.pfs.profile.stack.get x).cls = .overflow) → ¬ takes (stackPocket x)
      | .machine => ¬ takes .rm
      | .manual => ¬ takes .rh) ∧
  stackOn .a = [.a1, .a2, .a3, .a4, .a5, .a6] ∧ stackOn .b = [.b1, .b2, .b3, .b4, .b5, .b6]

/-- Each canceller's held letter, deferred letter, fault cause, timers and parity run stay in the states R97 gives for them, and while the
line is in FAULT each canceller stays in OFF or FAULT (R114, R115). -/
def Obligations.CancellersSoundKept : Prop :=
  (∀ s t, (∀ c, CancellerSound (s.can.recs.get c)) → step s = .next t → ∀ c, CancellerSound (t.can.recs.get c)) ∧
  (∀ s t, StoppedInFault s → step s = .next t → StoppedInFault t)

/-- Every pocket's committed count stays the number of entries naming it (R128), and a pocket in SWEEP or DISABLED has none (R130, R133,
R134, R135). -/
def Obligations.CommittedCountsKept : Prop :=
  ∀ s t, CommittedCounts s → PocketsSwept s → step s = .next t → CommittedCounts t ∧ PocketsSwept t

/-- The sums of R163 and R164 hold after every step, in the live bank and in the snapshot. -/
def Obligations.CountsStayBalanced : Prop :=
  ∀ s t, CountsBalanced s → step s = .next t → CountsBalanced t

/-- Head records and scan buffers stay sound: the buffers agree with the work list, the computing slot and the capture slot (R36, R37,
R43, R45, R53, R71). -/
def Obligations.ScanUnitSoundKept : Prop :=
  ∀ s t, (∀ h, HeadSound (s.scu.heads.get h)) → BuffersHeld s → step s = .next t →
    (∀ h, HeadSound (t.scu.heads.get h)) ∧ BuffersHeld t

/-- The pending reports hold each kind at most once, and only kinds whose flag is set and unmasked (R187, R188). Where R195 holds
against R185, a free value (log entry 49), after a reset whose stored image fails its check no line but that of RESET is sent in POWERUP, and
the report of PROFILE_DEFAULTED stays the line to follow it, unless an ACK or a MASK withdraws it. -/
def Obligations.ReportsSoundKept : Prop :=
  (∀ s t, ReportsSound s → step s = .next t → ReportsSound t) ∧
  (∀ s t, SecondLine s → step s = .next t → SecondLine t) ∧
  (∀ c s t, exec c s = .next t → ¬ Resets c s → s.llk.opening = .loading → c ≠ .profileLoadComplete →
    t.llk.opening = .loading ∧ (t.llk.tx = s.llk.tx ∨ t.llk.tx = none)) ∧
  (∀ c s t, exec c s = .next t → ¬ Resets c s → s.llk.opening = .due → c ≠ .profileLoadComplete →
    t.llk.tx = s.llk.tx ∧ t.llk.opening = .due ∨
    t.llk.opening = .done ∧ (t.llk.tx = some (.report .profileDefaulted (t.llk.flags.get .profileDefaulted).detail) ∨
      .profileDefaulted ∉ t.llk.reports))

/-- The answer list stays sound: at most 8 items, none waiting that could be taken, a SAVE in progress exactly while its write is, and
the reply being sent is the oldest item's (R180, R184, R196). -/
def Obligations.AnswersSoundKept : Prop :=
  ∀ s t, AnswersSound s → step s = .next t → AnswersSound t

/-- Every parameter of the working profile, of the stored image and of a write in progress stays in its range (R183, R191, R192). The
parameters by name, each with its range and its factory default, distances in counts, a speed in hundredths of m/s, LINK_TIMEOUT in
tenths of a second (R191, R192). The default of MIN_GAP is R191's 60 mm or R12's 64 mm: the two rules disagree, and which of them holds is a
free value (log entry 13). -/
def Obligations.ProfilesStayInRange : Prop :=
  (∀ s t, ProfilesSound s → step s = .next t → ProfilesSound t) ∧
  (let numbers : List (Text × Param × Nat × Nat × Nat) :=
    [(text "SLIP_TOL", .slipTol, 16, 160, 48), (text "MIN_BLOCK", .minBlock, 8, 80, 32),
      (text "HOLD_AT", .holdAt, 8, 62, 56), (text "RELEASE_AT", .releaseAt, 0, 61, 40), (text "LNOM", .lnom, 256, 960, 800),
      (text "W", .w, 4, 24, 12), (text "Z", .z, 10, 30, 25), (text "T_PH", .tPh, 0, 24552, 2400), (text "T_MT", .tMt, 0, 24552, 3000),
      (text "T_BR", .tBr, 0, 24552, 4000), (text "Q_MIN", .qMin, 16, 240, 64), (text "AMBIG", .ambig, 8, 16, 12),
      (text "MIN_MERGE_GAP", .minMergeGap, 40, 800, 160), (text "PRE", .pre, 0, 160, 32), (text "IMP_LEN", .impLen, 160, 480, 400),
      (text "ARM_DIST", .armDist, 80, 800, 400), (text "DONE_MARGIN", .doneMargin, 20, 200, 80),
      (text "CAL_INTERVAL", .calInterval, 2, 60, 10), (text "EVENT_REPEAT", .eventRepeat, 1, 60, 5),
      (text "LINK_TIMEOUT", .linkTimeout, 5, 100, 20), (text "MIN_RUN_SPEED", .minRunSpeed, 100, 400, 300),
      (text "DRAIN_LIMIT", .drainLimit, 5, 200, 30), (text "CLEAN_RUN", .cleanRun, 50, 5000, 500), (text "FAULT_LIMIT", .faultLimit, 1, 8, 3),
      (text "SETTLE_G1", .settle .g1, 40, 320, 160), (text "SETTLE_GR", .settle .gr, 40, 320, 160),
      (text "SETTLE_G2", .settle .g2, 40, 320, 160), (text "SETTLE_PKT", .settle .pkt, 40, 320, 160),
      (text "RM_CAP", .rmCap, 100, 3000, 1000), (text "RH_CAP", .rhCap, 100, 3000, 1000), (text "RM_NEAR", .rmNear, 50, 2999, 900),
      (text "RH_NEAR", .rhNear, 50, 2999, 900)]
   let names : List (Text × Param × Text) :=
    [(text "BRIGHT_POLICY", .brightPolicy, text "MANUAL"), (text "CANCEL_POLICY", .cancelPolicy, text "DIVERT"),
      (text "PERSIST_PARITY", .persistParity, text "OFF"), (text "DEGRADE_POLICY", .degradePolicy, text "CONTINUE"),
      (text "RECORDS", .records, text "ON"), (text "REPORT_HOLD", .reportHold, text "OFF"), (text "TWIST", .twist, text "NONE"),
      (text "TOWER_GREEN", .tower .green, text "FEEDING"),
      (text "TOWER_AMBER", .tower .amber, text "POCKET_ATTENTION,HEAD_ATTENTION,CANCEL_ATTENTION"),
      (text "TOWER_RED", .tower .red, text "FAULT"), (text "TOWER_HORN", .tower .horn, text "-")]
   let default := fun p => Profile.factory.read p;
   (∀ name p lo hi n, (name, p, lo, hi, n) ∈ numbers → readParam name = some p ∧ paramRange p = (lo, hi) ∧ default p = some (.num n)) ∧
   (∀ name p v, (name, p, v) ∈ names → readParam name = some p ∧ valueText (paramForm p) (default p) = v) ∧
   readParam (text "MIN_GAP") = some .minGap ∧ paramRange .minGap = (120, 800) ∧
   default .minGap = some (.num (if Config.minGapOfR12 = true then 256 else 240)) ∧
   paramRange .twist = (800, 8000) ∧
   (∀ x, readParam (text "STN_" ++ stationName x) = some (.stn x) ∧ paramRange (.stn x) = (4, 40000) ∧ default (.stn x) = none) ∧
   (∀ x,
     readParam (stackName x ++ text "_FIT") = some (.fit x) ∧ valueText (paramForm (.fit x)) (default (.fit x)) = text "NO" ∧
     readParam (stackName x ++ text "_CLASS") = some (.cls x) ∧ valueText (paramForm (.cls x)) (default (.cls x)) = text "OVERFLOW" ∧
     readParam (stackName x ++ text "_CAP") = some (.cap x) ∧ paramRange (.cap x) = (100, 3000) ∧ default (.cap x) = some (.num 1000) ∧
     readParam (stackName x ++ text "_NEAR") = some (.near x) ∧ paramRange (.near x) = (50, 2999) ∧
     default (.near x) = some (.num 900)))

/-- Every list and count stays within the bound its rule gives (R4, R5, R86, R158, R168, R169, R174, R178, R180). -/
def Obligations.BoundsKept : Prop :=
  ∀ s t, Bounded s → step s = .next t → Bounded t

/-! ### Reset, profile load, belt and speed -/

/-- POWER_ON_RESET leaves every block at the values of R20, R34, R52, R75, R94, R120, R141, R161, R177 and R189, the encoder copies running
from it (R95, R120). The cancellers' arm distance and done margin, and the working profile before its load, are the model's choices
(log entries 24, 8); that the transmitter begins the RESET report in the event of the reset is log entry 12, and what the encoder
copies give is log entry 33. Where the stored image fails its check, the report of PROFILE_DEFAULTED may have to follow that of RESET, a free value
(R189, log entry 49). -/
def Obligations.PowerOnResetValues : Prop :=
  ∀ s, ∃ t, exec .powerOnReset s = .next t ∧
    t.trk = { belt := 0, samples := List.replicate 16 0, speed := 0, table := [], nextNumber := 1, measuring := none
              overTaken := false, prevTail := none } ∧
    (∀ c, t.pcm.cells.get c = { raw := (s.pcm.cells.get c).raw, qual := (s.pcm.cells.get c).raw, change := none }) ∧
    (∀ c, t.pcm.sups.get c = { expected := [], passing := none }) ∧
    (∀ h, t.scu.heads.get h =
      { state := .cold, run := 0, code := 8, refCode := 8, lref := 0, out := none, waiting := [] }) ∧
    (∀ b, (t.scu.bufs.get b).phase = .free ∧ (t.scu.bufs.get b).letter = none) ∧ t.scu.calStart = 0 ∧ t.scu.calDue = false ∧
    t.mkf = { work := [], slot := none, capture := .off } ∧
    (∀ g, t.ptc.gates.get g =
      { setting := (match g with | .g1 => .reject | .g2 => .a | .gr => .machine | _ => .pass)
        settle := none, user := none, queue := [] }) ∧ t.ptc.merge = none ∧
    (∀ c, (t.can.recs.get c).state = .off ∧ (t.can.recs.get c).held = none ∧ (t.can.recs.get c).deferred = none ∧
      (t.can.recs.get c).cause = none ∧ (t.can.recs.get c).parityRun = 0 ∧ (t.can.recs.get c).band = .normal ∧
      (t.can.recs.get c).module = .unprimed ∧ (t.can.recs.get c).faultCode = none ∧ (t.can.recs.get c).primeTimer = none ∧
      (t.can.recs.get c).replyTimer = none ∧ (t.can.recs.get c).frames = [.standby] ∧ (t.can.recs.get c).strobes = [] ∧
      encoderCopy t c = 0) ∧ t.can.dater = none ∧
    (∀ q, t.pkc.recs.get q =
      { count := 0, committed := 0
        state := (if (s.pkc.recs.get q).raw = .active ∧ isBin q = false then .full else .open)
        raw := (s.pkc.recs.get q).raw, sensor := (s.pkc.recs.get q).raw, change := none, press := none }) ∧
    t.pkc.blocked = [] ∧
    t.flc = { line := .powerup, holds := ⟨false, false, false, false, false⟩, countdown := none, fault := none, faultCount := 0
              cleanRun := 0, runUp := none, runUpQual := none, warmup := none, drainLimit := none, estop := s.flc.estop, horn := none } ∧
    t.cnb = { bank := zeroBank, remainder := 0, snap := { number := 0, pos := 0, bank := zeroBank, inTable := 0, utilisation := 0 }
              records := [] } ∧
    t.llk.rx = { buf := [], overlong := false, bad := false, crNoted := false, crLast := false, lastChar := 0 } ∧
    t.llk.answers = [] ∧ t.llk.restarting = false ∧ t.llk.silenceStart = 0 ∧ t.llk.silent = false ∧ t.now = 0 ∧
    t.llk.reports = [] ∧ t.llk.tx = some (.report .reset (some (.reset .power))) ∧
    t.llk.opening = (if ImagePasses t.pfs.image ∨ Config.defaultedSecond = false then .done else .loading) ∧
    (∀ k, t.llk.flags.get k =
      if k = .reset then { set := true, detail := some (.reset .power), masked := false, repeating := none }
      else { set := false, detail := none, masked := false, repeating := none }) ∧
    (s.pfs.saving = none → t.pfs.image = s.pfs.image) ∧
    (s.pfs.saving ≠ none → ¬ ImagePasses t.pfs.image) ∧ t.pfs.saving = none ∧
    t.pending = s.pending

/-- Power-on reset and the RESTART request leave the Photocell Monitor (R34) and the Mark Finder (R75) in the same state. -/
def Obligations.ResetsOfPhotocellsAndMarkFinder : Prop :=
  ∀ s c, (c = .powerOnReset ∨ c = .transmitLineComplete ∧ s.llk.tx = some (.reply (.ok (text "RESTART") []))) →
    ∃ t, exec c s = .next t ∧
      (∀ x, (t.pcm.cells.get x).raw = (s.pcm.cells.get x).raw ∧ (t.pcm.cells.get x).qual = (s.pcm.cells.get x).raw ∧
        (t.pcm.cells.get x).change = none) ∧
      (∀ x, (t.pcm.sups.get x).expected = [] ∧ (t.pcm.sups.get x).passing = none) ∧ t.flc.line = .powerup ∧
      t.mkf.work = [] ∧ t.mkf.slot = none ∧ t.mkf.capture = .off ∧ (∀ b, (t.scu.bufs.get b).phase = .free) ∧
      (t.llk.flags.get .captureDone).set = false

/-- At every event but a reset, a crossing of the hold cause set between empty and not empty sets FEED_HOLD with its detail, its one
report pending or begun with that detail, and no other change of the set sets it; a crossing to not empty counts HOLD_CROSSINGS, but where
a ZERO is taken in the event or waits to be (R172). The set is judged once per event (log entry 47). A reset leaves the set empty and the
flag clear. A pending report keeps its place. The condition of FEED_HOLD is that the set is not empty, and while it holds the report is
repeated at the repeat timer (R152). -/
def Obligations.HoldCrossingsSetTheFlag : Prop :=
  (∀ c s t, exec c s = .next t → ¬ Resets c s → (s.flc.line = .drain → s.flc.holds.cancel = false) →
    let f := s.llk.flags.get .feedHold
    let f' := t.llk.flags.get .feedHold
    let detail := if t.flc.holds.any then Detail.held t.flc.holds.present else .released;
    (s.flc.holds.any ≠ t.flc.holds.any → f'.set = true ∧ f'.detail = some detail ∧
      (f'.masked = false → .feedHold ∈ t.llk.reports ∨ t.llk.tx = some (.report .feedHold (some detail)))) ∧
    (s.flc.holds.any = t.flc.holds.any → f'.detail = f.detail ∧ (f'.set = true → f.set = true)) ∧
    let zeroes := c = .zero ∨ (∃ b e, c = .characterReceived b e ∧ classify s.llk.rx = .request .zero) ∨ .waiting .zero ∈ s.llk.answers;
    (¬ zeroes → t.cnb.bank.line.holdCrossings =
      if s.flc.holds.any = false ∧ t.flc.holds.any = true then s.cnb.bank.line.holdCrossings + 1
      else s.cnb.bank.line.holdCrossings)) ∧
  (∀ c s, Resets c s → ∃ t, exec c s = .next t ∧ t.flc.holds = ⟨false, false, false, false, false⟩ ∧
    (t.llk.flags.get .feedHold).set = false) ∧
  (∀ held s,
    let t := judgeHold held s;
    (s.flc.holds.any = held → t = s) ∧
    (s.flc.holds.any ≠ held →
      t = { s with
        cnb := { s.cnb with bank := { s.cnb.bank with line := { s.cnb.bank.line with
          holdCrossings := t.cnb.bank.line.holdCrossings } } }
        llk := { s.llk with flags := t.llk.flags, reports := t.llk.reports } } ∧
      (∀ k, k ≠ .feedHold → t.llk.flags.get k = s.llk.flags.get k) ∧
      t.llk.reports =
        if (s.llk.flags.get .feedHold).masked = true ∨ .feedHold ∈ s.llk.reports then s.llk.reports
        else s.llk.reports ++ [.feedHold])) ∧
  (∀ s, condition s .feedHold = true ↔ s.flc.holds ≠ ⟨false, false, false, false, false⟩) ∧
  (∀ s t0, s.pfs.profile.eventRepeat ≠ 0 → s.llk.tx ≠ none → (s.llk.flags.get .feedHold).repeating = some t0 →
    ∃ t, exec (.eventRepeatExpiry .feedHold) s = .next t ∧ t.llk.reports =
      if (s.llk.flags.get .feedHold).set = true ∧ (s.llk.flags.get .feedHold).masked = false ∧ s.flc.holds.any = true ∧
        .feedHold ∉ s.llk.reports
      then s.llk.reports ++ [.feedHold] else s.llk.reports)

/-- PROFILE_LOAD_COMPLETE in POWERUP: the working profile from the image or the factory defaults, WARMUP with its timer, the blocked
set judged, the repeat timers stopped where the loaded EVENT_REPEAT is 0, and the calibration due on entry to WARMUP taken where the
station is free (R41, R138, R143, R187, R194, R195). Where the image fails its check, the report of PROFILE_DEFAULTED is the next line sent,
behind that of RESET and ahead of every reply and report of POWERUP (R195), or takes its turn behind them (R185, R187): the rules disagree, and
which holds is a free value (log entry 49). Where nothing waits in POWERUP it is the next line under both. -/
def Obligations.ProfileLoadEntersWarmup : Prop :=
  ∀ s, s.flc.line = .powerup → ∃ t, exec .profileLoadComplete s = .next t ∧
    let u := if t.pfs.profile.eventRepeat = 0 then timersStopped s else s;
    t = { withHolds s t with
      pfs := { s.pfs with profile := if ImagePasses s.pfs.image then s.pfs.image.contents else Profile.factory }
      flc := { s.flc with line := .warmup, warmup := some s.now, holds := t.flc.holds }
      pkc := { s.pkc with blocked := t.pkc.blocked }
      scu := t.scu, llk := t.llk } ∧
    t.flc.holds = { s.flc.holds with cancel := false, pockets := !t.pkc.blocked.isEmpty } ∧ HoldJudged u t ∧
    (∀ c, c ∈ t.pkc.blocked ↔ isBlocked t c = true) ∧
    FlagSet .lineState (.line .warmup .loaded none) u t ∧
    (s.pfs.image.format ≠ 1 → FlagSet .profileDefaulted (.defaulted .format) u t) ∧
    (s.pfs.image.format = 1 → ¬ ImagePasses s.pfs.image → FlagSet .profileDefaulted (.defaulted .crc) u t) ∧
    (ImagePasses s.pfs.image → t.llk.flags.get .profileDefaulted = u.llk.flags.get .profileDefaulted) ∧
    LinkKept [.lineState, .profileDefaulted, .feedHold]
      { u with llk := { u.llk with
          opening := if ImagePasses s.pfs.image ∨ Config.defaultedSecond = false then .done else .due } } t ∧
    (¬ ImagePasses s.pfs.image → (s.llk.flags.get .profileDefaulted).masked = false →
      let line := TxLine.report .profileDefaulted (some (.defaulted (if s.pfs.image.format = 1 then .crc else .format)))
      let begun := t.llk.tx = some line ∧ .profileDefaulted ∉ t.llk.reports ∧ t.llk.opening = .done
      let waits := .profileDefaulted ∈ t.llk.reports
      let replyReady := ∃ r rest, s.llk.answers = .answered r :: rest;
      (s.llk.tx = none → ¬ replyReady → s.llk.reports = [] → begun) ∧
      (∀ r rest, s.llk.tx = none → s.llk.answers = .answered r :: rest →
        begun ∧ Config.defaultedSecond = true ∨ t.llk.tx = some (.reply r) ∧ waits ∧ Config.defaultedSecond = false) ∧
      (∀ k rest, s.llk.tx = none → ¬ replyReady → s.llk.reports = k :: rest → k ≠ .profileDefaulted →
        begun ∧ Config.defaultedSecond = true ∨
          t.llk.tx = some (.report k (t.llk.flags.get k).detail) ∧ waits ∧ Config.defaultedSecond = false) ∧
      (∀ l, s.llk.tx = some l → t.llk.tx = some l ∧ waits ∧
        t.llk.opening = if Config.defaultedSecond = false then .done else .due)) ∧
    (stationFree s = true → Calibrated s t) ∧ (stationFree s = false → t.scu = { s.scu with calDue := true })

/-- ENCODER_COUNT: the belt position, modulo 2^32 (R1), with it the encoder copies of the print links (R95, R120; log entry 33), and in RUN
the travel remainder and BELT_RUN_MM (R168); nothing else, since the positions a count reaches are commands of their own (log entry 3).
A forward count taken in a punctual state reaches no scheduled position but the very position the belt now stands at (R2, R3).
SPEED_RESULT: the
measured speed from the net change over the last 16 ms (R4), the run-up qualification in STARTING (R145). The clock moves on by a
millisecond, the model's choice (log entry 2). PREVIOUS_TAIL_DROP and MERGE_TAIL_DROP: a tail the belt has passed by 1000 m, 4 000 000
counts, is dropped, and nothing else changes (R2, R9, R80). -/
def Obligations.BeltCountsSpeedAndTails : Prop :=
  (∀ s m, ∃ t, exec (.encoderCount m) s = .next t ∧
    t = { s with
      trk := { s.trk with belt := match m with | .forward => s.trk.belt + 1 | .reverse => s.trk.belt - 1 }
      cnb := { s.cnb with remainder := t.cnb.remainder, bank := { s.cnb.bank with line :=
        { s.cnb.bank.line with beltRunMm := t.cnb.bank.line.beltRunMm } } } } ∧
    (∀ c, encoderCopy t c = match m with | .forward => encoderCopy s c + 1 | .reverse => encoderCopy s c - 1) ∧
    (s.flc.line ≠ .run → t.cnb = s.cnb) ∧
    (s.flc.line = .run → -3 ≤ s.cnb.remainder → s.cnb.remainder ≤ 3 →
      let mm := s.cnb.bank.line.beltRunMm
      (t.cnb.remainder, t.cnb.bank.line.beltRunMm) = match m with
        | .forward => if s.cnb.remainder = 3 then (0, mm + 1) else (s.cnb.remainder + 1, mm)
        | .reverse => if s.cnb.remainder = -3 then (0, mm - 1) else (s.cnb.remainder - 1, mm))) ∧
  (∀ s t, Punctual s → exec (.encoderCount .forward) s = .next t →
    ∀ e ∈ t.trk.table, ∀ p ∈ positions t e, reached t.trk.belt (at' e.anchor p.2) = true → at' e.anchor p.2 = t.trk.belt) ∧
  (∀ s oldest, s.trk.samples.getLast? = some oldest → ∃ t, exec .speedResult s = .next t ∧
    t = { s with
      now := s.now + 1
      trk := { s.trk with speed := t.trk.speed, samples := s.trk.belt :: s.trk.samples.dropLast }
      flc := { s.flc with runUpQual := t.flc.runUpQual } } ∧
    t.trk.speed =
      (if (s.trk.belt - oldest).toInt ≤ 0 then 0
      else if (s.trk.belt - oldest).toInt ≤ 320 then (s.trk.belt - oldest).toInt.toNat * 100 / 64
      else 500) ∧
    (s.flc.line ≠ .starting → t.flc.runUpQual = s.flc.runUpQual) ∧
    (s.flc.line = .starting → t.trk.speed < s.pfs.profile.minRunSpeed → t.flc.runUpQual = none) ∧
    (s.flc.line = .starting → s.pfs.profile.minRunSpeed ≤ t.trk.speed →
      t.flc.runUpQual = some (match s.flc.runUpQual with | some t0 => t0 | none => s.now + 1))) ∧
  (∀ s,
    (∀ p, s.trk.prevTail = some p → reached s.trk.belt (p + 4000000) = true →
      exec .previousTailDrop s = .next { s with trk := { s.trk with prevTail := none } }) ∧
    (∀ m, s.ptc.merge = some m → reached s.trk.belt (m.tail + 4000000) = true →
      exec .mergeTailDrop s = .next { s with ptc := { s.ptc with merge := none } }))

/-- The events that call for a fault stop make the fault stop of R155: the PE0 jam (R15), the missing position (R29), the blocked
position (R31), the drain limit (R148), the run-up limit (R145), ESTOP asserted (R154). ESTOP_CHANGE where no fault stop follows:
released, or asserted while the line is not in STARTING, RUN or DRAIN, it changes the recorded input alone (R154). The clock at the
run-up limit is the model's (log entry 2), and so is the order of the flags of one event (log entry 19). -/
def Obligations.FaultAndEstopEvents : Prop :=
  (∀ s, running s = true →
    (∀ n e, s.trk.measuring = some n → s.entry? n = some e →
      reached s.trk.belt (at' e.anchor (2401 + s.pfs.profile.minBlock : Nat)) = true →
      ∃ t, exec .pe0JamPosition s = .next t ∧ FaultStopped (.jam .pe0 .blocked) s t) ∧
    (∀ c n e, n ∈ (s.pcm.sups.get c).expected → s.entry? n = some e →
      reached s.trk.belt (at' e.anchor (supDist s.pfs.profile e c + s.pfs.profile.slipTol + s.pfs.profile.minBlock + 1 : Nat)) = true →
      ∃ t, exec (.missingPosition c n) s = .next t ∧ FaultStopped (.jam (supCell c) .missing) s t) ∧
    (∀ c p, (s.pcm.sups.get c).passing = some p → reached s.trk.belt p.blocked = true →
      ∃ t, exec (.blockedPosition c) s = .next t ∧ FaultStopped (.jam (supCell c) .blocked) s t) ∧
    (∀ p, s.flc.line = .drain → s.flc.drainLimit = some p → reached s.trk.belt p = true →
      ∃ t, exec .drainLimitPosition s = .next t ∧ FaultStopped .drain s t) ∧
    (∀ t0, s.flc.line = .starting → s.flc.runUp = some t0 →
      ∃ t, exec .runUpLimit s = .next t ∧ FaultStopped .speed { s with now := max s.now (t0 + 3000) } t) ∧
    (s.flc.estop = false →
      ∃ t, exec (.estopChange true) s = .next t ∧ FaultStopped .estop { s with flc := { s.flc with estop := true } } t)) ∧
  (∀ s b, (b = false ∨ running s = false) → ∃ t, exec (.estopChange b) s = .next t ∧
    t = { s with flc := { s.flc with estop := b }, llk := t.llk } ∧ LinkKept [] s t)

/-! ### Photocells and the PE0 measurement -/

/-- PHOTOCELL_RAW_CHANGE records or drops the pending change (R21), and PHOTOCELL_QUALIFY_TIME, outside STARTING, RUN and DRAIN,
qualifies it with no edge handed on (R22, R33). A calibration that is due is taken where PE1 has left the station free (R41). The
clock is the model's (log entry 2). -/
def Obligations.PhotocellChangesQualify : Prop :=
  ∀ s c,
    (∀ l, (s.pcm.cells.get c).raw ≠ l → ∃ t, exec (.photocellRawChange c l) s = .next t ∧
      t = { s with pcm := { s.pcm with cells := t.pcm.cells }, scu := t.scu } ∧
      t.pcm.cells.get c = { s.pcm.cells.get c with
        raw := l, change := if l = (s.pcm.cells.get c).qual then none else some { pos := s.trk.belt, time := s.now } } ∧
      (∀ d, d ≠ c → t.pcm.cells.get d = s.pcm.cells.get d) ∧
      (c ≠ .pe1 → t.scu = s.scu) ∧ (c = .pe1 → CalibratedIfFree s t)) ∧
    (∀ ch, running s = false → s.trk.measuring = none → (s.pcm.cells.get c).change = some ch →
      ∃ t, exec (.photocellQualifyTime c) s = .next t ∧
      t = { s with
        now := max s.now (ch.time + 20)
        pcm := { s.pcm with cells := t.pcm.cells }
        scu := t.scu, llk := t.llk } ∧
      t.pcm.cells.get c = { s.pcm.cells.get c with qual := (s.pcm.cells.get c).raw, change := none } ∧
      (∀ d, d ≠ c → t.pcm.cells.get d = s.pcm.cells.get d) ∧
      (c ≠ .pe1 → t.scu = s.scu) ∧ (c = .pe1 → CalibratedIfFree { s with now := t.now } t) ∧ LinkKept [] s t)

/-- PHOTOCELL_QUALIFY_TRAVEL at a blocking of PE0 with the measurement record IDLE: below 64 entries the induction of R10, with the gap
check (R12), the place on PE1's list (R24) and the hold cause TABLE (R19); at 64 the fault stop OVERRUN (R11). -/
def Obligations.BlockingOfPe0Inducts : Prop :=
  ∀ s ch, running s = true → (s.pcm.cells.get .pe0).raw = .blocked → (s.pcm.cells.get .pe0).change = some ch →
    (s.pfs.profile.minBlock : Int) ≤ distance ch.pos s.trk.belt → s.trk.measuring = none →
    ∃ t, exec (.photocellQualifyTravel .pe0) s = .next t ∧
      t.pcm.cells = { s.pcm.cells with pe0 := { raw := .blocked, qual := .blocked, change := none } } ∧
      (64 ≤ s.trk.table.length →
        FaultStopped .overrunTable { s with pcm := { s.pcm with cells := t.pcm.cells } } t) ∧
      (s.trk.table.length < 64 →
        t = { withHolds s t with
          trk := { s.trk with
            table := t.trk.table, measuring := some s.trk.nextNumber, overTaken := false
            nextNumber := if s.trk.nextNumber = 4294967295 then 1 else s.trk.nextNumber + 1 }
          pcm := t.pcm, cnb := t.cnb, llk := t.llk } ∧
        (∃ e, t.trk.table = s.trk.table ++ [e] ∧ e.number = s.trk.nextNumber ∧ e.anchor = ch.pos ∧ e.length0 = none ∧
          e.length1 = none ∧ e.scan = .none ∧ e.latched = none ∧ e.result = none ∧ e.late = false ∧ e.path = none ∧
          e.stream = none ∧ e.job = none ∧ e.pocket = none ∧ e.lastPe = .pe0 ∧ e.stranded = false ∧ e.shTaken = false ∧
          e.inStation = false ∧
          (if ∃ p, s.trk.prevTail = some p ∧ distance p ch.pos < s.pfs.profile.minGap then e.early = some .gap ∧ e.cause = some .gap
          else e.early = none ∧ e.cause = none)) ∧
        (∃ l r, (s.pcm.sups.get .pe1).expected = l ++ r ∧
          (t.pcm.sups.get .pe1) = { s.pcm.sups.get .pe1 with expected := l ++ s.trk.nextNumber :: r } ∧
          (∀ m ∈ l, older m s.trk.nextNumber = true) ∧ (∀ m, r.head? = some m → older m s.trk.nextNumber = false)) ∧
        (∀ c, c ≠ .pe1 → t.pcm.sups.get c = s.pcm.sups.get c) ∧
        t.cnb = { s.cnb with bank := { s.cnb.bank with
          flow := { s.cnb.bank.flow with inducted := s.cnb.bank.flow.inducted + 1 }
          line := { s.cnb.bank.line with holdCrossings := t.cnb.bank.line.holdCrossings } } } ∧
        (s.trk.table.length + 1 = s.pfs.profile.holdAt → HoldMoved .table true s t) ∧
        (s.trk.table.length + 1 ≠ s.pfs.profile.holdAt → t.flc = s.flc ∧ t.cnb.bank.line = s.cnb.bank.line) ∧
        LinkKept (if s.trk.table.length + 1 = s.pfs.profile.holdAt then [.feedHold] else []) s t)

/-- PHOTOCELL_QUALIFY_TRAVEL at a clearing of PE0 while MEASURING takes the tail (R13, R167), and OVER_LENGTH_POSITION gives OFFSIZE
at its position (R14). -/
def Obligations.TailOfPe0TakesLength : Prop :=
  ∀ s n e, running s = true → s.trk.measuring = some n → s.entry? n = some e →
    (∀ ch, (s.pcm.cells.get .pe0).raw = .clear → (s.pcm.cells.get .pe0).change = some ch →
      (s.pfs.profile.minBlock : Int) ≤ distance ch.pos s.trk.belt →
      ∃ t len, exec (.photocellQualifyTravel .pe0) s = .next t ∧ len = (ch.pos - e.anchor).toInt.toNat ∧
        t = { withEntry n
            (if 480 ≤ len ∧ len ≤ 1200 then { e with length0 := some len } else withOffsize { e with length0 := some len })
            { s with trk := { s.trk with prevTail := some ch.pos, measuring := none, overTaken := false } } with
          pcm := { s.pcm with cells := { s.pcm.cells with pe0 := { raw := .clear, qual := .clear, change := none } } }
          cnb := { s.cnb with bank := { s.cnb.bank with lengths := t.cnb.bank.lengths } }
          llk := t.llk } ∧
        (∀ b, t.cnb.bank.lengths.get b =
          if b = (if len < 480 then .short else if len < 600 then .b120 else if len < 720 then .b150 else if len < 840 then .b180
            else if len < 960 then .b210 else if len < 1080 then .b240 else if len ≤ 1200 then .b270 else .long)
          then s.cnb.bank.lengths.get b + 1 else s.cnb.bank.lengths.get b) ∧
        LinkKept [] s t) ∧
    (s.trk.overTaken = false → reached s.trk.belt (at' e.anchor (1201 + s.pfs.profile.minBlock : Nat)) = true →
      exec .overLengthPosition s = .next (withEntry n (withOffsize e) { s with trk := { s.trk with overTaken := true } }))

/-- PHOTOCELL_QUALIFY_TRAVEL at an arrival (R23, R26 to R29). A match corrects the anchor, moves the list head to the passing slot, and
shifts with the anchor the merge tail (R80) and the letter's pulses that wait on a head link (R48), placed again by position among
the others (R36; log entry 45). The positions of the letter that the match brings to be reached are then taken in the same event, the
earliest first, each with the action of its own command (R27; at equal distance log entry 38), at most 200 of them; the hold cause set is
judged once (log entry 47), and a drain may end. The other cases stop the line. The scheduled positions of a letter not yet taken, with
their distances from its anchor (R3, R24, R25). -/
def Obligations.ArrivalsMatchOrStop : Prop :=
  (∀ s c ch, running s = true → s.pfs.profile.slipTol ≤ 160 → (s.pcm.cells.get (supCell c)).raw = .blocked →
    (s.pcm.cells.get (supCell c)).change = some ch → (s.pfs.profile.minBlock : Int) ≤ distance ch.pos s.trk.belt →
    ∃ t, exec (.photocellQualifyTravel (supCell c)) s = .next t ∧
    let u := { s with
      pcm := { s.pcm with cells := s.pcm.cells.set (supCell c) { raw := .blocked, qual := .blocked, change := none } } };
    ((s.pcm.sups.get c).expected = [] → FaultStopped (.stray (supCell c)) u t) ∧
    (∀ n rest e, (s.pcm.sups.get c).expected = n :: rest → s.entry? n = some e →
      let d := supDist s.pfs.profile e c;
      let off := (ch.pos - at' e.anchor d).toInt;
      (off < -(s.pfs.profile.slipTol : Int) → FaultStopped (.stray (supCell c)) u t) ∧
      ((s.pfs.profile.slipTol : Int) < off → off < 2147483648 - (s.pfs.profile.slipTol : Int) →
        FaultStopped (.jam (supCell c) .missing) u t) ∧
      (-(s.pfs.profile.slipTol : Int) ≤ off → off ≤ s.pfs.profile.slipTol →
        let limit := if c = .pe1 then 2400 else e.length0.getD 0 + 2 * s.pfs.profile.slipTol
        let e' := { e with
          anchor := ch.pos - BitVec.ofNat 32 d
          lastPe := supCell c
          inStation := decide (c = .pe1) || e.inStation }
        let slot : Passing := { letter := n, arrival := ch.pos, blocked := ch.pos + BitVec.ofNat 32 (limit + s.pfs.profile.minBlock + 1) }
        let v := withEntry n e' { u with
          pcm := { u.pcm with sups := u.pcm.sups.set c { expected := rest, passing := some slot } }
          scu := { u.scu with heads := u.scu.heads.map (movePulses n (e'.anchor - e.anchor)) }
          ptc := { u.ptc with
            merge := match u.ptc.merge with
              | some m => if m.letter = n then some { m with tail := m.tail + (e'.anchor - e.anchor) } else some m
              | none => none } };
        (reachedPositions v e' = [] → t = { v with llk := t.llk } ∧ LinkKept [] s t) ∧
        ∃ w x, TookReached n 200 v w ∧ x = { withHolds w x with llk := x.llk } ∧ x.flc = w.flc ∧ HoldJudged s x ∧
          LinkKept [.feedHold] w x ∧ (x.flc.line = .drain → x.trk.table = [] → DrainEmptied x t) ∧
          (x.flc.line ≠ .drain ∨ x.trk.table ≠ [] → t = { x with llk := t.llk } ∧ LinkKept [] x t)))) ∧
  (∀ s n e k d, s.entry? n = some e → (k, d) ∈ reachedPositions s e →
    exec (commandOf n k) s = .next (match k with
      | .overLength | .stationExit | .sh | .pulse | .gateClear _ => act n k s
      | .stacking => endStacking s (act n k s)
      | .pe0Jam | .missing _ | .dp | .arm | .fire | .doneLimit _ | .select => endEvent s (act n k s))) ∧
  (∀ s (e : Entry) (k : PosKind) (d : Int),
    let p := s.pfs.profile
    let measured := s.trk.measuring = some e.number;
    (k, d) ∈ positions s e ↔ (k = .stationExit ∨ running s = true) ∧ match k with
      | .overLength => measured ∧ s.trk.overTaken = false ∧ d = (1201 + p.minBlock : Nat)
      | .pe0Jam => measured ∧ d = (2401 + p.minBlock : Nat)
      | .missing c => e.number ∈ (s.pcm.sups.get c).expected ∧ d = (supDist p e c + p.slipTol + p.minBlock + 1 : Nat)
      | .stationExit => e.inStation = true ∧ d = (p.dist .sh + (match e.length0 with | some l => l + 16 | none => 2416) : Nat)
      | .sh => e.shTaken = false ∧ d = p.dist .sh
      | .pulse => (∃ h p rest, (s.scu.heads.get h).out = none ∧ (s.scu.heads.get h).waiting = p :: rest ∧ p.letter = e.number ∧
            d = (p.pos - e.anchor).toInt) ∨
          e.scan = .scanning ∧ ∃ b l, fillingOf s e.number = some b ∧ e.latched = some l ∧ (s.scu.bufs.get b).next < l.n ∧
          d = (p.dist .sh + 8 * (s.scu.bufs.get b).next + 4 : Nat)
      | .dp => e.path = none ∧ decidable e = true ∧ d = p.dist .dp
      | .gateClear g => ∃ u, (s.ptc.gates.get g).user = some u ∧ u.letter = e.number ∧ d = u.dist
      | .arm => ∃ c j, e.stream = some c ∧ e.job = some j ∧ j.armTaken = false ∧ d = armOffset s e c
      | .fire => ∃ c j, e.stream = some c ∧ e.job = some j ∧ j.fireTaken = false ∧ d = fireOffset s e c j
      | .doneLimit c => e.stream = some c ∧ e.job.isSome = true ∧ (s.can.recs.get c).held = some e.number ∧
          (s.can.recs.get c).state = .printing ∧ d = doneOffset s e c
      | .select => e.path ≠ none ∧ e.pocket = none ∧ d = selectOffset p e
      | .stacking => e.path ≠ none ∧ ∃ q, e.pocket = some q ∧ d = stackOffset p e q) ∧
  (∀ (p : Profile) (e : Entry) c, supDist p e c = (match c with
    | .pe1 => p.dist .pe1
    | .pe2 => p.dist .pe2
    | .pe3a => p.dist .pe3a
    | .pe3b => p.dist .pe3b
    | .pe4r => p.dist .pe4r) + if e.path = some .twist ∧ c ≠ .pe1 ∧ c ≠ .pe4r then p.twist.getD 0 else 0) ∧
  (∀ (n : LetterNo) (δ : Pos) (h : HeadRec),
    let own := fun l : List Pulse => l.filter fun p => decide (p.letter = n)
    let others := fun l : List Pulse => l.filter fun p => decide (p.letter ≠ n)
    let moved := fun p : Pulse => { p with pos := p.pos + δ }
    let w := (movePulses n δ h).waiting;
    movePulses n δ h = { h with waiting := w } ∧ others w = others h.waiting ∧ (own w).Perm ((own h.waiting).map moved) ∧
    (∀ p, own h.waiting = [p] → ∃ l r, w = l ++ moved p :: r ∧ (∀ q ∈ l, before (moved p).pos q.pos = false) ∧
      (∀ q, r.head? = some q → before (moved p).pos q.pos = true)))

/-- PHOTOCELL_QUALIFY_TRAVEL at a tail (R30, R31): the passing slot emptied, at PE1 length1 and the double check; or, after the blocked
limit, the fault stop JAM BLOCKED; or nothing, where the slot is empty. A calibration that is due is taken where PE1 has left the
station free, and only there (R41). -/
def Obligations.TailsEmptyThePassingSlot : Prop :=
  ∀ s c ch, running s = true → (s.pcm.cells.get (supCell c)).raw = .clear →
    (s.pcm.cells.get (supCell c)).change = some ch → (s.pfs.profile.minBlock : Int) ≤ distance ch.pos s.trk.belt →
    ∃ t, exec (.photocellQualifyTravel (supCell c)) s = .next t ∧
    let u := { s with
      pcm := { s.pcm with cells := s.pcm.cells.set (supCell c) { raw := .clear, qual := .clear, change := none } } }
    let station := if c = .pe1 then CalibratedIfFree s t else t.scu = s.scu;
    ((s.pcm.sups.get c).passing = none → t = { u with scu := t.scu, llk := t.llk } ∧ LinkKept [] s t ∧ station) ∧
    (∀ p, (s.pcm.sups.get c).passing = some p →
      let limit := p.blocked - BitVec.ofNat 32 (s.pfs.profile.minBlock + 1);
      ((limit - ch.pos).toInt < 0 → FaultStopped (.jam (supCell c) .blocked) u t) ∧
      (0 ≤ (limit - ch.pos).toInt →
        let v := { u with pcm := { u.pcm with sups := u.pcm.sups.set c { s.pcm.sups.get c with passing := none } } }
        LinkKept [] s t ∧ station ∧
        (c ≠ .pe1 ∨ s.entry? p.letter = none → t = { v with scu := t.scu, llk := t.llk }) ∧
        (c = .pe1 → ∀ e, s.entry? p.letter = some e →
          let len := (ch.pos - p.arrival).toInt
          let isDouble := ∃ l, e.length0 = some l ∧ (2 * s.pfs.profile.slipTol : Nat) < (len - l).natAbs ∧ e.path = none
          let e' := { e with length1 := some len };
          (isDouble → e.early = none → t = { withEntry p.letter
            { e' with early := some .double, cause := some (e.cause.getD .double) } v with scu := t.scu, llk := t.llk }) ∧
          (¬ isDouble ∨ e.early.isSome = true → t = { withEntry p.letter e' v with scu := t.scu, llk := t.llk }))))

/-! ### Scan heads, scanning and mark finding -/

/-- STATION_EXIT_POSITION takes the letter out of the scan station, and a calibration that is due is taken where that leaves the station
free (R40, R41); CALIBRATION_TIMER at the interval of the line state takes the calibration or sets the due mark (R41). The clock is
the model's (log entry 2). The station is free where PE1 is qualified CLEAR without a pending change, no entry is in it, and no pulse is
outstanding or waiting (R40). -/
def Obligations.CalibrationsFallDue : Prop :=
  (∀ s, stationFree s = true ↔
    (s.pcm.cells.get .pe1).qual = .clear ∧ (s.pcm.cells.get .pe1).change = none ∧ (∀ e ∈ s.trk.table, e.inStation = false) ∧
      ∀ h, (s.scu.heads.get h).out = none ∧ (s.scu.heads.get h).waiting = []) ∧
  ∀ s,
    (∀ n e, s.entry? n = some e → e.inStation = true →
      reached s.trk.belt
        (at' e.anchor (s.pfs.profile.dist .sh + (match e.length0 with | some l => l + 16 | none => 2416) : Nat)) = true →
      ∃ t, exec (.stationExitPosition n) s = .next t ∧
        t = { withEntry n { e with inStation := false } s with scu := t.scu } ∧ CalibratedIfFree s t) ∧
    (∀ i : Nat,
      (s.flc.line = .warmup ∧ i = 500 ∨
        (s.flc.line = .standby ∨ s.flc.line = .starting ∨ s.flc.line = .run ∨ s.flc.line = .drain) ∧
          i = s.pfs.profile.calInterval * 1000) →
      ∃ t, exec .calibrationTimer s = .next t ∧
        t = { s with now := max s.now (s.scu.calStart + i), scu := t.scu } ∧
        (stationFree s = true → Calibrated { s with now := t.now } t) ∧
        (stationFree s = false → t.scu = { s.scu with calDue := true }))

/-- HEAD_ANSWER to a calibration pulse: the answer judged against LNOM, LREF, the reference drive code and the drive loop, the head state
by R37 with its flag, and where a change of state takes the line (R36, R37, R39, R42, R43, R143, R146). That of the answers a change
into WEAK under DEGRADE_POLICY DRAIN drains the line, and no other change, is log entry 14. The next waiting pulse is sent where its position
is reached (R36, R48; log entry 45), and a calibration that is due is taken where the answer has left the station free (R40, R41). The checks
of a sample word (R190). -/
def Obligations.CalibrationAnswerJudged : Prop :=
  (∀ w : BitVec 32, wordGood w = true ↔ (31 :: List.range' 15 15).countP (fun i => w.getLsbD i) % 2 = 1 ∧
    (30 :: List.range 15).countP (fun i => w.getLsbD i) % 2 = 1) ∧
  ∀ s h w k, wordGood w = true → (s.scu.heads.get h).out = some { what := .calibration, code := k } →
    ∃ t, exec (.headAnswer h w) s = .next t ∧
    let r := s.scu.heads.get h
    let r' := t.scu.heads.get h
    let lnom := s.pfs.profile.lnom
    let ga := w.toNat / 1024 % 1024
    let good := decide (lnom ≤ ga * 2 ∧ ga ≤ 1022)
    let u := { setFlag .headState (.head h r'.state) s with scu := t.scu }
    let warm := s.flc.line = .warmup ∧ ∀ g, (t.scu.heads.get g).state = .ready
    let drains := r'.state = .weak ∧ s.pfs.profile.degradePolicy = .drain ∧ (s.flc.line = .starting ∨ s.flc.line = .run);
    (r'.state, r'.run) = calibratedState good r.state r.run ∧
    (good = true → r'.lref = ga ∧ r'.refCode = k ∧
      r'.code = if ga * 8 < lnom * 7 then min 15 (r.code + 1) else if lnom * 9 < ga * 8 then r.code - 1 else r.code) ∧
    (good = false → r'.lref = r.lref ∧ r'.refCode = r.refCode ∧ r'.code = r.code) ∧
    CalibratedIfFree { s with scu := { s.scu with heads := s.scu.heads.set h (nextSent s.trk.belt { r' with waiting := r.waiting }) } } t ∧
    (r.state = r'.state → t = { s with scu := t.scu, llk := t.llk } ∧ LinkKept [] s t) ∧
    (r.state ≠ r'.state → FlagSet .headState (.head h r'.state) s t) ∧
    (r.state ≠ r'.state → warm →
      t = { withHolds s t with
        scu := t.scu
        flc := { s.flc with line := .standby, warmup := none, holds := { s.flc.holds with cancel := false } }
        llk := t.llk } ∧
      HoldMoved .cancel false s t ∧ FlagSet .lineState (.line .standby .warm none) s t ∧
      LinkKept [.headState, .lineState, .feedHold] s t) ∧
    (r.state ≠ r'.state → drains → DrainEntered .head u t) ∧
    (r.state ≠ r'.state → ¬ warm → ¬ drains → t = { u with llk := t.llk } ∧ LinkKept [.headState] s t)

/-- HEAD_ANSWER to a scan pulse is written into the buffer that awaits it, filling for its letter at its cell with the head not lost, and
into no other; the last one of the scan puts the buffer on the work list, or into the empty computing slot (R36, R48, R49, R53). The
answer to a pulse that a fault stop dropped is discarded (R50), and so is a word that fails its checks, or one no pulse is outstanding for
(R36, R190). The next waiting pulse is sent where its position is reached (R36, R48; log entry 45), and a calibration that is due is taken
where the answer has left the station free (R40, R41). -/
def Obligations.ScanAnswerWritten : Prop :=
  ∀ s h w,
    let r := s.scu.heads.get h
    let heads := s.scu.heads.set h (nextSent s.trk.belt r)
    let left := fun t (y : State) => t = { y with scu := t.scu, llk := t.llk } ∧ CalibratedIfFree y t;
    (wordGood w = false → exec (.headAnswer h w) s = .next s) ∧
    (r.out = none → ∃ t, exec (.headAnswer h w) s = .next t ∧ t = { s with llk := t.llk } ∧ LinkKept [] s t) ∧
    (∀ k, wordGood w = true → r.out = some { what := .dropped, code := k } →
      ∃ t, exec (.headAnswer h w) s = .next t ∧ left t { s with scu := { s.scu with heads := heads } } ∧ LinkKept [] s t) ∧
    (∀ p k, wordGood w = true → r.out = some { what := .scan p, code := k } →
      ∃ t, exec (.headAnswer h w) s = .next t ∧
      let v : Sample := { gp := w.toNat / 1048576 % 1024, ga := w.toNat / 1024 % 1024, rp := w.toNat % 1024 }
      let b := s.scu.bufs.get p.buf
      let awaited := b.phase = .filling ∧ b.letter = some p.letter ∧ b.lost.get h = none ∧ (b.cells.get h).length = p.cell
      let cells := b.cells.set h (b.cells.get h ++ [v])
      let done := fun l => (s.entry? p.letter).bind (·.latched) = some l ∧
        ∀ g, l.usable.get g = true → l.n ≤ (cells.get g).length;
      LinkKept [] s t ∧
      (¬ awaited → left t { s with scu := { s.scu with heads := heads } }) ∧
      (awaited → (∀ l, ¬ done l) →
        left t { s with scu := { s.scu with heads := heads, bufs := s.scu.bufs.set p.buf { b with cells := cells } } }) ∧
      (∀ l e, awaited → done l → s.entry? p.letter = some e → s.mkf.work = [] → s.mkf.slot = none →
        left t { withEntry p.letter { e with scan := .computing } s with
          scu := { s.scu with heads := heads, bufs := s.scu.bufs.set p.buf { b with cells := cells, phase := .computing } }
          mkf := { s.mkf with slot := some { buf := p.buf, letter := p.letter, time := s.now, params := some l } } }) ∧
      (∀ l e, awaited → done l → s.entry? p.letter = some e → s.mkf.slot ≠ none →
        left t { withEntry p.letter { e with scan := .waiting } s with
          scu := { s.scu with heads := heads, bufs := s.scu.bufs.set p.buf { b with cells := cells, phase := .waiting } }
          mkf := { s.mkf with work := s.mkf.work ++ [{ buf := p.buf, letter := p.letter, time := s.now }] } }))

/-- HEAD_ANSWER_TIMEOUT fails the head, and every scan in progress loses it, its unanswered cells written as 0; the scans that this
completes join the work list in the order of their buffers, the first into an empty computing slot, and a change into FAILED under
DEGRADE_POLICY DRAIN drains the line from STARTING and RUN (R36, R37, R39, R49, R53, R146). WARMUP_LIMIT fails every head not READY and
takes the line to STANDBY (R39, R143). A calibration that is due is taken where a failure has left the station free (R40, R41). Of this the
model's own: that a scan every cell of which the head has already answered does not lose it, its buffer unchanged (log entry 50); that every
change into FAILED is a head-degrade signal, where R39's sentence is broken (log entry 14); that the scans lose the head in the order of their
buffers, and that the heads fail in the order FT, FB, BT, BB, so HEAD_STATE keeps the last (log entry 20); the clock (log entry 2). -/
def Obligations.HeadsFailWithoutAnswers : Prop :=
  ∀ s,
    (∀ h, BuffersHeld s → (s.scu.heads.get h).out.isSome = true →
      (∀ b d n, (s.scu.bufs.get b).phase = .filling → (s.scu.bufs.get d).phase = .filling → (s.scu.bufs.get b).letter = some n →
        (s.scu.bufs.get d).letter = some n → b = d) →
      ∃ t items, exec (.headAnswerTimeout h) s = .next t ∧
        let r := s.scu.bufs.get
        let loses := fun b n l => (r b).phase = .filling ∧ (r b).letter = some n ∧ (s.entry? n).bind (·.latched) = some l ∧
          l.usable.get h = true ∧ ((r b).cells.get h).length < l.n
        let completes := fun b n => ∃ l, loses b n l ∧ ∀ g, l.usable.get g = true → g = h ∨ l.n ≤ ((r b).cells.get g).length
        let taken := fun b => s.mkf.slot = none ∧ items.head?.map WorkItem.buf = some b
        let u := { setFlag .headState (.head h .failed) s with trk := t.trk, scu := t.scu, mkf := t.mkf };
        t.scu.heads.get h = { s.scu.heads.get h with state := .failed, run := 0, out := none, waiting := [] } ∧
        CalibratedIfFree { s with scu := { s.scu with
          heads := s.scu.heads.set h { s.scu.heads.get h with state := .failed, run := 0, out := none, waiting := [] }
          bufs := t.scu.bufs } } t ∧
        FlagSet .headState (.head h .failed) s t ∧
        (∀ b n l, loses b n l →
          (t.scu.bufs.get b).cells.get h = (r b).cells.get h ++
            List.replicate (l.n - ((r b).cells.get h).length) { gp := 0, ga := 0, rp := 0 } ∧
          (t.scu.bufs.get b).lost = (r b).lost.set h (some ((r b).cells.get h).length) ∧
          (∀ g, g ≠ h → (t.scu.bufs.get b).cells.get g = (r b).cells.get g)) ∧
        (∀ b, (∀ n l, ¬ loses b n l) → t.scu.bufs.get b = r b) ∧
        (∀ i ∈ items, completes i.buf i.letter ∧ i.time = s.now) ∧ (∀ b n, completes b n → ∃ i ∈ items, i.buf = b) ∧
        items.Pairwise (fun i j => i.buf = .b0 ∧ j.buf ≠ .b0 ∨ i.buf = .b1 ∧ j.buf = .b2) ∧
        (∀ b, (t.scu.bufs.get b).letter = (r b).letter ∧ (t.scu.bufs.get b).next = (r b).next ∧
          (taken b → (t.scu.bufs.get b).phase = .computing) ∧
          (¬ taken b → (∃ i ∈ items, i.buf = b) → (t.scu.bufs.get b).phase = .waiting) ∧
          ((∀ i ∈ items, i.buf ≠ b) → (t.scu.bufs.get b).phase = (r b).phase)) ∧
        (s.mkf.slot ≠ none → t.mkf = { s.mkf with work := s.mkf.work ++ items }) ∧
        (s.mkf.slot = none → items = [] → t.mkf = s.mkf) ∧
        (∀ i rest, s.mkf.slot = none → items = i :: rest → t.mkf = { s.mkf with
          work := rest
          slot := some { buf := i.buf, letter := i.letter, time := s.now, params := (s.entry? i.letter).bind (·.latched) } }) ∧
        t.trk.table.map (fun e => { e with scan := .none }) = s.trk.table.map (fun e => { e with scan := .none }) ∧
        (∀ n e, s.entry? n = some e →
          (∀ i ∈ items, i.letter = n →
            (taken i.buf → (t.entry? n).map (·.scan) = some .computing) ∧
            (¬ taken i.buf → (t.entry? n).map (·.scan) = some .waiting)) ∧
          ((∀ i ∈ items, i.letter ≠ n) → t.entry? n = some e)) ∧
        t.trk = { s.trk with table := t.trk.table } ∧
        (if s.pfs.profile.degradePolicy = .drain ∧ (s.flc.line = .starting ∨ s.flc.line = .run) then DrainEntered .head u t
          else t = { u with llk := t.llk } ∧ LinkKept [.headState] s t)) ∧
    (∀ t0, s.flc.line = .warmup → s.flc.warmup = some t0 →
      ∃ t, exec .warmupLimit s = .next t ∧
        (∀ h, (t.scu.heads.get h).state = if (s.scu.heads.get h).state = .ready then .ready else .failed) ∧
        (let limited := fun (r : HeadRec) => if r.state = .ready ∨ r.state = .failed then r
            else { r with state := .failed, run := 0, out := none, waiting := [] };
         CalibratedIfFree { s with now := t.now, scu := { s.scu with heads := s.scu.heads.map limited, bufs := t.scu.bufs } } t) ∧
        t = { withHolds s t with
          now := max s.now (t0 + 60000)
          flc := { s.flc with line := .standby, warmup := none, holds := { s.flc.holds with cancel := false } }
          trk := { s.trk with table := t.trk.table }
          scu := t.scu, mkf := t.mkf, llk := t.llk } ∧
        (s.trk.table = [] → t.trk = s.trk ∧ t.mkf = s.mkf ∧ t.scu.bufs = s.scu.bufs) ∧
        (let fails := fun h => (s.scu.heads.get h).state ≠ .ready ∧ (s.scu.heads.get h).state ≠ .failed;
         (∀ l h m, [Head.ft, .fb, .bt, .bb] = l ++ h :: m → fails h → (∀ g ∈ m, ¬ fails g) →
           FlagSet .headState (.head h .failed) s t) ∧
         ((∀ h, ¬ fails h) → t.llk.flags.get .headState = s.llk.flags.get .headState)) ∧
        HoldMoved .cancel false s t ∧
        FlagSet .lineState (.line .standby .warmupLimit none) s t ∧ LinkKept [.headState, .lineState, .feedHold] s t)

/-- SH_POSITION: the scan starts in the lowest-numbered free buffer with its parameters latched, or is refused UNSCANNED, or, with an early
disposition, is not called for (R44, R46, R47, R163). -/
def Obligations.ScanStartsOrIsRefused : Prop :=
  ∀ s n e, running s = true → s.entry? n = some e → e.shTaken = false →
    reached s.trk.belt (at' e.anchor (s.pfs.profile.dist .sh : Nat)) = true →
    ∃ t, exec (.shPosition n) s = .next t ∧
    let p := s.pfs.profile
    let l : Latched :=
      { lnom := p.lnom, w := p.w, z := p.z, tPh := p.tPh, tMt := p.tMt, tBr := p.tBr, qMin := p.qMin, ambig := p.ambig
        n := (e.length0.getD 0 + 7) / 8
        lref := s.scu.heads.map (·.lref)
        usable := s.scu.heads.map fun h => decide (h.state = .ready ∧ p.lnom ≤ h.lref * 2) }
    let filling : BufRec :=
      { phase := .filling, letter := some n, next := 0, cells := PerHead.fill [], lost := PerHead.fill none }
    let free := fun b => (s.scu.bufs.get b).phase = .free
    let someHead := ∃ h, l.usable.get h = true;
    (e.early.isSome = true → t = withEntry n { e with shTaken := true } s) ∧
    (∀ b, e.early = none → free b → (b = .b0 ∨ ¬ free .b0 ∧ (b = .b1 ∨ ¬ free .b1)) → someHead →
      t = { withEntry n { e with shTaken := true, scan := .scanning, latched := some l } s with
        scu := { s.scu with bufs := s.scu.bufs.set b filling } }) ∧
    (e.early = none → ((∀ b, ¬ free b) ∨ ¬ someHead) →
      t = { withEntry n
          { e with shTaken := true, early := some .unscanned, cause := some (e.cause.getD .unscanned) } s with
        cnb := { s.cnb with bank := { s.cnb.bank with
          flow := { s.cnb.bank.flow with unscanned := s.cnb.bank.flow.unscanned + 1 } } } })

/-- SCAN_PULSE, where no delayed pulse of the letter is reached, sends the pulse of the next cell to each head of the usable-head set that has
neither failed nor been lost to the scan before: at once at the reference drive code, or behind the others, in order of position and,
within the letter, of cell (R36, R43, R48, R49). A pulse delayed on an idle link is sent once its position is reached, on every link at once
(R48; log entry 45). -/
def Obligations.PulseSentToUsableHeads : Prop :=
  (∀ s n e l b, running s = true → s.entry? n = some e → e.scan = .scanning → e.latched = some l →
    (s.scu.bufs.get b).phase = .filling → (s.scu.bufs.get b).letter = some n →
    (∀ d, d ≠ b → ¬ ((s.scu.bufs.get d).phase = .filling ∧ (s.scu.bufs.get d).letter = some n)) →
    (s.scu.bufs.get b).next < l.n →
    reached s.trk.belt (at' e.anchor (s.pfs.profile.dist .sh + 8 * (s.scu.bufs.get b).next + 4 : Nat)) = true →
    (∀ h, ¬ DelayedReached n s (s.scu.heads.get h)) →
    ∃ t, exec (.scanPulse n) s = .next t ∧
    let k := (s.scu.bufs.get b).next
    let p : Pulse := { letter := n, buf := b, cell := k, pos := at' e.anchor (s.pfs.profile.dist .sh + 8 * k + 4 : Nat) };
    t = { s with scu := { s.scu with
      heads := t.scu.heads, bufs := s.scu.bufs.set b { s.scu.bufs.get b with next := k + 1 } } } ∧
    ∀ h,
      let r := s.scu.heads.get h
      let r' := t.scu.heads.get h
      let scans := l.usable.get h = true ∧ r.state ≠ .failed ∧ (s.scu.bufs.get b).lost.get h = none;
      (¬ scans → r' = r) ∧
      (scans → r.out = none → r.waiting = [] → r' = { r with out := some { what := .scan p, code := r.refCode } }) ∧
      (scans → ∃ before' after', r.waiting = before' ++ after' ∧
        (let placed := { r with waiting := before' ++ p :: after' };
         (r.out ≠ none → r' = placed) ∧ (r.out = none → r' = nextSent s.trk.belt placed)) ∧
        (∀ q ∈ before', q.letter = n ∨ before p.pos q.pos = false) ∧
        (∀ q, after'.head? = some q → q.letter ≠ n ∧ before p.pos q.pos = true))) ∧
  (∀ s n e, running s = true → s.entry? n = some e → (∃ h, DelayedReached n s (s.scu.heads.get h)) →
    ∃ t, exec (.scanPulse n) s = .next t ∧ t = { s with scu := { s.scu with heads := t.scu.heads } } ∧
    ∀ h,
      let r := s.scu.heads.get h;
      (DelayedReached n s r → t.scu.heads.get h = nextSent s.trk.belt r) ∧ (¬ DelayedReached n s r → t.scu.heads.get h = r)) ∧
  (∀ belt (r : HeadRec),
    (r.waiting = [] → nextSent belt r = { r with out := none }) ∧
    (∀ p rest, r.waiting = p :: rest → reached belt p.pos = false → nextSent belt r = { r with out := none }) ∧
    (∀ p rest, r.waiting = p :: rest → reached belt p.pos = true →
      nextSent belt r = { r with waiting := rest, out := some { what := .scan p, code := r.refCode } }))

/-- Normalising and background (R56, R57): a raw value of 1023 and a quotient above 1023 give 1023; the net value of a cell is its
normalised value less the smallest of its channel, so that values stay in 0 to 1023 and some cell has 0. Windows, their zones and the
class tests (R58, R59, R60), and the candidates, the strongest window of each head, zone and class, the first at equal strength (R61).
The choice among candidates (R63, R64, R65): the top class is the highest-ranked class any candidate has; without a valid corner of it
the letter is OFFCORNER; otherwise the mark is the first valid corner of it of the greatest strength, AMBIGUOUS exactly where another
head's valid corner of the class comes within AMBIG sixteenths of it. The mark result and its flags (R55, R66, R67). -/
def Obligations.MarkChosenFromNetValues : Prop :=
  (∀ lnom lref v, normalise lnom lref v ≤ 1023 ∧ (v ≠ 1023 → v * lnom / lref ≤ 1023 → normalise lnom lref v = v * lnom / lref) ∧
    (v = 1023 ∨ 1023 < v * lnom / lref → normalise lnom lref v = 1023)) ∧
  (∀ lnom lref raw (c : Channel), raw ≠ [] →
    ∃ b, (netCells lnom lref raw).map (fun v => v.get c + b) = raw.map (fun v => normalise lnom lref (v.get c)) ∧
      (∃ v ∈ netCells lnom lref raw, v.get c = 0) ∧ ∀ v ∈ netCells lnom lref raw, v.get c ≤ 1023) ∧
  (∀ w j net,
    let x := window w j net
    let sum := fun c => (((net.drop j).take w).map fun v => v.get c).sum;
    x.start = j ∧ x.sGp = sum .gp ∧ x.sGa = sum .ga ∧ x.sRp = sum .rp ∧ (x.sGp = 0 → x.q = 0) ∧
    (x.sGp ≠ 0 → (256 * x.sGa / x.sGp ≤ 255 → x.q = 256 * x.sGa / x.sGp) ∧ (255 < 256 * x.sGa / x.sGp → x.q = 255))) ∧
  (∀ (l : Latched) net (c : Candidate),
    let win := fun j => window l.w j (net.get c.head)
    let within := fun j => j + l.w ≤ l.n ∧ if c.zone = .lead then j + l.w ≤ l.z else l.n ≤ j + l.z
    let passes := fun x : Window => match c.kind with
      | .phosphor => l.tPh ≤ x.sGa ∧ l.qMin ≤ x.q
      | .meter => l.tMt ≤ x.sRp ∧ x.sGp ≤ x.sRp
      | .bright => l.tBr ≤ x.sGp ∧ x.q < l.qMin
    let strength := fun x : Window => match c.kind with | .phosphor => x.sGa | .meter => x.sRp | .bright => x.sGp;
    c ∈ candidates l net ↔ l.usable.get c.head = true ∧ ∃ j, within j ∧ passes (win j) ∧ c.win = win j ∧ c.strength = strength (win j) ∧
      ∀ i, within i → passes (win i) → strength (win i) ≤ strength (win j) ∧ (i < j → strength (win i) < strength (win j))) ∧
  (∀ (l : Latched) net, (candidates l net).Pairwise fun a b =>
    (∃ x y z, [Head.ft, .fb, .bt, .bb] = x ++ a.head :: y ++ b.head :: z) ∨
      a.head = b.head ∧ (a.zone = .lead ∧ b.zone = .trail ∨ a.zone = b.zone ∧ a.kind ≠ b.kind)) ∧
  (∀ ambig cs,
    let c := choose ambig cs
    let has := fun k => ∃ x ∈ cs, x.kind = k
    let valid := fun k x => x.kind = k ∧ (orientOf x.head x.zone).isSome = true
    let first := fun (is : Candidate → Prop) m => ∃ l r, cs = l ++ m :: r ∧ is m ∧ (∀ x ∈ l, is x → x.strength < m.strength) ∧
      (∀ x ∈ r, is x → x.strength ≤ m.strength);
    (cs = [] → c = { cls := .noMark, chosen := none, orient := none }) ∧
    (∀ k, has k → (k = .meter → ¬ has .phosphor) → (k = .bright → ¬ has .phosphor ∧ ¬ has .meter) →
      ((∀ x ∈ cs, ¬ valid k x) → c.cls = .offcorner ∧ c.orient = none ∧
        ∃ m, c.chosen = some m ∧ first (fun x => x.kind = k) m) ∧
      ((∃ x ∈ cs, valid k x) → ∃ m, c.chosen = some m ∧ first (valid k) m ∧
        ((∃ x ∈ cs, valid k x ∧ x.head ≠ m.head ∧ m.strength * ambig ≤ x.strength * 16) →
          c.cls = .ambiguous ∧ c.orient = none) ∧
        ((∀ x ∈ cs, valid k x → x.head ≠ m.head → x.strength * 16 < m.strength * ambig) →
          c.cls = k.cls ∧ c.orient = orientOf m.head m.zone)))) ∧
  (orientOf .ft .lead = some .o0 ∧ orientOf .fb .trail = some .o1 ∧ orientOf .bt .trail = some .o2 ∧ orientOf .bb .lead = some .o3 ∧
    orientOf .ft .trail = none ∧ orientOf .fb .lead = none ∧ orientOf .bt .lead = none ∧ orientOf .bb .trail = none) ∧
  (∀ (l : Latched) raw lost,
    let net := netOf l raw
    let c := choose l.ambig (candidates l net)
    let r := markResult l raw lost
    let saturated := fun (k : MarkKind) (v : Sample) => match k with
      | .phosphor => v.ga = 1023 ∨ v.gp = 1023
      | .meter => v.rp = 1023
      | .bright => v.gp = 1023;
    (∀ h, l.usable.get h = true → net.get h = netCells l.lnom (l.lref.get h) (raw.get h)) ∧
    r.cls = c.cls ∧ r.orient = c.orient ∧ r.strength = c.chosen.map (·.strength) ∧ r.cell = c.chosen.map (·.win.start) ∧
    r.q = (if c.cls = .phosphor then c.chosen.map (·.win.q) else none) ∧
    (r.degraded = true ↔ ∃ h, l.usable.get h = false ∨ (lost.get h).isSome = true) ∧
    (r.saturated = true ↔ ∃ m, c.chosen = some m ∧ ∃ v ∈ ((raw.get m.head).drop m.win.start).take l.w, saturated m.kind v))

/-- RESULT_DELIVERY of a letter in the table: the result, the late flag and DONE in its entry, the counters of R164, the buffer freed or
kept for the capture it matches, the next item taken up (R53, R68, R69, R72). The result of a letter no longer in the table is
discarded and not counted, its buffer freed or kept in the same way (R70), and the buffer of a letter that had left before its take-up
is freed (log entry 30). The capture lines left to send: by usable head, channel and first cell, 32 cells a line (R73). -/
def Obligations.ResultDelivered : Prop :=
  (∀ s i, s.mkf.slot = some i →
    let b := s.scu.bufs.get i.buf
    let delivered := fun (t base : State) (b' : BufRec) capture =>
      (s.mkf.work = [] →
        t = { base with
          scu := { s.scu with bufs := s.scu.bufs.set i.buf b' }
          mkf := { work := [], slot := none, capture := capture }
          cnb := t.cnb, llk := t.llk }) ∧
      (∀ w rest f, s.mkf.work = w :: rest → w.letter ≠ i.letter → w.buf ≠ i.buf → s.entry? w.letter = some f →
        t = { withEntry w.letter { f with scan := .computing } base with
          scu := { s.scu with bufs := (s.scu.bufs.set i.buf b').set w.buf { s.scu.bufs.get w.buf with phase := .computing } }
          mkf := { work := rest, slot := some { buf := w.buf, letter := w.letter, time := w.time, params := f.latched }
                   capture := capture }
          cnb := t.cnb, llk := t.llk });
    (∀ l, i.params = some l →
      let r := markResult l b.cells b.lost
      let kept := s.mkf.capture = .armed none ∨ s.mkf.capture = .armed (some r.cls)
      let b' : BufRec := if kept then { b with phase := .capture, cells := netOf l b.cells } else freeBuf
      let capture : Capture :=
        if kept then .draining { buf := i.buf, letter := i.letter, cls := r.cls, lines := captureKeys l } else s.mkf.capture;
      (∀ e, s.entry? i.letter = some e → e.scan = .computing →
        ∃ t, exec .resultDelivery s = .next t ∧ LinkKept [] s t ∧
        (∀ c, t.cnb.bank.marks.classes.get c =
          if c = r.cls then s.cnb.bank.marks.classes.get c + 1 else s.cnb.bank.marks.classes.get c) ∧
        (∀ o, t.cnb.bank.marks.orients.get o =
          if r.orient = some o then s.cnb.bank.marks.orients.get o + 1 else s.cnb.bank.marks.orients.get o) ∧
        t.cnb = { s.cnb with bank := { s.cnb.bank with
          flow := { s.cnb.bank.flow with scanned := s.cnb.bank.flow.scanned + 1 }
          marks := { t.cnb.bank.marks with
            degraded := s.cnb.bank.marks.degraded + (if r.degraded then 1 else 0)
            saturated := s.cnb.bank.marks.saturated + (if r.saturated then 1 else 0) } } } ∧
        delivered t (withEntry i.letter { e with result := some r, late := e.path.isSome, scan := .done } s) b' capture) ∧
      (s.entry? i.letter = none →
        ∃ t, exec .resultDelivery s = .next t ∧ LinkKept [] s t ∧ t.cnb = s.cnb ∧ delivered t s b' capture)) ∧
    (i.params = none →
      ∃ t, exec .resultDelivery s = .next t ∧ LinkKept [] s t ∧ t.cnb = s.cnb ∧ delivered t s freeBuf s.mkf.capture)) ∧
  (∀ l : Latched,
    let channels := [Channel.gp, .ga, .rp]
    let lines := (l.n + 31) / 32
    let heads := [Head.ft, .fb, .bt, .bb].filter fun h => l.usable.get h;
    (captureKeys l).length = heads.length * 3 * lines ∧
    ∀ i h j c m, heads[i]? = some h → channels[j]? = some c → m < lines →
      (captureKeys l)[(3 * i + j) * lines + m]? = some { head := h, channel := c, first := 32 * m })

/-! ### Paths and gates -/

/-- The decision at DP by early disposition, scan state, class and orientation, and the merge check (R77, R78, R79, R80, R81). -/
def Obligations.DecisionFollowsResult : Prop :=
  ∀ s e,
    let p := s.pfs.profile
    let reject := fun c => finalDecision s e = { path := .reject, stream := none, cause := some c }
    let head := fun path => e.anchor + BitVec.ofNat 32 (p.dist .mp + if path = Path.twist then p.twistExtra else 0)
    let passes := fun path => ∀ m, s.ptc.merge = some m → (p.minMergeGap : Int) ≤ (head path - m.tail).toInt
    let faced := fun path st =>
      (passes path → finalDecision s e = { path := path, stream := some st, cause := none }) ∧ (¬ passes path → reject .merge);
    (e.early.isSome = true → finalDecision s e = { path := .reject, stream := none, cause := none }) ∧
    (e.early = none → (e.scan = .scanning ∨ e.scan = .waiting ∨ e.scan = .computing) → reject .late) ∧
    (∀ r, e.early = none → e.scan = .done → e.result = some r →
      (r.cls = .noMark → reject .noMark) ∧ (r.cls = .offcorner → reject .offcorner) ∧
      (r.cls = .ambiguous → reject .ambiguous) ∧ (r.cls = .bright → p.brightPolicy = .manual → reject .brightManual) ∧
      (r.cls = .phosphor ∨ r.cls = .meter ∨ r.cls = .bright ∧ p.brightPolicy = .stamp →
        (r.orient = some .o0 → faced .straight .a) ∧ (r.orient = some .o1 → faced .straight .b) ∧
        (r.orient = some .o2 → p.twist.isSome = true → faced .twist .b) ∧
        (r.orient = some .o3 → p.twist.isSome = true → faced .twist .a) ∧
        (r.orient = some .o2 ∨ r.orient = some .o3 → p.twist = none → reject .noTwist)))

/-- DP_DECISION writes the decision into the entry with its cancel job (R82, R83) and hands it on: the arrival lists (R24), the merge
record (R80, R81), G1, and G2 or the reject-line gate (R86). An entry that would make a gate queue hold more than 8 is the fault stop
OVERRUN, the decision staying written (R86). The causes of the manual lane (R86, R125). An arm point or fire point already reached is taken in the same event, the arm point
first (R103). -/
def Obligations.DecisionWrittenAndHandedOn : Prop :=
  (∀ s n e, CancelHeld s → running s = true → s.entry? n = some e → e.path = none → decidable e = true →
    reached s.trk.belt (at' e.anchor (s.pfs.profile.dist .dp : Nat)) = true →
    ∃ t, exec (.dpDecision n) s = .next t ∧
      let d := finalDecision s e
      let e' := { e with
        path := some d.path
        stream := d.stream
        job := makeJob s e d
        cause := match e.cause with | some c => some c | none => d.cause }
      let tail := e.anchor + BitVec.ofNat 32 (s.pfs.profile.dist .mp + if d.path = .twist then s.pfs.profile.twistExtra else 0) +
        BitVec.ofNat 32 (e.length0.getD 0)
      let decided := withEntry n e' { s with
        ptc := { s.ptc with merge := if d.path = .reject then s.ptc.merge else some { letter := n, tail := tail } } }
      let set1 : Setting := match d.path with | .straight => .straight | .twist => .twist | .reject => .reject
      let g := if d.path = .reject then Gate.gr else .g2
      let set2 : Setting := if d.path = .reject then (if manualCause e'.cause then .manual else .machine)
        else if d.stream = some .b then .b else .a
      let full := fun h => 8 ≤ (s.ptc.gates.get h).queue.length;
      (full .g1 → FaultStopped (.overrunGate .g1) decided t) ∧
      (¬ full .g1 → full g → ∃ u, u = { decided with ptc := { decided.ptc with gates := u.ptc.gates } } ∧
        GateQueued .g1 n set1 decided u ∧ (∀ h, h ≠ .g1 → u.ptc.gates.get h = s.ptc.gates.get h) ∧
        FaultStopped (.overrunGate g) u t) ∧
      (¬ full .g1 → ¬ full g → ∃ u, u = { decided with
          pcm := { s.pcm with sups := u.pcm.sups }
          ptc := { decided.ptc with gates := u.ptc.gates } } ∧
        (∀ c, if c = .pe4r ∧ d.path = .reject ∨ c = .pe2 ∧ d.path ≠ .reject ∨ c = .pe3a ∧ d.stream = some .a ∨
            c = .pe3b ∧ d.stream = some .b
          then ListJoined c n s u else u.pcm.sups.get c = s.pcm.sups.get c) ∧
        GateQueued .g1 n set1 decided u ∧ GateQueued g n set2 decided u ∧
        (∀ h, h ≠ .g1 → h ≠ g → u.ptc.gates.get h = s.ptc.gates.get h) ∧ LinkKept [] s t ∧
        (e'.job = none → t = { u with llk := t.llk }) ∧
        (∀ c j, e'.stream = some c → e'.job = some j →
          let armed := reached s.trk.belt (at' e.anchor (armOffset s e' c)) = true
          let fired := reached s.trk.belt (at' e.anchor (fireOffset s e' c j)) = true;
          (¬ armed → ¬ fired → t = { u with llk := t.llk }) ∧
          (armed → ¬ fired → ArmTaken n e' c j u t) ∧
          (¬ armed → fired → FireTaken n e' c j u t) ∧
          (armed → fired → ∃ v k, ArmTaken n e' c j u v ∧ (v.entry? n).bind (·.job) = some k ∧
            FireTaken n { e' with job := some k } c k v t)))) ∧
  (∀ c, manualCause c = true ↔
    c = some .noMark ∨ c = some .offcorner ∨ c = some .ambiguous ∨ c = some .brightManual ∨ c = some .noTwist)

/-- The cancel job of a decision (R83) and its impression window, clamped from its leading end in FORWARD and from its trailing end in
REVERSED (R100, R101, R102). -/
def Obligations.CancelJobsHoldTheirWindow : Prop :=
  ∀ s e d,
    (∀ st r l, d.stream = some st → e.result = some r → e.latched = some l →
      (r.cls = .phosphor ∨ r.cls = .bright ∧ s.pfs.profile.brightPolicy = .stamp) →
      ∃ j, makeJob s e d = some j ∧ j.outcome = .pending ∧ j.dater = s.can.dater ∧ j.pre = s.pfs.profile.pre ∧
        j.impLen = s.pfs.profile.impLen ∧ j.direction = (if st = .a then .forward else .reversed) ∧ j.density = none ∧
        j.armTaken = false ∧ j.fireTaken = false ∧
        (let start := 8 * ((r.cell.getD 0 : Nat) : Int) - j.pre
         let stop := 8 * ((r.cell.getD 0 : Nat) + l.w : Int) + j.pre
         let len : Int := (e.length0.getD 0 : Nat);
         (st = .a → (j.winStart : Int) = max start 0 ∧ (j.winEnd : Int) = min (max start 0 + j.impLen) len) ∧
         (st = .b → (j.winEnd : Int) = min stop len ∧ (j.winStart : Int) = max (min stop len - j.impLen) 0)) ∧
        (j.truncated = true ↔ j.winEnd - j.winStart < j.impLen) ∧ j.winEnd ≤ e.length0.getD 0 ∧
        j.winEnd - j.winStart ≤ j.impLen) ∧
    (d.stream = none ∨ (∀ r, e.result = some r → r.cls ≠ .phosphor ∧ (r.cls ≠ .bright ∨ s.pfs.profile.brightPolicy = .manual)) →
      makeJob s e d = none)

/-- GATE_CLEAR_POSITION frees the gate of its user, and GATE_SETTLE_END ends its settling; the gate then takes its oldest entry where it
is free and IDLE (R87, R88), in STARTING, RUN and DRAIN (R91). The distance of a letter's clear position at a gate (R87), and the settle
distance of each gate (R85, R192). -/
def Obligations.GatesClearAndSettle : Prop :=
  (∀ s g,
    (∀ u e, running s = true → (s.ptc.gates.get g).user = some u → s.entry? u.letter = some e →
      reached s.trk.belt (at' e.anchor (u.dist : Nat)) = true →
      ∃ t, exec (.gateClearPosition g) s = .next t ∧
        t = { s with ptc := { s.ptc with gates := t.ptc.gates } } ∧
        (∀ h, h ≠ g → t.ptc.gates.get h = s.ptc.gates.get h) ∧
        GateTook g { s.ptc.gates.get g with user := none } (s.ptc.gates.get g).queue s t) ∧
    (∀ p, (s.ptc.gates.get g).settle = some p → reached s.trk.belt p = true →
      ∃ t, exec (.gateSettleEnd g) s = .next t ∧
        t = { s with ptc := { s.ptc with gates := t.ptc.gates } } ∧
        (∀ h, h ≠ g → t.ptc.gates.get h = s.ptc.gates.get h) ∧
        (running s = true → GateTook g { s.ptc.gates.get g with settle := none } (s.ptc.gates.get g).queue s t) ∧
        (running s = false → t.ptc.gates.get g = { s.ptc.gates.get g with settle := none }))) ∧
  (∀ (p : Profile) (e : Entry) g, clearDist p e g =
    p.dist (gateStation g) + (if e.path = some .twist ∧ g ∉ [Gate.g1, .gr, .rm, .rh] then p.twist.getD 0 else 0) +
      (match e.length1 with | some l => max (e.length0.getD 0) l.toNat | none => e.length0.getD 0) + p.slipTol) ∧
  (∀ g, stationName (gateStation g) = gateName g) ∧
  (∀ (p : Profile) g, gateSettle p g =
    if g = .g1 then p.settleG1 else if g = .gr then p.settleGr else if g = .g2 then p.settleG2 else p.settlePkt)

/-! ### Cancelling -/

/-- ARM_POINT of a letter with a cancel job, by the canceller's state (R103, R104): a pending job is armed with its density and IMPRESSION,
deferred, or skipped; any other is only marked as having taken the point. The distance of the arm point (R103). -/
def Obligations.ArmPointArmsOrSkips : Prop :=
  (∀ s n e c j, CancelHeld s → running s = true → s.entry? n = some e → e.stream = some c → e.job = some j →
    j.armTaken = false → reached s.trk.belt (at' e.anchor (armOffset s e c)) = true →
    ∃ t, exec (.armPoint n) s = .next t ∧ LinkKept [] s t ∧ ArmTaken n e c j s t) ∧
  (∀ s (e : Entry) (c : Stream),
    let p := s.pfs.profile;
    armOffset s e c = (p.dist (if c = .a then .ca else .cb) : Int) + (if e.path = some .twist then p.twist.getD 0 else 0 : Nat) -
      (s.can.recs.get c).armDist)

/-- FIRE_POINT of a letter with a cancel job, by the canceller's state and held letter (R103, R105, R108): a pending job is printed with its
strobe, or skipped, with ABORT and the deferred arm where its arming was under way; any other is only marked as having taken the
point. The distance of the fire point (R103). -/
def Obligations.FirePointPrintsOrSkips : Prop :=
  (∀ s n e c j, CancelHeld s → running s = true → s.entry? n = some e → e.stream = some c → e.job = some j →
    j.fireTaken = false → reached s.trk.belt (at' e.anchor (fireOffset s e c j)) = true →
    ∃ t, exec (.firePoint n) s = .next t ∧ LinkKept [] s t ∧ FireTaken n e c j s t) ∧
  (∀ s (e : Entry) (c : Stream) (j : CancelJob),
    let p := s.pfs.profile;
    fireOffset s e c j = (p.dist (if c = .a then .ca else .cb) : Int) + (if e.path = some .twist then p.twist.getD 0 else 0 : Nat) +
      j.winStart)

/-- PRIMED in PRIMING (R99), ACCEPTED for the held letter in ARMING (R106), MODULE_DONE for the held letter in PRINTING (R109),
PARITY_ERR in ARMING (R107), with the deferred arm taken on the return to READY, or dropped (R105). A frame that fails its CRC-8, one
that names another letter, and one the canceller's state does not take are discarded (R96). -/
def Obligations.ModuleFramesTakenOrDiscarded : Prop :=
  (∀ s c,
    let r := s.can.recs.get c
    let density := if r.band = .hot then Density.reduced else .full
    let readied := fun (r' : CancRec) (t : State) =>
      (r.deferred = none → t.can.recs.get c = { r' with state := .ready, held := none }) ∧
      (∀ m f k, r.deferred = some m → r.held ≠ some m → s.entry? m = some f → f.job = some k →
        t.can.recs.get c = { r' with
          state := .arming, held := some m, deferred := none, replyTimer := some s.now
          frames := r'.frames ++ [.impression (impressionOf f k density)] } ∧
        t.entry? m = some { f with job := some { k with density := some density } });
    (r.state = .priming → r.deferred = none →
      ∃ t, exec (.primed c true) s = .next t ∧ CancellerKept c s t ∧ LinkKept [.cancellerState, .feedHold] s t ∧
        t.trk.table = s.trk.table ∧
        (r.band ≠ .over → t.can.recs.get c = { r with state := .ready, primeTimer := none }) ∧
        (r.band = .over → t.can.recs.get c = { r with state := .overheat, primeTimer := none }) ∧
        FlagSet .cancellerState (.canceller c (if r.band = .over then .overheat else .ready) none) s t) ∧
    (∀ n, r.state = .arming → r.held = some n →
      ∃ t, exec (.accepted c n true) s = .next t ∧ CancellerKept c s t ∧ LinkKept [.feedHold] s t ∧
        t.trk.table = s.trk.table ∧
        t.can.recs.get c = { r with state := .armed, replyTimer := none, parityRun := 0 }) ∧
    (∀ n done, r.state = .printing → r.held = some n →
      ∃ t, exec (.moduleDone c n done true) s = .next t ∧ CancellerKept c s t ∧ LinkKept [.cancellerState, .feedHold] s t ∧
        (r.deferred ≠ some n → OutcomeWritten n (if done = .good then .done else .failed) s t) ∧
        (r.band = .over → t.can.recs.get c = { r with state := .overheat, held := none, deferred := none } ∧
          (∀ m, r.deferred = some m → OutcomeWritten m .skippedUnavailable s t) ∧
          FlagSet .cancellerState (.canceller c .overheat none) s t) ∧
        (r.band ≠ .over → readied r t ∧ t.llk.flags.get .cancellerState = s.llk.flags.get .cancellerState)) ∧
    (∀ n, r.state = .arming → r.held = some n → r.deferred ≠ some n →
      ∃ t, exec (.parityErr c true) s = .next t ∧
        (let u := { s with cnb := { s.cnb with bank := { s.cnb.bank with cancel := t.cnb.bank.cancel } } };
         CancellerKept c u t ∧ LinkKept [.parity, .cancellerState, .feedHold] s t) ∧
        (∀ d, t.cnb.bank.cancel.get d = { s.cnb.bank.cancel.get d with parityErrors :=
          if d = c then (s.cnb.bank.cancel.get d).parityErrors + 1 else (s.cnb.bank.cancel.get d).parityErrors }) ∧
        FlagSet .parity (.parity c n) s t ∧ OutcomeWritten n .skippedParity s t ∧
        (s.pfs.profile.persistParity = true ∨ 2 ≤ r.parityRun →
          t.can.recs.get c = { r with
            state := .fault, cause := some .parity, held := none, deferred := none, primeTimer := none, replyTimer := none
            parityRun := r.parityRun + 1
            frames := r.frames ++ [.abort] } ∧
          (∀ m, r.deferred = some m → OutcomeWritten m .skippedUnavailable s t) ∧
          FlagSet .cancellerState (.canceller c .fault (some .parity)) s t) ∧
        (s.pfs.profile.persistParity = false → r.parityRun < 2 →
          readied { r with replyTimer := none, parityRun := r.parityRun + 1 } t ∧
          t.llk.flags.get .cancellerState = s.llk.flags.get .cancellerState))) ∧
  (∀ s c n done code m b good,
    let r := s.can.recs.get c;
    (good = false ∨ r.state ≠ .priming → exec (.primed c good) s = .next s) ∧
    (good = false ∨ r.state ≠ .arming ∨ r.held ≠ some n → exec (.accepted c n good) s = .next s) ∧
    (good = false ∨ r.state ≠ .arming → exec (.parityErr c good) s = .next s) ∧
    (good = false ∨ r.state ≠ .printing ∨ r.held ≠ some n → exec (.moduleDone c n done good) s = .next s) ∧
    (good = false ∨ r.state = .off → exec (.moduleFault c code good) s = .next s) ∧
    (good = false → exec (.moduleStatus c m b good) s = .next s))

/-- The events that take a canceller to FAULT: a FAULT frame (R111), the prime timeout (R99), the reply timeout (R106), the done limit
(R110), with its distance (R103). The clock is the model's (log entry 2). -/
def Obligations.CancellerFaultsEntered : Prop :=
  (∀ s c,
    let r := s.can.recs.get c;
    (∀ code, r.state ≠ .off →
      ∃ t, exec (.moduleFault c code true) s = .next t ∧
      let u := { s with can := { s.can with recs := s.can.recs.set c { r with faultCode := some code } } };
      (r.state ≠ .fault → CancellerFaulted c .module (moduleFailure r.state) u t) ∧
      (r.state = .fault → t = { u with llk := t.llk } ∧ LinkKept [] s t)) ∧
    (∀ t0, r.state ≠ .fault → r.primeTimer = some t0 →
      ∃ t, exec (.primeTimeout c) s = .next t ∧ CancellerFaulted c .primeTimeout none { s with now := max s.now (t0 + 5000) } t) ∧
    (∀ t0, r.state ≠ .fault → r.replyTimer = some t0 →
      ∃ t, exec (.replyTimeout c) s = .next t ∧
        CancellerFaulted c .timeout (some .skippedUnavailable) { s with now := max s.now (t0 + 2) } t) ∧
    (∀ n e j, running s = true → r.state = .printing → r.held = some n → s.entry? n = some e → e.stream = some c →
      e.job = some j → reached s.trk.belt (at' e.anchor (doneOffset s e c)) = true →
      ∃ t, exec (.doneLimit c) s = .next t ∧ CancellerFaulted c .timeout (some .failed) s t)) ∧
  (∀ s (e : Entry) (c : Stream),
    let p := s.pfs.profile;
    doneOffset s e c = (p.dist (if c = .a then .ca else .cb) : Int) + (if e.path = some .twist then p.twist.getD 0 else 0 : Nat) +
      (e.length0.getD 0 : Nat) + (s.can.recs.get c).doneMargin - 1)

/-- MODULE_STATUS is recorded, and acts by the canceller's state: a failed module (R111), the band OVER, and the end of an overheat
(R112, R113). A STATUS that R111 takes to FAULT is acted on by R111 alone, whatever its band (log entry 43). -/
def Obligations.ModuleStatusRecordedAndActed : Prop :=
  ∀ s c m b,
    ∃ t, exec (.moduleStatus c m b true) s = .next t ∧
    let r := { s.can.recs.get c with module := m, band := b }
    let u := { s with can := { s.can with recs := s.can.recs.set c r } }
    let tooHot := m = .primed ∧ b = .over
    let cool := m = .primed ∧ r.state = .overheat ∧ (b = .normal ∨ b = .warm)
    let failed := m = .error ∧ r.state ≠ .off ∧ r.state ≠ .fault ∨
      m = .unprimed ∧ r.state ≠ .off ∧ r.state ≠ .fault ∧ r.state ≠ .priming;
    LinkKept [.cancellerState, .feedHold] s t ∧
    (failed → CancellerFaulted c .module (moduleFailure r.state) u t) ∧
    (tooHot → r.state = .ready → CancellerKept c u t ∧ t.can.recs.get c = { r with state := .overheat, deferred := none } ∧
      (∀ n, r.deferred = some n → OutcomeWritten n .skippedUnavailable s t) ∧
      FlagSet .cancellerState (.canceller c .overheat none) s t) ∧
    (∀ n, tooHot → r.state = .arming ∨ r.state = .armed → r.held = some n → CancellerKept c u t ∧
      t.can.recs.get c = { r with
        state := .overheat, held := none, deferred := none, replyTimer := none
        frames := r.frames ++ [.abort] } ∧
      OutcomeWritten n .skippedUnavailable s t ∧ (∀ n, r.deferred = some n → OutcomeWritten n .skippedUnavailable s t) ∧
      FlagSet .cancellerState (.canceller c .overheat none) s t) ∧
    (cool → r.deferred = none → CancellerKept c u t ∧ t.can.recs.get c = { r with state := .ready } ∧
      t.trk.table = s.trk.table ∧ FlagSet .cancellerState (.canceller c .ready none) s t) ∧
    (¬ failed → ¬ cool → (tooHot → r.state ≠ .ready ∧ r.state ≠ .arming ∧ r.state ≠ .armed) → t = { u with llk := t.llk } ∧
      LinkKept [] s t)

/-! ### Pockets -/

/-- SELECT_POINT commits the letter (R124 to R128): a stream letter to the first pocket of R126, a reject letter to its lane's pocket or ER,
with the gate entries of R86 in turn. An entry that would make a gate queue hold more than 8 is the fault stop OVERRUN, the commitment
staying written (R86). The distance of the select point (R124). -/
def Obligations.SelectPointCommits : Prop :=
  (∀ s n e, running s = true → s.entry? n = some e → e.path ≠ none → e.pocket = none →
    reached s.trk.belt (at' e.anchor (selectOffset s.pfs.profile e : Nat)) = true →
    ∃ t q entries, exec (.selectPoint n) s = .next t ∧
    let r := s.pkc.recs.get q
    let p := s.pfs.profile
    let e' := { e with
      pocket := some q
      cause := if isBin q then some .noPocket else e.cause }
    let cls := if e.result.map (·.cls) = some .meter then PocketClass.metered
      else if e.job.map (·.outcome) = some .done then .cancelled else .uncancelled
    let is := fun k c w => (p.stack.get k).fit = true ∧ (p.stack.get k).cls = c ∧ (s.pkc.recs.get (stackPocket k)).state = w
    let none' := fun st c w => ∀ k ∈ stackOn st, ¬ is k c w
    let first := fun st c w => ∃ l k m, stackOn st = l ++ k :: m ∧ q = stackPocket k ∧ is k c w ∧ ∀ x ∈ l, ¬ is x c w
    let reject := if manualCause e.cause then Pocket.rh else .rm
    let committed := withEntry n e' { s with
      pkc := { s.pkc with recs := s.pkc.recs.set q { r with committed := r.committed + 1 } } }
    let full := fun g => 8 ≤ (s.ptc.gates.get g).queue.length
    let placed := fun (l : List (Gate × Setting)) u =>
      u = { committed with ptc := { s.ptc with gates := u.ptc.gates } } ∧ (∀ x ∈ l, GateQueued x.1 n x.2 committed u) ∧
      (∀ g, (∀ x ∈ l, x.1 ≠ g) → u.ptc.gates.get g = s.ptc.gates.get g);
    (∀ st, e.stream = some st →
      (first st cls .open ∨ none' st cls .open ∧ first st cls .nearFull ∨
        none' st cls .open ∧ none' st cls .nearFull ∧ first st .overflow .open ∨
        none' st cls .open ∧ none' st cls .nearFull ∧ none' st .overflow .open ∧ first st .overflow .nearFull ∨
        none' st cls .open ∧ none' st cls .nearFull ∧ none' st .overflow .open ∧ none' st .overflow .nearFull ∧
          q = (if st = .a then .ea else .eb)) ∧
      (∀ l k m, stackOn st = l ++ k :: m → q = stackPocket k → entries =
        (l.filter (fun x => (p.stack.get x).fit)).map (fun x => (stackGate x, .pass)) ++ [(stackGate k, .divert)]) ∧
      (isBin q = true → entries = ((stackOn st).filter (fun x => (p.stack.get x).fit)).map (fun x => (stackGate x, .pass)))) ∧
    (e.stream = none →
      q = (if (s.pkc.recs.get reject).state = .open ∨ (s.pkc.recs.get reject).state = .nearFull then reject else .er) ∧
      entries = [(if manualCause e.cause then .rh else .rm, if q = reject then .divert else .pass)]) ∧
    ((∀ x ∈ entries, ¬ full x.1) → ∃ u, placed entries u ∧ t = { u with llk := t.llk } ∧ LinkKept [] s t) ∧
    (∀ l x m, entries = l ++ x :: m → (∀ y ∈ l, ¬ full y.1) → full x.1 →
      ∃ u, placed l u ∧ FaultStopped (.overrunGate x.1) u t)) ∧
  (∀ (p : Profile) (e : Entry),
    let extra := if e.path = some .twist then p.twist.getD 0 else 0;
    selectOffset p e = match e.stream with
      | some .a => p.dist .psa + extra
      | some .b => p.dist .psb + extra
      | none => p.dist .psr)

/-- STACKING of a committed letter (R130): the pocket's counts and state (R123, R134), the removal from every list (R18, R24, R30), its
gates and its canceller (R87, R88, R105, R116), the hold causes TABLE, POCKETS and RECORDS (R19, R138, R176), the counters of R163 and
R165, the letter record (R174), the clean-run count (R158), a calibration that is due where the station is left free (R41), and the end of
a drain (R148). The hold cause set is judged once, before the end of the drain (log entry 47). The distance of the stacking position
(R130). -/
def Obligations.StackingRemovesAndCounts : Prop :=
  (∀ s n e q, CancelHeld s → (∀ c, CancellerSound (s.can.recs.get c)) → running s = true → s.entry? n = some e → e.path ≠ none →
    e.pocket = some q → reached s.trk.belt (at' e.anchor (stackOffset s.pfs.profile e q : Nat)) = true →
    ∃ t u, exec (.stacking n) s = .next t ∧
    let p := s.pfs.profile
    let r := { s.pkc.recs.get q with
      count := (s.pkc.recs.get q).count + 1
      committed := (s.pkc.recs.get q).committed - 1 }
    let state := if isBin q = true then r.state else
      match r.state with
      | .open | .nearFull | .full => stateByCount p q r
      | .sweepPending => if r.committed = 0 then .sweep else .sweepPending
      | .sweep => .sweep
      | .disabled => .disabled
    let moves := state ≠ r.state
    let joins := p.records = true ∧ s.cnb.records.length < 96
    let lost := p.records = true ∧ 96 ≤ s.cnb.records.length
    let raises := joins ∧ p.reportHold = true ∧ s.cnb.records.length = 79
    let lowers := s.trk.table.length = p.releaseAt + 1
    let stream := stackOf q ≠ none
    let b := s.cnb.bank
    let b' := u.cnb.bank;
    u = { s with
      trk := { s.trk with table := u.trk.table }
      pcm := { s.pcm with sups := u.pcm.sups }
      scu := u.scu
      ptc := { s.ptc with gates := u.ptc.gates }
      can := { s.can with recs := u.can.recs }
      pkc := { recs := s.pkc.recs.set q { r with state := state }, blocked := u.pkc.blocked }
      flc := { s.flc with
        holds := { s.flc.holds with
          table := if lowers then false else s.flc.holds.table
          pockets := if moves then !u.pkc.blocked.isEmpty else s.flc.holds.pockets
          records := if raises then true else s.flc.holds.records }
        faultCount := if isBin q = false ∧ p.cleanRun ≤ s.flc.cleanRun + 1 then 0 else s.flc.faultCount
        cleanRun := if isBin q = true then s.flc.cleanRun else if p.cleanRun ≤ s.flc.cleanRun + 1 then 0 else s.flc.cleanRun + 1 }
      cnb := { s.cnb with
        bank := { b' with marks := b.marks, lengths := b.lengths }
        records := if joins then s.cnb.records ++ [recordOf e (.stacked q)] else s.cnb.records }
      llk := u.llk } ∧
    u.trk.table.map (fun x => { x with job := none }) = (s.trk.table.erase e).map (fun x => { x with job := none }) ∧
    ((∀ c, (s.can.recs.get c).held ≠ some n) → u.trk.table = s.trk.table.erase e) ∧
    (∀ m f, m ≠ n → s.entry? m = some f → (∀ c, (s.can.recs.get c).held = some n → (s.can.recs.get c).deferred ≠ some m) →
      u.entry? m = some f) ∧
    (∀ c, (u.pcm.sups.get c).expected = (s.pcm.sups.get c).expected.filter (fun m => decide (m ≠ n)) ∧
      (∀ p, (u.pcm.sups.get c).passing = some p ↔ (s.pcm.sups.get c).passing = some p ∧ p.letter ≠ n)) ∧
    (∀ g,
      let g' := s.ptc.gates.get g
      let user := match g'.user with | some x => if x.letter = n then none else some x | none => none;
      GateTook g { g' with user := user } (g'.queue.filter fun x => decide (x.1 ≠ n)) s u) ∧
    (∀ c,
      let k := s.can.recs.get c
      let k' := u.can.recs.get c
      let density := if k.band = .hot then Density.reduced else .full;
      (k.held ≠ some n → k' = { k with deferred := if k.deferred = some n then none else k.deferred }) ∧
      (k.held = some n → k.deferred = none ∨ k.deferred = some n →
        k' = { k with state := .ready, held := none, deferred := none, replyTimer := none, frames := k.frames ++ [.abort] }) ∧
      (∀ m f j, k.held = some n → (∀ d, d ≠ c → (s.can.recs.get d).held ≠ some n) → k.deferred = some m → m ≠ n →
        s.entry? m = some f → f.job = some j →
        k' = { k with
          state := .arming, held := some m, deferred := none, replyTimer := some s.now
          frames := k.frames ++ [.abort, .impression (impressionOf f j density)] } ∧
        (u.entry? m).bind (·.job) = some { j with density := some density })) ∧
    CalibratedIfFree s u ∧
    (moves → (∀ c, c ∈ u.pkc.blocked ↔ isBlocked u c = true) ∧ FlagSet .pocketState (.pocket q state) s u) ∧
    (¬ moves → u.pkc.blocked = s.pkc.blocked ∧ u.llk.flags.get .pocketState = s.llk.flags.get .pocketState) ∧
    b'.flow = { b.flow with
      stacked := if stream then b.flow.stacked + 1 else b.flow.stacked
      rejected := if stream then b.flow.rejected else b.flow.rejected + 1
      late := if e.late then b.flow.late + 1 else b.flow.late } ∧
    b'.line = { b.line with
      lengthSumMm := if stream then b.line.lengthSumMm + BitVec.ofNat 32 (e.length0.getD 0 / 4) else b.line.lengthSumMm
      recordsLost := if lost then b.line.recordsLost + 1 else b.line.recordsLost
      holdCrossings := b'.line.holdCrossings } ∧
    (∀ p, b'.pockets.get p = if p = q then b.pockets.get p + 1 else b.pockets.get p) ∧
    (∀ c, b'.rejects.get c = if e.cause = some c then b.rejects.get c + 1 else b.rejects.get c) ∧
    (∀ c j, e.stream = some c → e.job = some j →
      b'.cancel.get c = { b.cancel.get c with
        done := (b.cancel.get c).done + if j.outcome = .done then 1 else 0
        busy := (b.cancel.get c).busy + if j.outcome = .skippedBusy then 1 else 0
        unavailable := (b.cancel.get c).unavailable + if j.outcome = .skippedUnavailable then 1 else 0
        parity := (b.cancel.get c).parity + if j.outcome = .skippedParity then 1 else 0
        failed := (b.cancel.get c).failed + if j.outcome = .failed then 1 else 0
        truncated := (b.cancel.get c).truncated + if j.truncated then 1 else 0
        reduced := (b.cancel.get c).reduced + if j.density = some .reduced then 1 else 0 }) ∧
    (∀ c, e.stream ≠ some c ∨ e.job = none → b'.cancel.get c = b.cancel.get c) ∧
    (lost → FlagSet .recordsLost (.lost e.number (b.line.recordsLost + 1)) s u) ∧
    HoldJudged s u ∧
    LinkKept ((if moves then [.pocketState] else []) ++ (if lost then [.recordsLost] else []) ++
      if s.flc.holds.any = u.flc.holds.any then [] else [.feedHold]) s u ∧
    (s.flc.line = .drain → u.trk.table = [] → DrainEmptied u t) ∧
    (s.flc.line ≠ .drain ∨ u.trk.table ≠ [] → t = { u with llk := t.llk } ∧ LinkKept [] u t)) ∧
  (∀ (p : Profile) (e : Entry) q, stackOffset p e q = p.dist (pocketStation q) + e.length0.getD 0 +
    (if e.path = some .twist ∧ q ∉ [Pocket.rm, .rh, .er] then p.twist.getD 0 else 0) + (if isBin q = true then 0 else 100)) ∧
  (∀ q, stationName (pocketStation q) = pocketName q) ∧ ∀ q, isBin q = true ↔ q = .ea ∨ q = .eb ∨ q = .er

/-- POCKET_SENSOR_CHANGE records or drops the pending change; POCKET_SENSOR_QUALIFY makes the raw level the qualified one (R123): an end
bin's ACTIVE sensor sets its flag and stops the line (R139), a fitted pocket in OPEN, NEAR_FULL or FULL takes its state by count and
sensor, and no other state moves (R122). The blocked set follows (R138), in POWERUP not before the end of the load (R141, log entry 22).
The clock is the model's (log entry 2). -/
def Obligations.PocketSensorsQualify : Prop :=
  ∀ s q,
    let r := s.pkc.recs.get q;
    (∀ l, r.raw ≠ l → exec (.pocketSensorChange q l) s = .next { s with
      pkc := { s.pkc with recs := s.pkc.recs.set q { r with
        raw := l, change := if l = r.sensor then none else some s.now } } }) ∧
    (∀ t0, r.change = some t0 →
      ∃ t, exec (.pocketSensorQualify q) s = .next t ∧
      let u := { s with
        now := max s.now (t0 + 100)
        pkc := { s.pkc with recs := s.pkc.recs.set q { r with sensor := r.raw, change := none } } };
      (isBin q = true → FlagSet .endBin (.bin q r.raw) s t ∧
        (running s = true → r.raw = .active → FaultStopped (.endBinFull q) (setFlag .endBin (.bin q r.raw) u) t) ∧
        (running s = false ∨ r.raw = .clear → t = { u with llk := t.llk } ∧ LinkKept [.endBin] s t)) ∧
      (isBin q = false → s.pfs.profile.fitted q = true → (r.state = .open ∨ r.state = .nearFull ∨ r.state = .full) →
        PocketStateTo q (stateByCount s.pfs.profile q { r with sensor := r.raw }) u t) ∧
      (isBin q = false → s.pfs.profile.fitted q = false ∨ r.state = .sweepPending ∨ r.state = .sweep ∨ r.state = .disabled →
        t = { u with llk := t.llk } ∧ LinkKept [] s t))

/-- SWEEP_BUTTON_PRESS is timed from its raw press; SWEEP_BUTTON_RELEASE classes it by its duration (R132): a short press sweeps, withdraws
or completes (R133, R134), a long one disables or enables (R135), and any other has no effect, nor has one of a pocket that is not
fitted. The blocked set follows (R138), in POWERUP not before the end of the load (R141, log entry 22). A release that is bridged is none:
log entry 15. -/
def Obligations.SweepButtonsSweepAndDisable : Prop :=
  ∀ s q,
    let r := s.pkc.recs.get q;
    (isBin q = false → r.press = none → exec (.sweepButtonPress q) s = .next { s with
      pkc := { s.pkc with recs := s.pkc.recs.set q { r with press := some s.now } } }) ∧
    (∀ t0, r.press = some t0 →
      exec (.sweepButtonRelease q true) s = .next s ∧
      ∃ t, exec (.sweepButtonRelease q false) s = .next t ∧
      let d := s.now - t0
      let with' := fun r' => { s with pkc := { s.pkc with recs := s.pkc.recs.set q r' } }
      let u := with' { r with press := none }
      let unchanged := t = { u with llk := t.llk } ∧ LinkKept [] s t
      let byCount := stateByCount s.pfs.profile q;
      (s.pfs.profile.fitted q = false ∨ d < 50 ∨ 8000 < d → unchanged) ∧
      (s.pfs.profile.fitted q = true → 50 ≤ d → d < 2000 →
        (r.state = .open ∨ r.state = .nearFull ∨ r.state = .full →
          PocketStateTo q (if r.committed = 0 then .sweep else .sweepPending) u t) ∧
        (r.state = .sweepPending → PocketStateTo q (byCount r) u t) ∧
        (r.state = .sweep →
          PocketStateTo q (byCount { r with count := 0 }) (with' { r with press := none, count := 0 }) t) ∧
        (r.state = .disabled → unchanged)) ∧
      (s.pfs.profile.fitted q = true → 2000 ≤ d → d ≤ 8000 →
        (r.state = .disabled → PocketStateTo q (byCount r) u t) ∧
        (r.state ≠ .disabled → r.committed = 0 → PocketStateTo q .disabled u t) ∧
        (r.state ≠ .disabled → r.committed ≠ 0 → unchanged)))

/-! ### The line and its timers -/

/-- RUN_UP_COMPLETE in STARTING with the run-up qualification present: RUN with cause RUN_UP, the run-up timer stopped, and the feeder
enabled where the hold cause set is empty (R145, R149). HOLD_COUNTDOWN_END lowers LINE (R151); LINK_SILENCE sets its flag and drains the
line from STARTING and RUN (R147); HORN_PULSE_END ends the pulse (R160). The clock is the model's (log entry 2). The outputs that follow
the state: drive enable and feed enable (R149), and the lines of the signal tower by their sources and the horn pulse, off in POWERUP
(R159, R160). -/
def Obligations.TimersOfTheLineExpire : Prop :=
  (∀ s t0, CancelHeld s → s.flc.line = .starting → s.flc.runUpQual = some t0 → ∃ t, exec .runUpComplete s = .next t ∧
    t = { s with
      now := max s.now (t0 + 200)
      flc := { s.flc with line := .run, runUp := none, runUpQual := none }
      llk := t.llk } ∧
    FlagSet .lineState (.line .run .runUp none) s t ∧ LinkKept [.lineState] s t ∧
    (feedEnable t = true ↔ s.flc.holds.any = false)) ∧
  (∀ s,
    (∀ p, s.flc.countdown = some p → reached s.trk.belt p = true →
      ∃ t, exec .holdCountdownEnd s = .next t ∧
        t = { withHolds s t with
          flc := { s.flc with countdown := none, holds := t.flc.holds }
          llk := t.llk } ∧
        HoldMoved .line false s t ∧ LinkKept [.feedHold] s t) ∧
    (s.pfs.profile.linkTimeout ≠ 0 → s.llk.silent = false →
      ∃ t, exec .linkSilence s = .next t ∧
      let u := { s with
        now := max s.now (s.llk.silenceStart + s.pfs.profile.linkTimeout * 100)
        llk := { s.llk with silent := true } }
      let v := setFlag .linkSilent (.silent s.flc.line) u;
      FlagSet .linkSilent (.silent s.flc.line) s t ∧
      ((s.flc.line = .starting ∨ s.flc.line = .run) → DrainEntered .linkSilent v t) ∧
      (s.flc.line ≠ .starting → s.flc.line ≠ .run → t = { u with llk := t.llk } ∧ LinkKept [.linkSilent] u t)) ∧
    (∀ t0, s.flc.horn = some t0 →
      exec .hornPulseEnd s = .next { s with now := max s.now (t0 + 3000), flc := { s.flc with horn := none } })) ∧
  (∀ s,
    let held := s.flc.holds ≠ ⟨false, false, false, false, false⟩;
    (driveEnable s = true ↔ s.flc.line = .starting ∨ s.flc.line = .run ∨ s.flc.line = .drain) ∧
    (feedEnable s = true ↔ s.flc.line = .run ∧ ¬ held) ∧
    ∀ l,
      let set := towerSources s.pfs.profile l;
      (towerOn s l = true ↔ s.flc.line ≠ .powerup ∧
        (set.run = true ∧ s.flc.line = .run ∨ set.feeding = true ∧ s.flc.line = .run ∧ ¬ held ∨
          set.held = true ∧ s.flc.line = .run ∧ held ∨ set.fault = true ∧ s.flc.line = .fault ∨
          set.pocketAttention = true ∧ (∃ q, (s.pkc.recs.get q).state = .nearFull ∨ (s.pkc.recs.get q).state = .full ∨
            (s.pkc.recs.get q).state = .sweepPending) ∨
          set.headAttention = true ∧ (∃ h, (s.scu.heads.get h).state ≠ .ready) ∨
          set.cancelAttention = true ∧ (∃ c, (s.can.recs.get c).state ≠ .ready ∧ (s.can.recs.get c).state ≠ .arming ∧
            (s.can.recs.get c).state ≠ .armed ∧ (s.can.recs.get c).state ≠ .printing) ∨
          set.anyFlag = true ∧ (∃ k, (s.llk.flags.get k).set = true) ∨
          l = .horn ∧ s.flc.horn.isSome = true)))

/-! ### The line link -/

/-- CHARACTER_RECEIVED collects, marks and discards by R178, a printable character with a framing error marking the line without being
collected (log entry 46); an LF hands the line to its classification (R179). A valid request line is the command of its request; a
malformed line is refused at rest, dropped with OVERFLOW at 8 items, and without reply after an accepted RESTART (R180, R181, R184; log
entry 27). The fields of a line, and its check, a CRC-8 whose digits are read in either case (R179; that a byte is taken most significant
bit first is log entry 48). The field of UNKNOWN, `-` where it is empty, is log entry 29. LINE_GAP_TIMEOUT abandons a line in progress
(R178); its clock is the model's (log entry 2), and that it clears the marks is log entry 38. -/
def Obligations.CharactersCollected : Prop :=
  (∀ s c bad,
    let rx := s.llk.rx
    let became := fun rx' t => t = { s with llk := t.llk } ∧ LinkKept [] { s with llk := { s.llk with rx := rx' } } t
    let empty : Rx := { buf := [], overlong := false, bad := false, crNoted := false, crLast := false, lastChar := s.now };
    (c ≠ 0x0A ∨ bad = true →
      ∃ t, exec (.characterReceived c bad) s = .next t ∧
      (rx.overlong = true → became { rx with lastChar := s.now } t) ∧
      (rx.overlong = false →
        (bad = true → became { rx with lastChar := s.now, bad := true, crLast := false } t) ∧
        (bad = false → 0x20 ≤ c.toNat → c.toNat ≤ 0x7E → rx.buf.length < 200 →
          became { rx with lastChar := s.now, buf := rx.buf ++ [c], crLast := false } t) ∧
        (bad = false → 0x20 ≤ c.toNat → c.toNat ≤ 0x7E → 200 ≤ rx.buf.length →
          became { rx with lastChar := s.now, overlong := true, crLast := false } t) ∧
        (bad = false → c = 0x0D → became { rx with lastChar := s.now, crNoted := true, crLast := true } t) ∧
        (bad = false → c.toNat < 0x20 ∨ 0x7E < c.toNat → c ≠ 0x0D →
          became { rx with lastChar := s.now, bad := true, crLast := false } t))) ∧
    (∃ t, exec (.characterReceived 0x0A false) s = .next t ∧
      (rx.buf = [] → rx.overlong = false → became empty t) ∧
      (rx.buf ≠ [] ∨ rx.overlong = true →
        let v := { s with llk := { s.llk with rx := empty } }
        let refused := fun e reply =>
          (LinkIdle s → t = replying reply (setFlag .linkError (.linkError e) v)) ∧
          (s.llk.restarting = true ∨ s.llk.answers.length < 8 → t = { s with llk := t.llk } ∧
            FlagSet .linkError (.linkError e) s t ∧
            LinkKept [.linkError] { v with llk := { v.llk with
              answers := if s.llk.restarting then s.llk.answers else s.llk.answers ++ [.answered reply] } } t) ∧
          (s.llk.restarting = false → 8 ≤ s.llk.answers.length → t = { s with llk := t.llk } ∧
            FlagSet .linkError (.linkError .overflow) s t ∧ LinkKept [.linkError] v t);
        (classify rx = .long → refused .length (.deny (text "?") .length none)) ∧
        (classify rx = .badCheck → refused .check (.deny (text "?") .check none)) ∧
        (∀ f, classify rx = .unknown f →
          refused (.unknown f) (.deny (if f = [] then text "-" else f.take 16) .unknown none)) ∧
        (∀ r i, classify rx = .request r → requestOf i = some r → exec i v = .next t) ∧
        (∀ verb, classify rx = .request (.malformed verb) → LinkIdle s → t = replying (.deny verb .range none) (heard v)))) ∧
    (rx.buf ≠ [] ∨ rx.crNoted = true ∨ rx.overlong = true →
      ∃ t, exec .lineGapTimeout s = .next t ∧
        t = { s with now := max s.now (rx.lastChar + 20), llk := t.llk } ∧
        LinkKept [.linkError] { s with llk := { s.llk with rx := { empty with lastChar := rx.lastChar } } } t ∧
        FlagSet .linkError (.linkError .gap) s t)) ∧
  (∀ rx : Rx,
    (rx.overlong = true → classify rx = .long) ∧
    (rx.overlong = false → rx.bad = true ∨ rx.crLast = false → classify rx = .badCheck) ∧
    (rx.overlong = false → rx.bad = false → rx.crLast = true →
      let checks := fun body => ∃ a b x y, rx.buf = body ++ [0x2A, a, b] ∧ hexValue a = some x ∧ hexValue b = some y ∧
        16 * x + y = (crc8 body).toNat;
      ((∀ body, ¬ checks body) → classify rx = .badCheck) ∧
      (∀ body f args, checks body → splitAt 0x20 body = f :: args →
        ((∀ v, verbName v ≠ f) → classify rx = .unknown f) ∧
        (∀ v, verbName v = f → classify rx = .request ((readArgs v args).getD (.malformed f)))))) ∧
  (∀ body, joinWith 0x20 (splitAt 0x20 body) = body ∧ splitAt 0x20 body ≠ [] ∧ ∀ f ∈ splitAt 0x20 body, 0x20 ∉ f) ∧
  (∀ bytes (b : Byte),
    let shift := fun c : Byte => if c.msb then (c <<< 1) ^^^ 0x07 else c <<< 1;
    crc8 [] = 0 ∧ crc8 (bytes ++ [b]) = (List.range 8).foldl (fun c _ => shift c) (crc8 bytes ^^^ b))

/-- TRANSMIT_LINE_COMPLETE of a line other than a capture line and the reply to RESTART: the item leaves (R175, R180), a report starts its
repeat timer (R187), a record that brings the queue down to 32 lowers RECORDS under REPORT_HOLD (R176), with FEED_HOLD set by that
crossing (R152), and the transmitter picks the next line by the order of R185, but that while the opening of
the lines after a reset stands at the second line it waits in POWERUP and then sends the report of PROFILE_DEFAULTED (R195; that R195 holds
there against R185 is a free value, log entry 49). That the FEED_HOLD report raised by the completion of a
record line competes at that very boundary is the model's choice, log entry 41: R185 leaves an item that becomes available at the event
that completes a line to be taken first or second. -/
def Obligations.NextLinePicked : Prop :=
  ∀ s l, s.llk.tx = some l → l ≠ .reply (.ok (text "RESTART") []) → (∀ c, l ≠ .capture c) →
    ∃ t, exec .transmitLineComplete s = .next t ∧
    let isRecord := match l with | .record _ => true | _ => false
    let lowered := isRecord = true ∧ s.pfs.profile.reportHold = true ∧ s.cnb.records.length = 33
    let crosses := lowered ∧ s.flc.holds.any = true ∧ (s.flc.holds.put false .records).any = false
    let answers := match l with | .reply _ => s.llk.answers.tail | _ => s.llk.answers
    let records := if isRecord then s.cnb.records.tail else s.cnb.records
    let reports := if crosses ∧ (s.llk.flags.get .feedHold).masked = false ∧ .feedHold ∉ s.llk.reports
      then s.llk.reports ++ [.feedHold] else s.llk.reports
    let ready := fun k => t.llk.tx = some k
    let replyReady := ∃ r rest, answers = .answered r :: rest
    let second := s.llk.opening = .due ∧ .profileDefaulted ∈ reports
    let free := s.llk.opening ≠ .loading ∧ ¬ second;
    t = { s with
      flc := { s.flc with holds := t.flc.holds }
      cnb := { s.cnb with records := records }
      llk := { s.llk with
        answers := answers, flags := t.llk.flags, reports := t.llk.reports, tx := t.llk.tx
        opening := if s.llk.opening = .loading then .loading else .done } } ∧
    (s.llk.opening = .loading → t.llk.tx = none ∧ t.llk.reports = reports) ∧
    (second → ready (.report .profileDefaulted (t.llk.flags.get .profileDefaulted).detail) ∧
      t.llk.reports = reports.filter (fun k => decide (k ≠ .profileDefaulted))) ∧
    (lowered → HoldMoved .records false s t) ∧ (¬ lowered → t.flc = s.flc) ∧
    (∀ k d, l = .report k d → s.pfs.profile.eventRepeat ≠ 0 →
      t.llk.flags.get k = { s.llk.flags.get k with repeating := some s.now }) ∧
    (∀ k, (k ≠ .feedHold ∨ ¬ crosses) → (s.pfs.profile.eventRepeat = 0 ∨ ∀ d, l ≠ .report k d) →
      t.llk.flags.get k = s.llk.flags.get k) ∧
    (∀ r rest, free → answers = .answered r :: rest → ready (.reply r) ∧ t.llk.reports = reports) ∧
    (∀ k rest, free → ¬ replyReady → reports = k :: rest →
      ready (.report k (t.llk.flags.get k).detail) ∧ t.llk.reports = rest) ∧
    (free → ¬ replyReady → reports = [] → t.llk.reports = []) ∧
    (∀ r rest, free → ¬ replyReady → reports = [] → records = r :: rest → ready (.record r)) ∧
    (∀ d k ks, free → ¬ replyReady → reports = [] → records = [] → s.mkf.capture = .draining d → d.lines = k :: ks → ready (.capture
      { letter := d.letter, key := k
        values := ((((s.scu.bufs.get d.buf).cells.get k.head).drop k.first).take 32).map fun v => v.get k.channel })) ∧
    (free → ¬ replyReady → reports = [] → records = [] → (∀ d, s.mkf.capture ≠ .draining d) → t.llk.tx = none)

/-- The completion of `= RESTART` resets the part as a power-on does, with detail RESTART (R184, R198), the line of its report begun in
the same event (R189, log entry 12); the completion of a capture line counts it as sent, and with the last one frees the buffer and sets
CAPTURE_DONE, whose report competes at the same boundary (R74; log entry 41), and one of a capture that CAPTURE OFF has ended changes
nothing. EVENT_REPEAT_EXPIRY stops the timer and queues a report where the flag is set, unmasked, its condition holds and none is pending,
and with EVENT_REPEAT 0 stops it without a report (R187). The condition of each of the fourteen kinds (R186). SAVE_WRITE_END leaves the image with the fixed content, passing its check, and
the SAVE answered, and takes a request that waits behind it (R180, R194, R196). The clock is the model's (log entry 2), and the CRC-16 of
an image is a free value (log entry 10). What is picked next is said for a part past the second line after its reset (R195). -/
def Obligations.RestartRepeatsAndWritesEnd : Prop :=
  (∀ s,
    (s.llk.tx = some (.reply (.ok (text "RESTART") [])) →
      ∃ t u, exec .transmitLineComplete s = .next t ∧ exec .powerOnReset s = .next u ∧
        t = { u with llk := { u.llk with flags := t.llk.flags, tx := some (.report .reset (some (.reset .restart))) } } ∧
        (∀ k, t.llk.flags.get k =
          if k = .reset then { set := true, detail := some (.reset .restart), masked := false, repeating := none }
          else u.llk.flags.get k)) ∧
    (∀ c d k ks, s.llk.tx = some (.capture c) → s.mkf.capture = .draining d → d.letter = c.letter → d.lines = k :: ks → c.key = k →
      ∃ t, exec .transmitLineComplete s = .next t ∧
        (ks ≠ [] → t.mkf = { s.mkf with capture := .draining { d with lines := ks } } ∧ t.scu = s.scu) ∧
        (ks = [] → t.mkf = { s.mkf with capture := .off } ∧
          t.scu = { s.scu with bufs := s.scu.bufs.set d.buf freeBuf } ∧
          FlagSet .captureDone (.captured d.letter d.cls) s t ∧
          (s.llk.opening ≠ .loading → s.llk.answers = [] → s.llk.reports = [] → (s.llk.flags.get .captureDone).masked = false →
            t.llk.tx = some (.report .captureDone (some (.captured d.letter d.cls))) ∧ t.llk.reports = [])) ∧
        (∀ m, s.llk.opening ≠ .loading → ks.head? = some m → (∀ a rest, s.llk.answers ≠ .answered a :: rest) → s.llk.reports = [] → s.cnb.records = [] →
          t.llk.tx = some (.capture
            { letter := d.letter, key := m
              values := ((((s.scu.bufs.get d.buf).cells.get m.head).drop m.first).take 32).map fun v => v.get m.channel })) ∧
        t = { s with mkf := t.mkf, scu := t.scu, llk := t.llk } ∧
        LinkKept (if ks = [] then [.captureDone] else []) { s with llk := { s.llk with tx := none } } t) ∧
    (∀ c, s.llk.tx = some (.capture c) → (∀ d, s.mkf.capture = .draining d → d.letter ≠ c.letter) →
      ∃ t, exec .transmitLineComplete s = .next t ∧ t = { s with llk := t.llk } ∧
        LinkKept [] { s with llk := { s.llk with tx := none } } t)) ∧
  (∀ s,
    (∀ k t0, (s.llk.flags.get k).repeating = some t0 →
      ∃ t, exec (.eventRepeatExpiry k) s = .next t ∧
      let f := { s.llk.flags.get k with repeating := none }
      let due := f.set = true ∧ f.masked = false ∧ condition s k = true ∧ k ∉ s.llk.reports
      let u := { s with llk := { s.llk with flags := s.llk.flags.set k f } };
      (s.pfs.profile.eventRepeat = 0 → t = u) ∧
      (s.pfs.profile.eventRepeat ≠ 0 →
        t = { s with now := max s.now (t0 + s.pfs.profile.eventRepeat * 1000), llk := t.llk } ∧
        LinkKept (if due then [k] else []) u t ∧ t.llk.flags.get k = f ∧
        (due → s.llk.tx ≠ none → t.llk.reports = s.llk.reports ++ [k]) ∧
        (due → s.llk.opening ≠ .loading → s.llk.tx = none → s.llk.answers = [] → s.llk.reports = [] →
          t.llk.tx = some (.report k f.detail)))) ∧
    (∀ p, s.pfs.saving = some p → s.llk.restarting = false → s.llk.tx = none → s.llk.opening = .done →
      let saved := Reply.ok (text "SAVE") [hexDigits 4 (Config.imageCrc 1 p).toNat]
      let u := { s with pfs := { s.pfs with image := { format := 1, contents := p, crc := Config.imageCrc 1 p }, saving := none } };
      ImagePasses u.pfs.image ∧
      (s.llk.answers = [.inProgress] → exec .saveWriteEnd s = .next (replying saved u)) ∧
      (∀ r, s.llk.answers = [.inProgress, .waiting r] →
        let v := { u with llk := { u.llk with answers := [.answered saved, .waiting r] } }
        let w := judgeHold s.flc.holds.any { (perform r v).1 with
          llk := { (perform r v).1.llk with answers := [.answered saved, (perform r v).2] } };
        exec .saveWriteEnd s = .next { w with llk := { w.llk with tx := some (.reply saved) } }))) ∧
  (∀ s k, condition s k = true ↔ match k with
    | .lineState | .parity | .linkError | .profileDefaulted | .reset | .captureDone => False
    | .fault => s.flc.line = .fault
    | .feedHold => s.flc.holds ≠ ⟨false, false, false, false, false⟩
    | .headState => ∃ h, (s.scu.heads.get h).state ≠ .ready
    | .cancellerState => ∃ c, (s.can.recs.get c).state = .off ∨ (s.can.recs.get c).state = .priming ∨
        (s.can.recs.get c).state = .overheat ∨ (s.can.recs.get c).state = .fault
    | .pocketState => ∃ q, (s.pkc.recs.get q).state = .nearFull ∨ (s.pkc.recs.get q).state = .full ∨
        (s.pkc.recs.get q).state = .sweepPending
    | .endBin => ∃ q, (q = .ea ∨ q = .eb ∨ q = .er) ∧ (s.pkc.recs.get q).sensor = .active
    | .recordsLost => s.cnb.records.length = 96
    | .linkSilent => s.llk.silent = true)

/-! ### Requests

Each is stated for a link at rest, whose answer list is empty and whose transmitter is idle, so that the request is taken at its
arrival and its reply begun (R180, R185), or kept waiting for the second line after a reset (R195, log entry 49). `heard s` has the silence timer restarted (R147). -/

/-- A request that is refused has no effect (R181). Off rest, a completed request line is discarded after an accepted RESTART (R184),
dropped with OVERFLOW at 8 items, refused BUSY with 4 WAITING, and waits behind a SAVE in progress (R180); the silence timer restarts in
every case (R147, R179; log entry 27). Where every item ahead is answered and the transmitter is busy, a request is taken at its arrival
as on a link at rest, and only its reply waits. -/
def Obligations.RefusedRequestsChangeNothing : Prop :=
  (∀ r s verb cause detail, (perform r s).2 = .answered (.deny verb cause detail) → (perform r s).1 = s) ∧
  (∀ i r s, requestOf i = some r →
    ∃ t, exec i s = .next t ∧
    let joined := fun item => { heard s with llk := { (heard s).llk with answers := s.llk.answers ++ [item] } };
    (s.llk.restarting = true → t = { s with llk := t.llk } ∧ LinkKept [] (heard s) t) ∧
    (s.llk.restarting = false → 8 ≤ s.llk.answers.length → t = { s with llk := t.llk } ∧
      FlagSet .linkError (.linkError .overflow) s t ∧ LinkKept [.linkError] (heard s) t) ∧
    (s.llk.restarting = false → s.llk.answers.length < 8 → 4 ≤ waitingCount s.llk.answers →
      t = { s with llk := t.llk } ∧ LinkKept [] (joined (.answered (.deny (requestVerb r) .busy none))) t) ∧
    (s.llk.restarting = false → s.llk.answers.length < 8 → waitingCount s.llk.answers < 4 → .inProgress ∈ s.llk.answers →
      firstTakeable s.llk.answers = none → t = { s with llk := t.llk } ∧ LinkKept [] (joined (.waiting r)) t)) ∧
  (∀ i r s l rep u, requestOf i = some r → s.llk.tx = some l → s.llk.restarting = false → s.llk.answers.length < 8 →
    (∀ x ∈ s.llk.answers, ∃ a, x = .answered a) → Answers i { s with llk := { s.llk with answers := [], tx := none, opening := .done } } rep u →
    exec i s = .next { u with llk := { u.llk with
      answers := s.llk.answers ++ [.answered rep], tx := some l, opening := s.llk.opening } })

/-- PING, STATUS, GET, POCKETS, COUNT, TABLE and FLAGS read, and change nothing but the silence timer (R171, R182, R183, R188). What they
give: the sections of STATUS, the pockets in their order with the blocked set, the record of one pocket (R121, R190), the entries of a page
in their order (R162), up to five entries of the table with the head distance in millimetres, taken at the fault position for a stranded
letter (R16, R182), and the bit of each kind (R186). In POWERUP R191 refuses a GET, before its name is read, and R183 takes it: which holds is
a free value for each name (log entry 39). Of the layout, the joining of a state code and its count, the characters of the tower lines, the fault detail of two parts, the
rounding of the distance, the decimal IN_TABLE, UTILISATION and module fault code, and the full names of POCKETS with a pocket are the
model's choice, log entry 18. TABLE shows, for the same entries in the same order, the outcome, the truncated flag and the density of the cancel
job (R119), the pocket committed and NO_POCKET (R140); that these stand after all the fields of R190, in the forms of a letter record, is log
entry 40. -/
def Obligations.ReadingRequestsAnswer : Prop :=
  (∀ s, LinkIdle s →
    Answers .ping s (.ok (text "PING") []) (heard s) ∧
    (∀ part, Answers (.status part) s
      (.ok (text "STATUS") (sectionName (part.getD .line) :: statusFields (heard s) (part.getD .line))) (heard s)) ∧
    (∀ name, s.flc.line = .powerup →
      Answers (.get name) s (.deny (text "GET") .wrongState none) (heard s) ∨ Config.getInPowerup name = true) ∧
    (∀ name, (s.flc.line = .powerup → Config.getInPowerup name = true) → readParam name = none →
      Answers (.get name) s (.deny (text "GET") .name none) (heard s)) ∧
    (∀ name p, (s.flc.line = .powerup → Config.getInPowerup name = true) → readParam name = some p →
      Answers (.get name) s (.ok (text "GET") [name, valueText (paramForm p) (s.pfs.profile.read p)]) (heard s)) ∧
    Answers (.pockets none) s (.ok (text "POCKETS") (pocketsFields s)) (heard s) ∧
    (∀ q, Answers (.pockets (some q)) s (.ok (text "POCKETS") (pocketFields s q)) (heard s)) ∧
    (∀ p, p ≤ 6 → Answers (.count p) s
      (.ok (text "COUNT") ([dec p, hex8 s.cnb.snap.number, hex8 s.cnb.snap.pos] ++ pageFields s.cnb.snap p)) (heard s)) ∧
    (∀ p, 6 < p → Answers (.count p) s (.deny (text "COUNT") .range none) (heard s)) ∧
    (∀ i, i.getD 0 ≤ 63 → Answers (.table i) s (.ok (text "TABLE") (tableFields s (i.getD 0))) (heard s)) ∧
    (∀ i, 63 < i.getD 0 → Answers (.table i) s (.deny (text "TABLE") .range none) (heard s)) ∧
    Answers .flags s
      (.ok (text "FLAGS") [hexDigits 4 (flagBits s (·.set)), hexDigits 4 (flagBits s (·.masked))]) (heard s)) ∧
  (∀ (s : State) (test : Flag → Bool),
    let kinds := [Kind.lineState, .fault, .feedHold, .headState, .cancellerState, .parity, .pocketState, .endBin, .recordsLost,
      .linkError, .linkSilent, .profileDefaulted, .reset, .captureDone];
    flagBits s test < 2 ^ 14 ∧ ∀ i k, kinds[i]? = some k → (flagBits s test).testBit i = test (s.llk.flags.get k)) ∧
  (∀ s i, ∃ entries disposals : List (List Text),
    tableFields s i = [dec s.trk.table.length, dec i] ++ entries.flatten ++ disposals.flatten ∧
    entries.length = min 5 (s.trk.table.length - i) ∧ disposals.length = entries.length ∧
    ∀ j e, j < 5 → s.trk.table[i + j]? = some e →
      let stood := match e.stranded, s.flc.fault with | true, some f => f.pos | _, _ => s.trk.belt
      let path := match e.path with
        | none => "-" | some .straight => "STRAIGHT" | some .twist => "TWIST" | some .reject => "REJECT";
      entries[j]? = some [dec e.number.toNat, text path, cellName e.lastPe, text (if e.stranded then "S" else "-"),
        dec ((stood - e.anchor).toInt.toNat / 4)] ∧
      ∃ outcome marks pocket cause : Text, disposals[j]? = some [outcome, marks, pocket, cause] ∧
        (e.job = none → outcome = text "-" ∧ marks = text "-") ∧
        (∀ job, e.job = some job →
          outcome = text (match job.outcome with
            | .pending => "PENDING" | .done => "DONE" | .skippedBusy => "SKIPPED_BUSY" | .skippedUnavailable => "SKIPPED_UNAVAILABLE"
            | .skippedParity => "SKIPPED_PARITY" | .failed => "FAILED") ∧
          marks = text (if job.truncated then "T" else "-") ++ text (if job.density = some .reduced then "R" else "-")) ∧
        (e.pocket = none → pocket = text "-") ∧ (∀ q, e.pocket = some q → pocket = pocketName q) ∧
        (e.cause = some .noPocket → cause = text "NO_POCKET") ∧ (e.cause ≠ some .noPocket → cause = text "-")) ∧
  (∀ n : Snapshot,
    let flow := n.bank.flow
    let marks := n.bank.marks
    let rejects := n.bank.rejects.get
    let cancel := fun (c : CancelPage) => [c.done, c.busy, c.unavailable, c.parity, c.failed, c.truncated, c.reduced, c.parityErrors]
    let line := n.bank.line;
    pageFields n 0 = [hex8 flow.inducted, hex8 flow.scanned, hex8 flow.unscanned, hex8 flow.stacked, hex8 flow.rejected,
      hex8 flow.cleared, hex8 flow.late, dec n.inTable] ∧
    pageFields n 1 = [marks.classes.get .phosphor, marks.classes.get .meter, marks.classes.get .bright, marks.classes.get .noMark,
      marks.classes.get .offcorner, marks.classes.get .ambiguous, marks.degraded, marks.saturated, marks.orients.get .o0,
      marks.orients.get .o1, marks.orients.get .o2, marks.orients.get .o3].map hex8 ∧
    pageFields n 2 = [rejects .offsize, rejects .gap, rejects .double, rejects .unscanned, rejects .late, rejects .merge, rejects .noMark,
      rejects .offcorner, rejects .ambiguous, rejects .brightManual, rejects .noTwist, rejects .noPocket].map hex8 ∧
    pageFields n 3 = (cancel (n.bank.cancel.get .a) ++ cancel (n.bank.cancel.get .b)).map hex8 ∧
    pageFields n 4 = ([Pocket.a1, .a2, .a3, .a4, .a5, .a6, .b1, .b2, .b3, .b4, .b5, .b6, .rm, .rh, .ea, .eb, .er].map
      n.bank.pockets.get).map hex8 ∧
    pageFields n 5 = ([Bucket.b120, .b150, .b180, .b210, .b240, .b270, .short, .long].map n.bank.lengths.get).map hex8 ∧
    pageFields n 6 = [hex8 line.faultStops, hex8 line.holdCrossings, hex8 line.beltRunMm, hex8 line.lengthSumMm, hex8 line.recordsLost,
      dec n.utilisation]) ∧
  (∀ s, ∃ fields : List Text,
    pocketsFields s = fields ++ [listField (s.pkc.blocked.map blockCode)] ∧ fields.length = 17 ∧
    ∀ (i : Nat) q, [Pocket.a1, .a2, .a3, .a4, .a5, .a6, .b1, .b2, .b3, .b4, .b5, .b6, .rm, .rh, .ea, .eb, .er][i]? = some q →
      let r := s.pkc.recs.get q
      let bin := q = .ea ∨ q = .eb ∨ q = .er;
      ∃ code : String, fields[i]? = some (text code ++ dec r.committed) ∧
        (bin → code = if r.sensor = .active then "A" else "C") ∧
        (¬ bin → s.pfs.profile.fitted q = false → code = "X") ∧
        (¬ bin → s.pfs.profile.fitted q = true → code = match r.state with
          | .open => "O" | .nearFull => "N" | .full => "F" | .sweepPending => "P" | .sweep => "S" | .disabled => "D")) ∧
  ([BlockClass.on .a .cancelled, .on .a .metered, .on .a .uncancelled, .on .b .cancelled, .on .b .metered, .on .b .uncancelled, .machine,
    .manual].map blockCode = ["AC", "AM", "AU", "BC", "BM", "BU", "MC", "MN"].map text) ∧
  (∀ (f g : Text) (rest : List Text), listField [] = text "-" ∧ listField [f] = f ∧
    listField (f :: g :: rest) = f ++ text "," ++ listField (g :: rest)) ∧
  (∀ s q,
    let r := s.pkc.recs.get q
    let p := s.pfs.profile
    let bin := q = .ea ∨ q = .eb ∨ q = .er
    let sensor := if r.sensor = .active then text "ACTIVE" else text "CLEAR";
    (bin → pocketFields s q = [pocketName q, dec r.count, dec r.committed, sensor]) ∧
    (¬ bin → ∃ cls, pocketFields s q = [pocketName q, text (if p.fitted q then "YES" else "NO"), cls, dec (p.capacity q),
        dec (p.nearFull q), dec r.count, dec r.committed, pocketStateName r.state, sensor] ∧
      (q = .rm → cls = text "MACHINE") ∧ (q = .rh → cls = text "MANUAL") ∧
      ∀ x, stackOf q = some x → cls = pocketClassName (p.stack.get x).cls)) ∧
  (∀ s,
    let fault := s.flc.fault
    let tower := fun l c => if towerOn s l then text c else text "-"
    let level := fun c => if (s.pcm.cells.get c).qual = .blocked then text "B" else text "C";
    statusFields s .line =
      [lineName s.flc.line, text (if driveEnable s then "ON" else "OFF"), text (if feedEnable s then "ON" else "OFF"),
        listField (s.flc.holds.present.map holdName), field (fun p => dec2 ((p - s.trk.belt).toInt.toNat / 40)) s.flc.countdown,
        field (fun f => faultName f.call) fault, field (fun f => listField (faultDetail f.call)) fault,
        field (fun f => hex8 f.pos) fault, field (fun f => lineName f.left) fault, dec s.flc.faultCount, dec s.flc.cleanRun,
        text (if s.flc.estop then "ASSERTED" else "RELEASED"),
        tower .green "G" ++ tower .amber "A" ++ tower .red "R" ++ tower .horn "H"] ∧
    statusFields s .track =
      [hex8 s.trk.belt, dec2 s.trk.speed, dec s.trk.table.length, dec s.trk.nextNumber.toNat,
        level .pe0 ++ level .pe1 ++ level .pe2 ++ level .pe3a ++ level .pe3b ++ level .pe4r] ∧
    (let head := fun h =>
      let r := s.scu.heads.get h
      [headStateName r.state, dec r.run, dec r.code, dec r.refCode, dec r.lref];
     statusFields s .heads = head .ft ++ head .fb ++ head .bt ++ head .bb) ∧
    (let canceller := fun c =>
      let r := s.can.recs.get c
      [cancStateName r.state, field cancCauseName r.cause, bandName r.band, moduleStateName r.module,
        field (fun (v : BitVec 8) => dec v.toNat) r.faultCode, dec r.parityRun];
     statusFields s .cancel = canceller .a ++ canceller .b) ∧
    (let gate := fun g =>
      let r := s.ptc.gates.get g
      settingName r.setting ++ text (if r.settle = none then ".I" else ".S");
     statusFields s .gates =
      [Gate.g1, .gr, .g2, .a1, .a2, .a3, .a4, .a5, .a6, .b1, .b2, .b3, .b4, .b5, .b6, .rm, .rh].map gate) ∧
    statusFields s .pockets = pocketsFields s) ∧
  (∀ (α : Type) (f : α → Text) v, field f none = text "-" ∧ field f (some v) = f v)

/-- START with none of the conditions of R144 applying enters STARTING (R145): the run-up timer, the previous tail and the merge record
dropped (R9, R80), the gates without users and queues (R91), the cancellers priming with their distances taken (R99), with CANCELLER_STATE
set for each that goes from OFF to PRIMING (R119; A before B is log entry 19), CANCEL after R117. START is refused by the first of the
conditions of R144 that applies, and has no effect. The START checks in their order, and what each passes on (R193). -/
def Obligations.StartChecksItsConditions : Prop :=
  (∀ s, LinkIdle s → s.flc.line = .standby → s.flc.estop = false → s.pfs.profile.failing = none → s.can.dater ≠ none →
    (s.pfs.profile.degradePolicy = .drain → ∀ h, (s.scu.heads.get h).state = .ready) →
    s.flc.faultCount < s.pfs.profile.faultLimit →
    (∀ q, (q = .ea ∨ q = .eb ∨ q = .er) → (s.pkc.recs.get q).sensor = .clear) →
    ∃ u, Answers .start s (.ok (text "START") []) u ∧
      u = { withHolds s u with
        trk := { s.trk with prevTail := none }
        ptc := { merge := none, gates := u.ptc.gates }
        flc := { s.flc with line := .starting, runUp := some s.now, runUpQual := none, holds := u.flc.holds }
        can := { s.can with recs := u.can.recs }
        llk := u.llk } ∧
      (∀ g, u.ptc.gates.get g = { s.ptc.gates.get g with settle := none, user := none, queue := [] }) ∧
      (let started := fun (k : CancRec) =>
        let r := { k with armDist := s.pfs.profile.armDist, doneMargin := s.pfs.profile.doneMargin };
        if r.state = .off then { r with state := .priming, parityRun := 0, primeTimer := some s.now, frames := r.frames ++ [.prime] } else r;
       (∀ c, u.can.recs.get c = started (s.can.recs.get c)) ∧ CancellersReported started s u) ∧
      HoldMoved .cancel (decide (s.pfs.profile.cancelPolicy = .hold ∧ cancellerOut u = true)) s u ∧
      driveEnable u = true ∧
      FlagSet .lineState (.line .starting .start none) s u ∧ LinkKept [.lineState, .feedHold, .cancellerState] (heard s) u) ∧
  (∀ s, LinkIdle s →
    let refused := fun c d => Answers .start s (.deny (text "START") c d) (heard s)
    let ready := s.flc.line = .standby ∧ s.flc.estop = false
    let dated := ready ∧ s.pfs.profile.failing = none ∧ s.can.dater ≠ none
    let headsGood := s.pfs.profile.degradePolicy = .drain → ∀ h, (s.scu.heads.get h).state = .ready
    let open' := dated ∧ headsGood ∧ s.flc.faultCount < s.pfs.profile.faultLimit
    let full := fun q => (s.pkc.recs.get q).sensor = .active;
    (s.flc.line ≠ .standby → refused .wrongState none) ∧
    (s.flc.line = .standby → s.flc.estop = true → refused .estop none) ∧
    (∀ c, ready → s.pfs.profile.failing = some c → refused .geometry (some (checkName c))) ∧
    (ready → s.pfs.profile.failing = none → s.can.dater = none → refused .daterUnset none) ∧
    (∀ l h m, dated → s.pfs.profile.degradePolicy = .drain → [Head.ft, .fb, .bt, .bb] = l ++ h :: m →
      (∀ g ∈ l, (s.scu.heads.get g).state = .ready) → (s.scu.heads.get h).state ≠ .ready → refused .heads (some (headName h))) ∧
    (dated → headsGood → s.pfs.profile.faultLimit ≤ s.flc.faultCount → refused .repeatedFault none) ∧
    (∀ l q m, open' → [Pocket.ea, .eb, .er] = l ++ q :: m → (∀ p ∈ l, ¬ full p) → full q →
      refused .endBinFull (some (pocketName q)))) ∧
  (∀ p : Profile,
    (p.failing = none ↔ ∀ c, p.passes c = true) ∧
    (∀ l c m, [StartCheck.unset, .orderA, .orderB, .orderR, .scan, .decision, .turnGate, .rejectGate, .gap, .mergeGap, .selectA, .selectB,
        .classesA, .classesB, .nearFull, .tableMarks, .window] = l ++ c :: m →
      (p.failing = some c ↔ p.passes c = false ∧ ∀ d ∈ l, p.passes d = true)) ∧
    ∀ c, p.passes c = true ↔
      let d := p.dist
      let rises := fun (l : List Station) => (l.map d).Pairwise (· < ·)
      let served := fun st => ∀ k, (k = .cancelled ∨ k = .metered ∨ k = .uncancelled) →
        ∃ x ∈ stackOn st, (p.stack.get x).fit = true ∧ ((p.stack.get x).cls = k ∨ (p.stack.get x).cls = .overflow);
      match c with
      | .unset => ∀ st, (p.stations.get st).isSome = true
      | .orderA => rises [.pe1, .sh, .dp, .g1, .mp, .pe2, .g2, .pe3a, .ca, .psa, .a1, .a2, .a3, .a4, .a5, .a6, .ea]
      | .orderB => rises [.pe1, .sh, .dp, .g1, .mp, .pe2, .g2, .pe3b, .cb, .psb, .b1, .b2, .b3, .b4, .b5, .b6, .eb]
      | .orderR => rises [.g1, .pe4r, .gr, .psr, .rm, .er] ∧ rises [.psr, .rh, .er]
      | .scan => 4 * 300 + p.minBlock + 4 * 4 ≤ d .sh
      | .decision => d .sh + 4 * 308 ≤ d .dp
      | .turnGate => (p.settleG1 + p.slipTol : Int) ≤ d .g1 - d .dp
      | .rejectGate => (p.settleGr + p.slipTol : Int) ≤ d .gr - d .dp
      | .gap => ∀ x ∈ [p.settleG1, p.settleGr, p.settleG2, p.settlePkt], x + 2 * p.slipTol ≤ p.minGap
      | .mergeGap => p.minMergeGap ≤ p.minGap
      | .selectA => d .ca + 4 * 300 + p.doneMargin ≤ d .psa
      | .selectB => d .cb + 4 * 300 + p.doneMargin ≤ d .psb
      | .classesA => served .a
      | .classesB => served .b
      | .nearFull => (∀ k, (p.stack.get k).near < (p.stack.get k).cap) ∧ p.rmNear < p.rmCap ∧ p.rhNear < p.rhCap
      | .tableMarks => p.releaseAt < p.holdAt
      | .window => p.w ≤ p.z)

/-- STOP drains the line from STARTING and RUN, changes nothing in DRAIN, and is refused elsewhere (R146). HOLD raises LINE with its
countdown, clamped to 0 to 1000 m, and RELEASE lowers it (R150, R151, R152). The replies have the forms of R190; that HOLD without a
distance replies `-` is log entry 18. -/
def Obligations.StopHoldAndRelease : Prop :=
  (∀ s, LinkIdle s →
    ((s.flc.line = .starting ∨ s.flc.line = .run) →
      ∃ u, Answers .stop s (.ok (text "STOP") []) u ∧ DrainEntered .stop (heard s) u) ∧
    (s.flc.line = .drain → Answers .stop s (.ok (text "STOP") []) (heard s)) ∧
    ((s.flc.line = .powerup ∨ s.flc.line = .warmup ∨ s.flc.line = .standby ∨ s.flc.line = .fault) →
      Answers .stop s (.deny (text "STOP") .wrongState none) (heard s))) ∧
  (∀ s, LinkIdle s →
    (∀ b : Bool, ∀ d : Option Int,
      let used := match d with | some d => min 100000 d.toNat | none => 0
      let c := if b then Instr.hold d else .release
      let reply := if b
        then Reply.ok (text "HOLD") (match d with
          | none => [text "-"]
          | some d => dec2 used :: if (used : Int) = d then [] else [text "CLAMPED"])
        else .ok (text "RELEASE") [];
      ∃ u, Answers c s reply u ∧
        u = { withHolds s u with
          flc := { s.flc with
            holds := u.flc.holds
            countdown := if b = true ∧ used ≠ 0 then some (s.trk.belt + BitVec.ofNat 32 (used * 40)) else none }
          llk := u.llk } ∧
        HoldMoved .line b s u ∧ LinkKept [.feedHold] (heard s) u))

/-- CLEAR by the order of R156: accepted in FAULT it removes every entry oldest first, counts CLEARED and queues the letter records that
find room (R157, R174), lowers the committed counts and takes a pocket in SWEEP_PENDING to SWEEP (R131, R134), lowers TABLE and may raise
RECORDS (R19, R176), removes the fault record and enters STANDBY; the cancellers, off or in FAULT then (R115), are not touched. CLEAR
OVERRIDE sets the fault counts to 0. The fields of a letter record (R173). That the reply gives STANDBY is log entry 18. -/
def Obligations.ClearRemovesEveryLetter : Prop :=
  (∀ (e : Entry) d,
    let r := recordOf e d;
    r.number = e.number ∧ r.late = e.late ∧ r.path = e.path ∧ r.stream = e.stream ∧ r.disposition = d ∧ r.cause = e.cause ∧
    (∀ l, e.length0 = some l → r.length = some (l / 4)) ∧ (e.length0 = none → r.length = none) ∧
    (∀ m, e.result = some m → r.cls = some m.cls ∧ r.orient = m.orient ∧ r.strength = m.strength ∧ r.cell = m.cell ∧ r.q = m.q ∧
      r.degraded = m.degraded ∧ r.saturated = m.saturated) ∧
    (e.result = none → r.cls = none ∧ r.orient = none ∧ r.strength = none ∧ r.cell = none ∧ r.q = none ∧ r.degraded = false ∧
      r.saturated = false) ∧
    (∀ j, e.job = some j → r.outcome = some j.outcome ∧ r.marks = some (j.truncated, decide (j.density = some .reduced))) ∧
    (e.job = none → r.outcome = none ∧ r.marks = none) ∧
    (d = .cleared → r.committed = e.pocket) ∧ (d ≠ .cleared → r.committed = none)) ∧
  (∀ s o, LinkIdle s →
    let cleared := Reply.ok (text "CLEAR") [text "STANDBY"]
    let clearCells := ∀ c, (s.pcm.cells.get c).qual = .clear;
    (s.flc.line = .standby → Answers (.clear true) s cleared
      (heard { s with flc := { s.flc with faultCount := 0, cleanRun := 0 } })) ∧
    (s.flc.line ≠ .fault → (o = false ∨ s.flc.line ≠ .standby) →
      Answers (.clear o) s (.deny (text "CLEAR") .wrongState none) (heard s)) ∧
    (s.flc.line = .fault → s.flc.estop = true → Answers (.clear o) s (.deny (text "CLEAR") .estop none) (heard s)) ∧
    (∀ l c m, s.flc.line = .fault → s.flc.estop = false →
      [Photocell.pe0, .pe1, .pe2, .pe3a, .pe3b, .pe4r] = l ++ c :: m → (∀ d ∈ l, (s.pcm.cells.get d).qual = .clear) →
      (s.pcm.cells.get c).qual = .blocked →
      Answers (.clear o) s (.deny (text "CLEAR") .photocell (some (cellName c))) (heard s)) ∧
    (s.flc.line = .fault → s.flc.estop = false → clearCells → PocketsHeld s → (∀ c, CancellerSound (s.can.recs.get c)) →
      StoppedInFault s →
      ∃ u, Answers (.clear o) s cleared u ∧
        let p := s.pfs.profile
        let table := s.trk.table
        let queued := s.cnb.records.length
        let lost := if p.records then table.length - (96 - queued) else 0
        let named := fun q => table.countP fun e => decide (e.pocket = some q)
        let sweeps := fun q => (s.pkc.recs.get q).state = .sweepPending ∧ isBin q = false ∧ 0 < named q ∧
          (s.pkc.recs.get q).committed ≤ named q
        let gone := fun n => ∃ e ∈ table, e.number = n;
        u = { s with
          trk := { s.trk with table := [] }
          pcm := { s.pcm with sups := u.pcm.sups }
          scu := u.scu
          ptc := { s.ptc with gates := u.ptc.gates }
          pkc := u.pkc
          flc := { s.flc with
            line := .standby
            fault := none
            holds := { s.flc.holds with
              table := if p.releaseAt < table.length then false else s.flc.holds.table
              pockets := !u.pkc.blocked.isEmpty
              cancel := false
              records := if p.records = true ∧ p.reportHold = true ∧ queued < 80 ∧ 80 ≤ queued + table.length then true
                else s.flc.holds.records }
            faultCount := if o then 0 else s.flc.faultCount
            cleanRun := if o then 0 else s.flc.cleanRun }
          cnb := { s.cnb with
            bank := { s.cnb.bank with
              flow := { s.cnb.bank.flow with cleared := s.cnb.bank.flow.cleared + BitVec.ofNat 32 table.length }
              line := { s.cnb.bank.line with
                recordsLost := s.cnb.bank.line.recordsLost + BitVec.ofNat 32 lost
                holdCrossings := u.cnb.bank.line.holdCrossings } }
            records := if p.records then s.cnb.records ++ (table.map (recordOf · .cleared)).take (96 - queued) else s.cnb.records }
          llk := u.llk } ∧
        HoldJudged s u ∧
        (∀ q, u.pkc.recs.get q = { s.pkc.recs.get q with
          committed := (s.pkc.recs.get q).committed - named q
          state := if sweeps q then .sweep else (s.pkc.recs.get q).state }) ∧
        (∀ c, c ∈ u.pkc.blocked ↔ isBlocked u c = true) ∧
        (∀ c n, n ∈ (u.pcm.sups.get c).expected ↔ n ∈ (s.pcm.sups.get c).expected ∧ ¬ gone n) ∧
        (∀ c x, (u.pcm.sups.get c).passing = some x ↔ (s.pcm.sups.get c).passing = some x ∧ ¬ gone x.letter) ∧
        (∀ g,
          let r := s.ptc.gates.get g
          let r' := u.ptc.gates.get g;
          r' = { r with user := r'.user, queue := r'.queue } ∧ (∀ x, r'.user = some x ↔ r.user = some x ∧ ¬ gone x.letter) ∧
            (∀ x, x ∈ r'.queue ↔ x ∈ r.queue ∧ ¬ gone x.1)) ∧
        (s.scu.calDue = true → stationFree { u with scu := s.scu } = true → Calibrated s u) ∧
        (s.scu.calDue = false ∨ stationFree { u with scu := s.scu } = false → u.scu = s.scu) ∧
        FlagSet .lineState (.line .standby .clear none) s u ∧
        (∀ e, 0 < lost → table.getLast? = some e →
          FlagSet .recordsLost (.lost e.number (s.cnb.bank.line.recordsLost + BitVec.ofNat 32 lost)) s u) ∧
        (lost = 0 → u.llk.flags.get .recordsLost = s.llk.flags.get .recordsLost) ∧
        (∀ q, sweeps q → (∀ x, x ≠ q → ¬ sweeps x) → FlagSet .pocketState (.pocket q .sweep) s u) ∧
        ((∀ q, ¬ sweeps q) → u.llk.flags.get .pocketState = s.llk.flags.get .pocketState) ∧
        LinkKept [.lineState, .feedHold, .pocketState, .recordsLost] (heard s) u))

/-- SET stores the value of its parameter and no other (R183, R191, R192), with the effects R85, R117, R138, R140, R176 and R187 give at once;
it is refused in the order of R183, and in POWERUP first of all by R191 or by that order alone, which of the two being a free value for each
name (log entries 36 and 39), and a number out of its range is clamped in the
tuning class and refused with RANGE otherwise. EVENT_REPEAT takes a value between 0 and 1 s as 1 s (R183); that it is then marked CLAMPED, and
that a value of EVENT_REPEAT or LINK_TIMEOUT below 0 is stored as 0, is log entry 17 (R147). Of the effects the model's own: that the gate of
a pocket set not fitted goes to PASS, R85 against R91 (log entry 42); that a pocket not fitted takes its state by count, without its sensor
(log entry 23); that a SET of a capacity or near-full mark to the value held takes the pocket's state too (log entry 51). -/
def Obligations.SetStoresOneParameter : Prop :=
  (∀ s name value p v clamped, LinkIdle s → readParam name = some p →
    (s.flc.line = .powerup → Config.setInPowerup name = true) →
    (restricted p = true → s.flc.line = .warmup ∨ s.flc.line = .standby) → readValue p value = .store v clamped →
    (∀ k, p = .fit k → v = .choice 1 → s.pfs.profile.geometrySet = true) → committedTo s p = false →
    ∃ u, Answers (.set name value) s
        (.ok (text "SET") ([name, valueText (paramForm p) (some v)] ++ if clamped then [text "CLAMPED"] else [])) u ∧
      u = { withHolds s u with
        pfs := { s.pfs with profile := u.pfs.profile }
        ptc := u.ptc, pkc := u.pkc, llk := u.llk } ∧
      (∀ k, p = .fit k → UnfittedPassed s u) ∧ ((∀ k, p ≠ .fit k) → u.ptc = s.ptc) ∧
      u.pfs.profile.read p = some v ∧ (∀ q, q ≠ p → u.pfs.profile.read q = s.pfs.profile.read q) ∧
      (p = .cancelPolicy → HoldMoved .cancel (decide (u.pfs.profile.cancelPolicy = .hold ∧
        (s.flc.line = .starting ∨ s.flc.line = .run) ∧ cancellerOut s = true)) s u) ∧
      (p = .reportHold → u.pfs.profile.reportHold = false → HoldMoved .records false s u) ∧
      (p = .reportHold → u.pfs.profile.reportHold = true → 80 ≤ s.cnb.records.length → HoldMoved .records true s u) ∧
      (p = .reportHold → u.pfs.profile.reportHold = true → s.cnb.records.length < 80 → u.flc = s.flc) ∧
      (p = .eventRepeat → v = .num 0 → ∀ k, (u.llk.flags.get k).repeating = none) ∧
      (∀ k, p = .fit k ∨ p = .cls k → u.pkc.recs = s.pkc.recs ∧ (∀ c, c ∈ u.pkc.blocked ↔ isBlocked u c = true) ∧
        HoldMoved .pockets (!u.pkc.blocked.isEmpty) s u) ∧
      (∀ q, paramPocket p = some q → (∀ x, x ≠ q → u.pkc.recs.get x = s.pkc.recs.get x) ∧
        u.pkc.recs.get q = { s.pkc.recs.get q with state := stateAfter u.pfs.profile q (s.pkc.recs.get q) } ∧
        (∀ c, c ∈ u.pkc.blocked ↔ isBlocked u c = true) ∧ HoldMoved .pockets (!u.pkc.blocked.isEmpty) s u ∧
        (stateAfter u.pfs.profile q (s.pkc.recs.get q) ≠ (s.pkc.recs.get q).state →
          FlagSet .pocketState (.pocket q (stateAfter u.pfs.profile q (s.pkc.recs.get q))) s u)) ∧
      ((∀ k, p ≠ .fit k ∧ p ≠ .cls k) → paramPocket p = none → p ≠ .cancelPolicy → p ≠ .reportHold → p ≠ .eventRepeat →
        u = { heard s with pfs := u.pfs }) ∧
      ((∀ k, p ≠ .fit k ∧ p ≠ .cls k) → paramPocket p = none → u.pkc = s.pkc) ∧
      (p = .eventRepeat → u.flc = s.flc ∧ u.cnb = s.cnb) ∧
      LinkKept [.feedHold, .pocketState] (heard (if p = .eventRepeat ∧ v = .num 0 then timersStopped s else s)) u) ∧
  (∀ s name value, LinkIdle s →
    let refused := fun c => Answers (.set name value) s (.deny (text "SET") c none) (heard s)
    let taken := s.flc.line = .powerup → Config.setInPowerup name = true;
    (s.flc.line = .powerup → refused .wrongState ∨ Config.setInPowerup name = true) ∧
    (taken → readParam name = none → refused .name) ∧
    (∀ p, taken → readParam name = some p →
      let permitted := restricted p = true → s.flc.line = .warmup ∨ s.flc.line = .standby;
      (¬ permitted → refused .wrongState) ∧
      (permitted → readValue p value = .range → refused .range) ∧
      (∀ k clamped, permitted → p = .fit k → readValue p value = .store (.choice 1) clamped → s.pfs.profile.geometrySet = false →
        refused .wrongState) ∧
      (∀ v clamped, permitted → readValue p value = .store v clamped → committedTo s p = true → refused .committed))) ∧
  (∀ s p, committedTo s p = true ↔
    (∃ k, (p = .cls k ∨ p = .cap k) ∧ (s.pkc.recs.get (stackPocket k)).committed ≠ 0) ∨
    p = .rmCap ∧ (s.pkc.recs.get .rm).committed ≠ 0 ∨ p = .rhCap ∧ (s.pkc.recs.get .rh).committed ≠ 0) ∧
  (∀ p : Param, restricted p = false ↔
    p ∈ [Param.lnom, .w, .z, .tPh, .tMt, .tBr, .qMin, .ambig, .brightPolicy, .minMergeGap, .pre, .impLen, .armDist, .doneMargin,
      .cancelPolicy, .persistParity, .degradePolicy, .records, .reportHold, .calInterval, .eventRepeat, .linkTimeout, .minRunSpeed,
      .drainLimit, .cleanRun, .faultLimit] ∨ ∃ l, p = .tower l) ∧
  (∀ (p : Param) (n : Int),
    let lo := (paramRange p).1
    let hi := (paramRange p).2
    let offAtZero := p = .eventRepeat ∨ p = .linkTimeout
    let tunes := p ∈ [Param.lnom, .w, .z, .tPh, .tMt, .tBr, .qMin, .ambig, .pre, .impLen, .eventRepeat, .linkTimeout];
    (∀ value per, (per = 4 ∧ paramForm p = .distance ∨ per = 4 ∧ paramForm p = .twist ∧ value ≠ text "NONE" ∨
        per = 100 ∧ paramForm p = .speed ∨ per = 10 ∧ paramForm p = .tenths ∨
        per = 1 ∧ (paramForm p = .whole ∨ paramForm p = .metres)) →
      (∀ m, readUnits per value = some m → readValue p value = clampNum p m) ∧
      (readUnits per value = none → p ≠ .eventRepeat → readValue p value = .range)) ∧
    ((lo : Int) ≤ n → n ≤ hi → (offAtZero → 0 < n) → clampNum p n = .store (.num n.toNat) false) ∧
    (offAtZero → n = 0 → clampNum p n = .store (.num 0) false) ∧
    (offAtZero → n < 0 → clampNum p n = .store (.num 0) true) ∧
    (tunes → n < lo → (offAtZero → 0 < n) → clampNum p n = .store (.num lo) true) ∧
    (tunes → (hi : Int) < n → (offAtZero → 0 < n) → clampNum p n = .store (.num hi) true) ∧
    (¬ tunes → n < lo ∨ (hi : Int) < n → clampNum p n = .range)) ∧
  (∀ value n k, readDecimal value = some (n, k) → 0 < n → n < (10 ^ k : Nat) → readValue .eventRepeat value = .store (.num 1) true) ∧
  (∀ value, readUnits 1 value = none → (∀ n k, readDecimal value = some (n, k) → n ≤ 0 ∨ ((10 ^ k : Nat) : Int) ≤ n) →
    readValue .eventRepeat value = .range)

/-- SAVE fixes the content and begins the write, the stored image failing its check meanwhile (log entry 11), and LOAD replaces the working
profile whole with its effects on the blocks (R85, R138, R140, R176, R187, R194 to R197); outside their line states they are refused. Of the
effects of LOAD the model's own: that the pockets follow in the order of R121 with the blocked set judged once (log entry 19); that the gate of
a pocket it leaves not fitted goes to PASS, R85 against R91 (log entry 42); that a pocket not fitted takes its state by count, without its
sensor (log entry 23). -/
def Obligations.ProfileSavedAndLoaded : Prop :=
  ∀ s, LinkIdle s →
    ((s.flc.line = .warmup ∨ s.flc.line = .standby) →
      ∃ t, exec .save s = .next t ∧
        t = { s with
          pfs := { s.pfs with saving := some s.pfs.profile, image := { s.pfs.image with crc := t.pfs.image.crc } }
          llk := t.llk } ∧
        ¬ ImagePasses t.pfs.image ∧
        LinkKept [] { s with llk := { (heard s).llk with answers := [.inProgress] } } t) ∧
    (s.flc.line ≠ .warmup → s.flc.line ≠ .standby →
      Answers .save s (.deny (text "SAVE") .wrongState none) (heard s)) ∧
    (s.flc.line ≠ .standby → Answers .load s (.deny (text "LOAD") .wrongState none) (heard s)) ∧
    (s.flc.line = .standby →
      ∃ u, Answers .load s (.ok (text "LOAD") [if ImagePasses s.pfs.image then text "LOADED" else text "DEFAULTED"]) u ∧
        let base := if u.pfs.profile.eventRepeat = 0 then timersStopped s else s
        let new := fun q => stateAfter u.pfs.profile q (s.pkc.recs.get q)
        let moves := fun q => new q ≠ (s.pkc.recs.get q).state;
        u = { withHolds s u with
          pfs := { s.pfs with profile := if ImagePasses s.pfs.image then s.pfs.image.contents else Profile.factory }
          ptc := u.ptc, pkc := u.pkc, llk := u.llk } ∧
        UnfittedPassed s u ∧
        (∀ q, u.pkc.recs.get q = { s.pkc.recs.get q with state := new q }) ∧
        (∀ c, c ∈ u.pkc.blocked ↔ isBlocked u c = true) ∧
        u.flc.holds = { s.flc.holds with
          pockets := !u.pkc.blocked.isEmpty
          cancel := false
          records := u.pfs.profile.reportHold && (s.flc.holds.records || decide (80 ≤ s.cnb.records.length)) } ∧
        HoldJudged base u ∧
        (∀ l q m, Pocket.all = l ++ q :: m → moves q → (∀ x ∈ m, ¬ moves x) → FlagSet .pocketState (.pocket q (new q)) base u) ∧
        ((∀ q, ¬ moves q) → u.llk.flags.get .pocketState = base.llk.flags.get .pocketState) ∧
        (s.pfs.image.format ≠ 1 → FlagSet .profileDefaulted (.defaulted .format) base u) ∧
        (s.pfs.image.format = 1 → ¬ ImagePasses s.pfs.image → FlagSet .profileDefaulted (.defaulted .crc) base u) ∧
        (ImagePasses s.pfs.image → u.llk.flags.get .profileDefaulted = base.llk.flags.get .profileDefaulted) ∧
        LinkKept [.profileDefaulted, .pocketState, .feedHold] (heard base) u)

/-- DATER replaces the record whole where every field is in its range, and is refused with RANGE otherwise (R118). SNAP copies the live
bank with IN_TABLE, UTILISATION and the belt position under the next number (R169, R170), and ZERO clears bank, remainder and snapshot
(R172). That DATER replies its seven fields is log entry 18. -/
def Obligations.DaterAndSnapshotStored : Prop :=
  (∀ s d, LinkIdle s →
    let days := if d.month = 2 then (if d.year % 4 = 0 then 29 else 28)
      else if d.month = 4 ∨ d.month = 6 ∨ d.month = 9 ∨ d.month = 11 then 30 else 31
    let good := 1 ≤ d.office.length ∧ d.office.length ≤ 6 ∧
      (∀ c ∈ d.office, 0x41 ≤ c.toNat ∧ c.toNat ≤ 0x5A ∨ 0x30 ≤ c.toNat ∧ c.toNat ≤ 0x39 ∨ c = 0x2E) ∧
      1 ≤ d.month ∧ d.month ≤ 12 ∧ 1 ≤ d.day ∧ d.day ≤ days ∧ 2000 ≤ d.year ∧ d.year ≤ 2099 ∧ d.hour ≤ 23 ∧
      1 ≤ d.machine ∧ d.machine ≤ 99 ∧ d.bars ≤ 7;
    (good → Answers (.dater d) s
      (.ok (text "DATER") [d.office, dec d.day, dec d.month, dec d.year, dec d.hour, dec d.machine, dec d.bars])
      (heard { s with can := { s.can with dater := some d } })) ∧
    (¬ good → Answers (.dater d) s (.deny (text "DATER") .range none) (heard s))) ∧
  (∀ s, LinkIdle s →
    (∃ n, n = (if s.cnb.snap.number = 4294967295 then 1 else s.cnb.snap.number + 1) ∧
      Answers .snap s (.ok (text "SNAP") [hex8 n, hex8 s.trk.belt]) (heard { s with
        cnb := { s.cnb with
          snap :=
            { number := n, pos := s.trk.belt, bank := s.cnb.bank, inTable := s.trk.table.length
              utilisation := if s.cnb.bank.line.beltRunMm = 0 then 0
                else min 1000 (1000 * s.cnb.bank.line.lengthSumMm.toNat / s.cnb.bank.line.beltRunMm.toNat) } } })) ∧
    (s.trk.table = [] → s.flc.line = .warmup ∨ s.flc.line = .standby →
      Answers .zero s (.ok (text "ZERO") []) (heard { s with
        cnb := { s.cnb with
          bank := zeroBank
          remainder := 0
          snap := { number := 0, pos := 0, bank := zeroBank, inTable := 0, utilisation := 0 } } })) ∧
    (s.trk.table ≠ [] ∨ s.flc.line ≠ .warmup ∧ s.flc.line ≠ .standby →
      Answers .zero s (.deny (text "ZERO") .wrongState none) (heard s)))

/-- POCKET id SWEEP, DONE, DISABLE and ENABLE of a pocket that is fitted, and of an end bin, by the pocket's state (R133 to R136). That the
reply gives the state's name, `-` for an end bin, is log entry 18. The blocked set follows (R138), in POWERUP not before the end of the load
(R141, log entry 22). -/
def Obligations.PocketRequestsByState : Prop :=
  ∀ s q, LinkIdle s →
    let r := s.pkc.recs.get q
    let denied := fun c cause => Answers c s (.deny (text "POCKET") cause none) (heard s)
    let with' := fun r' => heard { s with pkc := { s.pkc with recs := s.pkc.recs.set q r' } }
    let moved := fun c new base => ∃ u, Answers c s (.ok (text "POCKET") [pocketStateName new]) u ∧ PocketStateTo q new base u
    let stack := isBin q = false ∧ s.pfs.profile.fitted q = true;
    (stack → r.state = .open ∨ r.state = .nearFull ∨ r.state = .full →
      moved (.pocketSweep q) (if r.committed = 0 then .sweep else .sweepPending) (heard s)) ∧
    (stack → r.state = .sweepPending → moved (.pocketSweep q) (stateByCount s.pfs.profile q r) (heard s)) ∧
    (stack → r.state = .sweep ∨ r.state = .disabled → denied (.pocketSweep q) .wrongState) ∧
    (stack → r.state = .sweep →
      moved (.pocketDone q) (stateByCount s.pfs.profile q { r with count := 0 }) (with' { r with count := 0 })) ∧
    (stack → r.state ≠ .sweep → denied (.pocketDone q) .wrongState) ∧
    (stack → r.state ≠ .disabled → r.committed = 0 → moved (.pocketDisable q) .disabled (heard s)) ∧
    (stack → r.state ≠ .disabled → r.committed ≠ 0 → denied (.pocketDisable q) .committed) ∧
    (stack → r.state = .disabled → denied (.pocketDisable q) .wrongState) ∧
    (stack → r.state = .disabled → moved (.pocketEnable q) (stateByCount s.pfs.profile q r) (heard s)) ∧
    (stack → r.state ≠ .disabled → denied (.pocketEnable q) .wrongState) ∧
    (isBin q = false → s.pfs.profile.fitted q = false →
      denied (.pocketSweep q) .notFitted ∧ denied (.pocketDone q) .notFitted ∧ denied (.pocketDisable q) .notFitted ∧
      denied (.pocketEnable q) .notFitted) ∧
    (isBin q = true → Answers (.pocketDone q) s (.ok (text "POCKET") [text "-"]) (with' { r with count := 0 }) ∧
      denied (.pocketSweep q) .wrongState ∧ denied (.pocketDisable q) .wrongState ∧ denied (.pocketEnable q) .wrongState)

/-- ACK clears the named flags with their reports and timers, and MASK makes the mask exactly the named kinds, withdrawing and queuing
reports as R188 gives. That ACK of a flag already clear stops its repeat timer is log entry 44. -/
def Obligations.FlagsAcknowledgedAndMasked : Prop :=
  ∀ s kinds, LinkIdle s →
    (∃ u, Answers (.ack kinds) s (.ok (text "ACK") [hexDigits 4 (flagBits u (·.set))]) u ∧
      u = { s with llk := { (heard s).llk with flags := u.llk.flags, reports := u.llk.reports } } ∧
      (∀ k, u.llk.flags.get k =
        if k ∈ kinds then { s.llk.flags.get k with set := false, repeating := none } else s.llk.flags.get k) ∧
      u.llk.reports = s.llk.reports.filter (fun k => decide (k ∉ kinds))) ∧
    (∃ u, Answers (.mask kinds) s (.ok (text "MASK") [hexDigits 4 (flagBits u (·.masked))]) u ∧
      u = { s with llk := { (heard s).llk with flags := u.llk.flags, reports := u.llk.reports } } ∧
      (∀ k,
        let f := s.llk.flags.get k;
        (k ∈ kinds → u.llk.flags.get k = { f with masked := true, repeating := if f.masked then f.repeating else none }) ∧
        (k ∉ kinds → u.llk.flags.get k = { f with masked := false }) ∧
        (k ∈ u.llk.reports ↔ k ∈ s.llk.reports ∧ (k ∉ kinds ∨ f.masked = true) ∨
          k ∉ kinds ∧ f.masked = true ∧ f.set = true)))

/-- HEADRETRY of a FAILED head makes it COLD with a calibration due (R38, R41), and CANCELLER s CLEAR of a canceller in FAULT primes it
or sends it to OFF (R114); any other is refused. CAPTURE arms the slot, CAPTURE OFF disarms or ends it (R51, R71, R74), and RESTART is
accepted outside STARTING, RUN and DRAIN, the reset coming with the completion of its reply (R184). What the replies of HEADRETRY,
CANCELLER and CAPTURE give is log entry 18. -/
def Obligations.RevivalCaptureAndRestart : Prop :=
  (∀ s, LinkIdle s →
    (∀ h,
      let r := s.scu.heads.get h;
      (r.state ≠ .failed → Answers (.headRetry h) s (.deny (text "HEADRETRY") .wrongState none) (heard s)) ∧
      (r.state = .failed →
        ∃ u, Answers (.headRetry h) s (.ok (text "HEADRETRY") [headName h, text "COLD"]) u ∧
          FlagSet .headState (.head h .cold) s u ∧ LinkKept [.headState] (heard s) u ∧
          u = { s with scu := u.scu, llk := u.llk } ∧
          (let v := { s with scu := { s.scu with heads := s.scu.heads.set h { r with state := .cold, run := 0 } } };
           ((stationFree s = false ∨ s.flc.line = .powerup ∨ s.flc.line = .fault) → u.scu = { v.scu with calDue := true }) ∧
           (stationFree s = true → s.flc.line ≠ .powerup → s.flc.line ≠ .fault → Calibrated v u)))) ∧
    (∀ c,
      let r := s.can.recs.get c;
      (r.state ≠ .fault → Answers (.cancellerClear c) s (.deny (text "CANCELLER") .wrongState none) (heard s)) ∧
      (r.state = .fault →
        ∃ u, Answers (.cancellerClear c) s
            (.ok (text "CANCELLER") [streamName c, if running s then text "PRIMING" else text "OFF"]) u ∧
          CancellerKept c (heard s) u ∧ u.trk.table = s.trk.table ∧ LinkKept [.cancellerState, .feedHold] (heard s) u ∧
          FlagSet .cancellerState (.canceller c (if running s then .priming else .off) none) s u ∧
          u.can.recs.get c = if running s then
              { r with
                state := .priming, cause := none, parityRun := 0, primeTimer := some s.now, frames := r.frames ++ [.prime] }
            else { r with state := .off, cause := none, frames := r.frames ++ [.standby] }))) ∧
  (∀ s, LinkIdle s →
    (∀ w, s.mkf.capture = .off →
      Answers (.capture w) s (.ok (text "CAPTURE") [text "ARMED"]) (heard { s with mkf := { s.mkf with capture := .armed w } })) ∧
    (∀ w, s.mkf.capture ≠ .off → Answers (.capture w) s (.deny (text "CAPTURE") .busy none) (heard s)) ∧
    ((∀ d, s.mkf.capture ≠ .draining d) →
      Answers .captureOff s (.ok (text "CAPTURE") [text "OFF"]) (heard { s with mkf := { s.mkf with capture := .off } })) ∧
    (∀ d, s.mkf.capture = .draining d →
      Answers .captureOff s (.ok (text "CAPTURE") [text "OFF"]) (heard { s with
        mkf := { s.mkf with capture := .off }
        scu := { s.scu with bufs := s.scu.bufs.set d.buf freeBuf } })) ∧
    (∀ d l answers, s.mkf.capture = .draining d → answers.length < 8 → (∀ x ∈ answers, ∃ a, x = Item.answered a) →
      let busy := fun (v : State) items => { v with llk := { v.llk with answers := items, tx := some l } };
      exec .captureOff (busy s answers) = .next (busy
        (heard { s with mkf := { s.mkf with capture := .off }, scu := { s.scu with bufs := s.scu.bufs.set d.buf freeBuf } })
        (answers ++ [.answered (.ok (text "CAPTURE") [text "OFF"])]))) ∧
    (running s = false →
      ∃ u, Answers .restart s (.ok (text "RESTART") []) u ∧ u = { s with llk := { (heard s).llk with restarting := true } }) ∧
    (running s = true → Answers .restart s (.deny (text "RESTART") .wrongState none) (heard s)))
end

