-- ==== Sys2Proof/Laws/Events.lean ====
section
/-! SUPPORT. What a step can do, said once: it runs one event of the list below on the state less the command. A property that each of
these events keeps is kept by every step. -/

namespace Sys2Proof.Laws

open Sys2Proof Sys2Proof.Machine

/-- A property of states that every event a command can run keeps, each under the conditions its command checks. -/
structure Kept (P : State → Prop) : Prop where
  queue         : ∀ q s, P s → P { s with pending := q }
  reset         : ∀ c s, P s → P (resetPart c s)
  pump          : ∀ s, P s → P (pump s)
  judge         : ∀ b s, P s → P (judgeHold b s)
  drained       : ∀ s, P s → P (checkDrained s)
  wait          : ∀ t s, P s → P (waitUntil t s)
  faultStop     : ∀ call s, P s → P (faultStop call s)
  tryCalibrate  : ∀ s, P s → P (tryCalibrate s)
  loaded        : ∀ s, s.flc.line = .powerup → P s → P (profileLoaded s)
  belt          : ∀ m s, P s → P { s with
    trk := { s.trk with belt := beltStep m s.trk.belt }, cnb := if s.flc.line = .run then travelStep m s.cnb else s.cnb }
  speed         : ∀ s, P s → P { s with
    trk := speedStep s.trk, now := s.now + 1, flc := qualStep s.pfs.profile (speedStep s.trk).speed (s.now + 1) s.flc }
  dropTail      : ∀ s, P s → P { s with trk := { s.trk with prevTail := none } }
  act           : ∀ n k s, due s n k = true → P s → P (act n k s)
  rawChange     : ∀ c l s, P s → P (rawChange c l s)
  qualify       : ∀ c ch s, P s → P (qualify c ch s)
  calDue        : ∀ s, P s → P { s with scu := { s.scu with calDue := true } }
  answer        : ∀ h v s, P s → P (answerHead h v s)
  failHead      : ∀ h s, P s → P (failHead h s)
  warmEnd       : ∀ s, s.flc.line = .warmup → P s →
    P (setLine .standby .warmupLimit none
      { Head.all.foldl limitHead s with flc := { (Head.all.foldl limitHead s).flc with warmup := none } })
  deliver       : ∀ i s, s.mkf.slot = some i → P s → P (deliver i s)
  settled       : ∀ g s, P s → P (gateTry g (updGate g (fun r => { r with settle := none }) s))
  dropMerge     : ∀ s, P s → P { s with ptc := { s.ptc with merge := none } }
  status        : ∀ c m b s, P s → P (statusAct c m b s)
  primed        : ∀ c s, (s.can.recs.get c).state = .priming → P s →
    P (cancReadyOrHot c (updCanc c (fun r => { r with primeTimer := none }) s))
  accepted      : ∀ c n s, (s.can.recs.get c).state = .arming → (s.can.recs.get c).held = some n → P s →
    P (cancTo c .armed (updCanc c (fun r => { r with replyTimer := none, parityRun := 0 }) s))
  parity        : ∀ c s, (s.can.recs.get c).state = .arming → P s → P (parityAct c s)
  done          : ∀ c o n s, (s.can.recs.get c).state = .printing → (s.can.recs.get c).held = some n → P s →
    P (cancReadyOrHot c (releaseHeld c o s))
  moduleFault   : ∀ c code s, (s.can.recs.get c).state ≠ .off → P s →
    P (moduleTrouble c (updCanc c (fun r => { r with faultCode := some code }) s))
  primeTimeout  : ∀ c s, (s.can.recs.get c).primeTimer.isSome = true → P s → P (cancFault c .primeTimeout none s)
  replyTimeout  : ∀ c s, (s.can.recs.get c).replyTimer.isSome = true → P s →
    P (cancFault c .timeout (some .skippedUnavailable) s)
  sensor        : ∀ q l s, P s →
    P (updPocket q (fun r => { r with raw := l, change := if l = r.sensor then none else some s.now }) s)
  sensorQualified : ∀ q s, P s → P (sensorQualified q s)
  press         : ∀ q s, isBin q = false → P s → P (updPocket q (fun r => { r with press := some s.now }) s)
  release       : ∀ q s, P s → P (updPocket q (fun r => { r with press := none }) s)
  pressed       : ∀ q d s, (s.pkc.recs.get q).press.isSome = true → P s →
    P (pressAct q d (updPocket q (fun r => { r with press := none }) s))
  runUp         : ∀ s, s.flc.line = .starting → P s →
    P (setLine .run .runUp none { s with flc := { s.flc with runUp := none, runUpQual := none } })
  estop         : ∀ b s, P s → P { s with flc := { s.flc with estop := b } }
  countdown     : ∀ s, P s → P (setHold .line false { s with flc := { s.flc with countdown := none } })
  silence       : ∀ s, P s → P (silenceAct s)
  horn          : ∀ s, P s → P { s with flc := { s.flc with horn := none } }
  receive       : ∀ c f s, P s → P (receive c f s)
  gap           : ∀ s, P s → P (linkError .gap { s with llk := { s.llk with rx := { emptyRx with lastChar := s.llk.rx.lastChar } } })
  sent          : ∀ l s, s.llk.tx = some l → P s → P (lineSent l { s with llk := { s.llk with tx := none } })
  repeated      : ∀ k s, P s → P (repeatAct k s)
  repeatStopped : ∀ k s, P s → P (stopRepeat k s)
  written       : ∀ p s, s.pfs.saving = some p → P s → P (writeEnd p s)
  request       : ∀ r s, P s → P (submit r s)

theorem Kept.takeDue {P : State → Prop} (k : Kept P) (n : LetterNo) (a : PosKind) (s : State) (h : P s) : P (takeDue n a s) := by
  unfold Machine.takeDue
  split
  · rename_i d; exact k.act n a s d h
  · exact h

theorem Kept.endEvent {P : State → Prop} (k : Kept P) (s t : State) (h : P t) : P (endEvent s t) :=
  k.pump _ (k.judge _ _ h)

theorem Kept.endStacking {P : State → Prop} (k : Kept P) (s t : State) (h : P t) : P (endStacking s t) := by
  unfold Machine.endStacking
  dsimp only
  refine k.pump _ ?_
  split
  · exact k.judge _ _ h
  · exact k.drained _ (k.judge _ _ h)

/-- A kept property is kept by every command. -/
theorem Kept.exec {P : State → Prop} (k : Kept P) {c : Instr} {s t : State} (h : exec c s = .next t) (hp : P s) : P t := by
  cases c
  case powerOnReset => cases h; exact k.reset _ _ hp
  case profileLoadComplete =>
    cases h; split
    · rename_i e; exact k.endEvent _ _ (k.loaded _ e hp)
    · exact hp
  case encoderCount m => cases h; exact k.belt _ _ hp
  case speedResult => cases h; exact k.speed _ hp
  case runUpComplete =>
    simp only [Machine.exec, execRunUpComplete] at h
    split at h
    · rename_i e _; cases h; exact k.endEvent _ _ (k.runUp _ (by simpa [waitUntil] using e) (k.wait _ _ hp))
    · cases h; exact hp
  case runUpLimit =>
    simp only [Machine.exec, execRunUpLimit] at h
    split at h
    · cases h; exact k.endEvent _ _ (k.faultStop _ _ (k.wait _ _ hp))
    · cases h; exact hp
  case photocellRawChange => cases h; exact k.rawChange _ _ _ hp
  case photocellQualifyTravel =>
    simp only [Machine.exec, execPhotocellQualifyTravel] at h
    split at h
    · cases h; split
      · exact k.endStacking _ _ (k.qualify _ _ _ hp)
      · exact hp
    · cases h; exact hp
  case photocellQualifyTime =>
    simp only [Machine.exec, execPhotocellQualifyTime] at h
    split at h
    · cases h; split
      · exact hp
      · exact k.endEvent _ _ (k.qualify _ _ _ (k.wait _ _ hp))
    · cases h; exact hp
  case previousTailDrop =>
    simp only [Machine.exec, execPreviousTailDrop] at h
    split at h
    · cases h; split
      · exact k.dropTail _ hp
      · exact hp
    · cases h; exact hp
  case overLengthPosition =>
    simp only [Machine.exec, execOverLengthPosition] at h
    split at h
    · cases h; exact k.takeDue _ _ _ hp
    · cases h; exact hp
  case pe0JamPosition =>
    simp only [Machine.exec, execPe0JamPosition] at h
    split at h
    · cases h; exact k.endEvent _ _ (k.takeDue _ _ _ hp)
    · cases h; exact hp
  case missingPosition => cases h; exact k.endEvent _ _ (k.takeDue _ _ _ hp)
  case blockedPosition =>
    simp only [Machine.exec, execBlockedPosition] at h
    split at h
    · cases h; split
      · exact k.endEvent _ _ (k.faultStop _ _ hp)
      · exact hp
    · cases h; exact hp
  case stationExitPosition => cases h; exact k.takeDue _ _ _ hp
  case calibrationTimer =>
    simp only [Machine.exec, execCalibrationTimer] at h
    split at h
    · cases h; exact k.tryCalibrate _ (k.calDue _ (k.wait _ _ hp))
    · cases h; exact hp
  case headAnswer =>
    cases h; split
    · exact k.endEvent _ _ (k.answer _ _ _ hp)
    · exact hp
  case headAnswerTimeout =>
    cases h; split
    · exact k.endEvent _ _ (k.tryCalibrate _ (k.failHead _ _ hp))
    · exact hp
  case warmupLimit =>
    simp only [Machine.exec, execWarmupLimit] at h
    split at h
    · rename_i e _; cases h
      exact k.endEvent _ _ (k.tryCalibrate _ (k.warmEnd _ (by simpa [waitUntil] using e) (k.wait _ _ hp)))
    · cases h; exact hp
  case shPosition => cases h; exact k.takeDue _ _ _ hp
  case scanPulse => cases h; exact k.takeDue _ _ _ hp
  case resultDelivery =>
    simp only [Machine.exec, execResultDelivery] at h
    split at h
    · rename_i e; cases h; exact k.endEvent _ _ (k.deliver _ _ e hp)
    · cases h; exact hp
  case dpDecision => cases h; exact k.endEvent _ _ (k.takeDue _ _ _ hp)
  case gateClearPosition =>
    simp only [Machine.exec, execGateClearPosition] at h
    split at h
    · cases h; exact k.takeDue _ _ _ hp
    · cases h; exact hp
  case gateSettleEnd =>
    simp only [Machine.exec, execGateSettleEnd] at h
    split at h
    · cases h; split
      · exact k.settled _ _ hp
      · exact hp
    · cases h; exact hp
  case armPoint => cases h; exact k.endEvent _ _ (k.takeDue _ _ _ hp)
  case firePoint => cases h; exact k.endEvent _ _ (k.takeDue _ _ _ hp)
  case doneLimit =>
    simp only [Machine.exec, execDoneLimit] at h
    split at h
    · cases h; exact k.endEvent _ _ (k.takeDue _ _ _ hp)
    · cases h; exact hp
  case moduleStatus =>
    cases h; split
    · exact k.endEvent _ _ (k.status _ _ _ _ hp)
    · exact hp
  case primed =>
    cases h; split
    · rename_i e; exact k.endEvent _ _ (k.primed _ _ e.2 hp)
    · exact hp
  case accepted =>
    cases h; split
    · rename_i e; exact k.endEvent _ _ (k.accepted _ _ _ e.2.1 e.2.2 hp)
    · exact hp
  case parityErr =>
    cases h; split
    · rename_i e; exact k.endEvent _ _ (k.parity _ _ e.2 hp)
    · exact hp
  case moduleDone =>
    cases h; split
    · rename_i e; exact k.endEvent _ _ (k.done _ _ _ _ e.2.1 e.2.2 hp)
    · exact hp
  case moduleFault =>
    cases h; split
    · rename_i e; exact k.endEvent _ _ (k.moduleFault _ _ _ e.2 hp)
    · exact hp
  case primeTimeout =>
    simp only [Machine.exec, execPrimeTimeout] at h
    split at h
    · rename_i e; cases h
      exact k.endEvent _ _ (k.primeTimeout _ _ (by simp [waitUntil, e]) (k.wait _ _ hp))
    · cases h; exact hp
  case replyTimeout =>
    simp only [Machine.exec, execReplyTimeout] at h
    split at h
    · rename_i e; cases h
      exact k.endEvent _ _ (k.replyTimeout _ _ (by simp [waitUntil, e]) (k.wait _ _ hp))
    · cases h; exact hp
  case selectPoint => cases h; exact k.endEvent _ _ (k.takeDue _ _ _ hp)
  case stacking => cases h; exact k.endStacking _ _ (k.takeDue _ _ _ hp)
  case pocketSensorChange =>
    cases h; split
    · exact hp
    · exact k.sensor _ _ _ hp
  case pocketSensorQualify =>
    simp only [Machine.exec, execPocketSensorQualify] at h
    split at h
    · cases h; exact k.endEvent _ _ (k.sensorQualified _ _ (k.wait _ _ hp))
    · cases h; exact hp
  case sweepButtonPress =>
    cases h; split
    · exact hp
    · rename_i e
      refine k.press _ _ ?_ hp
      cases hb : isBin _
      · rfl
      · exact absurd (Or.inl hb) e
  case sweepButtonRelease =>
    simp only [Machine.exec, execSweepButtonRelease] at h
    split at h
    · rename_i e
      cases h
      split
      · exact hp
      · split
        · exact k.endEvent _ _ (k.pressed _ _ _ (by simp [e]) hp)
        · exact k.release _ _ hp
    · cases h; exact hp
  case estopChange =>
    cases h; split
    · exact hp
    · split
      · exact k.endEvent _ _ (k.faultStop _ _ (k.estop _ _ hp))
      · exact k.estop _ _ hp
  case drainLimitPosition =>
    simp only [Machine.exec, execDrainLimitPosition] at h
    split at h
    · cases h; split
      · exact k.endEvent _ _ (k.faultStop _ _ hp)
      · exact hp
    · cases h; exact hp
  case holdCountdownEnd =>
    simp only [Machine.exec, execHoldCountdownEnd] at h
    split at h
    · cases h; split
      · exact k.endEvent _ _ (k.countdown _ hp)
      · exact hp
    · cases h; exact hp
  case linkSilence =>
    cases h; split
    · exact hp
    · exact k.endEvent _ _ (k.silence _ (k.wait _ _ hp))
  case hornPulseEnd =>
    simp only [Machine.exec, execHornPulseEnd] at h
    split at h
    · cases h; exact k.horn _ (k.wait _ _ hp)
    · cases h; exact hp
  case characterReceived => cases h; exact k.endEvent _ _ (k.receive _ _ _ hp)
  case lineGapTimeout =>
    cases h; split
    · exact k.endEvent _ _ (k.gap _ (k.wait _ _ hp))
    · exact hp
  case saveWriteEnd =>
    simp only [Machine.exec, execSaveWriteEnd] at h
    split at h
    · rename_i e; cases h; exact k.endEvent _ _ (k.written _ _ e hp)
    · cases h; exact hp
  case transmitLineComplete =>
    cases h
    unfold transmitComplete
    split
    · exact hp
    · rename_i e
      split
      · exact k.reset _ _ hp
      · exact k.endEvent _ _ (k.sent _ _ e hp)
  case eventRepeatExpiry =>
    simp only [Machine.exec, execEventRepeatExpiry] at h
    split at h
    · cases h; split
      · exact k.repeatStopped _ _ hp
      · exact k.endEvent _ _ (k.repeated _ _ (k.wait _ _ hp))
    · cases h; exact hp
  case mergeTailDrop =>
    simp only [Machine.exec, execMergeTailDrop] at h
    split at h
    · cases h; split
      · exact k.dropMerge _ hp
      · exact hp
    · cases h; exact hp
  all_goals (cases h; exact k.endEvent _ _ (k.request _ _ hp))

/-- A kept property is kept by every step. -/
theorem Kept.step {P : State → Prop} (k : Kept P) {s t : State} (h : step s = .next t) (hp : P s) : P t := by
  unfold Machine.step at h
  split at h
  · cases h; exact hp
  · exact k.exec h (k.queue _ _ hp)

end Sys2Proof.Laws
end

