-- ==== Sys2Proof/Laws/Parts.lean ====
section
/-! SUPPORT. The events of Laws/Events.lean taken apart: a property that the parts below keep is kept by every step. For properties that
read nothing of the line link but its flags and pending reports. -/

namespace Sys2Proof.Laws

open Sys2Proof Sys2Proof.Machine

/-- The entry and the positions behind a due action. -/
theorem due_position {s : State} {n : LetterNo} {k : PosKind} (h : due s n k = true) :
    ∃ e x, s.entry? n = some e ∧ (k, x) ∈ positions s e ∧ reached s.trk.belt (at' e.anchor x) = true := by
  unfold due at h
  cases he : s.entry? n with
  | none => simp [he] at h
  | some e =>
    simp only [he, List.any_eq_true, decide_eq_true_eq] at h
    obtain ⟨⟨k', x⟩, hm, rfl⟩ := h
    simp only [reachedPositions, List.mem_filter] at hm
    exact ⟨e, x, rfl, hm.1, hm.2⟩

/-- The first of the smallest is one of them. -/
theorem earliest_mem {l : List (PosKind × Int)} {p : PosKind × Int} (h : earliest l = some p) : p ∈ l := by
  induction l generalizing p with
  | nil => simp [earliest] at h
  | cons a l ih =>
    simp only [earliest] at h
    split at h
    · cases h; simp
    · rename_i q e
      split at h
      · cases h; exact List.mem_cons_of_mem _ (ih e)
      · cases h; simp

/-- A property kept by every due action is kept by the actions one correction brings. -/
theorem takeReached_keeps {P : State → Prop} (h : ∀ n k s, due s n k = true → P s → P (act n k s)) (n : LetterNo) (fuel : Nat) (s : State)
    (hp : P s) : P (takeReached n fuel s) := by
  induction fuel generalizing s with
  | zero => exact hp
  | succ m ih =>
    simp only [takeReached]
    split
    · exact hp
    · rename_i e he
      split
      · exact hp
      · rename_i k x hk
        refine ih _ (h _ _ _ ?_ hp)
        have := earliest_mem hk
        simp only [due, he, List.any_eq_true, decide_eq_true_eq]
        exact ⟨_, this, rfl⟩

/-- A property of states that each part of an event keeps. -/
structure Parts (P : State → Prop) : Prop where
  queue         : ∀ q s, P s → P { s with pending := q }
  link          : ∀ l s, l.flags = s.llk.flags → l.reports = s.llk.reports → P s → P { s with llk := l }
  setFlag       : ∀ k d s, P s → P (setFlag k d s)
  reportTaken   : ∀ rest s, rest.Sublist s.llk.reports → P s → P { s with llk := { s.llk with reports := rest } }
  restamp       : ∀ k t s, P s →
    P { s with llk := { s.llk with flags := s.llk.flags.upd k fun f => { f with repeating := t } } }
  crossing      : ∀ s, P s → P (countCrossing s)
  drained       : ∀ s, P s → P (checkDrained s)
  clock         : ∀ t s, P s → P { s with now := t }
  reset         : ∀ c s, P s → P (resetPart c s)
  faultStop     : ∀ call s, P s → P (faultStop call s)
  tryCalibrate  : ∀ s, P s → P (tryCalibrate s)
  loaded        : ∀ s, s.flc.line = .powerup → P s → P (profileLoaded s)
  belt          : ∀ m s, P s → P { s with
    trk := { s.trk with belt := beltStep m s.trk.belt }, cnb := if s.flc.line = .run then travelStep m s.cnb else s.cnb }
  speed         : ∀ s, P s → P { s with
    trk := speedStep s.trk, now := s.now + 1, flc := qualStep s.pfs.profile (speedStep s.trk).speed (s.now + 1) s.flc }
  dropTail      : ∀ s, P s → P { s with trk := { s.trk with prevTail := none } }
  overLength    : ∀ n s, due s n .overLength = true → P s → P (overLengthAct n s)
  exit          : ∀ n s, P s → P (exitAct n s)
  sh            : ∀ n s, P s → P (shAct n s)
  pulse         : ∀ n s, P s → P (pulseAct n s)
  dp            : ∀ n s, due s n .dp = true → P s → P (dpAct n s)
  clear         : ∀ g s, P s → P (clearAct g s)
  arm           : ∀ n s, P s → P (armAct n s)
  fire          : ∀ n s, P s → P (fireAct n s)
  doneLimit     : ∀ n c s, due s n (.doneLimit c) = true → P s → P (doneLimitAct c s)
  select        : ∀ n s, due s n .select = true → P s → P (selectAct n s)
  stack         : ∀ n s, due s n .stacking = true → P s → P (stackAct n s)
  cell          : ∀ c f s, P s → P (updCell c f s)
  sup           : ∀ c f s, P s → P (updSup c f s)
  induct        : ∀ a s, running s = true → s.trk.measuring = none → P s → P (induct a s)
  tail          : ∀ n p s, P s → P (pe0Tail n p s)
  corrected     : ∀ c n a m d s, P s → P
    { updEntry n (fun e => { e with anchor := a, lastPe := supCell c, inStation := if c = .pe1 then true else e.inStation }) s with
      ptc := { s.ptc with merge := m }
      scu := { s.scu with heads := s.scu.heads.map (movePulses n d) } }
  second        : ∀ n l s, P s → P (secondLength n l s)
  calDue        : ∀ s, P s → P { s with scu := { s.scu with calDue := true } }
  answer        : ∀ h v s, P s → P (answerHead h v s)
  failHead      : ∀ h s, P s → P (failHead h s)
  warmEnd       : ∀ s, s.flc.line = .warmup → P s →
    P (setLine .standby .warmupLimit none
      { Head.all.foldl limitHead s with flc := { (Head.all.foldl limitHead s).flc with warmup := none } })
  deliver       : ∀ i s, s.mkf.slot = some i → P s → P (deliver i s)
  settled       : ∀ g s, P s → P (gateTry g (updGate g (fun r => { r with settle := none }) s))
  dropMerge     : ∀ s, P s → P { s with ptc := { s.ptc with merge := none } }
  status        : ∀ c m b s, P s → P (statusAct c m b s)
  primed        : ∀ c s, (s.can.recs.get c).state = .priming → P s →
    P (cancReadyOrHot c (updCanc c (fun r => { r with primeTimer := none }) s))
  accepted      : ∀ c n s, (s.can.recs.get c).state = .arming → (s.can.recs.get c).held = some n → P s →
    P (cancTo c .armed (updCanc c (fun r => { r with replyTimer := none, parityRun := 0 }) s))
  parity        : ∀ c s, (s.can.recs.get c).state = .arming → P s → P (parityAct c s)
  done          : ∀ c o n s, (s.can.recs.get c).state = .printing → (s.can.recs.get c).held = some n → P s →
    P (cancReadyOrHot c (releaseHeld c o s))
  moduleFault   : ∀ c code s, (s.can.recs.get c).state ≠ .off → P s →
    P (moduleTrouble c (updCanc c (fun r => { r with faultCode := some code }) s))
  primeTimeout  : ∀ c s, (s.can.recs.get c).primeTimer.isSome = true → P s → P (cancFault c .primeTimeout none s)
  replyTimeout  : ∀ c s, (s.can.recs.get c).replyTimer.isSome = true → P s →
    P (cancFault c .timeout (some .skippedUnavailable) s)
  sensor        : ∀ q l s, P s →
    P (updPocket q (fun r => { r with raw := l, change := if l = r.sensor then none else some s.now }) s)
  sensorQualified : ∀ q s, P s → P (sensorQualified q s)
  press         : ∀ q s, isBin q = false → P s → P (updPocket q (fun r => { r with press := some s.now }) s)
  release       : ∀ q s, P s → P (updPocket q (fun r => { r with press := none }) s)
  pressed       : ∀ q d s, (s.pkc.recs.get q).press.isSome = true → P s →
    P (pressAct q d (updPocket q (fun r => { r with press := none }) s))
  runUp         : ∀ s, s.flc.line = .starting → P s →
    P (setLine .run .runUp none { s with flc := { s.flc with runUp := none, runUpQual := none } })
  estop         : ∀ b s, P s → P { s with flc := { s.flc with estop := b } }
  lineHold      : ∀ b p s, P s → P (setHold .line b { s with flc := { s.flc with countdown := p } })
  drain         : ∀ c s, s.flc.line = .starting ∨ s.flc.line = .run → P s → P (enterDrain c s)
  horn          : ∀ s, P s → P { s with flc := { s.flc with horn := none } }
  recordSent    : ∀ s, P s → P (recordSent s)
  captureSent   : ∀ c s, P s → P (captureSent c s)
  repeated      : ∀ k s, P s → P (repeatAct k s)
  imageWritten  : ∀ p s, s.pfs.saving = some p → P s →
    P { s with pfs := { s.pfs with image := { format := 1, contents := p, crc := Config.imageCrc 1 p }, saving := none } }
  starting      : ∀ s, s.flc.line = .standby → P s → P (enterStarting s)
  faultCount    : ∀ s, P s → P (resetFaultCount s)
  clearing      : ∀ s, s.flc.line = .fault → P s → P (lineClearing s)
  set           : ∀ p x v b s, setCheck p x s = .inr (v, b) → P s →
    P (afterSet p { s with pfs := { s.pfs with profile := s.pfs.profile.write v p } })
  save          : ∀ s, P s → P { s with pfs := { s.pfs with
    saving := some s.pfs.profile, image := { s.pfs.image with crc := wrongCrc (Config.tornCrc s.fresh) s.pfs.image } } }
  load          : ∀ s, s.flc.line = .standby → P s → P (doLoad s).1
  dater         : ∀ d s, P s → P { s with can := { s.can with dater := some d } }
  pocket        : ∀ q a s, P s → P (doPocket q a s).1
  snapshot      : ∀ s, P s → P (takeSnapshot s)
  zero          : ∀ s, s.trk.table = [] → P s →
    P { s with cnb := { s.cnb with bank := zeroBank, remainder := 0, snap := zeroSnapshot } }
  ack           : ∀ k s, P s → P (ackKind k s)
  mask          : ∀ ks k s, P s → P (maskKind ks s k)
  headRetry     : ∀ h s, (s.scu.heads.get h).state = .failed → P s → P (doHeadRetry h s).1
  cancellerClear : ∀ c s, (s.can.recs.get c).state = .fault → P s → P (doCancellerClear c s).1
  capture       : ∀ w s, P s → P (doCapture w s).1
  captureOff    : ∀ s, P s → P (doCaptureOff s).1

theorem foldl_keeps {α : Type} {P : State → Prop} {f : State → α → State} (h : ∀ s a, P s → P (f s a)) (l : List α) (s : State)
    (hp : P s) : P (l.foldl f s) := by
  induction l generalizing s with
  | nil => exact hp
  | cons a l ih => exact ih _ (h _ _ hp)

/-! ### Gates, decisions and commitments -/

section Placing

variable {P : State → Prop} (hf : ∀ call s, P s → P (faultStop call s)) (hg : ∀ g f s, P s → P (updGate g f s))

include hg in
theorem gateTry_keeps (g : Gate) (s : State) (hp : P s) : P (gateTry g s) := by
  unfold gateTry
  split
  · dsimp only
    split
    · split
      · exact hg _ _ _ hp
      · exact hg _ _ _ hp
    · exact hp
  · exact hp

include hf hg

theorem placeEntry_keeps (g : Gate) (n : LetterNo) (x : Setting) (s : State) (hp : P s) : P (placeEntry g n x s) := by
  unfold placeEntry
  split
  · dsimp only
    split
    · exact hf _ _ hp
    · exact gateTry_keeps hg _ _ (hg _ _ _ hp)
  · exact hp

theorem placeGates_keeps (n : LetterNo) (d : Decision) (c : Option RejectCause) (s : State) (hp : P s) : P (placeGates n d c s) := by
  unfold placeGates
  dsimp only
  split
  all_goals exact placeEntry_keeps hf hg _ _ _ _ (placeEntry_keeps hf hg _ _ _ _ hp)

/-- A commitment: what it writes into the pocket and the entry, then gate entries (R128). -/
theorem commit_keeps (n : LetterNo) (q : Pocket) (l : List (Gate × Setting)) (s : State)
    (hp : P (updEntry n (fun e => { e with pocket := some q, cause := if isBin q then some .noPocket else e.cause })
      (updPocket q (fun r => { r with committed := r.committed + 1 }) s))) : P (commit n q l s) := by
  unfold commit
  exact foldl_keeps (fun s a h => placeEntry_keeps hf hg _ _ _ _ h) _ _ hp

/-- A decision: what it writes into the entry, then the merge record, the lists, the gates, the arm and fire points (R82). -/
theorem dpAct_keeps (hm : ∀ m s, P s → P { s with ptc := { s.ptc with merge := m } }) (hs : ∀ c f s, P s → P (updSup c f s))
    (ha : ∀ n s, P s → P (armAct n s)) (hr : ∀ n s, P s → P (fireAct n s)) (n : LetterNo) (s : State) (hp : P s)
    (hw : ∀ e, s.entry? n = some e →
      P (updEntry n (writeDecision (finalDecision s e) (makeJob s e (finalDecision s e))) s)) : P (dpAct n s) := by
  unfold dpAct
  split
  · exact hp
  · rename_i e he
    dsimp only
    have h1 := hw e he
    generalize updEntry n (writeDecision (finalDecision s e) (makeJob s e (finalDecision s e))) s = t at h1 ⊢
    have h2 : P (recordMerge e (finalDecision s e) t) := by
      unfold recordMerge
      split
      · exact h1
      · exact hm _ _ h1
      · exact hm _ _ h1
    have h3 : ∀ u, P u → P (joinLists n (finalDecision s e) u) := by
      intro u hu
      unfold joinLists joinList
      split
      · exact hs _ _ _ hu
      all_goals
        split
        · exact hs _ _ _ (hs _ _ _ hu)
        · exact hs _ _ _ (hs _ _ _ hu)
        · exact hs _ _ _ hu
    have h4 := placeGates_keeps hf hg n (finalDecision s e)
      (writeDecision (finalDecision s e) (makeJob s e (finalDecision s e)) e).cause _ (h3 _ h2)
    have h5 : ∀ u, P u → P (armAtDp n u) := by
      intro u hu
      unfold armAtDp
      dsimp only
      have h6 : ∀ v, P v → P (match v.entry? n with
          | some e => match e.stream, e.job with
            | some c, some j => if running v && reached v.trk.belt (at' e.anchor (fireOffset v e c j)) then fireAct n v else v
            | _, _ => v
          | none => v) := by
        intro v hv
        split
        · split
          · split
            · exact hr _ _ hv
            · exact hv
          · exact hv
        · exact hv
      apply h6
      split
      · split
        · split
          · exact ha _ _ hu
          · exact hu
        · exact hu
      · exact hu
    exact h5 _ h4

end Placing

namespace Parts

variable {P : State → Prop}

theorem act (k : Parts P) (n : LetterNo) (a : PosKind) (s : State) (d : due s n a = true) (hp : P s) : P (act n a s) := by
  cases a with
  | overLength => exact k.overLength n s d hp
  | pe0Jam => exact k.faultStop _ _ hp
  | missing c => exact k.faultStop _ _ hp
  | stationExit => exact k.exit n s hp
  | sh => exact k.sh n s hp
  | pulse => exact k.pulse n s hp
  | dp => exact k.dp n s d hp
  | gateClear g => exact k.clear g s hp
  | arm => exact k.arm n s hp
  | fire => exact k.fire n s hp
  | doneLimit c => exact k.doneLimit n c s d hp
  | select => exact k.select n s d hp
  | stacking => exact k.stack n s d hp

theorem begun (k : Parts P) (l : TxLine) (s : State) (hp : P s) : P (begin' l s) :=
  k.link _ s rfl rfl hp

theorem available (k : Parts P) (s : State) (hp : P s) : P (pickAvailable s) := by
  unfold pickAvailable
  split
  · exact k.begun _ _ hp
  · rename_i e _; exact k.begun _ _ (k.reportTaken _ _ (e ▸ List.sublist_cons_self _ _) hp)
  · exact k.begun _ _ hp
  · split
    · exact k.begun _ _ hp
    · exact hp
  · exact hp
  · exact hp

theorem pump (k : Parts P) (s : State) (hp : P s) : P (pump s) := by
  unfold Machine.pump
  split
  · exact hp
  · unfold pick
    split
    · exact k.available _ hp
    · exact hp
    · have h : P { s with llk := { s.llk with opening := .done } } := k.link _ s rfl rfl hp
      dsimp only
      split
      · exact k.begun _ _ (k.reportTaken _ _ List.filter_sublist h)
      · exact k.available _ h

theorem judge (k : Parts P) (b : Bool) (s : State) (hp : P s) : P (judgeHold b s) := by
  unfold Machine.judgeHold
  split
  · exact hp
  · split
    · exact k.setFlag _ _ _ (k.crossing _ hp)
    · exact k.setFlag _ _ _ hp

theorem matched (k : Parts P) (c : Sup) (e : Entry) (a : Pos) (s : State) (hp : P s) : P (matched c e a s) := by
  unfold Machine.matched
  exact takeReached_keeps k.act _ _ _ (k.corrected c _ _ _ _ _ (k.sup _ _ _ hp))

theorem arrival (k : Parts P) (c : Sup) (a : Pos) (s : State) (hp : P s) : P (arrival c a s) := by
  unfold Machine.arrival
  split
  · exact k.faultStop _ _ hp
  · dsimp only
    split
    · exact k.faultStop _ _ hp
    · split
      · exact k.faultStop _ _ hp
      · exact k.matched _ _ _ _ hp

theorem cellTail (k : Parts P) (c : Sup) (t : Pos) (s : State) (hp : P s) : P (cellTail c t s) := by
  unfold Machine.cellTail
  split
  · exact hp
  · split
    · exact k.faultStop _ _ hp
    · dsimp only
      split
      · exact k.second _ _ _ (k.sup _ _ _ hp)
      · exact k.sup _ _ _ hp

theorem edge (k : Parts P) (c : Photocell) (l : Level) (p : Pos) (s : State) (hp : P s) : P (edge c l p s) := by
  unfold Machine.edge
  split
  · split
    · rename_i h
      simp only [Bool.and_eq_true, Option.isNone_iff_eq_none] at h
      exact k.induct _ _ h.1 h.2 hp
    · exact hp
  · split
    · exact k.tail _ _ _ hp
    · exact hp
  · split
    · exact k.arrival _ _ _ hp
    · exact hp
  · split
    · exact k.cellTail _ _ _ hp
    · exact hp

theorem qualify (k : Parts P) (c : Photocell) (ch : Change) (s : State) (hp : P s) : P (qualify c ch s) := by
  unfold Machine.qualify
  dsimp only
  split
  · exact k.tryCalibrate _ (k.edge _ _ _ _ (k.cell _ _ _ hp))
  · exact k.edge _ _ _ _ (k.cell _ _ _ hp)

theorem rawChange (k : Parts P) (c : Photocell) (l : Level) (s : State) (hp : P s) : P (rawChange c l s) := by
  unfold Machine.rawChange
  split
  · exact hp
  · dsimp only
    split
    · exact k.tryCalibrate _ (k.cell _ _ _ hp)
    · exact k.cell _ _ _ hp

theorem perform (k : Parts P) (r : Request) (s : State) (hp : P s) : P (perform r s).1 := by
  cases r with
  | ping | status | get | flags | table | count | malformed =>
    simp only [Machine.perform, doGet, doTable, doCount]
    (repeat' split) <;> exact hp
  | pockets q => cases q <;> exact hp
  | start =>
    simp only [Machine.perform, doStart]
    split
    · exact hp
    · rename_i h
      refine k.starting _ ?_ hp
      by_contra hl
      simp [startRefusal, hl] at h
  | stop =>
    simp only [Machine.perform, doStop]
    split
    · rename_i h; exact k.drain _ _ (.inl h) hp
    · rename_i h; exact k.drain _ _ (.inr h) hp
    all_goals exact hp
  | clear o =>
    simp only [Machine.perform, doClear]
    split
    · exact k.faultCount _ hp
    · split
      · exact hp
      · rename_i h
        split
        · exact hp
        · split
          · exact hp
          · dsimp only
            have h' : s.flc.line = .fault := by simpa using h
            split
            · exact k.faultCount _ (k.clearing _ h' hp)
            · exact k.clearing _ h' hp
  | hold d =>
    cases d
    · exact k.lineHold _ _ _ hp
    · exact k.lineHold _ _ _ hp
  | release => exact k.lineHold _ _ _ hp
  | set n v =>
    simp only [Machine.perform, doSet]
    split
    · exact hp
    · split
      · exact hp
      · split
        · exact hp
        · rename_i h; exact k.set _ _ _ _ _ h hp
  | save =>
    simp only [Machine.perform, doSave]
    split
    · exact k.save _ hp
    · exact hp
  | load =>
    by_cases h : s.flc.line = .standby
    · exact k.load _ h hp
    · simpa [Machine.perform, doLoad, h] using hp
  | dater d =>
    simp only [Machine.perform, doDater]
    split
    · exact k.dater _ _ hp
    · exact hp
  | pocket q a => exact k.pocket _ _ _ hp
  | snap => exact k.snapshot _ hp
  | zero =>
    simp only [Machine.perform, doZero]
    split
    · rename_i h; exact k.zero _ h.1 hp
    · exact hp
  | mask ks => exact foldl_keeps (fun s a h => k.mask ks a s h) _ _ hp
  | ack ks => exact foldl_keeps (fun s a h => k.ack a s h) _ _ hp
  | headRetry h =>
    by_cases hf : (s.scu.heads.get h).state = .failed
    · exact k.headRetry _ _ hf hp
    · simpa [Machine.perform, doHeadRetry, hf] using hp
  | cancellerClear c =>
    by_cases hf : (s.can.recs.get c).state = .fault
    · exact k.cancellerClear _ _ hf hp
    · simpa [Machine.perform, doCancellerClear, hf] using hp
  | capture w => exact k.capture _ _ hp
  | captureOff => exact k.captureOff _ hp
  | restart =>
    simp only [Machine.perform, doRestart]
    split
    all_goals first | exact hp | exact k.link _ _ rfl rfl hp

theorem takeRequests (k : Parts P) (fuel : Nat) (s : State) (hp : P s) : P (takeRequests fuel s) := by
  induction fuel generalizing s with
  | zero => exact hp
  | succ m ih =>
    simp only [Machine.takeRequests]
    split
    · exact hp
    · split
      · exact hp
      · exact ih _ (k.link _ _ rfl rfl (k.perform _ _ hp))

theorem submit (k : Parts P) (r : Request) (s : State) (hp : P s) : P (submit r s) := by
  have hs : P (restartSilence s) := k.link _ _ rfl rfl hp
  unfold Machine.submit
  dsimp only
  split
  · exact hs
  · split
    · exact k.setFlag _ _ _ hs
    · split
      · exact k.link _ _ rfl rfl hs
      · exact k.takeRequests _ _ (k.link _ _ rfl rfl hs)

theorem malformed (k : Parts P) (e : LinkError) (r : Reply) (s : State) (hp : P s) : P (submitMalformed e r s) := by
  unfold submitMalformed
  dsimp only
  split
  · exact k.setFlag _ _ _ hp
  · split
    · exact k.setFlag _ _ _ (k.setFlag _ _ _ hp)
    · exact k.link _ _ rfl rfl (k.setFlag _ _ _ hp)

theorem receive (k : Parts P) (c : Byte) (f : Bool) (s : State) (hp : P s) : P (receive c f s) := by
  unfold Machine.receive
  split
  · dsimp only
    split
    · exact k.link _ _ rfl rfl hp
    · unfold completeLine
      split
      · exact k.malformed _ _ _ (k.link _ _ rfl rfl hp)
      · exact k.malformed _ _ _ (k.link _ _ rfl rfl hp)
      · exact k.malformed _ _ _ (k.link _ _ rfl rfl hp)
      · exact k.submit _ _ (k.link _ _ rfl rfl hp)
  · exact k.link _ _ rfl rfl hp

/-- A property its parts keep is kept by every event. -/
theorem kept (k : Parts P) : Kept P where
  queue := k.queue
  reset := k.reset
  pump := k.pump
  wait _ s hp := k.clock _ s hp
  faultStop := k.faultStop
  tryCalibrate := k.tryCalibrate
  loaded := k.loaded
  belt := k.belt
  speed := k.speed
  dropTail := k.dropTail
  act := k.act
  rawChange := k.rawChange
  qualify := k.qualify
  calDue := k.calDue
  answer := k.answer
  failHead := k.failHead
  warmEnd := k.warmEnd
  deliver := k.deliver
  settled := k.settled
  dropMerge := k.dropMerge
  status := k.status
  primed := k.primed
  accepted := k.accepted
  parity := k.parity
  done := k.done
  moduleFault := k.moduleFault
  primeTimeout := k.primeTimeout
  replyTimeout := k.replyTimeout
  sensor := k.sensor
  sensorQualified := k.sensorQualified
  press := k.press
  release := k.release
  pressed := k.pressed
  runUp := k.runUp
  estop := k.estop
  countdown s hp := k.lineHold _ _ s hp
  silence s hp := by
    unfold silenceAct
    have h1 : P (Machine.setFlag .linkSilent (.silent s.flc.line) { s with llk := { s.llk with silent := true } }) :=
      k.setFlag _ _ _ (k.link _ s rfl rfl hp)
    dsimp only
    split
    · rename_i h; exact k.drain _ _ (.inl h) h1
    · rename_i h; exact k.drain _ _ (.inr h) h1
    all_goals exact h1
  horn := k.horn
  receive := k.receive
  gap s hp := k.setFlag _ _ _ (k.link _ s rfl rfl hp)
  sent l s _ hp := by
    have h1 : P { s with llk := { s.llk with tx := none } } := k.link _ s rfl rfl hp
    cases l with
    | reply r => exact k.link _ s rfl rfl hp
    | report a d =>
      simp only [lineSent]
      split
      · exact h1
      · exact k.restamp _ _ _ h1
    | record r => exact k.recordSent _ h1
    | capture c => exact k.captureSent _ _ h1
  repeated := k.repeated
  repeatStopped a s hp := k.restamp a none s hp
  judge := k.judge
  drained := k.drained
  written p s h hp :=
    k.takeRequests _ _ (k.link { s.llk with answers := s.llk.answers.map (saveAnswered (Config.imageCrc 1 p)) }
      { s with pfs := { s.pfs with image := { format := 1, contents := p, crc := Config.imageCrc 1 p }, saving := none } } rfl rfl
      (k.imageWritten p s h hp))
  request := k.submit

end Parts

end Sys2Proof.Laws
end

