-- ==== Sys2Proof/Laws/Tables.lean ====
section
/-! SUPPORT. Reading a table after one place of it was replaced. -/

namespace Sys2Proof.Machine

@[simp] theorem PerCell.get_set_self {α : Type} (t : PerCell α) (i : Photocell) (v : α) : (t.set i v).get i = v := by
  cases i <;> rfl

theorem PerCell.get_set_ne {α : Type} (t : PerCell α) {i j : Photocell} (v : α) (h : i ≠ j) : (t.set i v).get j = t.get j := by
  cases i <;> cases j <;> first | rfl | exact absurd rfl h

@[simp] theorem PerCell.get_upd_self {α : Type} (t : PerCell α) (i : Photocell) (f : α → α) : (t.upd i f).get i = f (t.get i) :=
  PerCell.get_set_self t i _

theorem PerCell.get_upd_ne {α : Type} (t : PerCell α) {i j : Photocell} (f : α → α) (h : i ≠ j) : (t.upd i f).get j = t.get j :=
  PerCell.get_set_ne t _ h

@[simp] theorem PerCell.get_map {α β : Type} (t : PerCell α) (f : α → β) (i : Photocell) : (t.map f).get i = f (t.get i) := by
  cases i <;> rfl

@[simp] theorem PerCell.get_fill {α : Type} (v : α) (i : Photocell) : (PerCell.fill v).get i = v := by
  cases i <;> rfl

@[simp] theorem PerSup.get_set_self {α : Type} (t : PerSup α) (i : Sup) (v : α) : (t.set i v).get i = v := by
  cases i <;> rfl

theorem PerSup.get_set_ne {α : Type} (t : PerSup α) {i j : Sup} (v : α) (h : i ≠ j) : (t.set i v).get j = t.get j := by
  cases i <;> cases j <;> first | rfl | exact absurd rfl h

@[simp] theorem PerSup.get_upd_self {α : Type} (t : PerSup α) (i : Sup) (f : α → α) : (t.upd i f).get i = f (t.get i) :=
  PerSup.get_set_self t i _

theorem PerSup.get_upd_ne {α : Type} (t : PerSup α) {i j : Sup} (f : α → α) (h : i ≠ j) : (t.upd i f).get j = t.get j :=
  PerSup.get_set_ne t _ h

@[simp] theorem PerSup.get_map {α β : Type} (t : PerSup α) (f : α → β) (i : Sup) : (t.map f).get i = f (t.get i) := by
  cases i <;> rfl

@[simp] theorem PerSup.get_fill {α : Type} (v : α) (i : Sup) : (PerSup.fill v).get i = v := by
  cases i <;> rfl

@[simp] theorem PerHead.get_set_self {α : Type} (t : PerHead α) (i : Head) (v : α) : (t.set i v).get i = v := by
  cases i <;> rfl

theorem PerHead.get_set_ne {α : Type} (t : PerHead α) {i j : Head} (v : α) (h : i ≠ j) : (t.set i v).get j = t.get j := by
  cases i <;> cases j <;> first | rfl | exact absurd rfl h

@[simp] theorem PerHead.get_upd_self {α : Type} (t : PerHead α) (i : Head) (f : α → α) : (t.upd i f).get i = f (t.get i) :=
  PerHead.get_set_self t i _

theorem PerHead.get_upd_ne {α : Type} (t : PerHead α) {i j : Head} (f : α → α) (h : i ≠ j) : (t.upd i f).get j = t.get j :=
  PerHead.get_set_ne t _ h

@[simp] theorem PerHead.get_map {α β : Type} (t : PerHead α) (f : α → β) (i : Head) : (t.map f).get i = f (t.get i) := by
  cases i <;> rfl

@[simp] theorem PerHead.get_fill {α : Type} (v : α) (i : Head) : (PerHead.fill v).get i = v := by
  cases i <;> rfl

@[simp] theorem PerStream.get_set_self {α : Type} (t : PerStream α) (i : Stream) (v : α) : (t.set i v).get i = v := by
  cases i <;> rfl

theorem PerStream.get_set_ne {α : Type} (t : PerStream α) {i j : Stream} (v : α) (h : i ≠ j) : (t.set i v).get j = t.get j := by
  cases i <;> cases j <;> first | rfl | exact absurd rfl h

@[simp] theorem PerStream.get_upd_self {α : Type} (t : PerStream α) (i : Stream) (f : α → α) : (t.upd i f).get i = f (t.get i) :=
  PerStream.get_set_self t i _

theorem PerStream.get_upd_ne {α : Type} (t : PerStream α) {i j : Stream} (f : α → α) (h : i ≠ j) : (t.upd i f).get j = t.get j :=
  PerStream.get_set_ne t _ h

@[simp] theorem PerStream.get_map {α β : Type} (t : PerStream α) (f : α → β) (i : Stream) : (t.map f).get i = f (t.get i) := by
  cases i <;> rfl

@[simp] theorem PerStream.get_fill {α : Type} (v : α) (i : Stream) : (PerStream.fill v).get i = v := by
  cases i <;> rfl

@[simp] theorem PerPocket.get_set_self {α : Type} (t : PerPocket α) (i : Pocket) (v : α) : (t.set i v).get i = v := by
  cases i <;> rfl

theorem PerPocket.get_set_ne {α : Type} (t : PerPocket α) {i j : Pocket} (v : α) (h : i ≠ j) : (t.set i v).get j = t.get j := by
  cases i <;> cases j <;> first | rfl | exact absurd rfl h

@[simp] theorem PerPocket.get_upd_self {α : Type} (t : PerPocket α) (i : Pocket) (f : α → α) : (t.upd i f).get i = f (t.get i) :=
  PerPocket.get_set_self t i _

theorem PerPocket.get_upd_ne {α : Type} (t : PerPocket α) {i j : Pocket} (f : α → α) (h : i ≠ j) : (t.upd i f).get j = t.get j :=
  PerPocket.get_set_ne t _ h

@[simp] theorem PerPocket.get_map {α β : Type} (t : PerPocket α) (f : α → β) (i : Pocket) : (t.map f).get i = f (t.get i) := by
  cases i <;> rfl

@[simp] theorem PerPocket.get_fill {α : Type} (v : α) (i : Pocket) : (PerPocket.fill v).get i = v := by
  cases i <;> rfl

@[simp] theorem PerStack.get_set_self {α : Type} (t : PerStack α) (i : StackPocket) (v : α) : (t.set i v).get i = v := by
  cases i <;> rfl

theorem PerStack.get_set_ne {α : Type} (t : PerStack α) {i j : StackPocket} (v : α) (h : i ≠ j) : (t.set i v).get j = t.get j := by
  cases i <;> cases j <;> first | rfl | exact absurd rfl h

@[simp] theorem PerStack.get_upd_self {α : Type} (t : PerStack α) (i : StackPocket) (f : α → α) : (t.upd i f).get i = f (t.get i) :=
  PerStack.get_set_self t i _

theorem PerStack.get_upd_ne {α : Type} (t : PerStack α) {i j : StackPocket} (f : α → α) (h : i ≠ j) : (t.upd i f).get j = t.get j :=
  PerStack.get_set_ne t _ h

@[simp] theorem PerStack.get_map {α β : Type} (t : PerStack α) (f : α → β) (i : StackPocket) : (t.map f).get i = f (t.get i) := by
  cases i <;> rfl

@[simp] theorem PerStack.get_fill {α : Type} (v : α) (i : StackPocket) : (PerStack.fill v).get i = v := by
  cases i <;> rfl

@[simp] theorem PerGate.get_set_self {α : Type} (t : PerGate α) (i : Gate) (v : α) : (t.set i v).get i = v := by
  cases i <;> rfl

theorem PerGate.get_set_ne {α : Type} (t : PerGate α) {i j : Gate} (v : α) (h : i ≠ j) : (t.set i v).get j = t.get j := by
  cases i <;> cases j <;> first | rfl | exact absurd rfl h

@[simp] theorem PerGate.get_upd_self {α : Type} (t : PerGate α) (i : Gate) (f : α → α) : (t.upd i f).get i = f (t.get i) :=
  PerGate.get_set_self t i _

theorem PerGate.get_upd_ne {α : Type} (t : PerGate α) {i j : Gate} (f : α → α) (h : i ≠ j) : (t.upd i f).get j = t.get j :=
  PerGate.get_set_ne t _ h

@[simp] theorem PerGate.get_map {α β : Type} (t : PerGate α) (f : α → β) (i : Gate) : (t.map f).get i = f (t.get i) := by
  cases i <;> rfl

@[simp] theorem PerGate.get_fill {α : Type} (v : α) (i : Gate) : (PerGate.fill v).get i = v := by
  cases i <;> rfl

@[simp] theorem PerKind.get_set_self {α : Type} (t : PerKind α) (i : Kind) (v : α) : (t.set i v).get i = v := by
  cases i <;> rfl

theorem PerKind.get_set_ne {α : Type} (t : PerKind α) {i j : Kind} (v : α) (h : i ≠ j) : (t.set i v).get j = t.get j := by
  cases i <;> cases j <;> first | rfl | exact absurd rfl h

@[simp] theorem PerKind.get_upd_self {α : Type} (t : PerKind α) (i : Kind) (f : α → α) : (t.upd i f).get i = f (t.get i) :=
  PerKind.get_set_self t i _

theorem PerKind.get_upd_ne {α : Type} (t : PerKind α) {i j : Kind} (f : α → α) (h : i ≠ j) : (t.upd i f).get j = t.get j :=
  PerKind.get_set_ne t _ h

@[simp] theorem PerKind.get_map {α β : Type} (t : PerKind α) (f : α → β) (i : Kind) : (t.map f).get i = f (t.get i) := by
  cases i <;> rfl

@[simp] theorem PerKind.get_fill {α : Type} (v : α) (i : Kind) : (PerKind.fill v).get i = v := by
  cases i <;> rfl

@[simp] theorem PerClass.get_set_self {α : Type} (t : PerClass α) (i : MarkClass) (v : α) : (t.set i v).get i = v := by
  cases i <;> rfl

theorem PerClass.get_set_ne {α : Type} (t : PerClass α) {i j : MarkClass} (v : α) (h : i ≠ j) : (t.set i v).get j = t.get j := by
  cases i <;> cases j <;> first | rfl | exact absurd rfl h

@[simp] theorem PerClass.get_upd_self {α : Type} (t : PerClass α) (i : MarkClass) (f : α → α) : (t.upd i f).get i = f (t.get i) :=
  PerClass.get_set_self t i _

theorem PerClass.get_upd_ne {α : Type} (t : PerClass α) {i j : MarkClass} (f : α → α) (h : i ≠ j) : (t.upd i f).get j = t.get j :=
  PerClass.get_set_ne t _ h

@[simp] theorem PerClass.get_map {α β : Type} (t : PerClass α) (f : α → β) (i : MarkClass) : (t.map f).get i = f (t.get i) := by
  cases i <;> rfl

@[simp] theorem PerClass.get_fill {α : Type} (v : α) (i : MarkClass) : (PerClass.fill v).get i = v := by
  cases i <;> rfl

@[simp] theorem PerOrient.get_set_self {α : Type} (t : PerOrient α) (i : Orient) (v : α) : (t.set i v).get i = v := by
  cases i <;> rfl

theorem PerOrient.get_set_ne {α : Type} (t : PerOrient α) {i j : Orient} (v : α) (h : i ≠ j) : (t.set i v).get j = t.get j := by
  cases i <;> cases j <;> first | rfl | exact absurd rfl h

@[simp] theorem PerOrient.get_upd_self {α : Type} (t : PerOrient α) (i : Orient) (f : α → α) : (t.upd i f).get i = f (t.get i) :=
  PerOrient.get_set_self t i _

theorem PerOrient.get_upd_ne {α : Type} (t : PerOrient α) {i j : Orient} (f : α → α) (h : i ≠ j) : (t.upd i f).get j = t.get j :=
  PerOrient.get_set_ne t _ h

@[simp] theorem PerOrient.get_map {α β : Type} (t : PerOrient α) (f : α → β) (i : Orient) : (t.map f).get i = f (t.get i) := by
  cases i <;> rfl

@[simp] theorem PerOrient.get_fill {α : Type} (v : α) (i : Orient) : (PerOrient.fill v).get i = v := by
  cases i <;> rfl

@[simp] theorem PerCause.get_set_self {α : Type} (t : PerCause α) (i : RejectCause) (v : α) : (t.set i v).get i = v := by
  cases i <;> rfl

theorem PerCause.get_set_ne {α : Type} (t : PerCause α) {i j : RejectCause} (v : α) (h : i ≠ j) : (t.set i v).get j = t.get j := by
  cases i <;> cases j <;> first | rfl | exact absurd rfl h

@[simp] theorem PerCause.get_upd_self {α : Type} (t : PerCause α) (i : RejectCause) (f : α → α) : (t.upd i f).get i = f (t.get i) :=
  PerCause.get_set_self t i _

theorem PerCause.get_upd_ne {α : Type} (t : PerCause α) {i j : RejectCause} (f : α → α) (h : i ≠ j) : (t.upd i f).get j = t.get j :=
  PerCause.get_set_ne t _ h

@[simp] theorem PerCause.get_map {α β : Type} (t : PerCause α) (f : α → β) (i : RejectCause) : (t.map f).get i = f (t.get i) := by
  cases i <;> rfl

@[simp] theorem PerCause.get_fill {α : Type} (v : α) (i : RejectCause) : (PerCause.fill v).get i = v := by
  cases i <;> rfl

@[simp] theorem PerBucket.get_set_self {α : Type} (t : PerBucket α) (i : Bucket) (v : α) : (t.set i v).get i = v := by
  cases i <;> rfl

theorem PerBucket.get_set_ne {α : Type} (t : PerBucket α) {i j : Bucket} (v : α) (h : i ≠ j) : (t.set i v).get j = t.get j := by
  cases i <;> cases j <;> first | rfl | exact absurd rfl h

@[simp] theorem PerBucket.get_upd_self {α : Type} (t : PerBucket α) (i : Bucket) (f : α → α) : (t.upd i f).get i = f (t.get i) :=
  PerBucket.get_set_self t i _

theorem PerBucket.get_upd_ne {α : Type} (t : PerBucket α) {i j : Bucket} (f : α → α) (h : i ≠ j) : (t.upd i f).get j = t.get j :=
  PerBucket.get_set_ne t _ h

@[simp] theorem PerBucket.get_map {α β : Type} (t : PerBucket α) (f : α → β) (i : Bucket) : (t.map f).get i = f (t.get i) := by
  cases i <;> rfl

@[simp] theorem PerBucket.get_fill {α : Type} (v : α) (i : Bucket) : (PerBucket.fill v).get i = v := by
  cases i <;> rfl

@[simp] theorem PerStation.get_set_self {α : Type} (t : PerStation α) (i : Station) (v : α) : (t.set i v).get i = v := by
  cases i <;> rfl

theorem PerStation.get_set_ne {α : Type} (t : PerStation α) {i j : Station} (v : α) (h : i ≠ j) : (t.set i v).get j = t.get j := by
  cases i <;> cases j <;> first | rfl | exact absurd rfl h

@[simp] theorem PerStation.get_upd_self {α : Type} (t : PerStation α) (i : Station) (f : α → α) : (t.upd i f).get i = f (t.get i) :=
  PerStation.get_set_self t i _

theorem PerStation.get_upd_ne {α : Type} (t : PerStation α) {i j : Station} (f : α → α) (h : i ≠ j) : (t.upd i f).get j = t.get j :=
  PerStation.get_set_ne t _ h

@[simp] theorem PerStation.get_map {α β : Type} (t : PerStation α) (f : α → β) (i : Station) : (t.map f).get i = f (t.get i) := by
  cases i <;> rfl

@[simp] theorem PerStation.get_fill {α : Type} (v : α) (i : Station) : (PerStation.fill v).get i = v := by
  cases i <;> rfl

@[simp] theorem PerBuf.get_set_self {α : Type} (t : PerBuf α) (i : Buf) (v : α) : (t.set i v).get i = v := by
  cases i <;> rfl

theorem PerBuf.get_set_ne {α : Type} (t : PerBuf α) {i j : Buf} (v : α) (h : i ≠ j) : (t.set i v).get j = t.get j := by
  cases i <;> cases j <;> first | rfl | exact absurd rfl h

@[simp] theorem PerBuf.get_upd_self {α : Type} (t : PerBuf α) (i : Buf) (f : α → α) : (t.upd i f).get i = f (t.get i) :=
  PerBuf.get_set_self t i _

theorem PerBuf.get_upd_ne {α : Type} (t : PerBuf α) {i j : Buf} (f : α → α) (h : i ≠ j) : (t.upd i f).get j = t.get j :=
  PerBuf.get_set_ne t _ h

@[simp] theorem PerBuf.get_map {α β : Type} (t : PerBuf α) (f : α → β) (i : Buf) : (t.map f).get i = f (t.get i) := by
  cases i <;> rfl

@[simp] theorem PerBuf.get_fill {α : Type} (v : α) (i : Buf) : (PerBuf.fill v).get i = v := by
  cases i <;> rfl

end Sys2Proof.Machine
end

