-- ==== Sys2Proof/Laws/State.lean ====
section
/-! SUPPORT. Each small update of the state: the field it writes, and the blocks and fields it leaves. -/

namespace Sys2Proof.Machine

@[simp] theorem setFlag_effect (k : Kind) (d : Detail) (s : State) :
    (setFlag k d s).llk.flags = s.llk.flags.set k { s.llk.flags.get k with set := true, detail := some d } ∧
    (setFlag k d s).llk.reports =
      if (s.llk.flags.get k).masked || s.llk.reports.contains k then s.llk.reports else s.llk.reports ++ [k] :=
  ⟨rfl, rfl⟩

@[simp] theorem setFlag_frame (k : Kind) (d : Detail) (s : State) :
    (setFlag k d s).trk = s.trk ∧
    (setFlag k d s).pcm = s.pcm ∧
    (setFlag k d s).scu = s.scu ∧
    (setFlag k d s).mkf = s.mkf ∧
    (setFlag k d s).ptc = s.ptc ∧
    (setFlag k d s).can = s.can ∧
    (setFlag k d s).pkc = s.pkc ∧
    (setFlag k d s).flc = s.flc ∧
    (setFlag k d s).cnb = s.cnb ∧
    (setFlag k d s).llk.rx = s.llk.rx ∧
    (setFlag k d s).llk.answers = s.llk.answers ∧
    (setFlag k d s).llk.restarting = s.llk.restarting ∧
    (setFlag k d s).llk.silenceStart = s.llk.silenceStart ∧
    (setFlag k d s).llk.silent = s.llk.silent ∧
    (setFlag k d s).llk.tx = s.llk.tx ∧
    (setFlag k d s).llk.opening = s.llk.opening ∧
    (setFlag k d s).pfs = s.pfs ∧
    (setFlag k d s).now = s.now ∧
    (setFlag k d s).fresh = s.fresh ∧
    (setFlag k d s).pending = s.pending :=
  ⟨rfl, rfl, rfl, rfl, rfl, rfl, rfl, rfl, rfl, rfl, rfl, rfl, rfl, rfl, rfl, rfl, rfl, rfl, rfl, rfl⟩

@[simp] theorem updEntry_effect (n : LetterNo) (f : Entry → Entry) (s : State) :
    (updEntry n f s).trk.table = updTable n f s.trk.table :=
  rfl

@[simp] theorem updEntry_frame (n : LetterNo) (f : Entry → Entry) (s : State) :
    (updEntry n f s).trk.belt = s.trk.belt ∧
    (updEntry n f s).trk.samples = s.trk.samples ∧
    (updEntry n f s).trk.speed = s.trk.speed ∧
    (updEntry n f s).trk.nextNumber = s.trk.nextNumber ∧
    (updEntry n f s).trk.measuring = s.trk.measuring ∧
    (updEntry n f s).trk.overTaken = s.trk.overTaken ∧
    (updEntry n f s).trk.prevTail = s.trk.prevTail ∧
    (updEntry n f s).pcm = s.pcm ∧
    (updEntry n f s).scu = s.scu ∧
    (updEntry n f s).mkf = s.mkf ∧
    (updEntry n f s).ptc = s.ptc ∧
    (updEntry n f s).can = s.can ∧
    (updEntry n f s).pkc = s.pkc ∧
    (updEntry n f s).flc = s.flc ∧
    (updEntry n f s).cnb = s.cnb ∧
    (updEntry n f s).llk = s.llk ∧
    (updEntry n f s).pfs = s.pfs ∧
    (updEntry n f s).now = s.now ∧
    (updEntry n f s).fresh = s.fresh ∧
    (updEntry n f s).pending = s.pending :=
  ⟨rfl, rfl, rfl, rfl, rfl, rfl, rfl, rfl, rfl, rfl, rfl, rfl, rfl, rfl, rfl, rfl, rfl, rfl, rfl, rfl⟩

@[simp] theorem count_effect (f : Bank → Bank) (s : State) :
    (count f s).cnb.bank = f s.cnb.bank :=
  rfl

@[simp] theorem count_frame (f : Bank → Bank) (s : State) :
    (count f s).trk = s.trk ∧
    (count f s).pcm = s.pcm ∧
    (count f s).scu = s.scu ∧
    (count f s).mkf = s.mkf ∧
    (count f s).ptc = s.ptc ∧
    (count f s).can = s.can ∧
    (count f s).pkc = s.pkc ∧
    (count f s).flc = s.flc ∧
    (count f s).cnb.remainder = s.cnb.remainder ∧
    (count f s).cnb.snap = s.cnb.snap ∧
    (count f s).cnb.records = s.cnb.records ∧
    (count f s).llk = s.llk ∧
    (count f s).pfs = s.pfs ∧
    (count f s).now = s.now ∧
    (count f s).fresh = s.fresh ∧
    (count f s).pending = s.pending :=
  ⟨rfl, rfl, rfl, rfl, rfl, rfl, rfl, rfl, rfl, rfl, rfl, rfl, rfl, rfl, rfl, rfl⟩

@[simp] theorem updHead_effect (h : Head) (f : HeadRec → HeadRec) (s : State) :
    (updHead h f s).scu.heads = s.scu.heads.upd h f :=
  rfl

@[simp] theorem updHead_frame (h : Head) (f : HeadRec → HeadRec) (s : State) :
    (updHead h f s).trk = s.trk ∧
    (updHead h f s).pcm = s.pcm ∧
    (updHead h f s).scu.bufs = s.scu.bufs ∧
    (updHead h f s).scu.calStart = s.scu.calStart ∧
    (updHead h f s).scu.calDue = s.scu.calDue ∧
    (updHead h f s).mkf = s.mkf ∧
    (updHead h f s).ptc = s.ptc ∧
    (updHead h f s).can = s.can ∧
    (updHead h f s).pkc = s.pkc ∧
    (updHead h f s).flc = s.flc ∧
    (updHead h f s).cnb = s.cnb ∧
    (updHead h f s).llk = s.llk ∧
    (updHead h f s).pfs = s.pfs ∧
    (updHead h f s).now = s.now ∧
    (updHead h f s).fresh = s.fresh ∧
    (updHead h f s).pending = s.pending :=
  ⟨rfl, rfl, rfl, rfl, rfl, rfl, rfl, rfl, rfl, rfl, rfl, rfl, rfl, rfl, rfl, rfl⟩

@[simp] theorem updBuf_effect (b : Buf) (f : BufRec → BufRec) (s : State) :
    (updBuf b f s).scu.bufs = s.scu.bufs.upd b f :=
  rfl

@[simp] theorem updBuf_frame (b : Buf) (f : BufRec → BufRec) (s : State) :
    (updBuf b f s).trk = s.trk ∧
    (updBuf b f s).pcm = s.pcm ∧
    (updBuf b f s).scu.heads = s.scu.heads ∧
    (updBuf b f s).scu.calStart = s.scu.calStart ∧
    (updBuf b f s).scu.calDue = s.scu.calDue ∧
    (updBuf b f s).mkf = s.mkf ∧
    (updBuf b f s).ptc = s.ptc ∧
    (updBuf b f s).can = s.can ∧
    (updBuf b f s).pkc = s.pkc ∧
    (updBuf b f s).flc = s.flc ∧
    (updBuf b f s).cnb = s.cnb ∧
    (updBuf b f s).llk = s.llk ∧
    (updBuf b f s).pfs = s.pfs ∧
    (updBuf b f s).now = s.now ∧
    (updBuf b f s).fresh = s.fresh ∧
    (updBuf b f s).pending = s.pending :=
  ⟨rfl, rfl, rfl, rfl, rfl, rfl, rfl, rfl, rfl, rfl, rfl, rfl, rfl, rfl, rfl, rfl⟩

@[simp] theorem updGate_effect (g : Gate) (f : GateRec → GateRec) (s : State) :
    (updGate g f s).ptc.gates = s.ptc.gates.upd g f :=
  rfl

@[simp] theorem updGate_frame (g : Gate) (f : GateRec → GateRec) (s : State) :
    (updGate g f s).trk = s.trk ∧
    (updGate g f s).pcm = s.pcm ∧
    (updGate g f s).scu = s.scu ∧
    (updGate g f s).mkf = s.mkf ∧
    (updGate g f s).ptc.merge = s.ptc.merge ∧
    (updGate g f s).can = s.can ∧
    (updGate g f s).pkc = s.pkc ∧
    (updGate g f s).flc = s.flc ∧
    (updGate g f s).cnb = s.cnb ∧
    (updGate g f s).llk = s.llk ∧
    (updGate g f s).pfs = s.pfs ∧
    (updGate g f s).now = s.now ∧
    (updGate g f s).fresh = s.fresh ∧
    (updGate g f s).pending = s.pending :=
  ⟨rfl, rfl, rfl, rfl, rfl, rfl, rfl, rfl, rfl, rfl, rfl, rfl, rfl, rfl⟩

@[simp] theorem updCanc_effect (c : Stream) (f : CancRec → CancRec) (s : State) :
    (updCanc c f s).can.recs = s.can.recs.upd c f :=
  rfl

@[simp] theorem updCanc_frame (c : Stream) (f : CancRec → CancRec) (s : State) :
    (updCanc c f s).trk = s.trk ∧
    (updCanc c f s).pcm = s.pcm ∧
    (updCanc c f s).scu = s.scu ∧
    (updCanc c f s).mkf = s.mkf ∧
    (updCanc c f s).ptc = s.ptc ∧
    (updCanc c f s).can.dater = s.can.dater ∧
    (updCanc c f s).pkc = s.pkc ∧
    (updCanc c f s).flc = s.flc ∧
    (updCanc c f s).cnb = s.cnb ∧
    (updCanc c f s).llk = s.llk ∧
    (updCanc c f s).pfs = s.pfs ∧
    (updCanc c f s).now = s.now ∧
    (updCanc c f s).fresh = s.fresh ∧
    (updCanc c f s).pending = s.pending :=
  ⟨rfl, rfl, rfl, rfl, rfl, rfl, rfl, rfl, rfl, rfl, rfl, rfl, rfl, rfl⟩

@[simp] theorem updPocket_effect (p : Pocket) (f : PocketRec → PocketRec) (s : State) :
    (updPocket p f s).pkc.recs = s.pkc.recs.upd p f :=
  rfl

@[simp] theorem updPocket_frame (p : Pocket) (f : PocketRec → PocketRec) (s : State) :
    (updPocket p f s).trk = s.trk ∧
    (updPocket p f s).pcm = s.pcm ∧
    (updPocket p f s).scu = s.scu ∧
    (updPocket p f s).mkf = s.mkf ∧
    (updPocket p f s).ptc = s.ptc ∧
    (updPocket p f s).can = s.can ∧
    (updPocket p f s).pkc.blocked = s.pkc.blocked ∧
    (updPocket p f s).flc = s.flc ∧
    (updPocket p f s).cnb = s.cnb ∧
    (updPocket p f s).llk = s.llk ∧
    (updPocket p f s).pfs = s.pfs ∧
    (updPocket p f s).now = s.now ∧
    (updPocket p f s).fresh = s.fresh ∧
    (updPocket p f s).pending = s.pending :=
  ⟨rfl, rfl, rfl, rfl, rfl, rfl, rfl, rfl, rfl, rfl, rfl, rfl, rfl, rfl⟩

@[simp] theorem updSup_effect (c : Sup) (f : SupRec → SupRec) (s : State) :
    (updSup c f s).pcm.sups = s.pcm.sups.upd c f :=
  rfl

@[simp] theorem updSup_frame (c : Sup) (f : SupRec → SupRec) (s : State) :
    (updSup c f s).trk = s.trk ∧
    (updSup c f s).pcm.cells = s.pcm.cells ∧
    (updSup c f s).scu = s.scu ∧
    (updSup c f s).mkf = s.mkf ∧
    (updSup c f s).ptc = s.ptc ∧
    (updSup c f s).can = s.can ∧
    (updSup c f s).pkc = s.pkc ∧
    (updSup c f s).flc = s.flc ∧
    (updSup c f s).cnb = s.cnb ∧
    (updSup c f s).llk = s.llk ∧
    (updSup c f s).pfs = s.pfs ∧
    (updSup c f s).now = s.now ∧
    (updSup c f s).fresh = s.fresh ∧
    (updSup c f s).pending = s.pending :=
  ⟨rfl, rfl, rfl, rfl, rfl, rfl, rfl, rfl, rfl, rfl, rfl, rfl, rfl, rfl⟩

@[simp] theorem updCell_effect (c : Photocell) (f : CellRec → CellRec) (s : State) :
    (updCell c f s).pcm.cells = s.pcm.cells.upd c f :=
  rfl

@[simp] theorem updCell_frame (c : Photocell) (f : CellRec → CellRec) (s : State) :
    (updCell c f s).trk = s.trk ∧
    (updCell c f s).pcm.sups = s.pcm.sups ∧
    (updCell c f s).scu = s.scu ∧
    (updCell c f s).mkf = s.mkf ∧
    (updCell c f s).ptc = s.ptc ∧
    (updCell c f s).can = s.can ∧
    (updCell c f s).pkc = s.pkc ∧
    (updCell c f s).flc = s.flc ∧
    (updCell c f s).cnb = s.cnb ∧
    (updCell c f s).llk = s.llk ∧
    (updCell c f s).pfs = s.pfs ∧
    (updCell c f s).now = s.now ∧
    (updCell c f s).fresh = s.fresh ∧
    (updCell c f s).pending = s.pending :=
  ⟨rfl, rfl, rfl, rfl, rfl, rfl, rfl, rfl, rfl, rfl, rfl, rfl, rfl, rfl⟩

@[simp] theorem waitUntil_effect (t : Nat) (s : State) :
    (waitUntil t s).now = max s.now t :=
  rfl

@[simp] theorem waitUntil_frame (t : Nat) (s : State) :
    (waitUntil t s).trk = s.trk ∧
    (waitUntil t s).pcm = s.pcm ∧
    (waitUntil t s).scu = s.scu ∧
    (waitUntil t s).mkf = s.mkf ∧
    (waitUntil t s).ptc = s.ptc ∧
    (waitUntil t s).can = s.can ∧
    (waitUntil t s).pkc = s.pkc ∧
    (waitUntil t s).flc = s.flc ∧
    (waitUntil t s).cnb = s.cnb ∧
    (waitUntil t s).llk = s.llk ∧
    (waitUntil t s).pfs = s.pfs ∧
    (waitUntil t s).fresh = s.fresh ∧
    (waitUntil t s).pending = s.pending :=
  ⟨rfl, rfl, rfl, rfl, rfl, rfl, rfl, rfl, rfl, rfl, rfl, rfl, rfl⟩

@[simp] theorem setHold_effect (c : HoldCause) (b : Bool) (s : State) :
    (setHold c b s).flc.holds = s.flc.holds.put b c :=
  rfl

@[simp] theorem setHold_frame (c : HoldCause) (b : Bool) (s : State) :
    (setHold c b s).trk = s.trk ∧
    (setHold c b s).pcm = s.pcm ∧
    (setHold c b s).scu = s.scu ∧
    (setHold c b s).mkf = s.mkf ∧
    (setHold c b s).ptc = s.ptc ∧
    (setHold c b s).can = s.can ∧
    (setHold c b s).pkc = s.pkc ∧
    (setHold c b s).flc.line = s.flc.line ∧
    (setHold c b s).flc.countdown = s.flc.countdown ∧
    (setHold c b s).flc.fault = s.flc.fault ∧
    (setHold c b s).flc.faultCount = s.flc.faultCount ∧
    (setHold c b s).flc.cleanRun = s.flc.cleanRun ∧
    (setHold c b s).flc.runUp = s.flc.runUp ∧
    (setHold c b s).flc.runUpQual = s.flc.runUpQual ∧
    (setHold c b s).flc.warmup = s.flc.warmup ∧
    (setHold c b s).flc.drainLimit = s.flc.drainLimit ∧
    (setHold c b s).flc.estop = s.flc.estop ∧
    (setHold c b s).flc.horn = s.flc.horn ∧
    (setHold c b s).cnb = s.cnb ∧
    (setHold c b s).llk = s.llk ∧
    (setHold c b s).pfs = s.pfs ∧
    (setHold c b s).now = s.now ∧
    (setHold c b s).fresh = s.fresh ∧
    (setHold c b s).pending = s.pending :=
  ⟨rfl, rfl, rfl, rfl, rfl, rfl, rfl, rfl, rfl, rfl, rfl, rfl, rfl, rfl, rfl, rfl, rfl, rfl, rfl, rfl, rfl, rfl, rfl, rfl⟩

@[simp] theorem begin'_effect (l : TxLine) (s : State) :
    (begin' l s).llk.tx = some l :=
  rfl

@[simp] theorem begin'_frame (l : TxLine) (s : State) :
    (begin' l s).trk = s.trk ∧
    (begin' l s).pcm = s.pcm ∧
    (begin' l s).scu = s.scu ∧
    (begin' l s).mkf = s.mkf ∧
    (begin' l s).ptc = s.ptc ∧
    (begin' l s).can = s.can ∧
    (begin' l s).pkc = s.pkc ∧
    (begin' l s).flc = s.flc ∧
    (begin' l s).cnb = s.cnb ∧
    (begin' l s).llk.rx = s.llk.rx ∧
    (begin' l s).llk.answers = s.llk.answers ∧
    (begin' l s).llk.restarting = s.llk.restarting ∧
    (begin' l s).llk.silenceStart = s.llk.silenceStart ∧
    (begin' l s).llk.silent = s.llk.silent ∧
    (begin' l s).llk.flags = s.llk.flags ∧
    (begin' l s).llk.reports = s.llk.reports ∧
    (begin' l s).llk.opening = s.llk.opening ∧
    (begin' l s).pfs = s.pfs ∧
    (begin' l s).now = s.now ∧
    (begin' l s).fresh = s.fresh ∧
    (begin' l s).pending = s.pending :=
  ⟨rfl, rfl, rfl, rfl, rfl, rfl, rfl, rfl, rfl, rfl, rfl, rfl, rfl, rfl, rfl, rfl, rfl, rfl, rfl, rfl, rfl⟩

@[simp] theorem join_effect (i : Item) (s : State) :
    (join i s).llk.answers = s.llk.answers ++ [i] :=
  rfl

@[simp] theorem join_frame (i : Item) (s : State) :
    (join i s).trk = s.trk ∧
    (join i s).pcm = s.pcm ∧
    (join i s).scu = s.scu ∧
    (join i s).mkf = s.mkf ∧
    (join i s).ptc = s.ptc ∧
    (join i s).can = s.can ∧
    (join i s).pkc = s.pkc ∧
    (join i s).flc = s.flc ∧
    (join i s).cnb = s.cnb ∧
    (join i s).llk.rx = s.llk.rx ∧
    (join i s).llk.restarting = s.llk.restarting ∧
    (join i s).llk.silenceStart = s.llk.silenceStart ∧
    (join i s).llk.silent = s.llk.silent ∧
    (join i s).llk.flags = s.llk.flags ∧
    (join i s).llk.reports = s.llk.reports ∧
    (join i s).llk.tx = s.llk.tx ∧
    (join i s).llk.opening = s.llk.opening ∧
    (join i s).pfs = s.pfs ∧
    (join i s).now = s.now ∧
    (join i s).fresh = s.fresh ∧
    (join i s).pending = s.pending :=
  ⟨rfl, rfl, rfl, rfl, rfl, rfl, rfl, rfl, rfl, rfl, rfl, rfl, rfl, rfl, rfl, rfl, rfl, rfl, rfl, rfl, rfl⟩

@[simp] theorem restartSilence_effect (s : State) :
    (restartSilence s).llk.silenceStart = s.now ∧ (restartSilence s).llk.silent = false :=
  ⟨rfl, rfl⟩

@[simp] theorem restartSilence_frame (s : State) :
    (restartSilence s).trk = s.trk ∧
    (restartSilence s).pcm = s.pcm ∧
    (restartSilence s).scu = s.scu ∧
    (restartSilence s).mkf = s.mkf ∧
    (restartSilence s).ptc = s.ptc ∧
    (restartSilence s).can = s.can ∧
    (restartSilence s).pkc = s.pkc ∧
    (restartSilence s).flc = s.flc ∧
    (restartSilence s).cnb = s.cnb ∧
    (restartSilence s).llk.rx = s.llk.rx ∧
    (restartSilence s).llk.answers = s.llk.answers ∧
    (restartSilence s).llk.restarting = s.llk.restarting ∧
    (restartSilence s).llk.flags = s.llk.flags ∧
    (restartSilence s).llk.reports = s.llk.reports ∧
    (restartSilence s).llk.tx = s.llk.tx ∧
    (restartSilence s).llk.opening = s.llk.opening ∧
    (restartSilence s).pfs = s.pfs ∧
    (restartSilence s).now = s.now ∧
    (restartSilence s).fresh = s.fresh ∧
    (restartSilence s).pending = s.pending :=
  ⟨rfl, rfl, rfl, rfl, rfl, rfl, rfl, rfl, rfl, rfl, rfl, rfl, rfl, rfl, rfl, rfl, rfl, rfl, rfl, rfl⟩

end Sys2Proof.Machine
end

