-- ==== Sys2Proof/Laws/Frames.lean ====
section
/-! SUPPORT. The frame of each shared operation: the blocks and fields it leaves as they were. -/

namespace Sys2Proof.Machine


/-- What every step of a fold leaves as it was, the fold does. -/
theorem foldl_frame {α β : Type} (f : State → α → State) (g : State → β) (h : ∀ a t, g (f t a) = g t) (l : List α) (s : State) :
    g (l.foldl f s) = g s := by
  induction l generalizing s with
  | nil => rfl
  | cons a l ih => simp only [List.foldl_cons]; rw [ih, h]

@[simp] theorem writeOutcome_frame (n : LetterNo) (o : CancelOutcome) (s : State) :
    (writeOutcome n o s).trk.belt = s.trk.belt ∧
    (writeOutcome n o s).trk.samples = s.trk.samples ∧
    (writeOutcome n o s).trk.speed = s.trk.speed ∧
    (writeOutcome n o s).trk.nextNumber = s.trk.nextNumber ∧
    (writeOutcome n o s).trk.measuring = s.trk.measuring ∧
    (writeOutcome n o s).trk.overTaken = s.trk.overTaken ∧
    (writeOutcome n o s).trk.prevTail = s.trk.prevTail ∧
    (writeOutcome n o s).pcm = s.pcm ∧
    (writeOutcome n o s).scu = s.scu ∧
    (writeOutcome n o s).mkf = s.mkf ∧
    (writeOutcome n o s).ptc = s.ptc ∧
    (writeOutcome n o s).can = s.can ∧
    (writeOutcome n o s).pkc = s.pkc ∧
    (writeOutcome n o s).flc = s.flc ∧
    (writeOutcome n o s).cnb = s.cnb ∧
    (writeOutcome n o s).llk = s.llk ∧
    (writeOutcome n o s).pfs = s.pfs ∧
    (writeOutcome n o s).now = s.now ∧
    (writeOutcome n o s).fresh = s.fresh ∧
    (writeOutcome n o s).pending = s.pending := by
  unfold writeOutcome
  (try dsimp only)
  (repeat' split) <;> simp

@[simp] theorem countCrossing_frame (s : State) :
    (countCrossing s).trk = s.trk ∧
    (countCrossing s).pcm = s.pcm ∧
    (countCrossing s).scu = s.scu ∧
    (countCrossing s).mkf = s.mkf ∧
    (countCrossing s).ptc = s.ptc ∧
    (countCrossing s).can = s.can ∧
    (countCrossing s).pkc = s.pkc ∧
    (countCrossing s).flc = s.flc ∧
    (countCrossing s).cnb.remainder = s.cnb.remainder ∧
    (countCrossing s).cnb.snap = s.cnb.snap ∧
    (countCrossing s).cnb.records = s.cnb.records ∧
    (countCrossing s).llk = s.llk ∧
    (countCrossing s).pfs = s.pfs ∧
    (countCrossing s).now = s.now ∧
    (countCrossing s).fresh = s.fresh ∧
    (countCrossing s).pending = s.pending := by
  unfold countCrossing
  (try dsimp only)
  (repeat' split) <;> simp

@[simp] theorem judgeHold_frame (held : Bool) (s : State) :
    (judgeHold held s).trk = s.trk ∧
    (judgeHold held s).pcm = s.pcm ∧
    (judgeHold held s).scu = s.scu ∧
    (judgeHold held s).mkf = s.mkf ∧
    (judgeHold held s).ptc = s.ptc ∧
    (judgeHold held s).can = s.can ∧
    (judgeHold held s).pkc = s.pkc ∧
    (judgeHold held s).flc = s.flc ∧
    (judgeHold held s).cnb.remainder = s.cnb.remainder ∧
    (judgeHold held s).cnb.snap = s.cnb.snap ∧
    (judgeHold held s).cnb.records = s.cnb.records ∧
    (judgeHold held s).llk.rx = s.llk.rx ∧
    (judgeHold held s).llk.answers = s.llk.answers ∧
    (judgeHold held s).llk.restarting = s.llk.restarting ∧
    (judgeHold held s).llk.silenceStart = s.llk.silenceStart ∧
    (judgeHold held s).llk.silent = s.llk.silent ∧
    (judgeHold held s).llk.tx = s.llk.tx ∧
    (judgeHold held s).llk.opening = s.llk.opening ∧
    (judgeHold held s).pfs = s.pfs ∧
    (judgeHold held s).now = s.now ∧
    (judgeHold held s).fresh = s.fresh ∧
    (judgeHold held s).pending = s.pending := by
  unfold judgeHold
  (try dsimp only)
  (repeat' split) <;> simp

@[simp] theorem refreshCancel_frame (s : State) :
    (refreshCancel s).trk = s.trk ∧
    (refreshCancel s).pcm = s.pcm ∧
    (refreshCancel s).scu = s.scu ∧
    (refreshCancel s).mkf = s.mkf ∧
    (refreshCancel s).ptc = s.ptc ∧
    (refreshCancel s).can = s.can ∧
    (refreshCancel s).pkc = s.pkc ∧
    (refreshCancel s).flc.line = s.flc.line ∧
    (refreshCancel s).flc.countdown = s.flc.countdown ∧
    (refreshCancel s).flc.fault = s.flc.fault ∧
    (refreshCancel s).flc.faultCount = s.flc.faultCount ∧
    (refreshCancel s).flc.cleanRun = s.flc.cleanRun ∧
    (refreshCancel s).flc.runUp = s.flc.runUp ∧
    (refreshCancel s).flc.runUpQual = s.flc.runUpQual ∧
    (refreshCancel s).flc.warmup = s.flc.warmup ∧
    (refreshCancel s).flc.drainLimit = s.flc.drainLimit ∧
    (refreshCancel s).flc.estop = s.flc.estop ∧
    (refreshCancel s).flc.horn = s.flc.horn ∧
    (refreshCancel s).cnb = s.cnb ∧
    (refreshCancel s).llk = s.llk ∧
    (refreshCancel s).pfs = s.pfs ∧
    (refreshCancel s).now = s.now ∧
    (refreshCancel s).fresh = s.fresh ∧
    (refreshCancel s).pending = s.pending := by
  unfold refreshCancel
  (try dsimp only)
  (repeat' split) <;> simp

@[simp] theorem setLine_frame (l : LineState) (c : LineCause) (snapshot : Option Counter) (s : State) :
    (setLine l c snapshot s).trk = s.trk ∧
    (setLine l c snapshot s).pcm = s.pcm ∧
    (setLine l c snapshot s).scu = s.scu ∧
    (setLine l c snapshot s).mkf = s.mkf ∧
    (setLine l c snapshot s).ptc = s.ptc ∧
    (setLine l c snapshot s).can = s.can ∧
    (setLine l c snapshot s).pkc = s.pkc ∧
    (setLine l c snapshot s).flc.countdown = s.flc.countdown ∧
    (setLine l c snapshot s).flc.fault = s.flc.fault ∧
    (setLine l c snapshot s).flc.faultCount = s.flc.faultCount ∧
    (setLine l c snapshot s).flc.cleanRun = s.flc.cleanRun ∧
    (setLine l c snapshot s).flc.runUp = s.flc.runUp ∧
    (setLine l c snapshot s).flc.runUpQual = s.flc.runUpQual ∧
    (setLine l c snapshot s).flc.warmup = s.flc.warmup ∧
    (setLine l c snapshot s).flc.drainLimit = s.flc.drainLimit ∧
    (setLine l c snapshot s).flc.estop = s.flc.estop ∧
    (setLine l c snapshot s).flc.horn = s.flc.horn ∧
    (setLine l c snapshot s).cnb = s.cnb ∧
    (setLine l c snapshot s).llk.rx = s.llk.rx ∧
    (setLine l c snapshot s).llk.answers = s.llk.answers ∧
    (setLine l c snapshot s).llk.restarting = s.llk.restarting ∧
    (setLine l c snapshot s).llk.silenceStart = s.llk.silenceStart ∧
    (setLine l c snapshot s).llk.silent = s.llk.silent ∧
    (setLine l c snapshot s).llk.tx = s.llk.tx ∧
    (setLine l c snapshot s).llk.opening = s.llk.opening ∧
    (setLine l c snapshot s).pfs = s.pfs ∧
    (setLine l c snapshot s).now = s.now ∧
    (setLine l c snapshot s).fresh = s.fresh ∧
    (setLine l c snapshot s).pending = s.pending := by
  unfold setLine
  (try dsimp only)
  (repeat' split) <;> simp

@[simp] theorem cancTo_frame (c : Stream) (new : CancState) (s : State) :
    (cancTo c new s).trk = s.trk ∧
    (cancTo c new s).pcm = s.pcm ∧
    (cancTo c new s).scu = s.scu ∧
    (cancTo c new s).mkf = s.mkf ∧
    (cancTo c new s).ptc = s.ptc ∧
    (cancTo c new s).can.dater = s.can.dater ∧
    (cancTo c new s).pkc = s.pkc ∧
    (cancTo c new s).flc.line = s.flc.line ∧
    (cancTo c new s).flc.countdown = s.flc.countdown ∧
    (cancTo c new s).flc.fault = s.flc.fault ∧
    (cancTo c new s).flc.faultCount = s.flc.faultCount ∧
    (cancTo c new s).flc.cleanRun = s.flc.cleanRun ∧
    (cancTo c new s).flc.runUp = s.flc.runUp ∧
    (cancTo c new s).flc.runUpQual = s.flc.runUpQual ∧
    (cancTo c new s).flc.warmup = s.flc.warmup ∧
    (cancTo c new s).flc.drainLimit = s.flc.drainLimit ∧
    (cancTo c new s).flc.estop = s.flc.estop ∧
    (cancTo c new s).flc.horn = s.flc.horn ∧
    (cancTo c new s).cnb = s.cnb ∧
    (cancTo c new s).llk.rx = s.llk.rx ∧
    (cancTo c new s).llk.answers = s.llk.answers ∧
    (cancTo c new s).llk.restarting = s.llk.restarting ∧
    (cancTo c new s).llk.silenceStart = s.llk.silenceStart ∧
    (cancTo c new s).llk.silent = s.llk.silent ∧
    (cancTo c new s).llk.tx = s.llk.tx ∧
    (cancTo c new s).llk.opening = s.llk.opening ∧
    (cancTo c new s).pfs = s.pfs ∧
    (cancTo c new s).now = s.now ∧
    (cancTo c new s).fresh = s.fresh ∧
    (cancTo c new s).pending = s.pending := by
  unfold cancTo
  (try dsimp only)
  (repeat' split) <;> simp

@[simp] theorem sendFrame_frame (c : Stream) (f : Frame) (s : State) :
    (sendFrame c f s).trk = s.trk ∧
    (sendFrame c f s).pcm = s.pcm ∧
    (sendFrame c f s).scu = s.scu ∧
    (sendFrame c f s).mkf = s.mkf ∧
    (sendFrame c f s).ptc = s.ptc ∧
    (sendFrame c f s).can.dater = s.can.dater ∧
    (sendFrame c f s).pkc = s.pkc ∧
    (sendFrame c f s).flc = s.flc ∧
    (sendFrame c f s).cnb = s.cnb ∧
    (sendFrame c f s).llk = s.llk ∧
    (sendFrame c f s).pfs = s.pfs ∧
    (sendFrame c f s).now = s.now ∧
    (sendFrame c f s).fresh = s.fresh ∧
    (sendFrame c f s).pending = s.pending := by
  unfold sendFrame
  (try dsimp only)
  (repeat' split) <;> simp

@[simp] theorem releaseHeld_frame (c : Stream) (o : CancelOutcome) (s : State) :
    (releaseHeld c o s).trk.belt = s.trk.belt ∧
    (releaseHeld c o s).trk.samples = s.trk.samples ∧
    (releaseHeld c o s).trk.speed = s.trk.speed ∧
    (releaseHeld c o s).trk.nextNumber = s.trk.nextNumber ∧
    (releaseHeld c o s).trk.measuring = s.trk.measuring ∧
    (releaseHeld c o s).trk.overTaken = s.trk.overTaken ∧
    (releaseHeld c o s).trk.prevTail = s.trk.prevTail ∧
    (releaseHeld c o s).pcm = s.pcm ∧
    (releaseHeld c o s).scu = s.scu ∧
    (releaseHeld c o s).mkf = s.mkf ∧
    (releaseHeld c o s).ptc = s.ptc ∧
    (releaseHeld c o s).can.dater = s.can.dater ∧
    (releaseHeld c o s).pkc = s.pkc ∧
    (releaseHeld c o s).flc = s.flc ∧
    (releaseHeld c o s).cnb = s.cnb ∧
    (releaseHeld c o s).llk = s.llk ∧
    (releaseHeld c o s).pfs = s.pfs ∧
    (releaseHeld c o s).now = s.now ∧
    (releaseHeld c o s).fresh = s.fresh ∧
    (releaseHeld c o s).pending = s.pending := by
  unfold releaseHeld
  (try dsimp only)
  (repeat' split) <;> simp

@[simp] theorem releaseDeferred_frame (c : Stream) (o : CancelOutcome) (s : State) :
    (releaseDeferred c o s).trk.belt = s.trk.belt ∧
    (releaseDeferred c o s).trk.samples = s.trk.samples ∧
    (releaseDeferred c o s).trk.speed = s.trk.speed ∧
    (releaseDeferred c o s).trk.nextNumber = s.trk.nextNumber ∧
    (releaseDeferred c o s).trk.measuring = s.trk.measuring ∧
    (releaseDeferred c o s).trk.overTaken = s.trk.overTaken ∧
    (releaseDeferred c o s).trk.prevTail = s.trk.prevTail ∧
    (releaseDeferred c o s).pcm = s.pcm ∧
    (releaseDeferred c o s).scu = s.scu ∧
    (releaseDeferred c o s).mkf = s.mkf ∧
    (releaseDeferred c o s).ptc = s.ptc ∧
    (releaseDeferred c o s).can.dater = s.can.dater ∧
    (releaseDeferred c o s).pkc = s.pkc ∧
    (releaseDeferred c o s).flc = s.flc ∧
    (releaseDeferred c o s).cnb = s.cnb ∧
    (releaseDeferred c o s).llk = s.llk ∧
    (releaseDeferred c o s).pfs = s.pfs ∧
    (releaseDeferred c o s).now = s.now ∧
    (releaseDeferred c o s).fresh = s.fresh ∧
    (releaseDeferred c o s).pending = s.pending := by
  unfold releaseDeferred
  (try dsimp only)
  (repeat' split) <;> simp

@[simp] theorem cancFault_frame (c : Stream) (cause : CancCause) (outcome : Option CancelOutcome) (s : State) :
    (cancFault c cause outcome s).trk.belt = s.trk.belt ∧
    (cancFault c cause outcome s).trk.samples = s.trk.samples ∧
    (cancFault c cause outcome s).trk.speed = s.trk.speed ∧
    (cancFault c cause outcome s).trk.nextNumber = s.trk.nextNumber ∧
    (cancFault c cause outcome s).trk.measuring = s.trk.measuring ∧
    (cancFault c cause outcome s).trk.overTaken = s.trk.overTaken ∧
    (cancFault c cause outcome s).trk.prevTail = s.trk.prevTail ∧
    (cancFault c cause outcome s).pcm = s.pcm ∧
    (cancFault c cause outcome s).scu = s.scu ∧
    (cancFault c cause outcome s).mkf = s.mkf ∧
    (cancFault c cause outcome s).ptc = s.ptc ∧
    (cancFault c cause outcome s).can.dater = s.can.dater ∧
    (cancFault c cause outcome s).pkc = s.pkc ∧
    (cancFault c cause outcome s).flc.line = s.flc.line ∧
    (cancFault c cause outcome s).flc.countdown = s.flc.countdown ∧
    (cancFault c cause outcome s).flc.fault = s.flc.fault ∧
    (cancFault c cause outcome s).flc.faultCount = s.flc.faultCount ∧
    (cancFault c cause outcome s).flc.cleanRun = s.flc.cleanRun ∧
    (cancFault c cause outcome s).flc.runUp = s.flc.runUp ∧
    (cancFault c cause outcome s).flc.runUpQual = s.flc.runUpQual ∧
    (cancFault c cause outcome s).flc.warmup = s.flc.warmup ∧
    (cancFault c cause outcome s).flc.drainLimit = s.flc.drainLimit ∧
    (cancFault c cause outcome s).flc.estop = s.flc.estop ∧
    (cancFault c cause outcome s).flc.horn = s.flc.horn ∧
    (cancFault c cause outcome s).cnb = s.cnb ∧
    (cancFault c cause outcome s).llk.rx = s.llk.rx ∧
    (cancFault c cause outcome s).llk.answers = s.llk.answers ∧
    (cancFault c cause outcome s).llk.restarting = s.llk.restarting ∧
    (cancFault c cause outcome s).llk.silenceStart = s.llk.silenceStart ∧
    (cancFault c cause outcome s).llk.silent = s.llk.silent ∧
    (cancFault c cause outcome s).llk.tx = s.llk.tx ∧
    (cancFault c cause outcome s).llk.opening = s.llk.opening ∧
    (cancFault c cause outcome s).pfs = s.pfs ∧
    (cancFault c cause outcome s).now = s.now ∧
    (cancFault c cause outcome s).fresh = s.fresh ∧
    (cancFault c cause outcome s).pending = s.pending := by
  unfold cancFault
  (try dsimp only)
  (repeat' split) <;> simp

@[simp] theorem armLetter_frame (c : Stream) (n : LetterNo) (s : State) :
    (armLetter c n s).trk.belt = s.trk.belt ∧
    (armLetter c n s).trk.samples = s.trk.samples ∧
    (armLetter c n s).trk.speed = s.trk.speed ∧
    (armLetter c n s).trk.nextNumber = s.trk.nextNumber ∧
    (armLetter c n s).trk.measuring = s.trk.measuring ∧
    (armLetter c n s).trk.overTaken = s.trk.overTaken ∧
    (armLetter c n s).trk.prevTail = s.trk.prevTail ∧
    (armLetter c n s).pcm = s.pcm ∧
    (armLetter c n s).scu = s.scu ∧
    (armLetter c n s).mkf = s.mkf ∧
    (armLetter c n s).ptc = s.ptc ∧
    (armLetter c n s).can.dater = s.can.dater ∧
    (armLetter c n s).pkc = s.pkc ∧
    (armLetter c n s).flc.line = s.flc.line ∧
    (armLetter c n s).flc.countdown = s.flc.countdown ∧
    (armLetter c n s).flc.fault = s.flc.fault ∧
    (armLetter c n s).flc.faultCount = s.flc.faultCount ∧
    (armLetter c n s).flc.cleanRun = s.flc.cleanRun ∧
    (armLetter c n s).flc.runUp = s.flc.runUp ∧
    (armLetter c n s).flc.runUpQual = s.flc.runUpQual ∧
    (armLetter c n s).flc.warmup = s.flc.warmup ∧
    (armLetter c n s).flc.drainLimit = s.flc.drainLimit ∧
    (armLetter c n s).flc.estop = s.flc.estop ∧
    (armLetter c n s).flc.horn = s.flc.horn ∧
    (armLetter c n s).cnb = s.cnb ∧
    (armLetter c n s).llk.rx = s.llk.rx ∧
    (armLetter c n s).llk.answers = s.llk.answers ∧
    (armLetter c n s).llk.restarting = s.llk.restarting ∧
    (armLetter c n s).llk.silenceStart = s.llk.silenceStart ∧
    (armLetter c n s).llk.silent = s.llk.silent ∧
    (armLetter c n s).llk.tx = s.llk.tx ∧
    (armLetter c n s).llk.opening = s.llk.opening ∧
    (armLetter c n s).pfs = s.pfs ∧
    (armLetter c n s).now = s.now ∧
    (armLetter c n s).fresh = s.fresh ∧
    (armLetter c n s).pending = s.pending := by
  unfold armLetter
  (try dsimp only)
  (repeat' split) <;> simp

@[simp] theorem cancReady_frame (c : Stream) (s : State) :
    (cancReady c s).trk.belt = s.trk.belt ∧
    (cancReady c s).trk.samples = s.trk.samples ∧
    (cancReady c s).trk.speed = s.trk.speed ∧
    (cancReady c s).trk.nextNumber = s.trk.nextNumber ∧
    (cancReady c s).trk.measuring = s.trk.measuring ∧
    (cancReady c s).trk.overTaken = s.trk.overTaken ∧
    (cancReady c s).trk.prevTail = s.trk.prevTail ∧
    (cancReady c s).pcm = s.pcm ∧
    (cancReady c s).scu = s.scu ∧
    (cancReady c s).mkf = s.mkf ∧
    (cancReady c s).ptc = s.ptc ∧
    (cancReady c s).can.dater = s.can.dater ∧
    (cancReady c s).pkc = s.pkc ∧
    (cancReady c s).flc.line = s.flc.line ∧
    (cancReady c s).flc.countdown = s.flc.countdown ∧
    (cancReady c s).flc.fault = s.flc.fault ∧
    (cancReady c s).flc.faultCount = s.flc.faultCount ∧
    (cancReady c s).flc.cleanRun = s.flc.cleanRun ∧
    (cancReady c s).flc.runUp = s.flc.runUp ∧
    (cancReady c s).flc.runUpQual = s.flc.runUpQual ∧
    (cancReady c s).flc.warmup = s.flc.warmup ∧
    (cancReady c s).flc.drainLimit = s.flc.drainLimit ∧
    (cancReady c s).flc.estop = s.flc.estop ∧
    (cancReady c s).flc.horn = s.flc.horn ∧
    (cancReady c s).cnb = s.cnb ∧
    (cancReady c s).llk.rx = s.llk.rx ∧
    (cancReady c s).llk.answers = s.llk.answers ∧
    (cancReady c s).llk.restarting = s.llk.restarting ∧
    (cancReady c s).llk.silenceStart = s.llk.silenceStart ∧
    (cancReady c s).llk.silent = s.llk.silent ∧
    (cancReady c s).llk.tx = s.llk.tx ∧
    (cancReady c s).llk.opening = s.llk.opening ∧
    (cancReady c s).pfs = s.pfs ∧
    (cancReady c s).now = s.now ∧
    (cancReady c s).fresh = s.fresh ∧
    (cancReady c s).pending = s.pending := by
  unfold cancReady
  (try dsimp only)
  (repeat' split) <;> simp

@[simp] theorem cancOverheat_frame (c : Stream) (s : State) :
    (cancOverheat c s).trk.belt = s.trk.belt ∧
    (cancOverheat c s).trk.samples = s.trk.samples ∧
    (cancOverheat c s).trk.speed = s.trk.speed ∧
    (cancOverheat c s).trk.nextNumber = s.trk.nextNumber ∧
    (cancOverheat c s).trk.measuring = s.trk.measuring ∧
    (cancOverheat c s).trk.overTaken = s.trk.overTaken ∧
    (cancOverheat c s).trk.prevTail = s.trk.prevTail ∧
    (cancOverheat c s).pcm = s.pcm ∧
    (cancOverheat c s).scu = s.scu ∧
    (cancOverheat c s).mkf = s.mkf ∧
    (cancOverheat c s).ptc = s.ptc ∧
    (cancOverheat c s).can.dater = s.can.dater ∧
    (cancOverheat c s).pkc = s.pkc ∧
    (cancOverheat c s).flc.line = s.flc.line ∧
    (cancOverheat c s).flc.countdown = s.flc.countdown ∧
    (cancOverheat c s).flc.fault = s.flc.fault ∧
    (cancOverheat c s).flc.faultCount = s.flc.faultCount ∧
    (cancOverheat c s).flc.cleanRun = s.flc.cleanRun ∧
    (cancOverheat c s).flc.runUp = s.flc.runUp ∧
    (cancOverheat c s).flc.runUpQual = s.flc.runUpQual ∧
    (cancOverheat c s).flc.warmup = s.flc.warmup ∧
    (cancOverheat c s).flc.drainLimit = s.flc.drainLimit ∧
    (cancOverheat c s).flc.estop = s.flc.estop ∧
    (cancOverheat c s).flc.horn = s.flc.horn ∧
    (cancOverheat c s).cnb = s.cnb ∧
    (cancOverheat c s).llk.rx = s.llk.rx ∧
    (cancOverheat c s).llk.answers = s.llk.answers ∧
    (cancOverheat c s).llk.restarting = s.llk.restarting ∧
    (cancOverheat c s).llk.silenceStart = s.llk.silenceStart ∧
    (cancOverheat c s).llk.silent = s.llk.silent ∧
    (cancOverheat c s).llk.tx = s.llk.tx ∧
    (cancOverheat c s).llk.opening = s.llk.opening ∧
    (cancOverheat c s).pfs = s.pfs ∧
    (cancOverheat c s).now = s.now ∧
    (cancOverheat c s).fresh = s.fresh ∧
    (cancOverheat c s).pending = s.pending := by
  unfold cancOverheat
  (try dsimp only)
  (repeat' split) <;> simp

@[simp] theorem cancReadyOrHot_frame (c : Stream) (s : State) :
    (cancReadyOrHot c s).trk.belt = s.trk.belt ∧
    (cancReadyOrHot c s).trk.samples = s.trk.samples ∧
    (cancReadyOrHot c s).trk.speed = s.trk.speed ∧
    (cancReadyOrHot c s).trk.nextNumber = s.trk.nextNumber ∧
    (cancReadyOrHot c s).trk.measuring = s.trk.measuring ∧
    (cancReadyOrHot c s).trk.overTaken = s.trk.overTaken ∧
    (cancReadyOrHot c s).trk.prevTail = s.trk.prevTail ∧
    (cancReadyOrHot c s).pcm = s.pcm ∧
    (cancReadyOrHot c s).scu = s.scu ∧
    (cancReadyOrHot c s).mkf = s.mkf ∧
    (cancReadyOrHot c s).ptc = s.ptc ∧
    (cancReadyOrHot c s).can.dater = s.can.dater ∧
    (cancReadyOrHot c s).pkc = s.pkc ∧
    (cancReadyOrHot c s).flc.line = s.flc.line ∧
    (cancReadyOrHot c s).flc.countdown = s.flc.countdown ∧
    (cancReadyOrHot c s).flc.fault = s.flc.fault ∧
    (cancReadyOrHot c s).flc.faultCount = s.flc.faultCount ∧
    (cancReadyOrHot c s).flc.cleanRun = s.flc.cleanRun ∧
    (cancReadyOrHot c s).flc.runUp = s.flc.runUp ∧
    (cancReadyOrHot c s).flc.runUpQual = s.flc.runUpQual ∧
    (cancReadyOrHot c s).flc.warmup = s.flc.warmup ∧
    (cancReadyOrHot c s).flc.drainLimit = s.flc.drainLimit ∧
    (cancReadyOrHot c s).flc.estop = s.flc.estop ∧
    (cancReadyOrHot c s).flc.horn = s.flc.horn ∧
    (cancReadyOrHot c s).cnb = s.cnb ∧
    (cancReadyOrHot c s).llk.rx = s.llk.rx ∧
    (cancReadyOrHot c s).llk.answers = s.llk.answers ∧
    (cancReadyOrHot c s).llk.restarting = s.llk.restarting ∧
    (cancReadyOrHot c s).llk.silenceStart = s.llk.silenceStart ∧
    (cancReadyOrHot c s).llk.silent = s.llk.silent ∧
    (cancReadyOrHot c s).llk.tx = s.llk.tx ∧
    (cancReadyOrHot c s).llk.opening = s.llk.opening ∧
    (cancReadyOrHot c s).pfs = s.pfs ∧
    (cancReadyOrHot c s).now = s.now ∧
    (cancReadyOrHot c s).fresh = s.fresh ∧
    (cancReadyOrHot c s).pending = s.pending := by
  unfold cancReadyOrHot
  (try dsimp only)
  (repeat' split) <;> simp

@[simp] theorem cancPrime_frame (c : Stream) (s : State) :
    (cancPrime c s).trk = s.trk ∧
    (cancPrime c s).pcm = s.pcm ∧
    (cancPrime c s).scu = s.scu ∧
    (cancPrime c s).mkf = s.mkf ∧
    (cancPrime c s).ptc = s.ptc ∧
    (cancPrime c s).can.dater = s.can.dater ∧
    (cancPrime c s).pkc = s.pkc ∧
    (cancPrime c s).flc.line = s.flc.line ∧
    (cancPrime c s).flc.countdown = s.flc.countdown ∧
    (cancPrime c s).flc.fault = s.flc.fault ∧
    (cancPrime c s).flc.faultCount = s.flc.faultCount ∧
    (cancPrime c s).flc.cleanRun = s.flc.cleanRun ∧
    (cancPrime c s).flc.runUp = s.flc.runUp ∧
    (cancPrime c s).flc.runUpQual = s.flc.runUpQual ∧
    (cancPrime c s).flc.warmup = s.flc.warmup ∧
    (cancPrime c s).flc.drainLimit = s.flc.drainLimit ∧
    (cancPrime c s).flc.estop = s.flc.estop ∧
    (cancPrime c s).flc.horn = s.flc.horn ∧
    (cancPrime c s).cnb = s.cnb ∧
    (cancPrime c s).llk.rx = s.llk.rx ∧
    (cancPrime c s).llk.answers = s.llk.answers ∧
    (cancPrime c s).llk.restarting = s.llk.restarting ∧
    (cancPrime c s).llk.silenceStart = s.llk.silenceStart ∧
    (cancPrime c s).llk.silent = s.llk.silent ∧
    (cancPrime c s).llk.tx = s.llk.tx ∧
    (cancPrime c s).llk.opening = s.llk.opening ∧
    (cancPrime c s).pfs = s.pfs ∧
    (cancPrime c s).now = s.now ∧
    (cancPrime c s).fresh = s.fresh ∧
    (cancPrime c s).pending = s.pending := by
  unfold cancPrime
  (try dsimp only)
  (repeat' split) <;> simp

@[simp] theorem cancStop_frame (c : Stream) (s : State) :
    (cancStop c s).trk.belt = s.trk.belt ∧
    (cancStop c s).trk.samples = s.trk.samples ∧
    (cancStop c s).trk.speed = s.trk.speed ∧
    (cancStop c s).trk.nextNumber = s.trk.nextNumber ∧
    (cancStop c s).trk.measuring = s.trk.measuring ∧
    (cancStop c s).trk.overTaken = s.trk.overTaken ∧
    (cancStop c s).trk.prevTail = s.trk.prevTail ∧
    (cancStop c s).pcm = s.pcm ∧
    (cancStop c s).scu = s.scu ∧
    (cancStop c s).mkf = s.mkf ∧
    (cancStop c s).ptc = s.ptc ∧
    (cancStop c s).can.dater = s.can.dater ∧
    (cancStop c s).pkc = s.pkc ∧
    (cancStop c s).flc.line = s.flc.line ∧
    (cancStop c s).flc.countdown = s.flc.countdown ∧
    (cancStop c s).flc.fault = s.flc.fault ∧
    (cancStop c s).flc.faultCount = s.flc.faultCount ∧
    (cancStop c s).flc.cleanRun = s.flc.cleanRun ∧
    (cancStop c s).flc.runUp = s.flc.runUp ∧
    (cancStop c s).flc.runUpQual = s.flc.runUpQual ∧
    (cancStop c s).flc.warmup = s.flc.warmup ∧
    (cancStop c s).flc.drainLimit = s.flc.drainLimit ∧
    (cancStop c s).flc.estop = s.flc.estop ∧
    (cancStop c s).flc.horn = s.flc.horn ∧
    (cancStop c s).cnb = s.cnb ∧
    (cancStop c s).llk.rx = s.llk.rx ∧
    (cancStop c s).llk.answers = s.llk.answers ∧
    (cancStop c s).llk.restarting = s.llk.restarting ∧
    (cancStop c s).llk.silenceStart = s.llk.silenceStart ∧
    (cancStop c s).llk.silent = s.llk.silent ∧
    (cancStop c s).llk.tx = s.llk.tx ∧
    (cancStop c s).llk.opening = s.llk.opening ∧
    (cancStop c s).pfs = s.pfs ∧
    (cancStop c s).now = s.now ∧
    (cancStop c s).fresh = s.fresh ∧
    (cancStop c s).pending = s.pending := by
  unfold cancStop
  (try dsimp only)
  (repeat' split) <;> simp

@[simp] theorem cancDrained_frame (c : Stream) (s : State) :
    (cancDrained c s).trk = s.trk ∧
    (cancDrained c s).pcm = s.pcm ∧
    (cancDrained c s).scu = s.scu ∧
    (cancDrained c s).mkf = s.mkf ∧
    (cancDrained c s).ptc = s.ptc ∧
    (cancDrained c s).can.dater = s.can.dater ∧
    (cancDrained c s).pkc = s.pkc ∧
    (cancDrained c s).flc.line = s.flc.line ∧
    (cancDrained c s).flc.countdown = s.flc.countdown ∧
    (cancDrained c s).flc.fault = s.flc.fault ∧
    (cancDrained c s).flc.faultCount = s.flc.faultCount ∧
    (cancDrained c s).flc.cleanRun = s.flc.cleanRun ∧
    (cancDrained c s).flc.runUp = s.flc.runUp ∧
    (cancDrained c s).flc.runUpQual = s.flc.runUpQual ∧
    (cancDrained c s).flc.warmup = s.flc.warmup ∧
    (cancDrained c s).flc.drainLimit = s.flc.drainLimit ∧
    (cancDrained c s).flc.estop = s.flc.estop ∧
    (cancDrained c s).flc.horn = s.flc.horn ∧
    (cancDrained c s).cnb = s.cnb ∧
    (cancDrained c s).llk.rx = s.llk.rx ∧
    (cancDrained c s).llk.answers = s.llk.answers ∧
    (cancDrained c s).llk.restarting = s.llk.restarting ∧
    (cancDrained c s).llk.silenceStart = s.llk.silenceStart ∧
    (cancDrained c s).llk.silent = s.llk.silent ∧
    (cancDrained c s).llk.tx = s.llk.tx ∧
    (cancDrained c s).llk.opening = s.llk.opening ∧
    (cancDrained c s).pfs = s.pfs ∧
    (cancDrained c s).now = s.now ∧
    (cancDrained c s).fresh = s.fresh ∧
    (cancDrained c s).pending = s.pending := by
  unfold cancDrained
  (try dsimp only)
  (repeat' split) <;> simp

@[simp] theorem cancStarting_frame (c : Stream) (s : State) :
    (cancStarting c s).trk = s.trk ∧
    (cancStarting c s).pcm = s.pcm ∧
    (cancStarting c s).scu = s.scu ∧
    (cancStarting c s).mkf = s.mkf ∧
    (cancStarting c s).ptc = s.ptc ∧
    (cancStarting c s).can.dater = s.can.dater ∧
    (cancStarting c s).pkc = s.pkc ∧
    (cancStarting c s).flc.line = s.flc.line ∧
    (cancStarting c s).flc.countdown = s.flc.countdown ∧
    (cancStarting c s).flc.fault = s.flc.fault ∧
    (cancStarting c s).flc.faultCount = s.flc.faultCount ∧
    (cancStarting c s).flc.cleanRun = s.flc.cleanRun ∧
    (cancStarting c s).flc.runUp = s.flc.runUp ∧
    (cancStarting c s).flc.runUpQual = s.flc.runUpQual ∧
    (cancStarting c s).flc.warmup = s.flc.warmup ∧
    (cancStarting c s).flc.drainLimit = s.flc.drainLimit ∧
    (cancStarting c s).flc.estop = s.flc.estop ∧
    (cancStarting c s).flc.horn = s.flc.horn ∧
    (cancStarting c s).cnb = s.cnb ∧
    (cancStarting c s).llk.rx = s.llk.rx ∧
    (cancStarting c s).llk.answers = s.llk.answers ∧
    (cancStarting c s).llk.restarting = s.llk.restarting ∧
    (cancStarting c s).llk.silenceStart = s.llk.silenceStart ∧
    (cancStarting c s).llk.silent = s.llk.silent ∧
    (cancStarting c s).llk.tx = s.llk.tx ∧
    (cancStarting c s).llk.opening = s.llk.opening ∧
    (cancStarting c s).pfs = s.pfs ∧
    (cancStarting c s).now = s.now ∧
    (cancStarting c s).fresh = s.fresh ∧
    (cancStarting c s).pending = s.pending := by
  unfold cancStarting
  (try dsimp only)
  (repeat' split) <;> simp

@[simp] theorem cancRemoved_frame (c : Stream) (n : LetterNo) (s : State) :
    (cancRemoved c n s).trk.belt = s.trk.belt ∧
    (cancRemoved c n s).trk.samples = s.trk.samples ∧
    (cancRemoved c n s).trk.speed = s.trk.speed ∧
    (cancRemoved c n s).trk.nextNumber = s.trk.nextNumber ∧
    (cancRemoved c n s).trk.measuring = s.trk.measuring ∧
    (cancRemoved c n s).trk.overTaken = s.trk.overTaken ∧
    (cancRemoved c n s).trk.prevTail = s.trk.prevTail ∧
    (cancRemoved c n s).pcm = s.pcm ∧
    (cancRemoved c n s).scu = s.scu ∧
    (cancRemoved c n s).mkf = s.mkf ∧
    (cancRemoved c n s).ptc = s.ptc ∧
    (cancRemoved c n s).can.dater = s.can.dater ∧
    (cancRemoved c n s).pkc = s.pkc ∧
    (cancRemoved c n s).flc.line = s.flc.line ∧
    (cancRemoved c n s).flc.countdown = s.flc.countdown ∧
    (cancRemoved c n s).flc.fault = s.flc.fault ∧
    (cancRemoved c n s).flc.faultCount = s.flc.faultCount ∧
    (cancRemoved c n s).flc.cleanRun = s.flc.cleanRun ∧
    (cancRemoved c n s).flc.runUp = s.flc.runUp ∧
    (cancRemoved c n s).flc.runUpQual = s.flc.runUpQual ∧
    (cancRemoved c n s).flc.warmup = s.flc.warmup ∧
    (cancRemoved c n s).flc.drainLimit = s.flc.drainLimit ∧
    (cancRemoved c n s).flc.estop = s.flc.estop ∧
    (cancRemoved c n s).flc.horn = s.flc.horn ∧
    (cancRemoved c n s).cnb = s.cnb ∧
    (cancRemoved c n s).llk.rx = s.llk.rx ∧
    (cancRemoved c n s).llk.answers = s.llk.answers ∧
    (cancRemoved c n s).llk.restarting = s.llk.restarting ∧
    (cancRemoved c n s).llk.silenceStart = s.llk.silenceStart ∧
    (cancRemoved c n s).llk.silent = s.llk.silent ∧
    (cancRemoved c n s).llk.tx = s.llk.tx ∧
    (cancRemoved c n s).llk.opening = s.llk.opening ∧
    (cancRemoved c n s).pfs = s.pfs ∧
    (cancRemoved c n s).now = s.now ∧
    (cancRemoved c n s).fresh = s.fresh ∧
    (cancRemoved c n s).pending = s.pending := by
  unfold cancRemoved
  (try dsimp only)
  (repeat' split) <;> simp

@[simp] theorem takeSnapshot_frame (s : State) :
    (takeSnapshot s).trk = s.trk ∧
    (takeSnapshot s).pcm = s.pcm ∧
    (takeSnapshot s).scu = s.scu ∧
    (takeSnapshot s).mkf = s.mkf ∧
    (takeSnapshot s).ptc = s.ptc ∧
    (takeSnapshot s).can = s.can ∧
    (takeSnapshot s).pkc = s.pkc ∧
    (takeSnapshot s).flc = s.flc ∧
    (takeSnapshot s).cnb.bank = s.cnb.bank ∧
    (takeSnapshot s).cnb.remainder = s.cnb.remainder ∧
    (takeSnapshot s).cnb.records = s.cnb.records ∧
    (takeSnapshot s).llk = s.llk ∧
    (takeSnapshot s).pfs = s.pfs ∧
    (takeSnapshot s).now = s.now ∧
    (takeSnapshot s).fresh = s.fresh ∧
    (takeSnapshot s).pending = s.pending := by
  unfold takeSnapshot
  (try dsimp only)
  (repeat' split) <;> simp

@[simp] theorem offerRecord_frame (r : LetterRecord) (s : State) :
    (offerRecord r s).trk = s.trk ∧
    (offerRecord r s).pcm = s.pcm ∧
    (offerRecord r s).scu = s.scu ∧
    (offerRecord r s).mkf = s.mkf ∧
    (offerRecord r s).ptc = s.ptc ∧
    (offerRecord r s).can = s.can ∧
    (offerRecord r s).pkc = s.pkc ∧
    (offerRecord r s).flc.line = s.flc.line ∧
    (offerRecord r s).flc.countdown = s.flc.countdown ∧
    (offerRecord r s).flc.fault = s.flc.fault ∧
    (offerRecord r s).flc.faultCount = s.flc.faultCount ∧
    (offerRecord r s).flc.cleanRun = s.flc.cleanRun ∧
    (offerRecord r s).flc.runUp = s.flc.runUp ∧
    (offerRecord r s).flc.runUpQual = s.flc.runUpQual ∧
    (offerRecord r s).flc.warmup = s.flc.warmup ∧
    (offerRecord r s).flc.drainLimit = s.flc.drainLimit ∧
    (offerRecord r s).flc.estop = s.flc.estop ∧
    (offerRecord r s).flc.horn = s.flc.horn ∧
    (offerRecord r s).cnb.remainder = s.cnb.remainder ∧
    (offerRecord r s).cnb.snap = s.cnb.snap ∧
    (offerRecord r s).llk.rx = s.llk.rx ∧
    (offerRecord r s).llk.answers = s.llk.answers ∧
    (offerRecord r s).llk.restarting = s.llk.restarting ∧
    (offerRecord r s).llk.silenceStart = s.llk.silenceStart ∧
    (offerRecord r s).llk.silent = s.llk.silent ∧
    (offerRecord r s).llk.tx = s.llk.tx ∧
    (offerRecord r s).llk.opening = s.llk.opening ∧
    (offerRecord r s).pfs = s.pfs ∧
    (offerRecord r s).now = s.now ∧
    (offerRecord r s).fresh = s.fresh ∧
    (offerRecord r s).pending = s.pending := by
  unfold offerRecord
  (try dsimp only)
  (repeat' split) <;> simp

@[simp] theorem refreshRecords_frame (s : State) :
    (refreshRecords s).trk = s.trk ∧
    (refreshRecords s).pcm = s.pcm ∧
    (refreshRecords s).scu = s.scu ∧
    (refreshRecords s).mkf = s.mkf ∧
    (refreshRecords s).ptc = s.ptc ∧
    (refreshRecords s).can = s.can ∧
    (refreshRecords s).pkc = s.pkc ∧
    (refreshRecords s).flc.line = s.flc.line ∧
    (refreshRecords s).flc.countdown = s.flc.countdown ∧
    (refreshRecords s).flc.fault = s.flc.fault ∧
    (refreshRecords s).flc.faultCount = s.flc.faultCount ∧
    (refreshRecords s).flc.cleanRun = s.flc.cleanRun ∧
    (refreshRecords s).flc.runUp = s.flc.runUp ∧
    (refreshRecords s).flc.runUpQual = s.flc.runUpQual ∧
    (refreshRecords s).flc.warmup = s.flc.warmup ∧
    (refreshRecords s).flc.drainLimit = s.flc.drainLimit ∧
    (refreshRecords s).flc.estop = s.flc.estop ∧
    (refreshRecords s).flc.horn = s.flc.horn ∧
    (refreshRecords s).cnb = s.cnb ∧
    (refreshRecords s).llk = s.llk ∧
    (refreshRecords s).pfs = s.pfs ∧
    (refreshRecords s).now = s.now ∧
    (refreshRecords s).fresh = s.fresh ∧
    (refreshRecords s).pending = s.pending := by
  unfold refreshRecords
  (try dsimp only)
  (repeat' split) <;> simp

@[simp] theorem drainEmpty_frame (s : State) :
    (drainEmpty s).trk = s.trk ∧
    (drainEmpty s).pcm = s.pcm ∧
    (drainEmpty s).scu = s.scu ∧
    (drainEmpty s).mkf = s.mkf ∧
    (drainEmpty s).ptc = s.ptc ∧
    (drainEmpty s).can.dater = s.can.dater ∧
    (drainEmpty s).pkc = s.pkc ∧
    (drainEmpty s).flc.countdown = s.flc.countdown ∧
    (drainEmpty s).flc.fault = s.flc.fault ∧
    (drainEmpty s).flc.faultCount = s.flc.faultCount ∧
    (drainEmpty s).flc.cleanRun = s.flc.cleanRun ∧
    (drainEmpty s).flc.runUp = s.flc.runUp ∧
    (drainEmpty s).flc.runUpQual = s.flc.runUpQual ∧
    (drainEmpty s).flc.warmup = s.flc.warmup ∧
    (drainEmpty s).flc.estop = s.flc.estop ∧
    (drainEmpty s).flc.horn = s.flc.horn ∧
    (drainEmpty s).cnb.bank = s.cnb.bank ∧
    (drainEmpty s).cnb.remainder = s.cnb.remainder ∧
    (drainEmpty s).cnb.records = s.cnb.records ∧
    (drainEmpty s).llk.rx = s.llk.rx ∧
    (drainEmpty s).llk.answers = s.llk.answers ∧
    (drainEmpty s).llk.restarting = s.llk.restarting ∧
    (drainEmpty s).llk.silenceStart = s.llk.silenceStart ∧
    (drainEmpty s).llk.silent = s.llk.silent ∧
    (drainEmpty s).llk.tx = s.llk.tx ∧
    (drainEmpty s).llk.opening = s.llk.opening ∧
    (drainEmpty s).pfs = s.pfs ∧
    (drainEmpty s).now = s.now ∧
    (drainEmpty s).fresh = s.fresh ∧
    (drainEmpty s).pending = s.pending := by
  unfold drainEmpty
  (try dsimp only)
  (repeat' split) <;> simp

@[simp] theorem checkDrained_frame (s : State) :
    (checkDrained s).trk = s.trk ∧
    (checkDrained s).pcm = s.pcm ∧
    (checkDrained s).scu = s.scu ∧
    (checkDrained s).mkf = s.mkf ∧
    (checkDrained s).ptc = s.ptc ∧
    (checkDrained s).can.dater = s.can.dater ∧
    (checkDrained s).pkc = s.pkc ∧
    (checkDrained s).flc.countdown = s.flc.countdown ∧
    (checkDrained s).flc.fault = s.flc.fault ∧
    (checkDrained s).flc.faultCount = s.flc.faultCount ∧
    (checkDrained s).flc.cleanRun = s.flc.cleanRun ∧
    (checkDrained s).flc.runUp = s.flc.runUp ∧
    (checkDrained s).flc.runUpQual = s.flc.runUpQual ∧
    (checkDrained s).flc.warmup = s.flc.warmup ∧
    (checkDrained s).flc.estop = s.flc.estop ∧
    (checkDrained s).flc.horn = s.flc.horn ∧
    (checkDrained s).cnb.bank = s.cnb.bank ∧
    (checkDrained s).cnb.remainder = s.cnb.remainder ∧
    (checkDrained s).cnb.records = s.cnb.records ∧
    (checkDrained s).llk.rx = s.llk.rx ∧
    (checkDrained s).llk.answers = s.llk.answers ∧
    (checkDrained s).llk.restarting = s.llk.restarting ∧
    (checkDrained s).llk.silenceStart = s.llk.silenceStart ∧
    (checkDrained s).llk.silent = s.llk.silent ∧
    (checkDrained s).llk.tx = s.llk.tx ∧
    (checkDrained s).llk.opening = s.llk.opening ∧
    (checkDrained s).pfs = s.pfs ∧
    (checkDrained s).now = s.now ∧
    (checkDrained s).fresh = s.fresh ∧
    (checkDrained s).pending = s.pending := by
  unfold checkDrained
  (try dsimp only)
  (repeat' split) <;> simp

@[simp] theorem enterDrain_frame (c : LineCause) (s : State) :
    (enterDrain c s).trk = s.trk ∧
    (enterDrain c s).pcm = s.pcm ∧
    (enterDrain c s).scu = s.scu ∧
    (enterDrain c s).mkf = s.mkf ∧
    (enterDrain c s).ptc = s.ptc ∧
    (enterDrain c s).can.dater = s.can.dater ∧
    (enterDrain c s).pkc = s.pkc ∧
    (enterDrain c s).flc.countdown = s.flc.countdown ∧
    (enterDrain c s).flc.fault = s.flc.fault ∧
    (enterDrain c s).flc.faultCount = s.flc.faultCount ∧
    (enterDrain c s).flc.cleanRun = s.flc.cleanRun ∧
    (enterDrain c s).flc.warmup = s.flc.warmup ∧
    (enterDrain c s).flc.estop = s.flc.estop ∧
    (enterDrain c s).flc.horn = s.flc.horn ∧
    (enterDrain c s).cnb.bank = s.cnb.bank ∧
    (enterDrain c s).cnb.remainder = s.cnb.remainder ∧
    (enterDrain c s).cnb.records = s.cnb.records ∧
    (enterDrain c s).llk.rx = s.llk.rx ∧
    (enterDrain c s).llk.answers = s.llk.answers ∧
    (enterDrain c s).llk.restarting = s.llk.restarting ∧
    (enterDrain c s).llk.silenceStart = s.llk.silenceStart ∧
    (enterDrain c s).llk.silent = s.llk.silent ∧
    (enterDrain c s).llk.tx = s.llk.tx ∧
    (enterDrain c s).llk.opening = s.llk.opening ∧
    (enterDrain c s).pfs = s.pfs ∧
    (enterDrain c s).now = s.now ∧
    (enterDrain c s).fresh = s.fresh ∧
    (enterDrain c s).pending = s.pending := by
  unfold enterDrain
  (try dsimp only)
  (repeat' split) <;> simp

@[simp] theorem stopBlocks_frame (s : State) :
    (stopBlocks s).trk.belt = s.trk.belt ∧
    (stopBlocks s).trk.samples = s.trk.samples ∧
    (stopBlocks s).trk.speed = s.trk.speed ∧
    (stopBlocks s).trk.nextNumber = s.trk.nextNumber ∧
    (stopBlocks s).trk.prevTail = s.trk.prevTail ∧
    (stopBlocks s).pcm.cells = s.pcm.cells ∧
    (stopBlocks s).scu.calStart = s.scu.calStart ∧
    (stopBlocks s).scu.calDue = s.scu.calDue ∧
    (stopBlocks s).mkf.capture = s.mkf.capture ∧
    (stopBlocks s).ptc.merge = s.ptc.merge ∧
    (stopBlocks s).can = s.can ∧
    (stopBlocks s).pkc = s.pkc ∧
    (stopBlocks s).flc = s.flc ∧
    (stopBlocks s).cnb = s.cnb ∧
    (stopBlocks s).llk = s.llk ∧
    (stopBlocks s).pfs = s.pfs ∧
    (stopBlocks s).now = s.now ∧
    (stopBlocks s).fresh = s.fresh ∧
    (stopBlocks s).pending = s.pending := by
  unfold stopBlocks
  (try dsimp only)
  (repeat' split) <;> simp

@[simp] theorem faultStop_frame (call : FaultCall) (s : State) :
    (faultStop call s).trk.belt = s.trk.belt ∧
    (faultStop call s).trk.samples = s.trk.samples ∧
    (faultStop call s).trk.speed = s.trk.speed ∧
    (faultStop call s).trk.nextNumber = s.trk.nextNumber ∧
    (faultStop call s).trk.prevTail = s.trk.prevTail ∧
    (faultStop call s).pcm.cells = s.pcm.cells ∧
    (faultStop call s).scu.calStart = s.scu.calStart ∧
    (faultStop call s).scu.calDue = s.scu.calDue ∧
    (faultStop call s).mkf.capture = s.mkf.capture ∧
    (faultStop call s).ptc.merge = s.ptc.merge ∧
    (faultStop call s).can.dater = s.can.dater ∧
    (faultStop call s).pkc = s.pkc ∧
    (faultStop call s).flc.countdown = s.flc.countdown ∧
    (faultStop call s).flc.warmup = s.flc.warmup ∧
    (faultStop call s).flc.estop = s.flc.estop ∧
    (faultStop call s).cnb.remainder = s.cnb.remainder ∧
    (faultStop call s).cnb.snap = s.cnb.snap ∧
    (faultStop call s).cnb.records = s.cnb.records ∧
    (faultStop call s).llk.rx = s.llk.rx ∧
    (faultStop call s).llk.answers = s.llk.answers ∧
    (faultStop call s).llk.restarting = s.llk.restarting ∧
    (faultStop call s).llk.silenceStart = s.llk.silenceStart ∧
    (faultStop call s).llk.silent = s.llk.silent ∧
    (faultStop call s).llk.tx = s.llk.tx ∧
    (faultStop call s).llk.opening = s.llk.opening ∧
    (faultStop call s).pfs = s.pfs ∧
    (faultStop call s).now = s.now ∧
    (faultStop call s).fresh = s.fresh ∧
    (faultStop call s).pending = s.pending := by
  unfold faultStop
  (try dsimp only)
  (repeat' split) <;> simp

@[simp] theorem takeUp_frame (s : State) :
    (takeUp s).trk.belt = s.trk.belt ∧
    (takeUp s).trk.samples = s.trk.samples ∧
    (takeUp s).trk.speed = s.trk.speed ∧
    (takeUp s).trk.nextNumber = s.trk.nextNumber ∧
    (takeUp s).trk.measuring = s.trk.measuring ∧
    (takeUp s).trk.overTaken = s.trk.overTaken ∧
    (takeUp s).trk.prevTail = s.trk.prevTail ∧
    (takeUp s).pcm = s.pcm ∧
    (takeUp s).scu.heads = s.scu.heads ∧
    (takeUp s).scu.calStart = s.scu.calStart ∧
    (takeUp s).scu.calDue = s.scu.calDue ∧
    (takeUp s).mkf.capture = s.mkf.capture ∧
    (takeUp s).ptc = s.ptc ∧
    (takeUp s).can = s.can ∧
    (takeUp s).pkc = s.pkc ∧
    (takeUp s).flc = s.flc ∧
    (takeUp s).cnb = s.cnb ∧
    (takeUp s).llk = s.llk ∧
    (takeUp s).pfs = s.pfs ∧
    (takeUp s).now = s.now ∧
    (takeUp s).fresh = s.fresh ∧
    (takeUp s).pending = s.pending := by
  unfold takeUp
  (try dsimp only)
  (repeat' split) <;> simp

@[simp] theorem checkComplete_frame (b : Buf) (s : State) :
    (checkComplete b s).trk.belt = s.trk.belt ∧
    (checkComplete b s).trk.samples = s.trk.samples ∧
    (checkComplete b s).trk.speed = s.trk.speed ∧
    (checkComplete b s).trk.nextNumber = s.trk.nextNumber ∧
    (checkComplete b s).trk.measuring = s.trk.measuring ∧
    (checkComplete b s).trk.overTaken = s.trk.overTaken ∧
    (checkComplete b s).trk.prevTail = s.trk.prevTail ∧
    (checkComplete b s).pcm = s.pcm ∧
    (checkComplete b s).scu.heads = s.scu.heads ∧
    (checkComplete b s).scu.calStart = s.scu.calStart ∧
    (checkComplete b s).scu.calDue = s.scu.calDue ∧
    (checkComplete b s).mkf.capture = s.mkf.capture ∧
    (checkComplete b s).ptc = s.ptc ∧
    (checkComplete b s).can = s.can ∧
    (checkComplete b s).pkc = s.pkc ∧
    (checkComplete b s).flc = s.flc ∧
    (checkComplete b s).cnb = s.cnb ∧
    (checkComplete b s).llk = s.llk ∧
    (checkComplete b s).pfs = s.pfs ∧
    (checkComplete b s).now = s.now ∧
    (checkComplete b s).fresh = s.fresh ∧
    (checkComplete b s).pending = s.pending := by
  unfold checkComplete
  (try dsimp only)
  (repeat' split) <;> simp

@[simp] theorem checkWarm_frame (s : State) :
    (checkWarm s).trk = s.trk ∧
    (checkWarm s).pcm = s.pcm ∧
    (checkWarm s).scu = s.scu ∧
    (checkWarm s).mkf = s.mkf ∧
    (checkWarm s).ptc = s.ptc ∧
    (checkWarm s).can = s.can ∧
    (checkWarm s).pkc = s.pkc ∧
    (checkWarm s).flc.countdown = s.flc.countdown ∧
    (checkWarm s).flc.fault = s.flc.fault ∧
    (checkWarm s).flc.faultCount = s.flc.faultCount ∧
    (checkWarm s).flc.cleanRun = s.flc.cleanRun ∧
    (checkWarm s).flc.runUp = s.flc.runUp ∧
    (checkWarm s).flc.runUpQual = s.flc.runUpQual ∧
    (checkWarm s).flc.drainLimit = s.flc.drainLimit ∧
    (checkWarm s).flc.estop = s.flc.estop ∧
    (checkWarm s).flc.horn = s.flc.horn ∧
    (checkWarm s).cnb = s.cnb ∧
    (checkWarm s).llk.rx = s.llk.rx ∧
    (checkWarm s).llk.answers = s.llk.answers ∧
    (checkWarm s).llk.restarting = s.llk.restarting ∧
    (checkWarm s).llk.silenceStart = s.llk.silenceStart ∧
    (checkWarm s).llk.silent = s.llk.silent ∧
    (checkWarm s).llk.tx = s.llk.tx ∧
    (checkWarm s).llk.opening = s.llk.opening ∧
    (checkWarm s).pfs = s.pfs ∧
    (checkWarm s).now = s.now ∧
    (checkWarm s).fresh = s.fresh ∧
    (checkWarm s).pending = s.pending := by
  unfold checkWarm
  (try dsimp only)
  (repeat' split) <;> simp

@[simp] theorem headTo_frame (h : Head) (new : HeadState) (s : State) :
    (headTo h new s).trk = s.trk ∧
    (headTo h new s).pcm = s.pcm ∧
    (headTo h new s).scu.bufs = s.scu.bufs ∧
    (headTo h new s).scu.calStart = s.scu.calStart ∧
    (headTo h new s).scu.calDue = s.scu.calDue ∧
    (headTo h new s).mkf = s.mkf ∧
    (headTo h new s).ptc = s.ptc ∧
    (headTo h new s).can.dater = s.can.dater ∧
    (headTo h new s).pkc = s.pkc ∧
    (headTo h new s).flc.countdown = s.flc.countdown ∧
    (headTo h new s).flc.fault = s.flc.fault ∧
    (headTo h new s).flc.faultCount = s.flc.faultCount ∧
    (headTo h new s).flc.cleanRun = s.flc.cleanRun ∧
    (headTo h new s).flc.estop = s.flc.estop ∧
    (headTo h new s).flc.horn = s.flc.horn ∧
    (headTo h new s).cnb.bank = s.cnb.bank ∧
    (headTo h new s).cnb.remainder = s.cnb.remainder ∧
    (headTo h new s).cnb.records = s.cnb.records ∧
    (headTo h new s).llk.rx = s.llk.rx ∧
    (headTo h new s).llk.answers = s.llk.answers ∧
    (headTo h new s).llk.restarting = s.llk.restarting ∧
    (headTo h new s).llk.silenceStart = s.llk.silenceStart ∧
    (headTo h new s).llk.silent = s.llk.silent ∧
    (headTo h new s).llk.tx = s.llk.tx ∧
    (headTo h new s).llk.opening = s.llk.opening ∧
    (headTo h new s).pfs = s.pfs ∧
    (headTo h new s).now = s.now ∧
    (headTo h new s).fresh = s.fresh ∧
    (headTo h new s).pending = s.pending := by
  unfold headTo
  (try dsimp only)
  (repeat' split) <;> simp

@[simp] theorem headGood_frame (h : Head) (s : State) :
    (headGood h s).trk = s.trk ∧
    (headGood h s).pcm = s.pcm ∧
    (headGood h s).scu.bufs = s.scu.bufs ∧
    (headGood h s).scu.calStart = s.scu.calStart ∧
    (headGood h s).scu.calDue = s.scu.calDue ∧
    (headGood h s).mkf = s.mkf ∧
    (headGood h s).ptc = s.ptc ∧
    (headGood h s).can.dater = s.can.dater ∧
    (headGood h s).pkc = s.pkc ∧
    (headGood h s).flc.countdown = s.flc.countdown ∧
    (headGood h s).flc.fault = s.flc.fault ∧
    (headGood h s).flc.faultCount = s.flc.faultCount ∧
    (headGood h s).flc.cleanRun = s.flc.cleanRun ∧
    (headGood h s).flc.estop = s.flc.estop ∧
    (headGood h s).flc.horn = s.flc.horn ∧
    (headGood h s).cnb.bank = s.cnb.bank ∧
    (headGood h s).cnb.remainder = s.cnb.remainder ∧
    (headGood h s).cnb.records = s.cnb.records ∧
    (headGood h s).llk.rx = s.llk.rx ∧
    (headGood h s).llk.answers = s.llk.answers ∧
    (headGood h s).llk.restarting = s.llk.restarting ∧
    (headGood h s).llk.silenceStart = s.llk.silenceStart ∧
    (headGood h s).llk.silent = s.llk.silent ∧
    (headGood h s).llk.tx = s.llk.tx ∧
    (headGood h s).llk.opening = s.llk.opening ∧
    (headGood h s).pfs = s.pfs ∧
    (headGood h s).now = s.now ∧
    (headGood h s).fresh = s.fresh ∧
    (headGood h s).pending = s.pending := by
  unfold headGood
  (try dsimp only)
  (repeat' split) <;> simp

@[simp] theorem headBad_frame (h : Head) (s : State) :
    (headBad h s).trk = s.trk ∧
    (headBad h s).pcm = s.pcm ∧
    (headBad h s).scu.bufs = s.scu.bufs ∧
    (headBad h s).scu.calStart = s.scu.calStart ∧
    (headBad h s).scu.calDue = s.scu.calDue ∧
    (headBad h s).mkf = s.mkf ∧
    (headBad h s).ptc = s.ptc ∧
    (headBad h s).can.dater = s.can.dater ∧
    (headBad h s).pkc = s.pkc ∧
    (headBad h s).flc.countdown = s.flc.countdown ∧
    (headBad h s).flc.fault = s.flc.fault ∧
    (headBad h s).flc.faultCount = s.flc.faultCount ∧
    (headBad h s).flc.cleanRun = s.flc.cleanRun ∧
    (headBad h s).flc.estop = s.flc.estop ∧
    (headBad h s).flc.horn = s.flc.horn ∧
    (headBad h s).cnb.bank = s.cnb.bank ∧
    (headBad h s).cnb.remainder = s.cnb.remainder ∧
    (headBad h s).cnb.records = s.cnb.records ∧
    (headBad h s).llk.rx = s.llk.rx ∧
    (headBad h s).llk.answers = s.llk.answers ∧
    (headBad h s).llk.restarting = s.llk.restarting ∧
    (headBad h s).llk.silenceStart = s.llk.silenceStart ∧
    (headBad h s).llk.silent = s.llk.silent ∧
    (headBad h s).llk.tx = s.llk.tx ∧
    (headBad h s).llk.opening = s.llk.opening ∧
    (headBad h s).pfs = s.pfs ∧
    (headBad h s).now = s.now ∧
    (headBad h s).fresh = s.fresh ∧
    (headBad h s).pending = s.pending := by
  unfold headBad
  (try dsimp only)
  (repeat' split) <;> simp

@[simp] theorem judgeCalibration_frame (h : Head) (sentAt ga : Nat) (s : State) :
    (judgeCalibration h sentAt ga s).trk = s.trk ∧
    (judgeCalibration h sentAt ga s).pcm = s.pcm ∧
    (judgeCalibration h sentAt ga s).scu.bufs = s.scu.bufs ∧
    (judgeCalibration h sentAt ga s).scu.calStart = s.scu.calStart ∧
    (judgeCalibration h sentAt ga s).scu.calDue = s.scu.calDue ∧
    (judgeCalibration h sentAt ga s).mkf = s.mkf ∧
    (judgeCalibration h sentAt ga s).ptc = s.ptc ∧
    (judgeCalibration h sentAt ga s).can.dater = s.can.dater ∧
    (judgeCalibration h sentAt ga s).pkc = s.pkc ∧
    (judgeCalibration h sentAt ga s).flc.countdown = s.flc.countdown ∧
    (judgeCalibration h sentAt ga s).flc.fault = s.flc.fault ∧
    (judgeCalibration h sentAt ga s).flc.faultCount = s.flc.faultCount ∧
    (judgeCalibration h sentAt ga s).flc.cleanRun = s.flc.cleanRun ∧
    (judgeCalibration h sentAt ga s).flc.estop = s.flc.estop ∧
    (judgeCalibration h sentAt ga s).flc.horn = s.flc.horn ∧
    (judgeCalibration h sentAt ga s).cnb.bank = s.cnb.bank ∧
    (judgeCalibration h sentAt ga s).cnb.remainder = s.cnb.remainder ∧
    (judgeCalibration h sentAt ga s).cnb.records = s.cnb.records ∧
    (judgeCalibration h sentAt ga s).llk.rx = s.llk.rx ∧
    (judgeCalibration h sentAt ga s).llk.answers = s.llk.answers ∧
    (judgeCalibration h sentAt ga s).llk.restarting = s.llk.restarting ∧
    (judgeCalibration h sentAt ga s).llk.silenceStart = s.llk.silenceStart ∧
    (judgeCalibration h sentAt ga s).llk.silent = s.llk.silent ∧
    (judgeCalibration h sentAt ga s).llk.tx = s.llk.tx ∧
    (judgeCalibration h sentAt ga s).llk.opening = s.llk.opening ∧
    (judgeCalibration h sentAt ga s).pfs = s.pfs ∧
    (judgeCalibration h sentAt ga s).now = s.now ∧
    (judgeCalibration h sentAt ga s).fresh = s.fresh ∧
    (judgeCalibration h sentAt ga s).pending = s.pending := by
  unfold judgeCalibration
  (try dsimp only)
  (repeat' split) <;> simp

@[simp] theorem tryCalibrate_frame (s : State) :
    (tryCalibrate s).trk = s.trk ∧
    (tryCalibrate s).pcm = s.pcm ∧
    (tryCalibrate s).scu.bufs = s.scu.bufs ∧
    (tryCalibrate s).mkf = s.mkf ∧
    (tryCalibrate s).ptc = s.ptc ∧
    (tryCalibrate s).can = s.can ∧
    (tryCalibrate s).pkc = s.pkc ∧
    (tryCalibrate s).flc = s.flc ∧
    (tryCalibrate s).cnb = s.cnb ∧
    (tryCalibrate s).llk = s.llk ∧
    (tryCalibrate s).pfs = s.pfs ∧
    (tryCalibrate s).now = s.now ∧
    (tryCalibrate s).fresh = s.fresh ∧
    (tryCalibrate s).pending = s.pending := by
  unfold tryCalibrate
  (try dsimp only)
  (repeat' split) <;> simp

@[simp] theorem refuseScan_frame (n : LetterNo) (s : State) :
    (refuseScan n s).trk.belt = s.trk.belt ∧
    (refuseScan n s).trk.samples = s.trk.samples ∧
    (refuseScan n s).trk.speed = s.trk.speed ∧
    (refuseScan n s).trk.nextNumber = s.trk.nextNumber ∧
    (refuseScan n s).trk.measuring = s.trk.measuring ∧
    (refuseScan n s).trk.overTaken = s.trk.overTaken ∧
    (refuseScan n s).trk.prevTail = s.trk.prevTail ∧
    (refuseScan n s).pcm = s.pcm ∧
    (refuseScan n s).scu = s.scu ∧
    (refuseScan n s).mkf = s.mkf ∧
    (refuseScan n s).ptc = s.ptc ∧
    (refuseScan n s).can = s.can ∧
    (refuseScan n s).pkc = s.pkc ∧
    (refuseScan n s).flc = s.flc ∧
    (refuseScan n s).cnb.remainder = s.cnb.remainder ∧
    (refuseScan n s).cnb.snap = s.cnb.snap ∧
    (refuseScan n s).cnb.records = s.cnb.records ∧
    (refuseScan n s).llk = s.llk ∧
    (refuseScan n s).pfs = s.pfs ∧
    (refuseScan n s).now = s.now ∧
    (refuseScan n s).fresh = s.fresh ∧
    (refuseScan n s).pending = s.pending := by
  unfold refuseScan
  (try dsimp only)
  (repeat' split) <;> simp

@[simp] theorem shAct_frame (n : LetterNo) (s : State) :
    (shAct n s).trk.belt = s.trk.belt ∧
    (shAct n s).trk.samples = s.trk.samples ∧
    (shAct n s).trk.speed = s.trk.speed ∧
    (shAct n s).trk.nextNumber = s.trk.nextNumber ∧
    (shAct n s).trk.measuring = s.trk.measuring ∧
    (shAct n s).trk.overTaken = s.trk.overTaken ∧
    (shAct n s).trk.prevTail = s.trk.prevTail ∧
    (shAct n s).pcm = s.pcm ∧
    (shAct n s).scu.heads = s.scu.heads ∧
    (shAct n s).scu.calStart = s.scu.calStart ∧
    (shAct n s).scu.calDue = s.scu.calDue ∧
    (shAct n s).mkf = s.mkf ∧
    (shAct n s).ptc = s.ptc ∧
    (shAct n s).can = s.can ∧
    (shAct n s).pkc = s.pkc ∧
    (shAct n s).flc = s.flc ∧
    (shAct n s).cnb.remainder = s.cnb.remainder ∧
    (shAct n s).cnb.snap = s.cnb.snap ∧
    (shAct n s).cnb.records = s.cnb.records ∧
    (shAct n s).llk = s.llk ∧
    (shAct n s).pfs = s.pfs ∧
    (shAct n s).now = s.now ∧
    (shAct n s).fresh = s.fresh ∧
    (shAct n s).pending = s.pending := by
  unfold shAct
  (try dsimp only)
  (repeat' split) <;> simp

@[simp] theorem nextPulse_frame (n : LetterNo) (s : State) :
    (nextPulse n s).trk = s.trk ∧
    (nextPulse n s).pcm = s.pcm ∧
    (nextPulse n s).scu.calStart = s.scu.calStart ∧
    (nextPulse n s).scu.calDue = s.scu.calDue ∧
    (nextPulse n s).mkf = s.mkf ∧
    (nextPulse n s).ptc = s.ptc ∧
    (nextPulse n s).can = s.can ∧
    (nextPulse n s).pkc = s.pkc ∧
    (nextPulse n s).flc = s.flc ∧
    (nextPulse n s).cnb = s.cnb ∧
    (nextPulse n s).llk = s.llk ∧
    (nextPulse n s).pfs = s.pfs ∧
    (nextPulse n s).now = s.now ∧
    (nextPulse n s).fresh = s.fresh ∧
    (nextPulse n s).pending = s.pending := by
  unfold nextPulse
  (try dsimp only)
  (repeat' split) <;> simp

@[simp] theorem pulseAct_frame (n : LetterNo) (s : State) :
    (pulseAct n s).trk = s.trk ∧
    (pulseAct n s).pcm = s.pcm ∧
    (pulseAct n s).scu.calStart = s.scu.calStart ∧
    (pulseAct n s).scu.calDue = s.scu.calDue ∧
    (pulseAct n s).mkf = s.mkf ∧
    (pulseAct n s).ptc = s.ptc ∧
    (pulseAct n s).can = s.can ∧
    (pulseAct n s).pkc = s.pkc ∧
    (pulseAct n s).flc = s.flc ∧
    (pulseAct n s).cnb = s.cnb ∧
    (pulseAct n s).llk = s.llk ∧
    (pulseAct n s).pfs = s.pfs ∧
    (pulseAct n s).now = s.now ∧
    (pulseAct n s).fresh = s.fresh ∧
    (pulseAct n s).pending = s.pending := by
  unfold pulseAct
  split <;> simp

@[simp] theorem scanAnswer_frame (h : Head) (p : Pulse) (v : Sample) (s : State) :
    (scanAnswer h p v s).trk.belt = s.trk.belt ∧
    (scanAnswer h p v s).trk.samples = s.trk.samples ∧
    (scanAnswer h p v s).trk.speed = s.trk.speed ∧
    (scanAnswer h p v s).trk.nextNumber = s.trk.nextNumber ∧
    (scanAnswer h p v s).trk.measuring = s.trk.measuring ∧
    (scanAnswer h p v s).trk.overTaken = s.trk.overTaken ∧
    (scanAnswer h p v s).trk.prevTail = s.trk.prevTail ∧
    (scanAnswer h p v s).pcm = s.pcm ∧
    (scanAnswer h p v s).scu.heads = s.scu.heads ∧
    (scanAnswer h p v s).scu.calStart = s.scu.calStart ∧
    (scanAnswer h p v s).scu.calDue = s.scu.calDue ∧
    (scanAnswer h p v s).mkf.capture = s.mkf.capture ∧
    (scanAnswer h p v s).ptc = s.ptc ∧
    (scanAnswer h p v s).can = s.can ∧
    (scanAnswer h p v s).pkc = s.pkc ∧
    (scanAnswer h p v s).flc = s.flc ∧
    (scanAnswer h p v s).cnb = s.cnb ∧
    (scanAnswer h p v s).llk = s.llk ∧
    (scanAnswer h p v s).pfs = s.pfs ∧
    (scanAnswer h p v s).now = s.now ∧
    (scanAnswer h p v s).fresh = s.fresh ∧
    (scanAnswer h p v s).pending = s.pending := by
  unfold scanAnswer
  (try dsimp only)
  (repeat' split) <;> simp

@[simp] theorem answerHead_frame (h : Head) (v : Sample) (s : State) :
    (answerHead h v s).trk.belt = s.trk.belt ∧
    (answerHead h v s).trk.samples = s.trk.samples ∧
    (answerHead h v s).trk.speed = s.trk.speed ∧
    (answerHead h v s).trk.nextNumber = s.trk.nextNumber ∧
    (answerHead h v s).trk.measuring = s.trk.measuring ∧
    (answerHead h v s).trk.overTaken = s.trk.overTaken ∧
    (answerHead h v s).trk.prevTail = s.trk.prevTail ∧
    (answerHead h v s).pcm = s.pcm ∧
    (answerHead h v s).mkf.capture = s.mkf.capture ∧
    (answerHead h v s).ptc = s.ptc ∧
    (answerHead h v s).can.dater = s.can.dater ∧
    (answerHead h v s).pkc = s.pkc ∧
    (answerHead h v s).flc.countdown = s.flc.countdown ∧
    (answerHead h v s).flc.fault = s.flc.fault ∧
    (answerHead h v s).flc.faultCount = s.flc.faultCount ∧
    (answerHead h v s).flc.cleanRun = s.flc.cleanRun ∧
    (answerHead h v s).flc.estop = s.flc.estop ∧
    (answerHead h v s).flc.horn = s.flc.horn ∧
    (answerHead h v s).cnb.bank = s.cnb.bank ∧
    (answerHead h v s).cnb.remainder = s.cnb.remainder ∧
    (answerHead h v s).cnb.records = s.cnb.records ∧
    (answerHead h v s).llk.rx = s.llk.rx ∧
    (answerHead h v s).llk.answers = s.llk.answers ∧
    (answerHead h v s).llk.restarting = s.llk.restarting ∧
    (answerHead h v s).llk.silenceStart = s.llk.silenceStart ∧
    (answerHead h v s).llk.silent = s.llk.silent ∧
    (answerHead h v s).llk.tx = s.llk.tx ∧
    (answerHead h v s).llk.opening = s.llk.opening ∧
    (answerHead h v s).pfs = s.pfs ∧
    (answerHead h v s).now = s.now ∧
    (answerHead h v s).fresh = s.fresh ∧
    (answerHead h v s).pending = s.pending := by
  unfold answerHead
  (try dsimp only)
  (repeat' split) <;> simp

@[simp] theorem loseHead_frame (h : Head) (b : Buf) (s : State) :
    (loseHead h b s).trk.belt = s.trk.belt ∧
    (loseHead h b s).trk.samples = s.trk.samples ∧
    (loseHead h b s).trk.speed = s.trk.speed ∧
    (loseHead h b s).trk.nextNumber = s.trk.nextNumber ∧
    (loseHead h b s).trk.measuring = s.trk.measuring ∧
    (loseHead h b s).trk.overTaken = s.trk.overTaken ∧
    (loseHead h b s).trk.prevTail = s.trk.prevTail ∧
    (loseHead h b s).pcm = s.pcm ∧
    (loseHead h b s).scu.heads = s.scu.heads ∧
    (loseHead h b s).scu.calStart = s.scu.calStart ∧
    (loseHead h b s).scu.calDue = s.scu.calDue ∧
    (loseHead h b s).mkf.capture = s.mkf.capture ∧
    (loseHead h b s).ptc = s.ptc ∧
    (loseHead h b s).can = s.can ∧
    (loseHead h b s).pkc = s.pkc ∧
    (loseHead h b s).flc = s.flc ∧
    (loseHead h b s).cnb = s.cnb ∧
    (loseHead h b s).llk = s.llk ∧
    (loseHead h b s).pfs = s.pfs ∧
    (loseHead h b s).now = s.now ∧
    (loseHead h b s).fresh = s.fresh ∧
    (loseHead h b s).pending = s.pending := by
  unfold loseHead
  (try dsimp only)
  (repeat' split) <;> simp

@[simp] theorem failHead_frame (h : Head) (s : State) :
    (failHead h s).trk.belt = s.trk.belt ∧
    (failHead h s).trk.samples = s.trk.samples ∧
    (failHead h s).trk.speed = s.trk.speed ∧
    (failHead h s).trk.nextNumber = s.trk.nextNumber ∧
    (failHead h s).trk.measuring = s.trk.measuring ∧
    (failHead h s).trk.overTaken = s.trk.overTaken ∧
    (failHead h s).trk.prevTail = s.trk.prevTail ∧
    (failHead h s).pcm = s.pcm ∧
    (failHead h s).scu.calStart = s.scu.calStart ∧
    (failHead h s).scu.calDue = s.scu.calDue ∧
    (failHead h s).mkf.capture = s.mkf.capture ∧
    (failHead h s).ptc = s.ptc ∧
    (failHead h s).can.dater = s.can.dater ∧
    (failHead h s).pkc = s.pkc ∧
    (failHead h s).flc.countdown = s.flc.countdown ∧
    (failHead h s).flc.fault = s.flc.fault ∧
    (failHead h s).flc.faultCount = s.flc.faultCount ∧
    (failHead h s).flc.cleanRun = s.flc.cleanRun ∧
    (failHead h s).flc.estop = s.flc.estop ∧
    (failHead h s).flc.horn = s.flc.horn ∧
    (failHead h s).cnb.bank = s.cnb.bank ∧
    (failHead h s).cnb.remainder = s.cnb.remainder ∧
    (failHead h s).cnb.records = s.cnb.records ∧
    (failHead h s).llk.rx = s.llk.rx ∧
    (failHead h s).llk.answers = s.llk.answers ∧
    (failHead h s).llk.restarting = s.llk.restarting ∧
    (failHead h s).llk.silenceStart = s.llk.silenceStart ∧
    (failHead h s).llk.silent = s.llk.silent ∧
    (failHead h s).llk.tx = s.llk.tx ∧
    (failHead h s).llk.opening = s.llk.opening ∧
    (failHead h s).pfs = s.pfs ∧
    (failHead h s).now = s.now ∧
    (failHead h s).fresh = s.fresh ∧
    (failHead h s).pending = s.pending := by
  unfold failHead
  (try dsimp only)
  (repeat' split) <;> simp

@[simp] theorem writeResult_frame (n : LetterNo) (r : MarkResult) (s : State) :
    (writeResult n r s).trk.belt = s.trk.belt ∧
    (writeResult n r s).trk.samples = s.trk.samples ∧
    (writeResult n r s).trk.speed = s.trk.speed ∧
    (writeResult n r s).trk.nextNumber = s.trk.nextNumber ∧
    (writeResult n r s).trk.measuring = s.trk.measuring ∧
    (writeResult n r s).trk.overTaken = s.trk.overTaken ∧
    (writeResult n r s).trk.prevTail = s.trk.prevTail ∧
    (writeResult n r s).pcm = s.pcm ∧
    (writeResult n r s).scu = s.scu ∧
    (writeResult n r s).mkf = s.mkf ∧
    (writeResult n r s).ptc = s.ptc ∧
    (writeResult n r s).can = s.can ∧
    (writeResult n r s).pkc = s.pkc ∧
    (writeResult n r s).flc = s.flc ∧
    (writeResult n r s).cnb.remainder = s.cnb.remainder ∧
    (writeResult n r s).cnb.snap = s.cnb.snap ∧
    (writeResult n r s).cnb.records = s.cnb.records ∧
    (writeResult n r s).llk = s.llk ∧
    (writeResult n r s).pfs = s.pfs ∧
    (writeResult n r s).now = s.now ∧
    (writeResult n r s).fresh = s.fresh ∧
    (writeResult n r s).pending = s.pending := by
  unfold writeResult
  (try dsimp only)
  (repeat' split) <;> simp

@[simp] theorem returnBuf_frame (i : SlotItem) (l : Latched) (r : MarkResult) (s : State) :
    (returnBuf i l r s).trk = s.trk ∧
    (returnBuf i l r s).pcm = s.pcm ∧
    (returnBuf i l r s).scu.heads = s.scu.heads ∧
    (returnBuf i l r s).scu.calStart = s.scu.calStart ∧
    (returnBuf i l r s).scu.calDue = s.scu.calDue ∧
    (returnBuf i l r s).mkf.work = s.mkf.work ∧
    (returnBuf i l r s).mkf.slot = s.mkf.slot ∧
    (returnBuf i l r s).ptc = s.ptc ∧
    (returnBuf i l r s).can = s.can ∧
    (returnBuf i l r s).pkc = s.pkc ∧
    (returnBuf i l r s).flc = s.flc ∧
    (returnBuf i l r s).cnb = s.cnb ∧
    (returnBuf i l r s).llk = s.llk ∧
    (returnBuf i l r s).pfs = s.pfs ∧
    (returnBuf i l r s).now = s.now ∧
    (returnBuf i l r s).fresh = s.fresh ∧
    (returnBuf i l r s).pending = s.pending := by
  unfold returnBuf
  (try dsimp only)
  (repeat' split) <;> simp

@[simp] theorem deliver_frame (i : SlotItem) (s : State) :
    (deliver i s).trk.belt = s.trk.belt ∧
    (deliver i s).trk.samples = s.trk.samples ∧
    (deliver i s).trk.speed = s.trk.speed ∧
    (deliver i s).trk.nextNumber = s.trk.nextNumber ∧
    (deliver i s).trk.measuring = s.trk.measuring ∧
    (deliver i s).trk.overTaken = s.trk.overTaken ∧
    (deliver i s).trk.prevTail = s.trk.prevTail ∧
    (deliver i s).pcm = s.pcm ∧
    (deliver i s).scu.heads = s.scu.heads ∧
    (deliver i s).scu.calStart = s.scu.calStart ∧
    (deliver i s).scu.calDue = s.scu.calDue ∧
    (deliver i s).ptc = s.ptc ∧
    (deliver i s).can = s.can ∧
    (deliver i s).pkc = s.pkc ∧
    (deliver i s).flc = s.flc ∧
    (deliver i s).cnb.remainder = s.cnb.remainder ∧
    (deliver i s).cnb.snap = s.cnb.snap ∧
    (deliver i s).cnb.records = s.cnb.records ∧
    (deliver i s).llk = s.llk ∧
    (deliver i s).pfs = s.pfs ∧
    (deliver i s).now = s.now ∧
    (deliver i s).fresh = s.fresh ∧
    (deliver i s).pending = s.pending := by
  unfold deliver
  (try dsimp only)
  (repeat' split) <;> simp

@[simp] theorem captureSent_frame (c : CaptureLine) (s : State) :
    (captureSent c s).trk = s.trk ∧
    (captureSent c s).pcm = s.pcm ∧
    (captureSent c s).scu.heads = s.scu.heads ∧
    (captureSent c s).scu.calStart = s.scu.calStart ∧
    (captureSent c s).scu.calDue = s.scu.calDue ∧
    (captureSent c s).mkf.work = s.mkf.work ∧
    (captureSent c s).mkf.slot = s.mkf.slot ∧
    (captureSent c s).ptc = s.ptc ∧
    (captureSent c s).can = s.can ∧
    (captureSent c s).pkc = s.pkc ∧
    (captureSent c s).flc = s.flc ∧
    (captureSent c s).cnb = s.cnb ∧
    (captureSent c s).llk.rx = s.llk.rx ∧
    (captureSent c s).llk.answers = s.llk.answers ∧
    (captureSent c s).llk.restarting = s.llk.restarting ∧
    (captureSent c s).llk.silenceStart = s.llk.silenceStart ∧
    (captureSent c s).llk.silent = s.llk.silent ∧
    (captureSent c s).llk.tx = s.llk.tx ∧
    (captureSent c s).llk.opening = s.llk.opening ∧
    (captureSent c s).pfs = s.pfs ∧
    (captureSent c s).now = s.now ∧
    (captureSent c s).fresh = s.fresh ∧
    (captureSent c s).pending = s.pending := by
  unfold captureSent
  (try dsimp only)
  (repeat' split) <;> simp

@[simp] theorem gateTry_frame (g : Gate) (s : State) :
    (gateTry g s).trk = s.trk ∧
    (gateTry g s).pcm = s.pcm ∧
    (gateTry g s).scu = s.scu ∧
    (gateTry g s).mkf = s.mkf ∧
    (gateTry g s).ptc.merge = s.ptc.merge ∧
    (gateTry g s).can = s.can ∧
    (gateTry g s).pkc = s.pkc ∧
    (gateTry g s).flc = s.flc ∧
    (gateTry g s).cnb = s.cnb ∧
    (gateTry g s).llk = s.llk ∧
    (gateTry g s).pfs = s.pfs ∧
    (gateTry g s).now = s.now ∧
    (gateTry g s).fresh = s.fresh ∧
    (gateTry g s).pending = s.pending := by
  unfold gateTry
  (try dsimp only)
  (repeat' split) <;> simp

@[simp] theorem placeEntry_frame (g : Gate) (n : LetterNo) (set : Setting) (s : State) :
    (placeEntry g n set s).trk.belt = s.trk.belt ∧
    (placeEntry g n set s).trk.samples = s.trk.samples ∧
    (placeEntry g n set s).trk.speed = s.trk.speed ∧
    (placeEntry g n set s).trk.nextNumber = s.trk.nextNumber ∧
    (placeEntry g n set s).trk.prevTail = s.trk.prevTail ∧
    (placeEntry g n set s).pcm.cells = s.pcm.cells ∧
    (placeEntry g n set s).scu.calStart = s.scu.calStart ∧
    (placeEntry g n set s).scu.calDue = s.scu.calDue ∧
    (placeEntry g n set s).mkf.capture = s.mkf.capture ∧
    (placeEntry g n set s).ptc.merge = s.ptc.merge ∧
    (placeEntry g n set s).can.dater = s.can.dater ∧
    (placeEntry g n set s).pkc = s.pkc ∧
    (placeEntry g n set s).flc.countdown = s.flc.countdown ∧
    (placeEntry g n set s).flc.warmup = s.flc.warmup ∧
    (placeEntry g n set s).flc.estop = s.flc.estop ∧
    (placeEntry g n set s).cnb.remainder = s.cnb.remainder ∧
    (placeEntry g n set s).cnb.snap = s.cnb.snap ∧
    (placeEntry g n set s).cnb.records = s.cnb.records ∧
    (placeEntry g n set s).llk.rx = s.llk.rx ∧
    (placeEntry g n set s).llk.answers = s.llk.answers ∧
    (placeEntry g n set s).llk.restarting = s.llk.restarting ∧
    (placeEntry g n set s).llk.silenceStart = s.llk.silenceStart ∧
    (placeEntry g n set s).llk.silent = s.llk.silent ∧
    (placeEntry g n set s).llk.tx = s.llk.tx ∧
    (placeEntry g n set s).llk.opening = s.llk.opening ∧
    (placeEntry g n set s).pfs = s.pfs ∧
    (placeEntry g n set s).now = s.now ∧
    (placeEntry g n set s).fresh = s.fresh ∧
    (placeEntry g n set s).pending = s.pending := by
  unfold placeEntry
  (try dsimp only)
  (repeat' split) <;> simp

@[simp] theorem gateRemoved_frame (n : LetterNo) (s : State) (g : Gate) :
    (gateRemoved n s g).trk = s.trk ∧
    (gateRemoved n s g).pcm = s.pcm ∧
    (gateRemoved n s g).scu = s.scu ∧
    (gateRemoved n s g).mkf = s.mkf ∧
    (gateRemoved n s g).ptc.merge = s.ptc.merge ∧
    (gateRemoved n s g).can = s.can ∧
    (gateRemoved n s g).pkc = s.pkc ∧
    (gateRemoved n s g).flc = s.flc ∧
    (gateRemoved n s g).cnb = s.cnb ∧
    (gateRemoved n s g).llk = s.llk ∧
    (gateRemoved n s g).pfs = s.pfs ∧
    (gateRemoved n s g).now = s.now ∧
    (gateRemoved n s g).fresh = s.fresh ∧
    (gateRemoved n s g).pending = s.pending := by
  unfold gateRemoved
  (try dsimp only)
  (repeat' split) <;> simp

@[simp] theorem judgeBlocked_frame (s : State) :
    (judgeBlocked s).trk = s.trk ∧
    (judgeBlocked s).pcm = s.pcm ∧
    (judgeBlocked s).scu = s.scu ∧
    (judgeBlocked s).mkf = s.mkf ∧
    (judgeBlocked s).ptc = s.ptc ∧
    (judgeBlocked s).can = s.can ∧
    (judgeBlocked s).pkc.recs = s.pkc.recs ∧
    (judgeBlocked s).flc.line = s.flc.line ∧
    (judgeBlocked s).flc.countdown = s.flc.countdown ∧
    (judgeBlocked s).flc.fault = s.flc.fault ∧
    (judgeBlocked s).flc.faultCount = s.flc.faultCount ∧
    (judgeBlocked s).flc.cleanRun = s.flc.cleanRun ∧
    (judgeBlocked s).flc.runUp = s.flc.runUp ∧
    (judgeBlocked s).flc.runUpQual = s.flc.runUpQual ∧
    (judgeBlocked s).flc.warmup = s.flc.warmup ∧
    (judgeBlocked s).flc.drainLimit = s.flc.drainLimit ∧
    (judgeBlocked s).flc.estop = s.flc.estop ∧
    (judgeBlocked s).flc.horn = s.flc.horn ∧
    (judgeBlocked s).cnb = s.cnb ∧
    (judgeBlocked s).llk = s.llk ∧
    (judgeBlocked s).pfs = s.pfs ∧
    (judgeBlocked s).now = s.now ∧
    (judgeBlocked s).fresh = s.fresh ∧
    (judgeBlocked s).pending = s.pending := by
  unfold judgeBlocked
  (try dsimp only)
  (repeat' split) <;> simp

@[simp] theorem restate_frame (q : Pocket) (new : PocketState) (s : State) :
    (restate q new s).trk = s.trk ∧
    (restate q new s).pcm = s.pcm ∧
    (restate q new s).scu = s.scu ∧
    (restate q new s).mkf = s.mkf ∧
    (restate q new s).ptc = s.ptc ∧
    (restate q new s).can = s.can ∧
    (restate q new s).pkc.blocked = s.pkc.blocked ∧
    (restate q new s).flc = s.flc ∧
    (restate q new s).cnb = s.cnb ∧
    (restate q new s).llk.rx = s.llk.rx ∧
    (restate q new s).llk.answers = s.llk.answers ∧
    (restate q new s).llk.restarting = s.llk.restarting ∧
    (restate q new s).llk.silenceStart = s.llk.silenceStart ∧
    (restate q new s).llk.silent = s.llk.silent ∧
    (restate q new s).llk.tx = s.llk.tx ∧
    (restate q new s).llk.opening = s.llk.opening ∧
    (restate q new s).pfs = s.pfs ∧
    (restate q new s).now = s.now ∧
    (restate q new s).fresh = s.fresh ∧
    (restate q new s).pending = s.pending := by
  unfold restate
  (try dsimp only)
  (repeat' split) <;> simp

@[simp] theorem setPocketState_frame (q : Pocket) (new : PocketState) (s : State) :
    (setPocketState q new s).trk = s.trk ∧
    (setPocketState q new s).pcm = s.pcm ∧
    (setPocketState q new s).scu = s.scu ∧
    (setPocketState q new s).mkf = s.mkf ∧
    (setPocketState q new s).ptc = s.ptc ∧
    (setPocketState q new s).can = s.can ∧
    (setPocketState q new s).flc.line = s.flc.line ∧
    (setPocketState q new s).flc.countdown = s.flc.countdown ∧
    (setPocketState q new s).flc.fault = s.flc.fault ∧
    (setPocketState q new s).flc.faultCount = s.flc.faultCount ∧
    (setPocketState q new s).flc.cleanRun = s.flc.cleanRun ∧
    (setPocketState q new s).flc.runUp = s.flc.runUp ∧
    (setPocketState q new s).flc.runUpQual = s.flc.runUpQual ∧
    (setPocketState q new s).flc.warmup = s.flc.warmup ∧
    (setPocketState q new s).flc.drainLimit = s.flc.drainLimit ∧
    (setPocketState q new s).flc.estop = s.flc.estop ∧
    (setPocketState q new s).flc.horn = s.flc.horn ∧
    (setPocketState q new s).cnb = s.cnb ∧
    (setPocketState q new s).llk.rx = s.llk.rx ∧
    (setPocketState q new s).llk.answers = s.llk.answers ∧
    (setPocketState q new s).llk.restarting = s.llk.restarting ∧
    (setPocketState q new s).llk.silenceStart = s.llk.silenceStart ∧
    (setPocketState q new s).llk.silent = s.llk.silent ∧
    (setPocketState q new s).llk.tx = s.llk.tx ∧
    (setPocketState q new s).llk.opening = s.llk.opening ∧
    (setPocketState q new s).pfs = s.pfs ∧
    (setPocketState q new s).now = s.now ∧
    (setPocketState q new s).fresh = s.fresh ∧
    (setPocketState q new s).pending = s.pending := by
  unfold setPocketState
  (try dsimp only)
  (repeat' split) <;> simp

@[simp] theorem retake_frame (q : Pocket) (s : State) :
    (retake q s).trk = s.trk ∧
    (retake q s).pcm = s.pcm ∧
    (retake q s).scu = s.scu ∧
    (retake q s).mkf = s.mkf ∧
    (retake q s).ptc = s.ptc ∧
    (retake q s).can = s.can ∧
    (retake q s).flc.line = s.flc.line ∧
    (retake q s).flc.countdown = s.flc.countdown ∧
    (retake q s).flc.fault = s.flc.fault ∧
    (retake q s).flc.faultCount = s.flc.faultCount ∧
    (retake q s).flc.cleanRun = s.flc.cleanRun ∧
    (retake q s).flc.runUp = s.flc.runUp ∧
    (retake q s).flc.runUpQual = s.flc.runUpQual ∧
    (retake q s).flc.warmup = s.flc.warmup ∧
    (retake q s).flc.drainLimit = s.flc.drainLimit ∧
    (retake q s).flc.estop = s.flc.estop ∧
    (retake q s).flc.horn = s.flc.horn ∧
    (retake q s).cnb = s.cnb ∧
    (retake q s).llk.rx = s.llk.rx ∧
    (retake q s).llk.answers = s.llk.answers ∧
    (retake q s).llk.restarting = s.llk.restarting ∧
    (retake q s).llk.silenceStart = s.llk.silenceStart ∧
    (retake q s).llk.silent = s.llk.silent ∧
    (retake q s).llk.tx = s.llk.tx ∧
    (retake q s).llk.opening = s.llk.opening ∧
    (retake q s).pfs = s.pfs ∧
    (retake q s).now = s.now ∧
    (retake q s).fresh = s.fresh ∧
    (retake q s).pending = s.pending := by
  unfold retake
  (try dsimp only)
  (repeat' split) <;> simp

@[simp] theorem follow_frame (q : Pocket) (s : State) :
    (follow q s).trk = s.trk ∧
    (follow q s).pcm = s.pcm ∧
    (follow q s).scu = s.scu ∧
    (follow q s).mkf = s.mkf ∧
    (follow q s).ptc = s.ptc ∧
    (follow q s).can = s.can ∧
    (follow q s).flc.line = s.flc.line ∧
    (follow q s).flc.countdown = s.flc.countdown ∧
    (follow q s).flc.fault = s.flc.fault ∧
    (follow q s).flc.faultCount = s.flc.faultCount ∧
    (follow q s).flc.cleanRun = s.flc.cleanRun ∧
    (follow q s).flc.runUp = s.flc.runUp ∧
    (follow q s).flc.runUpQual = s.flc.runUpQual ∧
    (follow q s).flc.warmup = s.flc.warmup ∧
    (follow q s).flc.drainLimit = s.flc.drainLimit ∧
    (follow q s).flc.estop = s.flc.estop ∧
    (follow q s).flc.horn = s.flc.horn ∧
    (follow q s).cnb = s.cnb ∧
    (follow q s).llk.rx = s.llk.rx ∧
    (follow q s).llk.answers = s.llk.answers ∧
    (follow q s).llk.restarting = s.llk.restarting ∧
    (follow q s).llk.silenceStart = s.llk.silenceStart ∧
    (follow q s).llk.silent = s.llk.silent ∧
    (follow q s).llk.tx = s.llk.tx ∧
    (follow q s).llk.opening = s.llk.opening ∧
    (follow q s).pfs = s.pfs ∧
    (follow q s).now = s.now ∧
    (follow q s).fresh = s.fresh ∧
    (follow q s).pending = s.pending := by
  unfold follow
  (try dsimp only)
  (repeat' split) <;> simp

@[simp] theorem sweepIfClear_frame (q : Pocket) (s : State) :
    (sweepIfClear q s).trk = s.trk ∧
    (sweepIfClear q s).pcm = s.pcm ∧
    (sweepIfClear q s).scu = s.scu ∧
    (sweepIfClear q s).mkf = s.mkf ∧
    (sweepIfClear q s).ptc = s.ptc ∧
    (sweepIfClear q s).can = s.can ∧
    (sweepIfClear q s).flc.line = s.flc.line ∧
    (sweepIfClear q s).flc.countdown = s.flc.countdown ∧
    (sweepIfClear q s).flc.fault = s.flc.fault ∧
    (sweepIfClear q s).flc.faultCount = s.flc.faultCount ∧
    (sweepIfClear q s).flc.cleanRun = s.flc.cleanRun ∧
    (sweepIfClear q s).flc.runUp = s.flc.runUp ∧
    (sweepIfClear q s).flc.runUpQual = s.flc.runUpQual ∧
    (sweepIfClear q s).flc.warmup = s.flc.warmup ∧
    (sweepIfClear q s).flc.drainLimit = s.flc.drainLimit ∧
    (sweepIfClear q s).flc.estop = s.flc.estop ∧
    (sweepIfClear q s).flc.horn = s.flc.horn ∧
    (sweepIfClear q s).cnb = s.cnb ∧
    (sweepIfClear q s).llk.rx = s.llk.rx ∧
    (sweepIfClear q s).llk.answers = s.llk.answers ∧
    (sweepIfClear q s).llk.restarting = s.llk.restarting ∧
    (sweepIfClear q s).llk.silenceStart = s.llk.silenceStart ∧
    (sweepIfClear q s).llk.silent = s.llk.silent ∧
    (sweepIfClear q s).llk.tx = s.llk.tx ∧
    (sweepIfClear q s).llk.opening = s.llk.opening ∧
    (sweepIfClear q s).pfs = s.pfs ∧
    (sweepIfClear q s).now = s.now ∧
    (sweepIfClear q s).fresh = s.fresh ∧
    (sweepIfClear q s).pending = s.pending := by
  unfold sweepIfClear
  (try dsimp only)
  (repeat' split) <;> simp

@[simp] theorem lowerCommitted_frame (q : Pocket) (s : State) :
    (lowerCommitted q s).trk = s.trk ∧
    (lowerCommitted q s).pcm = s.pcm ∧
    (lowerCommitted q s).scu = s.scu ∧
    (lowerCommitted q s).mkf = s.mkf ∧
    (lowerCommitted q s).ptc = s.ptc ∧
    (lowerCommitted q s).can = s.can ∧
    (lowerCommitted q s).pkc.blocked = s.pkc.blocked ∧
    (lowerCommitted q s).flc = s.flc ∧
    (lowerCommitted q s).cnb = s.cnb ∧
    (lowerCommitted q s).llk = s.llk ∧
    (lowerCommitted q s).pfs = s.pfs ∧
    (lowerCommitted q s).now = s.now ∧
    (lowerCommitted q s).fresh = s.fresh ∧
    (lowerCommitted q s).pending = s.pending := by
  unfold lowerCommitted
  (try dsimp only)
  (repeat' split) <;> simp

@[simp] theorem placeEntries_frame (n : LetterNo) (l : List (Gate × Setting)) (s : State) :
    (l.foldl (fun t ge => placeEntry ge.1 n ge.2 t) s).trk.belt = s.trk.belt ∧
    (l.foldl (fun t ge => placeEntry ge.1 n ge.2 t) s).trk.samples = s.trk.samples ∧
    (l.foldl (fun t ge => placeEntry ge.1 n ge.2 t) s).trk.speed = s.trk.speed ∧
    (l.foldl (fun t ge => placeEntry ge.1 n ge.2 t) s).trk.nextNumber = s.trk.nextNumber ∧
    (l.foldl (fun t ge => placeEntry ge.1 n ge.2 t) s).trk.prevTail = s.trk.prevTail ∧
    (l.foldl (fun t ge => placeEntry ge.1 n ge.2 t) s).pcm.cells = s.pcm.cells ∧
    (l.foldl (fun t ge => placeEntry ge.1 n ge.2 t) s).scu.calStart = s.scu.calStart ∧
    (l.foldl (fun t ge => placeEntry ge.1 n ge.2 t) s).scu.calDue = s.scu.calDue ∧
    (l.foldl (fun t ge => placeEntry ge.1 n ge.2 t) s).mkf.capture = s.mkf.capture ∧
    (l.foldl (fun t ge => placeEntry ge.1 n ge.2 t) s).ptc.merge = s.ptc.merge ∧
    (l.foldl (fun t ge => placeEntry ge.1 n ge.2 t) s).can.dater = s.can.dater ∧
    (l.foldl (fun t ge => placeEntry ge.1 n ge.2 t) s).pkc = s.pkc ∧
    (l.foldl (fun t ge => placeEntry ge.1 n ge.2 t) s).flc.countdown = s.flc.countdown ∧
    (l.foldl (fun t ge => placeEntry ge.1 n ge.2 t) s).flc.warmup = s.flc.warmup ∧
    (l.foldl (fun t ge => placeEntry ge.1 n ge.2 t) s).flc.estop = s.flc.estop ∧
    (l.foldl (fun t ge => placeEntry ge.1 n ge.2 t) s).cnb.remainder = s.cnb.remainder ∧
    (l.foldl (fun t ge => placeEntry ge.1 n ge.2 t) s).cnb.snap = s.cnb.snap ∧
    (l.foldl (fun t ge => placeEntry ge.1 n ge.2 t) s).cnb.records = s.cnb.records ∧
    (l.foldl (fun t ge => placeEntry ge.1 n ge.2 t) s).llk.rx = s.llk.rx ∧
    (l.foldl (fun t ge => placeEntry ge.1 n ge.2 t) s).llk.answers = s.llk.answers ∧
    (l.foldl (fun t ge => placeEntry ge.1 n ge.2 t) s).llk.restarting = s.llk.restarting ∧
    (l.foldl (fun t ge => placeEntry ge.1 n ge.2 t) s).llk.silenceStart = s.llk.silenceStart ∧
    (l.foldl (fun t ge => placeEntry ge.1 n ge.2 t) s).llk.silent = s.llk.silent ∧
    (l.foldl (fun t ge => placeEntry ge.1 n ge.2 t) s).llk.tx = s.llk.tx ∧
    (l.foldl (fun t ge => placeEntry ge.1 n ge.2 t) s).llk.opening = s.llk.opening ∧
    (l.foldl (fun t ge => placeEntry ge.1 n ge.2 t) s).pfs = s.pfs ∧
    (l.foldl (fun t ge => placeEntry ge.1 n ge.2 t) s).now = s.now ∧
    (l.foldl (fun t ge => placeEntry ge.1 n ge.2 t) s).fresh = s.fresh ∧
    (l.foldl (fun t ge => placeEntry ge.1 n ge.2 t) s).pending = s.pending :=
  ⟨foldl_frame _ (fun t => t.trk.belt) (fun a t => by simp) l s,
    foldl_frame _ (fun t => t.trk.samples) (fun a t => by simp) l s,
    foldl_frame _ (fun t => t.trk.speed) (fun a t => by simp) l s,
    foldl_frame _ (fun t => t.trk.nextNumber) (fun a t => by simp) l s,
    foldl_frame _ (fun t => t.trk.prevTail) (fun a t => by simp) l s,
    foldl_frame _ (fun t => t.pcm.cells) (fun a t => by simp) l s,
    foldl_frame _ (fun t => t.scu.calStart) (fun a t => by simp) l s,
    foldl_frame _ (fun t => t.scu.calDue) (fun a t => by simp) l s,
    foldl_frame _ (fun t => t.mkf.capture) (fun a t => by simp) l s,
    foldl_frame _ (fun t => t.ptc.merge) (fun a t => by simp) l s,
    foldl_frame _ (fun t => t.can.dater) (fun a t => by simp) l s,
    foldl_frame _ (fun t => t.pkc) (fun a t => by simp) l s,
    foldl_frame _ (fun t => t.flc.countdown) (fun a t => by simp) l s,
    foldl_frame _ (fun t => t.flc.warmup) (fun a t => by simp) l s,
    foldl_frame _ (fun t => t.flc.estop) (fun a t => by simp) l s,
    foldl_frame _ (fun t => t.cnb.remainder) (fun a t => by simp) l s,
    foldl_frame _ (fun t => t.cnb.snap) (fun a t => by simp) l s,
    foldl_frame _ (fun t => t.cnb.records) (fun a t => by simp) l s,
    foldl_frame _ (fun t => t.llk.rx) (fun a t => by simp) l s,
    foldl_frame _ (fun t => t.llk.answers) (fun a t => by simp) l s,
    foldl_frame _ (fun t => t.llk.restarting) (fun a t => by simp) l s,
    foldl_frame _ (fun t => t.llk.silenceStart) (fun a t => by simp) l s,
    foldl_frame _ (fun t => t.llk.silent) (fun a t => by simp) l s,
    foldl_frame _ (fun t => t.llk.tx) (fun a t => by simp) l s,
    foldl_frame _ (fun t => t.llk.opening) (fun a t => by simp) l s,
    foldl_frame _ (fun t => t.pfs) (fun a t => by simp) l s,
    foldl_frame _ (fun t => t.now) (fun a t => by simp) l s,
    foldl_frame _ (fun t => t.fresh) (fun a t => by simp) l s,
    foldl_frame _ (fun t => t.pending) (fun a t => by simp) l s⟩

@[simp] theorem commit_frame (n : LetterNo) (q : Pocket) (entries : List (Gate × Setting)) (s : State) :
    (commit n q entries s).trk.belt = s.trk.belt ∧
    (commit n q entries s).trk.samples = s.trk.samples ∧
    (commit n q entries s).trk.speed = s.trk.speed ∧
    (commit n q entries s).trk.nextNumber = s.trk.nextNumber ∧
    (commit n q entries s).trk.prevTail = s.trk.prevTail ∧
    (commit n q entries s).pcm.cells = s.pcm.cells ∧
    (commit n q entries s).scu.calStart = s.scu.calStart ∧
    (commit n q entries s).scu.calDue = s.scu.calDue ∧
    (commit n q entries s).mkf.capture = s.mkf.capture ∧
    (commit n q entries s).ptc.merge = s.ptc.merge ∧
    (commit n q entries s).can.dater = s.can.dater ∧
    (commit n q entries s).pkc.blocked = s.pkc.blocked ∧
    (commit n q entries s).flc.countdown = s.flc.countdown ∧
    (commit n q entries s).flc.warmup = s.flc.warmup ∧
    (commit n q entries s).flc.estop = s.flc.estop ∧
    (commit n q entries s).cnb.remainder = s.cnb.remainder ∧
    (commit n q entries s).cnb.snap = s.cnb.snap ∧
    (commit n q entries s).cnb.records = s.cnb.records ∧
    (commit n q entries s).llk.rx = s.llk.rx ∧
    (commit n q entries s).llk.answers = s.llk.answers ∧
    (commit n q entries s).llk.restarting = s.llk.restarting ∧
    (commit n q entries s).llk.silenceStart = s.llk.silenceStart ∧
    (commit n q entries s).llk.silent = s.llk.silent ∧
    (commit n q entries s).llk.tx = s.llk.tx ∧
    (commit n q entries s).llk.opening = s.llk.opening ∧
    (commit n q entries s).pfs = s.pfs ∧
    (commit n q entries s).now = s.now ∧
    (commit n q entries s).fresh = s.fresh ∧
    (commit n q entries s).pending = s.pending := by
  unfold commit
  (try dsimp only)
  (repeat' split) <;> simp

@[simp] theorem selectAct_frame (n : LetterNo) (s : State) :
    (selectAct n s).trk.belt = s.trk.belt ∧
    (selectAct n s).trk.samples = s.trk.samples ∧
    (selectAct n s).trk.speed = s.trk.speed ∧
    (selectAct n s).trk.nextNumber = s.trk.nextNumber ∧
    (selectAct n s).trk.prevTail = s.trk.prevTail ∧
    (selectAct n s).pcm.cells = s.pcm.cells ∧
    (selectAct n s).scu.calStart = s.scu.calStart ∧
    (selectAct n s).scu.calDue = s.scu.calDue ∧
    (selectAct n s).mkf.capture = s.mkf.capture ∧
    (selectAct n s).ptc.merge = s.ptc.merge ∧
    (selectAct n s).can.dater = s.can.dater ∧
    (selectAct n s).pkc.blocked = s.pkc.blocked ∧
    (selectAct n s).flc.countdown = s.flc.countdown ∧
    (selectAct n s).flc.warmup = s.flc.warmup ∧
    (selectAct n s).flc.estop = s.flc.estop ∧
    (selectAct n s).cnb.remainder = s.cnb.remainder ∧
    (selectAct n s).cnb.snap = s.cnb.snap ∧
    (selectAct n s).cnb.records = s.cnb.records ∧
    (selectAct n s).llk.rx = s.llk.rx ∧
    (selectAct n s).llk.answers = s.llk.answers ∧
    (selectAct n s).llk.restarting = s.llk.restarting ∧
    (selectAct n s).llk.silenceStart = s.llk.silenceStart ∧
    (selectAct n s).llk.silent = s.llk.silent ∧
    (selectAct n s).llk.tx = s.llk.tx ∧
    (selectAct n s).llk.opening = s.llk.opening ∧
    (selectAct n s).pfs = s.pfs ∧
    (selectAct n s).now = s.now ∧
    (selectAct n s).fresh = s.fresh ∧
    (selectAct n s).pending = s.pending := by
  unfold selectAct
  (try dsimp only)
  (repeat' split) <;> simp

@[simp] theorem sweepComplete_frame (q : Pocket) (s : State) :
    (sweepComplete q s).trk = s.trk ∧
    (sweepComplete q s).pcm = s.pcm ∧
    (sweepComplete q s).scu = s.scu ∧
    (sweepComplete q s).mkf = s.mkf ∧
    (sweepComplete q s).ptc = s.ptc ∧
    (sweepComplete q s).can = s.can ∧
    (sweepComplete q s).flc.line = s.flc.line ∧
    (sweepComplete q s).flc.countdown = s.flc.countdown ∧
    (sweepComplete q s).flc.fault = s.flc.fault ∧
    (sweepComplete q s).flc.faultCount = s.flc.faultCount ∧
    (sweepComplete q s).flc.cleanRun = s.flc.cleanRun ∧
    (sweepComplete q s).flc.runUp = s.flc.runUp ∧
    (sweepComplete q s).flc.runUpQual = s.flc.runUpQual ∧
    (sweepComplete q s).flc.warmup = s.flc.warmup ∧
    (sweepComplete q s).flc.drainLimit = s.flc.drainLimit ∧
    (sweepComplete q s).flc.estop = s.flc.estop ∧
    (sweepComplete q s).flc.horn = s.flc.horn ∧
    (sweepComplete q s).cnb = s.cnb ∧
    (sweepComplete q s).llk.rx = s.llk.rx ∧
    (sweepComplete q s).llk.answers = s.llk.answers ∧
    (sweepComplete q s).llk.restarting = s.llk.restarting ∧
    (sweepComplete q s).llk.silenceStart = s.llk.silenceStart ∧
    (sweepComplete q s).llk.silent = s.llk.silent ∧
    (sweepComplete q s).llk.tx = s.llk.tx ∧
    (sweepComplete q s).llk.opening = s.llk.opening ∧
    (sweepComplete q s).pfs = s.pfs ∧
    (sweepComplete q s).now = s.now ∧
    (sweepComplete q s).fresh = s.fresh ∧
    (sweepComplete q s).pending = s.pending := by
  unfold sweepComplete
  (try dsimp only)
  (repeat' split) <;> simp

@[simp] theorem longPress_frame (q : Pocket) (s : State) :
    (longPress q s).trk = s.trk ∧
    (longPress q s).pcm = s.pcm ∧
    (longPress q s).scu = s.scu ∧
    (longPress q s).mkf = s.mkf ∧
    (longPress q s).ptc = s.ptc ∧
    (longPress q s).can = s.can ∧
    (longPress q s).flc.line = s.flc.line ∧
    (longPress q s).flc.countdown = s.flc.countdown ∧
    (longPress q s).flc.fault = s.flc.fault ∧
    (longPress q s).flc.faultCount = s.flc.faultCount ∧
    (longPress q s).flc.cleanRun = s.flc.cleanRun ∧
    (longPress q s).flc.runUp = s.flc.runUp ∧
    (longPress q s).flc.runUpQual = s.flc.runUpQual ∧
    (longPress q s).flc.warmup = s.flc.warmup ∧
    (longPress q s).flc.drainLimit = s.flc.drainLimit ∧
    (longPress q s).flc.estop = s.flc.estop ∧
    (longPress q s).flc.horn = s.flc.horn ∧
    (longPress q s).cnb = s.cnb ∧
    (longPress q s).llk.rx = s.llk.rx ∧
    (longPress q s).llk.answers = s.llk.answers ∧
    (longPress q s).llk.restarting = s.llk.restarting ∧
    (longPress q s).llk.silenceStart = s.llk.silenceStart ∧
    (longPress q s).llk.silent = s.llk.silent ∧
    (longPress q s).llk.tx = s.llk.tx ∧
    (longPress q s).llk.opening = s.llk.opening ∧
    (longPress q s).pfs = s.pfs ∧
    (longPress q s).now = s.now ∧
    (longPress q s).fresh = s.fresh ∧
    (longPress q s).pending = s.pending := by
  unfold longPress
  (try dsimp only)
  (repeat' split) <;> simp

@[simp] theorem shortPress_frame (q : Pocket) (s : State) :
    (shortPress q s).trk = s.trk ∧
    (shortPress q s).pcm = s.pcm ∧
    (shortPress q s).scu = s.scu ∧
    (shortPress q s).mkf = s.mkf ∧
    (shortPress q s).ptc = s.ptc ∧
    (shortPress q s).can = s.can ∧
    (shortPress q s).flc.line = s.flc.line ∧
    (shortPress q s).flc.countdown = s.flc.countdown ∧
    (shortPress q s).flc.fault = s.flc.fault ∧
    (shortPress q s).flc.faultCount = s.flc.faultCount ∧
    (shortPress q s).flc.cleanRun = s.flc.cleanRun ∧
    (shortPress q s).flc.runUp = s.flc.runUp ∧
    (shortPress q s).flc.runUpQual = s.flc.runUpQual ∧
    (shortPress q s).flc.warmup = s.flc.warmup ∧
    (shortPress q s).flc.drainLimit = s.flc.drainLimit ∧
    (shortPress q s).flc.estop = s.flc.estop ∧
    (shortPress q s).flc.horn = s.flc.horn ∧
    (shortPress q s).cnb = s.cnb ∧
    (shortPress q s).llk.rx = s.llk.rx ∧
    (shortPress q s).llk.answers = s.llk.answers ∧
    (shortPress q s).llk.restarting = s.llk.restarting ∧
    (shortPress q s).llk.silenceStart = s.llk.silenceStart ∧
    (shortPress q s).llk.silent = s.llk.silent ∧
    (shortPress q s).llk.tx = s.llk.tx ∧
    (shortPress q s).llk.opening = s.llk.opening ∧
    (shortPress q s).pfs = s.pfs ∧
    (shortPress q s).now = s.now ∧
    (shortPress q s).fresh = s.fresh ∧
    (shortPress q s).pending = s.pending := by
  unfold shortPress sweepRequest
  (repeat' split) <;> simp

@[simp] theorem pressAct_frame (q : Pocket) (d : Nat) (s : State) :
    (pressAct q d s).trk = s.trk ∧
    (pressAct q d s).pcm = s.pcm ∧
    (pressAct q d s).scu = s.scu ∧
    (pressAct q d s).mkf = s.mkf ∧
    (pressAct q d s).ptc = s.ptc ∧
    (pressAct q d s).can = s.can ∧
    (pressAct q d s).flc.line = s.flc.line ∧
    (pressAct q d s).flc.countdown = s.flc.countdown ∧
    (pressAct q d s).flc.fault = s.flc.fault ∧
    (pressAct q d s).flc.faultCount = s.flc.faultCount ∧
    (pressAct q d s).flc.cleanRun = s.flc.cleanRun ∧
    (pressAct q d s).flc.runUp = s.flc.runUp ∧
    (pressAct q d s).flc.runUpQual = s.flc.runUpQual ∧
    (pressAct q d s).flc.warmup = s.flc.warmup ∧
    (pressAct q d s).flc.drainLimit = s.flc.drainLimit ∧
    (pressAct q d s).flc.estop = s.flc.estop ∧
    (pressAct q d s).flc.horn = s.flc.horn ∧
    (pressAct q d s).cnb = s.cnb ∧
    (pressAct q d s).llk.rx = s.llk.rx ∧
    (pressAct q d s).llk.answers = s.llk.answers ∧
    (pressAct q d s).llk.restarting = s.llk.restarting ∧
    (pressAct q d s).llk.silenceStart = s.llk.silenceStart ∧
    (pressAct q d s).llk.silent = s.llk.silent ∧
    (pressAct q d s).llk.tx = s.llk.tx ∧
    (pressAct q d s).llk.opening = s.llk.opening ∧
    (pressAct q d s).pfs = s.pfs ∧
    (pressAct q d s).now = s.now ∧
    (pressAct q d s).fresh = s.fresh ∧
    (pressAct q d s).pending = s.pending := by
  unfold pressAct
  (try dsimp only)
  (repeat' split) <;> simp

@[simp] theorem induct_frame (a : Pos) (s : State) :
    (induct a s).trk.belt = s.trk.belt ∧
    (induct a s).trk.samples = s.trk.samples ∧
    (induct a s).trk.speed = s.trk.speed ∧
    (induct a s).trk.prevTail = s.trk.prevTail ∧
    (induct a s).pcm.cells = s.pcm.cells ∧
    (induct a s).scu.calStart = s.scu.calStart ∧
    (induct a s).scu.calDue = s.scu.calDue ∧
    (induct a s).mkf.capture = s.mkf.capture ∧
    (induct a s).ptc.merge = s.ptc.merge ∧
    (induct a s).can.dater = s.can.dater ∧
    (induct a s).pkc = s.pkc ∧
    (induct a s).flc.countdown = s.flc.countdown ∧
    (induct a s).flc.warmup = s.flc.warmup ∧
    (induct a s).flc.estop = s.flc.estop ∧
    (induct a s).cnb.remainder = s.cnb.remainder ∧
    (induct a s).cnb.snap = s.cnb.snap ∧
    (induct a s).cnb.records = s.cnb.records ∧
    (induct a s).llk.rx = s.llk.rx ∧
    (induct a s).llk.answers = s.llk.answers ∧
    (induct a s).llk.restarting = s.llk.restarting ∧
    (induct a s).llk.silenceStart = s.llk.silenceStart ∧
    (induct a s).llk.silent = s.llk.silent ∧
    (induct a s).llk.tx = s.llk.tx ∧
    (induct a s).llk.opening = s.llk.opening ∧
    (induct a s).pfs = s.pfs ∧
    (induct a s).now = s.now ∧
    (induct a s).fresh = s.fresh ∧
    (induct a s).pending = s.pending := by
  unfold induct
  (try dsimp only)
  (repeat' split) <;> simp

@[simp] theorem pe0Tail_frame (n : LetterNo) (tail : Pos) (s : State) :
    (pe0Tail n tail s).trk.belt = s.trk.belt ∧
    (pe0Tail n tail s).trk.samples = s.trk.samples ∧
    (pe0Tail n tail s).trk.speed = s.trk.speed ∧
    (pe0Tail n tail s).trk.nextNumber = s.trk.nextNumber ∧
    (pe0Tail n tail s).pcm = s.pcm ∧
    (pe0Tail n tail s).scu = s.scu ∧
    (pe0Tail n tail s).mkf = s.mkf ∧
    (pe0Tail n tail s).ptc = s.ptc ∧
    (pe0Tail n tail s).can = s.can ∧
    (pe0Tail n tail s).pkc = s.pkc ∧
    (pe0Tail n tail s).flc = s.flc ∧
    (pe0Tail n tail s).cnb.remainder = s.cnb.remainder ∧
    (pe0Tail n tail s).cnb.snap = s.cnb.snap ∧
    (pe0Tail n tail s).cnb.records = s.cnb.records ∧
    (pe0Tail n tail s).llk = s.llk ∧
    (pe0Tail n tail s).pfs = s.pfs ∧
    (pe0Tail n tail s).now = s.now ∧
    (pe0Tail n tail s).fresh = s.fresh ∧
    (pe0Tail n tail s).pending = s.pending := by
  unfold pe0Tail
  (try dsimp only)
  (repeat' split) <;> simp

@[simp] theorem gatesRemoved_frame (n : LetterNo) (l : List Gate) (s : State) :
    (l.foldl (gateRemoved n) s).trk = s.trk ∧
    (l.foldl (gateRemoved n) s).pcm = s.pcm ∧
    (l.foldl (gateRemoved n) s).scu = s.scu ∧
    (l.foldl (gateRemoved n) s).mkf = s.mkf ∧
    (l.foldl (gateRemoved n) s).ptc.merge = s.ptc.merge ∧
    (l.foldl (gateRemoved n) s).can = s.can ∧
    (l.foldl (gateRemoved n) s).pkc = s.pkc ∧
    (l.foldl (gateRemoved n) s).flc = s.flc ∧
    (l.foldl (gateRemoved n) s).cnb = s.cnb ∧
    (l.foldl (gateRemoved n) s).llk = s.llk ∧
    (l.foldl (gateRemoved n) s).pfs = s.pfs ∧
    (l.foldl (gateRemoved n) s).now = s.now ∧
    (l.foldl (gateRemoved n) s).fresh = s.fresh ∧
    (l.foldl (gateRemoved n) s).pending = s.pending :=
  ⟨foldl_frame _ (fun t => t.trk) (fun a t => by simp) l s,
    foldl_frame _ (fun t => t.pcm) (fun a t => by simp) l s,
    foldl_frame _ (fun t => t.scu) (fun a t => by simp) l s,
    foldl_frame _ (fun t => t.mkf) (fun a t => by simp) l s,
    foldl_frame _ (fun t => t.ptc.merge) (fun a t => by simp) l s,
    foldl_frame _ (fun t => t.can) (fun a t => by simp) l s,
    foldl_frame _ (fun t => t.pkc) (fun a t => by simp) l s,
    foldl_frame _ (fun t => t.flc) (fun a t => by simp) l s,
    foldl_frame _ (fun t => t.cnb) (fun a t => by simp) l s,
    foldl_frame _ (fun t => t.llk) (fun a t => by simp) l s,
    foldl_frame _ (fun t => t.pfs) (fun a t => by simp) l s,
    foldl_frame _ (fun t => t.now) (fun a t => by simp) l s,
    foldl_frame _ (fun t => t.fresh) (fun a t => by simp) l s,
    foldl_frame _ (fun t => t.pending) (fun a t => by simp) l s⟩

@[simp] theorem removeEntry_frame (n : LetterNo) (s : State) :
    (removeEntry n s).trk.belt = s.trk.belt ∧
    (removeEntry n s).trk.samples = s.trk.samples ∧
    (removeEntry n s).trk.speed = s.trk.speed ∧
    (removeEntry n s).trk.nextNumber = s.trk.nextNumber ∧
    (removeEntry n s).trk.measuring = s.trk.measuring ∧
    (removeEntry n s).trk.overTaken = s.trk.overTaken ∧
    (removeEntry n s).trk.prevTail = s.trk.prevTail ∧
    (removeEntry n s).pcm.cells = s.pcm.cells ∧
    (removeEntry n s).scu.bufs = s.scu.bufs ∧
    (removeEntry n s).mkf = s.mkf ∧
    (removeEntry n s).ptc.merge = s.ptc.merge ∧
    (removeEntry n s).can.dater = s.can.dater ∧
    (removeEntry n s).pkc = s.pkc ∧
    (removeEntry n s).flc.line = s.flc.line ∧
    (removeEntry n s).flc.countdown = s.flc.countdown ∧
    (removeEntry n s).flc.fault = s.flc.fault ∧
    (removeEntry n s).flc.faultCount = s.flc.faultCount ∧
    (removeEntry n s).flc.cleanRun = s.flc.cleanRun ∧
    (removeEntry n s).flc.runUp = s.flc.runUp ∧
    (removeEntry n s).flc.runUpQual = s.flc.runUpQual ∧
    (removeEntry n s).flc.warmup = s.flc.warmup ∧
    (removeEntry n s).flc.drainLimit = s.flc.drainLimit ∧
    (removeEntry n s).flc.estop = s.flc.estop ∧
    (removeEntry n s).flc.horn = s.flc.horn ∧
    (removeEntry n s).cnb = s.cnb ∧
    (removeEntry n s).llk.rx = s.llk.rx ∧
    (removeEntry n s).llk.answers = s.llk.answers ∧
    (removeEntry n s).llk.restarting = s.llk.restarting ∧
    (removeEntry n s).llk.silenceStart = s.llk.silenceStart ∧
    (removeEntry n s).llk.silent = s.llk.silent ∧
    (removeEntry n s).llk.tx = s.llk.tx ∧
    (removeEntry n s).llk.opening = s.llk.opening ∧
    (removeEntry n s).pfs = s.pfs ∧
    (removeEntry n s).now = s.now ∧
    (removeEntry n s).fresh = s.fresh ∧
    (removeEntry n s).pending = s.pending := by
  unfold removeEntry
  (try dsimp only)
  (repeat' split) <;> simp

@[simp] theorem cleanRunCount_frame (q : Pocket) (s : State) :
    (cleanRunCount q s).trk = s.trk ∧
    (cleanRunCount q s).pcm = s.pcm ∧
    (cleanRunCount q s).scu = s.scu ∧
    (cleanRunCount q s).mkf = s.mkf ∧
    (cleanRunCount q s).ptc = s.ptc ∧
    (cleanRunCount q s).can = s.can ∧
    (cleanRunCount q s).pkc = s.pkc ∧
    (cleanRunCount q s).flc.line = s.flc.line ∧
    (cleanRunCount q s).flc.holds = s.flc.holds ∧
    (cleanRunCount q s).flc.countdown = s.flc.countdown ∧
    (cleanRunCount q s).flc.fault = s.flc.fault ∧
    (cleanRunCount q s).flc.runUp = s.flc.runUp ∧
    (cleanRunCount q s).flc.runUpQual = s.flc.runUpQual ∧
    (cleanRunCount q s).flc.warmup = s.flc.warmup ∧
    (cleanRunCount q s).flc.drainLimit = s.flc.drainLimit ∧
    (cleanRunCount q s).flc.estop = s.flc.estop ∧
    (cleanRunCount q s).flc.horn = s.flc.horn ∧
    (cleanRunCount q s).cnb = s.cnb ∧
    (cleanRunCount q s).llk = s.llk ∧
    (cleanRunCount q s).pfs = s.pfs ∧
    (cleanRunCount q s).now = s.now ∧
    (cleanRunCount q s).fresh = s.fresh ∧
    (cleanRunCount q s).pending = s.pending := by
  unfold cleanRunCount
  (try dsimp only)
  (repeat' split) <;> simp

@[simp] theorem stackAct_frame (n : LetterNo) (s : State) :
    (stackAct n s).trk.belt = s.trk.belt ∧
    (stackAct n s).trk.samples = s.trk.samples ∧
    (stackAct n s).trk.speed = s.trk.speed ∧
    (stackAct n s).trk.nextNumber = s.trk.nextNumber ∧
    (stackAct n s).trk.measuring = s.trk.measuring ∧
    (stackAct n s).trk.overTaken = s.trk.overTaken ∧
    (stackAct n s).trk.prevTail = s.trk.prevTail ∧
    (stackAct n s).pcm.cells = s.pcm.cells ∧
    (stackAct n s).scu.bufs = s.scu.bufs ∧
    (stackAct n s).mkf = s.mkf ∧
    (stackAct n s).ptc.merge = s.ptc.merge ∧
    (stackAct n s).can.dater = s.can.dater ∧
    (stackAct n s).flc.line = s.flc.line ∧
    (stackAct n s).flc.countdown = s.flc.countdown ∧
    (stackAct n s).flc.fault = s.flc.fault ∧
    (stackAct n s).flc.runUp = s.flc.runUp ∧
    (stackAct n s).flc.runUpQual = s.flc.runUpQual ∧
    (stackAct n s).flc.warmup = s.flc.warmup ∧
    (stackAct n s).flc.drainLimit = s.flc.drainLimit ∧
    (stackAct n s).flc.estop = s.flc.estop ∧
    (stackAct n s).flc.horn = s.flc.horn ∧
    (stackAct n s).cnb.remainder = s.cnb.remainder ∧
    (stackAct n s).cnb.snap = s.cnb.snap ∧
    (stackAct n s).llk.rx = s.llk.rx ∧
    (stackAct n s).llk.answers = s.llk.answers ∧
    (stackAct n s).llk.restarting = s.llk.restarting ∧
    (stackAct n s).llk.silenceStart = s.llk.silenceStart ∧
    (stackAct n s).llk.silent = s.llk.silent ∧
    (stackAct n s).llk.tx = s.llk.tx ∧
    (stackAct n s).llk.opening = s.llk.opening ∧
    (stackAct n s).pfs = s.pfs ∧
    (stackAct n s).now = s.now ∧
    (stackAct n s).fresh = s.fresh ∧
    (stackAct n s).pending = s.pending := by
  unfold stackAct
  (try dsimp only)
  (repeat' split) <;> simp

@[simp] theorem clearEntry_frame (s : State) (e : Entry) :
    (clearEntry s e).trk.belt = s.trk.belt ∧
    (clearEntry s e).trk.samples = s.trk.samples ∧
    (clearEntry s e).trk.speed = s.trk.speed ∧
    (clearEntry s e).trk.nextNumber = s.trk.nextNumber ∧
    (clearEntry s e).trk.measuring = s.trk.measuring ∧
    (clearEntry s e).trk.overTaken = s.trk.overTaken ∧
    (clearEntry s e).trk.prevTail = s.trk.prevTail ∧
    (clearEntry s e).pcm.cells = s.pcm.cells ∧
    (clearEntry s e).scu.bufs = s.scu.bufs ∧
    (clearEntry s e).mkf = s.mkf ∧
    (clearEntry s e).ptc.merge = s.ptc.merge ∧
    (clearEntry s e).can.dater = s.can.dater ∧
    (clearEntry s e).flc.line = s.flc.line ∧
    (clearEntry s e).flc.countdown = s.flc.countdown ∧
    (clearEntry s e).flc.fault = s.flc.fault ∧
    (clearEntry s e).flc.faultCount = s.flc.faultCount ∧
    (clearEntry s e).flc.cleanRun = s.flc.cleanRun ∧
    (clearEntry s e).flc.runUp = s.flc.runUp ∧
    (clearEntry s e).flc.runUpQual = s.flc.runUpQual ∧
    (clearEntry s e).flc.warmup = s.flc.warmup ∧
    (clearEntry s e).flc.drainLimit = s.flc.drainLimit ∧
    (clearEntry s e).flc.estop = s.flc.estop ∧
    (clearEntry s e).flc.horn = s.flc.horn ∧
    (clearEntry s e).cnb.remainder = s.cnb.remainder ∧
    (clearEntry s e).cnb.snap = s.cnb.snap ∧
    (clearEntry s e).llk.rx = s.llk.rx ∧
    (clearEntry s e).llk.answers = s.llk.answers ∧
    (clearEntry s e).llk.restarting = s.llk.restarting ∧
    (clearEntry s e).llk.silenceStart = s.llk.silenceStart ∧
    (clearEntry s e).llk.silent = s.llk.silent ∧
    (clearEntry s e).llk.tx = s.llk.tx ∧
    (clearEntry s e).llk.opening = s.llk.opening ∧
    (clearEntry s e).pfs = s.pfs ∧
    (clearEntry s e).now = s.now ∧
    (clearEntry s e).fresh = s.fresh ∧
    (clearEntry s e).pending = s.pending := by
  unfold clearEntry
  (try dsimp only)
  (repeat' split) <;> simp

@[simp] theorem clearEntries_frame (l : List Entry) (s : State) :
    (l.foldl clearEntry s).trk.belt = s.trk.belt ∧
    (l.foldl clearEntry s).trk.samples = s.trk.samples ∧
    (l.foldl clearEntry s).trk.speed = s.trk.speed ∧
    (l.foldl clearEntry s).trk.nextNumber = s.trk.nextNumber ∧
    (l.foldl clearEntry s).trk.measuring = s.trk.measuring ∧
    (l.foldl clearEntry s).trk.overTaken = s.trk.overTaken ∧
    (l.foldl clearEntry s).trk.prevTail = s.trk.prevTail ∧
    (l.foldl clearEntry s).pcm.cells = s.pcm.cells ∧
    (l.foldl clearEntry s).scu.bufs = s.scu.bufs ∧
    (l.foldl clearEntry s).mkf = s.mkf ∧
    (l.foldl clearEntry s).ptc.merge = s.ptc.merge ∧
    (l.foldl clearEntry s).can.dater = s.can.dater ∧
    (l.foldl clearEntry s).flc.line = s.flc.line ∧
    (l.foldl clearEntry s).flc.countdown = s.flc.countdown ∧
    (l.foldl clearEntry s).flc.fault = s.flc.fault ∧
    (l.foldl clearEntry s).flc.faultCount = s.flc.faultCount ∧
    (l.foldl clearEntry s).flc.cleanRun = s.flc.cleanRun ∧
    (l.foldl clearEntry s).flc.runUp = s.flc.runUp ∧
    (l.foldl clearEntry s).flc.runUpQual = s.flc.runUpQual ∧
    (l.foldl clearEntry s).flc.warmup = s.flc.warmup ∧
    (l.foldl clearEntry s).flc.drainLimit = s.flc.drainLimit ∧
    (l.foldl clearEntry s).flc.estop = s.flc.estop ∧
    (l.foldl clearEntry s).flc.horn = s.flc.horn ∧
    (l.foldl clearEntry s).cnb.remainder = s.cnb.remainder ∧
    (l.foldl clearEntry s).cnb.snap = s.cnb.snap ∧
    (l.foldl clearEntry s).llk.rx = s.llk.rx ∧
    (l.foldl clearEntry s).llk.answers = s.llk.answers ∧
    (l.foldl clearEntry s).llk.restarting = s.llk.restarting ∧
    (l.foldl clearEntry s).llk.silenceStart = s.llk.silenceStart ∧
    (l.foldl clearEntry s).llk.silent = s.llk.silent ∧
    (l.foldl clearEntry s).llk.tx = s.llk.tx ∧
    (l.foldl clearEntry s).llk.opening = s.llk.opening ∧
    (l.foldl clearEntry s).pfs = s.pfs ∧
    (l.foldl clearEntry s).now = s.now ∧
    (l.foldl clearEntry s).fresh = s.fresh ∧
    (l.foldl clearEntry s).pending = s.pending :=
  ⟨foldl_frame _ (fun t => t.trk.belt) (fun a t => by simp) l s,
    foldl_frame _ (fun t => t.trk.samples) (fun a t => by simp) l s,
    foldl_frame _ (fun t => t.trk.speed) (fun a t => by simp) l s,
    foldl_frame _ (fun t => t.trk.nextNumber) (fun a t => by simp) l s,
    foldl_frame _ (fun t => t.trk.measuring) (fun a t => by simp) l s,
    foldl_frame _ (fun t => t.trk.overTaken) (fun a t => by simp) l s,
    foldl_frame _ (fun t => t.trk.prevTail) (fun a t => by simp) l s,
    foldl_frame _ (fun t => t.pcm.cells) (fun a t => by simp) l s,
    foldl_frame _ (fun t => t.scu.bufs) (fun a t => by simp) l s,
    foldl_frame _ (fun t => t.mkf) (fun a t => by simp) l s,
    foldl_frame _ (fun t => t.ptc.merge) (fun a t => by simp) l s,
    foldl_frame _ (fun t => t.can.dater) (fun a t => by simp) l s,
    foldl_frame _ (fun t => t.flc.line) (fun a t => by simp) l s,
    foldl_frame _ (fun t => t.flc.countdown) (fun a t => by simp) l s,
    foldl_frame _ (fun t => t.flc.fault) (fun a t => by simp) l s,
    foldl_frame _ (fun t => t.flc.faultCount) (fun a t => by simp) l s,
    foldl_frame _ (fun t => t.flc.cleanRun) (fun a t => by simp) l s,
    foldl_frame _ (fun t => t.flc.runUp) (fun a t => by simp) l s,
    foldl_frame _ (fun t => t.flc.runUpQual) (fun a t => by simp) l s,
    foldl_frame _ (fun t => t.flc.warmup) (fun a t => by simp) l s,
    foldl_frame _ (fun t => t.flc.drainLimit) (fun a t => by simp) l s,
    foldl_frame _ (fun t => t.flc.estop) (fun a t => by simp) l s,
    foldl_frame _ (fun t => t.flc.horn) (fun a t => by simp) l s,
    foldl_frame _ (fun t => t.cnb.remainder) (fun a t => by simp) l s,
    foldl_frame _ (fun t => t.cnb.snap) (fun a t => by simp) l s,
    foldl_frame _ (fun t => t.llk.rx) (fun a t => by simp) l s,
    foldl_frame _ (fun t => t.llk.answers) (fun a t => by simp) l s,
    foldl_frame _ (fun t => t.llk.restarting) (fun a t => by simp) l s,
    foldl_frame _ (fun t => t.llk.silenceStart) (fun a t => by simp) l s,
    foldl_frame _ (fun t => t.llk.silent) (fun a t => by simp) l s,
    foldl_frame _ (fun t => t.llk.tx) (fun a t => by simp) l s,
    foldl_frame _ (fun t => t.llk.opening) (fun a t => by simp) l s,
    foldl_frame _ (fun t => t.pfs) (fun a t => by simp) l s,
    foldl_frame _ (fun t => t.now) (fun a t => by simp) l s,
    foldl_frame _ (fun t => t.fresh) (fun a t => by simp) l s,
    foldl_frame _ (fun t => t.pending) (fun a t => by simp) l s⟩

@[simp] theorem lineClearing_frame (s : State) :
    (lineClearing s).trk.belt = s.trk.belt ∧
    (lineClearing s).trk.samples = s.trk.samples ∧
    (lineClearing s).trk.speed = s.trk.speed ∧
    (lineClearing s).trk.nextNumber = s.trk.nextNumber ∧
    (lineClearing s).trk.measuring = s.trk.measuring ∧
    (lineClearing s).trk.overTaken = s.trk.overTaken ∧
    (lineClearing s).trk.prevTail = s.trk.prevTail ∧
    (lineClearing s).pcm.cells = s.pcm.cells ∧
    (lineClearing s).scu.bufs = s.scu.bufs ∧
    (lineClearing s).mkf = s.mkf ∧
    (lineClearing s).ptc.merge = s.ptc.merge ∧
    (lineClearing s).can.dater = s.can.dater ∧
    (lineClearing s).flc.countdown = s.flc.countdown ∧
    (lineClearing s).flc.faultCount = s.flc.faultCount ∧
    (lineClearing s).flc.cleanRun = s.flc.cleanRun ∧
    (lineClearing s).flc.runUp = s.flc.runUp ∧
    (lineClearing s).flc.runUpQual = s.flc.runUpQual ∧
    (lineClearing s).flc.warmup = s.flc.warmup ∧
    (lineClearing s).flc.drainLimit = s.flc.drainLimit ∧
    (lineClearing s).flc.estop = s.flc.estop ∧
    (lineClearing s).flc.horn = s.flc.horn ∧
    (lineClearing s).cnb.remainder = s.cnb.remainder ∧
    (lineClearing s).cnb.snap = s.cnb.snap ∧
    (lineClearing s).llk.rx = s.llk.rx ∧
    (lineClearing s).llk.answers = s.llk.answers ∧
    (lineClearing s).llk.restarting = s.llk.restarting ∧
    (lineClearing s).llk.silenceStart = s.llk.silenceStart ∧
    (lineClearing s).llk.silent = s.llk.silent ∧
    (lineClearing s).llk.tx = s.llk.tx ∧
    (lineClearing s).llk.opening = s.llk.opening ∧
    (lineClearing s).pfs = s.pfs ∧
    (lineClearing s).now = s.now ∧
    (lineClearing s).fresh = s.fresh ∧
    (lineClearing s).pending = s.pending := by
  unfold lineClearing
  (try dsimp only)
  (repeat' split) <;> simp

@[simp] theorem updJob_frame (n : LetterNo) (f : CancelJob → CancelJob) (s : State) :
    (updJob n f s).trk.belt = s.trk.belt ∧
    (updJob n f s).trk.samples = s.trk.samples ∧
    (updJob n f s).trk.speed = s.trk.speed ∧
    (updJob n f s).trk.nextNumber = s.trk.nextNumber ∧
    (updJob n f s).trk.measuring = s.trk.measuring ∧
    (updJob n f s).trk.overTaken = s.trk.overTaken ∧
    (updJob n f s).trk.prevTail = s.trk.prevTail ∧
    (updJob n f s).pcm = s.pcm ∧
    (updJob n f s).scu = s.scu ∧
    (updJob n f s).mkf = s.mkf ∧
    (updJob n f s).ptc = s.ptc ∧
    (updJob n f s).can = s.can ∧
    (updJob n f s).pkc = s.pkc ∧
    (updJob n f s).flc = s.flc ∧
    (updJob n f s).cnb = s.cnb ∧
    (updJob n f s).llk = s.llk ∧
    (updJob n f s).pfs = s.pfs ∧
    (updJob n f s).now = s.now ∧
    (updJob n f s).fresh = s.fresh ∧
    (updJob n f s).pending = s.pending := by
  unfold updJob
  (try dsimp only)
  (repeat' split) <;> simp

@[simp] theorem armAct_frame (n : LetterNo) (s : State) :
    (armAct n s).trk.belt = s.trk.belt ∧
    (armAct n s).trk.samples = s.trk.samples ∧
    (armAct n s).trk.speed = s.trk.speed ∧
    (armAct n s).trk.nextNumber = s.trk.nextNumber ∧
    (armAct n s).trk.measuring = s.trk.measuring ∧
    (armAct n s).trk.overTaken = s.trk.overTaken ∧
    (armAct n s).trk.prevTail = s.trk.prevTail ∧
    (armAct n s).pcm = s.pcm ∧
    (armAct n s).scu = s.scu ∧
    (armAct n s).mkf = s.mkf ∧
    (armAct n s).ptc = s.ptc ∧
    (armAct n s).can.dater = s.can.dater ∧
    (armAct n s).pkc = s.pkc ∧
    (armAct n s).flc.line = s.flc.line ∧
    (armAct n s).flc.countdown = s.flc.countdown ∧
    (armAct n s).flc.fault = s.flc.fault ∧
    (armAct n s).flc.faultCount = s.flc.faultCount ∧
    (armAct n s).flc.cleanRun = s.flc.cleanRun ∧
    (armAct n s).flc.runUp = s.flc.runUp ∧
    (armAct n s).flc.runUpQual = s.flc.runUpQual ∧
    (armAct n s).flc.warmup = s.flc.warmup ∧
    (armAct n s).flc.drainLimit = s.flc.drainLimit ∧
    (armAct n s).flc.estop = s.flc.estop ∧
    (armAct n s).flc.horn = s.flc.horn ∧
    (armAct n s).cnb = s.cnb ∧
    (armAct n s).llk.rx = s.llk.rx ∧
    (armAct n s).llk.answers = s.llk.answers ∧
    (armAct n s).llk.restarting = s.llk.restarting ∧
    (armAct n s).llk.silenceStart = s.llk.silenceStart ∧
    (armAct n s).llk.silent = s.llk.silent ∧
    (armAct n s).llk.tx = s.llk.tx ∧
    (armAct n s).llk.opening = s.llk.opening ∧
    (armAct n s).pfs = s.pfs ∧
    (armAct n s).now = s.now ∧
    (armAct n s).fresh = s.fresh ∧
    (armAct n s).pending = s.pending := by
  unfold armAct
  (try dsimp only)
  (repeat' split) <;> simp

@[simp] theorem fireAct_frame (n : LetterNo) (s : State) :
    (fireAct n s).trk.belt = s.trk.belt ∧
    (fireAct n s).trk.samples = s.trk.samples ∧
    (fireAct n s).trk.speed = s.trk.speed ∧
    (fireAct n s).trk.nextNumber = s.trk.nextNumber ∧
    (fireAct n s).trk.measuring = s.trk.measuring ∧
    (fireAct n s).trk.overTaken = s.trk.overTaken ∧
    (fireAct n s).trk.prevTail = s.trk.prevTail ∧
    (fireAct n s).pcm = s.pcm ∧
    (fireAct n s).scu = s.scu ∧
    (fireAct n s).mkf = s.mkf ∧
    (fireAct n s).ptc = s.ptc ∧
    (fireAct n s).can.dater = s.can.dater ∧
    (fireAct n s).pkc = s.pkc ∧
    (fireAct n s).flc.line = s.flc.line ∧
    (fireAct n s).flc.countdown = s.flc.countdown ∧
    (fireAct n s).flc.fault = s.flc.fault ∧
    (fireAct n s).flc.faultCount = s.flc.faultCount ∧
    (fireAct n s).flc.cleanRun = s.flc.cleanRun ∧
    (fireAct n s).flc.runUp = s.flc.runUp ∧
    (fireAct n s).flc.runUpQual = s.flc.runUpQual ∧
    (fireAct n s).flc.warmup = s.flc.warmup ∧
    (fireAct n s).flc.drainLimit = s.flc.drainLimit ∧
    (fireAct n s).flc.estop = s.flc.estop ∧
    (fireAct n s).flc.horn = s.flc.horn ∧
    (fireAct n s).cnb = s.cnb ∧
    (fireAct n s).llk.rx = s.llk.rx ∧
    (fireAct n s).llk.answers = s.llk.answers ∧
    (fireAct n s).llk.restarting = s.llk.restarting ∧
    (fireAct n s).llk.silenceStart = s.llk.silenceStart ∧
    (fireAct n s).llk.silent = s.llk.silent ∧
    (fireAct n s).llk.tx = s.llk.tx ∧
    (fireAct n s).llk.opening = s.llk.opening ∧
    (fireAct n s).pfs = s.pfs ∧
    (fireAct n s).now = s.now ∧
    (fireAct n s).fresh = s.fresh ∧
    (fireAct n s).pending = s.pending := by
  unfold fireAct
  (try dsimp only)
  (repeat' split) <;> simp

@[simp] theorem armAtDp_frame (n : LetterNo) (s : State) :
    (armAtDp n s).trk.belt = s.trk.belt ∧
    (armAtDp n s).trk.samples = s.trk.samples ∧
    (armAtDp n s).trk.speed = s.trk.speed ∧
    (armAtDp n s).trk.nextNumber = s.trk.nextNumber ∧
    (armAtDp n s).trk.measuring = s.trk.measuring ∧
    (armAtDp n s).trk.overTaken = s.trk.overTaken ∧
    (armAtDp n s).trk.prevTail = s.trk.prevTail ∧
    (armAtDp n s).pcm = s.pcm ∧
    (armAtDp n s).scu = s.scu ∧
    (armAtDp n s).mkf = s.mkf ∧
    (armAtDp n s).ptc = s.ptc ∧
    (armAtDp n s).can.dater = s.can.dater ∧
    (armAtDp n s).pkc = s.pkc ∧
    (armAtDp n s).flc.line = s.flc.line ∧
    (armAtDp n s).flc.countdown = s.flc.countdown ∧
    (armAtDp n s).flc.fault = s.flc.fault ∧
    (armAtDp n s).flc.faultCount = s.flc.faultCount ∧
    (armAtDp n s).flc.cleanRun = s.flc.cleanRun ∧
    (armAtDp n s).flc.runUp = s.flc.runUp ∧
    (armAtDp n s).flc.runUpQual = s.flc.runUpQual ∧
    (armAtDp n s).flc.warmup = s.flc.warmup ∧
    (armAtDp n s).flc.drainLimit = s.flc.drainLimit ∧
    (armAtDp n s).flc.estop = s.flc.estop ∧
    (armAtDp n s).flc.horn = s.flc.horn ∧
    (armAtDp n s).cnb = s.cnb ∧
    (armAtDp n s).llk.rx = s.llk.rx ∧
    (armAtDp n s).llk.answers = s.llk.answers ∧
    (armAtDp n s).llk.restarting = s.llk.restarting ∧
    (armAtDp n s).llk.silenceStart = s.llk.silenceStart ∧
    (armAtDp n s).llk.silent = s.llk.silent ∧
    (armAtDp n s).llk.tx = s.llk.tx ∧
    (armAtDp n s).llk.opening = s.llk.opening ∧
    (armAtDp n s).pfs = s.pfs ∧
    (armAtDp n s).now = s.now ∧
    (armAtDp n s).fresh = s.fresh ∧
    (armAtDp n s).pending = s.pending := by
  unfold armAtDp
  (try dsimp only)
  (repeat' split) <;> simp

@[simp] theorem joinList_frame (c : Sup) (n : LetterNo) (s : State) :
    (joinList c n s).trk = s.trk ∧
    (joinList c n s).pcm.cells = s.pcm.cells ∧
    (joinList c n s).scu = s.scu ∧
    (joinList c n s).mkf = s.mkf ∧
    (joinList c n s).ptc = s.ptc ∧
    (joinList c n s).can = s.can ∧
    (joinList c n s).pkc = s.pkc ∧
    (joinList c n s).flc = s.flc ∧
    (joinList c n s).cnb = s.cnb ∧
    (joinList c n s).llk = s.llk ∧
    (joinList c n s).pfs = s.pfs ∧
    (joinList c n s).now = s.now ∧
    (joinList c n s).fresh = s.fresh ∧
    (joinList c n s).pending = s.pending := by
  unfold joinList
  (try dsimp only)
  (repeat' split) <;> simp

@[simp] theorem joinLists_frame (n : LetterNo) (d : Decision) (s : State) :
    (joinLists n d s).trk = s.trk ∧
    (joinLists n d s).pcm.cells = s.pcm.cells ∧
    (joinLists n d s).scu = s.scu ∧
    (joinLists n d s).mkf = s.mkf ∧
    (joinLists n d s).ptc = s.ptc ∧
    (joinLists n d s).can = s.can ∧
    (joinLists n d s).pkc = s.pkc ∧
    (joinLists n d s).flc = s.flc ∧
    (joinLists n d s).cnb = s.cnb ∧
    (joinLists n d s).llk = s.llk ∧
    (joinLists n d s).pfs = s.pfs ∧
    (joinLists n d s).now = s.now ∧
    (joinLists n d s).fresh = s.fresh ∧
    (joinLists n d s).pending = s.pending := by
  unfold joinLists
  (try dsimp only)
  (repeat' split) <;> simp


@[simp] theorem placeGates_frame (n : LetterNo) (d : Decision) (cause : Option RejectCause) (s : State) :
    (placeGates n d cause s).trk.belt = s.trk.belt ∧
    (placeGates n d cause s).trk.samples = s.trk.samples ∧
    (placeGates n d cause s).trk.speed = s.trk.speed ∧
    (placeGates n d cause s).trk.nextNumber = s.trk.nextNumber ∧
    (placeGates n d cause s).trk.prevTail = s.trk.prevTail ∧
    (placeGates n d cause s).pcm.cells = s.pcm.cells ∧
    (placeGates n d cause s).scu.calStart = s.scu.calStart ∧
    (placeGates n d cause s).scu.calDue = s.scu.calDue ∧
    (placeGates n d cause s).mkf.capture = s.mkf.capture ∧
    (placeGates n d cause s).ptc.merge = s.ptc.merge ∧
    (placeGates n d cause s).can.dater = s.can.dater ∧
    (placeGates n d cause s).pkc = s.pkc ∧
    (placeGates n d cause s).flc.countdown = s.flc.countdown ∧
    (placeGates n d cause s).flc.warmup = s.flc.warmup ∧
    (placeGates n d cause s).flc.estop = s.flc.estop ∧
    (placeGates n d cause s).cnb.remainder = s.cnb.remainder ∧
    (placeGates n d cause s).cnb.snap = s.cnb.snap ∧
    (placeGates n d cause s).cnb.records = s.cnb.records ∧
    (placeGates n d cause s).llk.rx = s.llk.rx ∧
    (placeGates n d cause s).llk.answers = s.llk.answers ∧
    (placeGates n d cause s).llk.restarting = s.llk.restarting ∧
    (placeGates n d cause s).llk.silenceStart = s.llk.silenceStart ∧
    (placeGates n d cause s).llk.silent = s.llk.silent ∧
    (placeGates n d cause s).llk.tx = s.llk.tx ∧
    (placeGates n d cause s).llk.opening = s.llk.opening ∧
    (placeGates n d cause s).pfs = s.pfs ∧
    (placeGates n d cause s).now = s.now ∧
    (placeGates n d cause s).fresh = s.fresh ∧
    (placeGates n d cause s).pending = s.pending := by
  unfold placeGates
  (try dsimp only)
  split <;> simp

@[simp] theorem recordMerge_frame (e : Entry) (d : Decision) (s : State) :
    (recordMerge e d s).trk = s.trk ∧
    (recordMerge e d s).pcm = s.pcm ∧
    (recordMerge e d s).scu = s.scu ∧
    (recordMerge e d s).mkf = s.mkf ∧
    (recordMerge e d s).ptc.gates = s.ptc.gates ∧
    (recordMerge e d s).can = s.can ∧
    (recordMerge e d s).pkc = s.pkc ∧
    (recordMerge e d s).flc = s.flc ∧
    (recordMerge e d s).cnb = s.cnb ∧
    (recordMerge e d s).llk = s.llk ∧
    (recordMerge e d s).pfs = s.pfs ∧
    (recordMerge e d s).now = s.now ∧
    (recordMerge e d s).fresh = s.fresh ∧
    (recordMerge e d s).pending = s.pending := by
  unfold recordMerge
  (try dsimp only)
  (repeat' split) <;> simp

@[simp] theorem dpAct_frame (n : LetterNo) (s : State) :
    (dpAct n s).trk.belt = s.trk.belt ∧
    (dpAct n s).trk.samples = s.trk.samples ∧
    (dpAct n s).trk.speed = s.trk.speed ∧
    (dpAct n s).trk.nextNumber = s.trk.nextNumber ∧
    (dpAct n s).trk.prevTail = s.trk.prevTail ∧
    (dpAct n s).pcm.cells = s.pcm.cells ∧
    (dpAct n s).scu.calStart = s.scu.calStart ∧
    (dpAct n s).scu.calDue = s.scu.calDue ∧
    (dpAct n s).mkf.capture = s.mkf.capture ∧
    (dpAct n s).can.dater = s.can.dater ∧
    (dpAct n s).pkc = s.pkc ∧
    (dpAct n s).flc.countdown = s.flc.countdown ∧
    (dpAct n s).flc.warmup = s.flc.warmup ∧
    (dpAct n s).flc.estop = s.flc.estop ∧
    (dpAct n s).cnb.remainder = s.cnb.remainder ∧
    (dpAct n s).cnb.snap = s.cnb.snap ∧
    (dpAct n s).cnb.records = s.cnb.records ∧
    (dpAct n s).llk.rx = s.llk.rx ∧
    (dpAct n s).llk.answers = s.llk.answers ∧
    (dpAct n s).llk.restarting = s.llk.restarting ∧
    (dpAct n s).llk.silenceStart = s.llk.silenceStart ∧
    (dpAct n s).llk.silent = s.llk.silent ∧
    (dpAct n s).llk.tx = s.llk.tx ∧
    (dpAct n s).llk.opening = s.llk.opening ∧
    (dpAct n s).pfs = s.pfs ∧
    (dpAct n s).now = s.now ∧
    (dpAct n s).fresh = s.fresh ∧
    (dpAct n s).pending = s.pending := by
  unfold dpAct
  (try dsimp only)
  (repeat' split) <;> simp

@[simp] theorem overLengthAct_frame (n : LetterNo) (s : State) :
    (overLengthAct n s).trk.belt = s.trk.belt ∧
    (overLengthAct n s).trk.samples = s.trk.samples ∧
    (overLengthAct n s).trk.speed = s.trk.speed ∧
    (overLengthAct n s).trk.nextNumber = s.trk.nextNumber ∧
    (overLengthAct n s).trk.measuring = s.trk.measuring ∧
    (overLengthAct n s).trk.prevTail = s.trk.prevTail ∧
    (overLengthAct n s).pcm = s.pcm ∧
    (overLengthAct n s).scu = s.scu ∧
    (overLengthAct n s).mkf = s.mkf ∧
    (overLengthAct n s).ptc = s.ptc ∧
    (overLengthAct n s).can = s.can ∧
    (overLengthAct n s).pkc = s.pkc ∧
    (overLengthAct n s).flc = s.flc ∧
    (overLengthAct n s).cnb = s.cnb ∧
    (overLengthAct n s).llk = s.llk ∧
    (overLengthAct n s).pfs = s.pfs ∧
    (overLengthAct n s).now = s.now ∧
    (overLengthAct n s).fresh = s.fresh ∧
    (overLengthAct n s).pending = s.pending := by
  unfold overLengthAct
  (try dsimp only)
  (repeat' split) <;> simp

@[simp] theorem exitAct_frame (n : LetterNo) (s : State) :
    (exitAct n s).trk.belt = s.trk.belt ∧
    (exitAct n s).trk.samples = s.trk.samples ∧
    (exitAct n s).trk.speed = s.trk.speed ∧
    (exitAct n s).trk.nextNumber = s.trk.nextNumber ∧
    (exitAct n s).trk.measuring = s.trk.measuring ∧
    (exitAct n s).trk.overTaken = s.trk.overTaken ∧
    (exitAct n s).trk.prevTail = s.trk.prevTail ∧
    (exitAct n s).pcm = s.pcm ∧
    (exitAct n s).scu.bufs = s.scu.bufs ∧
    (exitAct n s).mkf = s.mkf ∧
    (exitAct n s).ptc = s.ptc ∧
    (exitAct n s).can = s.can ∧
    (exitAct n s).pkc = s.pkc ∧
    (exitAct n s).flc = s.flc ∧
    (exitAct n s).cnb = s.cnb ∧
    (exitAct n s).llk = s.llk ∧
    (exitAct n s).pfs = s.pfs ∧
    (exitAct n s).now = s.now ∧
    (exitAct n s).fresh = s.fresh ∧
    (exitAct n s).pending = s.pending := by
  unfold exitAct
  (try dsimp only)
  (repeat' split) <;> simp

@[simp] theorem clearAct_frame (g : Gate) (s : State) :
    (clearAct g s).trk = s.trk ∧
    (clearAct g s).pcm = s.pcm ∧
    (clearAct g s).scu = s.scu ∧
    (clearAct g s).mkf = s.mkf ∧
    (clearAct g s).ptc.merge = s.ptc.merge ∧
    (clearAct g s).can = s.can ∧
    (clearAct g s).pkc = s.pkc ∧
    (clearAct g s).flc = s.flc ∧
    (clearAct g s).cnb = s.cnb ∧
    (clearAct g s).llk = s.llk ∧
    (clearAct g s).pfs = s.pfs ∧
    (clearAct g s).now = s.now ∧
    (clearAct g s).fresh = s.fresh ∧
    (clearAct g s).pending = s.pending := by
  unfold clearAct
  (try dsimp only)
  (repeat' split) <;> simp

@[simp] theorem doneLimitAct_frame (c : Stream) (s : State) :
    (doneLimitAct c s).trk.belt = s.trk.belt ∧
    (doneLimitAct c s).trk.samples = s.trk.samples ∧
    (doneLimitAct c s).trk.speed = s.trk.speed ∧
    (doneLimitAct c s).trk.nextNumber = s.trk.nextNumber ∧
    (doneLimitAct c s).trk.measuring = s.trk.measuring ∧
    (doneLimitAct c s).trk.overTaken = s.trk.overTaken ∧
    (doneLimitAct c s).trk.prevTail = s.trk.prevTail ∧
    (doneLimitAct c s).pcm = s.pcm ∧
    (doneLimitAct c s).scu = s.scu ∧
    (doneLimitAct c s).mkf = s.mkf ∧
    (doneLimitAct c s).ptc = s.ptc ∧
    (doneLimitAct c s).can.dater = s.can.dater ∧
    (doneLimitAct c s).pkc = s.pkc ∧
    (doneLimitAct c s).flc.line = s.flc.line ∧
    (doneLimitAct c s).flc.countdown = s.flc.countdown ∧
    (doneLimitAct c s).flc.fault = s.flc.fault ∧
    (doneLimitAct c s).flc.faultCount = s.flc.faultCount ∧
    (doneLimitAct c s).flc.cleanRun = s.flc.cleanRun ∧
    (doneLimitAct c s).flc.runUp = s.flc.runUp ∧
    (doneLimitAct c s).flc.runUpQual = s.flc.runUpQual ∧
    (doneLimitAct c s).flc.warmup = s.flc.warmup ∧
    (doneLimitAct c s).flc.drainLimit = s.flc.drainLimit ∧
    (doneLimitAct c s).flc.estop = s.flc.estop ∧
    (doneLimitAct c s).flc.horn = s.flc.horn ∧
    (doneLimitAct c s).cnb = s.cnb ∧
    (doneLimitAct c s).llk.rx = s.llk.rx ∧
    (doneLimitAct c s).llk.answers = s.llk.answers ∧
    (doneLimitAct c s).llk.restarting = s.llk.restarting ∧
    (doneLimitAct c s).llk.silenceStart = s.llk.silenceStart ∧
    (doneLimitAct c s).llk.silent = s.llk.silent ∧
    (doneLimitAct c s).llk.tx = s.llk.tx ∧
    (doneLimitAct c s).llk.opening = s.llk.opening ∧
    (doneLimitAct c s).pfs = s.pfs ∧
    (doneLimitAct c s).now = s.now ∧
    (doneLimitAct c s).fresh = s.fresh ∧
    (doneLimitAct c s).pending = s.pending := by
  unfold doneLimitAct
  (try dsimp only)
  (repeat' split) <;> simp

@[simp] theorem act_frame (n : LetterNo) (k : PosKind) (s : State) :
    (act n k s).trk.belt = s.trk.belt ∧
    (act n k s).trk.samples = s.trk.samples ∧
    (act n k s).trk.speed = s.trk.speed ∧
    (act n k s).trk.nextNumber = s.trk.nextNumber ∧
    (act n k s).trk.prevTail = s.trk.prevTail ∧
    (act n k s).pcm.cells = s.pcm.cells ∧
    (act n k s).mkf.capture = s.mkf.capture ∧
    (act n k s).can.dater = s.can.dater ∧
    (act n k s).flc.countdown = s.flc.countdown ∧
    (act n k s).flc.warmup = s.flc.warmup ∧
    (act n k s).flc.estop = s.flc.estop ∧
    (act n k s).cnb.remainder = s.cnb.remainder ∧
    (act n k s).cnb.snap = s.cnb.snap ∧
    (act n k s).llk.rx = s.llk.rx ∧
    (act n k s).llk.answers = s.llk.answers ∧
    (act n k s).llk.restarting = s.llk.restarting ∧
    (act n k s).llk.silenceStart = s.llk.silenceStart ∧
    (act n k s).llk.silent = s.llk.silent ∧
    (act n k s).llk.tx = s.llk.tx ∧
    (act n k s).llk.opening = s.llk.opening ∧
    (act n k s).pfs = s.pfs ∧
    (act n k s).now = s.now ∧
    (act n k s).fresh = s.fresh ∧
    (act n k s).pending = s.pending := by
  unfold act
  (try dsimp only)
  (repeat' split) <;> simp

@[simp] theorem takeDue_frame (n : LetterNo) (k : PosKind) (s : State) :
    (takeDue n k s).trk.belt = s.trk.belt ∧
    (takeDue n k s).trk.samples = s.trk.samples ∧
    (takeDue n k s).trk.speed = s.trk.speed ∧
    (takeDue n k s).trk.nextNumber = s.trk.nextNumber ∧
    (takeDue n k s).trk.prevTail = s.trk.prevTail ∧
    (takeDue n k s).pcm.cells = s.pcm.cells ∧
    (takeDue n k s).mkf.capture = s.mkf.capture ∧
    (takeDue n k s).can.dater = s.can.dater ∧
    (takeDue n k s).flc.countdown = s.flc.countdown ∧
    (takeDue n k s).flc.warmup = s.flc.warmup ∧
    (takeDue n k s).flc.estop = s.flc.estop ∧
    (takeDue n k s).cnb.remainder = s.cnb.remainder ∧
    (takeDue n k s).cnb.snap = s.cnb.snap ∧
    (takeDue n k s).llk.rx = s.llk.rx ∧
    (takeDue n k s).llk.answers = s.llk.answers ∧
    (takeDue n k s).llk.restarting = s.llk.restarting ∧
    (takeDue n k s).llk.silenceStart = s.llk.silenceStart ∧
    (takeDue n k s).llk.silent = s.llk.silent ∧
    (takeDue n k s).llk.tx = s.llk.tx ∧
    (takeDue n k s).llk.opening = s.llk.opening ∧
    (takeDue n k s).pfs = s.pfs ∧
    (takeDue n k s).now = s.now ∧
    (takeDue n k s).fresh = s.fresh ∧
    (takeDue n k s).pending = s.pending := by
  unfold takeDue
  (try dsimp only)
  (repeat' split) <;> simp

@[simp] theorem takeReached_frame (n : LetterNo) (fuel : Nat) (s : State) :
    (takeReached n fuel s).trk.belt = s.trk.belt ∧
    (takeReached n fuel s).trk.samples = s.trk.samples ∧
    (takeReached n fuel s).trk.speed = s.trk.speed ∧
    (takeReached n fuel s).trk.nextNumber = s.trk.nextNumber ∧
    (takeReached n fuel s).trk.prevTail = s.trk.prevTail ∧
    (takeReached n fuel s).pcm.cells = s.pcm.cells ∧
    (takeReached n fuel s).mkf.capture = s.mkf.capture ∧
    (takeReached n fuel s).can.dater = s.can.dater ∧
    (takeReached n fuel s).flc.countdown = s.flc.countdown ∧
    (takeReached n fuel s).flc.warmup = s.flc.warmup ∧
    (takeReached n fuel s).flc.estop = s.flc.estop ∧
    (takeReached n fuel s).cnb.remainder = s.cnb.remainder ∧
    (takeReached n fuel s).cnb.snap = s.cnb.snap ∧
    (takeReached n fuel s).llk.rx = s.llk.rx ∧
    (takeReached n fuel s).llk.answers = s.llk.answers ∧
    (takeReached n fuel s).llk.restarting = s.llk.restarting ∧
    (takeReached n fuel s).llk.silenceStart = s.llk.silenceStart ∧
    (takeReached n fuel s).llk.silent = s.llk.silent ∧
    (takeReached n fuel s).llk.tx = s.llk.tx ∧
    (takeReached n fuel s).llk.opening = s.llk.opening ∧
    (takeReached n fuel s).pfs = s.pfs ∧
    (takeReached n fuel s).now = s.now ∧
    (takeReached n fuel s).fresh = s.fresh ∧
    (takeReached n fuel s).pending = s.pending := by
  induction fuel generalizing s with
  | zero => simp [takeReached]
  | succ k ih =>
    simp only [takeReached]
    (repeat' split) <;> simp [ih]

@[simp] theorem rawChange_frame (c : Photocell) (l : Level) (s : State) :
    (rawChange c l s).trk = s.trk ∧
    (rawChange c l s).pcm.sups = s.pcm.sups ∧
    (rawChange c l s).scu.bufs = s.scu.bufs ∧
    (rawChange c l s).mkf = s.mkf ∧
    (rawChange c l s).ptc = s.ptc ∧
    (rawChange c l s).can = s.can ∧
    (rawChange c l s).pkc = s.pkc ∧
    (rawChange c l s).flc = s.flc ∧
    (rawChange c l s).cnb = s.cnb ∧
    (rawChange c l s).llk = s.llk ∧
    (rawChange c l s).pfs = s.pfs ∧
    (rawChange c l s).now = s.now ∧
    (rawChange c l s).fresh = s.fresh ∧
    (rawChange c l s).pending = s.pending := by
  unfold rawChange
  (try dsimp only)
  (repeat' split) <;> simp

@[simp] theorem matched_frame (c : Sup) (e : Entry) (a : Pos) (s : State) :
    (matched c e a s).trk.belt = s.trk.belt ∧
    (matched c e a s).trk.samples = s.trk.samples ∧
    (matched c e a s).trk.speed = s.trk.speed ∧
    (matched c e a s).trk.nextNumber = s.trk.nextNumber ∧
    (matched c e a s).trk.prevTail = s.trk.prevTail ∧
    (matched c e a s).pcm.cells = s.pcm.cells ∧
    (matched c e a s).mkf.capture = s.mkf.capture ∧
    (matched c e a s).can.dater = s.can.dater ∧
    (matched c e a s).flc.countdown = s.flc.countdown ∧
    (matched c e a s).flc.warmup = s.flc.warmup ∧
    (matched c e a s).flc.estop = s.flc.estop ∧
    (matched c e a s).cnb.remainder = s.cnb.remainder ∧
    (matched c e a s).cnb.snap = s.cnb.snap ∧
    (matched c e a s).llk.rx = s.llk.rx ∧
    (matched c e a s).llk.answers = s.llk.answers ∧
    (matched c e a s).llk.restarting = s.llk.restarting ∧
    (matched c e a s).llk.silenceStart = s.llk.silenceStart ∧
    (matched c e a s).llk.silent = s.llk.silent ∧
    (matched c e a s).llk.tx = s.llk.tx ∧
    (matched c e a s).llk.opening = s.llk.opening ∧
    (matched c e a s).pfs = s.pfs ∧
    (matched c e a s).now = s.now ∧
    (matched c e a s).fresh = s.fresh ∧
    (matched c e a s).pending = s.pending := by
  unfold matched
  (try dsimp only)
  (repeat' split) <;> simp

@[simp] theorem arrival_frame (c : Sup) (a : Pos) (s : State) :
    (arrival c a s).trk.belt = s.trk.belt ∧
    (arrival c a s).trk.samples = s.trk.samples ∧
    (arrival c a s).trk.speed = s.trk.speed ∧
    (arrival c a s).trk.nextNumber = s.trk.nextNumber ∧
    (arrival c a s).trk.prevTail = s.trk.prevTail ∧
    (arrival c a s).pcm.cells = s.pcm.cells ∧
    (arrival c a s).mkf.capture = s.mkf.capture ∧
    (arrival c a s).can.dater = s.can.dater ∧
    (arrival c a s).flc.countdown = s.flc.countdown ∧
    (arrival c a s).flc.warmup = s.flc.warmup ∧
    (arrival c a s).flc.estop = s.flc.estop ∧
    (arrival c a s).cnb.remainder = s.cnb.remainder ∧
    (arrival c a s).cnb.snap = s.cnb.snap ∧
    (arrival c a s).llk.rx = s.llk.rx ∧
    (arrival c a s).llk.answers = s.llk.answers ∧
    (arrival c a s).llk.restarting = s.llk.restarting ∧
    (arrival c a s).llk.silenceStart = s.llk.silenceStart ∧
    (arrival c a s).llk.silent = s.llk.silent ∧
    (arrival c a s).llk.tx = s.llk.tx ∧
    (arrival c a s).llk.opening = s.llk.opening ∧
    (arrival c a s).pfs = s.pfs ∧
    (arrival c a s).now = s.now ∧
    (arrival c a s).fresh = s.fresh ∧
    (arrival c a s).pending = s.pending := by
  unfold arrival
  (try dsimp only)
  (repeat' split) <;> simp

@[simp] theorem secondLength_frame (n : LetterNo) (length1 : Int) (s : State) :
    (secondLength n length1 s).trk.belt = s.trk.belt ∧
    (secondLength n length1 s).trk.samples = s.trk.samples ∧
    (secondLength n length1 s).trk.speed = s.trk.speed ∧
    (secondLength n length1 s).trk.nextNumber = s.trk.nextNumber ∧
    (secondLength n length1 s).trk.measuring = s.trk.measuring ∧
    (secondLength n length1 s).trk.overTaken = s.trk.overTaken ∧
    (secondLength n length1 s).trk.prevTail = s.trk.prevTail ∧
    (secondLength n length1 s).pcm = s.pcm ∧
    (secondLength n length1 s).scu = s.scu ∧
    (secondLength n length1 s).mkf = s.mkf ∧
    (secondLength n length1 s).ptc = s.ptc ∧
    (secondLength n length1 s).can = s.can ∧
    (secondLength n length1 s).pkc = s.pkc ∧
    (secondLength n length1 s).flc = s.flc ∧
    (secondLength n length1 s).cnb = s.cnb ∧
    (secondLength n length1 s).llk = s.llk ∧
    (secondLength n length1 s).pfs = s.pfs ∧
    (secondLength n length1 s).now = s.now ∧
    (secondLength n length1 s).fresh = s.fresh ∧
    (secondLength n length1 s).pending = s.pending := by
  unfold secondLength
  (try dsimp only)
  (repeat' split) <;> simp

@[simp] theorem cellTail_frame (c : Sup) (tail : Pos) (s : State) :
    (cellTail c tail s).trk.belt = s.trk.belt ∧
    (cellTail c tail s).trk.samples = s.trk.samples ∧
    (cellTail c tail s).trk.speed = s.trk.speed ∧
    (cellTail c tail s).trk.nextNumber = s.trk.nextNumber ∧
    (cellTail c tail s).trk.prevTail = s.trk.prevTail ∧
    (cellTail c tail s).pcm.cells = s.pcm.cells ∧
    (cellTail c tail s).mkf.capture = s.mkf.capture ∧
    (cellTail c tail s).can.dater = s.can.dater ∧
    (cellTail c tail s).flc.countdown = s.flc.countdown ∧
    (cellTail c tail s).flc.warmup = s.flc.warmup ∧
    (cellTail c tail s).flc.estop = s.flc.estop ∧
    (cellTail c tail s).cnb.remainder = s.cnb.remainder ∧
    (cellTail c tail s).cnb.snap = s.cnb.snap ∧
    (cellTail c tail s).llk.rx = s.llk.rx ∧
    (cellTail c tail s).llk.answers = s.llk.answers ∧
    (cellTail c tail s).llk.restarting = s.llk.restarting ∧
    (cellTail c tail s).llk.silenceStart = s.llk.silenceStart ∧
    (cellTail c tail s).llk.silent = s.llk.silent ∧
    (cellTail c tail s).llk.tx = s.llk.tx ∧
    (cellTail c tail s).llk.opening = s.llk.opening ∧
    (cellTail c tail s).pfs = s.pfs ∧
    (cellTail c tail s).now = s.now ∧
    (cellTail c tail s).fresh = s.fresh ∧
    (cellTail c tail s).pending = s.pending := by
  unfold cellTail
  (try dsimp only)
  (repeat' split) <;> simp

@[simp] theorem edge_frame (c : Photocell) (l : Level) (pos : Pos) (s : State) :
    (edge c l pos s).trk.belt = s.trk.belt ∧
    (edge c l pos s).trk.samples = s.trk.samples ∧
    (edge c l pos s).trk.speed = s.trk.speed ∧
    (edge c l pos s).pcm.cells = s.pcm.cells ∧
    (edge c l pos s).mkf.capture = s.mkf.capture ∧
    (edge c l pos s).can.dater = s.can.dater ∧
    (edge c l pos s).flc.countdown = s.flc.countdown ∧
    (edge c l pos s).flc.warmup = s.flc.warmup ∧
    (edge c l pos s).flc.estop = s.flc.estop ∧
    (edge c l pos s).cnb.remainder = s.cnb.remainder ∧
    (edge c l pos s).cnb.snap = s.cnb.snap ∧
    (edge c l pos s).llk.rx = s.llk.rx ∧
    (edge c l pos s).llk.answers = s.llk.answers ∧
    (edge c l pos s).llk.restarting = s.llk.restarting ∧
    (edge c l pos s).llk.silenceStart = s.llk.silenceStart ∧
    (edge c l pos s).llk.silent = s.llk.silent ∧
    (edge c l pos s).llk.tx = s.llk.tx ∧
    (edge c l pos s).llk.opening = s.llk.opening ∧
    (edge c l pos s).pfs = s.pfs ∧
    (edge c l pos s).now = s.now ∧
    (edge c l pos s).fresh = s.fresh ∧
    (edge c l pos s).pending = s.pending := by
  unfold edge
  (try dsimp only)
  (repeat' split) <;> simp

@[simp] theorem qualify_frame (c : Photocell) (ch : Change) (s : State) :
    (qualify c ch s).trk.belt = s.trk.belt ∧
    (qualify c ch s).trk.samples = s.trk.samples ∧
    (qualify c ch s).trk.speed = s.trk.speed ∧
    (qualify c ch s).mkf.capture = s.mkf.capture ∧
    (qualify c ch s).can.dater = s.can.dater ∧
    (qualify c ch s).flc.countdown = s.flc.countdown ∧
    (qualify c ch s).flc.warmup = s.flc.warmup ∧
    (qualify c ch s).flc.estop = s.flc.estop ∧
    (qualify c ch s).cnb.remainder = s.cnb.remainder ∧
    (qualify c ch s).cnb.snap = s.cnb.snap ∧
    (qualify c ch s).llk.rx = s.llk.rx ∧
    (qualify c ch s).llk.answers = s.llk.answers ∧
    (qualify c ch s).llk.restarting = s.llk.restarting ∧
    (qualify c ch s).llk.silenceStart = s.llk.silenceStart ∧
    (qualify c ch s).llk.silent = s.llk.silent ∧
    (qualify c ch s).llk.tx = s.llk.tx ∧
    (qualify c ch s).llk.opening = s.llk.opening ∧
    (qualify c ch s).pfs = s.pfs ∧
    (qualify c ch s).now = s.now ∧
    (qualify c ch s).fresh = s.fresh ∧
    (qualify c ch s).pending = s.pending := by
  unfold qualify
  (try dsimp only)
  (repeat' split) <;> simp

@[simp] theorem enterStarting_frame (s : State) :
    (enterStarting s).trk.belt = s.trk.belt ∧
    (enterStarting s).trk.samples = s.trk.samples ∧
    (enterStarting s).trk.speed = s.trk.speed ∧
    (enterStarting s).trk.table = s.trk.table ∧
    (enterStarting s).trk.nextNumber = s.trk.nextNumber ∧
    (enterStarting s).trk.measuring = s.trk.measuring ∧
    (enterStarting s).trk.overTaken = s.trk.overTaken ∧
    (enterStarting s).pcm = s.pcm ∧
    (enterStarting s).scu = s.scu ∧
    (enterStarting s).mkf = s.mkf ∧
    (enterStarting s).can.dater = s.can.dater ∧
    (enterStarting s).pkc = s.pkc ∧
    (enterStarting s).flc.countdown = s.flc.countdown ∧
    (enterStarting s).flc.fault = s.flc.fault ∧
    (enterStarting s).flc.faultCount = s.flc.faultCount ∧
    (enterStarting s).flc.cleanRun = s.flc.cleanRun ∧
    (enterStarting s).flc.warmup = s.flc.warmup ∧
    (enterStarting s).flc.drainLimit = s.flc.drainLimit ∧
    (enterStarting s).flc.estop = s.flc.estop ∧
    (enterStarting s).flc.horn = s.flc.horn ∧
    (enterStarting s).cnb = s.cnb ∧
    (enterStarting s).llk.rx = s.llk.rx ∧
    (enterStarting s).llk.answers = s.llk.answers ∧
    (enterStarting s).llk.restarting = s.llk.restarting ∧
    (enterStarting s).llk.silenceStart = s.llk.silenceStart ∧
    (enterStarting s).llk.silent = s.llk.silent ∧
    (enterStarting s).llk.tx = s.llk.tx ∧
    (enterStarting s).llk.opening = s.llk.opening ∧
    (enterStarting s).pfs = s.pfs ∧
    (enterStarting s).now = s.now ∧
    (enterStarting s).fresh = s.fresh ∧
    (enterStarting s).pending = s.pending := by
  unfold enterStarting
  (try dsimp only)
  (repeat' split) <;> simp

@[simp] theorem doStart_frame (s : State) :
    (doStart s).1.trk.belt = s.trk.belt ∧
    (doStart s).1.trk.samples = s.trk.samples ∧
    (doStart s).1.trk.speed = s.trk.speed ∧
    (doStart s).1.trk.table = s.trk.table ∧
    (doStart s).1.trk.nextNumber = s.trk.nextNumber ∧
    (doStart s).1.trk.measuring = s.trk.measuring ∧
    (doStart s).1.trk.overTaken = s.trk.overTaken ∧
    (doStart s).1.pcm = s.pcm ∧
    (doStart s).1.scu = s.scu ∧
    (doStart s).1.mkf = s.mkf ∧
    (doStart s).1.can.dater = s.can.dater ∧
    (doStart s).1.pkc = s.pkc ∧
    (doStart s).1.flc.countdown = s.flc.countdown ∧
    (doStart s).1.flc.fault = s.flc.fault ∧
    (doStart s).1.flc.faultCount = s.flc.faultCount ∧
    (doStart s).1.flc.cleanRun = s.flc.cleanRun ∧
    (doStart s).1.flc.warmup = s.flc.warmup ∧
    (doStart s).1.flc.drainLimit = s.flc.drainLimit ∧
    (doStart s).1.flc.estop = s.flc.estop ∧
    (doStart s).1.flc.horn = s.flc.horn ∧
    (doStart s).1.cnb = s.cnb ∧
    (doStart s).1.llk.rx = s.llk.rx ∧
    (doStart s).1.llk.answers = s.llk.answers ∧
    (doStart s).1.llk.restarting = s.llk.restarting ∧
    (doStart s).1.llk.silenceStart = s.llk.silenceStart ∧
    (doStart s).1.llk.silent = s.llk.silent ∧
    (doStart s).1.llk.tx = s.llk.tx ∧
    (doStart s).1.llk.opening = s.llk.opening ∧
    (doStart s).1.pfs = s.pfs ∧
    (doStart s).1.now = s.now ∧
    (doStart s).1.fresh = s.fresh ∧
    (doStart s).1.pending = s.pending := by
  unfold doStart
  (try dsimp only)
  (repeat' split) <;> simp

@[simp] theorem doStop_frame (s : State) :
    (doStop s).1.trk = s.trk ∧
    (doStop s).1.pcm = s.pcm ∧
    (doStop s).1.scu = s.scu ∧
    (doStop s).1.mkf = s.mkf ∧
    (doStop s).1.ptc = s.ptc ∧
    (doStop s).1.can.dater = s.can.dater ∧
    (doStop s).1.pkc = s.pkc ∧
    (doStop s).1.flc.countdown = s.flc.countdown ∧
    (doStop s).1.flc.fault = s.flc.fault ∧
    (doStop s).1.flc.faultCount = s.flc.faultCount ∧
    (doStop s).1.flc.cleanRun = s.flc.cleanRun ∧
    (doStop s).1.flc.warmup = s.flc.warmup ∧
    (doStop s).1.flc.estop = s.flc.estop ∧
    (doStop s).1.flc.horn = s.flc.horn ∧
    (doStop s).1.cnb.bank = s.cnb.bank ∧
    (doStop s).1.cnb.remainder = s.cnb.remainder ∧
    (doStop s).1.cnb.records = s.cnb.records ∧
    (doStop s).1.llk.rx = s.llk.rx ∧
    (doStop s).1.llk.answers = s.llk.answers ∧
    (doStop s).1.llk.restarting = s.llk.restarting ∧
    (doStop s).1.llk.silenceStart = s.llk.silenceStart ∧
    (doStop s).1.llk.silent = s.llk.silent ∧
    (doStop s).1.llk.tx = s.llk.tx ∧
    (doStop s).1.llk.opening = s.llk.opening ∧
    (doStop s).1.pfs = s.pfs ∧
    (doStop s).1.now = s.now ∧
    (doStop s).1.fresh = s.fresh ∧
    (doStop s).1.pending = s.pending := by
  unfold doStop
  (try dsimp only)
  (repeat' split) <;> simp

@[simp] theorem resetFaultCount_frame (s : State) :
    (resetFaultCount s).trk = s.trk ∧
    (resetFaultCount s).pcm = s.pcm ∧
    (resetFaultCount s).scu = s.scu ∧
    (resetFaultCount s).mkf = s.mkf ∧
    (resetFaultCount s).ptc = s.ptc ∧
    (resetFaultCount s).can = s.can ∧
    (resetFaultCount s).pkc = s.pkc ∧
    (resetFaultCount s).flc.line = s.flc.line ∧
    (resetFaultCount s).flc.holds = s.flc.holds ∧
    (resetFaultCount s).flc.countdown = s.flc.countdown ∧
    (resetFaultCount s).flc.fault = s.flc.fault ∧
    (resetFaultCount s).flc.runUp = s.flc.runUp ∧
    (resetFaultCount s).flc.runUpQual = s.flc.runUpQual ∧
    (resetFaultCount s).flc.warmup = s.flc.warmup ∧
    (resetFaultCount s).flc.drainLimit = s.flc.drainLimit ∧
    (resetFaultCount s).flc.estop = s.flc.estop ∧
    (resetFaultCount s).flc.horn = s.flc.horn ∧
    (resetFaultCount s).cnb = s.cnb ∧
    (resetFaultCount s).llk = s.llk ∧
    (resetFaultCount s).pfs = s.pfs ∧
    (resetFaultCount s).now = s.now ∧
    (resetFaultCount s).fresh = s.fresh ∧
    (resetFaultCount s).pending = s.pending := by
  unfold resetFaultCount
  (try dsimp only)
  (repeat' split) <;> simp

@[simp] theorem doClear_frame (override : Bool) (s : State) :
    (doClear override s).1.trk.belt = s.trk.belt ∧
    (doClear override s).1.trk.samples = s.trk.samples ∧
    (doClear override s).1.trk.speed = s.trk.speed ∧
    (doClear override s).1.trk.nextNumber = s.trk.nextNumber ∧
    (doClear override s).1.trk.measuring = s.trk.measuring ∧
    (doClear override s).1.trk.overTaken = s.trk.overTaken ∧
    (doClear override s).1.trk.prevTail = s.trk.prevTail ∧
    (doClear override s).1.pcm.cells = s.pcm.cells ∧
    (doClear override s).1.scu.bufs = s.scu.bufs ∧
    (doClear override s).1.mkf = s.mkf ∧
    (doClear override s).1.ptc.merge = s.ptc.merge ∧
    (doClear override s).1.can.dater = s.can.dater ∧
    (doClear override s).1.flc.countdown = s.flc.countdown ∧
    (doClear override s).1.flc.runUp = s.flc.runUp ∧
    (doClear override s).1.flc.runUpQual = s.flc.runUpQual ∧
    (doClear override s).1.flc.warmup = s.flc.warmup ∧
    (doClear override s).1.flc.drainLimit = s.flc.drainLimit ∧
    (doClear override s).1.flc.estop = s.flc.estop ∧
    (doClear override s).1.flc.horn = s.flc.horn ∧
    (doClear override s).1.cnb.remainder = s.cnb.remainder ∧
    (doClear override s).1.cnb.snap = s.cnb.snap ∧
    (doClear override s).1.llk.rx = s.llk.rx ∧
    (doClear override s).1.llk.answers = s.llk.answers ∧
    (doClear override s).1.llk.restarting = s.llk.restarting ∧
    (doClear override s).1.llk.silenceStart = s.llk.silenceStart ∧
    (doClear override s).1.llk.silent = s.llk.silent ∧
    (doClear override s).1.llk.tx = s.llk.tx ∧
    (doClear override s).1.llk.opening = s.llk.opening ∧
    (doClear override s).1.pfs = s.pfs ∧
    (doClear override s).1.now = s.now ∧
    (doClear override s).1.fresh = s.fresh ∧
    (doClear override s).1.pending = s.pending := by
  unfold doClear
  (try dsimp only)
  (repeat' split) <;> simp

@[simp] theorem doHold_frame (distance : Option Int) (s : State) :
    (doHold distance s).1.trk = s.trk ∧
    (doHold distance s).1.pcm = s.pcm ∧
    (doHold distance s).1.scu = s.scu ∧
    (doHold distance s).1.mkf = s.mkf ∧
    (doHold distance s).1.ptc = s.ptc ∧
    (doHold distance s).1.can = s.can ∧
    (doHold distance s).1.pkc = s.pkc ∧
    (doHold distance s).1.flc.line = s.flc.line ∧
    (doHold distance s).1.flc.fault = s.flc.fault ∧
    (doHold distance s).1.flc.faultCount = s.flc.faultCount ∧
    (doHold distance s).1.flc.cleanRun = s.flc.cleanRun ∧
    (doHold distance s).1.flc.runUp = s.flc.runUp ∧
    (doHold distance s).1.flc.runUpQual = s.flc.runUpQual ∧
    (doHold distance s).1.flc.warmup = s.flc.warmup ∧
    (doHold distance s).1.flc.drainLimit = s.flc.drainLimit ∧
    (doHold distance s).1.flc.estop = s.flc.estop ∧
    (doHold distance s).1.flc.horn = s.flc.horn ∧
    (doHold distance s).1.cnb = s.cnb ∧
    (doHold distance s).1.llk = s.llk ∧
    (doHold distance s).1.pfs = s.pfs ∧
    (doHold distance s).1.now = s.now ∧
    (doHold distance s).1.fresh = s.fresh ∧
    (doHold distance s).1.pending = s.pending := by
  unfold doHold
  (try dsimp only)
  (repeat' split) <;> simp

@[simp] theorem doRelease_frame (s : State) :
    (doRelease s).1.trk = s.trk ∧
    (doRelease s).1.pcm = s.pcm ∧
    (doRelease s).1.scu = s.scu ∧
    (doRelease s).1.mkf = s.mkf ∧
    (doRelease s).1.ptc = s.ptc ∧
    (doRelease s).1.can = s.can ∧
    (doRelease s).1.pkc = s.pkc ∧
    (doRelease s).1.flc.line = s.flc.line ∧
    (doRelease s).1.flc.fault = s.flc.fault ∧
    (doRelease s).1.flc.faultCount = s.flc.faultCount ∧
    (doRelease s).1.flc.cleanRun = s.flc.cleanRun ∧
    (doRelease s).1.flc.runUp = s.flc.runUp ∧
    (doRelease s).1.flc.runUpQual = s.flc.runUpQual ∧
    (doRelease s).1.flc.warmup = s.flc.warmup ∧
    (doRelease s).1.flc.drainLimit = s.flc.drainLimit ∧
    (doRelease s).1.flc.estop = s.flc.estop ∧
    (doRelease s).1.flc.horn = s.flc.horn ∧
    (doRelease s).1.cnb = s.cnb ∧
    (doRelease s).1.llk = s.llk ∧
    (doRelease s).1.pfs = s.pfs ∧
    (doRelease s).1.now = s.now ∧
    (doRelease s).1.fresh = s.fresh ∧
    (doRelease s).1.pending = s.pending := by
  unfold doRelease
  (try dsimp only)
  (repeat' split) <;> simp

@[simp] theorem stopRepeats_frame (s : State) :
    (stopRepeats s).trk = s.trk ∧
    (stopRepeats s).pcm = s.pcm ∧
    (stopRepeats s).scu = s.scu ∧
    (stopRepeats s).mkf = s.mkf ∧
    (stopRepeats s).ptc = s.ptc ∧
    (stopRepeats s).can = s.can ∧
    (stopRepeats s).pkc = s.pkc ∧
    (stopRepeats s).flc = s.flc ∧
    (stopRepeats s).cnb = s.cnb ∧
    (stopRepeats s).llk.rx = s.llk.rx ∧
    (stopRepeats s).llk.answers = s.llk.answers ∧
    (stopRepeats s).llk.restarting = s.llk.restarting ∧
    (stopRepeats s).llk.silenceStart = s.llk.silenceStart ∧
    (stopRepeats s).llk.silent = s.llk.silent ∧
    (stopRepeats s).llk.reports = s.llk.reports ∧
    (stopRepeats s).llk.tx = s.llk.tx ∧
    (stopRepeats s).llk.opening = s.llk.opening ∧
    (stopRepeats s).pfs = s.pfs ∧
    (stopRepeats s).now = s.now ∧
    (stopRepeats s).fresh = s.fresh ∧
    (stopRepeats s).pending = s.pending := by
  unfold stopRepeats
  (try dsimp only)
  (repeat' split) <;> simp

/-- The gates of pockets that are not fitted: their settings change, and nothing else (R85). -/
@[simp] theorem passUnfitted_frame (s : State) :
    (passUnfitted s).trk = s.trk ∧
    (passUnfitted s).pcm = s.pcm ∧
    (passUnfitted s).scu = s.scu ∧
    (passUnfitted s).mkf = s.mkf ∧
    (passUnfitted s).ptc.merge = s.ptc.merge ∧
    (passUnfitted s).can = s.can ∧
    (passUnfitted s).pkc = s.pkc ∧
    (passUnfitted s).flc = s.flc ∧
    (passUnfitted s).cnb = s.cnb ∧
    (passUnfitted s).llk = s.llk ∧
    (passUnfitted s).pfs = s.pfs ∧
    (passUnfitted s).now = s.now ∧
    (passUnfitted s).fresh = s.fresh ∧
    (passUnfitted s).pending = s.pending :=
  ⟨foldl_frame _ (fun t => t.trk) (fun a t => by split <;> simp) _ s,
    foldl_frame _ (fun t => t.pcm) (fun a t => by split <;> simp) _ s,
    foldl_frame _ (fun t => t.scu) (fun a t => by split <;> simp) _ s,
    foldl_frame _ (fun t => t.mkf) (fun a t => by split <;> simp) _ s,
    foldl_frame _ (fun t => t.ptc.merge) (fun a t => by split <;> simp) _ s,
    foldl_frame _ (fun t => t.can) (fun a t => by split <;> simp) _ s,
    foldl_frame _ (fun t => t.pkc) (fun a t => by split <;> simp) _ s,
    foldl_frame _ (fun t => t.flc) (fun a t => by split <;> simp) _ s,
    foldl_frame _ (fun t => t.cnb) (fun a t => by split <;> simp) _ s,
    foldl_frame _ (fun t => t.llk) (fun a t => by split <;> simp) _ s,
    foldl_frame _ (fun t => t.pfs) (fun a t => by split <;> simp) _ s,
    foldl_frame _ (fun t => t.now) (fun a t => by split <;> simp) _ s,
    foldl_frame _ (fun t => t.fresh) (fun a t => by split <;> simp) _ s,
    foldl_frame _ (fun t => t.pending) (fun a t => by split <;> simp) _ s⟩

theorem passUnfitted_fold (g : Gate) (l : List StackPocket) (s : State) :
    (l.foldl (fun t x =>
      if (t.pfs.profile.stack.get x).fit then t else updGate (stackGate x) (fun r => { r with setting := .pass }) t) s).ptc.gates.get g =
    if l.any fun x => decide (stackGate x = g) && !(s.pfs.profile.stack.get x).fit then { s.ptc.gates.get g with setting := .pass }
    else s.ptc.gates.get g := by
  induction l generalizing s with
  | nil => rfl
  | cons y l ih =>
    rw [List.foldl_cons, ih]
    by_cases hf : (s.pfs.profile.stack.get y).fit = true
    · simp [hf]
    · by_cases hg : stackGate y = g
      · subst hg; simp [hf]
      · simp [hf, hg, PerGate.get_upd_ne _ _ hg]

/-- What a gate is once the gates of pockets that are not fitted stand at PASS (R85). -/
theorem passUnfitted_gates (g : Gate) (s : State) :
    (passUnfitted s).ptc.gates.get g =
      if StackPocket.all.any fun x => decide (stackGate x = g) && !(s.pfs.profile.stack.get x).fit then
        { s.ptc.gates.get g with setting := .pass }
      else s.ptc.gates.get g :=
  passUnfitted_fold g StackPocket.all s

@[simp] theorem afterSet_frame (p : Param) (s : State) :
    (afterSet p s).trk = s.trk ∧
    (afterSet p s).pcm = s.pcm ∧
    (afterSet p s).scu = s.scu ∧
    (afterSet p s).mkf = s.mkf ∧
    (afterSet p s).ptc.merge = s.ptc.merge ∧
    (afterSet p s).can = s.can ∧
    (afterSet p s).flc.line = s.flc.line ∧
    (afterSet p s).flc.countdown = s.flc.countdown ∧
    (afterSet p s).flc.fault = s.flc.fault ∧
    (afterSet p s).flc.faultCount = s.flc.faultCount ∧
    (afterSet p s).flc.cleanRun = s.flc.cleanRun ∧
    (afterSet p s).flc.runUp = s.flc.runUp ∧
    (afterSet p s).flc.runUpQual = s.flc.runUpQual ∧
    (afterSet p s).flc.warmup = s.flc.warmup ∧
    (afterSet p s).flc.drainLimit = s.flc.drainLimit ∧
    (afterSet p s).flc.estop = s.flc.estop ∧
    (afterSet p s).flc.horn = s.flc.horn ∧
    (afterSet p s).cnb = s.cnb ∧
    (afterSet p s).llk.rx = s.llk.rx ∧
    (afterSet p s).llk.answers = s.llk.answers ∧
    (afterSet p s).llk.restarting = s.llk.restarting ∧
    (afterSet p s).llk.silenceStart = s.llk.silenceStart ∧
    (afterSet p s).llk.silent = s.llk.silent ∧
    (afterSet p s).llk.tx = s.llk.tx ∧
    (afterSet p s).llk.opening = s.llk.opening ∧
    (afterSet p s).pfs = s.pfs ∧
    (afterSet p s).now = s.now ∧
    (afterSet p s).fresh = s.fresh ∧
    (afterSet p s).pending = s.pending := by
  unfold afterSet
  (try dsimp only)
  (repeat' split) <;> simp

/-- A SET of a fitted flag moves the gates of pockets that are not fitted, and no other part of the Path Controller (R85). -/
theorem afterSet_fit_ptc (x : StackPocket) (s : State) : (afterSet (.fit x) s).ptc = (passUnfitted s).ptc := by
  simp [afterSet]

/-- Only a SET of a fitted flag moves a gate (R85). -/
theorem afterSet_ptc {p : Param} (h : ∀ x, p ≠ .fit x) (s : State) : (afterSet p s).ptc = s.ptc := by
  cases p with
  | fit x => exact absurd rfl (h x)
  | _ => simp only [afterSet] <;> (repeat' split) <;> simp

@[simp] theorem doSet_frame (name value : Text) (s : State) :
    (doSet name value s).1.trk = s.trk ∧
    (doSet name value s).1.pcm = s.pcm ∧
    (doSet name value s).1.scu = s.scu ∧
    (doSet name value s).1.mkf = s.mkf ∧
    (doSet name value s).1.ptc.merge = s.ptc.merge ∧
    (doSet name value s).1.can = s.can ∧
    (doSet name value s).1.flc.line = s.flc.line ∧
    (doSet name value s).1.flc.countdown = s.flc.countdown ∧
    (doSet name value s).1.flc.fault = s.flc.fault ∧
    (doSet name value s).1.flc.faultCount = s.flc.faultCount ∧
    (doSet name value s).1.flc.cleanRun = s.flc.cleanRun ∧
    (doSet name value s).1.flc.runUp = s.flc.runUp ∧
    (doSet name value s).1.flc.runUpQual = s.flc.runUpQual ∧
    (doSet name value s).1.flc.warmup = s.flc.warmup ∧
    (doSet name value s).1.flc.drainLimit = s.flc.drainLimit ∧
    (doSet name value s).1.flc.estop = s.flc.estop ∧
    (doSet name value s).1.flc.horn = s.flc.horn ∧
    (doSet name value s).1.cnb = s.cnb ∧
    (doSet name value s).1.llk.rx = s.llk.rx ∧
    (doSet name value s).1.llk.answers = s.llk.answers ∧
    (doSet name value s).1.llk.restarting = s.llk.restarting ∧
    (doSet name value s).1.llk.silenceStart = s.llk.silenceStart ∧
    (doSet name value s).1.llk.silent = s.llk.silent ∧
    (doSet name value s).1.llk.tx = s.llk.tx ∧
    (doSet name value s).1.llk.opening = s.llk.opening ∧
    (doSet name value s).1.pfs.image = s.pfs.image ∧
    (doSet name value s).1.pfs.saving = s.pfs.saving ∧
    (doSet name value s).1.now = s.now ∧
    (doSet name value s).1.fresh = s.fresh ∧
    (doSet name value s).1.pending = s.pending := by
  unfold doSet
  (try dsimp only)
  (repeat' split) <;> simp

@[simp] theorem doGet_frame (name : Text) (s : State) :
    (doGet name s).1.trk = s.trk ∧
    (doGet name s).1.pcm = s.pcm ∧
    (doGet name s).1.scu = s.scu ∧
    (doGet name s).1.mkf = s.mkf ∧
    (doGet name s).1.ptc = s.ptc ∧
    (doGet name s).1.can = s.can ∧
    (doGet name s).1.pkc = s.pkc ∧
    (doGet name s).1.flc = s.flc ∧
    (doGet name s).1.cnb = s.cnb ∧
    (doGet name s).1.llk = s.llk ∧
    (doGet name s).1.pfs = s.pfs ∧
    (doGet name s).1.now = s.now ∧
    (doGet name s).1.fresh = s.fresh ∧
    (doGet name s).1.pending = s.pending := by
  unfold doGet
  (try dsimp only)
  (repeat' split) <;> simp

@[simp] theorem doSave_frame (s : State) :
    (doSave s).1.trk = s.trk ∧
    (doSave s).1.pcm = s.pcm ∧
    (doSave s).1.scu = s.scu ∧
    (doSave s).1.mkf = s.mkf ∧
    (doSave s).1.ptc = s.ptc ∧
    (doSave s).1.can = s.can ∧
    (doSave s).1.pkc = s.pkc ∧
    (doSave s).1.flc = s.flc ∧
    (doSave s).1.cnb = s.cnb ∧
    (doSave s).1.llk = s.llk ∧
    (doSave s).1.pfs.profile = s.pfs.profile ∧
    (doSave s).1.now = s.now ∧
    (doSave s).1.fresh = s.fresh ∧
    (doSave s).1.pending = s.pending := by
  unfold doSave
  (try dsimp only)
  (repeat' split) <;> simp

@[simp] theorem loadProfile_frame (s : State) :
    (loadProfile s).trk = s.trk ∧
    (loadProfile s).pcm = s.pcm ∧
    (loadProfile s).scu = s.scu ∧
    (loadProfile s).mkf = s.mkf ∧
    (loadProfile s).ptc = s.ptc ∧
    (loadProfile s).can = s.can ∧
    (loadProfile s).pkc = s.pkc ∧
    (loadProfile s).flc = s.flc ∧
    (loadProfile s).cnb = s.cnb ∧
    (loadProfile s).llk.rx = s.llk.rx ∧
    (loadProfile s).llk.answers = s.llk.answers ∧
    (loadProfile s).llk.restarting = s.llk.restarting ∧
    (loadProfile s).llk.silenceStart = s.llk.silenceStart ∧
    (loadProfile s).llk.silent = s.llk.silent ∧
    (loadProfile s).llk.tx = s.llk.tx ∧
    (loadProfile s).llk.opening = s.llk.opening ∧
    (loadProfile s).pfs.image = s.pfs.image ∧
    (loadProfile s).pfs.saving = s.pfs.saving ∧
    (loadProfile s).now = s.now ∧
    (loadProfile s).fresh = s.fresh ∧
    (loadProfile s).pending = s.pending := by
  unfold loadProfile
  (try dsimp only)
  (repeat' split) <;> simp

@[simp] theorem followAll_frame (l : List Pocket) (s : State) :
    (l.foldl (fun t q => restate q (followed t.pfs.profile q (t.pkc.recs.get q)) t) s).trk = s.trk ∧
    (l.foldl (fun t q => restate q (followed t.pfs.profile q (t.pkc.recs.get q)) t) s).pcm = s.pcm ∧
    (l.foldl (fun t q => restate q (followed t.pfs.profile q (t.pkc.recs.get q)) t) s).scu = s.scu ∧
    (l.foldl (fun t q => restate q (followed t.pfs.profile q (t.pkc.recs.get q)) t) s).mkf = s.mkf ∧
    (l.foldl (fun t q => restate q (followed t.pfs.profile q (t.pkc.recs.get q)) t) s).ptc = s.ptc ∧
    (l.foldl (fun t q => restate q (followed t.pfs.profile q (t.pkc.recs.get q)) t) s).can = s.can ∧
    (l.foldl (fun t q => restate q (followed t.pfs.profile q (t.pkc.recs.get q)) t) s).pkc.blocked = s.pkc.blocked ∧
    (l.foldl (fun t q => restate q (followed t.pfs.profile q (t.pkc.recs.get q)) t) s).flc = s.flc ∧
    (l.foldl (fun t q => restate q (followed t.pfs.profile q (t.pkc.recs.get q)) t) s).cnb = s.cnb ∧
    (l.foldl (fun t q => restate q (followed t.pfs.profile q (t.pkc.recs.get q)) t) s).llk.rx = s.llk.rx ∧
    (l.foldl (fun t q => restate q (followed t.pfs.profile q (t.pkc.recs.get q)) t) s).llk.answers = s.llk.answers ∧
    (l.foldl (fun t q => restate q (followed t.pfs.profile q (t.pkc.recs.get q)) t) s).llk.restarting = s.llk.restarting ∧
    (l.foldl (fun t q => restate q (followed t.pfs.profile q (t.pkc.recs.get q)) t) s).llk.silenceStart = s.llk.silenceStart ∧
    (l.foldl (fun t q => restate q (followed t.pfs.profile q (t.pkc.recs.get q)) t) s).llk.silent = s.llk.silent ∧
    (l.foldl (fun t q => restate q (followed t.pfs.profile q (t.pkc.recs.get q)) t) s).llk.tx = s.llk.tx ∧
    (l.foldl (fun t q => restate q (followed t.pfs.profile q (t.pkc.recs.get q)) t) s).llk.opening = s.llk.opening ∧
    (l.foldl (fun t q => restate q (followed t.pfs.profile q (t.pkc.recs.get q)) t) s).pfs = s.pfs ∧
    (l.foldl (fun t q => restate q (followed t.pfs.profile q (t.pkc.recs.get q)) t) s).now = s.now ∧
    (l.foldl (fun t q => restate q (followed t.pfs.profile q (t.pkc.recs.get q)) t) s).fresh = s.fresh ∧
    (l.foldl (fun t q => restate q (followed t.pfs.profile q (t.pkc.recs.get q)) t) s).pending = s.pending :=
  ⟨foldl_frame _ (fun t => t.trk) (fun a t => by simp) l s,
    foldl_frame _ (fun t => t.pcm) (fun a t => by simp) l s,
    foldl_frame _ (fun t => t.scu) (fun a t => by simp) l s,
    foldl_frame _ (fun t => t.mkf) (fun a t => by simp) l s,
    foldl_frame _ (fun t => t.ptc) (fun a t => by simp) l s,
    foldl_frame _ (fun t => t.can) (fun a t => by simp) l s,
    foldl_frame _ (fun t => t.pkc.blocked) (fun a t => by simp) l s,
    foldl_frame _ (fun t => t.flc) (fun a t => by simp) l s,
    foldl_frame _ (fun t => t.cnb) (fun a t => by simp) l s,
    foldl_frame _ (fun t => t.llk.rx) (fun a t => by simp) l s,
    foldl_frame _ (fun t => t.llk.answers) (fun a t => by simp) l s,
    foldl_frame _ (fun t => t.llk.restarting) (fun a t => by simp) l s,
    foldl_frame _ (fun t => t.llk.silenceStart) (fun a t => by simp) l s,
    foldl_frame _ (fun t => t.llk.silent) (fun a t => by simp) l s,
    foldl_frame _ (fun t => t.llk.tx) (fun a t => by simp) l s,
    foldl_frame _ (fun t => t.llk.opening) (fun a t => by simp) l s,
    foldl_frame _ (fun t => t.pfs) (fun a t => by simp) l s,
    foldl_frame _ (fun t => t.now) (fun a t => by simp) l s,
    foldl_frame _ (fun t => t.fresh) (fun a t => by simp) l s,
    foldl_frame _ (fun t => t.pending) (fun a t => by simp) l s⟩

@[simp] theorem doLoad_frame (s : State) :
    (doLoad s).1.trk = s.trk ∧
    (doLoad s).1.pcm = s.pcm ∧
    (doLoad s).1.scu = s.scu ∧
    (doLoad s).1.mkf = s.mkf ∧
    (doLoad s).1.ptc.merge = s.ptc.merge ∧
    (doLoad s).1.can = s.can ∧
    (doLoad s).1.flc.line = s.flc.line ∧
    (doLoad s).1.flc.countdown = s.flc.countdown ∧
    (doLoad s).1.flc.fault = s.flc.fault ∧
    (doLoad s).1.flc.faultCount = s.flc.faultCount ∧
    (doLoad s).1.flc.cleanRun = s.flc.cleanRun ∧
    (doLoad s).1.flc.runUp = s.flc.runUp ∧
    (doLoad s).1.flc.runUpQual = s.flc.runUpQual ∧
    (doLoad s).1.flc.warmup = s.flc.warmup ∧
    (doLoad s).1.flc.drainLimit = s.flc.drainLimit ∧
    (doLoad s).1.flc.estop = s.flc.estop ∧
    (doLoad s).1.flc.horn = s.flc.horn ∧
    (doLoad s).1.cnb = s.cnb ∧
    (doLoad s).1.llk.rx = s.llk.rx ∧
    (doLoad s).1.llk.answers = s.llk.answers ∧
    (doLoad s).1.llk.restarting = s.llk.restarting ∧
    (doLoad s).1.llk.silenceStart = s.llk.silenceStart ∧
    (doLoad s).1.llk.silent = s.llk.silent ∧
    (doLoad s).1.llk.tx = s.llk.tx ∧
    (doLoad s).1.llk.opening = s.llk.opening ∧
    (doLoad s).1.pfs.image = s.pfs.image ∧
    (doLoad s).1.pfs.saving = s.pfs.saving ∧
    (doLoad s).1.now = s.now ∧
    (doLoad s).1.fresh = s.fresh ∧
    (doLoad s).1.pending = s.pending := by
  unfold doLoad
  (try dsimp only)
  (repeat' split) <;> simp

/-- A LOAD moves the gates of the pockets it leaves not fitted, and no other part of the Path Controller (R85). -/
theorem doLoad_ptc {s : State} (h : s.flc.line = .standby) : (doLoad s).1.ptc = (passUnfitted (loadProfile s)).ptc := by
  simp [doLoad, h]

@[simp] theorem doDater_frame (d : Dater) (s : State) :
    (doDater d s).1.trk = s.trk ∧
    (doDater d s).1.pcm = s.pcm ∧
    (doDater d s).1.scu = s.scu ∧
    (doDater d s).1.mkf = s.mkf ∧
    (doDater d s).1.ptc = s.ptc ∧
    (doDater d s).1.can.recs = s.can.recs ∧
    (doDater d s).1.pkc = s.pkc ∧
    (doDater d s).1.flc = s.flc ∧
    (doDater d s).1.cnb = s.cnb ∧
    (doDater d s).1.llk = s.llk ∧
    (doDater d s).1.pfs = s.pfs ∧
    (doDater d s).1.now = s.now ∧
    (doDater d s).1.fresh = s.fresh ∧
    (doDater d s).1.pending = s.pending := by
  unfold doDater
  (try dsimp only)
  (repeat' split) <;> simp

theorem sweepRequest_frame {q : Pocket} {s t : State} (h : sweepRequest q s = some t) :
    t.trk = s.trk ∧
    t.pcm = s.pcm ∧
    t.scu = s.scu ∧
    t.mkf = s.mkf ∧
    t.ptc = s.ptc ∧
    t.can = s.can ∧
    t.flc.line = s.flc.line ∧
    t.flc.countdown = s.flc.countdown ∧
    t.flc.fault = s.flc.fault ∧
    t.flc.faultCount = s.flc.faultCount ∧
    t.flc.cleanRun = s.flc.cleanRun ∧
    t.flc.runUp = s.flc.runUp ∧
    t.flc.runUpQual = s.flc.runUpQual ∧
    t.flc.warmup = s.flc.warmup ∧
    t.flc.drainLimit = s.flc.drainLimit ∧
    t.flc.estop = s.flc.estop ∧
    t.flc.horn = s.flc.horn ∧
    t.cnb = s.cnb ∧
    t.llk.rx = s.llk.rx ∧
    t.llk.answers = s.llk.answers ∧
    t.llk.restarting = s.llk.restarting ∧
    t.llk.silenceStart = s.llk.silenceStart ∧
    t.llk.silent = s.llk.silent ∧
    t.llk.tx = s.llk.tx ∧
    t.llk.opening = s.llk.opening ∧
    t.pfs = s.pfs ∧
    t.now = s.now ∧
    t.fresh = s.fresh ∧
    t.pending = s.pending := by
  unfold sweepRequest at h
  split at h
  all_goals first | cases h; simp | cases h

@[simp] theorem doPocketAction_frame (q : Pocket) (a : PocketAction) (s : State) :
    (doPocketAction q a s).1.trk = s.trk ∧
    (doPocketAction q a s).1.pcm = s.pcm ∧
    (doPocketAction q a s).1.scu = s.scu ∧
    (doPocketAction q a s).1.mkf = s.mkf ∧
    (doPocketAction q a s).1.ptc = s.ptc ∧
    (doPocketAction q a s).1.can = s.can ∧
    (doPocketAction q a s).1.flc.line = s.flc.line ∧
    (doPocketAction q a s).1.flc.countdown = s.flc.countdown ∧
    (doPocketAction q a s).1.flc.fault = s.flc.fault ∧
    (doPocketAction q a s).1.flc.faultCount = s.flc.faultCount ∧
    (doPocketAction q a s).1.flc.cleanRun = s.flc.cleanRun ∧
    (doPocketAction q a s).1.flc.runUp = s.flc.runUp ∧
    (doPocketAction q a s).1.flc.runUpQual = s.flc.runUpQual ∧
    (doPocketAction q a s).1.flc.warmup = s.flc.warmup ∧
    (doPocketAction q a s).1.flc.drainLimit = s.flc.drainLimit ∧
    (doPocketAction q a s).1.flc.estop = s.flc.estop ∧
    (doPocketAction q a s).1.flc.horn = s.flc.horn ∧
    (doPocketAction q a s).1.cnb = s.cnb ∧
    (doPocketAction q a s).1.llk.rx = s.llk.rx ∧
    (doPocketAction q a s).1.llk.answers = s.llk.answers ∧
    (doPocketAction q a s).1.llk.restarting = s.llk.restarting ∧
    (doPocketAction q a s).1.llk.silenceStart = s.llk.silenceStart ∧
    (doPocketAction q a s).1.llk.silent = s.llk.silent ∧
    (doPocketAction q a s).1.llk.tx = s.llk.tx ∧
    (doPocketAction q a s).1.llk.opening = s.llk.opening ∧
    (doPocketAction q a s).1.pfs = s.pfs ∧
    (doPocketAction q a s).1.now = s.now ∧
    (doPocketAction q a s).1.fresh = s.fresh ∧
    (doPocketAction q a s).1.pending = s.pending := by
  cases a with
  | sweep =>
    simp only [doPocketAction]
    split
    · rename_i h; simpa using sweepRequest_frame h
    · simp
  | done => simp only [doPocketAction]; split <;> simp
  | disable => simp only [doPocketAction]; (repeat' split) <;> simp
  | enable => simp only [doPocketAction]; split <;> simp

@[simp] theorem doPocket_frame (q : Pocket) (a : PocketAction) (s : State) :
    (doPocket q a s).1.trk = s.trk ∧
    (doPocket q a s).1.pcm = s.pcm ∧
    (doPocket q a s).1.scu = s.scu ∧
    (doPocket q a s).1.mkf = s.mkf ∧
    (doPocket q a s).1.ptc = s.ptc ∧
    (doPocket q a s).1.can = s.can ∧
    (doPocket q a s).1.flc.line = s.flc.line ∧
    (doPocket q a s).1.flc.countdown = s.flc.countdown ∧
    (doPocket q a s).1.flc.fault = s.flc.fault ∧
    (doPocket q a s).1.flc.faultCount = s.flc.faultCount ∧
    (doPocket q a s).1.flc.cleanRun = s.flc.cleanRun ∧
    (doPocket q a s).1.flc.runUp = s.flc.runUp ∧
    (doPocket q a s).1.flc.runUpQual = s.flc.runUpQual ∧
    (doPocket q a s).1.flc.warmup = s.flc.warmup ∧
    (doPocket q a s).1.flc.drainLimit = s.flc.drainLimit ∧
    (doPocket q a s).1.flc.estop = s.flc.estop ∧
    (doPocket q a s).1.flc.horn = s.flc.horn ∧
    (doPocket q a s).1.cnb = s.cnb ∧
    (doPocket q a s).1.llk.rx = s.llk.rx ∧
    (doPocket q a s).1.llk.answers = s.llk.answers ∧
    (doPocket q a s).1.llk.restarting = s.llk.restarting ∧
    (doPocket q a s).1.llk.silenceStart = s.llk.silenceStart ∧
    (doPocket q a s).1.llk.silent = s.llk.silent ∧
    (doPocket q a s).1.llk.tx = s.llk.tx ∧
    (doPocket q a s).1.llk.opening = s.llk.opening ∧
    (doPocket q a s).1.pfs = s.pfs ∧
    (doPocket q a s).1.now = s.now ∧
    (doPocket q a s).1.fresh = s.fresh ∧
    (doPocket q a s).1.pending = s.pending := by
  unfold doPocket
  (try dsimp only)
  (repeat' split) <;> simp

@[simp] theorem doSnap_frame (s : State) :
    (doSnap s).1.trk = s.trk ∧
    (doSnap s).1.pcm = s.pcm ∧
    (doSnap s).1.scu = s.scu ∧
    (doSnap s).1.mkf = s.mkf ∧
    (doSnap s).1.ptc = s.ptc ∧
    (doSnap s).1.can = s.can ∧
    (doSnap s).1.pkc = s.pkc ∧
    (doSnap s).1.flc = s.flc ∧
    (doSnap s).1.cnb.bank = s.cnb.bank ∧
    (doSnap s).1.cnb.remainder = s.cnb.remainder ∧
    (doSnap s).1.cnb.records = s.cnb.records ∧
    (doSnap s).1.llk = s.llk ∧
    (doSnap s).1.pfs = s.pfs ∧
    (doSnap s).1.now = s.now ∧
    (doSnap s).1.fresh = s.fresh ∧
    (doSnap s).1.pending = s.pending := by
  unfold doSnap
  (try dsimp only)
  (repeat' split) <;> simp

@[simp] theorem doCount_frame (page : Nat) (s : State) :
    (doCount page s).1.trk = s.trk ∧
    (doCount page s).1.pcm = s.pcm ∧
    (doCount page s).1.scu = s.scu ∧
    (doCount page s).1.mkf = s.mkf ∧
    (doCount page s).1.ptc = s.ptc ∧
    (doCount page s).1.can = s.can ∧
    (doCount page s).1.pkc = s.pkc ∧
    (doCount page s).1.flc = s.flc ∧
    (doCount page s).1.cnb = s.cnb ∧
    (doCount page s).1.llk = s.llk ∧
    (doCount page s).1.pfs = s.pfs ∧
    (doCount page s).1.now = s.now ∧
    (doCount page s).1.fresh = s.fresh ∧
    (doCount page s).1.pending = s.pending := by
  unfold doCount
  (try dsimp only)
  (repeat' split) <;> simp

@[simp] theorem doZero_frame (s : State) :
    (doZero s).1.trk = s.trk ∧
    (doZero s).1.pcm = s.pcm ∧
    (doZero s).1.scu = s.scu ∧
    (doZero s).1.mkf = s.mkf ∧
    (doZero s).1.ptc = s.ptc ∧
    (doZero s).1.can = s.can ∧
    (doZero s).1.pkc = s.pkc ∧
    (doZero s).1.flc = s.flc ∧
    (doZero s).1.cnb.records = s.cnb.records ∧
    (doZero s).1.llk = s.llk ∧
    (doZero s).1.pfs = s.pfs ∧
    (doZero s).1.now = s.now ∧
    (doZero s).1.fresh = s.fresh ∧
    (doZero s).1.pending = s.pending := by
  unfold doZero
  (try dsimp only)
  (repeat' split) <;> simp

@[simp] theorem doTable_frame (first : Option Nat) (s : State) :
    (doTable first s).1.trk = s.trk ∧
    (doTable first s).1.pcm = s.pcm ∧
    (doTable first s).1.scu = s.scu ∧
    (doTable first s).1.mkf = s.mkf ∧
    (doTable first s).1.ptc = s.ptc ∧
    (doTable first s).1.can = s.can ∧
    (doTable first s).1.pkc = s.pkc ∧
    (doTable first s).1.flc = s.flc ∧
    (doTable first s).1.cnb = s.cnb ∧
    (doTable first s).1.llk = s.llk ∧
    (doTable first s).1.pfs = s.pfs ∧
    (doTable first s).1.now = s.now ∧
    (doTable first s).1.fresh = s.fresh ∧
    (doTable first s).1.pending = s.pending := by
  unfold doTable
  (try dsimp only)
  (repeat' split) <;> simp

@[simp] theorem ackKind_frame (k : Kind) (s : State) :
    (ackKind k s).trk = s.trk ∧
    (ackKind k s).pcm = s.pcm ∧
    (ackKind k s).scu = s.scu ∧
    (ackKind k s).mkf = s.mkf ∧
    (ackKind k s).ptc = s.ptc ∧
    (ackKind k s).can = s.can ∧
    (ackKind k s).pkc = s.pkc ∧
    (ackKind k s).flc = s.flc ∧
    (ackKind k s).cnb = s.cnb ∧
    (ackKind k s).llk.rx = s.llk.rx ∧
    (ackKind k s).llk.answers = s.llk.answers ∧
    (ackKind k s).llk.restarting = s.llk.restarting ∧
    (ackKind k s).llk.silenceStart = s.llk.silenceStart ∧
    (ackKind k s).llk.silent = s.llk.silent ∧
    (ackKind k s).llk.tx = s.llk.tx ∧
    (ackKind k s).llk.opening = s.llk.opening ∧
    (ackKind k s).pfs = s.pfs ∧
    (ackKind k s).now = s.now ∧
    (ackKind k s).fresh = s.fresh ∧
    (ackKind k s).pending = s.pending := by
  unfold ackKind
  (try dsimp only)
  (repeat' split) <;> simp

@[simp] theorem ackKinds_frame (l : List Kind) (s : State) :
    (l.foldl (fun t k => ackKind k t) s).trk = s.trk ∧
    (l.foldl (fun t k => ackKind k t) s).pcm = s.pcm ∧
    (l.foldl (fun t k => ackKind k t) s).scu = s.scu ∧
    (l.foldl (fun t k => ackKind k t) s).mkf = s.mkf ∧
    (l.foldl (fun t k => ackKind k t) s).ptc = s.ptc ∧
    (l.foldl (fun t k => ackKind k t) s).can = s.can ∧
    (l.foldl (fun t k => ackKind k t) s).pkc = s.pkc ∧
    (l.foldl (fun t k => ackKind k t) s).flc = s.flc ∧
    (l.foldl (fun t k => ackKind k t) s).cnb = s.cnb ∧
    (l.foldl (fun t k => ackKind k t) s).llk.rx = s.llk.rx ∧
    (l.foldl (fun t k => ackKind k t) s).llk.answers = s.llk.answers ∧
    (l.foldl (fun t k => ackKind k t) s).llk.restarting = s.llk.restarting ∧
    (l.foldl (fun t k => ackKind k t) s).llk.silenceStart = s.llk.silenceStart ∧
    (l.foldl (fun t k => ackKind k t) s).llk.silent = s.llk.silent ∧
    (l.foldl (fun t k => ackKind k t) s).llk.tx = s.llk.tx ∧
    (l.foldl (fun t k => ackKind k t) s).llk.opening = s.llk.opening ∧
    (l.foldl (fun t k => ackKind k t) s).pfs = s.pfs ∧
    (l.foldl (fun t k => ackKind k t) s).now = s.now ∧
    (l.foldl (fun t k => ackKind k t) s).fresh = s.fresh ∧
    (l.foldl (fun t k => ackKind k t) s).pending = s.pending :=
  ⟨foldl_frame _ (fun t => t.trk) (fun a t => by simp) l s,
    foldl_frame _ (fun t => t.pcm) (fun a t => by simp) l s,
    foldl_frame _ (fun t => t.scu) (fun a t => by simp) l s,
    foldl_frame _ (fun t => t.mkf) (fun a t => by simp) l s,
    foldl_frame _ (fun t => t.ptc) (fun a t => by simp) l s,
    foldl_frame _ (fun t => t.can) (fun a t => by simp) l s,
    foldl_frame _ (fun t => t.pkc) (fun a t => by simp) l s,
    foldl_frame _ (fun t => t.flc) (fun a t => by simp) l s,
    foldl_frame _ (fun t => t.cnb) (fun a t => by simp) l s,
    foldl_frame _ (fun t => t.llk.rx) (fun a t => by simp) l s,
    foldl_frame _ (fun t => t.llk.answers) (fun a t => by simp) l s,
    foldl_frame _ (fun t => t.llk.restarting) (fun a t => by simp) l s,
    foldl_frame _ (fun t => t.llk.silenceStart) (fun a t => by simp) l s,
    foldl_frame _ (fun t => t.llk.silent) (fun a t => by simp) l s,
    foldl_frame _ (fun t => t.llk.tx) (fun a t => by simp) l s,
    foldl_frame _ (fun t => t.llk.opening) (fun a t => by simp) l s,
    foldl_frame _ (fun t => t.pfs) (fun a t => by simp) l s,
    foldl_frame _ (fun t => t.now) (fun a t => by simp) l s,
    foldl_frame _ (fun t => t.fresh) (fun a t => by simp) l s,
    foldl_frame _ (fun t => t.pending) (fun a t => by simp) l s⟩

@[simp] theorem doAck_frame (kinds : List Kind) (s : State) :
    (doAck kinds s).1.trk = s.trk ∧
    (doAck kinds s).1.pcm = s.pcm ∧
    (doAck kinds s).1.scu = s.scu ∧
    (doAck kinds s).1.mkf = s.mkf ∧
    (doAck kinds s).1.ptc = s.ptc ∧
    (doAck kinds s).1.can = s.can ∧
    (doAck kinds s).1.pkc = s.pkc ∧
    (doAck kinds s).1.flc = s.flc ∧
    (doAck kinds s).1.cnb = s.cnb ∧
    (doAck kinds s).1.llk.rx = s.llk.rx ∧
    (doAck kinds s).1.llk.answers = s.llk.answers ∧
    (doAck kinds s).1.llk.restarting = s.llk.restarting ∧
    (doAck kinds s).1.llk.silenceStart = s.llk.silenceStart ∧
    (doAck kinds s).1.llk.silent = s.llk.silent ∧
    (doAck kinds s).1.llk.tx = s.llk.tx ∧
    (doAck kinds s).1.llk.opening = s.llk.opening ∧
    (doAck kinds s).1.pfs = s.pfs ∧
    (doAck kinds s).1.now = s.now ∧
    (doAck kinds s).1.fresh = s.fresh ∧
    (doAck kinds s).1.pending = s.pending := by
  unfold doAck
  (try dsimp only)
  (repeat' split) <;> simp

@[simp] theorem maskKind_frame (mask : List Kind) (s : State) (k : Kind) :
    (maskKind mask s k).trk = s.trk ∧
    (maskKind mask s k).pcm = s.pcm ∧
    (maskKind mask s k).scu = s.scu ∧
    (maskKind mask s k).mkf = s.mkf ∧
    (maskKind mask s k).ptc = s.ptc ∧
    (maskKind mask s k).can = s.can ∧
    (maskKind mask s k).pkc = s.pkc ∧
    (maskKind mask s k).flc = s.flc ∧
    (maskKind mask s k).cnb = s.cnb ∧
    (maskKind mask s k).llk.rx = s.llk.rx ∧
    (maskKind mask s k).llk.answers = s.llk.answers ∧
    (maskKind mask s k).llk.restarting = s.llk.restarting ∧
    (maskKind mask s k).llk.silenceStart = s.llk.silenceStart ∧
    (maskKind mask s k).llk.silent = s.llk.silent ∧
    (maskKind mask s k).llk.tx = s.llk.tx ∧
    (maskKind mask s k).llk.opening = s.llk.opening ∧
    (maskKind mask s k).pfs = s.pfs ∧
    (maskKind mask s k).now = s.now ∧
    (maskKind mask s k).fresh = s.fresh ∧
    (maskKind mask s k).pending = s.pending := by
  unfold maskKind
  (try dsimp only)
  (repeat' split) <;> simp

@[simp] theorem maskKinds_frame (ks : List Kind) (l : List Kind) (s : State) :
    (l.foldl (maskKind ks) s).trk = s.trk ∧
    (l.foldl (maskKind ks) s).pcm = s.pcm ∧
    (l.foldl (maskKind ks) s).scu = s.scu ∧
    (l.foldl (maskKind ks) s).mkf = s.mkf ∧
    (l.foldl (maskKind ks) s).ptc = s.ptc ∧
    (l.foldl (maskKind ks) s).can = s.can ∧
    (l.foldl (maskKind ks) s).pkc = s.pkc ∧
    (l.foldl (maskKind ks) s).flc = s.flc ∧
    (l.foldl (maskKind ks) s).cnb = s.cnb ∧
    (l.foldl (maskKind ks) s).llk.rx = s.llk.rx ∧
    (l.foldl (maskKind ks) s).llk.answers = s.llk.answers ∧
    (l.foldl (maskKind ks) s).llk.restarting = s.llk.restarting ∧
    (l.foldl (maskKind ks) s).llk.silenceStart = s.llk.silenceStart ∧
    (l.foldl (maskKind ks) s).llk.silent = s.llk.silent ∧
    (l.foldl (maskKind ks) s).llk.tx = s.llk.tx ∧
    (l.foldl (maskKind ks) s).llk.opening = s.llk.opening ∧
    (l.foldl (maskKind ks) s).pfs = s.pfs ∧
    (l.foldl (maskKind ks) s).now = s.now ∧
    (l.foldl (maskKind ks) s).fresh = s.fresh ∧
    (l.foldl (maskKind ks) s).pending = s.pending :=
  ⟨foldl_frame _ (fun t => t.trk) (fun a t => by simp) l s,
    foldl_frame _ (fun t => t.pcm) (fun a t => by simp) l s,
    foldl_frame _ (fun t => t.scu) (fun a t => by simp) l s,
    foldl_frame _ (fun t => t.mkf) (fun a t => by simp) l s,
    foldl_frame _ (fun t => t.ptc) (fun a t => by simp) l s,
    foldl_frame _ (fun t => t.can) (fun a t => by simp) l s,
    foldl_frame _ (fun t => t.pkc) (fun a t => by simp) l s,
    foldl_frame _ (fun t => t.flc) (fun a t => by simp) l s,
    foldl_frame _ (fun t => t.cnb) (fun a t => by simp) l s,
    foldl_frame _ (fun t => t.llk.rx) (fun a t => by simp) l s,
    foldl_frame _ (fun t => t.llk.answers) (fun a t => by simp) l s,
    foldl_frame _ (fun t => t.llk.restarting) (fun a t => by simp) l s,
    foldl_frame _ (fun t => t.llk.silenceStart) (fun a t => by simp) l s,
    foldl_frame _ (fun t => t.llk.silent) (fun a t => by simp) l s,
    foldl_frame _ (fun t => t.llk.tx) (fun a t => by simp) l s,
    foldl_frame _ (fun t => t.llk.opening) (fun a t => by simp) l s,
    foldl_frame _ (fun t => t.pfs) (fun a t => by simp) l s,
    foldl_frame _ (fun t => t.now) (fun a t => by simp) l s,
    foldl_frame _ (fun t => t.fresh) (fun a t => by simp) l s,
    foldl_frame _ (fun t => t.pending) (fun a t => by simp) l s⟩

@[simp] theorem doMask_frame (kinds : List Kind) (s : State) :
    (doMask kinds s).1.trk = s.trk ∧
    (doMask kinds s).1.pcm = s.pcm ∧
    (doMask kinds s).1.scu = s.scu ∧
    (doMask kinds s).1.mkf = s.mkf ∧
    (doMask kinds s).1.ptc = s.ptc ∧
    (doMask kinds s).1.can = s.can ∧
    (doMask kinds s).1.pkc = s.pkc ∧
    (doMask kinds s).1.flc = s.flc ∧
    (doMask kinds s).1.cnb = s.cnb ∧
    (doMask kinds s).1.llk.rx = s.llk.rx ∧
    (doMask kinds s).1.llk.answers = s.llk.answers ∧
    (doMask kinds s).1.llk.restarting = s.llk.restarting ∧
    (doMask kinds s).1.llk.silenceStart = s.llk.silenceStart ∧
    (doMask kinds s).1.llk.silent = s.llk.silent ∧
    (doMask kinds s).1.llk.tx = s.llk.tx ∧
    (doMask kinds s).1.llk.opening = s.llk.opening ∧
    (doMask kinds s).1.pfs = s.pfs ∧
    (doMask kinds s).1.now = s.now ∧
    (doMask kinds s).1.fresh = s.fresh ∧
    (doMask kinds s).1.pending = s.pending := by
  unfold doMask
  (try dsimp only)
  (repeat' split) <;> simp

@[simp] theorem doHeadRetry_frame (h : Head) (s : State) :
    (doHeadRetry h s).1.trk = s.trk ∧
    (doHeadRetry h s).1.pcm = s.pcm ∧
    (doHeadRetry h s).1.scu.bufs = s.scu.bufs ∧
    (doHeadRetry h s).1.mkf = s.mkf ∧
    (doHeadRetry h s).1.ptc = s.ptc ∧
    (doHeadRetry h s).1.can.dater = s.can.dater ∧
    (doHeadRetry h s).1.pkc = s.pkc ∧
    (doHeadRetry h s).1.flc.countdown = s.flc.countdown ∧
    (doHeadRetry h s).1.flc.fault = s.flc.fault ∧
    (doHeadRetry h s).1.flc.faultCount = s.flc.faultCount ∧
    (doHeadRetry h s).1.flc.cleanRun = s.flc.cleanRun ∧
    (doHeadRetry h s).1.flc.estop = s.flc.estop ∧
    (doHeadRetry h s).1.flc.horn = s.flc.horn ∧
    (doHeadRetry h s).1.cnb.bank = s.cnb.bank ∧
    (doHeadRetry h s).1.cnb.remainder = s.cnb.remainder ∧
    (doHeadRetry h s).1.cnb.records = s.cnb.records ∧
    (doHeadRetry h s).1.llk.rx = s.llk.rx ∧
    (doHeadRetry h s).1.llk.answers = s.llk.answers ∧
    (doHeadRetry h s).1.llk.restarting = s.llk.restarting ∧
    (doHeadRetry h s).1.llk.silenceStart = s.llk.silenceStart ∧
    (doHeadRetry h s).1.llk.silent = s.llk.silent ∧
    (doHeadRetry h s).1.llk.tx = s.llk.tx ∧
    (doHeadRetry h s).1.llk.opening = s.llk.opening ∧
    (doHeadRetry h s).1.pfs = s.pfs ∧
    (doHeadRetry h s).1.now = s.now ∧
    (doHeadRetry h s).1.fresh = s.fresh ∧
    (doHeadRetry h s).1.pending = s.pending := by
  unfold doHeadRetry
  (try dsimp only)
  (repeat' split) <;> simp

@[simp] theorem doCancellerClear_frame (c : Stream) (s : State) :
    (doCancellerClear c s).1.trk = s.trk ∧
    (doCancellerClear c s).1.pcm = s.pcm ∧
    (doCancellerClear c s).1.scu = s.scu ∧
    (doCancellerClear c s).1.mkf = s.mkf ∧
    (doCancellerClear c s).1.ptc = s.ptc ∧
    (doCancellerClear c s).1.can.dater = s.can.dater ∧
    (doCancellerClear c s).1.pkc = s.pkc ∧
    (doCancellerClear c s).1.flc.line = s.flc.line ∧
    (doCancellerClear c s).1.flc.countdown = s.flc.countdown ∧
    (doCancellerClear c s).1.flc.fault = s.flc.fault ∧
    (doCancellerClear c s).1.flc.faultCount = s.flc.faultCount ∧
    (doCancellerClear c s).1.flc.cleanRun = s.flc.cleanRun ∧
    (doCancellerClear c s).1.flc.runUp = s.flc.runUp ∧
    (doCancellerClear c s).1.flc.runUpQual = s.flc.runUpQual ∧
    (doCancellerClear c s).1.flc.warmup = s.flc.warmup ∧
    (doCancellerClear c s).1.flc.drainLimit = s.flc.drainLimit ∧
    (doCancellerClear c s).1.flc.estop = s.flc.estop ∧
    (doCancellerClear c s).1.flc.horn = s.flc.horn ∧
    (doCancellerClear c s).1.cnb = s.cnb ∧
    (doCancellerClear c s).1.llk.rx = s.llk.rx ∧
    (doCancellerClear c s).1.llk.answers = s.llk.answers ∧
    (doCancellerClear c s).1.llk.restarting = s.llk.restarting ∧
    (doCancellerClear c s).1.llk.silenceStart = s.llk.silenceStart ∧
    (doCancellerClear c s).1.llk.silent = s.llk.silent ∧
    (doCancellerClear c s).1.llk.tx = s.llk.tx ∧
    (doCancellerClear c s).1.llk.opening = s.llk.opening ∧
    (doCancellerClear c s).1.pfs = s.pfs ∧
    (doCancellerClear c s).1.now = s.now ∧
    (doCancellerClear c s).1.fresh = s.fresh ∧
    (doCancellerClear c s).1.pending = s.pending := by
  unfold doCancellerClear
  (try dsimp only)
  (repeat' split) <;> simp

@[simp] theorem doCapture_frame (wanted : Option MarkClass) (s : State) :
    (doCapture wanted s).1.trk = s.trk ∧
    (doCapture wanted s).1.pcm = s.pcm ∧
    (doCapture wanted s).1.scu = s.scu ∧
    (doCapture wanted s).1.mkf.work = s.mkf.work ∧
    (doCapture wanted s).1.mkf.slot = s.mkf.slot ∧
    (doCapture wanted s).1.ptc = s.ptc ∧
    (doCapture wanted s).1.can = s.can ∧
    (doCapture wanted s).1.pkc = s.pkc ∧
    (doCapture wanted s).1.flc = s.flc ∧
    (doCapture wanted s).1.cnb = s.cnb ∧
    (doCapture wanted s).1.llk = s.llk ∧
    (doCapture wanted s).1.pfs = s.pfs ∧
    (doCapture wanted s).1.now = s.now ∧
    (doCapture wanted s).1.fresh = s.fresh ∧
    (doCapture wanted s).1.pending = s.pending := by
  unfold doCapture
  (try dsimp only)
  (repeat' split) <;> simp

@[simp] theorem doCaptureOff_frame (s : State) :
    (doCaptureOff s).1.trk = s.trk ∧
    (doCaptureOff s).1.pcm = s.pcm ∧
    (doCaptureOff s).1.scu.heads = s.scu.heads ∧
    (doCaptureOff s).1.scu.calStart = s.scu.calStart ∧
    (doCaptureOff s).1.scu.calDue = s.scu.calDue ∧
    (doCaptureOff s).1.mkf.work = s.mkf.work ∧
    (doCaptureOff s).1.mkf.slot = s.mkf.slot ∧
    (doCaptureOff s).1.ptc = s.ptc ∧
    (doCaptureOff s).1.can = s.can ∧
    (doCaptureOff s).1.pkc = s.pkc ∧
    (doCaptureOff s).1.flc = s.flc ∧
    (doCaptureOff s).1.cnb = s.cnb ∧
    (doCaptureOff s).1.llk = s.llk ∧
    (doCaptureOff s).1.pfs = s.pfs ∧
    (doCaptureOff s).1.now = s.now ∧
    (doCaptureOff s).1.fresh = s.fresh ∧
    (doCaptureOff s).1.pending = s.pending := by
  unfold doCaptureOff
  (try dsimp only)
  (repeat' split) <;> simp

@[simp] theorem doRestart_frame (s : State) :
    (doRestart s).1.trk = s.trk ∧
    (doRestart s).1.pcm = s.pcm ∧
    (doRestart s).1.scu = s.scu ∧
    (doRestart s).1.mkf = s.mkf ∧
    (doRestart s).1.ptc = s.ptc ∧
    (doRestart s).1.can = s.can ∧
    (doRestart s).1.pkc = s.pkc ∧
    (doRestart s).1.flc = s.flc ∧
    (doRestart s).1.cnb = s.cnb ∧
    (doRestart s).1.llk.rx = s.llk.rx ∧
    (doRestart s).1.llk.answers = s.llk.answers ∧
    (doRestart s).1.llk.silenceStart = s.llk.silenceStart ∧
    (doRestart s).1.llk.silent = s.llk.silent ∧
    (doRestart s).1.llk.flags = s.llk.flags ∧
    (doRestart s).1.llk.reports = s.llk.reports ∧
    (doRestart s).1.llk.tx = s.llk.tx ∧
    (doRestart s).1.llk.opening = s.llk.opening ∧
    (doRestart s).1.pfs = s.pfs ∧
    (doRestart s).1.now = s.now ∧
    (doRestart s).1.fresh = s.fresh ∧
    (doRestart s).1.pending = s.pending := by
  unfold doRestart
  (try dsimp only)
  (repeat' split) <;> simp

@[simp] theorem perform_frame (r : Request) (s : State) :
    (perform r s).1.trk.belt = s.trk.belt ∧
    (perform r s).1.trk.samples = s.trk.samples ∧
    (perform r s).1.trk.speed = s.trk.speed ∧
    (perform r s).1.trk.nextNumber = s.trk.nextNumber ∧
    (perform r s).1.trk.measuring = s.trk.measuring ∧
    (perform r s).1.trk.overTaken = s.trk.overTaken ∧
    (perform r s).1.pcm.cells = s.pcm.cells ∧
    (perform r s).1.mkf.work = s.mkf.work ∧
    (perform r s).1.mkf.slot = s.mkf.slot ∧
    (perform r s).1.flc.estop = s.flc.estop ∧
    (perform r s).1.flc.horn = s.flc.horn ∧
    (perform r s).1.llk.rx = s.llk.rx ∧
    (perform r s).1.llk.answers = s.llk.answers ∧
    (perform r s).1.llk.silenceStart = s.llk.silenceStart ∧
    (perform r s).1.llk.silent = s.llk.silent ∧
    (perform r s).1.llk.tx = s.llk.tx ∧
    (perform r s).1.llk.opening = s.llk.opening ∧
    (perform r s).1.now = s.now ∧
    (perform r s).1.fresh = s.fresh ∧
    (perform r s).1.pending = s.pending := by
  unfold perform
  (try dsimp only)
  (repeat' split) <;> simp

@[simp] theorem pickAvailable_frame (s : State) :
    (pickAvailable s).trk = s.trk ∧
    (pickAvailable s).pcm = s.pcm ∧
    (pickAvailable s).scu = s.scu ∧
    (pickAvailable s).mkf = s.mkf ∧
    (pickAvailable s).ptc = s.ptc ∧
    (pickAvailable s).can = s.can ∧
    (pickAvailable s).pkc = s.pkc ∧
    (pickAvailable s).flc = s.flc ∧
    (pickAvailable s).cnb = s.cnb ∧
    (pickAvailable s).llk.rx = s.llk.rx ∧
    (pickAvailable s).llk.answers = s.llk.answers ∧
    (pickAvailable s).llk.restarting = s.llk.restarting ∧
    (pickAvailable s).llk.silenceStart = s.llk.silenceStart ∧
    (pickAvailable s).llk.silent = s.llk.silent ∧
    (pickAvailable s).llk.flags = s.llk.flags ∧
    (pickAvailable s).llk.opening = s.llk.opening ∧
    (pickAvailable s).pfs = s.pfs ∧
    (pickAvailable s).now = s.now ∧
    (pickAvailable s).fresh = s.fresh ∧
    (pickAvailable s).pending = s.pending := by
  unfold pickAvailable
  (try dsimp only)
  (repeat' split) <;> simp

@[simp] theorem pick_frame (s : State) :
    (pick s).trk = s.trk ∧
    (pick s).pcm = s.pcm ∧
    (pick s).scu = s.scu ∧
    (pick s).mkf = s.mkf ∧
    (pick s).ptc = s.ptc ∧
    (pick s).can = s.can ∧
    (pick s).pkc = s.pkc ∧
    (pick s).flc = s.flc ∧
    (pick s).cnb = s.cnb ∧
    (pick s).llk.rx = s.llk.rx ∧
    (pick s).llk.answers = s.llk.answers ∧
    (pick s).llk.restarting = s.llk.restarting ∧
    (pick s).llk.silenceStart = s.llk.silenceStart ∧
    (pick s).llk.silent = s.llk.silent ∧
    (pick s).llk.flags = s.llk.flags ∧
    (pick s).pfs = s.pfs ∧
    (pick s).now = s.now ∧
    (pick s).fresh = s.fresh ∧
    (pick s).pending = s.pending := by
  unfold pick
  (try dsimp only)
  (repeat' split) <;> simp

@[simp] theorem pump_frame (s : State) :
    (pump s).trk = s.trk ∧
    (pump s).pcm = s.pcm ∧
    (pump s).scu = s.scu ∧
    (pump s).mkf = s.mkf ∧
    (pump s).ptc = s.ptc ∧
    (pump s).can = s.can ∧
    (pump s).pkc = s.pkc ∧
    (pump s).flc = s.flc ∧
    (pump s).cnb = s.cnb ∧
    (pump s).llk.rx = s.llk.rx ∧
    (pump s).llk.answers = s.llk.answers ∧
    (pump s).llk.restarting = s.llk.restarting ∧
    (pump s).llk.silenceStart = s.llk.silenceStart ∧
    (pump s).llk.silent = s.llk.silent ∧
    (pump s).llk.flags = s.llk.flags ∧
    (pump s).pfs = s.pfs ∧
    (pump s).now = s.now ∧
    (pump s).fresh = s.fresh ∧
    (pump s).pending = s.pending := by
  unfold pump
  (try dsimp only)
  (repeat' split) <;> simp

@[simp] theorem endEvent_frame (b s : State) :
    (endEvent b s).trk = s.trk ∧
    (endEvent b s).pcm = s.pcm ∧
    (endEvent b s).scu = s.scu ∧
    (endEvent b s).mkf = s.mkf ∧
    (endEvent b s).ptc = s.ptc ∧
    (endEvent b s).can = s.can ∧
    (endEvent b s).pkc = s.pkc ∧
    (endEvent b s).flc = s.flc ∧
    (endEvent b s).cnb.remainder = s.cnb.remainder ∧
    (endEvent b s).cnb.snap = s.cnb.snap ∧
    (endEvent b s).cnb.records = s.cnb.records ∧
    (endEvent b s).llk.rx = s.llk.rx ∧
    (endEvent b s).llk.answers = s.llk.answers ∧
    (endEvent b s).llk.restarting = s.llk.restarting ∧
    (endEvent b s).llk.silenceStart = s.llk.silenceStart ∧
    (endEvent b s).llk.silent = s.llk.silent ∧
    (endEvent b s).pfs = s.pfs ∧
    (endEvent b s).now = s.now ∧
    (endEvent b s).fresh = s.fresh ∧
    (endEvent b s).pending = s.pending := by
  unfold endEvent
  (try dsimp only)
  (repeat' split) <;> simp

@[simp] theorem endStacking_frame (b s : State) :
    (endStacking b s).trk = s.trk ∧
    (endStacking b s).pcm = s.pcm ∧
    (endStacking b s).scu = s.scu ∧
    (endStacking b s).mkf = s.mkf ∧
    (endStacking b s).ptc = s.ptc ∧
    (endStacking b s).can.dater = s.can.dater ∧
    (endStacking b s).pkc = s.pkc ∧
    (endStacking b s).flc.countdown = s.flc.countdown ∧
    (endStacking b s).flc.fault = s.flc.fault ∧
    (endStacking b s).flc.faultCount = s.flc.faultCount ∧
    (endStacking b s).flc.cleanRun = s.flc.cleanRun ∧
    (endStacking b s).flc.runUp = s.flc.runUp ∧
    (endStacking b s).flc.runUpQual = s.flc.runUpQual ∧
    (endStacking b s).flc.warmup = s.flc.warmup ∧
    (endStacking b s).flc.estop = s.flc.estop ∧
    (endStacking b s).flc.horn = s.flc.horn ∧
    (endStacking b s).cnb.remainder = s.cnb.remainder ∧
    (endStacking b s).cnb.records = s.cnb.records ∧
    (endStacking b s).llk.rx = s.llk.rx ∧
    (endStacking b s).llk.answers = s.llk.answers ∧
    (endStacking b s).llk.restarting = s.llk.restarting ∧
    (endStacking b s).llk.silenceStart = s.llk.silenceStart ∧
    (endStacking b s).llk.silent = s.llk.silent ∧
    (endStacking b s).pfs = s.pfs ∧
    (endStacking b s).now = s.now ∧
    (endStacking b s).fresh = s.fresh ∧
    (endStacking b s).pending = s.pending := by
  unfold endStacking
  (try dsimp only)
  (repeat' split) <;> simp

@[simp] theorem linkError_frame (e : LinkError) (s : State) :
    (linkError e s).trk = s.trk ∧
    (linkError e s).pcm = s.pcm ∧
    (linkError e s).scu = s.scu ∧
    (linkError e s).mkf = s.mkf ∧
    (linkError e s).ptc = s.ptc ∧
    (linkError e s).can = s.can ∧
    (linkError e s).pkc = s.pkc ∧
    (linkError e s).flc = s.flc ∧
    (linkError e s).cnb = s.cnb ∧
    (linkError e s).llk.rx = s.llk.rx ∧
    (linkError e s).llk.answers = s.llk.answers ∧
    (linkError e s).llk.restarting = s.llk.restarting ∧
    (linkError e s).llk.silenceStart = s.llk.silenceStart ∧
    (linkError e s).llk.silent = s.llk.silent ∧
    (linkError e s).llk.tx = s.llk.tx ∧
    (linkError e s).llk.opening = s.llk.opening ∧
    (linkError e s).pfs = s.pfs ∧
    (linkError e s).now = s.now ∧
    (linkError e s).fresh = s.fresh ∧
    (linkError e s).pending = s.pending := by
  unfold linkError
  (try dsimp only)
  (repeat' split) <;> simp

@[simp] theorem takeRequests_frame (fuel : Nat) (s : State) :
    (takeRequests fuel s).trk.belt = s.trk.belt ∧
    (takeRequests fuel s).trk.samples = s.trk.samples ∧
    (takeRequests fuel s).trk.speed = s.trk.speed ∧
    (takeRequests fuel s).trk.nextNumber = s.trk.nextNumber ∧
    (takeRequests fuel s).trk.measuring = s.trk.measuring ∧
    (takeRequests fuel s).trk.overTaken = s.trk.overTaken ∧
    (takeRequests fuel s).pcm.cells = s.pcm.cells ∧
    (takeRequests fuel s).mkf.work = s.mkf.work ∧
    (takeRequests fuel s).mkf.slot = s.mkf.slot ∧
    (takeRequests fuel s).flc.estop = s.flc.estop ∧
    (takeRequests fuel s).flc.horn = s.flc.horn ∧
    (takeRequests fuel s).llk.rx = s.llk.rx ∧
    (takeRequests fuel s).llk.silenceStart = s.llk.silenceStart ∧
    (takeRequests fuel s).llk.silent = s.llk.silent ∧
    (takeRequests fuel s).llk.tx = s.llk.tx ∧
    (takeRequests fuel s).llk.opening = s.llk.opening ∧
    (takeRequests fuel s).now = s.now ∧
    (takeRequests fuel s).fresh = s.fresh ∧
    (takeRequests fuel s).pending = s.pending := by
  induction fuel generalizing s with
  | zero => simp [takeRequests]
  | succ k ih =>
    simp only [takeRequests]
    (repeat' split) <;> simp [ih]

@[simp] theorem submit_frame (r : Request) (s : State) :
    (submit r s).trk.belt = s.trk.belt ∧
    (submit r s).trk.samples = s.trk.samples ∧
    (submit r s).trk.speed = s.trk.speed ∧
    (submit r s).trk.nextNumber = s.trk.nextNumber ∧
    (submit r s).trk.measuring = s.trk.measuring ∧
    (submit r s).trk.overTaken = s.trk.overTaken ∧
    (submit r s).pcm.cells = s.pcm.cells ∧
    (submit r s).mkf.work = s.mkf.work ∧
    (submit r s).mkf.slot = s.mkf.slot ∧
    (submit r s).flc.estop = s.flc.estop ∧
    (submit r s).flc.horn = s.flc.horn ∧
    (submit r s).llk.rx = s.llk.rx ∧
    (submit r s).llk.tx = s.llk.tx ∧
    (submit r s).llk.opening = s.llk.opening ∧
    (submit r s).now = s.now ∧
    (submit r s).fresh = s.fresh ∧
    (submit r s).pending = s.pending := by
  unfold submit
  (try dsimp only)
  (repeat' split) <;> simp

@[simp] theorem submitMalformed_frame (e : LinkError) (reply : Reply) (s : State) :
    (submitMalformed e reply s).trk = s.trk ∧
    (submitMalformed e reply s).pcm = s.pcm ∧
    (submitMalformed e reply s).scu = s.scu ∧
    (submitMalformed e reply s).mkf = s.mkf ∧
    (submitMalformed e reply s).ptc = s.ptc ∧
    (submitMalformed e reply s).can = s.can ∧
    (submitMalformed e reply s).pkc = s.pkc ∧
    (submitMalformed e reply s).flc = s.flc ∧
    (submitMalformed e reply s).cnb = s.cnb ∧
    (submitMalformed e reply s).llk.rx = s.llk.rx ∧
    (submitMalformed e reply s).llk.restarting = s.llk.restarting ∧
    (submitMalformed e reply s).llk.silenceStart = s.llk.silenceStart ∧
    (submitMalformed e reply s).llk.silent = s.llk.silent ∧
    (submitMalformed e reply s).llk.tx = s.llk.tx ∧
    (submitMalformed e reply s).llk.opening = s.llk.opening ∧
    (submitMalformed e reply s).pfs = s.pfs ∧
    (submitMalformed e reply s).now = s.now ∧
    (submitMalformed e reply s).fresh = s.fresh ∧
    (submitMalformed e reply s).pending = s.pending := by
  unfold submitMalformed
  (try dsimp only)
  (repeat' split) <;> simp

@[simp] theorem completeLine_frame (rx : Rx) (s : State) :
    (completeLine rx s).trk.belt = s.trk.belt ∧
    (completeLine rx s).trk.samples = s.trk.samples ∧
    (completeLine rx s).trk.speed = s.trk.speed ∧
    (completeLine rx s).trk.nextNumber = s.trk.nextNumber ∧
    (completeLine rx s).trk.measuring = s.trk.measuring ∧
    (completeLine rx s).trk.overTaken = s.trk.overTaken ∧
    (completeLine rx s).pcm.cells = s.pcm.cells ∧
    (completeLine rx s).mkf.work = s.mkf.work ∧
    (completeLine rx s).mkf.slot = s.mkf.slot ∧
    (completeLine rx s).flc.estop = s.flc.estop ∧
    (completeLine rx s).flc.horn = s.flc.horn ∧
    (completeLine rx s).llk.rx = s.llk.rx ∧
    (completeLine rx s).llk.tx = s.llk.tx ∧
    (completeLine rx s).llk.opening = s.llk.opening ∧
    (completeLine rx s).now = s.now ∧
    (completeLine rx s).fresh = s.fresh ∧
    (completeLine rx s).pending = s.pending := by
  unfold completeLine
  (try dsimp only)
  (repeat' split) <;> simp

@[simp] theorem receive_frame (c : Byte) (framingError : Bool) (s : State) :
    (receive c framingError s).trk.belt = s.trk.belt ∧
    (receive c framingError s).trk.samples = s.trk.samples ∧
    (receive c framingError s).trk.speed = s.trk.speed ∧
    (receive c framingError s).trk.nextNumber = s.trk.nextNumber ∧
    (receive c framingError s).trk.measuring = s.trk.measuring ∧
    (receive c framingError s).trk.overTaken = s.trk.overTaken ∧
    (receive c framingError s).pcm.cells = s.pcm.cells ∧
    (receive c framingError s).mkf.work = s.mkf.work ∧
    (receive c framingError s).mkf.slot = s.mkf.slot ∧
    (receive c framingError s).flc.estop = s.flc.estop ∧
    (receive c framingError s).flc.horn = s.flc.horn ∧
    (receive c framingError s).llk.tx = s.llk.tx ∧
    (receive c framingError s).llk.opening = s.llk.opening ∧
    (receive c framingError s).now = s.now ∧
    (receive c framingError s).fresh = s.fresh ∧
    (receive c framingError s).pending = s.pending := by
  unfold receive
  (try dsimp only)
  (repeat' split) <;> simp

@[simp] theorem recordSent_frame (s : State) :
    (recordSent s).trk = s.trk ∧
    (recordSent s).pcm = s.pcm ∧
    (recordSent s).scu = s.scu ∧
    (recordSent s).mkf = s.mkf ∧
    (recordSent s).ptc = s.ptc ∧
    (recordSent s).can = s.can ∧
    (recordSent s).pkc = s.pkc ∧
    (recordSent s).flc.line = s.flc.line ∧
    (recordSent s).flc.countdown = s.flc.countdown ∧
    (recordSent s).flc.fault = s.flc.fault ∧
    (recordSent s).flc.faultCount = s.flc.faultCount ∧
    (recordSent s).flc.cleanRun = s.flc.cleanRun ∧
    (recordSent s).flc.runUp = s.flc.runUp ∧
    (recordSent s).flc.runUpQual = s.flc.runUpQual ∧
    (recordSent s).flc.warmup = s.flc.warmup ∧
    (recordSent s).flc.drainLimit = s.flc.drainLimit ∧
    (recordSent s).flc.estop = s.flc.estop ∧
    (recordSent s).flc.horn = s.flc.horn ∧
    (recordSent s).cnb.bank = s.cnb.bank ∧
    (recordSent s).cnb.remainder = s.cnb.remainder ∧
    (recordSent s).cnb.snap = s.cnb.snap ∧
    (recordSent s).llk = s.llk ∧
    (recordSent s).pfs = s.pfs ∧
    (recordSent s).now = s.now ∧
    (recordSent s).fresh = s.fresh ∧
    (recordSent s).pending = s.pending := by
  unfold recordSent
  (try dsimp only)
  (repeat' split) <;> simp

@[simp] theorem lineSent_frame (l : TxLine) (s : State) :
    (lineSent l s).trk = s.trk ∧
    (lineSent l s).pcm = s.pcm ∧
    (lineSent l s).scu.heads = s.scu.heads ∧
    (lineSent l s).scu.calStart = s.scu.calStart ∧
    (lineSent l s).scu.calDue = s.scu.calDue ∧
    (lineSent l s).mkf.work = s.mkf.work ∧
    (lineSent l s).mkf.slot = s.mkf.slot ∧
    (lineSent l s).ptc = s.ptc ∧
    (lineSent l s).can = s.can ∧
    (lineSent l s).pkc = s.pkc ∧
    (lineSent l s).flc.line = s.flc.line ∧
    (lineSent l s).flc.countdown = s.flc.countdown ∧
    (lineSent l s).flc.fault = s.flc.fault ∧
    (lineSent l s).flc.faultCount = s.flc.faultCount ∧
    (lineSent l s).flc.cleanRun = s.flc.cleanRun ∧
    (lineSent l s).flc.runUp = s.flc.runUp ∧
    (lineSent l s).flc.runUpQual = s.flc.runUpQual ∧
    (lineSent l s).flc.warmup = s.flc.warmup ∧
    (lineSent l s).flc.drainLimit = s.flc.drainLimit ∧
    (lineSent l s).flc.estop = s.flc.estop ∧
    (lineSent l s).flc.horn = s.flc.horn ∧
    (lineSent l s).cnb.bank = s.cnb.bank ∧
    (lineSent l s).cnb.remainder = s.cnb.remainder ∧
    (lineSent l s).cnb.snap = s.cnb.snap ∧
    (lineSent l s).llk.rx = s.llk.rx ∧
    (lineSent l s).llk.restarting = s.llk.restarting ∧
    (lineSent l s).llk.silenceStart = s.llk.silenceStart ∧
    (lineSent l s).llk.silent = s.llk.silent ∧
    (lineSent l s).llk.tx = s.llk.tx ∧
    (lineSent l s).llk.opening = s.llk.opening ∧
    (lineSent l s).pfs = s.pfs ∧
    (lineSent l s).now = s.now ∧
    (lineSent l s).fresh = s.fresh ∧
    (lineSent l s).pending = s.pending := by
  unfold lineSent
  (try dsimp only)
  (repeat' split) <;> simp

@[simp] theorem profileLoaded_frame (s : State) :
    (profileLoaded s).trk = s.trk ∧
    (profileLoaded s).pcm = s.pcm ∧
    (profileLoaded s).scu.bufs = s.scu.bufs ∧
    (profileLoaded s).mkf = s.mkf ∧
    (profileLoaded s).ptc = s.ptc ∧
    (profileLoaded s).can = s.can ∧
    (profileLoaded s).pkc.recs = s.pkc.recs ∧
    (profileLoaded s).flc.countdown = s.flc.countdown ∧
    (profileLoaded s).flc.fault = s.flc.fault ∧
    (profileLoaded s).flc.faultCount = s.flc.faultCount ∧
    (profileLoaded s).flc.cleanRun = s.flc.cleanRun ∧
    (profileLoaded s).flc.runUp = s.flc.runUp ∧
    (profileLoaded s).flc.runUpQual = s.flc.runUpQual ∧
    (profileLoaded s).flc.drainLimit = s.flc.drainLimit ∧
    (profileLoaded s).flc.estop = s.flc.estop ∧
    (profileLoaded s).flc.horn = s.flc.horn ∧
    (profileLoaded s).cnb = s.cnb ∧
    (profileLoaded s).llk.rx = s.llk.rx ∧
    (profileLoaded s).llk.answers = s.llk.answers ∧
    (profileLoaded s).llk.restarting = s.llk.restarting ∧
    (profileLoaded s).llk.silenceStart = s.llk.silenceStart ∧
    (profileLoaded s).llk.silent = s.llk.silent ∧
    (profileLoaded s).llk.tx = s.llk.tx ∧
    (profileLoaded s).llk.opening = openingAt .due (imageFault s.pfs.image).isSome ∧
    (profileLoaded s).pfs.image = s.pfs.image ∧
    (profileLoaded s).pfs.saving = s.pfs.saving ∧
    (profileLoaded s).now = s.now ∧
    (profileLoaded s).fresh = s.fresh ∧
    (profileLoaded s).pending = s.pending := by
  unfold profileLoaded
  simp

@[simp] theorem limitHead_frame (s : State) (h : Head) :
    (limitHead s h).trk.belt = s.trk.belt ∧
    (limitHead s h).trk.samples = s.trk.samples ∧
    (limitHead s h).trk.speed = s.trk.speed ∧
    (limitHead s h).trk.nextNumber = s.trk.nextNumber ∧
    (limitHead s h).trk.measuring = s.trk.measuring ∧
    (limitHead s h).trk.overTaken = s.trk.overTaken ∧
    (limitHead s h).trk.prevTail = s.trk.prevTail ∧
    (limitHead s h).pcm = s.pcm ∧
    (limitHead s h).scu.calStart = s.scu.calStart ∧
    (limitHead s h).scu.calDue = s.scu.calDue ∧
    (limitHead s h).mkf.capture = s.mkf.capture ∧
    (limitHead s h).ptc = s.ptc ∧
    (limitHead s h).can.dater = s.can.dater ∧
    (limitHead s h).pkc = s.pkc ∧
    (limitHead s h).flc.countdown = s.flc.countdown ∧
    (limitHead s h).flc.fault = s.flc.fault ∧
    (limitHead s h).flc.faultCount = s.flc.faultCount ∧
    (limitHead s h).flc.cleanRun = s.flc.cleanRun ∧
    (limitHead s h).flc.estop = s.flc.estop ∧
    (limitHead s h).flc.horn = s.flc.horn ∧
    (limitHead s h).cnb.bank = s.cnb.bank ∧
    (limitHead s h).cnb.remainder = s.cnb.remainder ∧
    (limitHead s h).cnb.records = s.cnb.records ∧
    (limitHead s h).llk.rx = s.llk.rx ∧
    (limitHead s h).llk.answers = s.llk.answers ∧
    (limitHead s h).llk.restarting = s.llk.restarting ∧
    (limitHead s h).llk.silenceStart = s.llk.silenceStart ∧
    (limitHead s h).llk.silent = s.llk.silent ∧
    (limitHead s h).llk.tx = s.llk.tx ∧
    (limitHead s h).llk.opening = s.llk.opening ∧
    (limitHead s h).pfs = s.pfs ∧
    (limitHead s h).now = s.now ∧
    (limitHead s h).fresh = s.fresh ∧
    (limitHead s h).pending = s.pending := by
  unfold limitHead
  (try dsimp only)
  (repeat' split) <;> simp

@[simp] theorem limitHeads_frame (l : List Head) (s : State) :
    (l.foldl limitHead s).trk.belt = s.trk.belt ∧
    (l.foldl limitHead s).trk.samples = s.trk.samples ∧
    (l.foldl limitHead s).trk.speed = s.trk.speed ∧
    (l.foldl limitHead s).trk.nextNumber = s.trk.nextNumber ∧
    (l.foldl limitHead s).trk.measuring = s.trk.measuring ∧
    (l.foldl limitHead s).trk.overTaken = s.trk.overTaken ∧
    (l.foldl limitHead s).trk.prevTail = s.trk.prevTail ∧
    (l.foldl limitHead s).pcm = s.pcm ∧
    (l.foldl limitHead s).scu.calStart = s.scu.calStart ∧
    (l.foldl limitHead s).scu.calDue = s.scu.calDue ∧
    (l.foldl limitHead s).mkf.capture = s.mkf.capture ∧
    (l.foldl limitHead s).ptc = s.ptc ∧
    (l.foldl limitHead s).can.dater = s.can.dater ∧
    (l.foldl limitHead s).pkc = s.pkc ∧
    (l.foldl limitHead s).flc.countdown = s.flc.countdown ∧
    (l.foldl limitHead s).flc.fault = s.flc.fault ∧
    (l.foldl limitHead s).flc.faultCount = s.flc.faultCount ∧
    (l.foldl limitHead s).flc.cleanRun = s.flc.cleanRun ∧
    (l.foldl limitHead s).flc.estop = s.flc.estop ∧
    (l.foldl limitHead s).flc.horn = s.flc.horn ∧
    (l.foldl limitHead s).cnb.bank = s.cnb.bank ∧
    (l.foldl limitHead s).cnb.remainder = s.cnb.remainder ∧
    (l.foldl limitHead s).cnb.records = s.cnb.records ∧
    (l.foldl limitHead s).llk.rx = s.llk.rx ∧
    (l.foldl limitHead s).llk.answers = s.llk.answers ∧
    (l.foldl limitHead s).llk.restarting = s.llk.restarting ∧
    (l.foldl limitHead s).llk.silenceStart = s.llk.silenceStart ∧
    (l.foldl limitHead s).llk.silent = s.llk.silent ∧
    (l.foldl limitHead s).llk.tx = s.llk.tx ∧
    (l.foldl limitHead s).llk.opening = s.llk.opening ∧
    (l.foldl limitHead s).pfs = s.pfs ∧
    (l.foldl limitHead s).now = s.now ∧
    (l.foldl limitHead s).fresh = s.fresh ∧
    (l.foldl limitHead s).pending = s.pending :=
  ⟨foldl_frame _ (fun t => t.trk.belt) (fun a t => by simp) l s,
    foldl_frame _ (fun t => t.trk.samples) (fun a t => by simp) l s,
    foldl_frame _ (fun t => t.trk.speed) (fun a t => by simp) l s,
    foldl_frame _ (fun t => t.trk.nextNumber) (fun a t => by simp) l s,
    foldl_frame _ (fun t => t.trk.measuring) (fun a t => by simp) l s,
    foldl_frame _ (fun t => t.trk.overTaken) (fun a t => by simp) l s,
    foldl_frame _ (fun t => t.trk.prevTail) (fun a t => by simp) l s,
    foldl_frame _ (fun t => t.pcm) (fun a t => by simp) l s,
    foldl_frame _ (fun t => t.scu.calStart) (fun a t => by simp) l s,
    foldl_frame _ (fun t => t.scu.calDue) (fun a t => by simp) l s,
    foldl_frame _ (fun t => t.mkf.capture) (fun a t => by simp) l s,
    foldl_frame _ (fun t => t.ptc) (fun a t => by simp) l s,
    foldl_frame _ (fun t => t.can.dater) (fun a t => by simp) l s,
    foldl_frame _ (fun t => t.pkc) (fun a t => by simp) l s,
    foldl_frame _ (fun t => t.flc.countdown) (fun a t => by simp) l s,
    foldl_frame _ (fun t => t.flc.fault) (fun a t => by simp) l s,
    foldl_frame _ (fun t => t.flc.faultCount) (fun a t => by simp) l s,
    foldl_frame _ (fun t => t.flc.cleanRun) (fun a t => by simp) l s,
    foldl_frame _ (fun t => t.flc.estop) (fun a t => by simp) l s,
    foldl_frame _ (fun t => t.flc.horn) (fun a t => by simp) l s,
    foldl_frame _ (fun t => t.cnb.bank) (fun a t => by simp) l s,
    foldl_frame _ (fun t => t.cnb.remainder) (fun a t => by simp) l s,
    foldl_frame _ (fun t => t.cnb.records) (fun a t => by simp) l s,
    foldl_frame _ (fun t => t.llk.rx) (fun a t => by simp) l s,
    foldl_frame _ (fun t => t.llk.answers) (fun a t => by simp) l s,
    foldl_frame _ (fun t => t.llk.restarting) (fun a t => by simp) l s,
    foldl_frame _ (fun t => t.llk.silenceStart) (fun a t => by simp) l s,
    foldl_frame _ (fun t => t.llk.silent) (fun a t => by simp) l s,
    foldl_frame _ (fun t => t.llk.tx) (fun a t => by simp) l s,
    foldl_frame _ (fun t => t.llk.opening) (fun a t => by simp) l s,
    foldl_frame _ (fun t => t.pfs) (fun a t => by simp) l s,
    foldl_frame _ (fun t => t.now) (fun a t => by simp) l s,
    foldl_frame _ (fun t => t.fresh) (fun a t => by simp) l s,
    foldl_frame _ (fun t => t.pending) (fun a t => by simp) l s⟩

@[simp] theorem moduleTrouble_frame (c : Stream) (s : State) :
    (moduleTrouble c s).trk.belt = s.trk.belt ∧
    (moduleTrouble c s).trk.samples = s.trk.samples ∧
    (moduleTrouble c s).trk.speed = s.trk.speed ∧
    (moduleTrouble c s).trk.nextNumber = s.trk.nextNumber ∧
    (moduleTrouble c s).trk.measuring = s.trk.measuring ∧
    (moduleTrouble c s).trk.overTaken = s.trk.overTaken ∧
    (moduleTrouble c s).trk.prevTail = s.trk.prevTail ∧
    (moduleTrouble c s).pcm = s.pcm ∧
    (moduleTrouble c s).scu = s.scu ∧
    (moduleTrouble c s).mkf = s.mkf ∧
    (moduleTrouble c s).ptc = s.ptc ∧
    (moduleTrouble c s).can.dater = s.can.dater ∧
    (moduleTrouble c s).pkc = s.pkc ∧
    (moduleTrouble c s).flc.line = s.flc.line ∧
    (moduleTrouble c s).flc.countdown = s.flc.countdown ∧
    (moduleTrouble c s).flc.fault = s.flc.fault ∧
    (moduleTrouble c s).flc.faultCount = s.flc.faultCount ∧
    (moduleTrouble c s).flc.cleanRun = s.flc.cleanRun ∧
    (moduleTrouble c s).flc.runUp = s.flc.runUp ∧
    (moduleTrouble c s).flc.runUpQual = s.flc.runUpQual ∧
    (moduleTrouble c s).flc.warmup = s.flc.warmup ∧
    (moduleTrouble c s).flc.drainLimit = s.flc.drainLimit ∧
    (moduleTrouble c s).flc.estop = s.flc.estop ∧
    (moduleTrouble c s).flc.horn = s.flc.horn ∧
    (moduleTrouble c s).cnb = s.cnb ∧
    (moduleTrouble c s).llk.rx = s.llk.rx ∧
    (moduleTrouble c s).llk.answers = s.llk.answers ∧
    (moduleTrouble c s).llk.restarting = s.llk.restarting ∧
    (moduleTrouble c s).llk.silenceStart = s.llk.silenceStart ∧
    (moduleTrouble c s).llk.silent = s.llk.silent ∧
    (moduleTrouble c s).llk.tx = s.llk.tx ∧
    (moduleTrouble c s).llk.opening = s.llk.opening ∧
    (moduleTrouble c s).pfs = s.pfs ∧
    (moduleTrouble c s).now = s.now ∧
    (moduleTrouble c s).fresh = s.fresh ∧
    (moduleTrouble c s).pending = s.pending := by
  unfold moduleTrouble
  (try dsimp only)
  (repeat' split) <;> simp

@[simp] theorem bandAct_frame (c : Stream) (b : Band) (s : State) :
    (bandAct c b s).trk.belt = s.trk.belt ∧
    (bandAct c b s).trk.samples = s.trk.samples ∧
    (bandAct c b s).trk.speed = s.trk.speed ∧
    (bandAct c b s).trk.nextNumber = s.trk.nextNumber ∧
    (bandAct c b s).trk.measuring = s.trk.measuring ∧
    (bandAct c b s).trk.overTaken = s.trk.overTaken ∧
    (bandAct c b s).trk.prevTail = s.trk.prevTail ∧
    (bandAct c b s).pcm = s.pcm ∧
    (bandAct c b s).scu = s.scu ∧
    (bandAct c b s).mkf = s.mkf ∧
    (bandAct c b s).ptc = s.ptc ∧
    (bandAct c b s).can.dater = s.can.dater ∧
    (bandAct c b s).pkc = s.pkc ∧
    (bandAct c b s).flc.line = s.flc.line ∧
    (bandAct c b s).flc.countdown = s.flc.countdown ∧
    (bandAct c b s).flc.fault = s.flc.fault ∧
    (bandAct c b s).flc.faultCount = s.flc.faultCount ∧
    (bandAct c b s).flc.cleanRun = s.flc.cleanRun ∧
    (bandAct c b s).flc.runUp = s.flc.runUp ∧
    (bandAct c b s).flc.runUpQual = s.flc.runUpQual ∧
    (bandAct c b s).flc.warmup = s.flc.warmup ∧
    (bandAct c b s).flc.drainLimit = s.flc.drainLimit ∧
    (bandAct c b s).flc.estop = s.flc.estop ∧
    (bandAct c b s).flc.horn = s.flc.horn ∧
    (bandAct c b s).cnb = s.cnb ∧
    (bandAct c b s).llk.rx = s.llk.rx ∧
    (bandAct c b s).llk.answers = s.llk.answers ∧
    (bandAct c b s).llk.restarting = s.llk.restarting ∧
    (bandAct c b s).llk.silenceStart = s.llk.silenceStart ∧
    (bandAct c b s).llk.silent = s.llk.silent ∧
    (bandAct c b s).llk.tx = s.llk.tx ∧
    (bandAct c b s).llk.opening = s.llk.opening ∧
    (bandAct c b s).pfs = s.pfs ∧
    (bandAct c b s).now = s.now ∧
    (bandAct c b s).fresh = s.fresh ∧
    (bandAct c b s).pending = s.pending := by
  unfold bandAct
  (try dsimp only)
  (repeat' split) <;> simp

@[simp] theorem statusAct_frame (c : Stream) (m : ModuleState) (b : Band) (s : State) :
    (statusAct c m b s).trk.belt = s.trk.belt ∧
    (statusAct c m b s).trk.samples = s.trk.samples ∧
    (statusAct c m b s).trk.speed = s.trk.speed ∧
    (statusAct c m b s).trk.nextNumber = s.trk.nextNumber ∧
    (statusAct c m b s).trk.measuring = s.trk.measuring ∧
    (statusAct c m b s).trk.overTaken = s.trk.overTaken ∧
    (statusAct c m b s).trk.prevTail = s.trk.prevTail ∧
    (statusAct c m b s).pcm = s.pcm ∧
    (statusAct c m b s).scu = s.scu ∧
    (statusAct c m b s).mkf = s.mkf ∧
    (statusAct c m b s).ptc = s.ptc ∧
    (statusAct c m b s).can.dater = s.can.dater ∧
    (statusAct c m b s).pkc = s.pkc ∧
    (statusAct c m b s).flc.line = s.flc.line ∧
    (statusAct c m b s).flc.countdown = s.flc.countdown ∧
    (statusAct c m b s).flc.fault = s.flc.fault ∧
    (statusAct c m b s).flc.faultCount = s.flc.faultCount ∧
    (statusAct c m b s).flc.cleanRun = s.flc.cleanRun ∧
    (statusAct c m b s).flc.runUp = s.flc.runUp ∧
    (statusAct c m b s).flc.runUpQual = s.flc.runUpQual ∧
    (statusAct c m b s).flc.warmup = s.flc.warmup ∧
    (statusAct c m b s).flc.drainLimit = s.flc.drainLimit ∧
    (statusAct c m b s).flc.estop = s.flc.estop ∧
    (statusAct c m b s).flc.horn = s.flc.horn ∧
    (statusAct c m b s).cnb = s.cnb ∧
    (statusAct c m b s).llk.rx = s.llk.rx ∧
    (statusAct c m b s).llk.answers = s.llk.answers ∧
    (statusAct c m b s).llk.restarting = s.llk.restarting ∧
    (statusAct c m b s).llk.silenceStart = s.llk.silenceStart ∧
    (statusAct c m b s).llk.silent = s.llk.silent ∧
    (statusAct c m b s).llk.tx = s.llk.tx ∧
    (statusAct c m b s).llk.opening = s.llk.opening ∧
    (statusAct c m b s).pfs = s.pfs ∧
    (statusAct c m b s).now = s.now ∧
    (statusAct c m b s).fresh = s.fresh ∧
    (statusAct c m b s).pending = s.pending := by
  unfold statusAct
  (try dsimp only)
  (repeat' split) <;> simp

@[simp] theorem parityAct_frame (c : Stream) (s : State) :
    (parityAct c s).trk.belt = s.trk.belt ∧
    (parityAct c s).trk.samples = s.trk.samples ∧
    (parityAct c s).trk.speed = s.trk.speed ∧
    (parityAct c s).trk.nextNumber = s.trk.nextNumber ∧
    (parityAct c s).trk.measuring = s.trk.measuring ∧
    (parityAct c s).trk.overTaken = s.trk.overTaken ∧
    (parityAct c s).trk.prevTail = s.trk.prevTail ∧
    (parityAct c s).pcm = s.pcm ∧
    (parityAct c s).scu = s.scu ∧
    (parityAct c s).mkf = s.mkf ∧
    (parityAct c s).ptc = s.ptc ∧
    (parityAct c s).can.dater = s.can.dater ∧
    (parityAct c s).pkc = s.pkc ∧
    (parityAct c s).flc.line = s.flc.line ∧
    (parityAct c s).flc.countdown = s.flc.countdown ∧
    (parityAct c s).flc.fault = s.flc.fault ∧
    (parityAct c s).flc.faultCount = s.flc.faultCount ∧
    (parityAct c s).flc.cleanRun = s.flc.cleanRun ∧
    (parityAct c s).flc.runUp = s.flc.runUp ∧
    (parityAct c s).flc.runUpQual = s.flc.runUpQual ∧
    (parityAct c s).flc.warmup = s.flc.warmup ∧
    (parityAct c s).flc.drainLimit = s.flc.drainLimit ∧
    (parityAct c s).flc.estop = s.flc.estop ∧
    (parityAct c s).flc.horn = s.flc.horn ∧
    (parityAct c s).cnb.remainder = s.cnb.remainder ∧
    (parityAct c s).cnb.snap = s.cnb.snap ∧
    (parityAct c s).cnb.records = s.cnb.records ∧
    (parityAct c s).llk.rx = s.llk.rx ∧
    (parityAct c s).llk.answers = s.llk.answers ∧
    (parityAct c s).llk.restarting = s.llk.restarting ∧
    (parityAct c s).llk.silenceStart = s.llk.silenceStart ∧
    (parityAct c s).llk.silent = s.llk.silent ∧
    (parityAct c s).llk.tx = s.llk.tx ∧
    (parityAct c s).llk.opening = s.llk.opening ∧
    (parityAct c s).pfs = s.pfs ∧
    (parityAct c s).now = s.now ∧
    (parityAct c s).fresh = s.fresh ∧
    (parityAct c s).pending = s.pending := by
  unfold parityAct
  (try dsimp only)
  (repeat' split) <;> simp

@[simp] theorem sensorQualified_frame (q : Pocket) (s : State) :
    (sensorQualified q s).trk.belt = s.trk.belt ∧
    (sensorQualified q s).trk.samples = s.trk.samples ∧
    (sensorQualified q s).trk.speed = s.trk.speed ∧
    (sensorQualified q s).trk.nextNumber = s.trk.nextNumber ∧
    (sensorQualified q s).trk.prevTail = s.trk.prevTail ∧
    (sensorQualified q s).pcm.cells = s.pcm.cells ∧
    (sensorQualified q s).scu.calStart = s.scu.calStart ∧
    (sensorQualified q s).scu.calDue = s.scu.calDue ∧
    (sensorQualified q s).mkf.capture = s.mkf.capture ∧
    (sensorQualified q s).ptc.merge = s.ptc.merge ∧
    (sensorQualified q s).can.dater = s.can.dater ∧
    (sensorQualified q s).flc.countdown = s.flc.countdown ∧
    (sensorQualified q s).flc.warmup = s.flc.warmup ∧
    (sensorQualified q s).flc.estop = s.flc.estop ∧
    (sensorQualified q s).cnb.remainder = s.cnb.remainder ∧
    (sensorQualified q s).cnb.snap = s.cnb.snap ∧
    (sensorQualified q s).cnb.records = s.cnb.records ∧
    (sensorQualified q s).llk.rx = s.llk.rx ∧
    (sensorQualified q s).llk.answers = s.llk.answers ∧
    (sensorQualified q s).llk.restarting = s.llk.restarting ∧
    (sensorQualified q s).llk.silenceStart = s.llk.silenceStart ∧
    (sensorQualified q s).llk.silent = s.llk.silent ∧
    (sensorQualified q s).llk.tx = s.llk.tx ∧
    (sensorQualified q s).llk.opening = s.llk.opening ∧
    (sensorQualified q s).pfs = s.pfs ∧
    (sensorQualified q s).now = s.now ∧
    (sensorQualified q s).fresh = s.fresh ∧
    (sensorQualified q s).pending = s.pending := by
  unfold sensorQualified
  (try dsimp only)
  (repeat' split) <;> simp

@[simp] theorem silenceAct_frame (s : State) :
    (silenceAct s).trk = s.trk ∧
    (silenceAct s).pcm = s.pcm ∧
    (silenceAct s).scu = s.scu ∧
    (silenceAct s).mkf = s.mkf ∧
    (silenceAct s).ptc = s.ptc ∧
    (silenceAct s).can.dater = s.can.dater ∧
    (silenceAct s).pkc = s.pkc ∧
    (silenceAct s).flc.countdown = s.flc.countdown ∧
    (silenceAct s).flc.fault = s.flc.fault ∧
    (silenceAct s).flc.faultCount = s.flc.faultCount ∧
    (silenceAct s).flc.cleanRun = s.flc.cleanRun ∧
    (silenceAct s).flc.warmup = s.flc.warmup ∧
    (silenceAct s).flc.estop = s.flc.estop ∧
    (silenceAct s).flc.horn = s.flc.horn ∧
    (silenceAct s).cnb.bank = s.cnb.bank ∧
    (silenceAct s).cnb.remainder = s.cnb.remainder ∧
    (silenceAct s).cnb.records = s.cnb.records ∧
    (silenceAct s).llk.rx = s.llk.rx ∧
    (silenceAct s).llk.answers = s.llk.answers ∧
    (silenceAct s).llk.restarting = s.llk.restarting ∧
    (silenceAct s).llk.silenceStart = s.llk.silenceStart ∧
    (silenceAct s).llk.tx = s.llk.tx ∧
    (silenceAct s).llk.opening = s.llk.opening ∧
    (silenceAct s).pfs = s.pfs ∧
    (silenceAct s).now = s.now ∧
    (silenceAct s).fresh = s.fresh ∧
    (silenceAct s).pending = s.pending := by
  unfold silenceAct
  (try dsimp only)
  (repeat' split) <;> simp

@[simp] theorem repeatAct_frame (k : Kind) (s : State) :
    (repeatAct k s).trk = s.trk ∧
    (repeatAct k s).pcm = s.pcm ∧
    (repeatAct k s).scu = s.scu ∧
    (repeatAct k s).mkf = s.mkf ∧
    (repeatAct k s).ptc = s.ptc ∧
    (repeatAct k s).can = s.can ∧
    (repeatAct k s).pkc = s.pkc ∧
    (repeatAct k s).flc = s.flc ∧
    (repeatAct k s).cnb = s.cnb ∧
    (repeatAct k s).llk.rx = s.llk.rx ∧
    (repeatAct k s).llk.answers = s.llk.answers ∧
    (repeatAct k s).llk.restarting = s.llk.restarting ∧
    (repeatAct k s).llk.silenceStart = s.llk.silenceStart ∧
    (repeatAct k s).llk.silent = s.llk.silent ∧
    (repeatAct k s).llk.tx = s.llk.tx ∧
    (repeatAct k s).llk.opening = s.llk.opening ∧
    (repeatAct k s).pfs = s.pfs ∧
    (repeatAct k s).now = s.now ∧
    (repeatAct k s).fresh = s.fresh ∧
    (repeatAct k s).pending = s.pending := by
  unfold repeatAct
  (try dsimp only)
  (repeat' split) <;> simp

@[simp] theorem stopRepeat_frame (k : Kind) (s : State) :
    (stopRepeat k s).trk = s.trk ∧
    (stopRepeat k s).pcm = s.pcm ∧
    (stopRepeat k s).scu = s.scu ∧
    (stopRepeat k s).mkf = s.mkf ∧
    (stopRepeat k s).ptc = s.ptc ∧
    (stopRepeat k s).can = s.can ∧
    (stopRepeat k s).pkc = s.pkc ∧
    (stopRepeat k s).flc = s.flc ∧
    (stopRepeat k s).cnb = s.cnb ∧
    (stopRepeat k s).llk.rx = s.llk.rx ∧
    (stopRepeat k s).llk.answers = s.llk.answers ∧
    (stopRepeat k s).llk.restarting = s.llk.restarting ∧
    (stopRepeat k s).llk.silenceStart = s.llk.silenceStart ∧
    (stopRepeat k s).llk.silent = s.llk.silent ∧
    (stopRepeat k s).llk.reports = s.llk.reports ∧
    (stopRepeat k s).llk.tx = s.llk.tx ∧
    (stopRepeat k s).llk.opening = s.llk.opening ∧
    (stopRepeat k s).pfs = s.pfs ∧
    (stopRepeat k s).now = s.now ∧
    (stopRepeat k s).fresh = s.fresh ∧
    (stopRepeat k s).pending = s.pending := by
  unfold stopRepeat
  (try dsimp only)
  (repeat' split) <;> simp

@[simp] theorem writeEnd_frame (p : Profile) (s : State) :
    (writeEnd p s).trk.belt = s.trk.belt ∧
    (writeEnd p s).trk.samples = s.trk.samples ∧
    (writeEnd p s).trk.speed = s.trk.speed ∧
    (writeEnd p s).trk.nextNumber = s.trk.nextNumber ∧
    (writeEnd p s).trk.measuring = s.trk.measuring ∧
    (writeEnd p s).trk.overTaken = s.trk.overTaken ∧
    (writeEnd p s).pcm.cells = s.pcm.cells ∧
    (writeEnd p s).mkf.work = s.mkf.work ∧
    (writeEnd p s).mkf.slot = s.mkf.slot ∧
    (writeEnd p s).flc.estop = s.flc.estop ∧
    (writeEnd p s).flc.horn = s.flc.horn ∧
    (writeEnd p s).llk.rx = s.llk.rx ∧
    (writeEnd p s).llk.silenceStart = s.llk.silenceStart ∧
    (writeEnd p s).llk.silent = s.llk.silent ∧
    (writeEnd p s).llk.tx = s.llk.tx ∧
    (writeEnd p s).llk.opening = s.llk.opening ∧
    (writeEnd p s).now = s.now ∧
    (writeEnd p s).fresh = s.fresh ∧
    (writeEnd p s).pending = s.pending := by
  unfold writeEnd
  (try dsimp only)
  (repeat' split) <;> simp

end Sys2Proof.Machine
end

