-- ==== Sys2Proof/Laws/Views.lean ====
section
/-! SUPPORT. Views of the state that most operations leave as they were although they write the field behind it: what an entry's removal and
decision rest on, the counters the balance rests on, each hold cause. -/

namespace Sys2Proof.Machine

/-- The part of an entry that only induction, a decision, a commitment, a fault stop and a removal change. -/
def Entry.core (e : Entry) : LetterNo × Option Path × Option Stream × Option Pocket × Bool × Bool :=
  (e.number, e.path, e.stream, e.pocket, e.job.isSome, e.stranded)

/-- The counters the relations of R163 and R164 rest on. -/
def Bank.balance (b : Bank) : Counter × Counter × Counter × Counter × Counter × PerPocket Counter × PerClass Counter × PerOrient Counter :=
  (b.flow.inducted, b.flow.scanned, b.flow.stacked, b.flow.rejected, b.flow.cleared, b.pockets, b.marks.classes, b.marks.orients)

/-- The core of an entry given field by field. -/
@[simp] theorem Entry.core_mk (number anchor length0 length1 early scan latched result late path stream cause job pocket lastPe stranded
    shTaken inStation) :
    Entry.core ⟨number, anchor, length0, length1, early, scan, latched, result, late, path, stream, cause, job, pocket, lastPe, stranded,
      shTaken, inStation⟩ = (number, path, stream, pocket, job.isSome, stranded) :=
  rfl

@[simp] theorem Entry.core_eta (e : Entry) : (e.number, e.path, e.stream, e.pocket, e.job.isSome, e.stranded) = e.core := by
  cases e; rfl

@[simp] theorem Entry.core_parts (e : Entry) :
    e.core.1 = e.number ∧ e.core.2.1 = e.path ∧ e.core.2.2.1 = e.stream ∧ e.core.2.2.2.1 = e.pocket ∧
      e.core.2.2.2.2.1 = e.job.isSome ∧ e.core.2.2.2.2.2 = e.stranded :=
  ⟨rfl, rfl, rfl, rfl, rfl, rfl⟩

/-- The balance of a bank given page by page. -/
@[simp] theorem Bank.balance_mk (flow marks rejects cancel pockets lengths line) :
    Bank.balance ⟨flow, marks, rejects, cancel, pockets, lengths, line⟩ =
      (flow.inducted, flow.scanned, flow.stacked, flow.rejected, flow.cleared, pockets, marks.classes, marks.orients) :=
  rfl

@[simp] theorem Bank.balance_eta (b : Bank) :
    (b.flow.inducted, b.flow.scanned, b.flow.stacked, b.flow.rejected, b.flow.cleared, b.pockets, b.marks.classes, b.marks.orients) =
      b.balance := by
  cases b; rfl

@[simp] theorem withEarly_core (d : Early) (e : Entry) : (withEarly d e).core = e.core := by
  unfold withEarly
  split <;> rfl

@[simp] theorem updTable_cores {n : LetterNo} {f : Entry → Entry} (h : ∀ e, (f e).core = e.core) (l : List Entry) :
    (updTable n f l).map Entry.core = l.map Entry.core := by
  induction l with
  | nil => rfl
  | cons e l ih =>
    unfold updTable
    split
    · simp only [List.map_cons, h]
    · simp only [List.map_cons, ih]

@[simp] theorem updJob_cores (n : LetterNo) (f : CancelJob → CancelJob) (s : State) :
    (updJob n f s).trk.table.map Entry.core = s.trk.table.map Entry.core := by
  simp [updJob]

@[simp] theorem Holds.put_get (h : Holds) (b : Bool) :
    (h.put b .table).table = b ∧ (h.put b .table).pockets = h.pockets ∧ (h.put b .table).cancel = h.cancel ∧
    (h.put b .table).records = h.records ∧ (h.put b .table).line = h.line ∧
    (h.put b .pockets).table = h.table ∧ (h.put b .pockets).pockets = b ∧ (h.put b .pockets).cancel = h.cancel ∧
    (h.put b .pockets).records = h.records ∧ (h.put b .pockets).line = h.line ∧
    (h.put b .cancel).table = h.table ∧ (h.put b .cancel).pockets = h.pockets ∧ (h.put b .cancel).cancel = b ∧
    (h.put b .cancel).records = h.records ∧ (h.put b .cancel).line = h.line ∧
    (h.put b .records).table = h.table ∧ (h.put b .records).pockets = h.pockets ∧ (h.put b .records).cancel = h.cancel ∧
    (h.put b .records).records = b ∧ (h.put b .records).line = h.line ∧
    (h.put b .line).table = h.table ∧ (h.put b .line).pockets = h.pockets ∧ (h.put b .line).cancel = h.cancel ∧
    (h.put b .line).records = h.records ∧ (h.put b .line).line = b := by
  simp [Holds.put]


@[simp] theorem writeOutcome_views (n : LetterNo) (o : CancelOutcome) (s : State) :
    (writeOutcome n o s).trk.table.map Entry.core = s.trk.table.map Entry.core := by
  unfold writeOutcome
  (try dsimp only)
  (repeat' split) <;> simp

@[simp] theorem countCrossing_views (s : State) :
    (countCrossing s).cnb.bank.balance = s.cnb.bank.balance := by
  unfold countCrossing
  (try dsimp only)
  (repeat' split) <;> simp

@[simp] theorem judgeHold_views (held : Bool) (s : State) :
    (judgeHold held s).cnb.bank.balance = s.cnb.bank.balance := by
  unfold judgeHold
  (try dsimp only)
  (repeat' split) <;> simp

@[simp] theorem refreshCancel_views (s : State) :
    (refreshCancel s).flc.holds.pockets = s.flc.holds.pockets ∧
    (refreshCancel s).flc.holds.table = s.flc.holds.table ∧
    (refreshCancel s).flc.holds.records = s.flc.holds.records ∧
    (refreshCancel s).flc.holds.line = s.flc.holds.line := by
  unfold refreshCancel
  (try dsimp only)
  (repeat' split) <;> simp

@[simp] theorem setLine_views (l : LineState) (c : LineCause) (snapshot : Option Counter) (s : State) :
    (setLine l c snapshot s).flc.holds.pockets = s.flc.holds.pockets ∧
    (setLine l c snapshot s).flc.holds.table = s.flc.holds.table ∧
    (setLine l c snapshot s).flc.holds.records = s.flc.holds.records ∧
    (setLine l c snapshot s).flc.holds.line = s.flc.holds.line := by
  unfold setLine
  (try dsimp only)
  (repeat' split) <;> simp

@[simp] theorem cancTo_views (c : Stream) (new : CancState) (s : State) :
    (cancTo c new s).flc.holds.pockets = s.flc.holds.pockets ∧
    (cancTo c new s).flc.holds.table = s.flc.holds.table ∧
    (cancTo c new s).flc.holds.records = s.flc.holds.records ∧
    (cancTo c new s).flc.holds.line = s.flc.holds.line := by
  unfold cancTo
  (try dsimp only)
  (repeat' split) <;> simp

@[simp] theorem releaseHeld_views (c : Stream) (o : CancelOutcome) (s : State) :
    (releaseHeld c o s).trk.table.map Entry.core = s.trk.table.map Entry.core := by
  unfold releaseHeld
  (try dsimp only)
  (repeat' split) <;> simp

@[simp] theorem releaseDeferred_views (c : Stream) (o : CancelOutcome) (s : State) :
    (releaseDeferred c o s).trk.table.map Entry.core = s.trk.table.map Entry.core := by
  unfold releaseDeferred
  (try dsimp only)
  (repeat' split) <;> simp

@[simp] theorem cancFault_views (c : Stream) (cause : CancCause) (outcome : Option CancelOutcome) (s : State) :
    (cancFault c cause outcome s).trk.table.map Entry.core = s.trk.table.map Entry.core ∧
    (cancFault c cause outcome s).flc.holds.pockets = s.flc.holds.pockets ∧
    (cancFault c cause outcome s).flc.holds.table = s.flc.holds.table ∧
    (cancFault c cause outcome s).flc.holds.records = s.flc.holds.records ∧
    (cancFault c cause outcome s).flc.holds.line = s.flc.holds.line := by
  unfold cancFault
  (try dsimp only)
  (repeat' split) <;> simp

@[simp] theorem armLetter_views (c : Stream) (n : LetterNo) (s : State) :
    (armLetter c n s).trk.table.map Entry.core = s.trk.table.map Entry.core ∧
    (armLetter c n s).flc.holds.pockets = s.flc.holds.pockets ∧
    (armLetter c n s).flc.holds.table = s.flc.holds.table ∧
    (armLetter c n s).flc.holds.records = s.flc.holds.records ∧
    (armLetter c n s).flc.holds.line = s.flc.holds.line := by
  unfold armLetter
  (try dsimp only)
  (repeat' split) <;> simp

@[simp] theorem cancReady_views (c : Stream) (s : State) :
    (cancReady c s).trk.table.map Entry.core = s.trk.table.map Entry.core ∧
    (cancReady c s).flc.holds.pockets = s.flc.holds.pockets ∧
    (cancReady c s).flc.holds.table = s.flc.holds.table ∧
    (cancReady c s).flc.holds.records = s.flc.holds.records ∧
    (cancReady c s).flc.holds.line = s.flc.holds.line := by
  unfold cancReady
  (try dsimp only)
  (repeat' split) <;> simp

@[simp] theorem cancOverheat_views (c : Stream) (s : State) :
    (cancOverheat c s).trk.table.map Entry.core = s.trk.table.map Entry.core ∧
    (cancOverheat c s).flc.holds.pockets = s.flc.holds.pockets ∧
    (cancOverheat c s).flc.holds.table = s.flc.holds.table ∧
    (cancOverheat c s).flc.holds.records = s.flc.holds.records ∧
    (cancOverheat c s).flc.holds.line = s.flc.holds.line := by
  unfold cancOverheat
  (try dsimp only)
  (repeat' split) <;> simp

@[simp] theorem cancReadyOrHot_views (c : Stream) (s : State) :
    (cancReadyOrHot c s).trk.table.map Entry.core = s.trk.table.map Entry.core ∧
    (cancReadyOrHot c s).flc.holds.pockets = s.flc.holds.pockets ∧
    (cancReadyOrHot c s).flc.holds.table = s.flc.holds.table ∧
    (cancReadyOrHot c s).flc.holds.records = s.flc.holds.records ∧
    (cancReadyOrHot c s).flc.holds.line = s.flc.holds.line := by
  unfold cancReadyOrHot
  (try dsimp only)
  (repeat' split) <;> simp

@[simp] theorem cancPrime_views (c : Stream) (s : State) :
    (cancPrime c s).flc.holds.pockets = s.flc.holds.pockets ∧
    (cancPrime c s).flc.holds.table = s.flc.holds.table ∧
    (cancPrime c s).flc.holds.records = s.flc.holds.records ∧
    (cancPrime c s).flc.holds.line = s.flc.holds.line := by
  unfold cancPrime
  (try dsimp only)
  (repeat' split) <;> simp

@[simp] theorem cancStop_views (c : Stream) (s : State) :
    (cancStop c s).trk.table.map Entry.core = s.trk.table.map Entry.core ∧
    (cancStop c s).flc.holds.pockets = s.flc.holds.pockets ∧
    (cancStop c s).flc.holds.table = s.flc.holds.table ∧
    (cancStop c s).flc.holds.records = s.flc.holds.records ∧
    (cancStop c s).flc.holds.line = s.flc.holds.line := by
  unfold cancStop
  (try dsimp only)
  (repeat' split) <;> simp

@[simp] theorem cancDrained_views (c : Stream) (s : State) :
    (cancDrained c s).flc.holds.pockets = s.flc.holds.pockets ∧
    (cancDrained c s).flc.holds.table = s.flc.holds.table ∧
    (cancDrained c s).flc.holds.records = s.flc.holds.records ∧
    (cancDrained c s).flc.holds.line = s.flc.holds.line := by
  unfold cancDrained
  (try dsimp only)
  (repeat' split) <;> simp

@[simp] theorem cancStarting_views (c : Stream) (s : State) :
    (cancStarting c s).flc.holds.pockets = s.flc.holds.pockets ∧
    (cancStarting c s).flc.holds.table = s.flc.holds.table ∧
    (cancStarting c s).flc.holds.records = s.flc.holds.records ∧
    (cancStarting c s).flc.holds.line = s.flc.holds.line := by
  unfold cancStarting
  (try dsimp only)
  (repeat' split) <;> simp

@[simp] theorem cancRemoved_views (c : Stream) (n : LetterNo) (s : State) :
    (cancRemoved c n s).trk.table.map Entry.core = s.trk.table.map Entry.core ∧
    (cancRemoved c n s).flc.holds.pockets = s.flc.holds.pockets ∧
    (cancRemoved c n s).flc.holds.table = s.flc.holds.table ∧
    (cancRemoved c n s).flc.holds.records = s.flc.holds.records ∧
    (cancRemoved c n s).flc.holds.line = s.flc.holds.line := by
  unfold cancRemoved
  (try dsimp only)
  (repeat' split) <;> simp

@[simp] theorem offerRecord_views (r : LetterRecord) (s : State) :
    (offerRecord r s).cnb.bank.balance = s.cnb.bank.balance ∧
    (offerRecord r s).flc.holds.pockets = s.flc.holds.pockets ∧
    (offerRecord r s).flc.holds.cancel = s.flc.holds.cancel ∧
    (offerRecord r s).flc.holds.table = s.flc.holds.table ∧
    (offerRecord r s).flc.holds.line = s.flc.holds.line := by
  unfold offerRecord
  (try dsimp only)
  (repeat' split) <;> simp

@[simp] theorem refreshRecords_views (s : State) :
    (refreshRecords s).flc.holds.pockets = s.flc.holds.pockets ∧
    (refreshRecords s).flc.holds.cancel = s.flc.holds.cancel ∧
    (refreshRecords s).flc.holds.table = s.flc.holds.table ∧
    (refreshRecords s).flc.holds.line = s.flc.holds.line := by
  unfold refreshRecords
  (try dsimp only)
  (repeat' split) <;> simp

@[simp] theorem drainEmpty_views (s : State) :
    (drainEmpty s).flc.holds.pockets = s.flc.holds.pockets ∧
    (drainEmpty s).flc.holds.table = s.flc.holds.table ∧
    (drainEmpty s).flc.holds.records = s.flc.holds.records ∧
    (drainEmpty s).flc.holds.line = s.flc.holds.line := by
  unfold drainEmpty
  (try dsimp only)
  (repeat' split) <;> simp

@[simp] theorem checkDrained_views (s : State) :
    (checkDrained s).flc.holds.pockets = s.flc.holds.pockets ∧
    (checkDrained s).flc.holds.table = s.flc.holds.table ∧
    (checkDrained s).flc.holds.records = s.flc.holds.records ∧
    (checkDrained s).flc.holds.line = s.flc.holds.line := by
  unfold checkDrained
  (try dsimp only)
  (repeat' split) <;> simp

@[simp] theorem enterDrain_views (c : LineCause) (s : State) :
    (enterDrain c s).flc.holds.pockets = s.flc.holds.pockets ∧
    (enterDrain c s).flc.holds.table = s.flc.holds.table ∧
    (enterDrain c s).flc.holds.records = s.flc.holds.records ∧
    (enterDrain c s).flc.holds.line = s.flc.holds.line := by
  unfold enterDrain
  (try dsimp only)
  (repeat' split) <;> simp

@[simp] theorem faultStop_views (call : FaultCall) (s : State) :
    (faultStop call s).cnb.bank.balance = s.cnb.bank.balance ∧
    (faultStop call s).flc.holds.pockets = s.flc.holds.pockets ∧
    (faultStop call s).flc.holds.table = s.flc.holds.table ∧
    (faultStop call s).flc.holds.records = s.flc.holds.records ∧
    (faultStop call s).flc.holds.line = s.flc.holds.line := by
  unfold faultStop
  (try dsimp only)
  (repeat' split) <;> simp

@[simp] theorem takeUp_views (s : State) :
    (takeUp s).trk.table.map Entry.core = s.trk.table.map Entry.core := by
  unfold takeUp
  (try dsimp only)
  (repeat' split) <;> simp

@[simp] theorem checkComplete_views (b : Buf) (s : State) :
    (checkComplete b s).trk.table.map Entry.core = s.trk.table.map Entry.core := by
  unfold checkComplete
  (try dsimp only)
  (repeat' split) <;> simp

@[simp] theorem checkWarm_views (s : State) :
    (checkWarm s).flc.holds.pockets = s.flc.holds.pockets ∧
    (checkWarm s).flc.holds.table = s.flc.holds.table ∧
    (checkWarm s).flc.holds.records = s.flc.holds.records ∧
    (checkWarm s).flc.holds.line = s.flc.holds.line := by
  unfold checkWarm
  (try dsimp only)
  (repeat' split) <;> simp

@[simp] theorem headTo_views (h : Head) (new : HeadState) (s : State) :
    (headTo h new s).flc.holds.pockets = s.flc.holds.pockets ∧
    (headTo h new s).flc.holds.table = s.flc.holds.table ∧
    (headTo h new s).flc.holds.records = s.flc.holds.records ∧
    (headTo h new s).flc.holds.line = s.flc.holds.line := by
  unfold headTo
  (try dsimp only)
  (repeat' split) <;> simp

@[simp] theorem headGood_views (h : Head) (s : State) :
    (headGood h s).flc.holds.pockets = s.flc.holds.pockets ∧
    (headGood h s).flc.holds.table = s.flc.holds.table ∧
    (headGood h s).flc.holds.records = s.flc.holds.records ∧
    (headGood h s).flc.holds.line = s.flc.holds.line := by
  unfold headGood
  (try dsimp only)
  (repeat' split) <;> simp

@[simp] theorem headBad_views (h : Head) (s : State) :
    (headBad h s).flc.holds.pockets = s.flc.holds.pockets ∧
    (headBad h s).flc.holds.table = s.flc.holds.table ∧
    (headBad h s).flc.holds.records = s.flc.holds.records ∧
    (headBad h s).flc.holds.line = s.flc.holds.line := by
  unfold headBad
  (try dsimp only)
  (repeat' split) <;> simp

@[simp] theorem judgeCalibration_views (h : Head) (sentAt ga : Nat) (s : State) :
    (judgeCalibration h sentAt ga s).flc.holds.pockets = s.flc.holds.pockets ∧
    (judgeCalibration h sentAt ga s).flc.holds.table = s.flc.holds.table ∧
    (judgeCalibration h sentAt ga s).flc.holds.records = s.flc.holds.records ∧
    (judgeCalibration h sentAt ga s).flc.holds.line = s.flc.holds.line := by
  unfold judgeCalibration
  (try dsimp only)
  (repeat' split) <;> simp

@[simp] theorem refuseScan_views (n : LetterNo) (s : State) :
    (refuseScan n s).trk.table.map Entry.core = s.trk.table.map Entry.core ∧
    (refuseScan n s).cnb.bank.balance = s.cnb.bank.balance := by
  unfold refuseScan
  (try dsimp only)
  (repeat' split) <;> simp

@[simp] theorem shAct_views (n : LetterNo) (s : State) :
    (shAct n s).trk.table.map Entry.core = s.trk.table.map Entry.core ∧
    (shAct n s).cnb.bank.balance = s.cnb.bank.balance := by
  unfold shAct
  (try dsimp only)
  (repeat' split) <;> simp

@[simp] theorem scanAnswer_views (h : Head) (p : Pulse) (v : Sample) (s : State) :
    (scanAnswer h p v s).trk.table.map Entry.core = s.trk.table.map Entry.core := by
  unfold scanAnswer
  (try dsimp only)
  (repeat' split) <;> simp

@[simp] theorem answerHead_views (h : Head) (v : Sample) (s : State) :
    (answerHead h v s).trk.table.map Entry.core = s.trk.table.map Entry.core ∧
    (answerHead h v s).flc.holds.pockets = s.flc.holds.pockets ∧
    (answerHead h v s).flc.holds.table = s.flc.holds.table ∧
    (answerHead h v s).flc.holds.records = s.flc.holds.records ∧
    (answerHead h v s).flc.holds.line = s.flc.holds.line := by
  unfold answerHead
  (try dsimp only)
  (repeat' split) <;> simp

@[simp] theorem loseHead_views (h : Head) (b : Buf) (s : State) :
    (loseHead h b s).trk.table.map Entry.core = s.trk.table.map Entry.core := by
  unfold loseHead
  (try dsimp only)
  (repeat' split) <;> simp

@[simp] theorem failHead_views (h : Head) (s : State) :
    (failHead h s).trk.table.map Entry.core = s.trk.table.map Entry.core ∧
    (failHead h s).flc.holds.pockets = s.flc.holds.pockets ∧
    (failHead h s).flc.holds.table = s.flc.holds.table ∧
    (failHead h s).flc.holds.records = s.flc.holds.records ∧
    (failHead h s).flc.holds.line = s.flc.holds.line := by
  unfold failHead
  (try dsimp only)
  (repeat' split) <;> simp

@[simp] theorem writeResult_views (n : LetterNo) (r : MarkResult) (s : State) :
    (writeResult n r s).trk.table.map Entry.core = s.trk.table.map Entry.core := by
  unfold writeResult
  (try dsimp only)
  (repeat' split) <;> simp

@[simp] theorem deliver_views (i : SlotItem) (s : State) :
    (deliver i s).trk.table.map Entry.core = s.trk.table.map Entry.core := by
  unfold deliver
  (try dsimp only)
  (repeat' split) <;> simp

@[simp] theorem placeEntry_views (g : Gate) (n : LetterNo) (set : Setting) (s : State) :
    (placeEntry g n set s).cnb.bank.balance = s.cnb.bank.balance ∧
    (placeEntry g n set s).flc.holds.pockets = s.flc.holds.pockets ∧
    (placeEntry g n set s).flc.holds.table = s.flc.holds.table ∧
    (placeEntry g n set s).flc.holds.records = s.flc.holds.records ∧
    (placeEntry g n set s).flc.holds.line = s.flc.holds.line := by
  unfold placeEntry
  (try dsimp only)
  (repeat' split) <;> simp

@[simp] theorem judgeBlocked_views (s : State) :
    (judgeBlocked s).flc.holds.cancel = s.flc.holds.cancel ∧
    (judgeBlocked s).flc.holds.table = s.flc.holds.table ∧
    (judgeBlocked s).flc.holds.records = s.flc.holds.records ∧
    (judgeBlocked s).flc.holds.line = s.flc.holds.line := by
  unfold judgeBlocked
  (try dsimp only)
  (repeat' split) <;> simp

@[simp] theorem setPocketState_views (q : Pocket) (new : PocketState) (s : State) :
    (setPocketState q new s).flc.holds.cancel = s.flc.holds.cancel ∧
    (setPocketState q new s).flc.holds.table = s.flc.holds.table ∧
    (setPocketState q new s).flc.holds.records = s.flc.holds.records ∧
    (setPocketState q new s).flc.holds.line = s.flc.holds.line := by
  unfold setPocketState
  (try dsimp only)
  (repeat' split) <;> simp

@[simp] theorem retake_views (q : Pocket) (s : State) :
    (retake q s).flc.holds.cancel = s.flc.holds.cancel ∧
    (retake q s).flc.holds.table = s.flc.holds.table ∧
    (retake q s).flc.holds.records = s.flc.holds.records ∧
    (retake q s).flc.holds.line = s.flc.holds.line := by
  unfold retake
  (try dsimp only)
  (repeat' split) <;> simp

@[simp] theorem follow_views (q : Pocket) (s : State) :
    (follow q s).flc.holds.cancel = s.flc.holds.cancel ∧
    (follow q s).flc.holds.table = s.flc.holds.table ∧
    (follow q s).flc.holds.records = s.flc.holds.records ∧
    (follow q s).flc.holds.line = s.flc.holds.line := by
  unfold follow
  (try dsimp only)
  (repeat' split) <;> simp

@[simp] theorem sweepIfClear_views (q : Pocket) (s : State) :
    (sweepIfClear q s).flc.holds.cancel = s.flc.holds.cancel ∧
    (sweepIfClear q s).flc.holds.table = s.flc.holds.table ∧
    (sweepIfClear q s).flc.holds.records = s.flc.holds.records ∧
    (sweepIfClear q s).flc.holds.line = s.flc.holds.line := by
  unfold sweepIfClear
  (try dsimp only)
  (repeat' split) <;> simp

@[simp] theorem placeEntries_views (n : LetterNo) (l : List (Gate × Setting)) (s : State) :
    (l.foldl (fun t ge => placeEntry ge.1 n ge.2 t) s).cnb.bank.balance = s.cnb.bank.balance ∧
    (l.foldl (fun t ge => placeEntry ge.1 n ge.2 t) s).flc.holds.pockets = s.flc.holds.pockets ∧
    (l.foldl (fun t ge => placeEntry ge.1 n ge.2 t) s).flc.holds.table = s.flc.holds.table ∧
    (l.foldl (fun t ge => placeEntry ge.1 n ge.2 t) s).flc.holds.records = s.flc.holds.records ∧
    (l.foldl (fun t ge => placeEntry ge.1 n ge.2 t) s).flc.holds.line = s.flc.holds.line :=
  ⟨foldl_frame _ (fun t => t.cnb.bank.balance) (fun a t => by simp) l s,
    foldl_frame _ (fun t => t.flc.holds.pockets) (fun a t => by simp) l s,
    foldl_frame _ (fun t => t.flc.holds.table) (fun a t => by simp) l s,
    foldl_frame _ (fun t => t.flc.holds.records) (fun a t => by simp) l s,
    foldl_frame _ (fun t => t.flc.holds.line) (fun a t => by simp) l s⟩

@[simp] theorem commit_views (n : LetterNo) (q : Pocket) (entries : List (Gate × Setting)) (s : State) :
    (commit n q entries s).cnb.bank.balance = s.cnb.bank.balance ∧
    (commit n q entries s).flc.holds.pockets = s.flc.holds.pockets ∧
    (commit n q entries s).flc.holds.table = s.flc.holds.table ∧
    (commit n q entries s).flc.holds.records = s.flc.holds.records ∧
    (commit n q entries s).flc.holds.line = s.flc.holds.line := by
  unfold commit
  (try dsimp only)
  (repeat' split) <;> simp

@[simp] theorem selectAct_views (n : LetterNo) (s : State) :
    (selectAct n s).cnb.bank.balance = s.cnb.bank.balance ∧
    (selectAct n s).flc.holds.pockets = s.flc.holds.pockets ∧
    (selectAct n s).flc.holds.table = s.flc.holds.table ∧
    (selectAct n s).flc.holds.records = s.flc.holds.records ∧
    (selectAct n s).flc.holds.line = s.flc.holds.line := by
  unfold selectAct
  (try dsimp only)
  (repeat' split) <;> simp

@[simp] theorem sweepComplete_views (q : Pocket) (s : State) :
    (sweepComplete q s).flc.holds.cancel = s.flc.holds.cancel ∧
    (sweepComplete q s).flc.holds.table = s.flc.holds.table ∧
    (sweepComplete q s).flc.holds.records = s.flc.holds.records ∧
    (sweepComplete q s).flc.holds.line = s.flc.holds.line := by
  unfold sweepComplete
  (try dsimp only)
  (repeat' split) <;> simp

@[simp] theorem longPress_views (q : Pocket) (s : State) :
    (longPress q s).flc.holds.cancel = s.flc.holds.cancel ∧
    (longPress q s).flc.holds.table = s.flc.holds.table ∧
    (longPress q s).flc.holds.records = s.flc.holds.records ∧
    (longPress q s).flc.holds.line = s.flc.holds.line := by
  unfold longPress
  (try dsimp only)
  (repeat' split) <;> simp

@[simp] theorem shortPress_views (q : Pocket) (s : State) :
    (shortPress q s).flc.holds.cancel = s.flc.holds.cancel ∧
    (shortPress q s).flc.holds.table = s.flc.holds.table ∧
    (shortPress q s).flc.holds.records = s.flc.holds.records ∧
    (shortPress q s).flc.holds.line = s.flc.holds.line := by
  unfold shortPress sweepRequest
  (repeat' split) <;> simp

@[simp] theorem pressAct_views (q : Pocket) (d : Nat) (s : State) :
    (pressAct q d s).flc.holds.cancel = s.flc.holds.cancel ∧
    (pressAct q d s).flc.holds.table = s.flc.holds.table ∧
    (pressAct q d s).flc.holds.records = s.flc.holds.records ∧
    (pressAct q d s).flc.holds.line = s.flc.holds.line := by
  unfold pressAct
  (try dsimp only)
  (repeat' split) <;> simp

@[simp] theorem induct_views (a : Pos) (s : State) :
    (induct a s).flc.holds.pockets = s.flc.holds.pockets ∧
    (induct a s).flc.holds.records = s.flc.holds.records ∧
    (induct a s).flc.holds.line = s.flc.holds.line := by
  unfold induct
  (try dsimp only)
  (repeat' split) <;> simp

@[simp] theorem pe0Tail_views (n : LetterNo) (tail : Pos) (s : State) :
    (pe0Tail n tail s).trk.table.map Entry.core = s.trk.table.map Entry.core ∧
    (pe0Tail n tail s).cnb.bank.balance = s.cnb.bank.balance := by
  unfold pe0Tail
  (try dsimp only)
  (repeat' split) <;> simp

@[simp] theorem removeEntry_views (n : LetterNo) (s : State) :
    (removeEntry n s).flc.holds.pockets = s.flc.holds.pockets ∧
    (removeEntry n s).flc.holds.records = s.flc.holds.records ∧
    (removeEntry n s).flc.holds.line = s.flc.holds.line := by
  unfold removeEntry
  (try dsimp only)
  (repeat' split) <;> simp

@[simp] theorem stackAct_views (n : LetterNo) (s : State) :
    (stackAct n s).flc.holds.line = s.flc.holds.line := by
  unfold stackAct
  (try dsimp only)
  (repeat' split) <;> simp

@[simp] theorem clearEntry_views (s : State) (e : Entry) :
    (clearEntry s e).flc.holds.line = s.flc.holds.line := by
  unfold clearEntry
  (try dsimp only)
  (repeat' split) <;> simp

@[simp] theorem clearEntries_views (l : List Entry) (s : State) :
    (l.foldl clearEntry s).flc.holds.line = s.flc.holds.line :=
  foldl_frame _ (fun t => t.flc.holds.line) (fun a t => by simp) l s

@[simp] theorem lineClearing_views (s : State) :
    (lineClearing s).flc.holds.line = s.flc.holds.line := by
  unfold lineClearing
  (try dsimp only)
  (repeat' split) <;> simp

@[simp] theorem armAct_views (n : LetterNo) (s : State) :
    (armAct n s).trk.table.map Entry.core = s.trk.table.map Entry.core ∧
    (armAct n s).flc.holds.pockets = s.flc.holds.pockets ∧
    (armAct n s).flc.holds.table = s.flc.holds.table ∧
    (armAct n s).flc.holds.records = s.flc.holds.records ∧
    (armAct n s).flc.holds.line = s.flc.holds.line := by
  unfold armAct
  (try dsimp only)
  (repeat' split) <;> simp

@[simp] theorem fireAct_views (n : LetterNo) (s : State) :
    (fireAct n s).trk.table.map Entry.core = s.trk.table.map Entry.core ∧
    (fireAct n s).flc.holds.pockets = s.flc.holds.pockets ∧
    (fireAct n s).flc.holds.table = s.flc.holds.table ∧
    (fireAct n s).flc.holds.records = s.flc.holds.records ∧
    (fireAct n s).flc.holds.line = s.flc.holds.line := by
  unfold fireAct
  (try dsimp only)
  (repeat' split) <;> simp

@[simp] theorem armAtDp_views (n : LetterNo) (s : State) :
    (armAtDp n s).trk.table.map Entry.core = s.trk.table.map Entry.core ∧
    (armAtDp n s).flc.holds.pockets = s.flc.holds.pockets ∧
    (armAtDp n s).flc.holds.table = s.flc.holds.table ∧
    (armAtDp n s).flc.holds.records = s.flc.holds.records ∧
    (armAtDp n s).flc.holds.line = s.flc.holds.line := by
  unfold armAtDp
  (try dsimp only)
  (repeat' split) <;> simp

@[simp] theorem placeGates_views (n : LetterNo) (d : Decision) (cause : Option RejectCause) (s : State) :
    (placeGates n d cause s).cnb.bank.balance = s.cnb.bank.balance ∧
    (placeGates n d cause s).flc.holds.pockets = s.flc.holds.pockets ∧
    (placeGates n d cause s).flc.holds.table = s.flc.holds.table ∧
    (placeGates n d cause s).flc.holds.records = s.flc.holds.records ∧
    (placeGates n d cause s).flc.holds.line = s.flc.holds.line := by
  unfold placeGates
  (try dsimp only)
  (repeat' split) <;> simp

@[simp] theorem dpAct_views (n : LetterNo) (s : State) :
    (dpAct n s).cnb.bank.balance = s.cnb.bank.balance ∧
    (dpAct n s).flc.holds.pockets = s.flc.holds.pockets ∧
    (dpAct n s).flc.holds.table = s.flc.holds.table ∧
    (dpAct n s).flc.holds.records = s.flc.holds.records ∧
    (dpAct n s).flc.holds.line = s.flc.holds.line := by
  unfold dpAct
  (try dsimp only)
  (repeat' split) <;> simp

@[simp] theorem overLengthAct_views (n : LetterNo) (s : State) :
    (overLengthAct n s).trk.table.map Entry.core = s.trk.table.map Entry.core := by
  unfold overLengthAct
  (try dsimp only)
  (repeat' split) <;> simp

@[simp] theorem exitAct_views (n : LetterNo) (s : State) :
    (exitAct n s).trk.table.map Entry.core = s.trk.table.map Entry.core := by
  unfold exitAct
  (try dsimp only)
  (repeat' split) <;> simp

@[simp] theorem doneLimitAct_views (c : Stream) (s : State) :
    (doneLimitAct c s).trk.table.map Entry.core = s.trk.table.map Entry.core ∧
    (doneLimitAct c s).flc.holds.pockets = s.flc.holds.pockets ∧
    (doneLimitAct c s).flc.holds.table = s.flc.holds.table ∧
    (doneLimitAct c s).flc.holds.records = s.flc.holds.records ∧
    (doneLimitAct c s).flc.holds.line = s.flc.holds.line := by
  unfold doneLimitAct
  (try dsimp only)
  (repeat' split) <;> simp

@[simp] theorem act_views (n : LetterNo) (k : PosKind) (s : State) :
    (act n k s).flc.holds.line = s.flc.holds.line := by
  unfold act
  (try dsimp only)
  (repeat' split) <;> simp

@[simp] theorem takeDue_views (n : LetterNo) (k : PosKind) (s : State) :
    (takeDue n k s).flc.holds.line = s.flc.holds.line := by
  unfold takeDue
  (try dsimp only)
  (repeat' split) <;> simp

@[simp] theorem takeReached_views (n : LetterNo) (fuel : Nat) (s : State) :
    (takeReached n fuel s).flc.holds.line = s.flc.holds.line := by
  induction fuel generalizing s with
  | zero => simp [takeReached]
  | succ k ih =>
    simp only [takeReached]
    (repeat' split) <;> simp [ih]

@[simp] theorem matched_views (c : Sup) (e : Entry) (a : Pos) (s : State) :
    (matched c e a s).flc.holds.line = s.flc.holds.line := by
  unfold matched
  (try dsimp only)
  (repeat' split) <;> simp

@[simp] theorem arrival_views (c : Sup) (a : Pos) (s : State) :
    (arrival c a s).flc.holds.line = s.flc.holds.line := by
  unfold arrival
  (try dsimp only)
  (repeat' split) <;> simp

@[simp] theorem secondLength_views (n : LetterNo) (length1 : Int) (s : State) :
    (secondLength n length1 s).trk.table.map Entry.core = s.trk.table.map Entry.core := by
  unfold secondLength
  refine updTable_cores (fun e => ?_) _
  dsimp only
  split <;> simp

@[simp] theorem cellTail_views (c : Sup) (tail : Pos) (s : State) :
    (cellTail c tail s).flc.holds.line = s.flc.holds.line := by
  unfold cellTail
  (try dsimp only)
  (repeat' split) <;> simp

@[simp] theorem edge_views (c : Photocell) (l : Level) (pos : Pos) (s : State) :
    (edge c l pos s).flc.holds.line = s.flc.holds.line := by
  unfold edge
  (try dsimp only)
  (repeat' split) <;> simp

@[simp] theorem qualify_views (c : Photocell) (ch : Change) (s : State) :
    (qualify c ch s).flc.holds.line = s.flc.holds.line := by
  unfold qualify
  (try dsimp only)
  (repeat' split) <;> simp

@[simp] theorem enterStarting_views (s : State) :
    (enterStarting s).flc.holds.pockets = s.flc.holds.pockets ∧
    (enterStarting s).flc.holds.table = s.flc.holds.table ∧
    (enterStarting s).flc.holds.records = s.flc.holds.records ∧
    (enterStarting s).flc.holds.line = s.flc.holds.line := by
  unfold enterStarting
  (try dsimp only)
  (repeat' split) <;> simp

@[simp] theorem doStart_views (s : State) :
    ((doStart s).1).flc.holds.pockets = s.flc.holds.pockets ∧
    ((doStart s).1).flc.holds.table = s.flc.holds.table ∧
    ((doStart s).1).flc.holds.records = s.flc.holds.records ∧
    ((doStart s).1).flc.holds.line = s.flc.holds.line := by
  unfold doStart
  (try dsimp only)
  (repeat' split) <;> simp

@[simp] theorem doStop_views (s : State) :
    ((doStop s).1).flc.holds.pockets = s.flc.holds.pockets ∧
    ((doStop s).1).flc.holds.table = s.flc.holds.table ∧
    ((doStop s).1).flc.holds.records = s.flc.holds.records ∧
    ((doStop s).1).flc.holds.line = s.flc.holds.line := by
  unfold doStop
  (try dsimp only)
  (repeat' split) <;> simp

@[simp] theorem doClear_views (override : Bool) (s : State) :
    ((doClear override s).1).flc.holds.line = s.flc.holds.line := by
  unfold doClear
  (try dsimp only)
  (repeat' split) <;> simp

@[simp] theorem doHold_views (distance : Option Int) (s : State) :
    ((doHold distance s).1).flc.holds.pockets = s.flc.holds.pockets ∧
    ((doHold distance s).1).flc.holds.cancel = s.flc.holds.cancel ∧
    ((doHold distance s).1).flc.holds.table = s.flc.holds.table ∧
    ((doHold distance s).1).flc.holds.records = s.flc.holds.records := by
  unfold doHold
  (try dsimp only)
  (repeat' split) <;> simp

@[simp] theorem doRelease_views (s : State) :
    ((doRelease s).1).flc.holds.pockets = s.flc.holds.pockets ∧
    ((doRelease s).1).flc.holds.cancel = s.flc.holds.cancel ∧
    ((doRelease s).1).flc.holds.table = s.flc.holds.table ∧
    ((doRelease s).1).flc.holds.records = s.flc.holds.records := by
  unfold doRelease
  (try dsimp only)
  (repeat' split) <;> simp

@[simp] theorem afterSet_views (p : Param) (s : State) :
    (afterSet p s).flc.holds.table = s.flc.holds.table ∧
    (afterSet p s).flc.holds.line = s.flc.holds.line := by
  unfold afterSet
  (try dsimp only)
  (repeat' split) <;> simp

@[simp] theorem doSet_views (name value : Text) (s : State) :
    ((doSet name value s).1).flc.holds.table = s.flc.holds.table ∧
    ((doSet name value s).1).flc.holds.line = s.flc.holds.line := by
  unfold doSet
  (try dsimp only)
  (repeat' split) <;> simp

@[simp] theorem doLoad_views (s : State) :
    ((doLoad s).1).flc.holds.table = s.flc.holds.table ∧
    ((doLoad s).1).flc.holds.line = s.flc.holds.line := by
  unfold doLoad
  (try dsimp only)
  (repeat' split) <;> simp

theorem sweepRequest_views {q : Pocket} {s t : State} (h : sweepRequest q s = some t) :
    (t).flc.holds.cancel = s.flc.holds.cancel ∧
    (t).flc.holds.table = s.flc.holds.table ∧
    (t).flc.holds.records = s.flc.holds.records ∧
    (t).flc.holds.line = s.flc.holds.line := by
  unfold sweepRequest at h
  split at h
  all_goals first | cases h; simp | cases h

@[simp] theorem doPocketAction_views (q : Pocket) (a : PocketAction) (s : State) :
    ((doPocketAction q a s).1).flc.holds.cancel = s.flc.holds.cancel ∧
    ((doPocketAction q a s).1).flc.holds.table = s.flc.holds.table ∧
    ((doPocketAction q a s).1).flc.holds.records = s.flc.holds.records ∧
    ((doPocketAction q a s).1).flc.holds.line = s.flc.holds.line := by
  cases a with
  | sweep =>
    simp only [doPocketAction]
    split
    · rename_i h; simpa using sweepRequest_views h
    · simp
  | done => simp only [doPocketAction]; split <;> simp
  | disable => simp only [doPocketAction]; (repeat' split) <;> simp
  | enable => simp only [doPocketAction]; split <;> simp

@[simp] theorem doPocket_views (q : Pocket) (a : PocketAction) (s : State) :
    ((doPocket q a s).1).flc.holds.cancel = s.flc.holds.cancel ∧
    ((doPocket q a s).1).flc.holds.table = s.flc.holds.table ∧
    ((doPocket q a s).1).flc.holds.records = s.flc.holds.records ∧
    ((doPocket q a s).1).flc.holds.line = s.flc.holds.line := by
  unfold doPocket
  (try dsimp only)
  (repeat' split) <;> simp

@[simp] theorem doHeadRetry_views (h : Head) (s : State) :
    ((doHeadRetry h s).1).flc.holds.pockets = s.flc.holds.pockets ∧
    ((doHeadRetry h s).1).flc.holds.table = s.flc.holds.table ∧
    ((doHeadRetry h s).1).flc.holds.records = s.flc.holds.records ∧
    ((doHeadRetry h s).1).flc.holds.line = s.flc.holds.line := by
  unfold doHeadRetry
  (try dsimp only)
  (repeat' split) <;> simp

@[simp] theorem doCancellerClear_views (c : Stream) (s : State) :
    ((doCancellerClear c s).1).flc.holds.pockets = s.flc.holds.pockets ∧
    ((doCancellerClear c s).1).flc.holds.table = s.flc.holds.table ∧
    ((doCancellerClear c s).1).flc.holds.records = s.flc.holds.records ∧
    ((doCancellerClear c s).1).flc.holds.line = s.flc.holds.line := by
  unfold doCancellerClear
  (try dsimp only)
  (repeat' split) <;> simp

@[simp] theorem endEvent_views (b s : State) :
    (endEvent b s).cnb.bank.balance = s.cnb.bank.balance := by
  unfold endEvent
  (try dsimp only)
  (repeat' split) <;> simp

@[simp] theorem endStacking_views (b s : State) :
    (endStacking b s).cnb.bank.balance = s.cnb.bank.balance ∧
    (endStacking b s).flc.holds.pockets = s.flc.holds.pockets ∧
    (endStacking b s).flc.holds.table = s.flc.holds.table ∧
    (endStacking b s).flc.holds.records = s.flc.holds.records ∧
    (endStacking b s).flc.holds.line = s.flc.holds.line := by
  unfold endStacking
  (try dsimp only)
  (repeat' split) <;> simp

@[simp] theorem recordSent_views (s : State) :
    (recordSent s).flc.holds.pockets = s.flc.holds.pockets ∧
    (recordSent s).flc.holds.cancel = s.flc.holds.cancel ∧
    (recordSent s).flc.holds.table = s.flc.holds.table ∧
    (recordSent s).flc.holds.line = s.flc.holds.line := by
  unfold recordSent
  (try dsimp only)
  (repeat' split) <;> simp

@[simp] theorem lineSent_views (l : TxLine) (s : State) :
    (lineSent l s).flc.holds.pockets = s.flc.holds.pockets ∧
    (lineSent l s).flc.holds.cancel = s.flc.holds.cancel ∧
    (lineSent l s).flc.holds.table = s.flc.holds.table ∧
    (lineSent l s).flc.holds.line = s.flc.holds.line := by
  unfold lineSent
  (try dsimp only)
  (repeat' split) <;> simp

@[simp] theorem profileLoaded_views (s : State) :
    (profileLoaded s).flc.holds.table = s.flc.holds.table ∧
    (profileLoaded s).flc.holds.records = s.flc.holds.records ∧
    (profileLoaded s).flc.holds.line = s.flc.holds.line := by
  unfold profileLoaded
  (try dsimp only)
  (repeat' split) <;> simp

@[simp] theorem limitHead_views (s : State) (h : Head) :
    (limitHead s h).trk.table.map Entry.core = s.trk.table.map Entry.core ∧
    (limitHead s h).flc.holds.pockets = s.flc.holds.pockets ∧
    (limitHead s h).flc.holds.table = s.flc.holds.table ∧
    (limitHead s h).flc.holds.records = s.flc.holds.records ∧
    (limitHead s h).flc.holds.line = s.flc.holds.line := by
  unfold limitHead
  (try dsimp only)
  (repeat' split) <;> simp

@[simp] theorem limitHeads_views (l : List Head) (s : State) :
    (l.foldl limitHead s).trk.table.map Entry.core = s.trk.table.map Entry.core ∧
    (l.foldl limitHead s).flc.holds.pockets = s.flc.holds.pockets ∧
    (l.foldl limitHead s).flc.holds.table = s.flc.holds.table ∧
    (l.foldl limitHead s).flc.holds.records = s.flc.holds.records ∧
    (l.foldl limitHead s).flc.holds.line = s.flc.holds.line :=
  ⟨foldl_frame _ (fun t => t.trk.table.map Entry.core) (fun a t => by simp) l s,
    foldl_frame _ (fun t => t.flc.holds.pockets) (fun a t => by simp) l s,
    foldl_frame _ (fun t => t.flc.holds.table) (fun a t => by simp) l s,
    foldl_frame _ (fun t => t.flc.holds.records) (fun a t => by simp) l s,
    foldl_frame _ (fun t => t.flc.holds.line) (fun a t => by simp) l s⟩

@[simp] theorem moduleTrouble_views (c : Stream) (s : State) :
    (moduleTrouble c s).trk.table.map Entry.core = s.trk.table.map Entry.core ∧
    (moduleTrouble c s).flc.holds.pockets = s.flc.holds.pockets ∧
    (moduleTrouble c s).flc.holds.table = s.flc.holds.table ∧
    (moduleTrouble c s).flc.holds.records = s.flc.holds.records ∧
    (moduleTrouble c s).flc.holds.line = s.flc.holds.line := by
  unfold moduleTrouble
  (try dsimp only)
  (repeat' split) <;> simp

@[simp] theorem bandAct_views (c : Stream) (b : Band) (s : State) :
    (bandAct c b s).trk.table.map Entry.core = s.trk.table.map Entry.core ∧
    (bandAct c b s).flc.holds.pockets = s.flc.holds.pockets ∧
    (bandAct c b s).flc.holds.table = s.flc.holds.table ∧
    (bandAct c b s).flc.holds.records = s.flc.holds.records ∧
    (bandAct c b s).flc.holds.line = s.flc.holds.line := by
  unfold bandAct
  (try dsimp only)
  (repeat' split) <;> simp

@[simp] theorem statusAct_views (c : Stream) (m : ModuleState) (b : Band) (s : State) :
    (statusAct c m b s).trk.table.map Entry.core = s.trk.table.map Entry.core ∧
    (statusAct c m b s).flc.holds.pockets = s.flc.holds.pockets ∧
    (statusAct c m b s).flc.holds.table = s.flc.holds.table ∧
    (statusAct c m b s).flc.holds.records = s.flc.holds.records ∧
    (statusAct c m b s).flc.holds.line = s.flc.holds.line := by
  unfold statusAct
  (try dsimp only)
  (repeat' split) <;> simp

@[simp] theorem parityAct_views (c : Stream) (s : State) :
    (parityAct c s).trk.table.map Entry.core = s.trk.table.map Entry.core ∧
    (parityAct c s).cnb.bank.balance = s.cnb.bank.balance ∧
    (parityAct c s).flc.holds.pockets = s.flc.holds.pockets ∧
    (parityAct c s).flc.holds.table = s.flc.holds.table ∧
    (parityAct c s).flc.holds.records = s.flc.holds.records ∧
    (parityAct c s).flc.holds.line = s.flc.holds.line := by
  unfold parityAct
  (try dsimp only)
  (repeat' split) <;> simp

@[simp] theorem sensorQualified_views (q : Pocket) (s : State) :
    (sensorQualified q s).cnb.bank.balance = s.cnb.bank.balance ∧
    (sensorQualified q s).flc.holds.table = s.flc.holds.table ∧
    (sensorQualified q s).flc.holds.records = s.flc.holds.records ∧
    (sensorQualified q s).flc.holds.line = s.flc.holds.line := by
  unfold sensorQualified
  (try dsimp only)
  (repeat' split) <;> simp

@[simp] theorem silenceAct_views (s : State) :
    (silenceAct s).flc.holds.pockets = s.flc.holds.pockets ∧
    (silenceAct s).flc.holds.table = s.flc.holds.table ∧
    (silenceAct s).flc.holds.records = s.flc.holds.records ∧
    (silenceAct s).flc.holds.line = s.flc.holds.line := by
  unfold silenceAct
  (try dsimp only)
  (repeat' split) <;> simp

end Sys2Proof.Machine
end

