-- ==== Sys2Proof/Laws/Line.lean ====
section
/-! SUPPORT. What each operation does to the line state. -/

namespace Sys2Proof.Machine

@[simp] theorem setLine_line (l : LineState) (c : LineCause) (n : Option Counter) (s : State) : (setLine l c n s).flc.line = l := by
  simp [setLine]

@[simp] theorem drainEmpty_line (s : State) : (drainEmpty s).flc.line = .standby := by
  simp [drainEmpty]

theorem checkDrained_line (s : State) :
    (checkDrained s).flc.line = if s.flc.line = .drain ∧ s.trk.table = [] then .standby else s.flc.line := by
  unfold checkDrained
  split <;> simp

/-- The change to DRAIN passes on to STANDBY where the table is empty (R146, R148). -/
theorem enterDrain_line (c : LineCause) (s : State) :
    (enterDrain c s).flc.line = if s.trk.table = [] then .standby else .drain := by
  unfold enterDrain
  simp [checkDrained_line]

/-- A fault call is recorded in STARTING, RUN and DRAIN only (R153, R155). -/
theorem faultStop_line (c : FaultCall) (s : State) :
    (faultStop c s).flc.line = if running s then .fault else s.flc.line := by
  unfold faultStop
  split <;> simp

theorem faultStop_idle {c : FaultCall} {s : State} (h : running s = false) : faultStop c s = s := by
  simp [faultStop, h]

theorem running_iff (s : State) : running s = true ↔ s.flc.line = .starting ∨ s.flc.line = .run ∨ s.flc.line = .drain := by
  unfold running
  split <;> simp_all

theorem checkWarm_line (s : State) :
    (checkWarm s).flc.line = if s.flc.line = .warmup ∧ headAttention s = false then .standby else s.flc.line := by
  unfold checkWarm
  split <;> simp

/-- How a change of a head's state may move the line (R39, R143, R146). -/
def HeadMove (s t : State) : Prop :=
  t.flc.line = s.flc.line ∨
    (s.flc.line = .starting ∨ s.flc.line = .run) ∧ t.flc.line = (if s.trk.table = [] then .standby else .drain) ∨
    s.flc.line = .warmup ∧ t.flc.line = .standby

theorem headTo_move (h : Head) (x : HeadState) (s : State) : HeadMove s (headTo h x s) := by
  unfold headTo HeadMove
  dsimp only
  rw [checkWarm_line]
  split
  · rename_i hd
    refine .inr (.inl ⟨by simpa using hd.2.2, ?_⟩)
    rw [if_neg]
    · simp [enterDrain_line]
    · simp only [enterDrain_line]
      split <;> simp
  · split
    · rename_i hw
      exact .inr (.inr ⟨by simpa using hw.1, rfl⟩)
    · exact .inl (by simp)

theorem headGood_move (h : Head) (s : State) : HeadMove s (headGood h s) := by
  unfold headGood
  dsimp only
  split
  all_goals first
    | exact headTo_move _ _ _
    | (split <;> first | exact headTo_move _ _ _ | exact .inl (by simp))
    | exact .inl (by simp)

theorem headBad_move (h : Head) (s : State) : HeadMove s (headBad h s) := by
  unfold headBad
  dsimp only
  split
  all_goals first
    | exact headTo_move _ _ _
    | (split <;> first | exact headTo_move _ _ _ | exact .inl (by simp))
    | exact .inl (by simp)

theorem judgeCalibration_move (h : Head) (k g : Nat) (s : State) : HeadMove s (judgeCalibration h k g s) := by
  unfold judgeCalibration
  dsimp only
  split
  · simpa [HeadMove] using headGood_move h (updHead h _ s)
  · exact headBad_move h s

theorem answerHead_move (h : Head) (v : Sample) (s : State) : HeadMove s (answerHead h v s) := by
  unfold answerHead
  split
  · exact .inl rfl
  · dsimp only
    split
    · simpa [HeadMove] using judgeCalibration_move h _ _ (updHead h (fun r => { r with out := none }) s)
    · exact .inl (by simp)
    · exact .inl (by simp)

theorem failHead_move (h : Head) (s : State) : HeadMove s (failHead h s) := by
  unfold failHead
  simpa [HeadMove] using headTo_move h .failed (updHead h (fun r => { r with out := none, waiting := [] }) s)

@[simp] theorem judgeHold_line (b : Bool) (s : State) : (judgeHold b s).flc.line = s.flc.line := by
  simp

/-- The end of an event leaves the line state. -/
@[simp] theorem endEvent_line (s t : State) : (endEvent s t).flc.line = t.flc.line := by
  simp

/-- The end of a stacking event moves the line only where the event emptied the table in DRAIN (R148). -/
theorem endStacking_line (s t : State) :
    (endStacking s t).flc.line =
      if s.trk.table ≠ [] ∧ t.flc.line = .drain ∧ t.trk.table = [] then .standby else t.flc.line := by
  unfold endStacking
  dsimp only
  cases h : s.trk.table <;> simp [checkDrained_line]

theorem lineClearing_line (s : State) : (lineClearing s).flc.line = .standby := by
  simp [lineClearing]

theorem enterStarting_line (s : State) : (enterStarting s).flc.line = .starting := by
  simp [enterStarting]

theorem profileLoaded_line (s : State) : (profileLoaded s).flc.line = .warmup := by
  simp [profileLoaded]

end Sys2Proof.Machine
end

