-- ==== Sys2Proof/Laws/Letters.lean ====
section
/-! SUPPORT. The operations that add, remove, commit, decide or strand a letter: what they leave of the Letter Table. -/

namespace Sys2Proof.Machine

/-! ### Finding, changing and dropping one entry -/

theorem find_number {n : LetterNo} {l : List Entry} {e : Entry} (h : l.find? (fun e => decide (e.number = n)) = some e) :
    e ∈ l ∧ e.number = n :=
  ⟨List.mem_of_find?_eq_some h, by simpa using List.find?_some h⟩

theorem entry_some {s : State} {n : LetterNo} {e : Entry} (h : s.entry? n = some e) : e ∈ s.trk.table ∧ e.number = n :=
  find_number h

/-- Dropping by number acts on the cores as it acts on the entries. -/
theorem dropEntry_cores (n : LetterNo) (l : List Entry) :
    (dropEntry n l).map Entry.core = (l.map Entry.core).eraseP fun c => decide (c.1 = n) := by
  induction l with
  | nil => rfl
  | cons e l ih =>
    by_cases h : e.number = n
    · simp [dropEntry, h]
    · simp [dropEntry, h, ih]

theorem dropEntry_sublist (n : LetterNo) (l : List Entry) : (dropEntry n l).Sublist l := by
  induction l with
  | nil => exact .slnil
  | cons e l ih =>
    unfold dropEntry
    split
    · exact List.sublist_cons_self _ _
    · exact ih.cons_cons _

/-- Where the letter is in the table, the list is that of the others and its entry. -/
theorem dropEntry_perm {n : LetterNo} {l : List Entry} {e : Entry} (h : l.find? (fun e => decide (e.number = n)) = some e) :
    l.Perm (e :: dropEntry n l) := by
  induction l with
  | nil => simp at h
  | cons a l ih =>
    by_cases ha : a.number = n
    · simp [ha] at h; subst h; simp [dropEntry, ha]
    · simp [ha] at h
      simp only [dropEntry, ha, if_false]
      exact ((ih h).cons a).trans (.swap _ _ _)

theorem updTable_length (n : LetterNo) (f : Entry → Entry) (l : List Entry) : (updTable n f l).length = l.length := by
  induction l with
  | nil => rfl
  | cons e l ih =>
    unfold updTable
    split
    · rfl
    · simp [ih]

/-- Where the letter is in the table, changing it is a change of that one entry. -/
theorem updTable_perm {n : LetterNo} {f : Entry → Entry} {l : List Entry} {e : Entry}
    (h : l.find? (fun e => decide (e.number = n)) = some e) : (updTable n f l).Perm (f e :: dropEntry n l) := by
  induction l with
  | nil => simp at h
  | cons a l ih =>
    by_cases ha : a.number = n
    · simp [ha] at h; subst h; simp [updTable, dropEntry, ha]
    · simp [ha] at h
      simp only [updTable, dropEntry, ha, if_false]
      exact ((ih h).cons a).trans (.swap _ _ _)

theorem mem_updTable {n : LetterNo} {f : Entry → Entry} {l : List Entry} {x : Entry} (h : x ∈ updTable n f l) :
    x ∈ l ∨ ∃ e, l.find? (fun e => decide (e.number = n)) = some e ∧ x = f e := by
  induction l with
  | nil => simp [updTable] at h
  | cons a l ih =>
    by_cases ha : a.number = n
    · simp only [updTable, ha, if_true, List.mem_cons] at h
      rcases h with rfl | h
      · exact .inr ⟨a, by simp [ha], rfl⟩
      · exact .inl (List.mem_cons_of_mem _ h)
    · simp only [updTable, ha, if_false, List.mem_cons] at h
      rcases h with rfl | h
      · exact .inl (List.mem_cons_self ..)
      · rcases ih h with h | ⟨e, he, rfl⟩
        · exact .inl (List.mem_cons_of_mem _ h)
        · exact .inr ⟨e, by simp [ha, he], rfl⟩

/-- A letter is in the table exactly where its core is. -/
theorem entry_core {s t : State} (h : t.trk.table.map Entry.core = s.trk.table.map Entry.core) (n : LetterNo) :
    (t.entry? n).map Entry.core = (s.entry? n).map Entry.core := by
  unfold State.entry?
  have key : ∀ l : List Entry, (l.find? fun e => decide (e.number = n)).map Entry.core =
      (l.map Entry.core).find? fun c => decide (c.1 = n) := by
    intro l
    rw [List.find?_map]
    rfl
  rw [key, key, h]

/-! ### Removal -/

/-- The table after a removal (R18). -/
theorem removeEntry_cores (n : LetterNo) (s : State) :
    (removeEntry n s).trk.table.map Entry.core = (dropEntry n s.trk.table).map Entry.core := by
  unfold removeEntry
  dsimp only
  split <;> simp

/-- The table after a fault stop: every letter stranded, and nothing else of it (R155). -/
theorem stopBlocks_cores (s : State) :
    (stopBlocks s).trk.table.map Entry.core = (s.trk.table.map strand).map Entry.core := by
  simp [stopBlocks]

theorem faultStop_cores (c : FaultCall) (s : State) :
    (faultStop c s).trk.table.map Entry.core =
      if running s then (s.trk.table.map strand).map Entry.core else s.trk.table.map Entry.core := by
  unfold faultStop
  split
  · simp [stopBlocks]
  · rfl

@[simp] theorem strand_core (e : Entry) : (strand e).core = (e.number, e.path, e.stream, e.pocket, e.job.isSome, true) :=
  rfl

/-- The table after a stacking: without the letter, which was committed to a pocket (R130). -/
theorem stackAct_cores (n : LetterNo) (s : State) :
    (stackAct n s).trk.table.map Entry.core =
      if ((s.entry? n).bind (·.pocket)).isSome then (dropEntry n s.trk.table).map Entry.core else s.trk.table.map Entry.core := by
  unfold stackAct
  cases he : s.entry? n with
  | none => simp
  | some e =>
    simp only [Option.bind_some]
    split
    · rename_i hp; simp [hp]
    · rename_i hp; simp [hp, removeEntry_cores]

theorem clearEntry_cores (s : State) (e : Entry) :
    (clearEntry s e).trk.table.map Entry.core = (dropEntry e.number s.trk.table).map Entry.core := by
  unfold clearEntry
  dsimp only
  rw [removeEntry_cores]
  split <;> simp

/-- Clearing the entries one after another leaves none of them. -/
theorem clearEntries_cores (l : List Entry) (s : State) (h : s.trk.table.map Entry.core = l.map Entry.core) :
    (l.foldl clearEntry s).trk.table.map Entry.core = [] := by
  induction l generalizing s with
  | nil => simpa using h
  | cons e l ih =>
    simp only [List.foldl_cons]
    refine ih _ ?_
    rw [clearEntry_cores, dropEntry_cores, h]
    simp

/-- CLEAR empties the table (R157). -/
theorem lineClearing_table (s : State) : (lineClearing s).trk.table = [] := by
  have h := clearEntries_cores s.trk.table s rfl
  simpa [lineClearing] using h

/-! ### Induction -/

/-- The table after an induction: one new entry at its newest end, or a fault stop at a full table (R10, R11). -/
theorem induct_cores (a : Pos) (s : State) :
    (induct a s).trk.table.map Entry.core =
      if 64 ≤ s.trk.table.length then (faultStop .overrunTable s).trk.table.map Entry.core
      else s.trk.table.map Entry.core ++ [(s.trk.nextNumber, none, none, none, false, false)] := by
  unfold induct
  split
  · rfl
  · dsimp only
    split <;> split <;> simp [newEntry]

/-- An induction moves the line only at a full table (R11). -/
theorem induct_line {a : Pos} {s : State} (h : s.trk.table.length < 64) : (induct a s).flc.line = s.flc.line := by
  unfold induct
  rw [if_neg (by omega)]
  dsimp only
  split <;> split <;> simp

end Sys2Proof.Machine
end

