-- ==== Sys2Proof/Laws/Positions.lean ====
section
/-! SUPPORT. What a due action says of the letter it is due for. -/

namespace Sys2Proof.Laws

open Sys2Proof Sys2Proof.Machine

theorem mem_positions {s : State} {e : Entry} {k : PosKind} {x : Int} (h : (k, x) ∈ positions s e) :
    (k, x) ∈ exitPositions s e ∨ running s = true ∧ ((k, x) ∈ pe0Positions s e ∨ (k, x) ∈ missingPositions s e ∨
      (k, x) ∈ scanPositions s e ∨ (k, x) ∈ dpPositions s e ∨ (k, x) ∈ clearPositions s e ∨ (k, x) ∈ cancelPositions s e ∨
      (k, x) ∈ pocketPositions s e) := by
  unfold positions at h
  split at h
  · rename_i hr
    simp only [List.mem_append] at h
    tauto
  · simp at h; exact .inl h

/-- A scan position is the SH position or a pulse (R46, R48). -/
theorem scanPositions_kind {s : State} {e : Entry} {k : PosKind} {x : Int} (h : (k, x) ∈ scanPositions s e) : k = .sh ∨ k = .pulse := by
  simp only [scanPositions, delayedPositions, List.mem_append, List.mem_filterMap, Option.map_eq_some_iff] at h
  rcases h with (h | ⟨r, _, p, _, h⟩) | h
  · split at h <;> simp at h
    exact .inl h.1
  · exact .inr (by cases h; rfl)
  · (repeat' split at h) <;> simp at h
    exact .inr h.1

/-- A decision is due only for a letter without a path (R76). -/
theorem due_dp {s : State} {n : LetterNo} (h : due s n .dp = true) :
    ∃ e, s.entry? n = some e ∧ e.path = none ∧ decidable e = true ∧ running s = true := by
  obtain ⟨e, x, he, hm, _⟩ := due_position h
  refine ⟨e, he, ?_⟩
  rcases mem_positions hm with hm | ⟨hr, hm⟩
  · simp [exitPositions] at hm
  · rcases hm with hm | hm | hm | hm | hm | hm | hm
    · simp only [pe0Positions] at hm; (repeat' split at hm) <;> simp at hm
    · simp [missingPositions] at hm
    · rcases scanPositions_kind hm with h | h <;> cases h
    · simp only [dpPositions] at hm
      split at hm
      · rename_i hc; exact ⟨hc.1, hc.2, hr⟩
      · simp at hm
    · simp only [clearPositions, List.mem_filterMap] at hm
      obtain ⟨g, _, hm⟩ := hm
      (repeat' split at hm) <;> simp at hm
    · simp only [cancelPositions] at hm; (repeat' split at hm) <;> simp at hm
    · simp only [pocketPositions] at hm; (repeat' split at hm) <;> simp at hm

/-- A select point is due only for a letter with a path and no pocket (R124). -/
theorem due_select {s : State} {n : LetterNo} (h : due s n .select = true) :
    ∃ e, s.entry? n = some e ∧ e.path ≠ none ∧ e.pocket = none ∧ running s = true := by
  obtain ⟨e, x, he, hm, _⟩ := due_position h
  refine ⟨e, he, ?_⟩
  rcases mem_positions hm with hm | ⟨hr, hm⟩
  · simp [exitPositions] at hm
  · rcases hm with hm | hm | hm | hm | hm | hm | hm
    · simp only [pe0Positions] at hm; (repeat' split at hm) <;> simp at hm
    · simp [missingPositions] at hm
    · rcases scanPositions_kind hm with h | h <;> cases h
    · simp only [dpPositions] at hm; split at hm <;> simp at hm
    · simp only [clearPositions, List.mem_filterMap] at hm
      obtain ⟨g, _, hm⟩ := hm
      (repeat' split at hm) <;> simp at hm
    · simp only [cancelPositions] at hm; (repeat' split at hm) <;> simp at hm
    · simp only [pocketPositions] at hm
      split at hm
      · simp at hm
      · rename_i hp
        split at hm
        · rename_i hq; exact ⟨hp, hq, hr⟩
        · simp at hm

/-- A stacking position is due only for a letter with a path and a pocket (R130). -/
theorem due_stacking {s : State} {n : LetterNo} (h : due s n .stacking = true) :
    ∃ e q, s.entry? n = some e ∧ e.path ≠ none ∧ e.pocket = some q ∧ running s = true := by
  obtain ⟨e, x, he, hm, _⟩ := due_position h
  rcases mem_positions hm with hm | ⟨hr, hm⟩
  · simp [exitPositions] at hm
  · rcases hm with hm | hm | hm | hm | hm | hm | hm
    · simp only [pe0Positions] at hm; (repeat' split at hm) <;> simp at hm
    · simp [missingPositions] at hm
    · rcases scanPositions_kind hm with h | h <;> cases h
    · simp only [dpPositions] at hm; split at hm <;> simp at hm
    · simp only [clearPositions, List.mem_filterMap] at hm
      obtain ⟨g, _, hm⟩ := hm
      (repeat' split at hm) <;> simp at hm
    · simp only [cancelPositions] at hm; (repeat' split at hm) <;> simp at hm
    · simp only [pocketPositions] at hm
      split at hm
      · simp at hm
      · rename_i hp
        split at hm
        · simp at hm
        · rename_i q hq; exact ⟨e, q, he, hp, hq, hr⟩

/-- A done limit is due only while the letter is held and printing (R103, R110). -/
theorem due_doneLimit {s : State} {n : LetterNo} {c : Stream} (h : due s n (.doneLimit c) = true) :
    (s.can.recs.get c).held = some n ∧ (s.can.recs.get c).state = .printing := by
  obtain ⟨e, x, he, hm, _⟩ := due_position h
  have hn := (entry_some he).2
  rcases mem_positions hm with hm | ⟨hr, hm⟩
  · simp [exitPositions] at hm
  · rcases hm with hm | hm | hm | hm | hm | hm | hm
    · simp only [pe0Positions] at hm; (repeat' split at hm) <;> simp at hm
    · simp [missingPositions] at hm
    · rcases scanPositions_kind hm with h | h <;> cases h
    · simp only [dpPositions] at hm; split at hm <;> simp at hm
    · simp only [clearPositions, List.mem_filterMap] at hm
      obtain ⟨g, _, hm⟩ := hm
      (repeat' split at hm) <;> simp at hm
    · simp only [cancelPositions] at hm
      split at hm
      · simp only [List.mem_append] at hm
        rcases hm with (hm | hm) | hm
        · split at hm <;> simp at hm
        · split at hm <;> simp at hm
        · split at hm
          · rename_i hc
            simp only [List.mem_singleton, Prod.mk.injEq, PosKind.doneLimit.injEq] at hm
            rw [hm.1, ← hn]; exact hc
          · simp at hm
      · simp at hm
    · simp only [pocketPositions] at hm; (repeat' split at hm) <;> simp at hm

end Sys2Proof.Laws
end

