-- ==== Sys2Proof/Laws/Link.lean ====
section
/-! SUPPORT. What the shared operations leave of the line link, flag by flag; equality of states block by block; what the
transmitter's pick can do; the outcomes of rules that disagree; what a change of the hold cause set does; the gates of pockets that
are not fitted. -/

namespace Sys2Proof.Machine

/-! ### Equality, part by part -/

theorem PerKind.get_set {α : Type} (t : PerKind α) (i j : Kind) (v : α) : (t.set i v).get j = if j = i then v else t.get j := by
  by_cases h : j = i
  · subst h; simp
  · simp [h, PerKind.get_set_ne t v (Ne.symm h)]

theorem State.ext' {s t : State} (h1 : s.trk = t.trk) (h2 : s.pcm = t.pcm) (h3 : s.scu = t.scu) (h4 : s.mkf = t.mkf)
    (h5 : s.ptc = t.ptc) (h6 : s.can = t.can) (h7 : s.pkc = t.pkc) (h8 : s.flc = t.flc) (h9 : s.cnb = t.cnb)
    (h10 : s.llk = t.llk) (h11 : s.pfs = t.pfs) (h12 : s.now = t.now) (h13 : s.fresh = t.fresh) (h14 : s.pending = t.pending) :
    s = t := by
  cases s; cases t; simp_all

theorem Flc.ext' {s t : Flc} (h1 : s.line = t.line) (h2 : s.holds = t.holds) (h3 : s.countdown = t.countdown)
    (h4 : s.fault = t.fault) (h5 : s.faultCount = t.faultCount) (h6 : s.cleanRun = t.cleanRun) (h7 : s.runUp = t.runUp)
    (h8 : s.runUpQual = t.runUpQual) (h9 : s.warmup = t.warmup) (h10 : s.drainLimit = t.drainLimit) (h11 : s.estop = t.estop)
    (h12 : s.horn = t.horn) : s = t := by
  cases s; cases t; simp_all

theorem Llk.ext' {s t : Llk} (h1 : s.rx = t.rx) (h2 : s.answers = t.answers) (h3 : s.restarting = t.restarting)
    (h4 : s.silenceStart = t.silenceStart) (h5 : s.silent = t.silent) (h6 : s.flags = t.flags) (h7 : s.reports = t.reports)
    (h8 : s.tx = t.tx) (h9 : s.opening = t.opening) : s = t := by
  cases s; cases t; simp_all

theorem Trk.ext' {s t : Trk} (h1 : s.belt = t.belt) (h2 : s.samples = t.samples) (h3 : s.speed = t.speed) (h4 : s.table = t.table)
    (h5 : s.nextNumber = t.nextNumber) (h6 : s.measuring = t.measuring) (h7 : s.overTaken = t.overTaken)
    (h8 : s.prevTail = t.prevTail) : s = t := by
  cases s; cases t; simp_all

theorem Holds.ext' {s t : Holds} (h1 : s.table = t.table) (h2 : s.pockets = t.pockets) (h3 : s.cancel = t.cancel)
    (h4 : s.records = t.records) (h5 : s.line = t.line) : s = t := by
  cases s; cases t; simp_all

/-! ### The transmitter's pick -/

/-- The pick by R185 alone touches the reports and the line being sent. -/
theorem pickAvailable_eq (s : State) : pickAvailable s =
    { s with llk := { s.llk with reports := (pickAvailable s).llk.reports, tx := (pickAvailable s).llk.tx } } := by
  unfold pickAvailable
  (repeat' split) <;> rfl

theorem pickAvailable_reports (s : State) : ∀ k ∈ (pickAvailable s).llk.reports, k ∈ s.llk.reports := by
  unfold pickAvailable
  split <;> (try split) <;> simp_all [begin']

/-- The transmitter's pick touches the reports, the line being sent and the opening (R185, R195). -/
theorem pump_eq (s : State) : pump s = { s with llk := { s.llk with
    reports := (pump s).llk.reports, tx := (pump s).llk.tx, opening := (pump s).llk.opening } } := by
  unfold pump
  split
  · rfl
  · unfold pick
    split
    · rw [pickAvailable_eq]
    · rfl
    · dsimp only
      split
      · rfl
      · rw [pickAvailable_eq]

theorem pump_llk (s : State) : (pump s).llk =
    { s.llk with reports := (pump s).llk.reports, tx := (pump s).llk.tx, opening := (pump s).llk.opening } :=
  congrArg State.llk (pump_eq s)

theorem pump_reports (s : State) : ∀ k ∈ (pump s).llk.reports, k ∈ s.llk.reports := by
  unfold pump
  split
  · simp
  · unfold pick
    split
    · exact pickAvailable_reports s
    · simp
    · dsimp only
      split
      · exact fun k hk => List.mem_of_mem_filter hk
      · exact pickAvailable_reports { s with llk := { s.llk with opening := .done } }

/-- Past the second line after a reset the transmitter picks by R185 alone. -/
theorem pump_done {s : State} (h : s.llk.opening = .done) (hx : s.llk.tx = none) : pump s = pickAvailable s := by
  simp [pump, pick, h, hx]

/-- Where the stored image fails its check, the transmitter begins nothing until the load ends (R195). -/
theorem pump_loading {s : State} (h : s.llk.opening = .loading) : pump s = s := by
  simp [pump, pick, h]

/-- The report of PROFILE_DEFAULTED, where it is pending, is the second line after a reset (R195). -/
theorem pump_due {s : State} (h : s.llk.opening = .due) (hx : s.llk.tx = none) (hk : .profileDefaulted ∈ s.llk.reports) : pump s =
    { s with llk := { s.llk with
        opening := .done
        reports := s.llk.reports.filter fun k => decide (k ≠ .profileDefaulted)
        tx := some (.report .profileDefaulted (s.llk.flags.get .profileDefaulted).detail) } } := by
  simp [pump, pick, h, hx, hk, begin']

/-- What the transmitter's pick leaves of the opening: an idle transmitter comes to the second line after a reset, or passes it (R195). -/
theorem pump_opening (s : State) : (pump s).llk.opening = s.llk.opening ∨
    s.llk.tx = none ∧ s.llk.opening = .due ∧ (pump s).llk.opening = .done := by
  unfold pump
  split
  · exact .inl rfl
  · rename_i h
    unfold pick
    split <;> rename_i e
    · simp [e]
    · exact .inl rfl
    · refine .inr ⟨by simpa using h, e, ?_⟩
      dsimp only
      split <;> simp

end Sys2Proof.Machine

namespace Sys2Proof.Safety

open Sys2Proof Sys2Proof.Machine

/-! ### The link kept -/

theorem LinkKept.refl (ks : List Kind) (s : State) : LinkKept ks s s :=
  ⟨rfl, fun _ _ => rfl, fun _ h => .inl h, fun _ h => ⟨h, List.prefix_refl _⟩, .inl rfl⟩

theorem LinkKept.of_eq {ks : List Kind} {s t : State} (h : t.llk = s.llk) : LinkKept ks s t :=
  ⟨by rw [h], fun _ _ => by rw [h], fun _ hk => .inl (by rwa [h] at hk), fun _ hl => ⟨by rw [h, hl], by rw [h]⟩, .inl (by rw [h])⟩

theorem LinkKept.left_eq {ks : List Kind} {s t u : State} (h : t.llk = s.llk) (k : LinkKept ks t u) : LinkKept ks s u :=
  ⟨by rw [k.rest, h], fun x hx => by rw [k.flags x hx, h], fun x hx => by rw [← h]; exact k.reports x hx,
    fun l hl => by rw [← h] at *; exact k.sending l hl, by rw [← h]; exact k.opening⟩

theorem LinkKept.trans {ks : List Kind} {s t u : State} (h : LinkKept ks s t) (k : LinkKept ks t u) : LinkKept ks s u where
  rest := by rw [k.rest, h.rest]
  flags := fun x hx => by rw [k.flags x hx, h.flags x hx]
  reports := fun x hx => by
    rcases k.reports x hx with hx | hx
    · exact h.reports x hx
    · exact .inr hx
  sending := fun l hl => by
    obtain ⟨a, b⟩ := h.sending l hl
    obtain ⟨c, d⟩ := k.sending l a
    exact ⟨c, b.trans d⟩
  opening := by
    rcases h.opening with a | ⟨a1, a2, a3⟩
    · rcases k.opening with b | ⟨b1, b2, b3⟩
      · exact .inl (b.trans a)
      · refine .inr ⟨?_, a ▸ b2, b3⟩
        cases hx : s.llk.tx with
        | none => rfl
        | some l => exact absurd b1 (by simp [(h.sending l hx).1])
    · rcases k.opening with b | ⟨_, b2, _⟩
      · exact .inr ⟨a1, a2, b.trans a3⟩
      · rw [a3] at b2; cases b2

theorem LinkKept.mono {ks ls : List Kind} (hs : ∀ k ∈ ks, k ∈ ls) {s t : State} (h : LinkKept ks s t) : LinkKept ls s t where
  rest := h.rest
  flags := fun x hx => h.flags x fun hk => hx (hs x hk)
  reports := fun x hx => (h.reports x hx).imp_right (hs x)
  sending := h.sending
  opening := h.opening

theorem FlagSet.of_eq {k : Kind} {d : Detail} {s t u : State} (h : FlagSet k d s t) (e : u.llk.flags.get k = t.llk.flags.get k) :
    FlagSet k d s u := e.trans h

end Sys2Proof.Safety

namespace Sys2Proof.Machine

open Sys2Proof.Safety

/-! ### Where two rules disagree -/

/-- The factory default of MIN_GAP where R12 holds: 64 mm (log entry 13). -/
theorem factory_minGap_of_R12 (h : Config.minGapOfR12 = true) : Profile.factory.minGap = 256 := by
  simp [Profile.factory, h]

/-- The factory default of MIN_GAP where R191 holds: 60 mm (log entry 13). -/
theorem factory_minGap_of_R191 (h : Config.minGapOfR12 = false) : Profile.factory.minGap = 240 := by
  simp [Profile.factory, h]

/-- GET where R183 holds in POWERUP: the same in every line state (log entry 39). -/
theorem doGet_of_R183 {name : Text} (h : Config.getInPowerup name = true) (s : State) : doGet name s =
    match readParam name with
    | none => (s, deny .get .name)
    | some p => (s, accept .get [name, valueText (paramForm p) (s.pfs.profile.read p)]) := by
  refine (if_neg (by simp [h])).trans ?_
  cases readParam name <;> rfl

/-- GET where R191 holds in POWERUP: refused there (log entry 39). -/
theorem doGet_of_R191 {name : Text} {s : State} (h : Config.getInPowerup name = false) (hl : s.flc.line = .powerup) :
    doGet name s = (s, deny .get .wrongState) := by
  simp [doGet, h, hl]

/-- SET where R183 and R176 hold in POWERUP: the line state enters by the check of R183 on restricted parameters alone (log entry 39). -/
theorem doSet_of_R183 {name : Text} (h : Config.setInPowerup name = true) (value : Text) (s : State) : doSet name value s =
    match readParam name with
    | none => (s, deny .set .name)
    | some p =>
      match setCheck p value s with
      | .inl c => (s, deny .set c)
      | .inr (v, clamped) =>
        let t := afterSet p { s with pfs := { s.pfs with profile := s.pfs.profile.write v p } }
        (t, accept .set ([name, valueText (paramForm p) (t.pfs.profile.read p)] ++ if clamped then [text "CLAMPED"] else [])) := by
  refine (if_neg (by simp [h])).trans ?_
  cases readParam name with
  | none => rfl
  | some p => dsimp only <;> cases setCheck p value s <;> rfl

/-- SET where R191 holds in POWERUP: refused there (log entry 39). -/
theorem doSet_of_R191 {name value : Text} {s : State} (h : Config.setInPowerup name = false) (hl : s.flc.line = .powerup) :
    doSet name value s = (s, deny .set .wrongState) := by
  simp [doSet, h, hl]

/-- The opening is past the second line by R185, or where R195 puts it (log entry 49). -/
theorem openingAt_cases (o : Opening) (defaults : Bool) :
    openingAt o defaults = .done ∨ openingAt o defaults = o ∧ defaults = true ∧ Config.defaultedSecond = true := by
  unfold openingAt
  split
  · rename_i h; exact .inr ⟨rfl, by simpa using h⟩
  · exact .inl rfl

/-- Where R195 holds, an image that fails its check leaves its report the second line (log entry 49). -/
theorem openingAt_of_R195 (h : Config.defaultedSecond = true) (o : Opening) : openingAt o true = o := by
  simp [openingAt, h]

/-- Where R185 holds, every line after a reset follows by it (log entry 49). -/
theorem openingAt_of_R185 (h : Config.defaultedSecond = false) (o : Opening) (defaults : Bool) : openingAt o defaults = .done := by
  simp [openingAt, h]

/-! ### What operations leave of the link -/

theorem setFlag_kept {ks : List Kind} {k : Kind} (d : Detail) (s : State) (h : k ∈ ks) : LinkKept ks s (setFlag k d s) where
  rest := rfl
  flags := fun x hx => by
    have : x ≠ k := fun e => hx (e ▸ h)
    simp [PerKind.get_set, this]
  reports := fun x hx => by
    simp only [setFlag] at hx
    split at hx
    · exact .inl hx
    · rcases List.mem_append.1 hx with hx | hx
      · exact .inl hx
      · simp at hx; subst hx; exact .inr h
  sending := fun l hl => ⟨hl, by
    simp only [setFlag]; split
    · exact List.prefix_refl _
    · exact List.prefix_append _ _⟩
  opening := .inl rfl

theorem setFlag_kept' {ks : List Kind} {k : Kind} {d : Detail} {s t : State} (e : t.llk = s.llk) (h : k ∈ ks) :
    LinkKept ks s (setFlag k d t) := .left_eq e (setFlag_kept d t h)

theorem pump_kept (ks : List Kind) (s : State) : LinkKept ks s (pump s) where
  rest := by rw [pump_llk]
  flags := fun x hx => by rw [pump_llk]
  reports := fun x hx => .inl (pump_reports s x hx)
  sending := fun l hl => by simp [pump, hl]
  opening := pump_opening s

/-- A hold cause raised or lowered leaves the link as it was (R150). -/
theorem setHold_kept (ks : List Kind) (c : HoldCause) (b : Bool) (s : State) : LinkKept ks s (setHold c b s) := .of_eq rfl

/-- The judgement of the hold cause set touches FEED_HOLD alone of the flags (R152). -/
theorem judgeHold_kept {ks : List Kind} (held : Bool) (s : State) (h : .feedHold ∈ ks) : LinkKept ks s (judgeHold held s) := by
  unfold judgeHold
  split
  · exact .refl _ _
  · split
    · exact setFlag_kept' rfl h
    · exact setFlag_kept' rfl h

/-- The end of an event touches FEED_HOLD alone of the flags (R152, R185). -/
theorem endEvent_kept {ks : List Kind} (s t : State) (h : .feedHold ∈ ks) : LinkKept ks t (endEvent s t) :=
  (judgeHold_kept _ t h).trans (pump_kept ks _)

theorem refreshCancel_kept (ks : List Kind) (s : State) : LinkKept ks s (refreshCancel s) := .of_eq rfl

theorem setLine_kept {ks : List Kind} (l : LineState) (c : LineCause) (n : Option Counter) (s : State) (h : .lineState ∈ ks) :
    LinkKept ks s (setLine l c n s) := by
  unfold setLine
  have a : LinkKept ks s (setFlag .lineState (.line l c n) { s with flc := { s.flc with line := l } }) := setFlag_kept' rfl h
  exact a.trans (refreshCancel_kept ks _)

theorem cancTo_kept {ks : List Kind} (c : Stream) (x : CancState) (s : State) (h : .cancellerState ∈ ks) :
    LinkKept ks s (cancTo c x s) := by
  unfold cancTo
  dsimp only
  refine LinkKept.trans ?_ (refreshCancel_kept ks _)
  split
  · exact setFlag_kept' rfl h
  · exact .of_eq rfl

theorem setFlag_set (k : Kind) (d : Detail) (s : State) : FlagSet k d s (setFlag k d s) := by simp [FlagSet]

/-! ### The hold cause set judged at an event's end -/

/-- The judgement of the hold cause set changes the counter HOLD_CROSSINGS and the link, and nothing else (R152). -/
theorem judgeHold_eq (held : Bool) (s : State) :
    judgeHold held s = { withHolds s (judgeHold held s) with llk := (judgeHold held s).llk } := by
  unfold judgeHold
  split
  · rfl
  · split <;> rfl

/-- The end of an event changes the counter HOLD_CROSSINGS and the link, and nothing else (R152, R185). -/
theorem endEvent_eq (s t : State) : endEvent s t = { withHolds t (endEvent s t) with llk := (endEvent s t).llk } := by
  have h := judgeHold_eq s.flc.holds.any t
  unfold endEvent
  generalize judgeHold s.flc.holds.any t = u at h
  rw [pump_eq u]
  exact (congrArg (fun x => { x with llk := { u.llk with
    reports := (pump u).llk.reports, tx := (pump u).llk.tx, opening := (pump u).llk.opening } }) h).trans rfl

/-- The set judged once over an event that changed neither FEED_HOLD nor HOLD_CROSSINGS itself (R152). -/
theorem judgeHold_judged {s t : State} (h1 : t.llk.flags.get .feedHold = s.llk.flags.get .feedHold)
    (h2 : t.cnb.bank.line.holdCrossings = s.cnb.bank.line.holdCrossings) : HoldJudged s (judgeHold s.flc.holds.any t) := by
  have hf : (judgeHold s.flc.holds.any t).flc = t.flc := by simp
  constructor
  · rw [hf]
    unfold judgeHold
    split
    · rename_i h; simp [h, h1]
    · rename_i h
      split <;> rename_i h' <;> cases ha : s.flc.holds.any <;> simp_all [countCrossing, count]
  · rw [hf]
    unfold judgeHold
    split
    · rename_i h; cases ha : s.flc.holds.any <;> simp_all
    · rename_i h
      split <;> rename_i h' <;> cases ha : s.flc.holds.any <;> simp_all [countCrossing, count]

/-- The set as an event's end leaves it, seen past the transmitter's pick (R152, R185). -/
theorem HoldJudged_pump {s t : State} (h : HoldJudged s t) : HoldJudged s (pump t) := by
  constructor
  · rw [pump_llk, show (pump t).flc = t.flc by simp]; exact h.flag
  · rw [show (pump t).flc = t.flc by simp, show (pump t).cnb = t.cnb by simp]; exact h.count

/-- The hold cause set is judged at the end of every event (R152). -/
theorem endEvent_judged {s t : State} (h1 : t.llk.flags.get .feedHold = s.llk.flags.get .feedHold)
    (h2 : t.cnb.bank.line.holdCrossings = s.cnb.bank.line.holdCrossings) : HoldJudged s (endEvent s t) :=
  HoldJudged_pump (judgeHold_judged h1 h2)

/-- An event that moved one hold cause, at its end (R150, R152). -/
theorem endEvent_moved {c : HoldCause} {b : Bool} {s t : State} (h : t.flc.holds = s.flc.holds.put b c)
    (h1 : t.llk.flags.get .feedHold = s.llk.flags.get .feedHold)
    (h2 : t.cnb.bank.line.holdCrossings = s.cnb.bank.line.holdCrossings) : HoldMoved c b s (endEvent s t) :=
  { endEvent_judged h1 h2 with holds := by rw [show (endEvent s t).flc = t.flc by simp]; exact h }

/-- A flag set during an event stays set at its end, unless it is FEED_HOLD (R152). -/
theorem FlagSet_end {k : Kind} {d : Detail} {s t : State} (r : State) (hk : k ≠ .feedHold) (h : FlagSet k d s t) :
    FlagSet k d s (endEvent r t) := h.of_eq ((endEvent_kept (ks := [.feedHold]) r t (by simp)).flags k (by simpa using hk))

/-- The link stays kept at the end of an event (R152, R185). -/
theorem LinkKept_end {ks : List Kind} {s t : State} (r : State) (hk : .feedHold ∈ ks) (h : LinkKept ks s t) : LinkKept ks s (endEvent r t) :=
  h.trans (endEvent_kept r t hk)

/-! ### The gates of pockets that are not fitted -/

/-- What passUnfitted does, in the terms of the statements (R85). -/
theorem passUnfitted_passed (s : State) : Safety.UnfittedPassed s (passUnfitted s) where
  stream := by
    simp only [List.forall_mem_cons, List.not_mem_nil, false_implies, implies_true, and_true, passUnfitted_gates, passUnfitted_frame]
    refine ⟨?_, ?_, ?_, ?_, ?_, ?_, ?_, ?_, ?_, ?_, ?_, ?_⟩ <;> simp [StackPocket.all, stackGate] <;> split <;> simp_all
  others := by
    simp only [List.forall_mem_cons, List.not_mem_nil, false_implies, implies_true, and_true, passUnfitted_gates]
    refine ⟨?_, ?_, ?_, ?_, ?_⟩ <;> simp [StackPocket.all, stackGate]
  merge := by simp

end Sys2Proof.Machine
end

