-- ==== Sys2Proof/Laws/Canceller.lean ====
section
/-! SUPPORT. What the shared operations of the cancellers do: a change of state, the release of a letter, the entry to FAULT. -/

namespace Sys2Proof.Machine

open Sys2Proof Sys2Proof.Safety

/-- A table by stream read after a write. -/
theorem PerStream.get_set {α : Type} (t : PerStream α) (i j : Stream) (v : α) : (t.set i v).get j = if j = i then v else t.get j := by
  cases i <;> cases j <;> rfl

/-- A table by gate read after a write. -/
theorem PerGate.get_set {α : Type} (t : PerGate α) (i j : Gate) (v : α) : (t.set i v).get j = if j = i then v else t.get j := by
  by_cases h : j = i
  · subst h; simp
  · simp [h, PerGate.get_set_ne t v (Ne.symm h)]

/-- A table by pocket read after a write. -/
theorem PerPocket.get_set {α : Type} (t : PerPocket α) (i j : Pocket) (v : α) : (t.set i v).get j = if j = i then v else t.get j := by
  by_cases h : j = i
  · subst h; simp
  · simp [h, PerPocket.get_set_ne t v (Ne.symm h)]

/-- A table by head read after a write. -/
theorem PerHead.get_set {α : Type} (t : PerHead α) (i j : Head) (v : α) : (t.set i v).get j = if j = i then v else t.get j := by
  cases i <;> cases j <;> rfl

/-- A table by buffer read after a write. -/
theorem PerBuf.get_set {α : Type} (t : PerBuf α) (i j : Buf) (v : α) : (t.set i v).get j = if j = i then v else t.get j := by
  cases i <;> cases j <;> rfl

/-- A table by supervised photocell read after a write. -/
theorem PerSup.get_set {α : Type} (t : PerSup α) (i j : Sup) (v : α) : (t.set i v).get j = if j = i then v else t.get j := by
  cases i <;> cases j <;> rfl

/-- A table by photocell read after a write. -/
theorem PerCell.get_set {α : Type} (t : PerCell α) (i j : Photocell) (v : α) : (t.set i v).get j = if j = i then v else t.get j := by
  cases i <;> cases j <;> rfl

/-- What a canceller's operations change: jobs, cancellers, the hold set, the link. -/
def cancArea (s t : State) : State :=
  { withHolds s t with trk := { s.trk with table := t.trk.table }, can := t.can, llk := t.llk }

/-- Two changes within the cancellers' area are one. -/
theorem cancArea_trans {s t u : State} (h : t = cancArea s t) (k : u = cancArea t u) : u = cancArea s u :=
  calc u = cancArea t u := k
    _ = cancArea (cancArea s t) u := congrArg (fun x => cancArea x u) h
    _ = cancArea s u := rfl

/-- Raising or lowering a hold cause stays in the area. -/
theorem setHold_area (c : HoldCause) (b : Bool) (s : State) : setHold c b s = cancArea s (setHold c b s) := rfl

/-- The end of an event stays in the area. -/
theorem endEvent_area {s t : State} (r : State) (h : t = cancArea s t) : endEvent r t = cancArea s (endEvent r t) :=
  cancArea_trans h ((endEvent_eq r t).trans (by
    unfold cancArea
    rw [show (endEvent r t).trk = t.trk by simp, show (endEvent r t).can = t.can by simp]
    rfl))

/-- A table whose entries differ in their jobs alone. -/
def bare (l : List Entry) : List Entry := l.map fun e => { e with job := none }

/-- A change of a job is no change of any other field. -/
theorem updJob_bare (n : LetterNo) (f : Option CancelJob → Option CancelJob) (l : List Entry) :
    bare (updTable n (fun e => { e with job := f e.job }) l) = bare l := by
  induction l with
  | nil => rfl
  | cons e l ih =>
    simp only [updTable, bare]
    split
    · simp
    · simpa [bare] using ih

/-- The entry of a letter number after a change of one entry. -/
theorem entry_upd (n m : LetterNo) (f : Entry → Entry) (hf : ∀ e, (f e).number = e.number) (s : State) :
    (updEntry n f s).entry? m = if m = n then (s.entry? m).map f else s.entry? m := by
  simp only [State.entry?, updEntry]
  generalize s.trk.table = l
  induction l with
  | nil => simp [updTable]
  | cons e l ih =>
    by_cases h : e.number = n
    · simp only [updTable, h, if_true, List.find?_cons, hf]
      by_cases hm : m = n
      · subst hm; simp
      · have : ¬ n = m := fun x => hm x.symm
        simp [this, hm]
    · simp only [updTable, h, if_false, List.find?_cons]
      by_cases hm : e.number = m
      · simp [hm]
        intro hx; exact absurd (hm.trans hx) h
      · simp only [hm, decide_false]; exact ih

/-- The job of a letter number after an outcome is written. -/
theorem writeOutcome_job (n m : LetterNo) (o : CancelOutcome) (s : State) :
    ((writeOutcome n o s).entry? m).bind (·.job) =
      if m = n then ((s.entry? m).bind (·.job)).map (fun j => { j with outcome := o }) else (s.entry? m).bind (·.job) := by
  rw [writeOutcome, entry_upd n m (fun e => { e with job := e.job.map fun j => { j with outcome := o } }) (fun _ => rfl)]
  split
  · cases s.entry? m <;> rfl
  · rfl

/-- The entries depend on the table alone. -/
theorem entry_of_table {s t : State} (h : t.trk.table = s.trk.table) (n : LetterNo) : t.entry? n = s.entry? n := by
  simp [State.entry?, h]

/-- A change of a canceller record stays in the area. -/
theorem updCanc_area (c : Stream) (f : CancRec → CancRec) (s : State) : updCanc c f s = cancArea s (updCanc c f s) := rfl

/-- The setting of a flag stays in the area. -/
theorem setFlag_area (k : Kind) (d : Detail) (s : State) : setFlag k d s = cancArea s (setFlag k d s) := rfl

/-- A change of an entry stays in the area. -/
theorem updEntry_area (n : LetterNo) (f : Entry → Entry) (s : State) : updEntry n f s = cancArea s (updEntry n f s) := rfl

/-- The hold value R117 gives CANCEL. -/
theorem refreshCancel_eq (s : State) : refreshCancel s = setHold .cancel (decide (s.pfs.profile.cancelPolicy = .hold ∧
    (s.flc.line = .starting ∨ s.flc.line = .run) ∧ cancellerOut s = true)) s := by
  unfold refreshCancel
  congr 1
  cases cancellerOut s <;> simp

/-- A change of a canceller's state stays in the area (R97). -/
theorem cancTo_area (c : Stream) (n : CancState) (s : State) : cancTo c n s = cancArea s (cancTo c n s) := by
  unfold cancTo refreshCancel; dsimp only
  refine cancArea_trans ?_ (setHold_area _ _ _)
  split
  · exact cancArea_trans (updCanc_area ..) (setFlag_area ..)
  · exact updCanc_area ..

/-- The canceller records after a change of state (R97). -/
@[simp] theorem cancTo_can (c : Stream) (n : CancState) (s : State) :
    (cancTo c n s).can = { s.can with recs := s.can.recs.upd c fun r => { r with state := n } } := by
  unfold cancTo; dsimp only
  split <;> simp <;> rfl

/-- A change of a canceller's state leaves the track as it was. -/
@[simp] theorem cancTo_table (c : Stream) (n : CancState) (s : State) : (cancTo c n s).trk = s.trk := by
  unfold cancTo; dsimp only
  split <;> simp

/-- Whether a canceller is unavailable depends on the records alone. -/
theorem cancellerOut_of {s t : State} (h : t.can.recs = s.can.recs) : cancellerOut t = cancellerOut s := by
  simp [cancellerOut, h]

/-- The hold value for CANCEL in a state. -/
def cancelWanted (s t : State) : Bool :=
  decide (s.pfs.profile.cancelPolicy = .hold ∧ (s.flc.line = .starting ∨ s.flc.line = .run) ∧ cancellerOut t = true)

/-- A change of a canceller's state brings CANCEL to R117's value, and changes nothing else of the line. -/
theorem cancTo_flc (c : Stream) (n : CancState) (s : State) :
    (cancTo c n s).flc = { s.flc with holds := s.flc.holds.put (cancelWanted s (cancTo c n s)) .cancel } := by
  have hc : cancellerOut (cancTo c n s) = cancellerOut { s with can := (cancTo c n s).can } := cancellerOut_of rfl
  unfold cancelWanted
  rw [hc, cancTo_can]
  unfold cancTo; dsimp only
  rw [refreshCancel_eq]
  split <;> rfl

/-- A change of a canceller's state counts nothing. -/
theorem cancTo_cnb (c : Stream) (n : CancState) (s : State) : (cancTo c n s).cnb = s.cnb := by
  unfold cancTo refreshCancel; dsimp only
  split <;> rfl

/-- CANCELLER_STATE after a change of state (R119). -/
theorem cancTo_flag (c : Stream) (n : CancState) (s : State) :
    (cancTo c n s).llk.flags.get .cancellerState =
      if (s.can.recs.get c).state ≠ n ∧ (cancReported (s.can.recs.get c).state ∨ cancReported n) then
        { s.llk.flags.get .cancellerState with
          set := true, detail := some (.canceller c n (if n = .fault then (s.can.recs.get c).cause else none)) }
      else s.llk.flags.get .cancellerState := by
  unfold cancTo; dsimp only
  rw [refreshCancel, show ∀ b u, (setHold .cancel b u).llk = u.llk from fun _ _ => rfl]
  split
  · simp
  · rfl

/-- Two changes of one record are one. -/
theorem PerStream.upd_upd {α : Type} (t : PerStream α) (i : Stream) (f g : α → α) : (t.upd i f).upd i g = t.upd i (g ∘ f) := by
  cases i <;> rfl

/-- A table by stream read after a change. -/
theorem PerStream.upd_get {α : Type} (t : PerStream α) (i j : Stream) (f : α → α) :
    (t.upd i f).get j = if j = i then f (t.get j) else t.get j := by
  cases i <;> cases j <;> rfl

/-- The cancel job of a letter number. -/
def jobOf (s : State) (n : LetterNo) : Option CancelJob := (s.entry? n).bind (·.job)

/-- The jobs depend on the table alone. -/
theorem jobOf_table {s t : State} (h : t.trk.table = s.trk.table) (n : LetterNo) : jobOf t n = jobOf s n := by
  simp [jobOf, entry_of_table h]

/-- An outcome written, said of the job alone. -/
theorem outcomeWritten_iff (n : LetterNo) (o : CancelOutcome) (s t : State)
    (h : jobOf t n = (jobOf s n).map fun j => { j with outcome := o }) : OutcomeWritten n o s t := by
  intro e j he hj
  unfold jobOf at h; rw [h]; simp [he, hj]

/-- A job as an outcome for a held or deferred letter leaves it. -/
def writeIf (x : Option LetterNo) (o : CancelOutcome) (n : LetterNo) (j : Option CancelJob) : Option CancelJob :=
  if x = some n then j.map fun j => { j with outcome := o } else j

/-- A job as an outcome that may be absent leaves it. -/
def writeOpt (x : Option LetterNo) (o : Option CancelOutcome) (n : LetterNo) (j : Option CancelJob) : Option CancelJob :=
  match o with
  | some o => writeIf x o n j
  | none => j

/-- All that the release of a held letter does (R97). -/
theorem releaseHeld_spec (c : Stream) (o : CancelOutcome) (s : State) :
    (∀ n, jobOf (releaseHeld c o s) n = writeIf (s.can.recs.get c).held o n (jobOf s n)) ∧
    bare (releaseHeld c o s).trk.table = bare s.trk.table ∧
    (releaseHeld c o s).can = { s.can with recs := s.can.recs.upd c fun r => { r with held := none } } ∧
    (releaseHeld c o s).llk = s.llk ∧ (releaseHeld c o s).flc = s.flc ∧ (releaseHeld c o s).cnb = s.cnb ∧
    releaseHeld c o s = cancArea s (releaseHeld c o s) := by
  unfold releaseHeld
  cases h : (s.can.recs.get c).held with
  | none => exact ⟨fun n => rfl, rfl, rfl, rfl, rfl, rfl, rfl⟩
  | some m =>
    refine ⟨fun n => ?_, ?_, rfl, rfl, rfl, rfl, rfl⟩
    · have := writeOutcome_job m n o s; change jobOf (writeOutcome m o s) n = _
      rw [jobOf, this]
      simp only [writeIf, Option.some.injEq, jobOf, eq_comm]
    · exact updJob_bare m _ _

/-- All that the release of a deferred letter does (R105). -/
theorem releaseDeferred_spec (c : Stream) (o : CancelOutcome) (s : State) :
    (∀ n, jobOf (releaseDeferred c o s) n = writeIf (s.can.recs.get c).deferred o n (jobOf s n)) ∧
    bare (releaseDeferred c o s).trk.table = bare s.trk.table ∧
    (releaseDeferred c o s).can = { s.can with recs := s.can.recs.upd c fun r => { r with deferred := none } } ∧
    (releaseDeferred c o s).llk = s.llk ∧ (releaseDeferred c o s).flc = s.flc ∧ (releaseDeferred c o s).cnb = s.cnb ∧
    releaseDeferred c o s = cancArea s (releaseDeferred c o s) := by
  unfold releaseDeferred
  cases h : (s.can.recs.get c).deferred with
  | none => exact ⟨fun n => rfl, rfl, rfl, rfl, rfl, rfl, rfl⟩
  | some m =>
    refine ⟨fun n => ?_, ?_, rfl, rfl, rfl, rfl, rfl⟩
    · have := writeOutcome_job m n o s; change jobOf (writeOutcome m o s) n = _
      rw [jobOf, this]
      simp only [writeIf, Option.some.injEq, jobOf, eq_comm]
    · exact updJob_bare m _ _

/-- R117's value for CANCEL does not move within the area. -/
theorem area_cancelWanted {s t u : State} (h : t = cancArea s t) : cancelWanted t u = cancelWanted s u := by
  unfold cancelWanted
  have h1 : t.pfs = s.pfs := (congrArg State.pfs h).trans rfl
  have h2 : t.flc.line = s.flc.line := (congrArg (fun x => x.flc.line) h).trans rfl
  rw [h1, h2]

/-- All that the entry of a canceller to FAULT does, at the event's end (R98). -/
theorem cancFault_spec {c : Stream} {s : State} (cause : CancCause) (outcome : Option CancelOutcome)
    (h : (s.can.recs.get c).state ≠ .fault) : CancellerFaulted c cause outcome s (endEvent s (cancFault c cause outcome s)) := by
  let s1 := updCanc c (fun r => { r with cause := some cause, primeTimer := none, replyTimer := none }) s
  let s2 := sendFrame c .abort s1
  let s3 := match outcome with
      | some o => releaseHeld c o s2
      | none => updCanc c (fun r => { r with held := none }) s2
  let s4 := releaseDeferred c .skippedUnavailable s3
  have e : cancFault c cause outcome s = cancTo c .fault s4 := by
    unfold cancFault
    exact (if_neg h).trans (by cases outcome <;> rfl)
  have a2 : s2 = cancArea s s2 := rfl
  have f3 : (∀ n, jobOf s3 n = writeOpt (s.can.recs.get c).held outcome n (jobOf s n)) ∧
      bare s3.trk.table = bare s.trk.table ∧
      s3.can = { s.can with recs := s2.can.recs.upd c fun r => { r with held := none } } ∧
      s3.llk = s.llk ∧ s3.flc = s.flc ∧ s3.cnb = s.cnb ∧ s3 = cancArea s2 s3 := by
    cases outcome with
    | none => exact ⟨fun n => rfl, rfl, rfl, rfl, rfl, rfl, rfl⟩
    | some o =>
      obtain ⟨p1, p2, p3, p4, p5, p6, p7⟩ := releaseHeld_spec c o s2
      refine ⟨fun n => ?_, p2, p3, p4, p5, p6, p7⟩
      have : (s2.can.recs.get c).held = (s.can.recs.get c).held := by simp [s2, s1, sendFrame]
      rw [← this]; exact p1 n
  obtain ⟨q1, q2, q3, q4, q5, q6, q7⟩ := releaseDeferred_spec c .skippedUnavailable s3
  have d3 : (s3.can.recs.get c).deferred = (s.can.recs.get c).deferred := by rw [f3.2.2.1]; simp [s2, s1, sendFrame]
  have can4 : s4.can = { s.can with recs := s.can.recs.upd c fun r => { r with
      held := none, deferred := none, cause := some cause, primeTimer := none, replyTimer := none, frames := r.frames ++ [.abort] } } := by
    rw [q3, f3.2.2.1]; cases c <;> rfl
  have a4 : s4 = cancArea s s4 := cancArea_trans (cancArea_trans a2 f3.2.2.2.2.2.2) q7
  have st4 : (s4.can.recs.get c).state = (s.can.recs.get c).state := by rw [can4]; simp
  have cs4 : (s4.can.recs.get c).cause = some cause := by rw [can4]; simp
  have llk4 : s4.llk = s.llk := by rw [q4, f3.2.2.2.1]
  have flc4 : s4.flc = s.flc := by rw [q5, f3.2.2.2.2.1]
  have cnb4 : s4.cnb = s.cnb := by rw [q6, f3.2.2.2.2.2.1]
  have job : ∀ n, jobOf (cancTo c .fault s4) n = writeIf (s.can.recs.get c).deferred .skippedUnavailable n
      (writeOpt (s.can.recs.get c).held outcome n (jobOf s n)) := by
    intro n
    rw [jobOf_table (s := s4) (by simp), q1, d3, f3.1]
  have can5 : (endEvent s (cancTo c .fault s4)).can = _ := (by simp : _ = (cancTo c .fault s4).can).trans (cancTo_can c .fault s4)
  have trk5 : (endEvent s (cancTo c .fault s4)).trk = s4.trk := by simp
  replace job : ∀ n, jobOf (endEvent s (cancTo c .fault s4)) n = _ := fun n =>
    (jobOf_table (s := cancTo c .fault s4) (by simp) n).trans (job n)
  have flag5 := cancTo_flag c .fault s4
  rw [st4, cs4, llk4, if_pos ⟨h, .inr rfl⟩] at flag5
  have kept5 : LinkKept [.cancellerState] s (cancTo c .fault s4) := .left_eq llk4 (cancTo_kept c .fault s4 (by simp))
  rw [e]
  refine ⟨⟨?_, ?_, ?_, ?_, ?_, ?_⟩, ?_, ?_, ?_, ?_, ?_, ?_⟩
  · exact endEvent_area s (cancArea_trans a4 (cancTo_area c .fault s4))
  · rw [trk5]; exact q2.trans f3.2.1
  · intro n e' hh hd he
    have := job n
    cases outcome <;> simpa [writeOpt, writeIf, hh, hd, jobOf, he] using this
  · intro d hd
    rw [can5, can4]; simp [PerStream.upd_get, hd]
  · rw [can5, can4]
  · have hw : cancelWanted s (endEvent s (cancTo c .fault s4)) = cancelWanted s4 (cancTo c .fault s4) := by
      rw [area_cancelWanted a4]
      unfold cancelWanted
      rw [cancellerOut_of (s := cancTo c .fault s4) (by simp)]
    refine endEvent_moved ?_ (kept5.flags _ (by simp)) (by rw [cancTo_cnb, cnb4])
    rw [cancTo_flc, flc4]
    exact congrArg (fun b => s.flc.holds.put b .cancel) hw.symm
  · rw [can5, can4]; simp
  · intro n o hh hd ho
    refine outcomeWritten_iff _ _ _ _ ?_
    rw [job n, ho]; simp [writeOpt, writeIf, hh, hd]
  · intro n e' hh hd ho he
    have := job n
    subst ho
    simpa [writeOpt, writeIf, hd, jobOf, he] using this
  · intro n hd
    refine outcomeWritten_iff _ _ _ _ ?_
    rw [job n]; simp only [writeIf, hd, if_true]
    cases outcome with
    | none => rfl
    | some o => simp only [writeOpt, writeIf]; split <;> cases jobOf s n <;> rfl
  · exact FlagSet_end s (by simp) flag5
  · exact LinkKept_end s (by simp) (kept5.mono (by simp))

/-! ### The transmitter picks a line -/

/-- The transmitter's pick touches the link alone, and no flag (R185). -/
theorem pump_state (s : State) : (pump s).trk = s.trk ∧ (pump s).pcm = s.pcm ∧ (pump s).scu = s.scu ∧ (pump s).mkf = s.mkf ∧
    (pump s).ptc = s.ptc ∧ (pump s).can = s.can ∧ (pump s).pkc = s.pkc ∧ (pump s).flc = s.flc ∧ (pump s).cnb = s.cnb ∧
    (pump s).pfs = s.pfs ∧ (pump s).now = s.now ∧ (pump s).fresh = s.fresh ∧ (pump s).pending = s.pending ∧
    (pump s).llk.flags = s.llk.flags := by
  rw [pump_eq]; exact ⟨rfl, rfl, rfl, rfl, rfl, rfl, rfl, rfl, rfl, rfl, rfl, rfl, rfl, rfl⟩

/-- The transmitter's pick leaves the entries as they were. -/
theorem pump_entry (s : State) (n : LetterNo) : (pump s).entry? n = s.entry? n := by simp [State.entry?]

/-- A flag stays set at the transmitter's pick. -/
theorem FlagSet_pump {k : Kind} {d : Detail} {s t : State} (h : FlagSet k d s t) : FlagSet k d s (pump t) := by
  unfold FlagSet; rw [(pump_state t).2.2.2.2.2.2.2.2.2.2.2.2.2]; exact h

/-- The link stays kept at the transmitter's pick. -/
theorem LinkKept_pump {ks : List Kind} {s t : State} (h : LinkKept ks s t) : LinkKept ks s (pump t) := h.trans (pump_kept ks t)

/-- The transmitter's pick stays in the area. -/
theorem cancArea_pump {s t : State} (h : t = cancArea s t) : pump t = cancArea s (pump t) := by
  refine cancArea_trans h ?_
  rw [pump_eq]; rfl

end Sys2Proof.Machine
end

