-- ==== Sys2Proof/Laws/FaultStop.lean ====
section
/-! SUPPORT. What a fault stop does, to the cancellers and to the whole part. -/

namespace Sys2Proof.Machine

open Sys2Proof Sys2Proof.Safety

/-- A cause that stands as it is to be moves nothing (R150). -/
theorem setHold_same {c : HoldCause} {b : Bool} {s : State} (h : s.flc.holds.put b c = s.flc.holds) : setHold c b s = s := by
  unfold setHold; rw [h]

/-- In FAULT with CANCEL absent, R117 moves nothing. -/
theorem refresh_quiet {s : State} (h1 : s.flc.line = .fault) (h2 : s.flc.holds.cancel = false) : refreshCancel s = s := by
  unfold refreshCancel
  rw [h1]
  apply setHold_same
  cases hh : s.flc.holds; rw [hh] at h2; simp at h2; simp [Holds.put, h2]

/-- A job as the fault stop of its canceller leaves it (R115). -/
def stopJob (r : CancRec) (n : LetterNo) (j : Option CancelJob) : Option CancelJob :=
  match r.state with
  | .arming | .armed | .printing => writeIf r.deferred .skippedUnavailable n (writeIf r.held .failed n j)
  | .priming | .ready | .overheat => writeIf r.deferred .skippedUnavailable n j
  | .fault | .off => j

/-- All that the fault stop of one canceller does (R115). -/
theorem cancStop_spec (c : Stream) (s : State) (h1 : s.flc.line = .fault) (h2 : s.flc.holds.cancel = false) :
    let t := cancStop c s
    (∀ n, jobOf t n = stopJob (s.can.recs.get c) n (jobOf s n)) ∧
    bare t.trk.table = bare s.trk.table ∧
    t.can = { s.can with recs := s.can.recs.upd c stoppedCanceller } ∧
    t.flc = s.flc ∧ t.cnb = s.cnb ∧ t = cancArea s t ∧ LinkKept [.cancellerState] s t ∧
    ((stoppedCanceller (s.can.recs.get c)).state ≠ (s.can.recs.get c).state →
      FlagSet .cancellerState (.canceller c (stoppedCanceller (s.can.recs.get c)).state none) s t) ∧
    ((stoppedCanceller (s.can.recs.get c)).state = (s.can.recs.get c).state → t.llk = s.llk) := by
  have quiet : ∀ (u : State), u.flc = s.flc → cancTo c .off u =
      if (u.can.recs.get c).state ≠ .off ∧ (cancReported (u.can.recs.get c).state ∨ cancReported .off) then
        setFlag .cancellerState (.canceller c .off none) (updCanc c (fun r => { r with state := .off }) u)
      else updCanc c (fun r => { r with state := .off }) u := by
    intro u hu
    unfold cancTo; dsimp only
    split
    · rw [refresh_quiet (by simp [hu, h1]) (by simp [hu, h2])]; rfl
    · rw [refresh_quiet (by simp [hu, h1]) (by simp [hu, h2])]
  have upd_congr : ∀ (f g : CancRec → CancRec), f (s.can.recs.get c) = g (s.can.recs.get c) → s.can.recs.upd c f = s.can.recs.upd c g := by
    intro f g h; unfold PerStream.upd; rw [h]
  have flagged : ∀ (u : State), u.flc = s.flc → ∀ x, (u.can.recs.get c).state = x → x ≠ .off →
      cancTo c .off u = setFlag .cancellerState (.canceller c .off none) (updCanc c (fun r => { r with state := .off }) u) := by
    intro u hu x hx hne
    rw [quiet u hu, hx, if_pos ⟨hne, .inr rfl⟩]
  dsimp only
  unfold cancStop stopJob
  have fin : ∀ (u v : State) (st : CancState), st ≠ .off → (s.can.recs.get c).state = st → u.flc = s.flc → u.cnb = s.cnb → u.llk = s.llk →
      u = cancArea s u → u.can.dater = s.can.dater → (u.can.recs.get c).state = st → v = releaseDeferred c .skippedUnavailable u →
      (u.can.recs.get c).deferred = (s.can.recs.get c).deferred →
      (∀ n, jobOf (cancTo c .off v) n = writeIf (s.can.recs.get c).deferred .skippedUnavailable n (jobOf u n)) ∧
      (bare u.trk.table = bare s.trk.table → bare (cancTo c .off v).trk.table = bare s.trk.table) ∧
      (cancTo c .off v).can = { u.can with recs := u.can.recs.upd c fun r => { r with deferred := none, state := .off } } ∧
      (cancTo c .off v).flc = s.flc ∧ (cancTo c .off v).cnb = s.cnb ∧ cancTo c .off v = cancArea s (cancTo c .off v) ∧
      LinkKept [.cancellerState] s (cancTo c .off v) ∧ FlagSet .cancellerState (.canceller c .off none) s (cancTo c .off v) := by
    intro u v st hne hst hflc hcnb hllk har hdat hus hv hdef
    obtain ⟨q1, q2, q3, q4, q5, q6, q7⟩ := releaseDeferred_spec c .skippedUnavailable u
    rw [← hv] at q1 q2 q3 q4 q5 q6 q7
    have hvs : (v.can.recs.get c).state = st := by rw [q3]; simp [hus]
    have e := flagged v (q5.trans hflc) st hvs hne
    refine ⟨fun n => ?_, fun hb => ?_, ?_, ?_, ?_, ?_, ?_, ?_⟩
    · rw [jobOf_table (s := v) (by simp), q1, hdef]
    · rw [cancTo_table, q2, hb]
    · rw [cancTo_can, q3]; cases c <;> rfl
    · rw [e]; exact q5.trans hflc
    · rw [e]; exact q6.trans hcnb
    · exact cancArea_trans (cancArea_trans har q7) (cancTo_area _ _ _)
    · rw [e]
      exact setFlag_kept' (q4.trans hllk) (by simp)
    · rw [e]; simp [FlagSet, q4.trans hllk]
  cases hs : (s.can.recs.get c).state <;> dsimp only
  case off =>
    refine ⟨fun _ => rfl, rfl, ?_, rfl, rfl, rfl, .of_eq rfl, fun h => absurd (by simp [stoppedCanceller, hs]) h, fun _ => rfl⟩
    rw [upd_congr stoppedCanceller id (by simp [stoppedCanceller, hs])]
    cases c <;> rfl
  case fault =>
    refine ⟨fun _ => rfl, rfl, ?_, rfl, rfl, rfl, .of_eq rfl, fun h => absurd (by simp [stoppedCanceller, hs]) h, fun _ => rfl⟩
    rw [upd_congr stoppedCanceller (fun r => { r with frames := r.frames ++ [.standby] }) (by simp [stoppedCanceller, hs])]
    rfl
  case arming | armed | printing =>
    obtain ⟨p1, p2, p3, p4, p5, p6, p7⟩ := releaseHeld_spec c .failed (sendFrame c .standby (sendFrame c .abort s))
    generalize hw : releaseHeld c .failed (sendFrame c .standby (sendFrame c .abort s)) = w at *
    have p3' : w.can = { s.can with recs := s.can.recs.upd c fun r => { r with held := none, frames := r.frames ++ [.abort, .standby] } } := by
      rw [p3]; cases c <;> simp [sendFrame, updCanc, PerStream.upd, PerStream.set, PerStream.get]
    obtain ⟨a1, a2, a3, a4, a5, a6, a7, a8⟩ := fin (updCanc c (fun r => { r with primeTimer := none, replyTimer := none }) w) _ _ (by simp)
      hs p5 p6 p4 (cancArea_trans (cancArea_trans rfl p7) rfl) (by simp [p3']) (by simp [p3']; exact hs) rfl (by simp [p3'])
    refine ⟨fun n => ?_, a2 p2, ?_, a4, a5, a6, a7, fun _ => by simpa [stoppedCanceller, hs] using a8,
      fun h => absurd h (by simp [stoppedCanceller, hs])⟩
    · have := p1 n
      rw [a1 n]
      congr 1
      refine this.trans ?_
      congr 1
      simp [sendFrame]
    · rw [a3, upd_congr stoppedCanceller (fun r => { r with
        state := .off, held := none, deferred := none, primeTimer := none, replyTimer := none, frames := r.frames ++ [.abort, .standby] })
        (by simp [stoppedCanceller, hs])]
      simp only [updCanc, p3']
      cases c <;> simp [PerStream.upd, PerStream.set, PerStream.get]
  case priming | ready | overheat =>
    obtain ⟨a1, a2, a3, a4, a5, a6, a7, a8⟩ := fin (updCanc c (fun r => { r with primeTimer := none }) (sendFrame c .standby s))
      _ _ (by simp) hs rfl rfl rfl rfl rfl (by simp [updCanc, sendFrame]; exact hs) rfl (by simp [sendFrame])
    refine ⟨a1, a2 rfl, ?_, a4, a5, a6, a7, fun _ => by simpa [stoppedCanceller, hs] using a8,
      fun h => absurd h (by simp [stoppedCanceller, hs])⟩
    rw [a3, upd_congr stoppedCanceller (fun r => { r with
        state := .off, deferred := none, primeTimer := none, frames := r.frames ++ [.standby] })
        (by simp [stoppedCanceller, hs])]
    cases c <;> simp [sendFrame, updCanc, PerStream.upd, PerStream.set, PerStream.get]

/-- A set that is not empty after a cause was lowered was not empty before (R150). -/
theorem put_low_any {h : Holds} {c : HoldCause} (k : (h.put false c).any = true) : h.any = true := by
  cases h; cases c <;> simp [Holds.any, Holds.put] at k ⊢ <;> tauto

/-- A line state outside STARTING and RUN lowers CANCEL (R117). -/
theorem setLine_off (l : LineState) (d : LineCause) (n : Option Counter) (s : State) (h1 : l ≠ .starting) (h2 : l ≠ .run) :
    setLine l d n s = setHold .cancel false (setFlag .lineState (.line l d n) { s with flc := { s.flc with line := l } }) := by
  unfold setLine refreshCancel
  congr 1
  simp [h1, h2]

/-- All that a fault stop does, at the event's end (R155). -/
theorem faultStop_spec {call : FaultCall} {s : State} (h : running s = true) :
    FaultStopped call s (endEvent s (faultStop call s)) := by
  unfold faultStop; rw [if_pos h]; dsimp only
  generalize hs1 : setLine .fault (.fault call) none (setFlag .fault (.fault call)
    (count (fun b => { b with line := { b.line with faultStops := b.line.faultStops + 1 } })
      { s with flc := { s.flc with
        fault := some { call := call, pos := s.trk.belt, left := s.flc.line }, faultCount := min 8 (s.flc.faultCount + 1)
        cleanRun := 0, runUp := none, runUpQual := none, drainLimit := none, horn := some s.now } })) = s1
  rw [setLine_off _ _ _ _ (by simp) (by simp)] at hs1
  have flc1 : s1.flc = { s.flc with
    line := .fault
    holds := { s.flc.holds with cancel := false }
    fault := some { call := call, pos := s.trk.belt, left := s.flc.line }
    faultCount := min 8 (s.flc.faultCount + 1)
    cleanRun := 0, runUp := none, runUpQual := none, drainLimit := none
    horn := some s.now } := by rw [← hs1]; rfl
  have cnb1 : s1.cnb = { s.cnb with bank := { s.cnb.bank with line :=
    { s.cnb.bank.line with faultStops := s.cnb.bank.line.faultStops + 1 } } } := by
    rw [← hs1]; rfl
  have rest1 : s1.trk = s.trk ∧ s1.pcm = s.pcm ∧ s1.scu = s.scu ∧ s1.mkf = s.mkf ∧ s1.ptc = s.ptc ∧ s1.can = s.can ∧ s1.pkc = s.pkc ∧
      s1.pfs = s.pfs ∧ s1.now = s.now ∧ s1.fresh = s.fresh ∧ s1.pending = s.pending := by
    rw [← hs1]; simp only [setHold_frame, setFlag_frame, count, and_self]
  obtain ⟨r1, r2, r3, r4, r5, r6, r7, r8, r9, r10, r11⟩ := rest1
  have k1 : LinkKept [.fault, .lineState, .feedHold] s s1 := by
    rw [← hs1]
    refine LinkKept.trans ?_ (setHold_kept _ _ _ _)
    refine LinkKept.trans ?_ (setFlag_kept' (k := .lineState) rfl (by simp))
    exact LinkKept.trans (t := setFlag .fault (.fault call) _) (setFlag_kept' (k := .fault) rfl (by decide)) (.of_eq rfl)
  have fh : s1.llk.flags.get .feedHold = s.llk.flags.get .feedHold := by
    rw [← hs1]; simp [PerKind.get_set, count, setHold]
  have fc : s1.llk.flags.get .cancellerState = s.llk.flags.get .cancellerState := k1.flags _ (by simp)
  have f1 : FlagSet .fault (.fault call) s s1 := by
    rw [← hs1]; unfold FlagSet; simp [PerKind.get_set, count, setHold]
  have f2 : FlagSet .lineState (.line .fault (.fault call) none) s s1 := by
    rw [← hs1]; unfold FlagSet; simp [PerKind.get_set, count, setHold]
  clear hs1
  have jobs2 : ∀ n, jobOf (stopBlocks s1) n = jobOf s n := by
    intro n
    simp only [jobOf, stopBlocks, State.entry?, r1]
    generalize s.trk.table = l
    induction l with
    | nil => rfl
    | cons e l ih =>
      by_cases he : e.number = n
      · simp [strand, he]
      · simp only [List.map_cons, List.find?_cons, strand, he, decide_false]; exact ih
  have bare2 : bare (stopBlocks s1).trk.table = s.trk.table.map strandedCore := by
    simp only [stopBlocks, bare, r1, List.map_map]
    congr 1
  generalize hs2 : stopBlocks s1 = s2 at *
  have flc2 : s2.flc = s1.flc := by rw [← hs2]; rfl
  obtain ⟨p1, p2, p3, p4, p5, p6, p7, p8, p9⟩ := cancStop_spec .a s2 (by rw [flc2, flc1]) (by rw [flc2, flc1])
  generalize hs3 : cancStop .a s2 = s3 at *
  obtain ⟨q1, q2, q3, q4, q5, q6, q7, q8, q9⟩ := cancStop_spec .b s3 (by rw [p4, flc2, flc1]) (by rw [p4, flc2, flc1])
  generalize hs4 : cancStop .b s3 = s4 at *
  have ar : s4 = cancArea s2 s4 := cancArea_trans p6 q6
  have can2 : s2.can = s.can := by rw [← hs2]; exact r6
  have can4 : s4.can = { s.can with recs := s.can.recs.map stoppedCanceller } := by
    rw [q3, p3, can2]; rfl
  have job4 : ∀ n, jobOf s4 n = stopJob (s.can.recs.get .b) n (jobOf s3 n) := by
    intro n; rw [q1]
    have : s3.can.recs.get .b = s.can.recs.get .b := by rw [p3, can2]; rfl
    rw [this]
  have job3 : ∀ n, jobOf s3 n = stopJob (s.can.recs.get .a) n (jobOf s n) := by
    intro n; rw [p1, jobs2, can2]
  have fld : ∀ {α} (f : State → α), f (cancArea s2 s4) = f s4 := fun f => congrArg f ar.symm
  have llk2 : s2.llk = s1.llk := by rw [← hs2]; rfl
  have kk : LinkKept [.cancellerState] s1 s4 := LinkKept.left_eq llk2 (p7.trans q7)
  have kept : LinkKept [.fault, .lineState, .feedHold, .cancellerState] s s4 := (k1.mono (by simp)).trans (kk.mono (by simp))
  have ca2 : s2.can.recs.get .a = s.can.recs.get .a := by rw [can2]
  have cb3 : s3.can.recs.get .b = s.can.recs.get .b := by rw [p3, can2]; rfl
  have fc2 : s2.llk.flags.get .cancellerState = s.llk.flags.get .cancellerState := by rw [llk2]; exact fc
  rw [ca2] at p8 p9
  rw [cb3] at q8 q9
  have heldEq : HoldMoved .cancel false s (endEvent s s4) :=
    endEvent_moved (by rw [q4, p4, flc2, flc1]; rfl) ((kk.flags .feedHold (by simp)).trans fh) (by rw [q5, p5, ← hs2]; simp [stopBlocks, cnb1])
  have crossed := heldEq.count
  have cnb4 : s4.cnb = s1.cnb := by rw [q5, p5, ← hs2]; rfl
  have cnb5 : (endEvent s s4).cnb = s4.cnb := by
    have h1 := endEvent_eq s s4
    have h2 : (endEvent s s4).cnb = (withHolds s4 (endEvent s s4)).cnb :=
      (congrArg State.cnb h1).trans rfl
    have low : (endEvent s s4).flc.holds.any = true → s.flc.holds.any = true := by
      rw [heldEq.holds]; exact fun h => put_low_any h
    rw [if_neg (by intro h; exact absurd (low h.2) (by simp [h.1]))] at crossed
    rw [h2]; unfold withHolds; rw [crossed]
    have : s.cnb.bank.line.holdCrossings = s4.cnb.bank.line.holdCrossings := by rw [cnb4, cnb1]
    rw [this]
  obtain ⟨z1, z2, z3, z4, z5, z6, z7, z8, -, -, -, -, -, -, -, -, z9, z10, z11, z12⟩ := endEvent_frame s s4
  have job5 : ∀ n, jobOf (endEvent s s4) n = jobOf s4 n := fun n => jobOf_table (by rw [z1]) n
  constructor
  · rw [z8, q4, p4, flc2, flc1]
  · rw [z1]; exact (q2.trans p2).trans bare2
  · rw [z1, ← fld State.trk, ← hs2]; simp [cancArea, stopBlocks, r1, withHolds]
  · intro c; rw [z2, ← fld State.pcm, ← hs2]; simp [cancArea, stopBlocks, withHolds]
  · rw [z2, ← fld State.pcm, ← hs2]; simp [cancArea, stopBlocks, withHolds, r2]
  · intro c; rw [z3, ← fld State.scu, ← hs2]; simp [cancArea, stopBlocks, withHolds, r3, stopLink]
  · intro b; rw [z3, ← fld State.scu, ← hs2]
    simp only [cancArea, stopBlocks, withHolds, r3, PerBuf.get_map, stopBuf]
    split
    · rfl
    · exact ⟨rfl, rfl⟩
  · rw [z3, ← fld State.scu, ← hs2]; simp [cancArea, stopBlocks, withHolds, r3]
  · rw [z4, ← fld State.mkf, ← hs2]; simp [cancArea, stopBlocks, withHolds, r4]
  · intro g; rw [z5, ← fld State.ptc, ← hs2]; simp [cancArea, stopBlocks, withHolds, r5, stopGate]
  · rw [z5, ← fld State.ptc, ← hs2]; simp [cancArea, stopBlocks, withHolds, r5]
  · intro c; rw [z6, can4]; simp
  · intro c n e j hh hst hd ho he hj
    change jobOf _ n = _
    have hj0 : jobOf s n = some j := by simp [jobOf, he, hj]
    have da := hd .a
    have db := hd .b
    rw [job5, job4, job3]
    cases c
    · have ob := ho .b (by simp)
      rcases hst with hst | hst | hst <;> cases hb : (s.can.recs.get .b).state <;> simp [stopJob, hst, hb, writeIf, hh, da, db, ob, hj0]
    · have oa := ho .a (by simp)
      rcases hst with hst | hst | hst <;> cases ha : (s.can.recs.get .a).state <;> simp [stopJob, hst, ha, writeIf, hh, da, db, oa, hj0]
  · intro c n e j hd hs0 hs1' ho he hj
    change jobOf _ n = _
    have hj0 : jobOf s n = some j := by simp [jobOf, he, hj]
    rw [job5, job4, job3]
    cases c
    · obtain ⟨o1, o2⟩ := ho .b (by simp)
      cases ha : (s.can.recs.get .a).state <;> cases hb : (s.can.recs.get .b).state <;>
        first
        | exact absurd ha hs0
        | exact absurd ha hs1'
        | (simp only [stopJob, ha, hb, writeIf, hd, o1, o2, hj0, if_true, if_false]; split <;> rfl)
        | simp [stopJob, ha, hb, writeIf, hd, o1, o2, hj0]
    · obtain ⟨o1, o2⟩ := ho .a (by simp)
      cases hb : (s.can.recs.get .b).state <;> cases ha : (s.can.recs.get .a).state <;>
        first
        | exact absurd hb hs0
        | exact absurd hb hs1'
        | (simp only [stopJob, ha, hb, writeIf, hd, o1, o2, hj0, if_true, if_false]; split <;> rfl)
        | simp [stopJob, ha, hb, writeIf, hd, o1, o2, hj0]
  · intro n e hh he
    change jobOf _ n = _
    have hj0 : jobOf s n = e.job := by simp [jobOf, he]
    obtain ⟨a1, a2⟩ := hh .a
    obtain ⟨b1, b2⟩ := hh .b
    rw [job5, job4, job3]
    cases hb : (s.can.recs.get .b).state <;> cases ha : (s.can.recs.get .a).state <;> simp [stopJob, ha, hb, writeIf, a1, a2, b1, b2, hj0]
  · rw [z6, can4]
  · rw [cnb5, cnb4]; exact cnb1
  · refine ⟨FlagSet_end s (by simp) (f1.of_eq (kk.flags _ (by simp))), FlagSet_end s (by simp) (f2.of_eq (kk.flags _ (by simp))), ?_⟩
    have keep : ∀ {d}, FlagSet .cancellerState d s s4 → FlagSet .cancellerState d s (endEvent s s4) := fun h => FlagSet_end s (by simp) h
    have fc5 : (endEvent s s4).llk.flags.get .cancellerState = s4.llk.flags.get .cancellerState :=
      (endEvent_kept (ks := [.feedHold]) s s4 (by simp)).flags _ (by simp)
    refine ⟨fun hb => keep ?_, fun hb ha => keep ?_, fun hb ha => ?_⟩
    · have x := q8 hb
      by_cases ha : (stoppedCanceller (s.can.recs.get .a)).state = (s.can.recs.get .a).state
      · unfold FlagSet at x ⊢; rw [x, p9 ha, fc2]
      · have y := p8 ha
        unfold FlagSet at x y ⊢; rw [x, y, fc2]
    · have y := p8 ha
      unfold FlagSet at y ⊢; rw [q9 hb, y, fc2]
    · rw [fc5, q9 hb, p9 ha, fc2]
  · exact heldEq
  · exact LinkKept_end s (by simp) kept
  · rw [z7, z9, z10, z11, z12]
    refine ⟨?_, ?_, ?_, ?_, ?_⟩
    · rw [← fld State.pkc, ← hs2]; exact r7
    · rw [← fld State.pfs, ← hs2]; exact r8
    · rw [← fld State.now, ← hs2]; exact r9
    · rw [← fld State.fresh, ← hs2]; exact r10
    · rw [← fld State.pending, ← hs2]; exact r11

end Sys2Proof.Machine
end

