-- ==== Sys2Proof/WellFormed.lean ====
section
/-! DEFINITION. Well-formed commands: the operands the outside can present. -/

namespace Sys2Proof

open Sys2Proof.Machine

/-- Whether a command carries operands the outside can present: a letter number is never 0 (R7), an end bin has no sweep button (R121,
R132), a request's name, value and office code are fields without a space (R179). A dater field, a page or a first entry out of its range
is well-formed: the request is refused (R118, R171, R182). -/
def Instr.wf : Instr → Bool
  | .missingPosition _ n => decide (n ≠ 0)
  | .stationExitPosition n => decide (n ≠ 0)
  | .shPosition n => decide (n ≠ 0)
  | .scanPulse n => decide (n ≠ 0)
  | .dpDecision n => decide (n ≠ 0)
  | .armPoint n => decide (n ≠ 0)
  | .firePoint n => decide (n ≠ 0)
  | .selectPoint n => decide (n ≠ 0)
  | .stacking n => decide (n ≠ 0)
  | .sweepButtonPress q => !isBin q
  | .sweepButtonRelease q _ => !isBin q
  | .set n v => !n.isEmpty && !v.isEmpty && n.all printable && v.all printable && !n.contains chSpace && !v.contains chSpace
  | .get n => !n.isEmpty && n.all printable && !n.contains chSpace
  | .dater r => !r.office.isEmpty && r.office.all printable && !r.office.contains chSpace
  | .powerOnReset | .profileLoadComplete | .encoderCount _ | .speedResult | .runUpComplete | .runUpLimit
  | .photocellRawChange _ _ | .photocellQualifyTravel _ | .photocellQualifyTime _ | .previousTailDrop | .overLengthPosition
  | .pe0JamPosition | .blockedPosition _ | .calibrationTimer | .headAnswer _ _ | .headAnswerTimeout _ | .warmupLimit
  | .resultDelivery | .gateClearPosition _ | .gateSettleEnd _ | .doneLimit _ | .moduleStatus _ _ _ _ | .primed _ _
  | .accepted _ _ _ | .parityErr _ _ | .moduleDone _ _ _ _ | .moduleFault _ _ _ | .primeTimeout _ | .replyTimeout _
  | .pocketSensorChange _ _ | .pocketSensorQualify _ | .estopChange _ | .drainLimitPosition | .holdCountdownEnd | .linkSilence
  | .hornPulseEnd | .characterReceived _ _ | .lineGapTimeout | .ping | .status _ | .start | .stop | .clear _ | .hold _ | .release
  | .save | .saveWriteEnd | .load | .pocketSweep _ | .pocketDone _ | .pocketDisable _ | .pocketEnable _ | .pockets _ | .snap
  | .count _ | .zero | .mask _ | .ack _ | .flags | .headRetry _ | .cancellerClear _ | .capture _ | .captureOff | .table _
  | .restart | .transmitLineComplete | .eventRepeatExpiry _ | .mergeTailDrop => true

end Sys2Proof
end

