-- ==== Sys2Proof/Tests/Slice0.lean ====
section
/-! SUPPORT. Tests: ill-formed commands refused, worked examples of the spec, and for every statement with hypotheses a concrete state
that meets them. -/

namespace Sys2Proof.Tests

open Sys2Proof Sys2Proof.Machine Sys2Proof.Safety

/-! ### Well-formedness -/

theorem test_wf_missingPosition_refused : (Instr.missingPosition .pe1 0).wf = false := by decide
theorem test_wf_stationExitPosition_refused : (Instr.stationExitPosition 0).wf = false := by decide
theorem test_wf_shPosition_refused : (Instr.shPosition 0).wf = false := by decide
theorem test_wf_scanPulse_refused : (Instr.scanPulse 0).wf = false := by decide
theorem test_wf_dpDecision_refused : (Instr.dpDecision 0).wf = false := by decide
theorem test_wf_armPoint_refused : (Instr.armPoint 0).wf = false := by decide
theorem test_wf_firePoint_refused : (Instr.firePoint 0).wf = false := by decide
theorem test_wf_selectPoint_refused : (Instr.selectPoint 0).wf = false := by decide
theorem test_wf_stacking_refused : (Instr.stacking 0).wf = false := by decide
theorem test_wf_sweepButtonPress_refused : (Instr.sweepButtonPress .ea).wf = false := by decide
theorem test_wf_sweepButtonRelease_refused : (Instr.sweepButtonRelease .er false).wf = false := by decide
theorem test_wf_set_refused : (Instr.set [] (text "4")).wf = false ∧ (Instr.set (text "W") []).wf = false ∧
    (Instr.set (text "A B") (text "4")).wf = false ∧ (Instr.set (text "W") (text "4 4")).wf = false ∧
    (Instr.set [0x0A] (text "4")).wf = false ∧ (Instr.set (text "W") [0x7F]).wf = false := by decide
theorem test_wf_get_refused : (Instr.get []).wf = false ∧ (Instr.get (text "A B")).wf = false ∧ (Instr.get [0x0D]).wf = false := by
  decide
theorem test_wf_dater_refused :
    (Instr.dater ⟨[], 1, 1, 2000, 0, 1, 0⟩).wf = false ∧ (Instr.dater ⟨text "A B", 1, 1, 2000, 0, 1, 0⟩).wf = false ∧
    (Instr.dater ⟨[0x07], 1, 1, 2000, 0, 1, 0⟩).wf = false := by decide
theorem test_wf_accepted : (Instr.stacking 1).wf = true ∧ (Instr.sweepButtonPress .rh).wf = true ∧
    (Instr.set (text "LNOM") (text "760")).wf = true ∧ (Instr.dater ⟨text "LEEDS", 31, 2, 2000, 30, 1, 0⟩).wf = true := by decide

/-- No row of the table has bits, so no word spells a command (log entry 5). -/
theorem test_decode_none : decodeTableWord 8 0x01 = none := by decide

/-! ### States for the tests -/

/-- The profile of the reference layout (00_scope, 'Reference layout', in counts). -/
def layout : Profile :=
  { Profile.factory with
    stations :=
      { pe1 := some 1200, sh := some 1280, dp := some 2800, g1 := some 3040, mp := some 5600, pe2 := some 6000, g2 := some 6400
        pe4r := some 3600, gr := some 3800, psr := some 4000, rm := some 4400, rh := some 5200, er := some 6400
        pe3a := some 7200, ca := some 7600, psa := some 9200
        a1 := some 9600, a2 := some 10400, a3 := some 11200, a4 := some 12000, a5 := some 12800, a6 := some 13600, ea := some 14800
        pe3b := some 7200, cb := some 7600, psb := some 9200
        b1 := some 9600, b2 := some 10400, b3 := some 11200, b4 := some 12000, b5 := some 12800, b6 := some 13600, eb := some 14800 }
    twist := some 2400
    minGap := 256
    stack := { PerStack.fill { fit := true, cls := .cancelled, cap := 1000, near := 900 } with
      a6 := { fit := true, cls := .overflow, cap := 1000, near := 900 }
      b6 := { fit := true, cls := .overflow, cap := 1000, near := 900 }
      a5 := { fit := true, cls := .metered, cap := 1000, near := 900 }
      b5 := { fit := true, cls := .metered, cap := 1000, near := 900 }
      a4 := { fit := true, cls := .uncancelled, cap := 1000, near := 900 }
      b4 := { fit := true, cls := .uncancelled, cap := 1000, near := 900 } } }

/-- The part on the reference layout in a line state, the belt at a position. -/
def at_ (l : LineState) (belt : Pos) : State :=
  { State.reset with
    trk := { State.reset.trk with belt := belt, nextNumber := 100 }
    flc := { State.reset.flc with line := l }
    llk := { State.reset.llk with reports := [], tx := none, opening := .done }
    pfs := { State.reset.pfs with profile := layout } }

/-- The same with letters in the Letter Table. -/
def with_ (l : LineState) (belt : Pos) (es : List Entry) : State :=
  let s := at_ l belt
  { s with trk := { s.trk with table := es } }

/-- What an outcome's next state answers to a test. -/
def after (o : Host.Outcome State Fault Refusal) (p : State → Bool) : Bool :=
  match o with
  | .next t => p t
  | .fault _ => false
  | .refused _ => false

/-- A canceller record changed in a state. -/
def canc (c : Stream) (f : CancRec → CancRec) (s : State) : State := updCanc c f s

/-- A photocell with its raw level changed at a position and not yet qualified. -/
def raw (c : Photocell) (l : Level) (pos : Pos) (s : State) : State :=
  updCell c (fun _ => { raw := l, qual := if l = .blocked then .clear else .blocked, change := some { pos := pos, time := 0 } }) s

/-- The latched values of a letter of 70 cells, those of the worked case of chapter 4. -/
def latched70 : Latched where
  lnom := 800
  w := 4
  z := 20
  tPh := 240
  tMt := 3000
  tBr := 4000
  qMin := 64
  ambig := 12
  n := 70
  lref := ⟨640, 800, 800, 800⟩
  usable := PerHead.fill true

/-- A mark result of a class, an orientation and a mark cell. -/
def result (c : MarkClass) (o : Option Orient) (cell : Nat) : MarkResult where
  cls := c
  orient := o
  strength := some 3000
  cell := some cell
  q := none
  degraded := false
  saturated := false

/-- A letter scanned before DP: anchor, length0 and mark result, latched with a window width of 12. -/
def scanned (n : LetterNo) (anchor : Pos) (len : Nat) (r : MarkResult) : Entry :=
  { newEntry n anchor with
    length0 := some len, scan := .done, latched := some { latched70 with w := 12, n := (len + 7) / 8 }, result := some r
    lastPe := .pe1, shTaken := true }

/-- A cancel job not yet armed, its window 0 to 400. -/
def job : CancelJob where
  outcome := .pending
  dater := none
  pre := 32
  impLen := 400
  direction := .forward
  winStart := 0
  winEnd := 400
  truncated := false
  density := none
  armTaken := false
  fireTaken := false

/-- A letter of stream A with a cancel job, decided at DP. -/
def stamped (n : LetterNo) (anchor : Pos) (len : Nat) : Entry :=
  { scanned n anchor len (result .phosphor (some .o0) 2) with path := some .straight, stream := some .a, job := some job }

/-- A letter on the reject line. -/
def rejected (n : LetterNo) (anchor : Pos) (len : Nat) : Entry :=
  { scanned n anchor len (result .noMark none 0) with path := some .reject, cause := some .noMark }

/-! ### Worked examples of the spec -/

/-- Chapter 1, 'Example: comparison across the wrap'. -/
theorem test_reached_across_wrap :
    at' 4294966896 1280 = (880 : Pos) ∧ reached 4294967200 880 = false ∧ reached 500 880 = false ∧ reached 880 880 = true ∧
    reached 900 880 = true := by decide

/-- R1: the count below 0 is 4 294 967 295. -/
theorem test_encoder_wraps : after (exec (.encoderCount .reverse) (at_ .standby 0)) (fun t => decide (t.trk.belt = 4294967295)) = true := by
  decide

/-- Chapter 1, 'Example: speed at 3.6 m/s': 192 counts in the window read 3.00. -/
theorem test_speed_192 :
    after (exec .speedResult { at_ .run 1192 with trk := { (at_ .run 1192).trk with samples := List.replicate 16 1000 } })
      (fun t => decide (t.trk.speed = 300)) = true := by decide
theorem test_speed_191 :
    after (exec .speedResult { at_ .run 1191 with trk := { (at_ .run 1191).trk with samples := List.replicate 16 1000 } })
      (fun t => decide (t.trk.speed = 298)) = true := by decide

/-- Chapter 1, 'Example: four inductions': letter 2 is inducted 160 counts behind the previous tail. -/
theorem test_induction_gap :
    let s := raw .pe0 .blocked 1001200 (at_ .run 1001232)
    after (exec (.photocellQualifyTravel .pe0) { s with trk := { s.trk with nextNumber := 2, prevTail := some 1001040 } })
      (fun t => decide (t.trk.table.map (fun e => (e.number, e.anchor, e.early, e.cause)) =
        [(2, 1001200, some .gap, some .gap)] ∧ t.trk.nextNumber = 3)) = true := by decide

/-- The same example: length0 of letter 4 is 400, OFFSIZE, and the previous tail 1 004 100. -/
theorem test_tail_offsize :
    let s := raw .pe0 .clear 1004100 (with_ .run 1004132 [newEntry 4 1003700])
    after (exec (.photocellQualifyTravel .pe0) { s with trk := { s.trk with measuring := some 4 } })
      (fun t => decide (t.trk.table.map (fun e => (e.length0, e.early)) = [(some 400, some .offsize)] ∧
        t.trk.prevTail = some 1004100 ∧ t.trk.measuring = none)) = true := by decide

/-- The same example: the over-length position of letter 3 is 1 003 333, and the count before it is not. -/
theorem test_over_length_position :
    let s := fun b => { with_ .run b [newEntry 3 1002100] with trk := { (with_ .run b [newEntry 3 1002100]).trk with measuring := some 3 } }
    after (exec .overLengthPosition (s 1003333)) (fun t => decide (t.trk.table.map (·.early) = [some .offsize])) = true ∧
    after (exec .overLengthPosition (s 1003332)) (fun t => decide (t.trk.table.map (·.early) = [none])) = true := by decide

/-- Chapter 2, 'Worked sequence: a letter along stream A': the PE1 arrival of letter 17. -/
theorem test_arrival_pe1 :
    let s := raw .pe1 .blocked 2001230 (with_ .run 2001262 [{ newEntry 17 2000000 with length0 := some 720 }])
    after (exec (.photocellQualifyTravel .pe1) (updSup .pe1 (fun r => { r with expected := [17] }) s))
      (fun t => decide (t.trk.table.map (fun e => (e.anchor, e.lastPe)) = [(2000030, .pe1)] ∧
        t.pcm.sups.pe1 = { expected := [], passing := some { letter := 17, arrival := 2001230, blocked := 2003663 } })) = true := by
  decide

/-- Chapter 2, 'Worked sequence: a double found at PE1': the tail of letter 30. -/
theorem test_double_pe1 :
    let s := raw .pe1 .clear 3001925 (with_ .run 3001957 [{ newEntry 30 3000005 with length0 := some 600, shTaken := true }])
    after (exec (.photocellQualifyTravel .pe1)
        (updSup .pe1 (fun r => { r with passing := some { letter := 30, arrival := 3001205, blocked := 3003638 } }) s))
      (fun t => decide (t.trk.table.map (fun e => (e.length1, e.early, e.cause)) = [(some 720, some .double, some .double)])) = true := by
  decide

/-- Chapter 2: the missing position of letter 17 at PE3A is 2 007 271 after its PE2 correction. -/
theorem test_missing_position :
    let s := fun b => updSup .pe3a (fun r => { r with expected := [17] }) (with_ .run b [{ stamped 17 1999990 720 with job := none }])
    after (exec (.missingPosition .pe3a 17) (s 2007271)) (fun t => decide (t.flc.line = .fault)) = true ∧
    after (exec (.missingPosition .pe3a 17) (s 2007270)) (fun t => decide (t.flc.line = .run)) = true := by decide

/-- The sample word of three values with the check bits it needs (R190). -/
def sampleWord (gp ga rp : Nat) : BitVec 32 :=
  let w := BitVec.ofNat 32 (gp * 1048576 + ga * 1024 + rp)
  (([0, 0x40000000, 0x80000000, 0xC0000000].map (w + ·)).find? wordGood).getD 0

/-- Chapter 3, 'Example: warm-up of two heads': FT's first calibration, GA 612 at code 8, is good and steps the code to 9. -/
theorem test_calibration_good :
    let s := at_ .warmup 0
    after (exec (.headAnswer .ft (sampleWord 0 612 0))
        { s with scu := { s.scu with heads := s.scu.heads.upd .ft fun r => { r with out := some { what := .calibration, code := 8 } } } })
      (fun t => decide (((t.scu.heads.get .ft).state, (t.scu.heads.get .ft).lref, (t.scu.heads.get .ft).refCode,
        (t.scu.heads.get .ft).code) = (.warming, 612, 8, 9))) = true := by decide

/-- The same example: BB's first calibration, GA 380, is bad. -/
theorem test_calibration_bad :
    let s := at_ .warmup 0
    after (exec (.headAnswer .bb (sampleWord 0 380 0))
        { s with scu := { s.scu with heads := s.scu.heads.upd .bb fun r => { r with out := some { what := .calibration, code := 8 } } } })
      (fun t => decide (((t.scu.heads.get .bb).state, (t.scu.heads.get .bb).lref, (t.scu.heads.get .bb).code) = (.cold, 0, 8))) = true := by
  decide

set_option maxRecDepth 20000 in
/-- Chapter 4, 'Worked case: a phosphor stamp on head FT'. -/
theorem test_mark_result :
    let v := fun gp ga => ({ gp := gp, ga := ga, rp := 50 } : Sample)
    let paper := List.replicate 70 (v 160 32)
    let ft := [v 160 32, v 160 32, v 200 40, v 400 120, v 416 128, v 384 112, v 200 36] ++ List.replicate 63 (v 160 32)
    markResult latched70 ⟨ft, paper, paper, paper⟩ (PerHead.fill none) =
      { cls := .phosphor, orient := some .o0, strength := some 340, cell := some 2, q := some 91, degraded := false, saturated := false } := by
  decide

/-- A candidate of a worked case, its window starting at a cell. -/
def cand (k : MarkKind) (h : Head) (z : Zone) (n j : Nat) : Candidate where
  kind := k
  head := h
  zone := z
  strength := n
  win := ⟨j, 0, 0, 0⟩

/-- The class, the strength and window start reported, and the orientation. -/
def choiceOf (cs : List Candidate) : MarkClass × Option (Nat × Nat) × Option Orient :=
  ((choose 12 cs).cls, (choose 12 cs).chosen.map fun m => (m.strength, m.win.start), (choose 12 cs).orient)

/-- Chapter 4, 'Worked cases: the choice among candidates', cases 1 and 4. -/
theorem test_choice_close_second :
    choiceOf [cand .phosphor .ft .lead 5200 1, cand .meter .fb .trail 6000 0, cand .phosphor .bb .lead 4100 3] =
      (.ambiguous, some (5200, 1), none) := by decide
theorem test_choice_clear_first :
    choiceOf [cand .phosphor .ft .lead 5200 1, cand .meter .fb .trail 6000 0, cand .phosphor .bb .lead 3899 3] =
      (.phosphor, some (5200, 1), some .o0) := by decide
theorem test_choice_equal :
    choiceOf [cand .meter .ft .lead 4500 0, cand .meter .bb .lead 4500 1] = (.ambiguous, some (4500, 0), none) := by decide

/-- The same cases, 2 and 3: off-corner precedence. -/
theorem test_choice_offcorner :
    choiceOf [cand .phosphor .ft .trail 3000 58, cand .meter .fb .trail 7000 60] = (.offcorner, some (3000, 58), none) := by decide
theorem test_choice_offcorner_equal :
    choiceOf [cand .phosphor .ft .trail 2600 61, cand .phosphor .bt .lead 2600 4, cand .bright .bb .trail 9000 0] =
      (.offcorner, some (2600, 61), none) := by decide

/-- Chapter 5, 'Worked sequence: six letters', the decisions of 51, 52, 53 and 55. -/
theorem test_decisions :
    let merge := fun n tail s => ({ s with ptc := { s.ptc with merge := some { letter := n, tail := tail } } } : State)
    let s := at_ .run 0
    finalDecision s (scanned 51 5000000 800 (result .phosphor (some .o3) 3)) = { path := .twist, stream := some .a, cause := none } ∧
    finalDecision (merge 51 5008800 s) (scanned 52 5001100 640 (result .phosphor (some .o0) 9)) =
      { path := .reject, stream := none, cause := some .merge } ∧
    finalDecision (merge 51 5008800 s) (scanned 53 5002040 720 (result .phosphor (some .o2) 70)) =
      { path := .twist, stream := some .b, cause := none } ∧
    finalDecision (merge 53 5010760 s) (scanned 55 5003900 600 (result .bright (some .o0) 9)) =
      { path := .reject, stream := none, cause := some .brightManual } := by decide

/-- The same sequence: the merge tail letter 53 leaves, taken at its DP. -/
theorem test_dp_merge_tail :
    after (exec (.dpDecision 53) (with_ .run 5004840 [scanned 53 5002040 720 (result .phosphor (some .o2) 70)]))
      (fun t => decide (t.ptc.merge = some { letter := 53, tail := 5010760 } ∧ t.pcm.sups.pe2.expected = [53] ∧
        t.pcm.sups.pe3b.expected = [53] ∧ t.ptc.gates.g1.setting = .twist)) = true := by decide

/-- The same sequence: the cancel windows of letters 51 and 53. -/
theorem test_cancel_windows :
    ((makeJob (at_ .run 0) (scanned 51 5000000 800 (result .phosphor (some .o3) 3)) { path := .twist, stream := some .a, cause := none }).map
      fun j => (j.winStart, j.winEnd, j.truncated)) = some (0, 400, false) ∧
    ((makeJob (at_ .run 0) (scanned 53 5002040 720 (result .phosphor (some .o2) 70)) { path := .twist, stream := some .b, cause := none }).map
      fun j => (j.winStart, j.winEnd, j.truncated)) = some (288, 688, false) := by decide

/-- Chapter 6, 'Worked sequence: four letters at canceller A': the arm point, fire point and done limit of letter 61. -/
theorem test_cancel_positions :
    let s := canc .a (fun r => { r with armDist := 800 }) (at_ .run 0)
    let e := stamped 61 6000000 800
    at' e.anchor (armOffset s e .a) = (6006800 : Pos) ∧ at' e.anchor (fireOffset s e .a job) = (6007600 : Pos) ∧
    at' e.anchor (doneOffset s e .a) = (6008479 : Pos) := by decide

/-- The same sequence: 61 armed at its arm point, 62 deferred at its own, 61 GOOD with the deferred arm of 62. -/
theorem test_arm_point :
    after (exec (.armPoint 61) (canc .a (fun r => { r with state := .ready, armDist := 800 }) (with_ .run 6006800 [stamped 61 6000000 800])))
      (fun t => decide ((t.can.recs.a.state, t.can.recs.a.held, t.can.recs.a.frames.length) = (.arming, some 61, 2))) = true := by decide
theorem test_arm_deferred :
    after (exec (.armPoint 62) (canc .a (fun r => { r with state := .printing, held := some 61, armDist := 800 })
        (with_ .run 6007840 [stamped 61 6000000 800, stamped 62 6001040 560])))
      (fun t => decide ((t.can.recs.a.state, t.can.recs.a.held, t.can.recs.a.deferred) = (.printing, some 61, some 62))) = true := by decide
theorem test_module_done_deferred :
    after (exec (.moduleDone .a 61 .good true) (canc .a (fun r => { r with state := .printing, held := some 61, deferred := some 62 })
        (with_ .run 6008010 [stamped 61 6000000 800, stamped 62 6001040 560])))
      (fun t => decide ((t.can.recs.a.state, t.can.recs.a.held, t.can.recs.a.deferred) = (.arming, some 62, none) ∧
        (t.trk.table.map fun e => e.job.map (·.outcome)) = [some .done, some .pending])) = true := by decide
theorem test_parity_err :
    after (exec (.parityErr .a true) (canc .a (fun r => { r with state := .arming, held := some 63, replyTimer := some 0 })
        (with_ .run 6009058 [stamped 63 6002000 640])))
      (fun t => decide ((t.can.recs.a.state, t.can.recs.a.held, t.can.recs.a.parityRun) = (.ready, none, 1) ∧
        t.cnb.bank.cancel.a.parityErrors = 1 ∧ (t.trk.table.map fun e => e.job.map (·.outcome)) = [some .skippedParity])) = true := by decide

/-- R130, the figures under its table: letter 303 into A6, twisted into B2, a reject letter into RH and into ER. -/
theorem test_stacking_positions :
    at' 7200000 (stackOffset layout (stamped 303 7200000 560) .a6) = (7214260 : Pos) ∧
    at' 7200000 (stackOffset layout { stamped 303 7200000 560 with path := some .twist } .b2) = (7213460 : Pos) ∧
    at' 7200000 (stackOffset layout (rejected 303 7200000 560) .rh) = (7205860 : Pos) ∧
    at' 7200000 (stackOffset layout (rejected 303 7200000 560) .er) = (7206960 : Pos) := by decide

/-- Chapter 7, 'Example: pocket choice on stream A'. -/
def streamA : State :=
  let s := at_ .run 7209200
  let cfg := fun c cap near fit => ({ fit := fit, cls := c, cap := cap, near := near } : StackCfg)
  let pocket := fun n st q => updPocket q (fun r => { r with count := n, state := st })
  pocket 1500 .full .a1 <| pocket 1420 .nearFull .a2 <| pocket 600 .open .a3 <| pocket 212 .full .a4 <| pocket 40 .open .a6
    { s with
      pfs := { s.pfs with profile := { layout with
        stack := { layout.stack with
          a1 := cfg .cancelled 1500 1400 true, a2 := cfg .cancelled 1500 1400 true, a3 := cfg .metered 1000 900 true
          a4 := cfg .uncancelled 500 450 true, a5 := cfg .overflow 1000 900 false, a6 := cfg .overflow 1000 900 true } } } }
theorem test_pocket_choices :
    chooseStream streamA .a .cancelled = .a2 ∧ chooseStream streamA .a .metered = .a3 ∧ chooseStream streamA .a .uncancelled = .a6 ∧
    chooseStream (updPocket .a6 (fun r => { r with state := .full }) streamA) .a .uncancelled = .ea := by decide
set_option maxRecDepth 20000 in
theorem test_select_entries :
    let e := { stamped 303 7200000 560 with job := some { job with outcome := .skippedBusy } }
    after (exec (.selectPoint 303) { streamA with trk := { streamA.trk with table := [e] } })
      (fun t => decide (t.trk.table.map (·.pocket) = [some .a6] ∧ t.pkc.recs.a6.committed = 1 ∧
        t.ptc.gates.a4.user.map (·.letter) = some 303 ∧ t.ptc.gates.a5.user = none ∧ t.ptc.gates.a6.setting = .divert)) = true := by decide

set_option maxRecDepth 20000 in
/-- Chapter 7, 'Example: sweeping pocket A6': letter 303 stacks at 7 214 260 and SWEEP follows SWEEP_PENDING. -/
theorem test_stacking_sweep :
    let e := { stamped 303 7200000 560 with pocket := some .a6, job := none }
    after (exec (.stacking 303) (updPocket .a6 (fun r => { r with count := 40, committed := 1, state := .sweepPending, sensor := .active })
        (with_ .run 7214260 [e])))
      (fun t => decide (t.trk.table = [] ∧ (t.pkc.recs.a6.count, t.pkc.recs.a6.committed, t.pkc.recs.a6.state) = (41, 0, .sweep) ∧
        t.cnb.bank.pockets.a6 = 1)) = true := by decide
theorem test_sweep_completed :
    after (exec (.sweepButtonRelease .a6 false) { updPocket .a6 (fun r => { r with count := 41, state := .sweep, press := some 700 })
        (at_ .run 0) with now := 1000 })
      (fun t => decide ((t.pkc.recs.a6.count, t.pkc.recs.a6.state) = (0, .open))) = true := by decide

/-- Chapter 8, 'Example: holds during a run': HOLD 20 at 8 010 000 ends at 8 090 000. -/
theorem test_hold_countdown :
    after (exec (.hold (some 2000)) (at_ .run 8010000)) (fun t => decide (t.flc.countdown = some 8090000 ∧ t.flc.holds.line = true)) = true := by
  decide

/-- Chapter 8, 'Example: a jam and its clearing': the fault record, the fault count and the stranded letters. -/
def jammed : State :=
  let s := with_ .run 9000000 [{ stamped 88 8990000 560 with pocket := some .a2 }, stamped 89 8992719 560, newEntry 90 8998000]
  { updPocket .a2 (fun r => { r with count := 120, committed := 1 }) s with flc := { s.flc with faultCount := 1, cleanRun := 212 } }
theorem test_jam :
    after (exec (.missingPosition .pe3a 89) (updSup .pe3a (fun r => { r with expected := [89] }) jammed))
      (fun t => decide (t.flc.fault = some { call := .jam .pe3a .missing, pos := 9000000, left := .run } ∧ t.flc.faultCount = 2 ∧
        t.trk.table.map (·.stranded) = [true, true, true] ∧ t.pkc.recs.a2.committed = 1)) = true := by decide
set_option maxRecDepth 20000 in
theorem test_jam_cleared :
    after (exec (.clear false) { jammed with flc := { jammed.flc with line := .fault } })
      (fun t => decide (t.flc.line = .standby ∧ t.trk.table = [] ∧ t.pkc.recs.a2.committed = 0 ∧ t.cnb.bank.flow.cleared = 3 ∧
        t.cnb.records.length = 3)) = true := by decide

/-- Chapter 9, 'Example: a snapshot during a run': UTILISATION is 375. -/
theorem test_utilisation :
    utilisationOf { zeroBank with line := { zeroBank.line with beltRunMm := 412500, lengthSumMm := 154700 } } = 375 := by decide

/-! ### Witnesses: steps and invariants -/

theorem witness_stepRunsFrontCommand :
    ({ at_ .run 0 with pending := [.ping, .stop] } : State).pending = Instr.ping :: [.stop] := by decide

/-- A running line that meets every invariant: letter 60 committed to A2, 61 armed at canceller A, 62 in the computing slot, and a reply
being sent. -/
def busy : State :=
  let s := with_ .run 6007600
    [{ stamped 60 5998000 640 with pocket := some .a2, job := none }, stamped 61 6000000 800,
      { newEntry 62 6004400 with length0 := some 560, scan := .computing, latched := some latched70, lastPe := .pe1, shTaken := true }]
  { canc .a (fun r => { r with state := .armed, held := some 61 })
      (canc .b (fun r => { r with state := .ready }) (updPocket .a2 (fun r => { r with count := 7, committed := 1 })
        (updBuf .b0 (fun b => { b with phase := .computing, letter := some 62 }) s))) with
    mkf := { s.mkf with slot := some { buf := .b0, letter := 62, time := 0, params := some latched70 } }
    cnb := { s.cnb with bank := { zeroBank with flow := { zeroBank.flow with inducted := 3 } } }
    llk := { s.llk with reports := [.reset], answers := [.answered (.ok (text "PING") [])], tx := some (.reply (.ok (text "PING") [])) }
    pending := [.firePoint 61] }

set_option maxRecDepth 20000 in
theorem witness_step_busy : ∃ t, step busy = .next t ∧ t.can.recs.a.state = .printing := ⟨_, rfl, by decide⟩
theorem witness_lettersSoundKept : NumberedFromOne busy ∧ ∀ e ∈ busy.trk.table, Shaped e := by
  refine ⟨⟨by decide, by decide⟩, fun e he => ?_⟩
  simp only [busy, with_, at_, canc, updCanc, updPocket, updBuf, List.mem_cons, List.not_mem_nil, or_false] at he
  rcases he with rfl | rfl | rfl <;> exact ⟨by decide, by decide, by decide, by decide, by decide⟩
theorem witness_lineStatesHoldTheirRecords : TrackedByLine busy ∧ LineRecords busy :=
  ⟨⟨by decide, by decide⟩, ⟨by decide, by decide, by decide, by decide, by decide⟩⟩
theorem witness_holdCausesFollowOwners : CancelHeld busy ∧ PocketsHeld busy := by
  refine ⟨by unfold CancelHeld; decide, ⟨by decide, fun _ => ⟨fun c => ?_, by decide⟩⟩⟩
  rcases c with ⟨st, k⟩ | _ | _
  · cases st <;> cases k <;> decide
  · decide
  · decide
theorem witness_cancellersSoundKept : ∀ c, CancellerSound (busy.can.recs.get c) :=
  fun c => by cases c <;> exact ⟨by decide, by decide, by decide, by decide, by decide, by decide⟩
theorem witness_committedCountsKept : CommittedCounts busy ∧ PocketsSwept busy :=
  ⟨fun q => by cases q <;> decide, fun q => by cases q <;> decide, fun q => by cases q <;> decide, fun q => by cases q <;> decide⟩
theorem witness_countsStayBalanced : CountsBalanced busy := ⟨⟨by decide, by decide, by decide, by decide⟩, ⟨by decide, by decide, by decide, by decide⟩⟩
theorem witness_scanUnitSoundKept : (∀ h, HeadSound (busy.scu.heads.get h)) ∧ BuffersHeld busy := by
  refine ⟨fun h => by cases h <;> exact ⟨by decide, by simp [busy, with_, at_, canc, updCanc, updPocket, updBuf, State.reset, resetScu,
    PerHead.fill, PerHead.get, resetHead], by decide, by decide⟩, ?_⟩
  refine ⟨fun b => by cases b <;> decide, fun b => by cases b <;> decide, by decide, fun b => ?_, fun b => ?_, by decide⟩
  · constructor
    · intro h; cases b
      · exact ⟨_, rfl, rfl⟩
      · exact absurd h (by decide)
      · exact absurd h (by decide)
    · rintro ⟨i, h, rfl⟩; cases h; decide
  · constructor
    · intro h; cases b <;> exact absurd h (by decide)
    · rintro ⟨d, h, _⟩; cases h
theorem witness_reportsSoundKept : ReportsSound busy := ⟨by decide, by decide⟩
theorem witness_answersSoundKept : AnswersSound busy := ⟨by decide, by decide, by decide, fun _ h => by cases h; decide⟩
theorem witness_boundsKept : Bounded busy :=
  ⟨by decide, by decide, by decide, fun g => by cases g <;> decide, by decide, by decide, by decide, by decide, by decide, by decide,
    by decide⟩
theorem witness_profilesStayInRange : ProfilesSound busy := by
  have sound : ∀ p : Profile, p = layout ∨ p = Profile.factory → ProfileSound p := by
    rintro p (rfl | rfl)
    · refine ⟨fun q n h => ?_, fun q _ => by decide⟩
      cases q
      case stn x => cases x <;> cases h <;> exact .inl (by decide)
      case settle x => cases x <;> cases h <;> exact .inl (by decide)
      case fit x => cases x <;> cases h
      case cls x => cases x <;> cases h
      case cap x => cases x <;> cases h <;> exact .inl (by decide)
      case near x => cases x <;> cases h <;> exact .inl (by decide)
      case tower x => cases x <;> cases h
      all_goals first | (cases h; exact .inl (by decide)) | cases h
    · refine ⟨fun q n h => ?_, fun q h => by cases q <;> cases h⟩
      cases q
      case stn x => cases x <;> cases h
      case settle x => cases x <;> cases h <;> exact .inl (by decide)
      case fit x => cases x <;> cases h
      case cls x => cases x <;> cases h
      case cap x => cases x <;> cases h <;> exact .inl (by decide)
      case near x => cases x <;> cases h <;> exact .inl (by decide)
      case tower x => cases x <;> cases h
      case minGap => cases h; exact .inl (by unfold Profile.factory; dsimp only; split <;> decide)
      all_goals first | (cases h; exact .inl (by decide)) | cases h
  exact ⟨sound _ (.inl rfl), sound _ (.inr rfl), fun p h => by cases h⟩

/-! ### Witnesses: reset, load, belt -/

/-- A part powered off while its profile is being written. -/
def saving : State := { at_ .standby 0 with pfs := { (at_ .standby 0).pfs with saving := some layout } }

theorem witness_powerOnReset : (at_ .standby 0).pfs.saving = none ∧ saving.pfs.saving ≠ none := by decide
theorem witness_resetsOfPhotocells :
    ({ at_ .standby 0 with llk := { (at_ .standby 0).llk with tx := some (.reply (.ok (text "RESTART") [])) } } : State).llk.tx =
      some (.reply (.ok (text "RESTART") [])) := by decide
theorem witness_holdCrossings :
    let s := at_ .run 0
    s.flc.holds.any = (s.flc.holds.put false .line).any ∧ s.flc.holds.any ≠ (s.flc.holds.put true .line).any := by decide

/-- POWERUP with a stored image of a format and a CRC that differs from the good one by a number. -/
def powerup (format : Nat) (off : BitVec 16) : State :=
  { State.reset with pfs := { State.reset.pfs with
      image := { format := format, contents := layout, crc := Config.imageCrc format layout + off } } }
theorem witness_profileLoad :
    (powerup 0 0).flc.line = .powerup ∧ (powerup 0 0).pfs.image.format ≠ 1 ∧ (powerup 1 1).pfs.image.format = 1 ∧
    ¬ ImagePasses (powerup 1 1).pfs.image ∧ ImagePasses (powerup 1 0).pfs.image ∧ stationFree (powerup 1 0) = true ∧
    stationFree (raw .pe1 .clear 0 (powerup 1 0)) = false :=
  ⟨by decide, by decide, by decide, by simp [powerup], ⟨rfl, by simp [powerup]⟩, by decide, by decide⟩
theorem witness_beltCount :
    (at_ .standby 0).flc.line ≠ .run ∧ (at_ .run 0).flc.line = .run ∧
    ({ at_ .run 0 with cnb := { (at_ .run 0).cnb with remainder := 3 } } : State).cnb.remainder ≤ 3 ∧
    -3 ≤ ({ at_ .run 0 with cnb := { (at_ .run 0).cnb with remainder := -3 } } : State).cnb.remainder := by decide

/-- A letter a count before its arm point. -/
def nearArm : State := canc .a (fun r => { r with state := .ready, armDist := 800 }) (with_ .run 6006799 [stamped 61 6000000 800])
theorem witness_beltPunctual : Punctual nearArm ∧ ∃ t, exec (.encoderCount .forward) nearArm = .next t :=
  ⟨by unfold Punctual; decide, _, rfl⟩

/-- STARTING with the belt at 192 counts after standing still. -/
def runUp (p : Pos) : State := { at_ .starting p with flc := { (at_ .starting p).flc with runUp := some 0 } }
theorem witness_speedResult :
    (runUp 192).trk.samples.getLast? = some 0 ∧ (runUp 192).flc.line = .starting ∧ (at_ .run 192).flc.line ≠ .starting ∧
    after (exec .speedResult (runUp 191)) (fun t => decide (t.trk.speed < (runUp 191).pfs.profile.minRunSpeed)) = true ∧
    after (exec .speedResult (runUp 192)) (fun t => decide ((runUp 192).pfs.profile.minRunSpeed ≤ t.trk.speed)) = true := by decide
theorem witness_tailDrops :
    let s := { at_ .run 4000100 with
      trk := { (at_ .run 4000100).trk with prevTail := some 100 }
      ptc := { (at_ .run 4000100).ptc with merge := some { letter := 9, tail := 100 } } }
    s.trk.prevTail = some 100 ∧ reached s.trk.belt (100 + 4000000) = true ∧ s.ptc.merge = some { letter := 9, tail := 100 } := by decide

/-! ### Witnesses: faults and photocells -/

/-- A letter being measured at PE0. -/
def measuring (belt : Pos) : State :=
  let s := with_ .run belt [newEntry 4 1000000]
  { s with trk := { s.trk with measuring := some 4 } }
theorem witness_pe0Jam :
    let s := measuring 1002433
    running s = true ∧ s.trk.measuring = some 4 ∧ s.entry? 4 = some (newEntry 4 1000000) ∧
    reached s.trk.belt (at' 1000000 (2401 + s.pfs.profile.minBlock : Nat)) = true := by decide

/-- A letter expected at PE3A. -/
def expected (belt : Pos) : State :=
  updSup .pe3a (fun r => { r with expected := [17] }) (with_ .run belt [{ stamped 17 1999990 720 with job := none }])
theorem witness_missing :
    let s := expected 2007271
    let e := { stamped 17 1999990 720 with job := none }
    running s = true ∧ 17 ∈ (s.pcm.sups.get .pe3a).expected ∧ s.entry? 17 = some e ∧
    reached s.trk.belt (at' e.anchor (supDist s.pfs.profile e .pe3a + s.pfs.profile.slipTol + s.pfs.profile.minBlock + 1 : Nat)) = true := by
  decide

/-- Letter 30 in the passing slot of PE1. -/
def passing (belt : Pos) : State :=
  updSup .pe1 (fun r => { r with passing := some { letter := 30, arrival := 3001205, blocked := 3003638 } })
    (with_ .run belt [{ newEntry 30 3000005 with length0 := some 600, shTaken := true }])
theorem witness_blocked :
    running (passing 3003638) = true ∧ (((passing 3003638).pcm.sups.get .pe1).passing.map (·.blocked)) = some 3003638 ∧
    reached (passing 3003638).trk.belt 3003638 = true := by decide
theorem witness_drainLimit :
    let s := { at_ .drain 120000 with flc := { (at_ .drain 120000).flc with drainLimit := some 120000 } }
    running s = true ∧ s.flc.line = .drain ∧ s.flc.drainLimit = some 120000 ∧ reached s.trk.belt 120000 = true := by decide
theorem witness_runUpLimit : running (runUp 0) = true ∧ (runUp 0).flc.line = .starting ∧ (runUp 0).flc.runUp = some 0 := by decide
theorem witness_estop : running (at_ .run 0) = true ∧ (at_ .run 0).flc.estop = false ∧ running (at_ .standby 0) = false := by decide
theorem witness_photocellRaw :
    ((at_ .run 0).pcm.cells.get .pe1).raw ≠ .blocked ∧ running (raw .pe1 .clear 5 (at_ .standby 10)) = false ∧
    (raw .pe1 .clear 5 (at_ .standby 10)).trk.measuring = none ∧
    ((raw .pe1 .clear 5 (at_ .standby 10)).pcm.cells.get .pe1).change = some { pos := 5, time := 0 } := by decide

/-- A letter blocking PE0 with a number of letters in the table. -/
def atPe0 (n : Nat) : State :=
  raw .pe0 .blocked 1000400 (with_ .run 1000432 ((List.range n).map fun i => newEntry (BitVec.ofNat 32 (i + 1)) 0))
set_option maxRecDepth 20000 in
theorem witness_blockingOfPe0 :
    running (atPe0 55) = true ∧ ((atPe0 55).pcm.cells.get .pe0).raw = .blocked ∧
    ((atPe0 55).pcm.cells.get .pe0).change = some { pos := 1000400, time := 0 } ∧
    ((atPe0 55).pfs.profile.minBlock : Int) ≤ distance 1000400 (atPe0 55).trk.belt ∧ (atPe0 55).trk.measuring = none ∧
    (atPe0 55).trk.table.length + 1 = (atPe0 55).pfs.profile.holdAt := by decide
set_option maxRecDepth 20000 in
theorem witness_blockingOfPe0_full :
    (atPe0 63).trk.table.length < 64 ∧ (atPe0 63).trk.table.length + 1 ≠ (atPe0 63).pfs.profile.holdAt ∧
    64 ≤ (atPe0 64).trk.table.length := by decide
theorem witness_tailOfPe0 :
    let s := raw .pe0 .clear 1000480 (measuring 1000512)
    running s = true ∧ s.trk.measuring = some 4 ∧ s.entry? 4 = some (newEntry 4 1000000) ∧ (s.pcm.cells.get .pe0).raw = .clear ∧
    (s.pcm.cells.get .pe0).change = some { pos := 1000480, time := 0 } ∧
    (s.pfs.profile.minBlock : Int) ≤ distance 1000480 s.trk.belt := by decide
theorem witness_overLength :
    let s := measuring 1001233
    s.trk.overTaken = false ∧ reached s.trk.belt (at' 1000000 (1201 + s.pfs.profile.minBlock : Nat)) = true := by decide

/-- Letter 17 arriving at PE1 at a distance from its expected position 2 001 200. -/
def arriving (off : Int) : State :=
  raw .pe1 .blocked (at' 2001200 off)
    (updSup .pe1 (fun r => { r with expected := [17] })
      (with_ .run (at' 2001232 off) [{ newEntry 17 2000000 with length0 := some 720 }]))
theorem witness_arrivals :
    let s := arriving 48
    let e := { newEntry 17 2000000 with length0 := some 720 }
    running s = true ∧ s.pfs.profile.slipTol ≤ 160 ∧ (s.pcm.cells.get (supCell .pe1)).raw = .blocked ∧
    (s.pcm.cells.get (supCell .pe1)).change = some { pos := at' 2001200 48, time := 0 } ∧
    (s.pfs.profile.minBlock : Int) ≤ distance (at' 2001200 48) s.trk.belt ∧
    (s.pcm.sups.get .pe1).expected = [17] ∧ s.entry? 17 = some e ∧
    ((at' 2001200 48 : Pos) - at' e.anchor (supDist s.pfs.profile e .pe1)).toInt = s.pfs.profile.slipTol := by decide
theorem witness_arrivals_matched :
    let s := arriving 48
    let e' := { newEntry 17 2000048 with length0 := some 720, lastPe := .pe1, inStation := true }
    let slot : Passing := { letter := 17, arrival := 2001248, blocked := 2001248 + BitVec.ofNat 32 (2400 + s.pfs.profile.minBlock + 1) }
    reachedPositions (withEntry 17 e' { s with
      pcm := { cells := s.pcm.cells.set .pe1 { raw := .blocked, qual := .blocked, change := none }
               sups := s.pcm.sups.set .pe1 { expected := [], passing := some slot } }
      ptc := { s.ptc with merge := none } }) e' = [] := by decide
theorem witness_arrivals_else :
    let off := fun d => ((at' 2001200 d : Pos) - at' 2000000 (supDist layout (newEntry 17 2000000) .pe1)).toInt
    off (-49) < -(layout.slipTol : Int) ∧ (layout.slipTol : Int) < off 49 ∧ off 49 < 2147483648 - (layout.slipTol : Int) ∧
    off (-48) = -(layout.slipTol : Int) ∧ ((raw .pe1 .blocked 5 (at_ .run 37)).pcm.sups.get .pe1).expected = [] := by decide

/-- The tail of letter 30 at PE1. -/
def tail (p : Pos) : State := raw .pe1 .clear p (passing (p + 32))
theorem witness_tails :
    let s := tail 3003605
    let p : Passing := { letter := 30, arrival := 3001205, blocked := 3003638 }
    running s = true ∧ (s.pcm.cells.get (supCell .pe1)).raw = .clear ∧
    (s.pcm.cells.get (supCell .pe1)).change = some { pos := 3003605, time := 0 } ∧
    (s.pfs.profile.minBlock : Int) ≤ distance 3003605 s.trk.belt ∧ (s.pcm.sups.get .pe1).passing = some p ∧
    (p.blocked - BitVec.ofNat 32 (s.pfs.profile.minBlock + 1) - 3003605).toInt = 0 ∧
    (p.blocked - BitVec.ofNat 32 (s.pfs.profile.minBlock + 1) - 3003606).toInt < 0 ∧
    ((raw .pe1 .clear 5 (at_ .run 37)).pcm.sups.get .pe1).passing = none := by decide
theorem witness_tails_double :
    let e := { newEntry 30 3000005 with length0 := some 600, shTaken := true }
    (tail 3001902).entry? 30 = some e ∧ e.early = none ∧ e.path = none ∧
    (2 * layout.slipTol : Nat) < ((3001902 - 3001205 : Pos).toInt - 600).natAbs ∧
    ¬ (2 * layout.slipTol : Nat) < ((3001901 - 3001205 : Pos).toInt - 600).natAbs := by decide

/-! ### Witnesses: heads, scanning, marks -/

/-- A letter of 70 cells in the scan station, its exit position at 1 001 856. -/
def inStation (due : Bool) (belt : Pos) : State :=
  let s := with_ .run belt [{ newEntry 17 1000000 with length0 := some 560, inStation := true, shTaken := true }]
  { s with scu := { s.scu with calDue := due } }
theorem witness_stationExit :
    let s := inStation true 1001856
    s.entry? 17 = some { newEntry 17 1000000 with length0 := some 560, inStation := true, shTaken := true } ∧
    reached s.trk.belt (at' 1000000 (s.pfs.profile.dist .sh + (560 + 16) : Nat)) = true ∧ s.scu.calDue = true ∧
    s.flc.line ≠ .powerup ∧ s.flc.line ≠ .fault ∧ (inStation false 1001856).scu.calDue = false ∧
    after (exec (.stationExitPosition 17) s) (fun t => stationFree { t with scu := s.scu }) = true := by decide
theorem witness_calibrationTimer :
    (at_ .warmup 0).flc.line = .warmup ∧ (at_ .drain 0).flc.line = .drain ∧ stationFree (at_ .warmup 0) = true ∧
    stationFree (inStation false 0) = false := by decide

/-- Head FT with a calibration pulse outstanding, in a head state, the other heads READY. -/
def calibrating (l : LineState) (h : HeadState) (run : Nat) : State :=
  let s := at_ l 0
  { s with scu := { s.scu with heads := { PerHead.fill { resetHead with state := .ready, lref := 800 } with
      ft := { resetHead with state := h, run := run, out := some { what := .calibration, code := 8 } } } } }
theorem witness_calibrationAnswer :
    let s := calibrating .warmup .warming 0
    wordGood (sampleWord 0 400 0) = true ∧ (s.scu.heads.get .ft).out = some { what := .calibration, code := 8 } ∧
    s.scu.calDue = false ∧ s.flc.line = .warmup := by decide
theorem witness_calibrationAnswer_warm :
    after (exec (.headAnswer .ft (sampleWord 0 400 0)) (calibrating .warmup .warming 0))
      (fun t => Head.all.all fun h => decide ((t.scu.heads.get h).state = .ready)) = true := by decide
theorem witness_calibrationAnswer_bounds :
    layout.lnom ≤ 400 * 2 ∧ ¬ layout.lnom ≤ 399 * 2 ∧ ¬ 1023 ≤ 1022 ∧
    (calibratedState true .ready 0).1 = .ready ∧ (calibratedState false .ready 1).1 = .weak := by decide
theorem witness_calibrationAnswer_weak :
    let s := calibrating .run .ready 1
    let t := { s with
      pfs := { s.pfs with profile := { layout with degradePolicy := .drain } }
      trk := { s.trk with table := [newEntry 17 0] } }
    t.pfs.profile.degradePolicy = .drain ∧ t.flc.line = .run ∧ t.trk.table ≠ [] ∧
    after (exec (.headAnswer .ft (sampleWord 0 399 0)) t) (fun u => decide ((u.scu.heads.get .ft).state = .weak)) = true := by decide

/-- The answer to cell 0 of letter 17, a letter of `n` cells, outstanding on FT, its only usable head. -/
def lastAnswer (mkf : Mkf) (n : Nat) : State :=
  let s := with_ .run 2002026 [{ newEntry 17 2000030 with
    length0 := some 8, scan := .scanning, latched := some { latched70 with n := n, usable := ⟨true, false, false, false⟩ } }]
  { s with
    scu := { s.scu with
      heads := s.scu.heads.upd .ft fun r => { r with
        out := some { what := .scan { letter := 17, buf := .b0, cell := 0, pos := 2001314 }, code := 8 } }
      bufs := s.scu.bufs.set .b0 { freeBuf with phase := .filling, letter := some 17, next := 1 } }
    mkf := mkf }
/-- The computing slot occupied by another letter. -/
def slotTaken : Mkf := { work := [], slot := some { buf := .b1, letter := 16, time := 0, params := some latched70 }, capture := .off }
theorem witness_scanAnswer :
    let s := lastAnswer resetMkf 1
    wordGood (sampleWord 1 2 3) = true ∧ wordGood 0 = false ∧ s.scu.calDue = false ∧
    (s.scu.heads.get .ft).out = some { what := .scan { letter := 17, buf := .b0, cell := 0, pos := 2001314 }, code := 8 } ∧
    (s.scu.heads.get .fb).out = none ∧ (s.scu.bufs.get .b0).phase = .filling ∧ (s.scu.bufs.get .b0).letter = some 17 ∧
    ((s.entry? 17).bind (·.latched)).map (·.n) = some 1 ∧ s.mkf.work = [] ∧ s.mkf.slot = none ∧
    ((lastAnswer resetMkf 2).entry? 17).bind (·.latched) ≠ none ∧ (lastAnswer slotTaken 1).mkf.slot ≠ none := by decide
theorem witness_headAnswerTimeout :
    BuffersHeld (lastAnswer resetMkf 2) ∧ ((lastAnswer resetMkf 2).scu.heads.get .ft).out.isSome = true ∧
    ((lastAnswer resetMkf 2).scu.bufs.get .b0).phase = .filling ∧ ((lastAnswer resetMkf 2).scu.bufs.get .b1).phase ≠ .filling ∧
    ((lastAnswer resetMkf 2).scu.bufs.get .b0).cells.ft.length < 2 ∧
    (((lastAnswer resetMkf 2).entry? 17).bind (·.latched)).map (fun l => (l.n, l.usable.ft)) = some (2, true) := by
  refine ⟨⟨fun b => by cases b <;> decide, fun b => by cases b <;> decide, by decide, fun b => ?_, fun b => ?_, by decide⟩,
    by decide, by decide, by decide, by decide, by decide⟩
  · constructor
    · intro h; cases b <;> exact absurd h (by decide)
    · rintro ⟨i, h, _⟩; cases h
  · constructor
    · intro h; cases b <;> exact absurd h (by decide)
    · rintro ⟨d, h, _⟩; cases h
theorem witness_warmupLimit :
    let s := { at_ .warmup 0 with flc := { (at_ .warmup 0).flc with warmup := some 20 } }
    s.flc.line = .warmup ∧ s.flc.warmup = some 20 := by decide

/-- Letter 17 with its head at SH, in a given head state of the part and with a number of buffers held. -/
def atSh (ready : Bool) (bufs : PerBuf BufRec) (early : Option Early) : State :=
  let s := with_ .run 2001310 [{ newEntry 17 2000030 with length0 := some 720, early := early }]
  { s with scu := { s.scu with
      heads := PerHead.fill { resetHead with state := if ready then .ready else .cold, lref := 800 }, bufs := bufs } }
def held' : BufRec := { freeBuf with phase := .waiting, letter := some 3 }
theorem witness_sh :
    let s := atSh true ⟨held', held', freeBuf⟩ none
    running s = true ∧ s.entry? 17 = some { newEntry 17 2000030 with length0 := some 720 } ∧
    reached s.trk.belt (at' 2000030 (s.pfs.profile.dist .sh : Nat)) = true ∧ (s.scu.bufs.get .b2).phase = .free ∧
    (s.scu.bufs.get .b0).phase ≠ .free ∧ (s.scu.bufs.get .b1).phase ≠ .free ∧
    (s.scu.heads.get .ft).state = .ready ∧ s.pfs.profile.lnom ≤ (s.scu.heads.get .ft).lref * 2 := by decide
theorem witness_sh_early :
    (((atSh true ⟨held', held', freeBuf⟩ (some .gap)).entry? 17).map (·.early.isSome)) = some true := by decide
theorem witness_sh_refused :
    (∀ b, ((atSh true ⟨held', held', held'⟩ none).scu.bufs.get b).phase ≠ .free) ∧
    (∀ h, ((atSh false ⟨freeBuf, freeBuf, freeBuf⟩ none).scu.heads.get h).state ≠ .ready) :=
  ⟨fun b => by cases b <;> decide, fun h => by cases h <;> decide⟩

/-- Letter 17 being scanned, its cell 0 due at 2 001 314: FT idle, FB behind a pulse, BT not usable, BB failed. -/
def pulsing : State :=
  let s := with_ .run 2001314 [{ newEntry 17 2000030 with
    length0 := some 720, scan := .scanning, latched := some { latched70 with n := 90, usable := ⟨true, true, false, true⟩ }, shTaken := true }]
  { s with scu := { s.scu with
      heads := ⟨{ resetHead with state := .ready }, { resetHead with state := .ready, out := some { what := .calibration, code := 8 } },
        resetHead, { resetHead with state := .failed }⟩
      bufs := s.scu.bufs.set .b0 { freeBuf with phase := .filling, letter := some 17 } } }
theorem witness_scanPulse :
    running pulsing = true ∧ (pulsing.entry? 17).map (·.scan) = some .scanning ∧
    ((pulsing.entry? 17).bind (·.latched)) = some { latched70 with n := 90, usable := ⟨true, true, false, true⟩ } ∧
    (pulsing.scu.bufs.get .b0).phase = .filling ∧ (pulsing.scu.bufs.get .b0).letter = some 17 ∧
    (pulsing.scu.bufs.get .b1).phase ≠ .filling ∧ (pulsing.scu.bufs.get .b2).phase ≠ .filling ∧ (pulsing.scu.bufs.get .b0).next < 90 ∧
    reached pulsing.trk.belt (at' 2000030 (pulsing.pfs.profile.dist .sh + 8 * (pulsing.scu.bufs.get .b0).next + 4 : Nat)) = true ∧
    ∀ h, (pulsing.scu.heads.get h).waiting = [] :=
  ⟨by decide, by decide, by decide, by decide, by decide, by decide, by decide, by decide, by decide, fun h => by cases h <;> rfl⟩
/-- A pulse of letter 17 for cell 0, due at 2 001 314 (R48). -/
def pulse17 : Pulse := { letter := 17, buf := .b0, cell := 0, pos := 2001314 }
/-- FT idle with the pulse delayed on its link, the belt at a position. -/
def delayed17 (belt : Pos) : State :=
  let s := updBuf .b0 (fun b => { b with next := 1 }) (updHead .ft (fun r => { r with waiting := [pulse17] }) pulsing)
  { s with trk := { s.trk with belt := belt } }
theorem witness_delayedPulse :
    running (delayed17 2001314) = true ∧ ((delayed17 2001314).entry? 17).isSome = true ∧
    DelayedReached 17 (delayed17 2001314) ((delayed17 2001314).scu.heads.get .ft) ∧
    ¬ DelayedReached 17 (delayed17 2001314) ((delayed17 2001314).scu.heads.get .fb) ∧
    ¬ DelayedReached 17 (delayed17 2001313) ((delayed17 2001313).scu.heads.get .ft) := by
  refine ⟨by decide, by decide, ⟨rfl, _, _, rfl, by decide, by decide⟩, ?_, ?_⟩
  · rintro ⟨h, _⟩; cases h
  rintro ⟨_, p, rest, h, _, g⟩
  cases h
  exact absurd g (by decide)
/-- R48: the delayed pulse goes out when its position is reached again, and not a count before. -/
theorem test_delayed_pulse :
    after (exec (.scanPulse 17) (delayed17 2001314))
      (fun t => decide ((t.scu.heads.get .ft).out = some { what := .scan pulse17, code := 8 } ∧ (t.scu.heads.get .ft).waiting = [])) = true ∧
    after (exec (.scanPulse 17) (delayed17 2001313)) (fun t => decide ((t.scu.heads.get .ft).out = none)) = true := by decide
/-- R48: an answer sends the next pulse where its position is reached, and leaves it waiting where the belt has run back from it. -/
theorem test_answer_delays :
    let s := fun belt => updHead .ft (fun r => { r with out := some { what := .calibration, code := 8 } }) (delayed17 belt)
    after (exec (.headAnswer .ft (sampleWord 0 612 0)) (s 2001314))
      (fun t => decide ((t.scu.heads.get .ft).waiting = [] ∧ (t.scu.heads.get .ft).out.isSome = true)) = true ∧
    after (exec (.headAnswer .ft (sampleWord 0 612 0)) (s 2001313))
      (fun t => decide ((t.scu.heads.get .ft).waiting = [pulse17] ∧ (t.scu.heads.get .ft).out = none)) = true := by decide
theorem witness_scanPulse_heads :
    (pulsing.scu.heads.get .ft).out = none ∧ (pulsing.scu.heads.get .fb).out ≠ none ∧ (pulsing.scu.heads.get .bb).state = .failed := by
  decide

/-- Net values that saturate, reach the limit, and stay below it; candidates of each kind, on and off a corner. -/
theorem witness_markChosen :
    (1023 : Nat) = 1023 ∧ 1023 < 1010 * 800 / 700 ∧ 32 * 800 / 640 ≤ 1023 ∧
    (orientOf .ft .lead).isSome = true ∧ (orientOf .ft .trail).isSome = false ∧ 5200 * 12 ≤ 3900 * 16 ∧ 3899 * 16 < 5200 * 12 := by decide

/-- Letter 62 in the computing slot, with work behind it and a capture armed. -/
def computing (work : List WorkItem) (capture : Capture) : State :=
  let s := with_ .run 6005000 [{ newEntry 62 6004400 with length0 := some 560, scan := .computing, latched := some latched70 },
    { newEntry 63 6005000 with length0 := some 560, scan := .waiting, latched := some latched70 }]
  { s with
    scu := { s.scu with bufs := s.scu.bufs.set .b0 { freeBuf with phase := .computing, letter := some 62 } }
    mkf := { work := work, slot := some { buf := .b0, letter := 62, time := 0, params := some latched70 }, capture := capture } }
set_option maxRecDepth 20000 in
theorem witness_resultDelivery :
    let s := computing [] (.armed none)
    s.mkf.slot = some { buf := .b0, letter := 62, time := 0, params := some latched70 } ∧ (s.entry? 62).map (·.scan) = some .computing ∧
    s.mkf.work = [] ∧ s.mkf.capture = .armed none := by decide
set_option maxRecDepth 20000 in
theorem witness_resultDelivery_next :
    let s := computing [{ buf := .b1, letter := 63, time := 0 }] .off
    s.mkf.work = { buf := .b1, letter := 63, time := 0 } :: [] ∧ (63 : LetterNo) ≠ 62 ∧ Buf.b1 ≠ .b0 ∧ (s.entry? 63).isSome = true ∧
    s.mkf.capture = .off := by decide

/-! ### Witnesses: paths, gates, cancellers -/

theorem witness_decision :
    (stamped 1 0 560).early = none ∧ (stamped 1 0 560).scan = .done ∧ (stamped 1 0 560).result = some (result .phosphor (some .o0) 2) ∧
    layout.twist.isSome = true ∧ Profile.factory.twist = none ∧ layout.brightPolicy = .manual := by decide
theorem witness_decision_merge :
    let s := { at_ .run 0 with ptc := { (at_ .run 0).ptc with merge := some { letter := 9, tail := 5600 } } }
    (∀ m, s.ptc.merge = some m → (layout.minMergeGap : Int) ≤ ((160 : Pos) + BitVec.ofNat 32 (layout.dist .mp) - m.tail).toInt) ∧
    ¬ (∀ m, s.ptc.merge = some m → (layout.minMergeGap : Int) ≤ ((159 : Pos) + BitVec.ofNat 32 (layout.dist .mp) - m.tail).toInt) := by
  refine ⟨fun m h => ?_, fun h => ?_⟩
  · cases h; decide
  · exact absurd (h _ rfl) (by decide)

/-- Letter 51 with its head at DP. -/
def atDp : State := with_ .run 5002800 [scanned 51 5000000 800 (result .phosphor (some .o3) 3)]
theorem witness_dp :
    running atDp = true ∧ atDp.entry? 51 = some (scanned 51 5000000 800 (result .phosphor (some .o3) 3)) ∧
    decidable (scanned 51 5000000 800 (result .phosphor (some .o3) 3)) = true ∧
    reached atDp.trk.belt (at' 5000000 (atDp.pfs.profile.dist .dp : Nat)) = true ∧
    (∀ g, (atDp.ptc.gates.get g).queue.length < 8) ∧
    reached atDp.trk.belt (at' 5000000 (armOffset atDp { stamped 51 5000000 800 with path := some .twist } .a)) = false ∧
    reached atDp.trk.belt (at' 5000000 (fireOffset atDp { stamped 51 5000000 800 with path := some .twist } .a job)) = false :=
  ⟨by decide, by decide, by decide, by decide, fun g => by cases g <;> decide, by decide, by decide⟩
theorem witness_cancelJobs :
    (scanned 53 0 720 (result .phosphor (some .o2) 70)).result = some (result .phosphor (some .o2) 70) ∧
    (scanned 53 0 720 (result .phosphor (some .o2) 70)).latched = some { latched70 with w := 12, n := 90 } ∧
    (result .meter (some .o0) 3).cls ≠ .phosphor ∧ (result .meter (some .o0) 3).cls ≠ .bright := by decide

/-- Gate G1 with letter 51 as its user and letter 52 queued, or settling. -/
def gated (l : LineState) (settle : Option Pos) : State :=
  updGate .g1 (fun r => { r with user := some { letter := 51, dist := 3888 }, queue := [(52, .twist)], settle := settle })
    (with_ l 5003888 [{ stamped 51 5000000 800 with job := none }, stamped 52 5001100 640])
theorem witness_gates :
    running (gated .run none) = true ∧ ((gated .run none).ptc.gates.get .g1).user = some { letter := 51, dist := 3888 } ∧
    (gated .run none).entry? 51 = some { stamped 51 5000000 800 with job := none } ∧
    reached (gated .run none).trk.belt (at' 5000000 (3888 : Nat)) = true ∧
    ((gated .run (some 5003888)).ptc.gates.get .g1).settle = some 5003888 ∧
    reached (gated .run (some 5003888)).trk.belt 5003888 = true ∧ running (gated .standby none) = false := by decide

/-- Letter 61 at its arm point, canceller A in a state. -/
def atArm (st : CancState) (deferred : Option LetterNo) : State :=
  canc .a (fun r => { r with state := st, deferred := deferred, armDist := 800 }) (with_ .run 6006800 [stamped 61 6000000 800])
theorem witness_armPoint :
    CancelHeld (atArm .ready none) ∧ running (atArm .ready none) = true ∧ (atArm .ready none).entry? 61 = some (stamped 61 6000000 800) ∧
    (stamped 61 6000000 800).job = some job ∧ job.outcome = .pending ∧ job.armTaken = false ∧
    reached (atArm .ready none).trk.belt (at' 6000000 (armOffset (atArm .ready none) (stamped 61 6000000 800) .a)) = true :=
  ⟨by unfold CancelHeld; decide, by decide, by decide, by decide, by decide, by decide, by decide⟩
theorem witness_armPoint_states :
    ((atArm .ready none).can.recs.get .a).state = .ready ∧ ((atArm .arming none).can.recs.get .a).deferred = none ∧
    ((atArm .printing (some 60)).can.recs.get .a).deferred ≠ none ∧ ((atArm .fault none).can.recs.get .a).state = .fault := by decide

/-- Letter 61 at its fire point, canceller A in a state with a held and a deferred letter. -/
def atFire (st : CancState) (held deferred : Option LetterNo) : State :=
  canc .a (fun r => { r with state := st, held := held, deferred := deferred })
    (with_ .run 6007600 [{ stamped 61 6000000 800 with job := some { job with armTaken := true } }, stamped 62 6001040 560])
theorem witness_firePoint :
    let s := atFire .armed (some 61) none
    CancelHeld s ∧ running s = true ∧ s.entry? 61 = some { stamped 61 6000000 800 with job := some { job with armTaken := true } } ∧
    (s.can.recs.get .a).held = some 61 ∧ (s.can.recs.get .a).state = .armed ∧
    reached s.trk.belt (at' 6000000 (fireOffset s (stamped 61 6000000 800) .a job)) = true :=
  ⟨by unfold CancelHeld; decide, by decide, by decide, by decide, by decide, by decide⟩
theorem witness_firePoint_states :
    ((atFire .arming (some 61) none).can.recs.get .a).deferred = none ∧
    ((atFire .arming (some 61) (some 62)).can.recs.get .a).deferred = some 62 ∧
    ((atFire .arming (some 61) (some 62)).entry? 62).bind (·.job) = some job ∧
    ((atFire .printing (some 60) (some 61)).can.recs.get .a).held ≠ some 61 ∧
    ((atFire .printing (some 60) none).can.recs.get .a).deferred ≠ some 61 := by decide

/-- Canceller A in a state, holding letter 61, its module in a band. -/
def cancA (st : CancState) (held : Option LetterNo) (band : Band) (run : Nat) : State :=
  canc .a (fun r => { r with
      state := st, held := held, band := band, parityRun := run
      primeTimer := if st = .priming then some 0 else none
      replyTimer := if st = .arming then some 0 else none })
    (with_ .run 6008479 [stamped 61 6000000 800])
theorem witness_moduleFrames :
    ((cancA .priming none .warm 0).can.recs.get .a).state = .priming ∧ ((cancA .priming none .warm 0).can.recs.get .a).band ≠ .over ∧
    ((cancA .priming none .over 0).can.recs.get .a).band = .over ∧ ((cancA .arming (some 61) .warm 0).can.recs.get .a).held = some 61 ∧
    ((cancA .printing (some 61) .over 0).can.recs.get .a).deferred = none ∧ ((cancA .off none .warm 0).can.recs.get .a).state = .off := by
  decide
theorem witness_parity :
    2 ≤ ((cancA .arming (some 61) .warm 2).can.recs.get .a).parityRun ∧ ((cancA .arming (some 61) .warm 1).can.recs.get .a).parityRun < 2 ∧
    (cancA .arming (some 61) .warm 1).pfs.profile.persistParity = false := by decide
theorem witness_cancellerFaults :
    ((cancA .priming none .warm 0).can.recs.get .a).primeTimer = some 0 ∧
    ((cancA .arming (some 61) .warm 0).can.recs.get .a).replyTimer = some 0 ∧
    ((cancA .fault none .warm 0).can.recs.get .a).state = .fault ∧ running (cancA .printing (some 61) .warm 0) = true ∧
    (cancA .printing (some 61) .warm 0).entry? 61 = some (stamped 61 6000000 800) ∧
    reached (6008479 : Pos) (at' 6000000 (doneOffset (cancA .printing (some 61) .warm 0) (stamped 61 6000000 800) .a)) = true := by decide
theorem witness_moduleStatus :
    ((cancA .ready none .warm 0).can.recs.get .a).state = .ready ∧ ((cancA .armed (some 61) .warm 0).can.recs.get .a).held = some 61 ∧
    ((cancA .overheat none .over 0).can.recs.get .a).state = .overheat ∧
    ((cancA .overheat none .over 0).can.recs.get .a).deferred = none ∧ ((cancA .printing (some 61) .warm 0).can.recs.get .a).state ≠ .off ∧
    ((canc .a (fun r => { r with deferred := some 62 }) (cancA .ready none .warm 0)).can.recs.get .a).deferred = some 62 := by decide

/-! ### Witnesses: pockets and the line -/

/-- A letter at its select point, on stream A or on the reject line. -/
def atSelect (e : Entry) : State := with_ .run 7209200 [e]
theorem witness_select :
    let e := { stamped 303 7200000 560 with job := none }
    running (atSelect e) = true ∧ (atSelect e).entry? 303 = some e ∧ e.path ≠ none ∧ e.pocket = none ∧ e.stream = some .a ∧
    reached (atSelect e).trk.belt (at' e.anchor (selectOffset (atSelect e).pfs.profile e : Nat)) = true ∧
    (∀ g, ((atSelect e).ptc.gates.get g).queue.length < 8) :=
  ⟨by decide, by decide, by decide, by decide, by decide, by decide, fun g => by cases g <;> decide⟩
theorem witness_select_reject :
    let e := rejected 303 7200000 560
    (atSelect e).entry? 303 = some e ∧ e.path ≠ none ∧ e.pocket = none ∧ e.stream = none ∧
    reached (atSelect e).trk.belt (at' e.anchor (selectOffset (atSelect e).pfs.profile e : Nat)) = true := by decide
theorem witness_select_entries :
    stackOn .a = [.a1, .a2] ++ .a3 :: [.a4, .a5, .a6] ∧ (streamA.pfs.profile.stack.get .a5).fit = false ∧
    (streamA.pfs.profile.stack.get .a1).fit = true := by decide

/-- Letter 303 at its stacking position at A6. -/
def atStacking (l : LineState) : State := with_ l 7214260 [{ stamped 303 7200000 560 with pocket := some .a6 }]
theorem witness_stacking :
    let e := { stamped 303 7200000 560 with pocket := some .a6 }
    running (atStacking .drain) = true ∧ (atStacking .drain).entry? 303 = some e ∧ e.path ≠ none ∧ e.pocket = some .a6 ∧
    reached (atStacking .drain).trk.belt (at' e.anchor (stackOffset layout e .a6 : Nat)) = true ∧
    (atStacking .drain).trk.table.erase e = [] ∧ e.stream = some .a ∧ e.job = some job ∧ (atStacking .drain).scu.calDue = false ∧
    (rejected 1 0 560).stream ≠ some .a := by decide

/-- A pocket with a raw sensor level not yet qualified. -/
def sensing (q : Pocket) (st : PocketState) (raw : Paddle) : State :=
  updPocket q (fun r => { r with state := st, raw := raw, change := some 5 }) (at_ .run 0)
theorem witness_pocketSensor :
    ((at_ .run 0).pkc.recs.get .a1).raw ≠ .active ∧ ((sensing .a1 .open .active).pkc.recs.get .a1).change = some 5 ∧
    (sensing .a1 .open .active).pfs.profile.fitted .a1 = true ∧ isBin .ea = true ∧ running (sensing .ea .open .active) = true ∧
    ((sensing .ea .open .active).pkc.recs.get .ea).raw = .active ∧ ((sensing .ea .open .clear).pkc.recs.get .ea).raw = .clear ∧
    State.reset.pfs.profile.fitted .a1 = false ∧ ((sensing .a1 .sweep .active).pkc.recs.get .a1).state = .sweep := by decide

/-- Pocket A6 with its button pressed since a time, at 10 000 ms. -/
def pressed (st : PocketState) (committed t0 : Nat) : State :=
  { updPocket .a6 (fun r => { r with state := st, committed := committed, press := some t0 }) (at_ .run 0) with now := 10000 }
theorem witness_sweepButtons :
    ((at_ .run 0).pkc.recs.get .a6).press = none ∧ isBin .a6 = false ∧ ((pressed .open 1 9950).pkc.recs.get .a6).press = some 9950 ∧
    50 ≤ (pressed .open 1 9950).now - 9950 ∧ (pressed .open 1 9951).now - 9951 < 50 ∧ (pressed .open 1 8001).now - 8001 < 2000 ∧
    2000 ≤ (pressed .open 1 8000).now - 8000 ∧ (pressed .open 1 2000).now - 2000 ≤ 8000 ∧ 8000 < (pressed .open 1 1999).now - 1999 ∧
    (pressed .open 1 9950).pfs.profile.fitted .a6 = true ∧ ((pressed .sweep 0 9950).pkc.recs.get .a6).state = .sweep ∧
    ((pressed .sweepPending 1 9950).pkc.recs.get .a6).state = .sweepPending ∧ State.reset.pfs.profile.fitted .a6 = false ∧
    ((pressed .disabled 0 8000).pkc.recs.get .a6).state = .disabled := by decide
theorem witness_runUpComplete :
    let s := { runUp 192 with flc := { (runUp 192).flc with runUpQual := some 7 } }
    CancelHeld s ∧ s.flc.line = .starting ∧ s.flc.runUpQual = some 7 := ⟨by unfold CancelHeld; decide, by decide, by decide⟩
theorem witness_lineTimers :
    let s := { at_ .run 8090000 with flc := { (at_ .run 8090000).flc with countdown := some 8090000, horn := some 3 } }
    s.flc.countdown = some 8090000 ∧ reached s.trk.belt 8090000 = true ∧ s.pfs.profile.linkTimeout ≠ 0 ∧ s.llk.silent = false ∧
    s.flc.line = .run ∧ (at_ .standby 0).flc.line ≠ .run ∧ s.flc.horn = some 3 := by decide

/-! ### Witnesses: the line link -/

theorem idle (l : LineState) (p : Pos) : LinkIdle (at_ l p) := ⟨rfl, rfl, rfl, nofun⟩

/-- The receive line buffer holding a line. -/
def received (buf : Text) (overlong : Bool) : Rx :=
  { emptyRx with buf := buf, overlong := overlong, crNoted := true, crLast := true }
set_option maxRecDepth 20000 in
theorem witness_characters :
    (0x20 : Byte).toNat = 0x20 ∧ (0x7E : Byte).toNat ≤ 0x7E ∧ (0x1F : Byte).toNat < 0x20 ∧ (0x7F : Byte).toNat > 0x7E ∧
    (0x0D : Byte) ≠ 0x0A ∧ (List.replicate 199 (0x41 : Byte)).length < 200 ∧ 200 ≤ (List.replicate 200 (0x41 : Byte)).length ∧
    (received [] true).overlong = true ∧ (received (text "PING") false).buf ≠ [] ∧ emptyRx.buf = [] := by decide
set_option maxRecDepth 20000 in
theorem witness_lines :
    classify (received (lineBytes [text "PING"]).dropLast.dropLast false) = .request .ping ∧ classify (received [] true) = .long ∧
    classify (received (text "PING*00") false) = .badCheck ∧
    classify (received (lineBytes [text "PONG"]).dropLast.dropLast false) = .unknown (text "PONG") := by decide

/-- The transmitter sending a line. -/
def sending (l : TxLine) (s : State) : State := { s with llk := { s.llk with tx := some l } }
def pingReply : TxLine := .reply (.ok (text "PING") [])
theorem witness_nextLine :
    (sending pingReply (at_ .run 0)).llk.tx = some pingReply ∧ pingReply ≠ .reply (.ok (text "RESTART") []) ∧
    (∀ c, pingReply ≠ .capture c) ∧ (∀ r, pingReply ≠ .record r) ∧ (at_ .run 0).cnb.records = [] ∧
    (∀ d, (at_ .run 0).mkf.capture ≠ .draining d) :=
  ⟨by decide, by decide, fun _ h => (by cases h), fun _ h => (by cases h), by decide, fun _ h => (by cases h)⟩
theorem witness_nextLine_kinds :
    let s := at_ .run 0
    let r := recordOf (rejected 1 0 560) .cleared
    ({ s with llk := { s.llk with reports := [.reset] } } : State).llk.reports = .reset :: [] ∧ s.pfs.profile.eventRepeat ≠ 0 ∧
    ({ s with cnb := { s.cnb with records := List.replicate 33 r } } : State).cnb.records.length = 33 ∧
    ({ s with pfs := { s.pfs with profile := { layout with reportHold := true } } } : State).pfs.profile.reportHold = true ∧
    ({ s with llk := { s.llk with answers := [.answered (.ok (text "PING") []), .answered (.ok (text "STOP") [])] } } : State).llk.answers.tail =
      .answered (.ok (text "STOP") []) :: [] := by decide

/-- A capture of letter 17 with two lines to send, the first being sent. -/
def draining (lines : List CaptureKey) : State :=
  let s := at_ .run 0
  { sending (.capture { letter := 17, key := ⟨.ft, .gp, 0⟩, values := [] }) s with
    mkf := { s.mkf with capture := .draining { buf := .b0, letter := 17, cls := .phosphor, lines := lines } } }
theorem witness_captureSent :
    (draining [⟨.ft, .gp, 0⟩]).mkf.capture = .draining { buf := .b0, letter := 17, cls := .phosphor, lines := ⟨.ft, .gp, 0⟩ :: [] } ∧
    (draining [⟨.ft, .gp, 0⟩, ⟨.ft, .gp, 32⟩]).mkf.capture =
      .draining { buf := .b0, letter := 17, cls := .phosphor, lines := ⟨.ft, .gp, 0⟩ :: [⟨.ft, .gp, 32⟩] } ∧
    (draining []).llk.tx = some (.capture { letter := 17, key := ⟨.ft, .gp, 0⟩, values := [] }) := by decide
theorem witness_repeat :
    let s := { at_ .run 0 with llk := { (at_ .run 0).llk with
      flags := (at_ .run 0).llk.flags.upd .endBin fun f => { f with set := true, repeating := some 4 } } }
    let t := updPocket .ea (fun r => { r with sensor := .active }) s
    t.pfs.profile.eventRepeat ≠ 0 ∧ (t.llk.flags.get .endBin).repeating = some 4 ∧ condition t .endBin = true ∧
    Kind.endBin ∉ t.llk.reports ∧ t.llk.tx = none ∧ t.llk.answers = [] ∧ condition s .endBin = false := by decide
theorem witness_saveWriteEnd :
    let s := { saving with llk := { saving.llk with answers := [.inProgress] } }
    s.pfs.saving = some layout ∧ s.llk.answers = [.inProgress] ∧ s.llk.restarting = false ∧ s.llk.tx = none ∧ s.llk.opening = .done := by
  decide

/-! ### Witnesses: requests -/

theorem witness_refused :
    (perform .start (at_ .run 0)).2 = .answered (.deny (text "START") .wrongState none) ∧
    (perform (.count 7) (at_ .run 0)).2 = .answered (.deny (text "COUNT") .range none) := by decide
theorem witness_reading :
    LinkIdle (at_ .run 0) ∧ readParam (text "LNOM") = some .lnom ∧ readParam (text "FIT") = none ∧ State.reset.flc.line = .powerup ∧
    (at_ .run 0).flc.line ≠ .powerup := ⟨idle _ _, by decide, by decide, by decide, by decide⟩

/-- A part ready for START, with changes. -/
def ready (f : State → State) : State :=
  let s := at_ .standby 0
  f { s with
    can := { s.can with dater := some ⟨text "LEEDS", 1, 2, 2024, 9, 1, 3⟩ }
    scu := { s.scu with heads := PerHead.fill { resetHead with state := .ready, lref := 800 } } }
theorem witness_start :
    let s := ready id
    LinkIdle s ∧ s.flc.line = .standby ∧ s.flc.estop = false ∧ s.pfs.profile.failing = none ∧ s.can.dater ≠ none ∧
    (∀ h, (s.scu.heads.get h).state = .ready) ∧ s.flc.faultCount < s.pfs.profile.faultLimit ∧
    (∀ q, (q = .ea ∨ q = .eb ∨ q = .er) → (s.pkc.recs.get q).sensor = .clear) :=
  ⟨⟨rfl, rfl, rfl, by decide⟩, by decide, by decide, by decide, by decide, fun h => by cases h <;> decide, by decide,
    fun q h => by rcases h with rfl | rfl | rfl <;> decide⟩
theorem witness_start_refused :
    (at_ .run 0).flc.line ≠ .standby ∧
    (ready fun s => { s with flc := { s.flc with estop := true } }).flc.estop = true ∧
    (ready fun s => { s with pfs := { s.pfs with profile := { layout with w := 24, z := 23 } } }).pfs.profile.failing = some .window ∧
    (at_ .standby 0).can.dater = none ∧
    (ready fun s => { s with pfs := { s.pfs with profile := { layout with degradePolicy := .drain } } }).pfs.profile.degradePolicy = .drain ∧
    [Head.ft, .fb, .bt, .bb] = [.ft, .fb, .bt] ++ .bb :: [] ∧
    ((ready (updHead .bb fun r => { r with state := .weak })).scu.heads.get .bb).state ≠ .ready ∧
    ((ready (updHead .bb fun r => { r with state := .weak })).scu.heads.get .bt).state = .ready ∧
    layout.faultLimit ≤ (ready fun s => { s with flc := { s.flc with faultCount := 3 } }).flc.faultCount ∧
    [Pocket.ea, .eb, .er] = [.ea, .eb] ++ .er :: [] ∧
    ((ready (updPocket .er fun r => { r with sensor := .active })).pkc.recs.get .er).sensor = .active := by decide
theorem witness_stopHold :
    LinkIdle (at_ .starting 0) ∧ (at_ .run 0).flc.line = .run ∧ (at_ .drain 0).flc.line = .drain ∧ (at_ .fault 0).flc.line = .fault ∧
    (with_ .run 0 [newEntry 1 0]).trk.table ≠ [] ∧ (at_ .run 0).trk.table = [] :=
  ⟨idle _ _, by decide, by decide, by decide, by decide, by decide⟩
theorem witness_clear :
    LinkIdle (at_ .fault 0) ∧ (at_ .standby 0).flc.line = .standby ∧ (at_ .run 0).flc.line ≠ .fault ∧ (at_ .fault 0).flc.line = .fault ∧
    (at_ .fault 0).flc.estop = false ∧ (∀ c, ((at_ .fault 0).pcm.cells.get c).qual = .clear) ∧
    [Photocell.pe0, .pe1, .pe2, .pe3a, .pe3b, .pe4r] = [.pe0, .pe1, .pe2] ++ .pe3a :: [.pe3b, .pe4r] ∧
    ((raw .pe3a .clear 0 (at_ .fault 0)).pcm.cells.get .pe3a).qual = .blocked ∧ (at_ .fault 0).scu.calDue = false :=
  ⟨idle _ _, by decide, by decide, by decide, by decide, fun c => by cases c <;> decide, by decide, by decide, by decide⟩
theorem witness_set :
    LinkIdle (at_ .standby 0) ∧ readParam (text "LNOM") = some .lnom ∧ restricted .lnom = false ∧
    readValue .lnom (text "760") = .store (.num 760) false ∧ readValue .lnom (text "961") = .store (.num 960) true ∧
    committedTo (at_ .standby 0) .lnom = false ∧ readParam (text "A1_FIT") = some (.fit .a1) ∧
    readValue (.fit .a1) (text "YES") = .store (.choice 1) false ∧ layout.geometrySet = true ∧
    readValue .eventRepeat (text "0") = .store (.num 0) false ∧ readParam (text "CANCEL_POLICY") = some .cancelPolicy ∧
    readParam (text "REPORT_HOLD") = some .reportHold ∧ paramPocket (.cap .a1) = some .a1 :=
  ⟨idle _ _, by decide, by decide, by decide, by decide, by decide, by decide, by decide, by decide, by decide, by decide, by decide,
    by decide⟩
theorem witness_saveLoad :
    LinkIdle (at_ .standby 0) ∧ (at_ .warmup 0).flc.line = .warmup ∧ (at_ .run 0).flc.line ≠ .warmup ∧ (at_ .run 0).flc.line ≠ .standby ∧
    ImagePasses (powerup 1 0).pfs.image ∧ (powerup 0 0).pfs.image.format ≠ 1 ∧ ¬ ImagePasses (powerup 1 1).pfs.image :=
  ⟨idle _ _, by decide, by decide, by decide, ⟨rfl, by simp [powerup]⟩, by decide, by simp [powerup]⟩
theorem witness_daterSnapshot :
    daterGood ⟨text "LEEDS", 29, 2, 2024, 23, 99, 7⟩ = true ∧ daterGood ⟨text "LEEDS", 29, 2, 2023, 23, 99, 7⟩ = false ∧
    (at_ .standby 0).trk.table = [] ∧ (at_ .warmup 0).flc.line = .warmup ∧ (with_ .drain 0 [newEntry 1 0]).trk.table ≠ [] ∧
    (at_ .run 0).flc.line ≠ .warmup := by decide
theorem witness_pocketRequests :
    LinkIdle (pressed .open 0 1) ∧ isBin .a6 = false ∧ (pressed .open 0 1).pfs.profile.fitted .a6 = true ∧
    ((pressed .sweepPending 1 1).pkc.recs.get .a6).committed ≠ 0 ∧ ((pressed .open 0 1).pkc.recs.get .a6).committed = 0 ∧
    State.reset.pfs.profile.fitted .a6 = false ∧ isBin .er = true := ⟨⟨rfl, rfl, rfl, by decide⟩, by decide, by decide, by decide, by decide, by decide, by decide⟩
theorem witness_flags :
    let f := (at_ .run 0).llk.flags.upd .endBin fun f => { f with masked := true }
    LinkIdle (at_ .run 0) ∧ (f.get .endBin).masked = true ∧ Kind.endBin ∉ [Kind.reset] ∧ (f.get .reset).set = true :=
  ⟨idle _ _, by decide, by decide, by decide⟩
theorem witness_revival :
    let s := updHead .ft (fun r => { r with state := .failed }) (at_ .standby 0)
    LinkIdle s ∧ (s.scu.heads.get .ft).state = .failed ∧ (s.scu.heads.get .fb).state ≠ .failed ∧ stationFree s = true ∧
    stationFree (inStation false 0) = false ∧ ((cancA .fault none .warm 0).can.recs.get .a).state = .fault ∧
    ((cancA .ready none .warm 0).can.recs.get .a).state ≠ .fault :=
  ⟨⟨rfl, rfl, rfl, by decide⟩, by decide, by decide, by decide, by decide, by decide, by decide⟩
theorem witness_captureRestart :
    LinkIdle (at_ .run 0) ∧ (at_ .run 0).mkf.capture = .off ∧ (computing [] (.armed none)).mkf.capture ≠ .off ∧
    (draining []).mkf.capture = .draining { buf := .b0, letter := 17, cls := .phosphor, lines := [] } ∧ running (at_ .fault 0) = false ∧
    running (at_ .run 0) = true := ⟨idle _ _, by decide, by decide, by decide, by decide, by decide⟩

/-! ### Witnesses: order of letters, holds, resets -/

theorem witness_lettersInOrder : InOrder busy ∧ NumbersYoung busy := ⟨⟨by decide, by decide⟩, by unfold NumbersYoung; decide⟩
theorem witness_stoppedInFault :
    StoppedInFault { canc .a (fun r => { r with state := .fault, cause := some .timeout }) (at_ .fault 0) with now := 7 } :=
  fun _ c => by cases c <;> decide

/-- RUN under CANCEL_POLICY HOLD with canceller A READY, B in FAULT: CANCEL is present. -/
def cancelHeld : State :=
  let s := canc .b (fun r => { r with state := .fault, cause := some .timeout }) (canc .a (fun r => { r with state := .ready }) (at_ .run 0))
  { s with flc := { s.flc with holds := { s.flc.holds with cancel := true } }
           pfs := { s.pfs with profile := { layout with cancelPolicy := .hold } } }
theorem witness_cancelHeld : CancelHeld cancelHeld ∧ cancelHeld.flc.holds.any = true := ⟨by unfold CancelHeld; decide, by decide⟩
theorem witness_holdEvents :
    ¬ Resets (.hold none) (at_ .run 0) ∧ ((at_ .drain 0).flc.line = .drain ∧ (at_ .drain 0).flc.holds.cancel = false) ∧
    classify (at_ .run 0).llk.rx ≠ .request .zero ∧ .waiting .zero ∉ (at_ .run 0).llk.answers ∧ Resets .powerOnReset (at_ .run 0) ∧
    after (exec (.hold none) (at_ .run 0)) (fun t => t.flc.holds.any && (t.llk.flags.get .feedHold).set) = true :=
  ⟨by unfold Resets; decide, by decide, by decide, by decide, .inl rfl, by decide⟩
theorem witness_holdRepeats :
    let s := sending pingReply (at_ .run 0)
    let t := { s with
      flc := { s.flc with holds := { s.flc.holds with line := true } }
      llk := { s.llk with flags := s.llk.flags.upd .feedHold fun f => { f with set := true, repeating := some 4 } } }
    t.pfs.profile.eventRepeat ≠ 0 ∧ t.llk.tx ≠ none ∧ (t.llk.flags.get .feedHold).repeating = some 4 ∧ t.flc.holds.any = true := by decide
theorem witness_profileLoad_timers :
    ({ powerup 1 0 with pfs := { (powerup 1 0).pfs with image :=
      { (powerup 1 0).pfs.image with contents := { layout with eventRepeat := 0 } } } } : State).pfs.image.contents.eventRepeat = 0 := by
  decide

/-! ### Witnesses: fault stops, heads and scans -/

/-- RUN with letter 61 held and letter 62 deferred at canceller A. -/
def armedPair (l : LineState) : State :=
  canc .a (fun r => { r with state := .armed, held := some 61, deferred := some 62 })
    (with_ l 6007600 [stamped 61 6000000 800, stamped 62 6001040 560])
theorem witness_faultStop_jobs :
    let s := armedPair .run
    running s = true ∧ s.flc.estop = false ∧ (s.can.recs.get .a).held = some 61 ∧ (s.can.recs.get .a).deferred = some 62 ∧
    (∀ d, (s.can.recs.get d).deferred ≠ some 61) ∧ (∀ d, d ≠ .a → (s.can.recs.get d).held ≠ some 61) ∧
    (∀ d, d ≠ .a → (s.can.recs.get d).held ≠ some 62 ∧ (s.can.recs.get d).deferred ≠ some 62) ∧
    s.entry? 61 = some (stamped 61 6000000 800) ∧ s.entry? 62 = some (stamped 62 6001040 560) :=
  ⟨by decide, by decide, by decide, by decide, fun d => by cases d <;> decide, fun d => by cases d <;> decide,
    fun d => by cases d <;> decide, by decide, by decide⟩
theorem witness_calibratedIfFree :
    let s := raw .pe1 .clear 5 { at_ .standby 10 with scu := { (at_ .standby 10).scu with calDue := true } }
    running s = false ∧ s.trk.measuring = none ∧ (s.pcm.cells.get .pe1).change = some { pos := 5, time := 0 } ∧ s.scu.calDue = true ∧
    s.flc.line ≠ .powerup ∧ s.flc.line ≠ .fault ∧
    after (exec (.photocellQualifyTime .pe1) s) (fun t => stationFree { t with scu := s.scu }) = true := by decide
theorem witness_tails_calibration :
    let s := tail 3003605
    let t := { s with
      trk := { s.trk with table := s.trk.table.map fun e => { e with inStation := false } }, scu := { s.scu with calDue := true } }
    t.scu.calDue = true ∧ t.flc.line ≠ .powerup ∧ t.flc.line ≠ .fault ∧
    after (exec (.photocellQualifyTravel .pe1) t) (fun u => stationFree { u with scu := t.scu }) = true := by decide
def pulseOf (n : LetterNo) (p : Pos) : Pulse := { letter := n, buf := .b0, cell := 0, pos := p }
theorem witness_movedPulse :
    ({ resetHead with out := some { what := .calibration, code := 8 }, waiting := [pulseOf 16 90, pulseOf 17 100] } : HeadRec).waiting.filter
      (fun p => decide (p.letter = 17)) = [pulseOf 17 100] := by decide

/-- The answer outstanding on FT as in `lastAnswer`, of another kind, or to a scan that has lost FT. -/
def otherAnswer (what : PulseFor) (lost : Option Nat) : State :=
  updBuf .b0 (fun b => { b with lost := b.lost.set .ft lost })
    (updHead .ft (fun r => { r with out := some { what := what, code := 8 } }) (lastAnswer resetMkf 1))
theorem witness_scanAnswer_other :
    ((otherAnswer .dropped none).scu.heads.get .ft).out = some { what := .dropped, code := 8 } ∧
    (((otherAnswer .dropped (some 0)).scu.bufs.get .b0).lost.get .ft).isSome = true ∧
    ((otherAnswer .dropped none).scu.bufs.get .b1).phase ≠ .filling ∧
    ((lastAnswer resetMkf 1).entry? 17).bind (·.latched) = some { latched70 with n := 1, usable := ⟨true, false, false, false⟩ } ∧
    (∀ l, ((lastAnswer resetMkf 2).entry? 17).bind (·.latched) = some l → l.n = 2) := by
  refine ⟨by decide, by decide, by decide, by decide, fun l h => ?_⟩
  have h' : some { latched70 with n := 2, usable := ⟨true, false, false, false⟩ } = some l := h
  cases h'; rfl
theorem witness_scanCompletes :
    let s := lastAnswer resetMkf 1
    let l := { latched70 with n := 1, usable := ⟨true, false, false, false⟩ }
    (s.entry? 17).bind (·.latched) = some l ∧ (s.scu.bufs.get .b0).phase = .filling ∧ ((s.scu.bufs.get .b0).cells.get .ft).length < l.n ∧
    s.mkf.slot = none ∧ s.pfs.profile.degradePolicy ≠ .drain ∧
    after (exec (.headAnswerTimeout .ft) s) (fun t => decide (t.mkf.slot.map (·.letter) = some 17)) = true ∧
    after (exec (.headAnswerTimeout .ft) (lastAnswer slotTaken 1)) (fun t => decide (t.mkf.work.map (·.letter) = [17])) = true := by decide
theorem witness_warmupLimit_heads :
    let s := { updHead .ft (fun r => { r with state := .ready }) (at_ .warmup 0) with
      flc := { (at_ .warmup 0).flc with warmup := some 20 } }
    s.trk.table = [] ∧ s.scu.calDue = false ∧ [Head.ft, .fb, .bt, .bb] = [.ft, .fb, .bt] ++ .bb :: [] ∧
    (s.scu.heads.get .bb).state = .cold ∧ (s.scu.heads.get .ft).state = .ready := by decide
theorem witness_calibrationDrains_empty :
    let s := calibrating .run .ready 1
    let t := { s with pfs := { s.pfs with profile := { layout with degradePolicy := .drain } } }
    t.trk.table = [] ∧ after (exec (.headAnswer .ft (sampleWord 0 399 0)) t) (fun u => decide (u.flc.line = .standby)) = true := by decide
theorem witness_lostHead_noPulse :
    let s := updBuf .b0 (fun b => { b with lost := b.lost.set .ft (some 3), next := 3 }) pulsing
    ((s.scu.bufs.get .b0).lost.get .ft) ≠ none ∧ (s.scu.heads.get .ft).state = .ready := by decide
theorem witness_candidates :
    (window 4 0 (List.replicate 70 { gp := 0, ga := 0, rp := 0 })).sGp = 0 ∧ (cand .phosphor .ft .lead 300 16).win.start + 4 ≤ latched70.z ∧ 70 ≤ 50 + latched70.z ∧
    (cand .meter .ft .trail 1 0).zone = .trail := by decide
theorem witness_resultDelivery_gone :
    ({ computing [] .off with trk := { (computing [] .off).trk with table := [] } } : State).entry? 62 = none ∧
    ({ computing [] .off with mkf := { (computing [] .off).mkf with
      slot := some { buf := .b0, letter := 62, time := 0, params := none } } } : State).mkf.slot.map (·.params) = some none := by decide

/-! ### Witnesses: gates and cancellers off their usual course -/

/-- A gate with 8 entries in its queue. -/
def fullGate (g : Gate) (s : State) : State :=
  updGate g (fun r => { r with user := some { letter := 40, dist := 3888 }, queue := List.replicate 8 (41, .straight) }) s
theorem witness_dp_full :
    CancelHeld (fullGate .g1 atDp) ∧ 8 ≤ ((fullGate .g1 atDp).ptc.gates.get .g1).queue.length ∧
    8 ≤ ((fullGate .g2 atDp).ptc.gates.get .g2).queue.length ∧ ¬ 8 ≤ ((fullGate .g2 atDp).ptc.gates.get .g1).queue.length ∧
    (finalDecision atDp (scanned 51 5000000 800 (result .phosphor (some .o3) 3))).path ≠ .reject :=
  ⟨by unfold CancelHeld; decide, by decide, by decide, by decide, by decide⟩

/-- Letter 51 with its head at DP, canceller A READY with an arm distance, on a layout whose canceller stands `d` counts behind. -/
def nearDp (ca arm : Nat) : State :=
  let s := canc .a (fun r => { r with state := .ready, armDist := arm }) atDp
  { s with pfs := { s.pfs with profile := { layout with stations := { layout.stations with ca := some ca } } } }
theorem witness_dp_points :
    let e := { scanned 51 5000000 800 (result .phosphor (some .o3) 3) with path := some .twist, stream := some .a, job := some job }
    let armed := fun s => reached (5002800 : Pos) (at' 5000000 (armOffset s e .a))
    let fired := fun s => reached (5002800 : Pos) (at' 5000000 (fireOffset s e .a job))
    armed (nearDp 7600 7200) = true ∧ fired (nearDp 7600 7200) = false ∧ armed (nearDp 400 0) = true ∧ fired (nearDp 400 0) = true ∧
    armed (nearDp 7600 7199) = false := by decide
theorem witness_select_full :
    let e := { stamped 303 7200000 560 with job := none }
    let s := fullGate .a4 (atSelect e)
    running s = true ∧ s.entry? 303 = some e ∧ 8 ≤ (s.ptc.gates.get .a4).queue.length ∧
    ¬ 8 ≤ (s.ptc.gates.get .a5).queue.length := by decide

/-- Canceller A printing or arming letter 61 with letter 62 deferred. -/
def deferredAt (st : CancState) : State :=
  canc .a (fun r => { r with
      state := st, held := some 61, deferred := some 62, replyTimer := if st = .arming then some 0 else none })
    (with_ .run 6008010 [stamped 61 6000000 800, stamped 62 6001040 560])
theorem witness_deferredArm :
    ((deferredAt .printing).can.recs.get .a).deferred = some 62 ∧ ((deferredAt .printing).can.recs.get .a).held ≠ some 62 ∧
    (deferredAt .printing).entry? 62 = some (stamped 62 6001040 560) ∧ (stamped 62 6001040 560).job = some job ∧
    ((deferredAt .arming).can.recs.get .a).state = .arming ∧ ((deferredAt .arming).can.recs.get .a).deferred ≠ some 61 ∧
    (deferredAt .arming).pfs.profile.persistParity = false := by decide

/-! ### Witnesses: stacking, clearing, the link off rest -/

theorem witness_stacking_sound :
    CancelHeld (atStacking .drain) ∧ (∀ c, CancellerSound ((atStacking .drain).can.recs.get c)) ∧ CancelHeld (atStacking .run) :=
  ⟨by unfold CancelHeld; decide, fun c => by cases c <;> exact ⟨by decide, by decide, by decide, by decide, by decide, by decide⟩,
    by unfold CancelHeld; decide⟩
set_option maxRecDepth 20000 in
theorem witness_stacking_records :
    let r := recordOf (rejected 1 0 560) .cleared
    let s := fun n => { atStacking .run with
      cnb := { (atStacking .run).cnb with records := List.replicate n r }
      pfs := { (atStacking .run).pfs with profile := { layout with reportHold := true, releaseAt := 0 } } }
    (s 79).pfs.profile.records = true ∧ (s 79).cnb.records.length = 79 ∧ 96 ≤ (s 96).cnb.records.length ∧
    (s 95).cnb.records.length < 96 ∧ (s 79).trk.table.length = (s 79).pfs.profile.releaseAt + 1 := by decide
/-- Letter 303 stacked while canceller A holds it, and while letter 304 is deferred there. -/
def stackedHeld (deferred : Option LetterNo) : State :=
  canc .a (fun r => { r with state := .printing, held := some 303, deferred := deferred })
    (with_ .run 7214260 [{ stamped 303 7200000 560 with pocket := some .a6 }, stamped 304 7201000 560])
theorem witness_stacking_held :
    (∀ c, CancellerSound ((stackedHeld (some 304)).can.recs.get c)) ∧ ((stackedHeld none).can.recs.get .a).held = some 303 ∧
    ((stackedHeld (some 304)).can.recs.get .a).deferred = some 304 ∧ (∀ d, d ≠ .a → ((stackedHeld none).can.recs.get d).held ≠ some 303) ∧
    (stackedHeld (some 304)).entry? 304 = some (stamped 304 7201000 560) :=
  ⟨fun c => by cases c <;> exact ⟨by decide, by decide, by decide, by decide, by decide, by decide⟩, by decide, by decide,
    fun d => by cases d <;> decide, by decide⟩
theorem witness_clear_sound :
    PocketsHeld (at_ .fault 0) ∧ (∀ c, CancellerSound ((at_ .fault 0).can.recs.get c)) ∧ StoppedInFault (at_ .fault 0) := by
  refine ⟨⟨by decide, fun _ => ⟨fun c => ?_, by decide⟩⟩,
    fun c => by cases c <;> exact ⟨by decide, by decide, by decide, by decide, by decide, by decide⟩, fun _ c => by cases c <;> decide⟩
  rcases c with ⟨st, k⟩ | _ | _
  · cases st <;> cases k <;> decide
  · decide
  · decide

/-- A link with answer items, at work. -/
def answering (items : List Item) (restarting : Bool) : State :=
  let s := sending pingReply (at_ .standby 0)
  { s with llk := { s.llk with answers := items, restarting := restarting } }
def pong : Item := .answered (.ok (text "PING") [])
theorem witness_requestsOffRest :
    requestOf .ping = some .ping ∧ (answering [] true).llk.restarting = true ∧ 8 ≤ (answering (List.replicate 8 pong) false).llk.answers.length ∧
    (answering (List.replicate 7 pong) false).llk.answers.length < 8 ∧
    4 ≤ waitingCount (answering (.inProgress :: List.replicate 4 (.waiting .ping)) false).llk.answers ∧
    waitingCount (answering (.inProgress :: List.replicate 3 (.waiting .ping)) false).llk.answers < 4 ∧
    Item.inProgress ∈ (answering (.inProgress :: List.replicate 3 (.waiting .ping)) false).llk.answers ∧
    firstTakeable (answering (.inProgress :: List.replicate 3 (.waiting .ping)) false).llk.answers = none := by decide
set_option maxRecDepth 20000 in
theorem witness_malformed :
    classify (received (lineBytes [text "HOLD", text "X"]).dropLast.dropLast false) = .request (.malformed (text "HOLD")) ∧
    requestOf (.hold (some 2000)) = some (.hold (some 2000)) := by decide
set_option maxRecDepth 20000 in
theorem witness_requestLine :
    let body := text "HOLD 20"
    body ++ [0x2A] ++ hexDigits 2 (crc8 body).toNat = (received (lineBytes [text "HOLD", text "20"]).dropLast.dropLast false).buf ∧
    splitAt 0x20 body = verbName .hold :: [text "20"] ∧ readArgs .hold [text "20"] = some (.hold (some 2000)) := by decide
theorem witness_saveWriteEnd_waiting :
    let s := { saving with llk := { saving.llk with answers := [.inProgress, .waiting .ping] } }
    s.pfs.saving = some layout ∧ s.llk.answers = [.inProgress, .waiting .ping] ∧ s.llk.restarting = false ∧ s.llk.tx = none ∧
    s.llk.opening = .done := by decide
theorem witness_repeat_off :
    let s := { at_ .run 0 with llk := { (at_ .run 0).llk with
      flags := (at_ .run 0).llk.flags.upd .endBin fun f => { f with set := true, repeating := some 4 } } }
    ({ s with pfs := { s.pfs with profile := { layout with eventRepeat := 0 } } } : State).pfs.profile.eventRepeat = 0 := by decide
theorem witness_captureDone :
    (draining [⟨.ft, .gp, 0⟩]).llk.answers = [] ∧ (draining [⟨.ft, .gp, 0⟩]).llk.reports = [] ∧
    ((draining [⟨.ft, .gp, 0⟩]).llk.flags.get .captureDone).masked = false := by decide
theorem witness_startChecks :
    layout.failing = none ∧ layout.passes .window = true ∧ ({ layout with w := 24, z := 23 } : Profile).passes .window = false ∧
    Profile.factory.failing = some .unset := by decide
theorem witness_setRefusals :
    readParam (text "NOPE") = none ∧ restricted .slipTol = true ∧ (at_ .run 0).flc.line ≠ .warmup ∧
    readValue .slipTol (text "9999") = .range ∧ Profile.factory.geometrySet = false ∧
    readValue (.cap .a6) (text "900") = .store (.num 900) false ∧
    committedTo (updPocket .a6 (fun r => { r with committed := 1 }) (at_ .standby 0)) (.cap .a6) = true ∧
    readUnits 100 (text "1.5") = some 150 ∧ readUnits 4 (text "X") = none ∧ clampNum .lnom 960 = .store (.num 960) false ∧
    clampNum .eventRepeat (-1) = .store (.num 0) true ∧ clampNum .slipTol 100000 = .range := by decide
/-- A part in STANDBY with two pocket gates left at DIVERT by the run before. -/
def diverting : State :=
  updGate .a1 (fun r => { r with setting := .divert }) (updGate .a2 (fun r => { r with setting := .divert }) (at_ .standby 0))
/-- R85: the gate of a pocket set not fitted goes from DIVERT to PASS, in STANDBY too, and that of a fitted one holds DIVERT (R91). -/
theorem test_unfitted_gate_passes :
    let t := (doSet (text "A1_FIT") (text "NO") diverting).1
    ((t.ptc.gates.get .a1).setting, (t.ptc.gates.get .a2).setting, (t.ptc.gates.get .g1).setting) = (.pass, .divert, .reject) := by decide
set_option maxRecDepth 20000 in
/-- R85, R197: a LOAD of the factory defaults leaves no stream pocket fitted, and their gates at PASS. -/
theorem test_load_passes_gates : ((doLoad diverting).1.ptc.gates.get .a2).setting = .pass := by decide
theorem witness_eventRepeat :
    readDecimal (text "0.5") = some (5, 1) ∧ readUnits 1 (text "1.5") = none ∧ readDecimal (text "1.5") = some (15, 1) ∧
    readUnits 1 (text "X") = none ∧ readDecimal (text "X") = none ∧ readValue .eventRepeat (text "0.5") = .store (.num 1) true := by decide
theorem witness_loadMoves :
    let s := updPocket .a1 (fun r => { r with count := 1200, state := .full }) (at_ .standby 0)
    let p := { layout with stack := { layout.stack with a1 := { layout.stack.a1 with cap := 2000, near := 1900 } } }
    LinkIdle s ∧ stateAfter p .a1 (s.pkc.recs.get .a1) = .open ∧ (s.pkc.recs.get .a1).state = .full ∧
    stateAfter p .a2 (s.pkc.recs.get .a2) = (s.pkc.recs.get .a2).state := ⟨⟨rfl, rfl, rfl, by decide⟩, by decide, by decide, by decide⟩

/-! ### Witnesses: tables, corrections that reach positions, a busy link -/

set_option maxRecDepth 20000 in
/-- The published check value of the CRC-8 with this polynomial, most significant bit first (log entry 48). -/
theorem test_crc8_check : crc8 (text "123456789") = 0xF4 := by decide
theorem witness_isBlocked :
    let s := fun st => { at_ .run 0 with pkc := { (at_ .run 0).pkc with
      recs := (at_ .run 0).pkc.recs.map fun r => { r with state := st } } }
    isBlocked (s .full) (.on .a .metered) = true ∧ isBlocked (s .nearFull) (.on .a .metered) = false ∧
    isBlocked (updPocket .a6 (fun r => { r with state := .open }) (s .sweepPending)) (.on .a .metered) = false ∧
    isBlocked (updPocket .a4 (fun r => { r with state := .open }) (s .full)) (.on .a .metered) = true ∧
    isBlocked (s .disabled) .machine = true ∧ isBlocked (s .open) .manual = false ∧ isBlocked (s .full) (.on .a .overflow) = false := by
  decide
theorem witness_parameterRanges :
    clampNum .minGap 120 = .store (.num 120) false ∧ clampNum .minGap 119 = .range ∧ clampNum .minGap 800 = .store (.num 800) false ∧
    clampNum .minGap 801 = .range ∧ readParam (text "STN_PE4R") = some (.stn .pe4r) ∧ Profile.factory.read .slipTol = some (.num 48) := by
  decide
theorem witness_beltRun_carry :
    let s := fun r => { at_ .run 0 with cnb := { (at_ .run 0).cnb with remainder := r } }
    after (exec (.encoderCount .forward) (s 3)) (fun t => decide ((t.cnb.remainder, t.cnb.bank.line.beltRunMm) = (0, 1))) = true ∧
    after (exec (.encoderCount .forward) (s 2)) (fun t => decide ((t.cnb.remainder, t.cnb.bank.line.beltRunMm) = (3, 0))) = true ∧
    after (exec (.encoderCount .reverse) (s (-3))) (fun t => decide ((t.cnb.remainder, t.cnb.bank.line.beltRunMm) = (0, -1))) = true := by
  decide

/-- Letter 17 arriving at PE1, its arrival qualified where its corrected SH position has been passed. -/
def lateArrival : State :=
  raw .pe1 .blocked 2001248
    (updSup .pe1 (fun r => { r with expected := [17] }) (with_ .run 2001328 [{ newEntry 17 2000000 with length0 := some 720 }]))
theorem witness_arrivals_reached :
    let e' := { newEntry 17 2000048 with length0 := some 720, lastPe := .pe1, inStation := true }
    reachedPositions { lateArrival with trk := { lateArrival.trk with table := [e'] }, pcm := { lateArrival.pcm with sups := PerSup.fill { expected := [], passing := none } } } e' = [(.sh, 1280)] ∧
    after (exec (.photocellQualifyTravel .pe1) lateArrival)
      (fun t => decide (t.trk.table.map (fun e => (e.anchor, e.shTaken)) = [(2000048, true)])) = true := by decide
theorem witness_commandOf :
    atDp.entry? 51 = some (scanned 51 5000000 800 (result .phosphor (some .o3) 3)) ∧
    (PosKind.dp, 2800) ∈ reachedPositions atDp (scanned 51 5000000 800 (result .phosphor (some .o3) 3)) ∧
    (PosKind.stacking, 14260) ∈ reachedPositions (atStacking .run) { stamped 303 7200000 560 with pocket := some .a6 } := by decide
/-- R87, R103 and R124 with the twist extra, at G2, canceller A and stream A of the reference layout. -/
theorem test_twist_offsets :
    let e := { stamped 61 6000000 800 with path := some .twist }
    clearDist layout e .g2 = 6400 + 2400 + 800 + 48 ∧ clearDist layout e .g1 = 3040 + 800 + 48 ∧ selectOffset layout e = 9200 + 2400 ∧
    selectOffset layout (rejected 1 0 560) = 4000 ∧ armOffset (nearDp 7600 800) e .a = 7600 + 2400 - 800 ∧
    fireOffset (nearDp 7600 800) e .a { job with winStart := 40 } = 7600 + 2400 + 40 := by decide
set_option maxRecDepth 20000 in
theorem witness_checks :
    hexValue 0x61 = some 10 ∧ hexValue 0x46 = some 15 ∧ hexValue 0x67 = none ∧ hexValue 0x2F = none ∧
    classify (received (text "PING*1F") false) = .request .ping ∧ classify (received (text "PING*1f") false) = .request .ping ∧
    classify (received (text "PING") false) = .badCheck ∧ classify { received (text "PING*1F") false with crLast := false } = .badCheck ∧
    classify { received (text "PING*1F") false with bad := true } = .badCheck := by decide
theorem witness_captureLines :
    (∀ d, (sending (.capture { letter := 17, key := ⟨.ft, .gp, 0⟩, values := [] }) (at_ .run 0)).mkf.capture = .draining d → d.letter ≠ 17) ∧
    [(⟨.ft, .gp, 32⟩ : CaptureKey)].head? = some ⟨.ft, .gp, 32⟩ ∧ (draining []).llk.answers = [] ∧ (draining []).llk.reports = [] ∧
    (draining []).cnb.records = [] := ⟨fun _ h => (by cases h), by decide, by decide, by decide, by decide⟩
theorem witness_busyLink :
    let s := answering (List.replicate 7 pong) false
    requestOf .ping = some .ping ∧ s.llk.tx = some pingReply ∧ s.llk.restarting = false ∧ s.llk.answers.length < 8 ∧
    (∀ x ∈ s.llk.answers, ∃ a, x = .answered a) ∧
    Answers .ping { s with llk := { s.llk with answers := [], tx := none, opening := .done } } (.ok (text "PING") []) (heard (at_ .standby 0)) :=
  ⟨rfl, rfl, rfl, by decide, fun x h => ⟨_, List.eq_of_mem_replicate h⟩, rfl⟩
theorem witness_captureOff_busy :
    (draining []).mkf.capture = .draining { buf := .b0, letter := 17, cls := .phosphor, lines := [] } ∧ [pong].length < 8 ∧
    ∀ x ∈ [pong], ∃ a, x = Item.answered a := ⟨by decide, by decide, fun _ h => ⟨_, List.mem_singleton.1 h⟩⟩
theorem witness_start_cancellers :
    ((ready (canc .b fun r => { r with state := .fault, cause := some .timeout })).can.recs.get .b).state ≠ .off ∧
    ((ready id).can.recs.get .a).state = .off := by decide

/-! ### Witnesses: calibrations due at an answer or a failure, and the values the statements pin -/

/-- FT's calibration pulse outstanding with the due mark set: its answer or its failure leaves the station free (R40, R41). -/
def dueAtAnswer : State :=
  let s := calibrating .run .ready 0
  { s with scu := { s.scu with calDue := true } }
theorem witness_dueAtAnswer :
    dueAtAnswer.scu.calDue = true ∧ (dueAtAnswer.scu.heads.get .ft).out = some { what := .calibration, code := 8 } ∧
    stationFree dueAtAnswer = false ∧ dueAtAnswer.flc.line ≠ .powerup ∧ dueAtAnswer.flc.line ≠ .fault := by decide
/-- R41: the calibration that is due follows the answer at once. -/
theorem test_due_at_answer :
    after (exec (.headAnswer .ft (sampleWord 0 612 0)) dueAtAnswer)
      (fun t => decide (t.scu.calDue = false ∧ ∀ h, h ∈ Head.all → (t.scu.heads.get h).out.isSome = true)) = true := by decide
/-- R37, R41: a failed head takes no part in it, and a failure of every head at the warm-up limit leaves none that does. -/
theorem test_due_at_failure :
    after (exec (.headAnswerTimeout .ft) dueAtAnswer)
      (fun t => decide (t.scu.calDue = false ∧ (t.scu.heads.get .ft).out = none ∧ (t.scu.heads.get .fb).out.isSome = true)) = true ∧
    (let s := calibrating .warmup .cold 0
     after (exec .warmupLimit { s with scu := { s.scu with calDue := true }, flc := { s.flc with warmup := some 20 } })
      (fun t => decide (t.scu.calDue = false ∧ (t.scu.heads.get .bb).out.isSome = true)) = true) := by decide
theorem witness_dueAtScanAnswer :
    let s := lastAnswer resetMkf 1
    (stationFree s = false ∧ s.scu.calDue = false) ∧
    after (exec (.headAnswer .ft (sampleWord 1 2 3)) { s with scu := { s.scu with calDue := true } })
      (fun t => decide (t.scu.calDue = false ∧ (t.scu.heads.get .ft).out.isSome = true)) = true := by decide
/-- R190: the word of GP 1, GA 2, RP 3, and the same with bits 31 and 30, 31, 15 or 14 turned. -/
theorem witness_wordGood :
    wordGood 0xC0100803 = false ∧ wordGood 0x00100803 = true ∧ wordGood 0x80100803 = false ∧ wordGood 0x00108803 = false ∧
    wordGood 0x00104803 = false := by decide
theorem witness_manualCause :
    [RejectCause.noMark, .offcorner, .ambiguous, .brightManual, .noTwist].all (fun c => manualCause (some c)) = true ∧
    [RejectCause.offsize, .gap, .double, .unscanned, .late, .merge, .noPocket].any (fun c => manualCause (some c)) = false ∧
    manualCause none = false := by decide
/-- R73, its example: 70 cells and four heads give 36 lines, the last of FT's GP at cell 64. -/
theorem witness_captureKeys :
    let l := { latched70 with n := 70, usable := ⟨true, true, true, true⟩ }
    (captureKeys l).length = 36 ∧ (captureKeys l)[2]? = some { head := .ft, channel := .gp, first := 64 } ∧
    (captureKeys l)[3]? = some { head := .ft, channel := .ga, first := 0 } ∧ (captureKeys l)[9]? = some { head := .fb, channel := .gp, first := 0 } ∧
    (captureKeys { l with n := 64 }).length = 24 := by decide
theorem witness_conditions :
    condition (at_ .fault 0) .fault = true ∧ condition (at_ .run 0) .fault = false ∧ condition (at_ .run 0) .lineState = false ∧
    condition (at_ .run 0) .headState = true ∧ condition (ready id) .headState = false ∧
    condition (updPocket .a1 (fun r => { r with state := .nearFull }) (at_ .run 0)) .pocketState = true ∧
    condition (updPocket .a1 (fun r => { r with state := .sweep }) (at_ .run 0)) .pocketState = false := by decide
/-- R16, R182, R190: a TABLE line of a stranded letter, read at the fault position however far the belt has gone, and one of a letter whose
head the belt has not reached; after them what R119 and R140 show of the two letters. -/
theorem test_table_fields :
    let s := with_ .fault 5000 [{ stamped 17 1000 720 with stranded := true }, newEntry 18 6000]
    let t := { s with flc := { s.flc with fault := some { call := .speed, pos := 1403, left := .run } } }
    tableFields t 0 = [text "2", text "0", text "17", pathName .straight, cellName (stamped 17 1000 720).lastPe, text "S", text "100",
      text "18", text "-", text "PE0", text "-", text "0",
      text "PENDING", text "--", text "-", text "-", text "-", text "-", text "-", text "-"] ∧
    tableFields t 2 = [text "2", text "2"] := by decide
/-- R119, R140: a letter printed in reduced density with its window cut short and committed to a pocket, and one sent to an end bin. -/
theorem test_table_disposal :
    disposalFields { stamped 17 1000 720 with
        job := some { job with outcome := .done, truncated := true, density := some .reduced }, pocket := some .a2 } =
      [text "DONE", text "TR", text "A2", text "-"] ∧
    disposalFields { rejected 18 6000 560 with pocket := some .er, cause := some .noPocket } =
      [text "-", text "-", text "ER", text "NO_POCKET"] := by decide
theorem test_count_page :
    (pageFields { State.reset.cnb.snap with bank := { zeroBank with flow := { zeroBank.flow with late := 0xAB } }, inTable := 12 } 0) =
      List.replicate 6 (text "00000000") ++ [text "000000AB", text "12"] := by decide
/-- R186: bit 13 is CAPTURE_DONE, beside bit 12, RESET, which the reset leaves set. -/
theorem test_flag_bits :
    let s := at_ .run 0
    flagBits { s with llk := { s.llk with flags := s.llk.flags.upd .captureDone fun f => { f with set := true } } } (·.set) = 2 ^ 13 + 2 ^ 12 := by
  decide
theorem test_pockets_fields :
    let s := updPocket .er (fun r => { r with sensor := .active }) (updPocket .a2 (fun r => { r with state := .full, committed := 3 }) (at_ .run 0))
    let fields := pocketsFields { s with pkc := { s.pkc with blocked := [.on .a .metered, .manual] } }
    fields.length = 18 ∧ fields[1]? = some (text "F3") ∧ fields[16]? = some (text "A0") ∧ fields[17]? = some (text "AM,MN") := by decide

/-! ### The lines that follow a reset -/

/-- POWERUP with an image that fails its check, the line of RESET sent, the opening of the lines at a point, and the answers waiting. -/
def loading (o : Opening) (answers : List Item) : State :=
  { State.reset with llk := { State.reset.llk with tx := none, opening := o, answers := answers } }
/-- WARMUP after a load that defaulted, the line of RESET still being sent. -/
def defaulted (o : Opening) (answers : List Item) : State :=
  let s := setFlag .profileDefaulted (.defaulted .format) (at_ .warmup 0)
  { s with llk := { s.llk with opening := o, tx := State.reset.llk.tx, answers := answers } }
theorem witness_loading :
    LinkIdle (loading .loading []) ∧ (loading .loading []).flc.line = .powerup ∧ (loading .loading []).pfs.image.format ≠ 1 ∧
    ((loading .loading []).llk.flags.get .profileDefaulted).masked = false ∧ (loading .loading []).llk.opening = .loading ∧
    State.reset.llk.tx = some (.report .reset (some (.reset .power))) ∧ ¬ Resets .ping (loading .loading []) ∧
    ((at_ .run 0).flc.line = .powerup → Config.getInPowerup (text "LNOM") = true ∧ Config.setInPowerup (text "LNOM") = true) :=
  ⟨⟨rfl, rfl, rfl, nofun⟩, rfl, by decide, by decide, rfl, rfl, by unfold Resets; decide, fun h => by cases h⟩
/-- A running part, and one after a reset, are sound under R195 as under R185. -/
theorem witness_secondLine : SecondLine (at_ .run 0) ∧ SecondLine State.reset ∧ (defaulted .due [pong]).llk.opening = .due ∧
    .profileDefaulted ∈ (defaulted .due [pong]).llk.reports ∧ .profileDefaulted ∉ (at_ .run 0).llk.reports := by
  refine ⟨⟨⟨nofun, fun h => by cases h.1⟩, nofun, nofun, fun h => absurd rfl h⟩, ?_, by decide, by decide, by decide⟩
  have fails : ¬ ImagePasses State.reset.pfs.image := fun h => absurd h.1 (by decide)
  refine ⟨?_, fun _ => rfl, fun _ => nofun, fun _ l h => ⟨_, (Option.some.inj h).symm⟩⟩
  show openingAt .loading true = .loading ↔ _
  cases h : Config.defaultedSecond <;> simp [openingAt, h, fails]
  rfl
/-- R185: a PING of POWERUP is answered and its line begun; under R195, the opening not past the second line, no line is begun. -/
theorem test_powerup_reply :
    after (exec .ping (loading .loading [])) (fun t => decide (t.llk.tx = none ∧ t.llk.answers = [pong])) = true ∧
    after (exec .ping (loading .done [])) (fun t => decide (t.llk.tx = some pingReply)) = true := by decide
/-- R185, R195: a load that defaults, with a reply waiting: the report of PROFILE_DEFAULTED goes first, or the reply. -/
theorem test_defaulted_or_reply :
    (profileLoaded (loading .loading [pong])).llk.opening = openingAt .due true ∧
    (openingAt .due true = .due ∨ openingAt .due true = .done) ∧
    after (exec .transmitLineComplete (defaulted .due [pong]))
      (fun t => decide (t.llk.tx = some (.report .profileDefaulted (some (.defaulted .format))) ∧ t.llk.opening = .done)) = true ∧
    after (exec .transmitLineComplete (defaulted .done [pong])) (fun t => decide (t.llk.tx = some pingReply)) = true :=
  ⟨by simp; rfl, (openingAt_cases .due true).symm.imp And.left id, by decide, by decide⟩
/-- R183, R191: a GET in POWERUP has the outcome of one of the two rules. -/
theorem test_get_in_powerup : (doGet (text "LNOM") (loading .done [])).2 = deny .get .wrongState ∨
    (doGet (text "LNOM") (loading .done [])).2 = accept .get [text "LNOM", text "800"] := by
  cases h : Config.getInPowerup (text "LNOM")
  · exact .inl (by simp [doGet, h, loading, State.reset, resetFlc])
  · exact .inr (by simp [doGet, h]; decide)
/-- R176, R191: a SET of REPORT_HOLD in POWERUP has the outcome of one of the two rules. -/
theorem test_set_in_powerup : (doSet (text "REPORT_HOLD") (text "ON") (loading .done [])).2 = deny .set .wrongState ∨
    (doSet (text "REPORT_HOLD") (text "ON") (loading .done [])).2 = accept .set [text "REPORT_HOLD", text "ON"] := by
  cases h : Config.setInPowerup (text "REPORT_HOLD")
  · exact .inl (by simp [doSet, h, loading, State.reset, resetFlc])
  · exact .inr (by simp [doSet, h]; decide)

end Sys2Proof.Tests
end

