-- ==== Sys2Proof/Proofs/Bounds.lean ====
section
/-! PROOF. Every list and count stays within its bound (O13): the bounds block by block, each kept by every event, and put together. -/

namespace Sys2Proof.Proofs

open Sys2Proof Sys2Proof.Machine Sys2Proof.Safety Sys2Proof.Laws

/-! ### The line link -/

/-- The bounds of the answer list and of the receive line buffer (R178, R180). -/
structure LinkBounded (s : State) : Prop where
  answers : s.llk.answers.length ≤ 8
  waiting : waitingCount s.llk.answers ≤ 4
  line    : s.llk.rx.buf.length ≤ 200

/-- The link stays within its bounds where the answer list and the buffer are as they were. -/
theorem LinkBounded.of_eq {s t : State} (hs : LinkBounded s) (ha : t.llk.answers = s.llk.answers) (hr : t.llk.rx = s.llk.rx) :
    LinkBounded t := by
  constructor
  · rw [ha]; exact hs.answers
  · rw [ha]; exact hs.waiting
  · rw [hr]; exact hs.line

theorem waitingCount_append (l m : List Item) : waitingCount (l ++ m) = waitingCount l + waitingCount m := List.countP_append

/-- Taking the request at its place leaves the length, and lowers the number waiting or keeps it. -/
theorem firstTakeable_split {l ahead behind : List Item} {r : Request} (h : firstTakeable l = some (ahead, r, behind)) :
    l = ahead ++ .waiting r :: behind := by
  induction l generalizing ahead with
  | nil => simp [firstTakeable] at h
  | cons i l ih =>
    cases i with
    | waiting q => simp only [firstTakeable, Option.some.injEq, Prod.mk.injEq] at h; obtain ⟨rfl, rfl, rfl⟩ := h; rfl
    | inProgress => simp [firstTakeable] at h
    | answered a =>
      simp only [firstTakeable, Option.map_eq_some_iff] at h
      obtain ⟨⟨x, y, z⟩, hx, he⟩ := h
      cases he
      simp [ih hx]

/-- A request refused START has its reply (R144). -/
theorem startRefusal_answered {s : State} {i : Item} (h : startRefusal s = some i) : ∃ r, i = .answered r := by
  unfold startRefusal at h
  (repeat' split at h) <;> cases h <;> exact ⟨_, rfl⟩

/-- A POCKET request taken is answered (R136). -/
theorem doPocket_answered (q : Pocket) (a : PocketAction) (s : State) : ∃ r, (doPocket q a s).2 = .answered r := by
  unfold doPocket
  split
  · cases a <;> exact ⟨_, rfl⟩
  · split
    · cases a <;> simp only [doPocketAction] <;> (repeat' split) <;> exact ⟨_, rfl⟩
    · exact ⟨_, rfl⟩

/-- A request taken is answered, or a SAVE begun (R180, R196). -/
theorem perform_taken (r : Request) (s : State) : (perform r s).2 = .inProgress ∨ ∃ a, (perform r s).2 = .answered a := by
  cases r with
  | start =>
    right
    simp only [perform, doStart]
    split
    · rename_i h; exact startRefusal_answered h
    · exact ⟨_, rfl⟩
  | pocket q a => exact .inr (doPocket_answered q a s)
  | pockets q => cases q <;> exact .inr ⟨_, rfl⟩
  | hold d => cases d <;> exact .inr ⟨_, rfl⟩
  | save =>
    simp only [perform, doSave]
    split
    · exact .inl rfl
    · exact .inr ⟨_, rfl⟩
  | _ =>
    right
    simp only [perform, doStop, doClear, doRelease, doSet, doGet, doLoad, doDater, doSnap, doCount, doZero, doMask, doAck, doHeadRetry,
      doCancellerClear, doCapture, doCaptureOff, doTable, doRestart]
    (repeat' split) <;> exact ⟨_, rfl⟩

/-- Requests taken leave the answer list no longer, and no more of it waiting (R180). -/
theorem takeRequests_bounded (fuel : Nat) (s : State) (h : LinkBounded s) : LinkBounded (takeRequests fuel s) := by
  induction fuel generalizing s with
  | zero => exact h
  | succ k ih =>
    simp only [takeRequests]
    split
    · exact h
    · split
      · exact h
      · rename_i ahead r behind hsplit
        have hl := firstTakeable_split hsplit
        have hw : waitingCount [(perform r s).2] ≤ waitingCount [Item.waiting r] := by
          rcases perform_taken r s with e | ⟨a, e⟩ <;> simp [e, waitingCount]
        refine ih _ ⟨?_, ?_, ?_⟩
        · simpa [hl] using h.answers
        · have := h.waiting
          rw [hl, waitingCount_append, ← List.singleton_append, waitingCount_append] at this
          change waitingCount (ahead ++ ([(perform r s).2] ++ behind)) ≤ 4
          rw [waitingCount_append, waitingCount_append]
          omega
        · simpa using h.line

/-- An item joins below 8 items, and a request to wait below 4 waiting (R180). -/
theorem join_bounded {i : Item} {s : State} (h : LinkBounded s) (hl : s.llk.answers.length < 8)
    (hw : waitingCount s.llk.answers + waitingCount [i] ≤ 4) : LinkBounded (join i s) where
  answers := by simp [join]; omega
  waiting := by simpa [join, waitingCount_append] using hw
  line := h.line

theorem submit_bounded (r : Request) (s : State) (h : LinkBounded s) : LinkBounded (submit r s) := by
  have h' : LinkBounded (restartSilence s) := h.of_eq rfl rfl
  unfold submit
  dsimp only
  split
  · exact h'
  · split
    · exact h'.of_eq rfl rfl
    · rename_i hl
      split
      · exact join_bounded h' (by omega) (by simpa [waitingCount] using h'.waiting)
      · rename_i hw
        exact takeRequests_bounded _ _ (join_bounded h' (by omega) (by simp [waitingCount] at hw ⊢; omega))

theorem submitMalformed_bounded (e : LinkError) (a : Reply) (s : State) (h : LinkBounded s) : LinkBounded (submitMalformed e a s) := by
  have h' : LinkBounded (linkError e s) := h.of_eq rfl rfl
  unfold submitMalformed
  dsimp only
  split
  · exact h'
  · split
    · exact h'.of_eq rfl rfl
    · exact join_bounded h' (by omega) (by simpa [waitingCount] using h'.waiting)

/-- A character is collected only below 200 of them (R178). -/
theorem takeChar_length {c : Byte} {f : Bool} {now : Nat} {rx : Rx} (h : rx.buf.length ≤ 200) :
    (takeChar c f now rx).buf.length ≤ 200 := by
  unfold takeChar
  dsimp only
  (repeat' split) <;> simp_all

theorem receive_bounded (c : Byte) (f : Bool) (s : State) (h : LinkBounded s) : LinkBounded (receive c f s) := by
  unfold receive
  split
  · dsimp only
    generalize ht : ({ s with llk := { s.llk with rx := { emptyRx with lastChar := s.now } } } : State) = t
    have h' : LinkBounded t := ht ▸ ⟨h.answers, h.waiting, Nat.zero_le _⟩
    split
    · exact h'
    · unfold completeLine
      split
      · exact submitMalformed_bounded _ _ _ h'
      · exact submitMalformed_bounded _ _ _ h'
      · exact submitMalformed_bounded _ _ _ h'
      · exact submit_bounded _ _ h'
  · exact ⟨h.answers, h.waiting, takeChar_length h.line⟩

/-- A line sent takes at most its answer off the list (R180). -/
theorem lineSent_bounded (l : TxLine) (s : State) (h : LinkBounded s) : LinkBounded (lineSent l s) := by
  cases l with
  | reply r =>
    have hs : s.llk.answers.tail.Sublist s.llk.answers := List.tail_sublist _
    exact ⟨hs.length_le.trans h.answers, (hs.countP_le).trans h.waiting, h.line⟩
  | report k d =>
    simp only [lineSent]
    split
    · exact h
    · exact h.of_eq rfl rfl
  | record r => exact h.of_eq (by simp [lineSent]) (by simp [lineSent])
  | capture c => exact h.of_eq (by simp [lineSent]) (by simp [lineSent])

/-- The end of a write answers the SAVE, and takes what waits behind it (R180, R196). -/
theorem writeEnd_bounded (p : Profile) (s : State) (h : LinkBounded s) : LinkBounded (writeEnd p s) := by
  refine takeRequests_bounded _ _ ⟨by simpa using h.answers, ?_, h.line⟩
  have hw : waitingCount (s.llk.answers.map (saveAnswered (Config.imageCrc 1 p))) = waitingCount s.llk.answers := by
    simp only [waitingCount, List.countP_map]
    congr 1
    funext i
    cases i <;> rfl
  exact hw.trans_le h.waiting

/-- The bounds of the link are kept by every event. -/
theorem linkBounded_kept : Kept LinkBounded := by
  constructor
  case reset => exact fun _ _ _ => ⟨Nat.zero_le _, Nat.zero_le _, Nat.zero_le _⟩
  case receive => exact receive_bounded
  case request => exact submit_bounded
  case written => exact fun p s _ => writeEnd_bounded p s
  case sent => exact fun l s _ h => lineSent_bounded l _ (h.of_eq rfl rfl)
  case gap => exact fun s h => ⟨h.answers, h.waiting, Nat.zero_le _⟩
  case warmEnd => exact fun s _ h => h.of_eq (by simp) (by simp)
  all_goals intros; exact LinkBounded.of_eq ‹_› (by simp) (by simp)

/-! ### The gate queues -/

/-- No gate queue holds more than 8 entries (R86). -/
def QueuesBounded (s : State) : Prop :=
  ∀ g, (s.ptc.gates.get g).queue.length ≤ 8

/-- The queues stay within their bound where each is as it was or shorter. -/
theorem QueuesBounded.of_le {s t : State} (hs : QueuesBounded s)
    (h : ∀ g, (t.ptc.gates.get g).queue.length ≤ (s.ptc.gates.get g).queue.length) : QueuesBounded t :=
  fun g => (h g).trans (hs g)

theorem QueuesBounded.of_eq {s t : State} (hs : QueuesBounded s) (h : t.ptc = s.ptc) : QueuesBounded t :=
  hs.of_le fun g => by rw [h]

/-- A gate's queue is its record's where the record changed, and as it was elsewhere. -/
theorem updGate_queue (g x : Gate) (f : GateRec → GateRec) (s : State) :
    ((updGate g f s).ptc.gates.get x).queue = if x = g then (f (s.ptc.gates.get g)).queue else (s.ptc.gates.get x).queue := by
  simp only [updGate, PerGate.upd, PerGate.get_set]
  split <;> rfl

theorem updGate_bounded {g : Gate} {f : GateRec → GateRec} {s : State} (hs : QueuesBounded s)
    (h : (f (s.ptc.gates.get g)).queue.length ≤ 8) : QueuesBounded (updGate g f s) := by
  intro x
  rw [updGate_queue]
  split
  · exact h
  · exact hs x

/-- A gate takes an entry out of its queue (R88). -/
theorem gateTry_bounded (g : Gate) (s : State) (hs : QueuesBounded s) : QueuesBounded (gateTry g s) := by
  unfold gateTry
  split
  · dsimp only
    split
    · rename_i hq
      have hlen := hs g
      rw [hq] at hlen
      have hrest := Nat.le_of_succ_le hlen
      split
      · exact updGate_bounded hs hrest
      · exact updGate_bounded hs hrest
    · exact hs
  · exact hs

theorem insertByAge_length {α : Type} (num : α → LetterNo) (x : α) (l : List α) : (insertByAge num x l).length = l.length + 1 := by
  have h := congrArg List.length (List.takeWhile_append_dropWhile (p := fun y => older (num y) (num x)) (l := l))
  simp only [insertByAge, List.length_append, List.length_cons] at h ⊢
  omega

/-- A fault stop empties every queue (R92). -/
theorem faultStop_bounded (call : FaultCall) (s : State) (hs : QueuesBounded s) : QueuesBounded (faultStop call s) := by
  unfold faultStop
  split
  · intro g; simp [stopBlocks, stopGate]
  · exact hs

/-- An entry is placed only below 8 of them (R86). -/
theorem placeEntry_bounded (g : Gate) (n : LetterNo) (x : Setting) (s : State) (hs : QueuesBounded s) :
    QueuesBounded (placeEntry g n x s) := by
  unfold placeEntry
  split
  · dsimp only
    split
    · exact faultStop_bounded _ _ hs
    · rename_i hlen
      exact gateTry_bounded _ _ (updGate_bounded hs (by rw [insertByAge_length]; omega))
  · exact hs

theorem dpAct_bounded (n : LetterNo) (s : State) (hs : QueuesBounded s) : QueuesBounded (dpAct n s) := by
  unfold dpAct
  split
  · exact hs
  · dsimp only
    refine QueuesBounded.of_eq ?_ (armAtDp_frame _ _).2.2.2.2.2.2.2.2.2.2.1
    have hstart : ∀ e d u, QueuesBounded u → QueuesBounded (joinLists n d (recordMerge e d u)) := fun e d u hu =>
      hu.of_le fun g => by simp only [joinLists_frame]; unfold recordMerge; split <;> exact le_rfl
    unfold placeGates
    dsimp only
    split <;> exact placeEntry_bounded _ _ _ _ (placeEntry_bounded _ _ _ _ (hstart _ _ _ (hs.of_eq rfl)))

theorem selectAct_bounded (n : LetterNo) (s : State) (hs : QueuesBounded s) : QueuesBounded (selectAct n s) := by
  have hc : ∀ q l, QueuesBounded (commit n q l s) := fun q l =>
    foldl_keeps (fun u a hu => placeEntry_bounded _ _ _ _ hu) _ _ (hs.of_eq rfl)
  unfold selectAct
  split
  · exact hs
  · split <;> exact hc _ _

theorem gateRemoved_bounded (n : LetterNo) (g : Gate) (s : State) (hs : QueuesBounded s) : QueuesBounded (gateRemoved n s g) :=
  gateTry_bounded _ _ (updGate_bounded hs ((List.length_filter_le _ _).trans (hs g)))

/-- The letter out of the table and the lists, and TABLE lowered at RELEASE_AT: the removal of an entry up to its gates (R18, R19). -/
def withdraw (n : LetterNo) (s : State) : State :=
  let t := { s with
    trk := { s.trk with table := dropEntry n s.trk.table }
    pcm := { s.pcm with sups := s.pcm.sups.map (supRemoved n) } }
  if t.trk.table.length = s.pfs.profile.releaseAt then setHold .table false t else t

/-- A removal: the letter withdrawn, then its gates, its cancellers and the calibration (R18). -/
theorem removeEntry_eq (n : LetterNo) (s : State) : removeEntry n s =
    tryCalibrate (cancRemoved .b n (cancRemoved .a n (Gate.all.foldl (gateRemoved n) (withdraw n s)))) := rfl

theorem withdraw_ptc (n : LetterNo) (s : State) : (withdraw n s).ptc = s.ptc := by
  unfold withdraw
  dsimp only
  split <;> rfl

theorem removeEntry_bounded (n : LetterNo) (s : State) (hs : QueuesBounded s) : QueuesBounded (removeEntry n s) := by
  have h : QueuesBounded (Gate.all.foldl (gateRemoved n) (withdraw n s)) :=
    foldl_keeps (fun u g hu => gateRemoved_bounded n g u hu) _ _ (hs.of_eq (withdraw_ptc n s))
  exact h.of_eq (by rw [removeEntry_eq]; simp)

theorem stackAct_bounded (n : LetterNo) (s : State) (hs : QueuesBounded s) : QueuesBounded (stackAct n s) := by
  unfold stackAct
  split
  · exact hs
  · split
    · exact hs
    · rename_i e _ _ q _
      dsimp only
      generalize hu : sweepIfClear q (follow q (updPocket q _ s)) = u
      have h : QueuesBounded u := hs.of_eq (by rw [← hu]; simp)
      exact (removeEntry_bounded n u h).of_eq (by simp)

theorem clearEntry_bounded (s : State) (e : Entry) (hs : QueuesBounded s) : QueuesBounded (clearEntry s e) := by
  unfold clearEntry
  dsimp only
  exact removeEntry_bounded _ _ (hs.of_eq (by split <;> simp))

theorem passUnfitted_bounded (s : State) (hs : QueuesBounded s) : QueuesBounded (passUnfitted s) :=
  hs.of_le fun g => by rw [passUnfitted_gates]; split <;> exact le_rfl

theorem afterSet_bounded (p : Param) (s : State) (hs : QueuesBounded s) : QueuesBounded (afterSet p s) := by
  by_cases h : ∃ x, p = .fit x
  · obtain ⟨x, rfl⟩ := h
    exact (passUnfitted_bounded s hs).of_eq (afterSet_fit_ptc x s)
  · exact hs.of_eq (afterSet_ptc (fun x hx => h ⟨x, hx⟩) s)

theorem sensorQualified_bounded (q : Pocket) (s : State) (hs : QueuesBounded s) : QueuesBounded (sensorQualified q s) := by
  unfold sensorQualified
  dsimp only
  (repeat' split)
  · exact faultStop_bounded _ _ (hs.of_eq rfl)
  all_goals exact hs.of_eq (by simp)

/-- The bound of the gate queues is kept by every part of an event. -/
theorem queuesBounded_parts : Parts QueuesBounded := by
  constructor
  case reset => exact fun _ _ _ g => by cases g <;> exact Nat.zero_le _
  case faultStop => exact faultStop_bounded
  case dp => exact fun n s _ => dpAct_bounded n s
  case clear => exact fun g s h => gateTry_bounded _ _ (updGate_bounded h (h g))
  case select => exact fun n s _ => selectAct_bounded n s
  case stack => exact fun n s _ => stackAct_bounded n s
  case settled => exact fun g s h => gateTry_bounded _ _ (updGate_bounded h (h g))
  case sensorQualified => exact sensorQualified_bounded
  case starting => exact fun s _ _ g => by simp [enterStarting, startGate]
  case clearing =>
    exact fun s _ h => (foldl_keeps clearEntry_bounded s.trk.table s h).of_eq (by simp [lineClearing])
  case set => exact fun p x v b s _ h => afterSet_bounded _ _ (h.of_eq rfl)
  case load => exact fun s hl h => (passUnfitted_bounded _ (h.of_eq (by simp))).of_eq (doLoad_ptc hl)
  case induct =>
    intro a s _ _ h
    unfold induct
    split
    · exact faultStop_bounded _ _ h
    · exact h.of_eq (by dsimp only; generalize (if gapShort s a then _ else _ : Entry) = e; split <;> rfl)
  case warmEnd => exact fun s _ h => h.of_eq (by simp)
  case corrected => exact fun c n a m d s h => h.of_le fun g => le_rfl
  case dropMerge => exact fun s h => h.of_le fun g => le_rfl
  all_goals intros; exact QueuesBounded.of_eq ‹_› (by simp)

/-- A sensor level qualified changes pockets and flags, and at an end bin calls for a fault stop (R123, R139). -/
theorem sensorQualified_keeps {P : State → Prop} (hf : ∀ call s, P s → P (faultStop call s)) (hp : ∀ q f s, P s → P (updPocket q f s))
    (hk : ∀ k d s, P s → P (setFlag k d s)) (hw : ∀ q s, P s → P (follow q s)) (q : Pocket) (s : State) (h : P s) :
    P (sensorQualified q s) := by
  have h1 := hp q (fun r => { r with sensor := r.raw, change := none }) s h
  unfold sensorQualified
  dsimp only
  split
  · have h2 := hk .endBin (.bin q (s.pkc.recs.get q).raw) _ h1
    split
    · exact hf _ _ h2
    · exact h2
  · split
    · exact hw _ _ h1
    · exact h1

/-! ### The Letter Table, the speed window and the measured speed -/

/-- The bounds of the Track Unit's lists and of the measured speed (R4, R5). -/
structure TrackBounded (s : State) : Prop where
  table   : s.trk.table.length ≤ 64
  samples : s.trk.samples.length = 16
  speed   : s.trk.speed ≤ 500

theorem TrackBounded.of_length {s t : State} (hs : TrackBounded s) (ht : t.trk.table.length ≤ s.trk.table.length)
    (h1 : t.trk.samples = s.trk.samples) (h2 : t.trk.speed = s.trk.speed) : TrackBounded t :=
  ⟨ht.trans hs.table, by rw [h1, hs.samples], by rw [h2]; exact hs.speed⟩

theorem length_of_cores {l m : List Entry} (h : l.map Entry.core = m.map Entry.core) : l.length = m.length := by
  simpa using congrArg List.length h

theorem TrackBounded.of_cores {s t : State} (hs : TrackBounded s) (ht : t.trk.table.map Entry.core = s.trk.table.map Entry.core)
    (h1 : t.trk.samples = s.trk.samples) (h2 : t.trk.speed = s.trk.speed) : TrackBounded t :=
  hs.of_length (length_of_cores ht).le h1 h2

theorem faultStop_length (call : FaultCall) (s : State) : (faultStop call s).trk.table.length = s.trk.table.length := by
  have h := faultStop_cores call s
  split at h
  · simpa using length_of_cores h
  · exact length_of_cores h

theorem TrackBounded.faultStop {s : State} (hs : TrackBounded s) (call : FaultCall) : TrackBounded (faultStop call s) :=
  hs.of_length (faultStop_length call s).le (by simp) (by simp)

/-- The measured speed never exceeds 5.00 m/s (R4). -/
theorem speedOf_le (net : Int) : speedOf net ≤ 500 := by
  unfold speedOf
  split
  · exact Nat.zero_le _
  · split <;> omega

/-- The window of 16 positions moves on by one (R4). -/
theorem TrackBounded.speedStep {s t : State} (hs : TrackBounded s) (h : t.trk = speedStep s.trk) : TrackBounded t := by
  constructor
  · rw [h]; exact hs.table
  · have := hs.samples
    rw [h]; simp [Machine.speedStep]; omega
  · rw [h]; exact speedOf_le _

theorem TrackBounded.dpAct (n : LetterNo) (s : State) (hs : TrackBounded s) : TrackBounded (dpAct n s) :=
  dpAct_keeps (fun c _ h => h.faultStop c) (fun _ _ _ h => h.of_cores rfl rfl rfl) (fun _ _ h => h.of_cores rfl rfl rfl)
    (fun _ _ _ h => h.of_cores rfl rfl rfl) (fun _ _ h => h.of_cores (by simp) (by simp) (by simp))
    (fun _ _ h => h.of_cores (by simp) (by simp) (by simp)) n s hs
    (fun _ _ => hs.of_length (updTable_length _ _ _).le rfl rfl)

theorem TrackBounded.selectAct (n : LetterNo) (s : State) (hs : TrackBounded s) : TrackBounded (selectAct n s) := by
  have hc : ∀ q l, TrackBounded (commit n q l s) := fun q l =>
    commit_keeps (fun c _ h => h.faultStop c) (fun _ _ _ h => h.of_cores rfl rfl rfl) n q l s
      (hs.of_length (updTable_length _ _ _).le rfl rfl)
  unfold Machine.selectAct
  split
  · exact hs
  · split <;> exact hc _ _

theorem TrackBounded.stackAct (n : LetterNo) (s : State) (hs : TrackBounded s) : TrackBounded (stackAct n s) := by
  refine hs.of_length ?_ (by simp) (by simp)
  have h := stackAct_cores n s
  split at h
  · exact (length_of_cores h).trans_le (dropEntry_sublist _ _).length_le
  · exact (length_of_cores h).le

/-- An induction adds a letter only below 64 of them (R10, R11). -/
theorem TrackBounded.induct (a : Pos) (s : State) (hs : TrackBounded s) : TrackBounded (induct a s) := by
  have h := induct_cores a s
  split at h
  · exact hs.of_length ((length_of_cores h).trans (faultStop_length _ s)).le (by simp) (by simp)
  · have hl := congrArg List.length h
    simp only [List.length_map, List.length_append, List.length_singleton] at hl
    exact ⟨by omega, by simpa using hs.samples, by simpa using hs.speed⟩

/-- The bounds of the Track Unit are kept by every part of an event. -/
theorem trackBounded_parts : Parts TrackBounded := by
  constructor
  case reset => exact fun _ _ _ => ⟨Nat.zero_le _, rfl, Nat.zero_le _⟩
  case faultStop => exact fun call s h => h.faultStop call
  case speed => exact fun s h => h.speedStep rfl
  case dp => exact fun n s _ => TrackBounded.dpAct n s
  case select => exact fun n s _ => TrackBounded.selectAct n s
  case stack => exact fun n s _ => TrackBounded.stackAct n s
  case induct => exact fun a s _ _ => TrackBounded.induct a s
  case sensorQualified =>
    exact sensorQualified_keeps (fun c _ h => h.faultStop c) (fun _ _ _ h => h.of_cores rfl rfl rfl) (fun _ _ _ h => h.of_cores rfl rfl rfl)
      (fun _ _ h => h.of_cores (by simp) (by simp) (by simp))
  case clearing => exact fun s _ h => h.of_length (by simp [lineClearing_table]) (by simp) (by simp)
  all_goals intros; exact TrackBounded.of_cores ‹_› (by simp) (by simp) (by simp)

/-! ### The fault count -/

/-- The fault count is at most 8 (R158). -/
def FaultCountBounded (s : State) : Prop := s.flc.faultCount ≤ 8

theorem FaultCountBounded.of_eq {s t : State} (hs : FaultCountBounded s) (h : t.flc.faultCount = s.flc.faultCount) :
    FaultCountBounded t := h.trans_le hs

theorem FaultCountBounded.faultStop {s : State} (hs : FaultCountBounded s) (call : FaultCall) :
    FaultCountBounded (faultStop call s) := by
  unfold Machine.faultStop
  split
  · show _ ≤ 8
    simp [stopBlocks]
  · exact hs

theorem FaultCountBounded.dpAct (n : LetterNo) (s : State) (hs : FaultCountBounded s) : FaultCountBounded (dpAct n s) :=
  dpAct_keeps (fun c _ h => h.faultStop c) (fun _ _ _ h => h.of_eq rfl) (fun _ _ h => h.of_eq rfl) (fun _ _ _ h => h.of_eq rfl)
    (fun _ _ h => h.of_eq (by simp)) (fun _ _ h => h.of_eq (by simp)) n s hs (fun _ _ => hs.of_eq rfl)

theorem FaultCountBounded.selectAct (n : LetterNo) (s : State) (hs : FaultCountBounded s) : FaultCountBounded (selectAct n s) := by
  have hc : ∀ q l, FaultCountBounded (commit n q l s) := fun q l =>
    commit_keeps (fun c _ h => h.faultStop c) (fun _ _ _ h => h.of_eq rfl) n q l s (hs.of_eq rfl)
  unfold Machine.selectAct
  split
  · exact hs
  · split <;> exact hc _ _

/-- A stacking leaves the fault count, or sets it to 0 (R158). -/
theorem FaultCountBounded.stackAct (n : LetterNo) (s : State) (hs : FaultCountBounded s) : FaultCountBounded (stackAct n s) := by
  unfold Machine.stackAct
  split
  · exact hs
  · split
    · exact hs
    · dsimp only
      unfold cleanRunCount
      split
      · exact hs.of_eq (by simp)
      · split
        · exact Nat.zero_le _
        · exact hs.of_eq (by simp)

theorem FaultCountBounded.induct (a : Pos) (s : State) (hs : FaultCountBounded s) : FaultCountBounded (induct a s) := by
  unfold Machine.induct
  split
  · exact hs.faultStop _
  · dsimp only
    generalize (if gapShort s a then _ else _ : Entry) = e
    split <;> exact hs.of_eq rfl

/-- The bound of the fault count is kept by every part of an event. -/
theorem faultCountBounded_parts : Parts FaultCountBounded := by
  constructor
  case reset => exact fun _ _ _ => Nat.zero_le _
  case faultStop => exact fun call s h => h.faultStop call
  case speed => exact fun s h => h.of_eq (by unfold qualStep; split <;> rfl)
  case dp => exact fun n s _ => FaultCountBounded.dpAct n s
  case select => exact fun n s _ => FaultCountBounded.selectAct n s
  case stack => exact fun n s _ => FaultCountBounded.stackAct n s
  case induct => exact fun a s _ _ => FaultCountBounded.induct a s
  case sensorQualified =>
    exact sensorQualified_keeps (fun c _ h => h.faultStop c) (fun _ _ _ h => h.of_eq rfl) (fun _ _ _ h => h.of_eq rfl)
      (fun _ _ h => h.of_eq (by simp))
  case faultCount => exact fun _ _ => Nat.zero_le _
  all_goals intros; exact FaultCountBounded.of_eq ‹_› (by simp)

/-! ### The snapshot -/

/-- UTILISATION is at most 1000 (R169). -/
def SnapBounded (s : State) : Prop := s.cnb.snap.utilisation ≤ 1000

theorem SnapBounded.of_eq {s t : State} (hs : SnapBounded s) (h : t.cnb.snap = s.cnb.snap) : SnapBounded t :=
  (congrArg (·.utilisation) h).trans_le hs

theorem utilisationOf_le (b : Bank) : utilisationOf b ≤ 1000 := by
  unfold utilisationOf
  split
  · exact Nat.zero_le _
  · exact Nat.min_le_left _ _

theorem SnapBounded.checkDrained (s : State) (hs : SnapBounded s) : SnapBounded (checkDrained s) := by
  unfold Machine.checkDrained
  split
  · show _ ≤ _
    simp [drainEmpty, takeSnapshot, utilisationOf_le]
  · exact hs

theorem SnapBounded.enterDrain (c : LineCause) (s : State) (hs : SnapBounded s) : SnapBounded (enterDrain c s) :=
  SnapBounded.checkDrained _ (hs.of_eq (by simp))

/-- A change of a head's state takes a snapshot only where it drains an empty line (R146, R170). -/
theorem SnapBounded.headTo (h : Head) (x : HeadState) (s : State) (hs : SnapBounded s) : SnapBounded (headTo h x s) := by
  have h1 : SnapBounded (setFlag .headState (.head h x) (updHead h (fun r => { r with state := x, run := 0 }) s)) := hs.of_eq rfl
  have hw : ∀ t, SnapBounded t → SnapBounded (checkWarm t) := fun t ht => ht.of_eq (by simp)
  unfold Machine.headTo
  dsimp only
  apply hw
  split
  · exact SnapBounded.enterDrain _ _ h1
  · exact h1

theorem SnapBounded.headGood (h : Head) (s : State) (hs : SnapBounded s) : SnapBounded (headGood h s) := by
  unfold Machine.headGood
  dsimp only
  split
  · exact SnapBounded.headTo _ _ _ hs
  · exact SnapBounded.headTo _ _ _ hs
  · exact hs.of_eq rfl
  · split
    · exact hs.of_eq rfl
    · exact SnapBounded.headTo _ _ _ hs
  · exact hs

theorem SnapBounded.headBad (h : Head) (s : State) (hs : SnapBounded s) : SnapBounded (headBad h s) := by
  unfold Machine.headBad
  dsimp only
  split
  · exact hs
  · exact SnapBounded.headTo _ _ _ hs
  · split
    · exact hs.of_eq rfl
    · exact SnapBounded.headTo _ _ _ hs
  · exact hs.of_eq rfl
  · exact hs

theorem SnapBounded.judgeCalibration (h : Head) (k ga : Nat) (s : State) (hs : SnapBounded s) :
    SnapBounded (judgeCalibration h k ga s) := by
  unfold Machine.judgeCalibration
  dsimp only
  split
  · exact SnapBounded.headGood _ _ (hs.of_eq rfl)
  · exact SnapBounded.headBad _ _ hs

theorem SnapBounded.answerHead (h : Head) (v : Sample) (s : State) (hs : SnapBounded s) : SnapBounded (answerHead h v s) := by
  have hn : ∀ t, SnapBounded t → SnapBounded (tryCalibrate (updHead h (sendNext t.trk.belt) t)) := fun t ht => ht.of_eq (by simp)
  have h1 : SnapBounded (updHead h (fun r => { r with out := none }) s) := hs.of_eq rfl
  unfold Machine.answerHead
  split
  · exact hs
  · dsimp only
    apply hn
    split
    · exact SnapBounded.judgeCalibration _ _ _ _ h1
    · exact h1.of_eq (by simp)
    · exact h1

theorem SnapBounded.failHead (h : Head) (s : State) (hs : SnapBounded s) : SnapBounded (failHead h s) := by
  have hl : ∀ t, SnapBounded t → SnapBounded (loseHead h .b2 (loseHead h .b1 (loseHead h .b0 t))) := fun t ht => ht.of_eq (by simp)
  exact hl _ (SnapBounded.headTo h .failed _ (hs.of_eq rfl))

theorem SnapBounded.limitHead (s : State) (h : Head) (hs : SnapBounded s) : SnapBounded (limitHead s h) := by
  unfold Machine.limitHead
  split
  · exact SnapBounded.failHead _ _ hs
  · exact SnapBounded.failHead _ _ hs
  · exact SnapBounded.failHead _ _ hs
  · exact hs
  · exact hs

theorem SnapBounded.headRetry (h : Head) (s : State) (hs : SnapBounded s) : SnapBounded (doHeadRetry h s).1 := by
  unfold doHeadRetry
  split
  · exact (SnapBounded.headTo h .cold s hs).of_eq (by simp)
  · exact hs

/-- The bound of UTILISATION is kept by every part of an event. -/
theorem snapBounded_parts : Parts SnapBounded := by
  constructor
  case drained => exact SnapBounded.checkDrained
  case reset => exact fun _ _ _ => Nat.zero_le _
  case belt => exact fun m s h => h.of_eq (by unfold travelStep; dsimp only; (repeat' split) <;> rfl)
  case answer => exact SnapBounded.answerHead
  case failHead => exact SnapBounded.failHead
  case warmEnd => exact fun s _ h => (foldl_keeps SnapBounded.limitHead Head.all s h).of_eq (by simp)
  case drain => exact fun c s _ => SnapBounded.enterDrain c s
  case snapshot => exact fun _ _ => utilisationOf_le _
  case zero => exact fun _ _ _ => Nat.zero_le _
  case headRetry => exact fun h s _ => SnapBounded.headRetry h s
  all_goals intros; exact SnapBounded.of_eq ‹_› (by simp)

/-! ### The travel remainder and the record queue -/

/-- The bounds of the travel remainder (R168) and of the record queue (R174). -/
structure CountsBounded (s : State) : Prop where
  remainder : -3 ≤ s.cnb.remainder ∧ s.cnb.remainder ≤ 3
  records   : s.cnb.records.length ≤ 96

theorem CountsBounded.of_eq {s t : State} (hs : CountsBounded s) (h : t.cnb.remainder = s.cnb.remainder)
    (h' : t.cnb.records = s.cnb.records) : CountsBounded t :=
  ⟨by rw [h]; exact hs.remainder, by rw [h']; exact hs.records⟩

/-- The travel remainder passes 3 and -3 to 0 (R168). -/
theorem travelStep_bounded (m : Motion) (c : Cnb) (h : -3 ≤ c.remainder ∧ c.remainder ≤ 3) :
    -3 ≤ (travelStep m c).remainder ∧ (travelStep m c).remainder ≤ 3 := by
  unfold travelStep
  cases m <;> dsimp only <;> (repeat' split) <;> dsimp only <;> omega

theorem travelStep_records (m : Motion) (c : Cnb) : (travelStep m c).records = c.records := by
  unfold travelStep
  dsimp only
  (repeat' split) <;> rfl

/-- A record joins only below 96 of them (R174). -/
theorem CountsBounded.offerRecord (r : LetterRecord) (s : State) (hs : CountsBounded s) : CountsBounded (offerRecord r s) := by
  refine ⟨by simpa using hs.remainder, ?_⟩
  unfold Machine.offerRecord
  split
  · exact hs.records
  · split
    · have h : (s.cnb.records ++ [r]).length ≤ 96 := by simpa
      dsimp only
      split <;> exact h
    · exact hs.records

theorem CountsBounded.stackAct (n : LetterNo) (s : State) (hs : CountsBounded s) : CountsBounded (stackAct n s) := by
  unfold Machine.stackAct
  split
  · exact hs
  · split
    · exact hs
    · rename_i e _ _ q _
      dsimp only
      generalize hu : count (countStacking e q) _ = u
      have h : CountsBounded u := hs.of_eq (by rw [← hu]; simp) (by rw [← hu]; simp)
      exact (CountsBounded.offerRecord (recordOf e (.stacked q)) u h).of_eq (by simp) (by simp)

theorem CountsBounded.clearEntry (s : State) (e : Entry) (hs : CountsBounded s) : CountsBounded (clearEntry s e) := by
  have hr : ∀ t, CountsBounded t → CountsBounded (removeEntry e.number t) := fun t ht => ht.of_eq (by simp) (by simp)
  unfold Machine.clearEntry
  dsimp only
  refine hr _ (CountsBounded.offerRecord _ _ ?_)
  split
  · exact hs.of_eq (by simp) (by simp)
  · exact hs.of_eq rfl rfl

/-- The bounds of the Count Bank are kept by every part of an event. -/
theorem countsBounded_parts : Parts CountsBounded := by
  constructor
  case reset => exact fun _ _ _ => ⟨by simp [resetPart, resetCnb], Nat.zero_le _⟩
  case belt =>
    intro m s h
    dsimp only
    split
    · exact ⟨travelStep_bounded m _ h.remainder, by simpa [travelStep_records] using h.records⟩
    · exact h.of_eq rfl rfl
  case stack => exact fun n s _ => CountsBounded.stackAct n s
  case recordSent =>
    exact fun s h => ⟨by simpa using h.remainder,
      (by unfold recordSent; dsimp only; split <;> exact (List.tail_sublist _).length_le.trans h.records)⟩
  case clearing => exact fun s _ h => (foldl_keeps CountsBounded.clearEntry s.trk.table s h).of_eq (by simp [lineClearing]) (by simp [lineClearing])
  case zero => exact fun s _ h => ⟨by simp, h.records⟩
  all_goals intros; exact CountsBounded.of_eq ‹_› (by simp) (by simp)

/-! ### All bounds together -/

/-- The bounds of all blocks are those of each. -/
theorem bounded_iff (s : State) : Bounded s ↔
    TrackBounded s ∧ QueuesBounded s ∧ FaultCountBounded s ∧ SnapBounded s ∧ CountsBounded s ∧ LinkBounded s := by
  constructor
  · intro h
    exact ⟨⟨h.table, h.samples, h.speed⟩, h.queues, h.faultCount, h.utilisation, ⟨h.remainder, h.records⟩, ⟨h.answers, h.waiting, h.line⟩⟩
  · rintro ⟨ht, hq, hf, hu, hc, hl⟩
    exact ⟨ht.table, ht.samples, ht.speed, hq, hf, hc.remainder, hu, hc.records, hl.answers, hl.waiting, hl.line⟩

/-- Settles O13: each block's bounds are kept by every step. -/
theorem boundsKept : Obligations.BoundsKept := by
  intro s t hs hstep
  obtain ⟨ht, hq, hf, hu, hc, hl⟩ := (bounded_iff s).1 hs
  exact (bounded_iff t).2 ⟨trackBounded_parts.kept.step hstep ht, queuesBounded_parts.kept.step hstep hq,
    faultCountBounded_parts.kept.step hstep hf, snapBounded_parts.kept.step hstep hu, countsBounded_parts.kept.step hstep hc,
    linkBounded_kept.step hstep hl⟩

end Sys2Proof.Proofs
end

