-- ==== Sys2Proof/Proofs/Letters.lean ====
section
/-! PROOF. Letter numbers, their order and the shape of the entries are kept by every step (O3): the causes of early dispositions, the shape
a decision leaves, and the letters a command adds or removes. -/

namespace Sys2Proof.Proofs

open Sys2Proof Sys2Proof.Machine Sys2Proof.Safety Sys2Proof.Laws

/-! ### Findings: what R8 says of an entry -/

/-- The part of an entry that R8 speaks of: its early disposition and its reject cause. -/
def finding (e : Entry) : Option Early × Option RejectCause :=
  (e.early, e.cause)

/-- The findings of the Letter Table. -/
def findings (s : State) : List (Option Early × Option RejectCause) :=
  s.trk.table.map finding

theorem findings_of_table {s t : State} (h : t.trk.table = s.trk.table) : findings t = findings s := by
  rw [findings, h, findings]

/-- A change of an entry that leaves its finding leaves the table's. -/
theorem updEntry_findings (n : LetterNo) {f : Entry → Entry} (hf : ∀ e, finding (f e) = finding e) (s : State) :
    findings (updEntry n f s) = findings s := by
  simp only [findings, updEntry]
  induction s.trk.table with
  | nil => rfl
  | cons e l ih =>
    unfold updTable
    split
    · simp [hf]
    · simp [ih]

@[simp] theorem writeOutcome_findings (n : LetterNo) (o : CancelOutcome) (s : State) : findings (writeOutcome n o s) = findings s :=
  updEntry_findings n (by intro; rfl) _

@[simp] theorem updJob_findings (n : LetterNo) (f : CancelJob → CancelJob) (s : State) : findings (updJob n f s) = findings s :=
  updEntry_findings n (by intro; rfl) _

@[simp] theorem updCanc_findings (c : Stream) (f : CancRec → CancRec) (s : State) : findings (updCanc c f s) = findings s := rfl

@[simp] theorem cancTo_findings (c : Stream) (x : CancState) (s : State) : findings (cancTo c x s) = findings s :=
  findings_of_table (by simp)

@[simp] theorem sendFrame_findings (c : Stream) (f : Frame) (s : State) : findings (sendFrame c f s) = findings s := rfl

@[simp] theorem releaseHeld_findings (c : Stream) (o : CancelOutcome) (s : State) : findings (releaseHeld c o s) = findings s := by
  unfold releaseHeld
  dsimp only
  split <;> simp

@[simp] theorem releaseDeferred_findings (c : Stream) (o : CancelOutcome) (s : State) :
    findings (releaseDeferred c o s) = findings s := by
  unfold releaseDeferred
  dsimp only
  split <;> simp

@[simp] theorem cancFault_findings (c : Stream) (x : CancCause) (o : Option CancelOutcome) (s : State) :
    findings (cancFault c x o s) = findings s := by
  unfold cancFault
  split
  · rfl
  · cases o <;> simp

@[simp] theorem armLetter_findings (c : Stream) (n : LetterNo) (s : State) : findings (armLetter c n s) = findings s := by
  unfold armLetter
  split
  · rfl
  · split
    · rfl
    · simp only [cancTo_findings, updCanc_findings, sendFrame_findings]
      exact updEntry_findings n (by intro; rfl) _

@[simp] theorem cancReady_findings (c : Stream) (s : State) : findings (cancReady c s) = findings s := by
  unfold cancReady
  dsimp only
  split <;> simp

@[simp] theorem cancOverheat_findings (c : Stream) (s : State) : findings (cancOverheat c s) = findings s := by
  simp [cancOverheat]

@[simp] theorem cancReadyOrHot_findings (c : Stream) (s : State) : findings (cancReadyOrHot c s) = findings s := by
  unfold cancReadyOrHot
  split <;> simp

@[simp] theorem cancStop_findings (c : Stream) (s : State) : findings (cancStop c s) = findings s := by
  unfold cancStop
  split <;> simp

@[simp] theorem cancRemoved_findings (c : Stream) (n : LetterNo) (s : State) : findings (cancRemoved c n s) = findings s := by
  unfold cancRemoved
  dsimp only
  split <;> split <;> simp

/-- A fault stop strands every letter, and gives none a finding (R155). -/
@[simp] theorem faultStop_findings (call : FaultCall) (s : State) : findings (faultStop call s) = findings s := by
  have hb : ∀ t, findings (stopBlocks t) = findings t := fun t => by
    simp [findings, stopBlocks, finding, strand, Function.comp_def]
  unfold faultStop
  split
  · simp only [cancStop_findings, hb]
    exact findings_of_table (by simp [count])
  · rfl

@[simp] theorem updBuf_findings (b : Buf) (f : BufRec → BufRec) (s : State) : findings (updBuf b f s) = findings s := rfl

@[simp] theorem takeUp_findings (s : State) : findings (takeUp s) = findings s := by
  unfold takeUp
  split
  · exact updEntry_findings _ (by intro; rfl) _
  · rfl

@[simp] theorem checkComplete_findings (b : Buf) (s : State) : findings (checkComplete b s) = findings s := by
  unfold checkComplete
  dsimp only
  split
  · split
    · split
      · rw [takeUp_findings]
        exact updEntry_findings _ (by intro; rfl) _
      · rfl
    · rfl
  · rfl

@[simp] theorem scanAnswer_findings (h : Head) (p : Pulse) (v : Sample) (s : State) : findings (scanAnswer h p v s) = findings s := by
  unfold scanAnswer
  split <;> simp

@[simp] theorem answerHead_findings (h : Head) (v : Sample) (s : State) : findings (answerHead h v s) = findings s := by
  have hn : ∀ t, findings (tryCalibrate (updHead h (sendNext t.trk.belt) t)) = findings t := fun t => findings_of_table (by simp)
  unfold answerHead
  split
  · rfl
  · dsimp only
    rw [hn]
    split
    · exact findings_of_table (by simp)
    · rw [scanAnswer_findings]; rfl
    · rfl

@[simp] theorem loseHead_findings (h : Head) (b : Buf) (s : State) : findings (loseHead h b s) = findings s := by
  unfold loseHead
  dsimp only
  split
  · split
    · split <;> simp
    · rfl
  · rfl

@[simp] theorem failHead_findings (h : Head) (s : State) : findings (failHead h s) = findings s := by
  unfold failHead
  simp only [loseHead_findings]
  exact findings_of_table (by simp)

@[simp] theorem limitHead_findings (s : State) (h : Head) : findings (limitHead s h) = findings s := by
  unfold limitHead
  split <;> simp

@[simp] theorem writeResult_findings (n : LetterNo) (r : MarkResult) (s : State) : findings (writeResult n r s) = findings s := by
  unfold writeResult
  split
  · rfl
  · split
    · exact updEntry_findings _ (by intro; rfl) _
    · rfl

@[simp] theorem deliver_findings (i : SlotItem) (s : State) : findings (deliver i s) = findings s := by
  have hs : ∀ t : State, findings { t with mkf := { t.mkf with slot := none } } = findings t := fun _ => rfl
  have hr : ∀ l r t, findings (returnBuf i l r t) = findings t := fun _ _ _ => findings_of_table (by simp)
  unfold deliver
  dsimp only
  rw [takeUp_findings, hs]
  split
  · rfl
  · rw [hr, writeResult_findings]

@[simp] theorem armAct_findings (n : LetterNo) (s : State) : findings (armAct n s) = findings s := by
  unfold armAct
  split
  · rfl
  · dsimp only
    (repeat' split) <;> simp

@[simp] theorem fireAct_findings (n : LetterNo) (s : State) : findings (fireAct n s) = findings s := by
  unfold fireAct
  split
  · rfl
  · dsimp only
    (repeat' split) <;> simp

@[simp] theorem exitAct_findings (n : LetterNo) (s : State) : findings (exitAct n s) = findings s := by
  have hc : ∀ t, findings (tryCalibrate t) = findings t := fun _ => findings_of_table (by simp)
  unfold exitAct
  rw [hc]
  exact updEntry_findings _ (by intro; rfl) _

@[simp] theorem moduleTrouble_findings (c : Stream) (s : State) : findings (moduleTrouble c s) = findings s := by
  simp [moduleTrouble]

@[simp] theorem bandAct_findings (c : Stream) (b : Band) (s : State) : findings (bandAct c b s) = findings s := by
  unfold bandAct
  split <;> simp

@[simp] theorem statusAct_findings (c : Stream) (m : ModuleState) (b : Band) (s : State) :
    findings (statusAct c m b s) = findings s := by
  unfold statusAct
  dsimp only
  split <;> simp

@[simp] theorem parityAct_findings (c : Stream) (s : State) : findings (parityAct c s) = findings s := by
  have hc : ∀ (f : Bank → Bank) t, findings (count f t) = findings t := fun _ _ => rfl
  have hf : ∀ k d t, findings (setFlag k d t) = findings t := fun _ _ _ => rfl
  unfold parityAct
  dsimp only
  split <;> split <;> simp [hc, hf]

/-! ### Every early disposition has its cause (R8) -/

/-- Every entry with an early disposition has a reject cause (R8). -/
def CausesGiven (s : State) : Prop :=
  ∀ f ∈ findings s, f.1.isSome = true → f.2.isSome = true

theorem CausesGiven.of_findings {s t : State} (hs : CausesGiven s) (h : findings t = findings s) : CausesGiven t := by
  rw [CausesGiven, h]; exact hs

theorem CausesGiven.of_table {s t : State} (hs : CausesGiven s) (h : t.trk.table = s.trk.table) : CausesGiven t :=
  hs.of_findings (findings_of_table h)

theorem causesGiven_iff (s : State) : CausesGiven s ↔ ∀ e ∈ s.trk.table, e.early.isSome = true → e.cause.isSome = true := by
  simp [CausesGiven, findings, finding]

theorem CausesGiven.sublist {s t : State} (hs : CausesGiven s) (h : t.trk.table.Sublist s.trk.table) : CausesGiven t :=
  (causesGiven_iff t).2 fun e he => (causesGiven_iff s).1 hs e (h.subset he)

/-- A change of one entry keeps the causes where it keeps that entry's. -/
theorem CausesGiven.updEntry {s : State} (hs : CausesGiven s) (n : LetterNo) {f : Entry → Entry}
    (hf : ∀ e, (e.early.isSome = true → e.cause.isSome = true) → (f e).early.isSome = true → (f e).cause.isSome = true) :
    CausesGiven (updEntry n f s) := by
  rw [causesGiven_iff] at hs ⊢
  intro x hx
  rcases mem_updTable hx with hx | ⟨e, he, rfl⟩
  · exact hs x hx
  · exact hf e (hs e (find_number he).1)

/-- An early disposition is given with a cause (R8). -/
theorem withEarly_cause (d : Early) (e : Entry) (h : e.early.isSome = true → e.cause.isSome = true) :
    (withEarly d e).early.isSome = true → (withEarly d e).cause.isSome = true := by
  unfold withEarly
  split
  · exact h
  · intro _
    cases e.cause <;> rfl

/-- A decision keeps a cause that stands (R82). -/
theorem writeDecision_cause (d : Decision) (j : Option CancelJob) (e : Entry) (h : e.early.isSome = true → e.cause.isSome = true) :
    (writeDecision d j e).early.isSome = true → (writeDecision d j e).cause.isSome = true := by
  intro he
  obtain ⟨c, hc⟩ := Option.isSome_iff_exists.1 (h he)
  simp [writeDecision, hc]

theorem CausesGiven.removeEntry (n : LetterNo) {s : State} (hs : CausesGiven s) : CausesGiven (removeEntry n s) := by
  have hg : ∀ t, findings (Gate.all.foldl (gateRemoved n) t) = findings t := fun t => findings_of_table (by simp)
  have hc : ∀ t, findings (tryCalibrate t) = findings t := fun t => findings_of_table (by simp)
  have hw : (withdraw n s).trk.table = dropEntry n s.trk.table := by
    unfold withdraw
    dsimp only
    split <;> rfl
  have h1 : CausesGiven (withdraw n s) := hs.sublist (hw ▸ dropEntry_sublist n _)
  refine h1.of_findings ?_
  rw [removeEntry_eq, hc, cancRemoved_findings, cancRemoved_findings, hg]

theorem CausesGiven.stackAct (n : LetterNo) (s : State) (hs : CausesGiven s) : CausesGiven (stackAct n s) := by
  unfold Machine.stackAct
  split
  · exact hs
  · split
    · exact hs
    · rename_i e _ _ q _
      dsimp only
      generalize hu : sweepIfClear q (follow q (updPocket q _ s)) = u
      have h : CausesGiven u := hs.of_table (by rw [← hu]; simp)
      exact (h.removeEntry n).of_table (by simp)

theorem CausesGiven.selectAct (n : LetterNo) (s : State) (hs : CausesGiven s) : CausesGiven (selectAct n s) := by
  have hc : ∀ q l, CausesGiven (commit n q l s) := fun q l =>
    commit_keeps (fun _ _ h => h.of_findings (by simp)) (fun _ _ _ h => h.of_table rfl) n q l s <|
      CausesGiven.updEntry (hs.of_table rfl) n fun e h he => by
        dsimp only at he ⊢
        split
        · rfl
        · exact h he
  unfold Machine.selectAct
  split
  · exact hs
  · split <;> exact hc _ _

theorem CausesGiven.dpAct (n : LetterNo) (s : State) (hs : CausesGiven s) : CausesGiven (dpAct n s) :=
  dpAct_keeps (fun _ _ h => h.of_findings (by simp)) (fun _ _ _ h => h.of_table rfl) (fun _ _ h => h.of_table rfl)
    (fun _ _ _ h => h.of_table rfl) (fun _ _ h => h.of_findings (by simp)) (fun _ _ h => h.of_findings (by simp)) n s hs
    (fun _ _ => hs.updEntry n (writeDecision_cause _ _))

theorem CausesGiven.shAct (n : LetterNo) (s : State) (hs : CausesGiven s) : CausesGiven (shAct n s) := by
  have h1 : CausesGiven (Machine.updEntry n (fun e => { e with shTaken := true }) s) := hs.updEntry n fun _ h => h
  have hr : ∀ t, CausesGiven t → CausesGiven (refuseScan n t) := fun t ht =>
    CausesGiven.of_table (s := Machine.updEntry n (withEarly .unscanned) t) (ht.updEntry n (withEarly_cause _)) rfl
  unfold Machine.shAct
  split
  · exact hs
  · dsimp only
    split
    · exact h1
    · split
      · exact hr _ h1
      · split
        · exact CausesGiven.updEntry (h1.of_table rfl) n fun _ h => h
        · exact hr _ h1

theorem CausesGiven.induct (a : Pos) (s : State) (hs : CausesGiven s) : CausesGiven (induct a s) := by
  unfold Machine.induct
  split
  · exact hs.of_findings (by simp)
  · dsimp only
    generalize hx : (if gapShort s a then _ else _ : Entry) = x
    have hc : x.early.isSome = true → x.cause.isSome = true := by
      rw [← hx]
      split
      · exact withEarly_cause _ _ nofun
      · exact nofun
    rw [causesGiven_iff] at hs ⊢
    have ht : ∀ t : State, t.trk.table = s.trk.table ++ [x] →
        ∀ e ∈ t.trk.table, e.early.isSome = true → e.cause.isSome = true := by
      intro t ht e he
      rw [ht, List.mem_append, List.mem_singleton] at he
      rcases he with he | rfl
      · exact hs e he
      · exact hc
    split <;> exact ht _ rfl

theorem CausesGiven.pe0Tail (n : LetterNo) (p : Pos) (s : State) (hs : CausesGiven s) : CausesGiven (pe0Tail n p s) := by
  unfold Machine.pe0Tail
  dsimp only
  split
  · exact hs.of_table rfl
  · refine CausesGiven.of_table (CausesGiven.updEntry (hs.of_table rfl) n fun e h => ?_) rfl
    split
    · exact withEarly_cause _ _ h
    · exact h

theorem CausesGiven.secondLength (n : LetterNo) (l : Int) (s : State) (hs : CausesGiven s) : CausesGiven (secondLength n l s) :=
  hs.updEntry n fun e h => by
    dsimp only
    split
    · exact withEarly_cause _ _ h
    · exact h

/-- That every early disposition has its cause is kept by every part of an event (R8). -/
theorem causesGiven_parts : Parts CausesGiven := by
  constructor
  case reset => exact fun _ _ _ => nofun
  case overLength => exact fun n s _ h => CausesGiven.updEntry (h.of_table rfl) n (withEarly_cause _)
  case sh => exact CausesGiven.shAct
  case dp => exact fun n s _ => CausesGiven.dpAct n s
  case select => exact fun n s _ => CausesGiven.selectAct n s
  case stack => exact fun n s _ => CausesGiven.stackAct n s
  case induct => exact fun a s _ _ => CausesGiven.induct a s
  case tail => exact CausesGiven.pe0Tail
  case corrected =>
    intro c n a m d s h
    refine CausesGiven.of_table (h.updEntry n ?_) rfl
    exact fun _ h => h
  case second => exact CausesGiven.secondLength
  case doneLimit => exact fun n c s _ h => h.of_findings (by simp [doneLimitAct])
  case warmEnd =>
    exact fun s _ h => (foldl_keeps (fun t x ht => ht.of_findings (limitHead_findings t x)) Head.all s h).of_table (by simp)
  case sensorQualified =>
    exact sensorQualified_keeps (fun _ _ h => h.of_findings (by simp)) (fun _ _ _ h => h.of_table rfl) (fun _ _ _ h => h.of_table rfl)
      (fun _ _ h => h.of_table (by simp))
  case clearing => exact fun s _ h => (causesGiven_iff _).2 (by simp [lineClearing_table])
  case speed => exact fun s h => h.of_table rfl
  case primed => exact fun c s _ h => h.of_findings (by simp)
  case done => exact fun c o n s _ _ h => h.of_findings (by simp)
  case moduleFault => exact fun c x s _ h => h.of_findings (by simp)
  case replyTimeout => exact fun c s _ h => h.of_findings (by simp)
  case primeTimeout => exact fun c s _ h => h.of_findings (by simp)
  case status | exit | faultStop | arm | fire | answer | failHead | deliver | parity =>
    intros; exact CausesGiven.of_findings ‹_› (by simp)
  all_goals intros; exact CausesGiven.of_table ‹_› (by simp)

/-! ### Numbers above 0 and the shape a decision leaves (R6, R7, R77, R82) -/

/-- The part of an entry's shape that its core shows: its number, path, stream, pocket and job. -/
structure CoreShaped (e : Entry) : Prop where
  number    : e.number ≠ 0
  undecided : e.path = none → e.stream = none ∧ e.job = none ∧ e.pocket = none
  rejected  : e.path = some .reject → e.stream = none
  faced     : e.path = some .straight ∨ e.path = some .twist → e.stream.isSome = true
  cancelled : e.job.isSome = true → e.stream.isSome = true

/-- The shape depends on the core alone. -/
theorem CoreShaped.of_core {e f : Entry} (he : CoreShaped e) (h : f.core = e.core) : CoreShaped f := by
  simp only [Entry.core, Prod.mk.injEq] at h
  obtain ⟨hn, hp, hs, hq, hj, -⟩ := h
  have hj' : f.job = none ↔ e.job = none := by
    rw [← Option.not_isSome_iff_eq_none, ← Option.not_isSome_iff_eq_none, hj]
  constructor
  · rw [hn]; exact he.number
  · rw [hp, hs, hj', hq]; exact he.undecided
  · rw [hp, hs]; exact he.rejected
  · rw [hp, hs]; exact he.faced
  · rw [hj, hs]; exact he.cancelled

/-- The next letter number is not 0, and every entry has the shape its core shows. -/
structure LettersShaped (s : State) : Prop where
  next    : s.trk.nextNumber ≠ 0
  entries : ∀ e ∈ s.trk.table, CoreShaped e

theorem LettersShaped.of_cores {s t : State} (hs : LettersShaped s)
    (h : t.trk.table.map Entry.core = s.trk.table.map Entry.core) (hn : t.trk.nextNumber = s.trk.nextNumber) : LettersShaped t := by
  refine ⟨hn ▸ hs.next, fun e he => ?_⟩
  obtain ⟨f, hf, hc⟩ := List.mem_map.1 (h ▸ List.mem_map_of_mem (f := Entry.core) he)
  exact (hs.entries f hf).of_core hc.symm

theorem LettersShaped.updEntry {s : State} (hs : LettersShaped s) {n : LetterNo} {f : Entry → Entry}
    (hf : ∀ e, s.entry? n = some e → CoreShaped e → CoreShaped (f e)) : LettersShaped (updEntry n f s) := by
  refine ⟨hs.next, fun x hx => ?_⟩
  rcases mem_updTable hx with hx | ⟨e, he, rfl⟩
  · exact hs.entries x hx
  · exact hf e he (hs.entries e (find_number he).1)

/-- A letter stranded keeps its shape (R155). -/
theorem LettersShaped.faultStop {s : State} (hs : LettersShaped s) (call : FaultCall) : LettersShaped (faultStop call s) := by
  have h := faultStop_cores call s
  split at h
  · refine LettersShaped.of_cores (s := { s with trk := { s.trk with table := s.trk.table.map strand } }) ⟨hs.next, ?_⟩ h (by simp)
    intro x hx
    obtain ⟨e, he, rfl⟩ := List.mem_map.1 hx
    have hc := hs.entries e he
    exact ⟨hc.number, hc.undecided, hc.rejected, hc.faced, hc.cancelled⟩
  · exact hs.of_cores h (by simp)

/-- A decision gives a stream exactly to a letter of the main line (R79, R82). -/
def Streamed (d : Decision) : Prop :=
  d.stream.isSome = true ↔ d.path ≠ .reject

theorem rejectFor_streamed (c : RejectCause) : Streamed (rejectFor c) := by
  simp [Streamed, rejectFor]

theorem faceBy_streamed (p : Profile) (o : Orient) : Streamed (faceBy p o) := by
  have hr := rejectFor_streamed .noTwist
  cases o <;> simp only [faceBy]
  · simp [Streamed]
  · simp [Streamed]
  · split
    · simp [Streamed]
    · exact hr
  · split
    · simp [Streamed]
    · exact hr

theorem decideResult_streamed (p : Profile) (r : MarkResult) : Streamed (decideResult p r) := by
  have hface : ∀ o : Option Orient, Streamed ((o.map (faceBy p)).getD (rejectFor .noMark)) := fun o => by
    cases o
    · exact rejectFor_streamed _
    · exact faceBy_streamed p _
  unfold decideResult
  split
  · exact rejectFor_streamed _
  · exact rejectFor_streamed _
  · exact rejectFor_streamed _
  · split
    · exact rejectFor_streamed _
    · exact hface _
  · exact hface _
  · exact hface _

theorem firstDecision_streamed (p : Profile) (e : Entry) : Streamed (firstDecision p e) := by
  unfold firstDecision
  split
  · simp [Streamed]
  · split
    · exact decideResult_streamed _ _
    all_goals exact rejectFor_streamed _

theorem finalDecision_streamed (s : State) (e : Entry) : Streamed (finalDecision s e) := by
  have hd := firstDecision_streamed s.pfs.profile e
  have hm : ∀ b : Bool, Streamed (if b then firstDecision s.pfs.profile e else rejectFor .merge) := fun b => by
    cases b
    · exact rejectFor_streamed _
    · exact hd
  unfold finalDecision
  dsimp only
  split
  · exact hd
  · exact hm _
  · exact hm _

/-- A cancel job is made for a letter with a stream alone (R83). -/
theorem makeJob_stream (s : State) (e : Entry) (d : Decision) (h : (makeJob s e d).isSome = true) : d.stream.isSome = true := by
  unfold makeJob at h
  split at h
  · rename_i hs _ _; rw [hs]; rfl
  · cases h

/-- The shape a decision leaves (R82). -/
theorem writeDecision_shaped {d : Decision} {j : Option CancelJob} (hd : Streamed d) (hj : j.isSome = true → d.stream.isSome = true)
    {e : Entry} (he : CoreShaped e) : CoreShaped (writeDecision d j e) where
  number := he.number
  undecided := nofun
  rejected h := by
    have hp : d.path = .reject := Option.some.inj h
    have : ¬ d.stream.isSome = true := fun hs => hd.1 hs hp
    exact Option.not_isSome_iff_eq_none.1 this
  faced h := hd.2 fun hr => by
    have hp : some d.path = some .straight ∨ some d.path = some .twist := h
    rw [hr] at hp
    simp at hp
  cancelled := hj

theorem LettersShaped.dpAct (n : LetterNo) (s : State) (hs : LettersShaped s) : LettersShaped (dpAct n s) :=
  dpAct_keeps (fun c _ h => h.faultStop c) (fun _ _ _ h => h.of_cores rfl rfl) (fun _ _ h => h.of_cores rfl rfl)
    (fun _ _ _ h => h.of_cores rfl rfl) (fun _ _ h => h.of_cores (by simp) (by simp)) (fun _ _ h => h.of_cores (by simp) (by simp)) n s hs
    (fun e _ => hs.updEntry fun _ _ => writeDecision_shaped (finalDecision_streamed s e) (makeJob_stream s e _))

/-- A commitment is of a letter with a path (R124, R128). -/
theorem LettersShaped.selectAct (n : LetterNo) (s : State) (hd : due s n .select = true) (hs : LettersShaped s) :
    LettersShaped (selectAct n s) := by
  obtain ⟨e, he, hp, -, -⟩ := due_select hd
  have hc : ∀ q l, LettersShaped (commit n q l s) := fun q l => by
    have hu : LettersShaped (updPocket q (fun r => { r with committed := r.committed + 1 }) s) := hs.of_cores rfl rfl
    refine commit_keeps (fun c _ h => h.faultStop c) (fun _ _ _ h => h.of_cores rfl rfl) n q l s (hu.updEntry ?_)
    intro f hf h
    have hfe : s.entry? n = some f := hf
    rw [he] at hfe
    cases hfe
    exact ⟨h.number, fun hn => absurd hn hp, h.rejected, h.faced, h.cancelled⟩
  unfold Machine.selectAct
  split
  · exact hs
  · split <;> exact hc _ _

theorem LettersShaped.stackAct (n : LetterNo) (s : State) (hs : LettersShaped s) : LettersShaped (stackAct n s) := by
  have h := stackAct_cores n s
  split at h
  · refine LettersShaped.of_cores (s := { s with trk := { s.trk with table := dropEntry n s.trk.table } }) ⟨hs.next, ?_⟩ h (by simp)
    exact fun e he => hs.entries e ((dropEntry_sublist n _).subset he)
  · exact hs.of_cores h (by simp)

/-- The letter number after one that is not 0 is not 0 (R7). -/
theorem nextLetter_ne_zero (n : LetterNo) : nextLetter n ≠ 0 := by
  unfold nextLetter
  split
  · decide
  · rename_i h
    intro h0
    exact h (by rw [show n = n + 1 - 1 by simp, h0]; rfl)

/-- The entry an induction adds, the gap check taken (R6, R12). -/
def inductedEntry (a : Pos) (s : State) : Entry :=
  if gapShort s a then withEarly .gap (newEntry s.trk.nextNumber a) else newEntry s.trk.nextNumber a

/-- An induction below 64 entries, up to the hold cause TABLE (R10). -/
def inducted (a : Pos) (s : State) : State :=
  count (fun b => { b with flow := { b.flow with inducted := b.flow.inducted + 1 } })
    (updSup .pe1 (fun r => { r with expected := insertByAge id s.trk.nextNumber r.expected })
      { s with trk := { s.trk with
          table := s.trk.table ++ [inductedEntry a s], nextNumber := nextLetter s.trk.nextNumber
          measuring := some s.trk.nextNumber, overTaken := false } })

/-- What an induction does below 64 entries (R10, R19). -/
theorem induct_eq {a : Pos} {s : State} (h : s.trk.table.length < 64) : induct a s =
    if s.trk.table.length + 1 = s.pfs.profile.holdAt then setHold .table true (inducted a s) else inducted a s := by
  unfold induct
  rw [if_neg (by omega)]
  dsimp only
  have hl : ∀ x : Entry, (s.trk.table ++ [x]).length = s.trk.table.length + 1 := by simp
  simp only [count_frame, updSup_frame, hl]
  rfl

/-- An induction at 64 entries is a fault stop (R11). -/
theorem induct_full {a : Pos} {s : State} (h : 64 ≤ s.trk.table.length) : induct a s = faultStop .overrunTable s := by
  unfold induct
  rw [if_pos h]

/-- The number an induction leaves next (R7, R10). -/
theorem induct_next {a : Pos} {s : State} (h : s.trk.table.length < 64) : (induct a s).trk.nextNumber = nextLetter s.trk.nextNumber := by
  rw [induct_eq h]
  split <;> rfl

theorem newEntry_shaped {n : LetterNo} (a : Pos) (h : n ≠ 0) : CoreShaped (newEntry n a) :=
  ⟨h, fun _ => ⟨rfl, rfl, rfl⟩, nofun, nofun, nofun⟩

theorem LettersShaped.induct (a : Pos) (s : State) (hs : LettersShaped s) : LettersShaped (induct a s) := by
  have h := induct_cores a s
  split at h
  · rename_i hl
    rw [induct_full hl]
    exact hs.faultStop _
  · rename_i hl
    refine LettersShaped.of_cores
      (s := { s with trk := { s.trk with
        table := s.trk.table ++ [newEntry s.trk.nextNumber a], nextNumber := nextLetter s.trk.nextNumber } })
      ⟨nextLetter_ne_zero _, fun e he => ?_⟩ (h.trans ?_) (induct_next (by omega))
    · rcases List.mem_append.1 he with he | he
      · exact hs.entries e he
      · rw [List.mem_singleton.1 he]
        exact newEntry_shaped a hs.next
    · simp [newEntry]

/-- The shape of the letters is kept by every part of an event. -/
theorem lettersShaped_parts : Parts LettersShaped := by
  constructor
  case reset => exact fun _ _ _ => ⟨by simp [resetPart, resetTrk], fun _ h => absurd h List.not_mem_nil⟩
  case faultStop => exact fun call s h => h.faultStop call
  case speed => exact fun s h => h.of_cores rfl rfl
  case dp => exact fun n s _ => LettersShaped.dpAct n s
  case select => exact LettersShaped.selectAct
  case stack => exact fun n s _ => LettersShaped.stackAct n s
  case induct => exact fun a s _ _ => LettersShaped.induct a s
  case sensorQualified =>
    exact sensorQualified_keeps (fun c _ h => h.faultStop c) (fun _ _ _ h => h.of_cores rfl rfl) (fun _ _ _ h => h.of_cores rfl rfl)
      (fun _ _ h => h.of_cores (by simp) (by simp))
  case clearing => exact fun s _ h => ⟨by simpa using h.next, by simp [lineClearing_table]⟩
  all_goals intros; exact LettersShaped.of_cores ‹_› (by simp) (by simp)

/-- An entry is shaped where its core is and its early disposition has a cause. -/
theorem shaped_iff (e : Entry) : e.number ≠ 0 ∧ Shaped e ↔ CoreShaped e ∧ (e.early.isSome = true → e.cause.isSome = true) := by
  constructor
  · rintro ⟨hn, h⟩
    exact ⟨⟨hn, h.undecided, h.rejected, h.faced, h.cancelled⟩, h.early⟩
  · rintro ⟨h, he⟩
    exact ⟨h.number, h.undecided, h.rejected, h.faced, h.cancelled, he⟩

/-- What the first part of O3 says, as two properties that every event keeps. -/
theorem letters_iff (s : State) : NumberedFromOne s ∧ (∀ e ∈ s.trk.table, Shaped e) ↔ LettersShaped s ∧ CausesGiven s := by
  rw [causesGiven_iff]
  constructor
  · rintro ⟨hn, hs⟩
    have h := fun e he => (shaped_iff e).1 ⟨hn.entries e he, hs e he⟩
    exact ⟨⟨hn.next, fun e he => (h e he).1⟩, fun e he => (h e he).2⟩
  · rintro ⟨hl, hc⟩
    have h := fun e he => (shaped_iff e).2 ⟨hl.entries e he, hc e he⟩
    exact ⟨⟨hl.next, fun e he => (h e he).1⟩, fun e he => (h e he).2⟩

/-! ### The letters an event leaves (R5, R18) -/

/-- Letters may have left the table, and none joined: the next number stands and the numbers left keep their order. -/
structure Thinned (s t : State) : Prop where
  next    : t.trk.nextNumber = s.trk.nextNumber
  numbers : (t.trk.table.map (·.number)).Sublist (s.trk.table.map (·.number))

theorem Thinned.refl (s : State) : Thinned s s := ⟨rfl, .refl _⟩

theorem Thinned.trans {s t u : State} (h : Thinned s t) (k : Thinned t u) : Thinned s u :=
  ⟨k.next.trans h.next, k.numbers.trans h.numbers⟩

theorem numbers_of_cores {l m : List Entry} (h : l.map Entry.core = m.map Entry.core) : l.map (·.number) = m.map (·.number) := by
  simpa [Function.comp_def] using congrArg (List.map (·.1)) h

theorem Thinned.of_cores {s t : State} (h : t.trk.table.map Entry.core = s.trk.table.map Entry.core)
    (hn : t.trk.nextNumber = s.trk.nextNumber) : Thinned s t :=
  ⟨hn, by rw [numbers_of_cores h]⟩

theorem Thinned.of_trk {s t : State} (h : t.trk = s.trk) : Thinned s t := .of_cores (by rw [h]) (by rw [h])

/-- What is done to the rest of the state before an event leaves the letters as they were. -/
theorem Thinned.after {s t u : State} (k : Thinned t u) (h : t.trk = s.trk) : Thinned s u := (Thinned.of_trk h).trans k

theorem Thinned.of_numbers {s t : State} (h : t.trk.table.map (·.number) = s.trk.table.map (·.number))
    (hn : t.trk.nextNumber = s.trk.nextNumber) : Thinned s t :=
  ⟨hn, by rw [h]⟩

theorem thinned_faultStop (call : FaultCall) (s : State) : Thinned s (faultStop call s) := by
  have h := faultStop_cores call s
  refine .of_numbers ?_ (by simp)
  split at h
  · rw [numbers_of_cores h, List.map_map]; rfl
  · exact numbers_of_cores h

/-- A change of an entry that leaves its number leaves the numbers. -/
theorem thinned_updEntry (n : LetterNo) {f : Entry → Entry} (hf : ∀ e, (f e).number = e.number) (s : State) :
    Thinned s (updEntry n f s) := by
  refine .of_numbers ?_ rfl
  simp only [updEntry]
  induction s.trk.table with
  | nil => rfl
  | cons e l ih =>
    unfold updTable
    split
    · simp [hf]
    · simp [ih]

theorem thinned_dpAct (n : LetterNo) (s : State) : Thinned s (dpAct n s) :=
  dpAct_keeps (P := Thinned s) (fun c _ h => h.trans (thinned_faultStop c _)) (fun _ _ _ h => h.trans (.of_trk rfl))
    (fun _ _ h => h.trans (.of_trk rfl)) (fun _ _ _ h => h.trans (.of_trk rfl))
    (fun _ _ h => h.trans (.of_cores (by simp) (by simp))) (fun _ _ h => h.trans (.of_cores (by simp) (by simp))) n s (.refl s)
    (fun _ _ => thinned_updEntry n (by intro; rfl) s)

theorem thinned_selectAct (n : LetterNo) (s : State) : Thinned s (selectAct n s) := by
  have hu : ∀ q, Thinned s (updPocket q (fun r => { r with committed := r.committed + 1 }) s) := fun _ => .of_trk rfl
  have hc : ∀ q l, Thinned s (commit n q l s) := fun q l =>
    commit_keeps (P := Thinned s) (fun c _ h => h.trans (thinned_faultStop c _)) (fun _ _ _ h => h.trans (.of_trk rfl)) n q l s
      ((hu q).trans (thinned_updEntry n (by intro; rfl) _))
  unfold selectAct
  split
  · exact .refl s
  · split <;> exact hc _ _

theorem thinned_stackAct (n : LetterNo) (s : State) : Thinned s (stackAct n s) := by
  have h := stackAct_cores n s
  split at h
  · exact ⟨by simp, by rw [numbers_of_cores h]; exact (dropEntry_sublist n _).map _⟩
  · exact .of_cores h (by simp)

/-- No action of a scheduled position adds a letter (R3). -/
theorem thinned_act (n : LetterNo) (k : PosKind) (s : State) : Thinned s (act n k s) := by
  cases k with
  | pe0Jam => exact thinned_faultStop _ s
  | missing c => exact thinned_faultStop _ s
  | dp => exact thinned_dpAct n s
  | select => exact thinned_selectAct n s
  | stacking => exact thinned_stackAct n s
  | _ => exact .of_cores (by simp [act]) (by simp)

theorem thinned_takeDue (n : LetterNo) (k : PosKind) (s : State) : Thinned s (takeDue n k s) := by
  unfold takeDue
  split
  · exact thinned_act n k s
  · exact .refl s

theorem thinned_sensorQualified (q : Pocket) (s : State) : Thinned s (sensorQualified q s) :=
  sensorQualified_keeps (P := Thinned s) (fun c _ h => h.trans (thinned_faultStop c _)) (fun _ _ _ h => h.trans (.of_trk rfl))
    (fun _ _ _ h => h.trans (.of_trk rfl)) (fun _ _ h => h.trans (.of_trk (by simp))) q s (.refl s)

/-- A request taken adds no letter, and CLEAR alone removes any (R157). -/
theorem thinned_perform (r : Request) (s : State) : Thinned s (perform r s).1 := by
  cases r with
  | clear o =>
    have hc : Thinned s (lineClearing s) := ⟨by simp, by simp [lineClearing_table]⟩
    simp only [perform, doClear]
    split
    · exact .of_trk rfl
    · split
      · exact .refl s
      · split
        · exact .refl s
        · split
          · exact .refl s
          · dsimp only
            split
            · exact hc.trans (.of_trk rfl)
            · exact hc
  | pockets q => cases q <;> exact .refl s
  | _ => exact .of_cores (by simp [perform]) (by simp)

theorem thinned_takeRequests (fuel : Nat) (s : State) : Thinned s (takeRequests fuel s) := by
  induction fuel generalizing s with
  | zero => exact .refl s
  | succ k ih =>
    simp only [takeRequests]
    split
    · exact .refl s
    · split
      · exact .refl s
      · exact (thinned_perform _ s).trans ((ih _).after (by rfl))

theorem thinned_submit (r : Request) (s : State) : Thinned s (submit r s) := by
  have hs : Thinned s (restartSilence s) := .of_trk rfl
  unfold submit
  dsimp only
  split
  · exact hs
  · split
    · exact hs.trans (.of_trk rfl)
    · split
      · exact hs.trans (.of_trk rfl)
      · exact hs.trans ((thinned_takeRequests 8 _).after (by rfl))

theorem thinned_receive (c : Byte) (f : Bool) (s : State) : Thinned s (receive c f s) := by
  unfold receive
  split
  · dsimp only
    split
    · exact .of_trk rfl
    · unfold completeLine
      split
      · exact .of_trk (by simp)
      · exact .of_trk (by simp)
      · exact .of_trk (by simp)
      · exact (thinned_submit _ _).after (by rfl)
  · exact .of_trk rfl

theorem thinned_writeEnd (p : Profile) (s : State) : Thinned s (writeEnd p s) :=
  (thinned_takeRequests 8 _).after (by rfl)

theorem Thinned.endEvent {s t : State} (h : Thinned s t) (r : State) : Thinned s (endEvent r t) :=
  h.trans (.of_trk (by simp))

theorem Thinned.endStacking {s t : State} (h : Thinned s t) (r : State) : Thinned s (endStacking r t) :=
  h.trans (.of_trk (by simp))

/-- One letter may have joined the table at its newest end, with the next number (R5, R7, R10). -/
structure Grown (s t : State) : Prop where
  next    : t.trk.nextNumber = nextLetter s.trk.nextNumber
  numbers : (t.trk.table.map (·.number)).Sublist (s.trk.table.map (·.number) ++ [s.trk.nextNumber])

theorem Grown.of_trk {s t u : State} (h : Grown s t) (k : u.trk = t.trk) : Grown s u :=
  ⟨by rw [k]; exact h.next, by rw [k]; exact h.numbers⟩

/-- An induction adds one letter, or strands them all (R10, R11). -/
theorem induct_letters (a : Pos) (s : State) : Thinned s (induct a s) ∨ Grown s (induct a s) := by
  by_cases hl : 64 ≤ s.trk.table.length
  · rw [induct_full hl]
    exact .inl (thinned_faultStop _ s)
  · have h := induct_cores a s
    rw [if_neg hl] at h
    have hn := congrArg (List.map (·.1)) h
    simp only [List.map_map, List.map_append, List.map_cons, List.map_nil, Function.comp_def, Entry.core_parts] at hn
    exact .inr ⟨induct_next (by omega), hn ▸ .refl _⟩

theorem thinned_pe0Tail (n : LetterNo) (p : Pos) (s : State) : Thinned s (pe0Tail n p s) :=
  .of_cores (by simp) (by simp)

theorem thinned_arrival (c : Sup) (a : Pos) (s : State) : Thinned s (arrival c a s) := by
  unfold arrival
  split
  · exact thinned_faultStop _ s
  · dsimp only
    split
    · exact thinned_faultStop _ s
    · split
      · exact thinned_faultStop _ s
      · unfold matched
        refine takeReached_keeps (P := Thinned s) (fun n k t _ h => h.trans (thinned_act n k t)) _ _ _ ?_
        exact .of_cores (by simp) (by simp)

theorem thinned_cellTail (c : Sup) (p : Pos) (s : State) : Thinned s (cellTail c p s) := by
  unfold cellTail
  split
  · exact .refl s
  · split
    · exact thinned_faultStop _ s
    · dsimp only
      split
      · exact .of_cores (by simp) (by simp)
      · exact .of_trk rfl

/-- A photocell's qualified edge adds at most one letter, and only an edge of PE0 adds one (R9, R10). -/
theorem edge_letters (c : Photocell) (l : Level) (p : Pos) (s : State) : Thinned s (edge c l p s) ∨ Grown s (edge c l p s) := by
  unfold edge
  split
  · split
    · exact induct_letters p s
    · exact .inl (.refl s)
  · split
    · exact .inl (thinned_pe0Tail _ p s)
    · exact .inl (.refl s)
  · split
    · exact .inl (thinned_arrival _ p s)
    · exact .inl (.refl s)
  · split
    · exact .inl (thinned_cellTail _ p s)
    · exact .inl (.refl s)

theorem qualify_letters (c : Photocell) (ch : Change) (s : State) : Thinned s (qualify c ch s) ∨ Grown s (qualify c ch s) := by
  have hc : ∀ t, (tryCalibrate t).trk = t.trk := fun t => by simp
  have hg : ∀ t, Grown (updCell c (fun r => { r with qual := r.raw, change := none }) s) t → Grown s t := fun t h => ⟨h.next, h.numbers⟩
  have h := edge_letters c (s.pcm.cells.get c).raw ch.pos (updCell c (fun r => { r with qual := r.raw, change := none }) s)
  unfold qualify
  dsimp only
  split
  · exact h.imp (fun h => (h.trans (.of_trk (hc _))).after rfl) (fun h => (hg _ h).of_trk (hc _))
  · exact h.imp (fun h => h.after rfl) (hg _)

/-- The letters after a command: none joined, one joined, or none left at a reset (R5, R10, R198). -/
theorem exec_letters {c : Instr} {s t : State} (h : exec c s = .next t) : Thinned s t ∨ Grown s t ∨ t.trk.table = [] := by
  cases c
  case powerOnReset => cases h; exact .inr (.inr rfl)
  case transmitLineComplete =>
    cases h
    unfold transmitComplete
    split
    · exact .inl (.refl s)
    · split
      · exact .inr (.inr rfl)
      · exact .inl (.of_trk (by simp))
  case photocellQualifyTravel x =>
    simp only [exec, execPhotocellQualifyTravel] at h
    split at h
    · cases h
      split
      · exact (qualify_letters x _ s).imp (fun h => h.endStacking s) fun h => .inl (h.of_trk (by simp))
      · exact .inl (.refl s)
    · cases h; exact .inl (.refl s)
  case photocellQualifyTime x =>
    simp only [exec, execPhotocellQualifyTime] at h
    split at h
    · cases h
      split
      · exact .inl (.refl s)
      · rename_i ch _ _
        exact (qualify_letters x ch (waitUntil (ch.time + 20) s)).imp (fun h => (h.endEvent s).after rfl)
          fun h => .inl (Grown.of_trk ⟨h.next, h.numbers⟩ (by simp))
    · cases h; exact .inl (.refl s)
  all_goals left
  case missingPosition | dpDecision | armPoint | firePoint | selectPoint => cases h; exact (thinned_takeDue _ _ s).endEvent s
  case stacking => cases h; exact (thinned_takeDue _ _ s).endStacking s
  case stationExitPosition | shPosition | scanPulse => cases h; exact thinned_takeDue _ _ s
  case overLengthPosition =>
    simp only [exec, execOverLengthPosition] at h
    split at h <;> cases h
    · exact thinned_takeDue _ _ s
    · exact .refl s
  case pe0JamPosition =>
    simp only [exec, execPe0JamPosition] at h
    split at h <;> cases h
    · exact (thinned_takeDue _ _ s).endEvent s
    · exact .refl s
  case gateClearPosition =>
    simp only [exec, execGateClearPosition] at h
    split at h <;> cases h
    · exact thinned_takeDue _ _ s
    · exact .refl s
  case doneLimit =>
    simp only [exec, execDoneLimit] at h
    split at h <;> cases h
    · exact (thinned_takeDue _ _ s).endEvent s
    · exact .refl s
  case runUpLimit =>
    simp only [exec, execRunUpLimit] at h
    split at h <;> cases h
    · exact ((thinned_faultStop _ _).endEvent s).after rfl
    · exact .refl s
  case blockedPosition =>
    simp only [exec, execBlockedPosition] at h
    split at h <;> cases h
    · split
      · exact (thinned_faultStop _ s).endEvent s
      · exact .refl s
    · exact .refl s
  case drainLimitPosition =>
    simp only [exec, execDrainLimitPosition] at h
    split at h <;> cases h
    · split
      · exact (thinned_faultStop _ s).endEvent s
      · exact .refl s
    · exact .refl s
  case estopChange =>
    cases h
    split
    · exact .refl s
    · split
      · exact ((thinned_faultStop _ _).endEvent s).after rfl
      · exact .of_trk rfl
  case pocketSensorQualify =>
    simp only [exec, execPocketSensorQualify] at h
    split at h <;> cases h
    · exact ((thinned_sensorQualified _ _).endEvent s).after rfl
    · exact .refl s
  case characterReceived => cases h; exact (thinned_receive _ _ s).endEvent s
  case saveWriteEnd =>
    simp only [exec, execSaveWriteEnd] at h
    split at h <;> cases h
    · exact (thinned_writeEnd _ s).endEvent s
    · exact .refl s
  case ping | status | start | stop | clear | hold | release | set | get | save | load | dater | pocketSweep | pocketDone | pocketDisable
      | pocketEnable | pockets | snap | count | zero | mask | ack | flags | headRetry | cancellerClear | capture | captureOff | table | restart =>
    cases h; exact (thinned_submit _ s).endEvent s
  all_goals
    simp only [exec, execProfileLoadComplete, execEncoderCount, execSpeedResult, execRunUpComplete, execPhotocellRawChange,
      execPreviousTailDrop, execCalibrationTimer, execHeadAnswer, execHeadAnswerTimeout, execWarmupLimit, execResultDelivery,
      execGateSettleEnd, execModuleStatus, execPrimed, execAccepted, execParityErr, execModuleDone, execModuleFault, execPrimeTimeout,
      execReplyTimeout, execPocketSensorChange, execSweepButtonPress, execSweepButtonRelease, execHoldCountdownEnd, execLinkSilence,
      execHornPulseEnd, execLineGapTimeout, execEventRepeatExpiry, execMergeTailDrop] at h
    (repeat' split at h) <;> cases h <;> exact .of_cores (by simp [speedStep]) (by simp [speedStep])

/-! ### The order of age (R5, R7) -/

/-- The order, said of the numbers alone. -/
theorem inOrder_iff (s : State) : InOrder s ↔ (s.trk.table.map (·.number)).Pairwise (fun a b => older a b = true) ∧
    ∀ m ∈ s.trk.table.map (·.number), older m s.trk.nextNumber = true := by
  constructor
  · intro h
    exact ⟨List.pairwise_map.2 h.rising, by simpa using h.next⟩
  · rintro ⟨hr, hn⟩
    exact ⟨List.pairwise_map.1 hr, by simpa using hn⟩

/-- Letters that leave the table leave its order. -/
theorem Thinned.inOrder {s t : State} (h : Thinned s t) (hs : InOrder s) : InOrder t := by
  obtain ⟨hr, hn⟩ := (inOrder_iff s).1 hs
  exact (inOrder_iff t).2 ⟨hr.sublist h.numbers, fun m hm => by rw [h.next]; exact hn m (h.numbers.subset hm)⟩

/-- One number is older than another by less than half the cycle (R5, R7). -/
theorem older_iff (m n : LetterNo) : older m n = true ↔ 0 < (n - m).toNat ∧ (n - m).toNat < 2147483648 := by
  have := (n - m).isLt
  simp only [older, decide_eq_true_eq, BitVec.toInt_eq_toNat_cond]
  split <;> omega

/-- A young number is older than the next one as that moves on (R5, R7). -/
theorem older_nextLetter {m n : LetterNo} (h : older m n = true) (hy : (n - m).toNat < 2147483646) : older m (nextLetter n) = true := by
  have h1 : (1 : LetterNo).toNat = 1 := rfl
  rw [older_iff] at h ⊢
  unfold nextLetter
  split
  · rename_i hn
    have hn' : n.toNat = 4294967295 := by rw [hn]; rfl
    simp only [BitVec.toNat_sub, h1] at h hy ⊢
    omega
  · simp only [BitVec.toNat_sub, BitVec.toNat_add, h1] at h hy ⊢
    omega

theorem older_nextLetter_self (n : LetterNo) : older n (nextLetter n) = true := by
  have h1 : (1 : LetterNo).toNat = 1 := rfl
  rw [older_iff]
  unfold nextLetter
  split
  · rename_i h
    rw [h]
    decide
  · rename_i h
    have hn : n.toNat ≠ 4294967295 := fun e => h (BitVec.eq_of_toNat_eq e)
    have := n.isLt
    simp only [BitVec.toNat_sub, BitVec.toNat_add, h1]
    omega

/-- A letter that joins at the newest end keeps the order, while every letter of the table is young (R5, R7, R10). -/
theorem Grown.inOrder {s t : State} (h : Grown s t) (hs : InOrder s) (hy : NumbersYoung s) : InOrder t := by
  obtain ⟨hr, hn⟩ := (inOrder_iff s).1 hs
  have hr' : (s.trk.table.map (·.number) ++ [s.trk.nextNumber]).Pairwise fun a b => older a b = true := by
    rw [List.pairwise_append]
    exact ⟨hr, List.pairwise_singleton _ _, fun a ha b hb => by rw [List.mem_singleton.1 hb]; exact hn a ha⟩
  refine (inOrder_iff t).2 ⟨hr'.sublist h.numbers, fun m hm => ?_⟩
  rw [h.next]
  rcases List.mem_append.1 (h.numbers.subset hm) with hm | hm
  · obtain ⟨e, he, rfl⟩ := List.mem_map.1 hm
    exact older_nextLetter (hs.next e he) (hy e he)
  · rw [List.mem_singleton.1 hm]
    exact older_nextLetter_self _

theorem inOrder_step {s t : State} (hs : InOrder s) (hy : NumbersYoung s) (h : step s = .next t) : InOrder t := by
  unfold step at h
  split at h
  · cases h; exact hs
  · rename_i c rest _
    have hs' : InOrder { s with pending := rest } := ⟨hs.rising, hs.next⟩
    rcases exec_letters h with h | h | h
    · exact h.inOrder hs'
    · exact h.inOrder hs' hy
    · exact (inOrder_iff t).2 (by simp [h])

/-- Settles O3: the shape of the letters and the causes of their early dispositions are kept by every event, and a command thins the table
or adds one letter at its newest end. -/
theorem lettersSoundKept : Obligations.LettersSoundKept := by
  refine ⟨fun s t hn hs h => ?_, fun s t hs hy h => inOrder_step hs hy h⟩
  obtain ⟨hl, hc⟩ := (letters_iff s).1 ⟨hn, hs⟩
  exact (letters_iff t).2 ⟨lettersShaped_parts.kept.step h hl, causesGiven_parts.kept.step h hc⟩

end Sys2Proof.Proofs
end

