-- ==== Sys2Proof/Proofs/Resets.lean ====
section
/-! PROOF. A power-on reset leaves every block at its values (O14), and the state right after it meets every invariant (O2). -/

namespace Sys2Proof.Proofs

open Sys2Proof Sys2Proof.Machine Sys2Proof.Safety Sys2Proof.Laws

/-! ### The check of an image -/

theorem imageFault_isSome (i : Image) : (imageFault i).isSome = true ↔ ¬ ImagePasses i := by
  unfold imageFault
  split
  next h => simp [h]
  next h =>
    split
    next hc => simp [not_not.1 h ▸ hc, not_not.1 h]
    next hc => simp [hc]

theorem wrongCrc_ne (v : BitVec 16) (i : Image) : wrongCrc v i ≠ Config.imageCrc i.format i.contents := by
  unfold wrongCrc
  split
  next h => simp [h]
  next h => exact h

/-- A write cut short leaves an image that fails its check (R196). -/
theorem tornImage_fails (fresh : Nat) (i : Image) : ¬ ImagePasses (tornImage fresh i) :=
  fun h => wrongCrc_ne (Config.tornCrc fresh) { i with format := Config.tornFormat fresh } h.2

/-- Where the opening stands by the check of the image (R189, R195). -/
theorem openingAt_imageFault (o : Opening) (i : Image) :
    openingAt o (imageFault i).isSome = if ImagePasses i ∨ Config.defaultedSecond = false then .done else o := by
  by_cases h : ImagePasses i
  · have : (imageFault i).isSome = false := Bool.eq_false_iff.2 fun h' => (imageFault_isSome i).1 h' h
    simp [openingAt, h, this]
  · cases hd : Config.defaultedSecond <;> simp [openingAt, h, hd, (imageFault_isSome i).2 h]

theorem blankImage_fails : ¬ ImagePasses blankImage :=
  fun h => absurd h.1 (by decide)

/-! ### The values of a power-on reset -/

theorem get_resetPkc (raw : PerPocket Paddle) (q : Pocket) : (resetPkc raw).recs.get q = resetPocket q (raw.get q) := by
  cases q <;> rfl

/-- Settles O14: each clause reads a block of the reset state off its rule. -/
theorem powerOnResetValues : Obligations.PowerOnResetValues := by
  intro s
  refine ⟨resetPart .power s, rfl, rfl, fun c => ?_, fun c => ?_, fun h => ?_, fun b => ?_, rfl, rfl, rfl, fun g => ?_, rfl, fun c => ?_, rfl,
    fun q => ?_, rfl, rfl, rfl, rfl, rfl, rfl, rfl, rfl, rfl, rfl, rfl, ?_, fun k => ?_, fun h => ?_, fun h => ?_, rfl, rfl⟩
  · simp [resetPart, resetPcm]
  · simp [resetPart, resetPcm]
  · simp [resetPart, resetScu, resetHead]
  · simp [resetPart, resetScu, freeBuf]
  · cases g <;> rfl
  · cases c <;> simp [resetPart, resetCan, resetCanc, encoderCopy, resetTrk]
  · simp [resetPart, get_resetPkc, resetPocket]
  · exact openingAt_imageFault .loading (resetPfs s.fresh s.pfs).image
  · cases k <;> rfl
  · simp [resetPart, resetPfs, h]
  · obtain ⟨p, hp⟩ := Option.ne_none_iff_exists'.1 h
    simpa [resetPart, resetPfs, hp] using tornImage_fails s.fresh s.pfs.image

/-! ### The factory defaults -/

/-- R191, R192: every factory default lies in the range of its parameter. -/
theorem factory_sound : ProfileSound Profile.factory := by
  refine ⟨fun q n h => ?_, fun q h => by cases q <;> cases h⟩
  cases q
  case minGap => cases h; exact .inl (by unfold Profile.factory; dsimp only; split <;> decide)
  case stn x => cases x <;> cases h
  case fit x => cases x <;> cases h
  case cls x => cases x <;> cases h
  case tower x => cases x <;> cases h
  case settle x => cases x <;> cases h <;> exact .inl (by decide)
  case cap x => cases x <;> cases h <;> exact .inl (by decide)
  case near x => cases x <;> cases h <;> exact .inl (by decide)
  all_goals cases h
  all_goals exact .inl (by decide)

/-! ### The state right after reset -/

theorem reset_get_pocket (q : Pocket) : (State.reset.pkc.recs.get q) = resetPocket q .clear :=
  (get_resetPkc _ q).trans (by simp)

theorem reset_get_canc (c : Stream) : (State.reset.can.recs.get c) = resetCanc Profile.factory :=
  PerStream.get_fill _ c

theorem reset_get_head (h : Head) : (State.reset.scu.heads.get h) = resetHead :=
  PerHead.get_fill _ h

theorem reset_get_buf (b : Buf) : (State.reset.scu.bufs.get b) = freeBuf :=
  PerBuf.get_fill _ b

theorem reset_pocket_open (q : Pocket) : (State.reset.pkc.recs.get q).state = .open := by
  rw [reset_get_pocket]; simp [resetPocket]

theorem canceller_sound_reset (p : Profile) : CancellerSound (resetCanc p) := by
  constructor <;> simp [resetCanc]

theorem reset_buffersHeld : BuffersHeld State.reset := by
  constructor
  case once => exact List.nodup_nil
  case taken => exact fun _ => rfl
  all_goals
    intro b
    simp [reset_get_buf, freeBuf]
  all_goals simp [State.reset, resetMkf]

theorem reset_secondLine : SecondLine State.reset := by
  refine ⟨?_, fun _ => rfl, fun _ => nofun, fun _ l h => ⟨_, (Option.some.inj h).symm⟩⟩
  have hline : State.reset.flc.line = .powerup := rfl
  have hfail : ¬ ImagePasses State.reset.pfs.image := blankImage_fails
  have hopen : State.reset.llk.opening = openingAt .loading true := rfl
  rw [hopen]
  simp [openingAt, hline, hfail]

theorem reset_bounded : Bounded State.reset := by
  constructor
  case queues => intro g; cases g <;> decide
  all_goals decide

theorem zeroBank_balanced : Balanced zeroBank 0 := by
  constructor <;> decide

theorem reset_no_entry {P : Entry → Prop} : ∀ e ∈ State.reset.trk.table, P e :=
  fun _ h => absurd h List.not_mem_nil

theorem reset_trackedByLine : TrackedByLine State.reset :=
  ⟨fun _ => rfl, reset_no_entry⟩

theorem reset_lineRecords : LineRecords State.reset := by
  constructor <;> decide

theorem reset_cancelHeld : CancelHeld State.reset := by
  unfold CancelHeld; decide

theorem reset_pocketsHeld : PocketsHeld State.reset :=
  ⟨fun _ => ⟨rfl, rfl⟩, fun h => absurd rfl h⟩

theorem reset_stoppedInFault : StoppedInFault State.reset :=
  fun h => absurd h (by decide)

theorem reset_committedCounts : CommittedCounts State.reset := by
  intro q; rw [reset_get_pocket]; rfl

theorem reset_pocketsSwept : PocketsSwept State.reset := by
  refine ⟨fun q h => ?_, fun q h => ?_, fun q _ => ⟨reset_pocket_open q, by rw [reset_get_pocket]; rfl⟩⟩
  · simp [reset_pocket_open] at h
  · simp [reset_pocket_open] at h

theorem reset_headSound (h : Head) : HeadSound (State.reset.scu.heads.get h) := by
  rw [reset_get_head]; constructor <;> simp [resetHead]

theorem reset_reportsSound : ReportsSound State.reset :=
  ⟨List.nodup_nil, fun _ h => absurd h List.not_mem_nil⟩

theorem reset_answersSound : AnswersSound State.reset :=
  ⟨by decide, .inr rfl, rfl, fun _ h => by cases h⟩

theorem reset_numberedFromOne : NumberedFromOne State.reset :=
  ⟨by decide, reset_no_entry⟩

theorem reset_inOrder : InOrder State.reset :=
  ⟨List.Pairwise.nil, reset_no_entry⟩

theorem reset_numbersYoung : NumbersYoung State.reset :=
  reset_no_entry

theorem reset_countsBalanced : CountsBalanced State.reset :=
  ⟨zeroBank_balanced, zeroBank_balanced⟩

theorem reset_profilesSound : ProfilesSound State.reset :=
  ⟨factory_sound, factory_sound, fun _ h => by cases h⟩

/-- Settles O2. -/
theorem resetMeetsInvariants : Obligations.ResetMeetsInvariants :=
  ⟨reset_numberedFromOne, reset_no_entry, reset_inOrder, reset_numbersYoung, reset_trackedByLine, reset_lineRecords,
    reset_cancelHeld, reset_pocketsHeld, fun c => reset_get_canc c ▸ canceller_sound_reset _, reset_stoppedInFault,
    reset_committedCounts, reset_pocketsSwept, reset_countsBalanced, reset_headSound, reset_buffersHeld, reset_reportsSound,
    reset_secondLine, reset_answersSound, reset_profilesSound, reset_bounded⟩

end Sys2Proof.Proofs
end

