-- ==== Sys2Proof/Proofs/Positions.lean ====
section
/-! PROOF. The scheduled positions of a letter, kind by kind (R3), and what a forward count brings to be reached (R1, R2): for O18 and
O23. -/

namespace Sys2Proof.Proofs

open Sys2Proof Sys2Proof.Machine Sys2Proof.Safety Sys2Proof.Laws

/-! ### The positions, kind by kind -/

section
variable {s : State} {e : Entry} {k : PosKind} {d : Int}

theorem mem_exitPositions : (k, d) ∈ exitPositions s e ↔
    k = .stationExit ∧ e.inStation = true ∧ d = (exitOffset s.pfs.profile e : Int) := by
  unfold exitPositions
  split
  next h => simp [h]
  next h => simp [h]

theorem mem_pe0Positions : (k, d) ∈ pe0Positions s e ↔ s.trk.measuring = some e.number ∧
    (k = .overLength ∧ s.trk.overTaken = false ∧ d = (1201 + s.pfs.profile.minBlock : Nat) ∨
      k = .pe0Jam ∧ d = (2401 + s.pfs.profile.minBlock : Nat)) := by
  unfold pe0Positions
  split
  next h => cases ho : s.trk.overTaken <;> simp [h]
  next h => simp [h]

theorem mem_supAll (c : Sup) : c ∈ Sup.all := by
  cases c <;> decide

theorem mem_gateAll (g : Gate) : g ∈ Gate.all := by
  cases g <;> decide

theorem mem_missingPositions : (k, d) ∈ missingPositions s e ↔ ∃ c, k = .missing c ∧ e.number ∈ (s.pcm.sups.get c).expected ∧
    d = (supDist s.pfs.profile e c + s.pfs.profile.slipTol + s.pfs.profile.minBlock + 1 : Nat) := by
  simp only [missingPositions, List.mem_map, List.mem_filter, mem_supAll, true_and, List.contains_iff_mem, Prod.mk.injEq]
  refine exists_congr fun c => ?_
  constructor
  · rintro ⟨hm, rfl, rfl⟩; exact ⟨rfl, hm, rfl⟩
  · rintro ⟨rfl, hm, rfl⟩; exact ⟨hm, rfl, rfl⟩

theorem delayed_some {n : LetterNo} {h : HeadRec} {p : Pulse} :
    delayed n h = some p ↔ h.out = none ∧ (∃ rest, h.waiting = p :: rest) ∧ p.letter = n := by
  unfold delayed
  split
  next q rest ho hw =>
    split
    next hn => simp only [ho, hw, Option.some.injEq, List.cons.injEq, true_and, exists_and_left, exists_eq', and_true]
               constructor
               · rintro rfl; exact ⟨rfl, hn⟩
               · exact And.left
    next hn =>
      simp only [hw, List.cons.injEq, reduceCtorEq, exists_and_left, exists_eq', and_true, false_iff, not_and]
      rintro - rfl; exact hn
  next h' =>
    simp only [reduceCtorEq, false_iff, not_and]
    rintro ho ⟨rest, hw⟩
    exact (h' _ _ ho hw).elim

theorem mem_headList {t : PerHead HeadRec} {r : HeadRec} : r ∈ t.toList ↔ ∃ h, t.get h = r := by
  simp only [PerHead.toList, List.mem_cons, List.not_mem_nil, or_false]
  constructor
  · rintro (rfl | rfl | rfl | rfl)
    exacts [⟨.ft, rfl⟩, ⟨.fb, rfl⟩, ⟨.bt, rfl⟩, ⟨.bb, rfl⟩]
  · rintro ⟨h, rfl⟩
    cases h <;> simp [PerHead.get]

theorem mem_delayedPositions : (k, d) ∈ delayedPositions s e ↔ k = .pulse ∧ ∃ h p rest, (s.scu.heads.get h).out = none ∧
    (s.scu.heads.get h).waiting = p :: rest ∧ p.letter = e.number ∧ d = (p.pos - e.anchor).toInt := by
  simp only [delayedPositions, List.mem_filterMap, mem_headList, Option.map_eq_some_iff, delayed_some, Prod.mk.injEq]
  constructor
  · rintro ⟨_, ⟨h, rfl⟩, p, ⟨ho, ⟨rest, hw⟩, hl⟩, rfl, rfl⟩
    exact ⟨rfl, h, p, rest, ho, hw, hl, rfl⟩
  · rintro ⟨rfl, h, p, rest, ho, hw, hl, rfl⟩
    exact ⟨_, ⟨h, rfl⟩, p, ⟨ho, ⟨rest, hw⟩, hl⟩, rfl, rfl⟩

/-- The next scan pulse of a letter being scanned (R46). -/
def NextPulse (s : State) (e : Entry) (d : Int) : Prop :=
  e.scan = .scanning ∧ ∃ b l, fillingOf s e.number = some b ∧ e.latched = some l ∧ (s.scu.bufs.get b).next < l.n ∧
    d = (s.pfs.profile.dist .sh + 8 * (s.scu.bufs.get b).next + 4 : Nat)

theorem mem_scanPositions : (k, d) ∈ scanPositions s e ↔ k = .sh ∧ e.shTaken = false ∧ d = (s.pfs.profile.dist .sh : Int) ∨
    (k, d) ∈ delayedPositions s e ∨ k = .pulse ∧ NextPulse s e d := by
  simp only [scanPositions, List.mem_append, or_assoc]
  refine or_congr ?_ (or_congr Iff.rfl ?_)
  · cases e.shTaken <;> simp
  · unfold NextPulse
    split
    next b l hs hf hl =>
      split
      next hn => simp [hs, hf, hl, hn]
      next hn => simp [hf, hl, hn]
    next h =>
      simp only [List.not_mem_nil, false_iff, not_and]
      rintro - hs ⟨b, l, hf, hl, -⟩
      exact h b l hs hf hl

theorem mem_dpPositions : (k, d) ∈ dpPositions s e ↔
    k = .dp ∧ e.path = none ∧ decidable e = true ∧ d = (s.pfs.profile.dist .dp : Int) := by
  unfold dpPositions
  split
  next h => simp [h.1, h.2]
  next h =>
    simp only [List.not_mem_nil, false_iff]
    exact fun hk => h ⟨hk.2.1, hk.2.2.1⟩

theorem mem_clearPositions : (k, d) ∈ clearPositions s e ↔
    ∃ g, k = .gateClear g ∧ ∃ u, (s.ptc.gates.get g).user = some u ∧ u.letter = e.number ∧ d = u.dist := by
  simp only [clearPositions, List.mem_filterMap, mem_gateAll, true_and]
  refine exists_congr fun g => ?_
  split
  next u hu =>
    simp only [hu, Option.some.injEq, exists_eq_left']
    split
    next hl =>
      simp only [hl, Option.some.injEq, Prod.mk.injEq, true_and]
      exact ⟨fun h => ⟨h.1.symm, h.2.symm⟩, fun h => ⟨h.1.symm, h.2.symm⟩⟩
    next hl => simp [hl]
  next hu => simp [hu]

theorem mem_cancelPositions : (k, d) ∈ cancelPositions s e ↔ ∃ c j, e.stream = some c ∧ e.job = some j ∧
    (k = .arm ∧ j.armTaken = false ∧ d = armOffset s e c ∨ k = .fire ∧ j.fireTaken = false ∧ d = fireOffset s e c j ∨
      k = .doneLimit c ∧ (s.can.recs.get c).held = some e.number ∧ (s.can.recs.get c).state = .printing ∧ d = doneOffset s e c) := by
  unfold cancelPositions
  split
  next c j hc hj =>
    simp only [hc, hj, Option.some.injEq, List.mem_append, exists_and_left, exists_eq_left', or_assoc]
    refine or_congr ?_ (or_congr ?_ ?_)
    · cases j.armTaken <;> simp
    · cases j.fireTaken <;> simp
    · split
      next h => simp [h.1, h.2]
      next h =>
        simp only [List.not_mem_nil, false_iff]
        exact fun hk => h ⟨hk.2.1, hk.2.2.1⟩
  next h =>
    simp only [List.not_mem_nil, false_iff]
    rintro ⟨c, j, hc, hj, -⟩
    exact h c j hc hj

theorem mem_pocketPositions : (k, d) ∈ pocketPositions s e ↔ e.path ≠ none ∧
    (k = .select ∧ e.pocket = none ∧ d = (selectOffset s.pfs.profile e : Int) ∨
      k = .stacking ∧ ∃ q, e.pocket = some q ∧ d = (stackOffset s.pfs.profile e q : Int)) := by
  unfold pocketPositions
  split
  next h => simp [h]
  next h =>
    split
    next hq => simp [h, hq]
    next q hq => simp [h, hq]

/-- R3: the positions of a letter are those its own rules schedule; all but the station exit exist only while the line runs. -/
theorem mem_positions_iff : (k, d) ∈ positions s e ↔ (k, d) ∈ exitPositions s e ∨ running s = true ∧
    ((k, d) ∈ pe0Positions s e ∨ (k, d) ∈ missingPositions s e ∨ (k, d) ∈ scanPositions s e ∨ (k, d) ∈ dpPositions s e ∨
      (k, d) ∈ clearPositions s e ∨ (k, d) ∈ cancelPositions s e ∨ (k, d) ∈ pocketPositions s e) := by
  unfold positions
  split
  next h => simp [h]
  next h => simp [h]

end

/-! ### Due positions -/

theorem mem_reachedPositions {s : State} {e : Entry} {p : PosKind × Int} : p ∈ reachedPositions s e ↔
    p ∈ positions s e ∧ reached s.trk.belt (at' e.anchor p.2) = true := by
  simp [reachedPositions]

theorem due_of_mem {s : State} {n : LetterNo} {e : Entry} {k : PosKind} {d : Int} (he : s.entry? n = some e)
    (h : (k, d) ∈ reachedPositions s e) : due s n k = true := by
  simp only [due, he, List.any_eq_true, decide_eq_true_eq]
  exact ⟨_, h, rfl⟩

theorem takeDue_of_mem {s : State} {n : LetterNo} {e : Entry} {k : PosKind} {d : Int} (he : s.entry? n = some e)
    (h : (k, d) ∈ reachedPositions s e) : takeDue n k s = act n k s := by
  simp [takeDue, due_of_mem he h]

/-! ### One count forward -/

theorem reached_iff {b x : Pos} : reached b x = true ↔ 0 ≤ (b - x).toInt := by
  simp [reached, distance]

/-- A position not reached that one forward count reaches is the one the belt then stands at (R2). -/
theorem reached_by_count {b x : Pos} (h : reached b x = false) (h' : reached (b + 1) x = true) : x = b + 1 := by
  rw [← Bool.not_eq_true, reached_iff] at h
  rw [reached_iff, show b + 1 - x = (b - x) + 1 by ring] at h'
  have hx : b - x = -1 := by
    rw [BitVec.toInt_eq_toNat_cond] at h h'
    generalize b - x = y at h h'
    bv_omega
  rw [show x = b - (b - x) by ring, hx]
  ring

/-- A count leaves the scheduled distances: they do not speak of the belt (R3). -/
theorem positions_beltMoved (s : State) (b : Pos) (c : Cnb) (e : Entry) :
    positions { s with trk := { s.trk with belt := b }, cnb := c } e = positions s e :=
  rfl

end Sys2Proof.Proofs
end

