-- ==== Sys2Proof/Proofs/Belt.lean ====
section
/-! PROOF. Encoder counts, speed results and the dropping of passed tails (O18). -/

namespace Sys2Proof.Proofs

open Sys2Proof Sys2Proof.Machine Sys2Proof.Safety Sys2Proof.Laws

/-! ### The belt (O18) -/

/-- R168: a count in RUN touches the travel remainder and BELT_RUN_MM alone. -/
theorem travelStep_shape (m : Motion) (c : Cnb) : ∃ r mm, travelStep m c =
    { c with remainder := r, bank := { c.bank with line := { c.bank.line with beltRunMm := mm } } } := by
  unfold travelStep
  generalize (match m with | .forward => c.remainder + 1 | .reverse => c.remainder - 1 : Int) = r
  dsimp only
  split_ifs
  · exact ⟨_, _, rfl⟩
  · exact ⟨_, _, rfl⟩
  · exact ⟨_, c.bank.line.beltRunMm, rfl⟩

theorem travelStep_eq (m : Motion) (c : Cnb) : travelStep m c =
    { c with
      remainder := (travelStep m c).remainder
      bank := { c.bank with line := { c.bank.line with beltRunMm := (travelStep m c).bank.line.beltRunMm } } } := by
  obtain ⟨r, mm, h⟩ := travelStep_shape m c
  rw [h]

theorem travelStep_forward {c : Cnb} (h : -3 ≤ c.remainder) :
    ((travelStep .forward c).remainder, (travelStep .forward c).bank.line.beltRunMm) =
      if c.remainder = 3 then (0, c.bank.line.beltRunMm + 1) else (c.remainder + 1, c.bank.line.beltRunMm) := by
  unfold travelStep
  dsimp only
  by_cases h3 : c.remainder = 3
  · simp [h3]
  · rw [if_neg (by omega), if_neg (by omega), if_neg h3]

theorem travelStep_reverse {c : Cnb} (h : c.remainder ≤ 3) :
    ((travelStep .reverse c).remainder, (travelStep .reverse c).bank.line.beltRunMm) =
      if c.remainder = -3 then (0, c.bank.line.beltRunMm - 1) else (c.remainder - 1, c.bank.line.beltRunMm) := by
  unfold travelStep
  dsimp only
  by_cases h3 : c.remainder = -3
  · simp [h3]
  · rw [if_neg (by omega), if_neg (by omega), if_neg h3]

/-- The state after an encoder count (R1, R168). -/
def counted (m : Motion) (s : State) : State :=
  { s with
    trk := { s.trk with belt := beltStep m s.trk.belt }
    cnb := if s.flc.line = .run then travelStep m s.cnb else s.cnb }

theorem counted_cnb_run {m : Motion} {s : State} (h : s.flc.line = .run) : (counted m s).cnb = travelStep m s.cnb :=
  if_pos h

theorem counted_cnb_idle {m : Motion} {s : State} (h : s.flc.line ≠ .run) : (counted m s).cnb = s.cnb :=
  if_neg h

theorem counted_eq (m : Motion) (s : State) : counted m s =
    { s with
      trk := { s.trk with belt := match m with | .forward => s.trk.belt + 1 | .reverse => s.trk.belt - 1 }
      cnb := { s.cnb with
        remainder := (counted m s).cnb.remainder
        bank := { s.cnb.bank with line := { s.cnb.bank.line with beltRunMm := (counted m s).cnb.bank.line.beltRunMm } } } } := by
  have hc : (counted m s).cnb = { s.cnb with
      remainder := (counted m s).cnb.remainder
      bank := { s.cnb.bank with line := { s.cnb.bank.line with beltRunMm := (counted m s).cnb.bank.line.beltRunMm } } } := by
    by_cases h : s.flc.line = .run
    · rw [counted_cnb_run h]; exact travelStep_eq m s.cnb
    · rw [counted_cnb_idle h]
  rw [← hc]
  rfl

/-- A punctual state reaches by a forward count only the position the belt comes to stand at (R2, R3). -/
theorem counted_reaches {s : State} (hs : Punctual s) {e : Entry} (he : e ∈ s.trk.table) {p : PosKind × Int}
    (hp : p ∈ positions s e) (hr : reached (s.trk.belt + 1) (at' e.anchor p.2) = true) : at' e.anchor p.2 = s.trk.belt + 1 := by
  refine reached_by_count (Bool.eq_false_iff.2 fun h => ?_) hr
  have : p ∈ reachedPositions s e := mem_reachedPositions.2 ⟨hp, h⟩
  rw [hs e he] at this
  exact List.not_mem_nil this

/-- Settles O18. -/
theorem beltCountsSpeedAndTails : Obligations.BeltCountsSpeedAndTails := by
  refine ⟨fun s m => ⟨counted m s, rfl, counted_eq m s, fun c => ?_, fun h => counted_cnb_idle h, fun h hlo hhi => ?_⟩, ?_, ?_, ?_⟩
  · cases c <;> cases m <;> rfl
  · rw [counted_cnb_run h]
    cases m with
    | forward => exact travelStep_forward hlo
    | reverse => exact travelStep_reverse hhi
  · intro s t hs h e he p hp hr
    cases h
    exact counted_reaches hs he hp hr
  · intro s oldest ho
    refine ⟨_, rfl, ?_, ?_, fun h => ?_, fun h hlt => ?_, fun h hle => ?_⟩
    · unfold qualStep speedStep
      split <;> rfl
    · simp [speedStep, ho, speedOf, distance]
    · simp [qualStep, h]
    · simp only [qualStep, h, if_true]
      exact if_neg (Nat.not_le.2 hlt)
    · simp only [qualStep, h, if_true]
      refine (if_pos hle).trans ?_
      cases s.flc.runUpQual <;> rfl
  · refine fun s => ⟨fun p hp hr => ?_, fun m hm hr => ?_⟩
    · show execPreviousTailDrop s = _
      have : reached s.trk.belt (at' p dropDistance) = true := hr
      simp [execPreviousTailDrop, hp, this]
    · show execMergeTailDrop s = _
      have : reached s.trk.belt (at' m.tail dropDistance) = true := hr
      simp [execMergeTailDrop, hm, this]

end Sys2Proof.Proofs
end

