-- ==== Sys2Proof/Proofs/FaultEvents.lean ====
section
/-! PROOF. The events that call for a fault stop make it (O19), and what the end of an event leaves. -/

namespace Sys2Proof.Proofs

open Sys2Proof Sys2Proof.Machine Sys2Proof.Safety Sys2Proof.Laws

/-! ### Faults (O19) -/

theorem judgeHold_same {held : Bool} {s : State} (h : s.flc.holds.any = held) : judgeHold held s = s := by
  simp [judgeHold, h]

/-- An event that leaves the hold cause set as it was ends with the transmitter's pick alone (R152, R185). -/
theorem endEvent_same {s t : State} (h : t.flc.holds = s.flc.holds) : endEvent s t = pump t := by
  rw [endEvent, judgeHold_same (by rw [h])]

theorem pump_llk_only (s : State) : pump s = { s with llk := (pump s).llk } := by
  rw [pump_eq]

/-- Settles O19. -/
theorem faultAndEstopEvents : Obligations.FaultAndEstopEvents := by
  refine ⟨fun s hr => ⟨fun n e hm he hp => ?_, fun c n e hx he hp => ?_, fun c p hc hp => ⟨_, ?_, faultStop_spec hr⟩,
    fun p hl hd hp => ⟨_, ?_, faultStop_spec hr⟩, fun t0 hl ht => ⟨_, ?_, faultStop_spec hr⟩, fun he => ⟨_, ?_, faultStop_spec hr⟩⟩,
    fun s b hb => ?_⟩
  · have hj : (PosKind.pe0Jam, ((2401 + s.pfs.profile.minBlock : Nat) : Int)) ∈ reachedPositions s e :=
      mem_reachedPositions.2 ⟨mem_positions_iff.2 (.inr ⟨hr, .inl (mem_pe0Positions.2
        ⟨by rw [(entry_some he).2]; exact hm, .inr ⟨rfl, rfl⟩⟩)⟩), hp⟩
    refine ⟨_, ?_, faultStop_spec hr⟩
    show execPe0JamPosition s = _
    simp only [execPe0JamPosition, hm, takeDue_of_mem he hj, act]
  · have hj : (PosKind.missing c, ((supDist s.pfs.profile e c + s.pfs.profile.slipTol + s.pfs.profile.minBlock + 1 : Nat) : Int)) ∈
        reachedPositions s e :=
      mem_reachedPositions.2 ⟨mem_positions_iff.2 (.inr ⟨hr, .inr (.inl (mem_missingPositions.2
        ⟨c, rfl, by rw [(entry_some he).2]; exact hx, rfl⟩))⟩), hp⟩
    refine ⟨_, ?_, faultStop_spec hr⟩
    show execMissingPosition c n s = _
    simp only [execMissingPosition, takeDue_of_mem he hj, act]
  · show execBlockedPosition c s = _
    simp [execBlockedPosition, hc, hp]
  · show execDrainLimitPosition s = _
    simp [execDrainLimitPosition, hl, hd, hp]
  · show execRunUpLimit s = _
    simp only [execRunUpLimit, hl, ht]
    rfl
  · show execEstopChange true s = _
    simp only [execEstopChange, he]
    rfl
  · show ∃ t, execEstopChange b s = .next t ∧ _
    unfold execEstopChange
    split
    next he => exact ⟨s, rfl, by subst he; rfl, .refl _ _⟩
    next he =>
      rcases hb with rfl | hb
      · exact ⟨_, rfl, rfl, .of_eq rfl⟩
      · have hf : faultStop .estop { s with flc := { s.flc with estop := b } } = { s with flc := { s.flc with estop := b } } := by
          unfold faultStop; rw [if_neg (by simpa [running] using hb)]
        cases b
        · exact ⟨_, rfl, rfl, .of_eq rfl⟩
        · dsimp only [if_true]
          rw [hf, endEvent_same (by rfl)]
          exact ⟨_, rfl, pump_llk_only _, .left_eq (by rfl) (pump_kept [] _)⟩

end Sys2Proof.Proofs
end

