-- ==== Sys2Proof/Proofs/Pe0.lean ====
section
/-! PROOF. An induction at PE0 (O21), and the tail that takes the first length there (O22). -/

namespace Sys2Proof.Proofs

open Sys2Proof Sys2Proof.Machine Sys2Proof.Safety Sys2Proof.Laws

/-! ### The qualification of a pending change -/

/-- The qualified level takes the raw level, and the pending change goes (R21). -/
abbrev qualified (c : Photocell) (s : State) : State :=
  updCell c (fun r => { r with qual := r.raw, change := none }) s

/-- A change that has stood MIN_BLOCK of travel qualifies while the line runs (R21). -/
theorem exec_qualifyTravel {c : Photocell} {ch : Change} {s : State} (hr : running s = true) (hc : (s.pcm.cells.get c).change = some ch)
    (hd : (s.pfs.profile.minBlock : Int) ≤ distance ch.pos s.trk.belt) :
    exec (.photocellQualifyTravel c) s = .next (endStacking s (qualify c ch s)) := by
  show execPhotocellQualifyTravel c s = _
  simp [execPhotocellQualifyTravel, hc, hr, hd]

/-- An event that leaves no empty table in DRAIN, or began with one, ends as every other event does (R148). -/
theorem endStacking_eq_endEvent {s t : State} (h : s.trk.table = [] ∨ t.flc.line ≠ .drain ∨ t.trk.table ≠ []) :
    endStacking s t = endEvent s t := by
  unfold endStacking endEvent
  dsimp only
  split
  · rfl
  next hs =>
    rw [checkDrained, if_neg]
    rcases h with h | h | h
    · simp [h] at hs
    · simp [h]
    · simp [h]

/-- A fault stop leaves the line in FAULT (R155), so no drain ends with it. -/
theorem endStacking_faultStop {r s : State} {call : FaultCall} (h : running s = true) (hr : s.flc.holds = r.flc.holds) :
    FaultStopped call s (endStacking r (faultStop call s)) := by
  have hf : (faultStop call s).flc.line = .fault := by rw [faultStop_line, if_pos h]
  rw [endStacking_eq_endEvent (.inr (.inl (by simp [hf]))), endEvent, ← hr]
  exact faultStop_spec h

/-! ### The order of induction -/

/-- R24, R86: a letter number is placed after every older one and before every newer one. -/
theorem insertByAge_split {α : Type} (num : α → LetterNo) (x : α) (l : List α) : ∃ front back, l = front ++ back ∧
    insertByAge num x l = front ++ x :: back ∧ (∀ y ∈ front, older (num y) (num x) = true) ∧
    ∀ y, back.head? = some y → older (num y) (num x) = false := by
  refine ⟨l.takeWhile fun y => older (num y) (num x), l.dropWhile fun y => older (num y) (num x),
    List.takeWhile_append_dropWhile.symm, rfl, fun y hy => ?_, fun y hy => ?_⟩
  · exact List.mem_takeWhile_imp (p := fun y => older (num y) (num x)) hy
  have h := List.head?_dropWhile_not (fun y => older (num y) (num x)) l
  rw [hy] at h
  exact Bool.eq_false_iff.2 fun h' => by simp [h'] at h

/-! ### A blocking of PE0 (O21) -/

theorem qualify_pe0_blocked {ch : Change} {s : State} (hr : running s = true) (hraw : (s.pcm.cells.get .pe0).raw = .blocked)
    (hm : s.trk.measuring = none) : qualify .pe0 ch s = induct ch.pos (qualified .pe0 s) := by
  have hr' : running (qualified .pe0 s) = true := hr
  have hm' : (qualified .pe0 s).trk.measuring = none := hm
  unfold qualify
  simp only [edge, cellSup, hraw, hr', hm', reduceCtorEq, if_false, Option.isNone_none, Bool.and_self, if_true]

theorem qualified_pe0 {s : State} {l : Level} (hraw : (s.pcm.cells.get .pe0).raw = l) : qualified .pe0 s =
    { s with pcm := { s.pcm with cells := { s.pcm.cells with pe0 := { raw := l, qual := l, change := none } } } } := by
  have h : s.pcm.cells.pe0.raw = l := hraw
  show updCell _ _ _ = _
  subst h
  rfl

/-- The gap check decides the early disposition of a new entry (R12). -/
theorem inductedEntry_early (a : Pos) (s : State) :
    if ∃ p, s.trk.prevTail = some p ∧ distance p a < s.pfs.profile.minGap then
      (inductedEntry a s).early = some .gap ∧ (inductedEntry a s).cause = some .gap
    else (inductedEntry a s).early = none ∧ (inductedEntry a s).cause = none := by
  have hg : (∃ p, s.trk.prevTail = some p ∧ distance p a < s.pfs.profile.minGap) ↔ gapShort s a = true := by
    unfold gapShort
    cases s.trk.prevTail <;> simp
  unfold inductedEntry
  by_cases h : gapShort s a = true
  · rw [if_pos (hg.2 h), if_pos h]; exact ⟨rfl, rfl⟩
  · rw [if_neg (mt hg.1 h), if_neg h]; exact ⟨rfl, rfl⟩

/-- The rest of a new entry is as R6 gives it. -/
theorem inductedEntry_values (a : Pos) (s : State) : ∃ early cause,
    inductedEntry a s = { newEntry s.trk.nextNumber a with early := early, cause := cause } := by
  unfold inductedEntry
  split
  · exact ⟨_, _, rfl⟩
  · exact ⟨none, none, rfl⟩

theorem nextLetter_eq (n : LetterNo) : nextLetter n = if n = 4294967295 then 1 else n + 1 :=
  rfl

/-- Below 64 entries the induction moves the hold cause TABLE at HOLD_AT, and changes the link by FEED_HOLD alone (R10, R19). -/
theorem endEvent_inducted {a : Pos} {r s : State} (hl : s.trk.table.length < 64) (hf : s.flc = r.flc) (hb : s.cnb = r.cnb)
    (hk : s.llk = r.llk) :
    let t := endEvent r (induct a s)
    let w := inducted a s
    t = { withHolds w t with llk := t.llk } ∧
    (s.trk.table.length + 1 = s.pfs.profile.holdAt → HoldMoved .table true r t) ∧
    (s.trk.table.length + 1 ≠ s.pfs.profile.holdAt → t.flc = r.flc ∧ t.cnb.bank.line = r.cnb.bank.line) ∧
    LinkKept (if s.trk.table.length + 1 = s.pfs.profile.holdAt then [.feedHold] else []) r t := by
  dsimp only
  rw [induct_eq hl]
  by_cases h : s.trk.table.length + 1 = s.pfs.profile.holdAt
  · rw [if_pos h, if_pos h]
    refine ⟨(endEvent_eq r _).trans (by rfl), fun _ => endEvent_moved ?_ ?_ ?_, fun hn => absurd h hn, ?_⟩
    · rw [← hf]; rfl
    · rw [← hk]; rfl
    · rw [← hb]; rfl
    · exact LinkKept.left_eq (t := setHold .table true (inducted a s)) hk (endEvent_kept r _ (by simp))
  · rw [if_neg h, if_neg h, endEvent_same (by rw [← hf]; rfl)]
    refine ⟨?_, fun h' => absurd h' h, fun _ => ?_, ?_⟩
    · rw [pump_eq]; rfl
    · rw [pump_eq, ← hf, ← hb]; exact ⟨rfl, rfl⟩
    · exact LinkKept.left_eq (t := inducted a s) hk (pump_kept [] _)

/-- Settles O21: the induction at PE0, or OVERRUN. -/
theorem blockingOfPe0Inducts : Obligations.BlockingOfPe0Inducts := by
  intro s ch hr hraw hc hd hm
  have hu := qualified_pe0 hraw
  generalize hu' : qualified .pe0 s = u at hu
  have hex : exec (.photocellQualifyTravel .pe0) s = .next (endStacking s (induct ch.pos u)) := by
    rw [exec_qualifyTravel hr hc hd, qualify_pe0_blocked hr hraw hm, hu']
  by_cases hl : 64 ≤ s.trk.table.length
  · rw [induct_full (by rw [hu]; exact hl)] at hex
    have hf : FaultStopped .overrunTable u (endStacking s (faultStop .overrunTable u)) :=
      endStacking_faultStop (by rw [hu]; exact hr) (by rw [hu])
    have hcells : (endStacking s (faultStop .overrunTable u)).pcm.cells =
        { s.pcm.cells with pe0 := { raw := .blocked, qual := .blocked, change := none } } := by
      rw [hf.cells, hu]
    exact ⟨_, hex, hcells, fun _ => by rw [hcells, ← hu]; exact hf, fun h => absurd h (Nat.not_lt.2 hl)⟩
  · have hl' : u.trk.table.length < 64 := by rw [hu]; exact Nat.not_le.1 hl
    have ht : (induct ch.pos u).trk.table ≠ [] := by rw [induct_eq hl']; split <;> simp [inducted, setHold]
    rw [endStacking_eq_endEvent (.inr (.inr ht))] at hex
    obtain ⟨ht, hhold, hsame, hlink⟩ := endEvent_inducted (a := ch.pos) (r := s) hl' (by rw [hu]) (by rw [hu]) (by rw [hu])
    obtain ⟨early, cause, he⟩ := inductedEntry_values ch.pos s
    have hgap := inductedEntry_early ch.pos s
    refine ⟨_, hex, ?_⟩
    generalize endEvent s (induct ch.pos u) = t at ht hhold hsame hlink ⊢
    obtain ⟨front, back, hlist, hins, hfront, hback⟩ := insertByAge_split id s.trk.nextNumber (s.pcm.sups.get .pe1).expected
    subst hu
    have htrk : t.trk = { s.trk with
        table := s.trk.table ++ [inductedEntry ch.pos s], measuring := some s.trk.nextNumber, overTaken := false
        nextNumber := nextLetter s.trk.nextNumber } := by rw [ht]; rfl
    have hcells : t.pcm.cells = { s.pcm.cells with pe0 := { raw := .blocked, qual := .blocked, change := none } } := by rw [ht]; rfl
    have hsups : t.pcm.sups = s.pcm.sups.upd .pe1 fun r => { r with expected := insertByAge id s.trk.nextNumber r.expected } := by
      rw [ht]; rfl
    have hcnb : t.cnb = { s.cnb with bank := { s.cnb.bank with
        flow := { s.cnb.bank.flow with inducted := s.cnb.bank.flow.inducted + 1 }
        line := { s.cnb.bank.line with holdCrossings := t.cnb.bank.line.holdCrossings } } } := by
      rw [ht]; rfl
    refine ⟨hcells, fun h => absurd h hl, fun _ => ⟨?_, ⟨_, by rw [htrk], ?_⟩, ⟨front, back, hlist, ?_, hfront, hback⟩, fun c hc => ?_,
      hcnb, hhold, hsame, hlink⟩⟩
    · have hn : t.trk = { s.trk with
          table := t.trk.table, measuring := some s.trk.nextNumber, overTaken := false
          nextNumber := if s.trk.nextNumber = 4294967295 then 1 else s.trk.nextNumber + 1 } := by rw [htrk]; rfl
      rw [← hn]
      rw [ht]; rfl
    · rw [he] at hgap ⊢
      exact ⟨rfl, rfl, rfl, rfl, rfl, rfl, rfl, rfl, rfl, rfl, rfl, rfl, rfl, rfl, rfl, rfl, hgap⟩
    · rw [hsups, PerSup.get_upd_self, hins]
    · rw [hsups, PerSup.get_upd_ne _ _ (Ne.symm hc)]

/-! ### A tail at PE0, and the over-length position (O22) -/

/-- A change of a letter's entry writes the changed entry (R17). -/
theorem updTable_const {n : LetterNo} {l : List Entry} {e : Entry} (f : Entry → Entry)
    (h : l.find? (fun e => decide (e.number = n)) = some e) : updTable n f l = updTable n (fun _ => f e) l := by
  induction l with
  | nil => simp at h
  | cons a l ih =>
    unfold updTable
    split
    next ha => simp only [List.find?_cons, ha, decide_true, Option.some.injEq] at h; rw [h]
    next ha => rw [ih (by simpa [List.find?_cons, ha] using h)]

theorem updEntry_eq_withEntry {n : LetterNo} {s : State} {e : Entry} (f : Entry → Entry) (h : s.entry? n = some e) :
    updEntry n f s = withEntry n (f e) s := by
  simp only [updEntry, withEntry, updTable_const f h]

theorem withEarly_offsize (e : Entry) : withEarly .offsize e = withOffsize e := by
  unfold withEarly withOffsize
  cases e.early <;> cases e.cause <;> simp

theorem bucketOf_eq (len : Nat) : bucketOf len =
    if len < 480 then .short else if len < 600 then .b120 else if len < 720 then .b150 else if len < 840 then .b180
    else if len < 960 then .b210 else if len < 1080 then .b240 else if len ≤ 1200 then .b270 else .long := by
  unfold bucketOf
  simp only [← Nat.lt_succ_iff (n := 479), ← Nat.lt_succ_iff (n := 599), ← Nat.lt_succ_iff (n := 719), ← Nat.lt_succ_iff (n := 839),
    ← Nat.lt_succ_iff (n := 959), ← Nat.lt_succ_iff (n := 1079)]

theorem PerBucket.get_upd {α : Type} (t : PerBucket α) (i j : Bucket) (f : α → α) :
    (t.upd i f).get j = if j = i then f (t.get j) else t.get j := by
  by_cases h : j = i
  · subst h; simp
  · rw [if_neg h, PerBucket.get_upd_ne t f (Ne.symm h)]

/-- An entry with its first length, checked against R13. -/
def lengthTaken (len : Nat) (e : Entry) : Entry :=
  if 480 ≤ len ∧ len ≤ 1200 then { e with length0 := some len } else withOffsize { e with length0 := some len }

theorem lengthTaken_eq (len : Nat) (e : Entry) :
    (if offsize len then withEarly .offsize { e with length0 := some len } else { e with length0 := some len }) = lengthTaken len e := by
  have h : offsize len = true ↔ ¬ (480 ≤ len ∧ len ≤ 1200) := by
    simp only [offsize, Bool.or_eq_true, decide_eq_true_eq]; omega
  unfold lengthTaken
  by_cases ho : 480 ≤ len ∧ len ≤ 1200
  · rw [if_pos ho, if_neg fun h' => h.1 h' ho]
  · rw [if_neg ho, if_pos (h.2 ho), withEarly_offsize]

/-- What a clearing of PE0 does while a letter is measured (R13, R167). -/
theorem pe0Tail_eq {n : LetterNo} {tail : Pos} {s : State} {e : Entry} (he : s.entry? n = some e) : pe0Tail n tail s =
    let len := (tail - e.anchor).toInt.toNat
    count (fun b => { b with lengths := b.lengths.upd (bucketOf len) (· + 1) })
      (withEntry n (lengthTaken len e) { s with trk := { s.trk with prevTail := some tail, measuring := none, overTaken := false } }) := by
  unfold pe0Tail
  dsimp only
  rw [he]
  dsimp only
  rw [updEntry_eq_withEntry (s := { s with trk := { s.trk with prevTail := some tail, measuring := none, overTaken := false } }) _ he,
    lengthTaken_eq]
  rfl

theorem entry_table_ne {n : LetterNo} {s : State} {e : Entry} (he : s.entry? n = some e) : s.trk.table ≠ [] :=
  fun h => by simp [State.entry?, h] at he

theorem updTable_eq_nil {n : LetterNo} {f : Entry → Entry} {l : List Entry} : updTable n f l = [] ↔ l = [] := by
  rw [← List.length_eq_zero_iff, updTable_length, List.length_eq_zero_iff]

theorem qualify_pe0_clear {ch : Change} {s : State} {n : LetterNo} (hraw : (s.pcm.cells.get .pe0).raw = .clear)
    (hm : s.trk.measuring = some n) : qualify .pe0 ch s = pe0Tail n ch.pos (qualified .pe0 s) := by
  have hm' : (qualified .pe0 s).trk.measuring = some n := hm
  unfold qualify
  simp only [edge, cellSup, hraw, reduceCtorEq, if_false]
  rw [hm']

/-- The over-length position gives OFFSIZE (R14). -/
theorem overLengthAct_eq {n : LetterNo} {s : State} {e : Entry} (he : s.entry? n = some e) :
    overLengthAct n s = withEntry n (withOffsize e) { s with trk := { s.trk with overTaken := true } } :=
  (updEntry_eq_withEntry (s := { s with trk := { s.trk with overTaken := true } }) _ he).trans (by rw [withEarly_offsize])

/-- Settles O22. -/
theorem tailOfPe0TakesLength : Obligations.TailOfPe0TakesLength := by
  intro s n e hr hm he
  refine ⟨fun ch hraw hc hd => ?_, fun ho hp => ?_⟩
  · have hex := exec_qualifyTravel hr hc hd
    have hent : (qualified .pe0 s).entry? n = some e := he
    rw [qualify_pe0_clear hraw hm, pe0Tail_eq hent, qualified_pe0 hraw] at hex
    dsimp only at hex
    generalize hw : count _ _ = w at hex
    have htable : w.trk.table ≠ [] := by
      rw [← hw]; exact fun h => entry_table_ne he (updTable_eq_nil.1 h)
    rw [endStacking_eq_endEvent (.inr (.inr htable)), endEvent_same (by rw [← hw]; rfl)] at hex
    refine ⟨_, _, hex, rfl, ?_, fun b => ?_, .left_eq (by rw [← hw]; rfl) (pump_kept [] _)⟩
    · rw [pump_eq, ← hw]; rfl
    · rw [← bucketOf_eq, (pump_frame w).2.2.2.2.2.2.2.2.1, ← hw]
      exact PerBucket.get_upd _ _ _ _
  · have hj : (PosKind.overLength, ((1201 + s.pfs.profile.minBlock : Nat) : Int)) ∈ reachedPositions s e :=
      mem_reachedPositions.2 ⟨mem_positions_iff.2 (.inr ⟨hr, .inl (mem_pe0Positions.2
        ⟨by rw [(entry_some he).2]; exact hm, .inl ⟨rfl, ho, rfl⟩⟩)⟩), hp⟩
    have hex : execOverLengthPosition s = .next (takeDue n .overLength s) := by rw [execOverLengthPosition, hm]
    exact hex.trans (by rw [takeDue_of_mem he hj, act, overLengthAct_eq he])

end Sys2Proof.Proofs
end

