-- ==== Sys2Proof/Proofs/Requests.lean ====
section
/-! PROOF. The taking of a request on a link at rest: its effect and its reply (R180, R185), for O51, O52 and O54. -/

namespace Sys2Proof.Proofs

open Sys2Proof Sys2Proof.Machine Sys2Proof.Safety Sys2Proof.Laws

/-! ### The taking of a request on a link at rest -/

/-- The state in which a request that arrives on an idle link is taken: heard, and alone in the answer list (R180). -/
def taking (r : Request) (s : State) : State :=
  { heard s with llk := { (heard s).llk with answers := [.waiting r] } }

/-- A state with its answer list emptied. -/
def unanswered (s : State) : State :=
  { s with llk := { s.llk with answers := [] } }

/-- A state with one answered item. -/
def answered (a : Reply) (s : State) : State :=
  { s with llk := { s.llk with answers := [.answered a] } }

theorem takeRequests_answered (n : Nat) (a : Reply) (s : State) : takeRequests n (answered a s) = answered a s := by
  cases n with
  | zero => rfl
  | succ n =>
    unfold takeRequests
    split
    · rfl
    · rfl

/-- A request taken at once is performed and answered in its event (R180). -/
theorem submit_idle {r : Request} {s u : State} {a : Reply} (hi : LinkIdle s) (hp : perform r (taking r s) = (u, .answered a)) :
    submit r s = answered a u := by
  have ht : join (.waiting r) (restartSilence s) = taking r s := by
    simp only [join, restartSilence, hi.answers, List.nil_append, taking, heard]
  have hr : (taking r s).llk.restarting = false := hi.restarting
  have hl : (restartSilence s).llk.answers = [] := hi.answers
  unfold submit
  dsimp only
  rw [if_neg (by simp [restartSilence, hi.restarting]), hl, if_neg (by simp), if_neg (by simp [waitingCount]), ht]
  unfold takeRequests
  rw [hr]
  simp only [taking, firstTakeable]
  rw [show ({ heard s with llk := { (heard s).llk with answers := [Item.waiting r] } } : State) = taking r s from rfl, hp]
  exact takeRequests_answered 7 a u

theorem judgeHold_answered (held : Bool) (a : Reply) (s : State) : judgeHold held (answered a s) = answered a (judgeHold held s) := by
  have hf : (answered a s).flc = s.flc := rfl
  unfold judgeHold
  rw [hf]
  split
  · rfl
  · split
    · rfl
    · rfl

/-- The reply formed is begun at once, unless the second line after a reset is still to come (R185, R195). -/
theorem pump_answered {a : Reply} {s : State} (hx : s.llk.tx = none) (ho : s.llk.opening ≠ .due) :
    pump (answered a s) = replying a s := by
  cases h : s.llk.opening with
  | due => exact absurd h ho
  | loading =>
    rw [pump_loading (s := answered a s) h]
    simp [replying, answered, h]
  | done =>
    rw [pump_done (s := answered a s) h hx]
    simp [replying, pickAvailable, answered, begin', h]

/-- The state a request taken on an idle link leaves: its effect, the hold cause set judged. -/
def effect (s u : State) : State :=
  unanswered (judgeHold s.flc.holds.any u)

/-- R180, R185: what a request on an idle link does is its effect, the judgement of the hold cause set, and its reply. -/
theorem answers_of_perform {c : Instr} {r : Request} {s u : State} {a : Reply} (hi : LinkIdle s)
    (hc : exec c s = .next (endEvent s (submit r s))) (hp : perform r (taking r s) = (u, .answered a)) :
    Answers c s a (effect s u) := by
  have hs := submit_idle hi hp
  have htx : u.llk.tx = none := by
    have h : (submit r s).llk.tx = s.llk.tx := by simp
    rw [hs] at h
    exact h.trans hi.tx
  have hop : u.llk.opening ≠ .due := by
    have h : (submit r s).llk.opening = s.llk.opening := by simp
    rw [hs] at h
    exact fun hd => hi.opening (h.symm.trans hd)
  unfold Answers
  rw [hc, hs, endEvent, judgeHold_answered, pump_answered]
  · rfl
  · simpa using htx
  · simpa using hop

/-- A request that changes nothing leaves the state in which it was heard. -/
theorem answers_unchanged {c : Instr} {r : Request} {s : State} {a : Reply} (hi : LinkIdle s)
    (hc : exec c s = .next (endEvent s (submit r s))) (hp : perform r (taking r s) = (taking r s, .answered a)) :
    Answers c s a (heard s) := by
  have h := answers_of_perform hi hc hp
  have he : effect s (taking r s) = heard s := by
    rw [effect, judgeHold_same (by rfl)]
    show ({ heard s with llk := { (heard s).llk with answers := [] } } : State) = heard s
    rw [← show (heard s).llk.answers = [] from hi.answers]
  rwa [he] at h

/-- What an operation keeps of the link of the state in which a request is taken, its effect keeps of the state in which it was heard. -/
theorem effect_kept {ks : List Kind} {r : Request} {s u : State} (hi : LinkIdle s) (hk : .feedHold ∈ ks)
    (h : LinkKept ks (taking r s) u) : LinkKept ks (heard s) (effect s u) := by
  have h' : LinkKept ks (taking r s) (judgeHold s.flc.holds.any u) := h.trans (judgeHold_kept _ _ hk)
  exact
    { rest := by
        show ({ (judgeHold s.flc.holds.any u).llk with answers := [] } : Llk) = _
        rw [h'.rest, ← show (heard s).llk.answers = [] from hi.answers]
        rfl
      flags := h'.flags
      reports := h'.reports
      sending := h'.sending
      opening := h'.opening }

/-- The judgement and the reply change the counter HOLD_CROSSINGS and the link alone (R152, R185). -/
theorem effect_eq (s u : State) : effect s u = { u with
    cnb := { u.cnb with bank := { u.cnb.bank with line := { u.cnb.bank.line with
      holdCrossings := (effect s u).cnb.bank.line.holdCrossings } } }
    llk := (effect s u).llk } := by
  have h := judgeHold_eq s.flc.holds.any u
  have hf : (judgeHold s.flc.holds.any u).flc = u.flc := by simp
  unfold effect
  generalize judgeHold s.flc.holds.any u = j at h hf
  rw [h, withHolds, hf]
  rfl

theorem effect_judged {s u : State} (hf : u.llk.flags.get .feedHold = s.llk.flags.get .feedHold)
    (hc : u.cnb.bank.line.holdCrossings = s.cnb.bank.line.holdCrossings) : HoldJudged s (effect s u) := by
  have h := judgeHold_judged hf hc
  exact ⟨h.flag, h.count⟩

theorem effect_flags (s u : State) {k : Kind} (hk : k ≠ .feedHold) : (effect s u).llk.flags.get k = u.llk.flags.get k :=
  (judgeHold_kept (ks := [.feedHold]) s.flc.holds.any u (List.mem_singleton.2 rfl)).flags k (by simpa using hk)

/-- A request that moves one hold cause (R150, R152). -/
theorem effect_moved {c : HoldCause} {b : Bool} {s u : State} (h : u.flc.holds = s.flc.holds.put b c)
    (hf : u.llk.flags.get .feedHold = s.llk.flags.get .feedHold)
    (hc : u.cnb.bank.line.holdCrossings = s.cnb.bank.line.holdCrossings) : HoldMoved c b s (effect s u) :=
  { effect_judged hf hc with holds := by rw [effect_eq]; exact h }

end Sys2Proof.Proofs
end

