-- ==== Sys2Proof/Proofs/Replies.lean ====
section
/-! PROOF. The reading requests answer with the state they name and change nothing (O51). -/

namespace Sys2Proof.Proofs

open Sys2Proof Sys2Proof.Machine Sys2Proof.Safety Sys2Proof.Laws

/-! ### The replies of the reading requests -/

theorem get_answers {s : State} (hi : LinkIdle s) (name : Text) :
    (s.flc.line = .powerup → Answers (.get name) s (.deny (text "GET") .wrongState none) (heard s) ∨ Config.getInPowerup name = true) ∧
    ((s.flc.line = .powerup → Config.getInPowerup name = true) → readParam name = none →
      Answers (.get name) s (.deny (text "GET") .name none) (heard s)) ∧
    (∀ p, (s.flc.line = .powerup → Config.getInPowerup name = true) → readParam name = some p →
      Answers (.get name) s (.ok (text "GET") [name, valueText (paramForm p) (s.pfs.profile.read p)]) (heard s)) := by
  have hl : (taking (.get name) s).flc.line = s.flc.line := rfl
  refine ⟨fun hp => ?_, fun hp hn => answers_unchanged hi rfl ?_, fun p hp hn => answers_unchanged hi rfl ?_⟩
  · cases hg : Config.getInPowerup name with
    | true => exact .inr rfl
    | false => exact .inl (answers_unchanged hi rfl (if_pos ⟨hl.trans hp, hg⟩))
  · show doGet name _ = _
    rw [doGet, if_neg fun h => by simp [hp (hl.symm.trans h.1)] at h, hn]
    rfl
  · show doGet name _ = _
    rw [doGet, if_neg fun h => by simp [hp (hl.symm.trans h.1)] at h, hn]
    rfl

theorem reading_answers {s : State} (hi : LinkIdle s) :
    Answers .ping s (.ok (text "PING") []) (heard s) ∧
    (∀ part, Answers (.status part) s
      (.ok (text "STATUS") (sectionName (part.getD .line) :: statusFields (heard s) (part.getD .line))) (heard s)) ∧
    Answers (.pockets none) s (.ok (text "POCKETS") (pocketsFields s)) (heard s) ∧
    (∀ q, Answers (.pockets (some q)) s (.ok (text "POCKETS") (pocketFields s q)) (heard s)) ∧
    (∀ p, p ≤ 6 → Answers (.count p) s
      (.ok (text "COUNT") ([dec p, hex8 s.cnb.snap.number, hex8 s.cnb.snap.pos] ++ pageFields s.cnb.snap p)) (heard s)) ∧
    (∀ p, 6 < p → Answers (.count p) s (.deny (text "COUNT") .range none) (heard s)) ∧
    (∀ i, i.getD 0 ≤ 63 → Answers (.table i) s (.ok (text "TABLE") (tableFields s (i.getD 0))) (heard s)) ∧
    (∀ i, 63 < i.getD 0 → Answers (.table i) s (.deny (text "TABLE") .range none) (heard s)) ∧
    Answers .flags s
      (.ok (text "FLAGS") [hexDigits 4 (flagBits s (·.set)), hexDigits 4 (flagBits s (·.masked))]) (heard s) :=
  ⟨answers_unchanged hi rfl rfl, fun _ => answers_unchanged hi rfl rfl, answers_unchanged hi rfl rfl,
    fun _ => answers_unchanged hi rfl rfl, fun _ h => answers_unchanged hi rfl (if_pos h),
    fun _ h => answers_unchanged hi rfl (if_neg (Nat.not_le.2 h)), fun _ h => answers_unchanged hi rfl (if_pos h),
    fun _ h => answers_unchanged hi rfl (if_neg (Nat.not_le.2 h)), answers_unchanged hi rfl rfl⟩

/-! ### What the replies give -/

/-- A number read from its bits, the first the lowest. -/
def bitsValue (l : List Bool) : Nat :=
  l.foldr (fun b acc => (if b then 1 else 0) + 2 * acc) 0

theorem bitsValue_lt (l : List Bool) : bitsValue l < 2 ^ l.length := by
  induction l with
  | nil => decide
  | cons b l ih =>
    have : bitsValue (b :: l) = (if b then 1 else 0) + 2 * bitsValue l := rfl
    rw [this, List.length_cons, pow_succ]
    cases b <;> simp <;> omega

theorem bitsValue_testBit (l : List Bool) {i : Nat} {b : Bool} (h : l[i]? = some b) : (bitsValue l).testBit i = b := by
  induction l generalizing i with
  | nil => simp at h
  | cons a l ih =>
    have hv : bitsValue (a :: l) = Nat.bit a (bitsValue l) := by
      cases a <;> simp [bitsValue, Nat.bit_val, Nat.add_comm]
    rw [hv]
    cases i with
    | zero => simpa using h
    | succ i => rw [Nat.testBit_bit_succ]; exact ih (by simpa using h)

theorem flagList (t : PerKind Flag) : t.toList = Kind.all.map t.get := by
  rfl

/-- R186: the bit of each kind. -/
theorem flagBits_spec (s : State) (test : Flag → Bool) :
    flagBits s test < 2 ^ 14 ∧ ∀ i k, Kind.all[i]? = some k → (flagBits s test).testBit i = test (s.llk.flags.get k) := by
  refine ⟨bitsValue_lt (s.llk.flags.toList.map test), fun i k h => bitsValue_testBit _ ?_⟩
  rw [flagList, List.map_map, List.getElem?_map, h]
  rfl

theorem field_some {α : Type} (f : α → Text) (v : α) : field f (some v) = f v :=
  rfl

theorem field_none {α : Type} (f : α → Text) : field f none = text "-" :=
  show absent = text "-" by decide

/-- R16, R190: the five fields of an entry in the reply to TABLE. -/
theorem entryFields_eq (s : State) (e : Entry) : entryFields s e =
    [dec e.number.toNat,
      text (match e.path with | none => "-" | some .straight => "STRAIGHT" | some .twist => "TWIST" | some .reject => "REJECT"),
      cellName e.lastPe, text (if e.stranded then "S" else "-"),
      dec (((match e.stranded, s.flc.fault with | true, some f => f.pos | _, _ => s.trk.belt) - e.anchor).toInt.toNat / 4)] := by
  have hp : field pathName e.path =
      text (match e.path with | none => "-" | some .straight => "STRAIGHT" | some .twist => "TWIST" | some .reject => "REJECT") := by
    rcases e.path with _ | _ | _ | _
    · exact field_none _
    · rfl
    · rfl
    · rfl
  have hs : flagChar e.stranded (text "S") = text (if e.stranded then "S" else "-") := by
    cases e.stranded <;> decide
  have hd : headDistance s e = ((match e.stranded, s.flc.fault with | true, some f => f.pos | _, _ => s.trk.belt) - e.anchor).toInt.toNat / 4 := by
    unfold headDistance
    cases e.stranded
    · rfl
    · cases s.flc.fault <;> rfl
  rw [entryFields, hp, hs, hd]

/-- R119, R140: what TABLE shows of the disposal of an entry. -/
theorem disposalFields_spec (e : Entry) : ∃ outcome marks pocket cause : Text, disposalFields e = [outcome, marks, pocket, cause] ∧
    (e.job = none → outcome = text "-" ∧ marks = text "-") ∧
    (∀ job, e.job = some job →
      outcome = text (match job.outcome with
        | .pending => "PENDING" | .done => "DONE" | .skippedBusy => "SKIPPED_BUSY" | .skippedUnavailable => "SKIPPED_UNAVAILABLE"
        | .skippedParity => "SKIPPED_PARITY" | .failed => "FAILED") ∧
      marks = text (if job.truncated then "T" else "-") ++ text (if job.density = some .reduced then "R" else "-")) ∧
    (e.pocket = none → pocket = text "-") ∧ (∀ q, e.pocket = some q → pocket = pocketName q) ∧
    (e.cause = some .noPocket → cause = text "NO_POCKET") ∧ (e.cause ≠ some .noPocket → cause = text "-") := by
  refine ⟨_, _, _, _, rfl, fun h => ?_, fun job h => ?_, fun h => ?_, fun q h => ?_, fun h => ?_, fun h => ?_⟩
  · rw [h]; exact ⟨field_none _, field_none _⟩
  · rw [h]
    refine ⟨?_, ?_⟩
    · rw [field_some]; cases job.outcome <;> rfl
    · rw [field_some, marksField]
      cases job.truncated <;> by_cases hd : job.density = some .reduced <;> simp [hd] <;> decide
  · rw [h]; exact field_none _
  · rw [h, field_some]
  · rw [if_pos h]; rfl
  · rw [if_neg h]; decide

/-- R182: TABLE shows up to five entries, from the one asked for. -/
theorem shown_getElem? {l : List Entry} {i j : Nat} {e : Entry} (hj : j < 5) (h : l[i + j]? = some e) :
    ((l.drop i).take 5)[j]? = some e := by
  rw [List.getElem?_take_of_lt hj, List.getElem?_drop, h]

theorem tableFields_eq (s : State) (i : Nat) : tableFields s i = [dec s.trk.table.length, dec i] ++
    (((s.trk.table.drop i).take 5).map (entryFields s)).flatten ++ (((s.trk.table.drop i).take 5).map disposalFields).flatten := by
  simp only [tableFields, List.flatMap_def]

/-- R190: the letter of a pocket in the reply to POCKETS. -/
def pocketCode (s : State) (q : Pocket) : String :=
  let r := s.pkc.recs.get q
  if isBin q = true then (if r.sensor = .active then "A" else "C")
  else if s.pfs.profile.fitted q = true then match r.state with
    | .open => "O" | .nearFull => "N" | .full => "F" | .sweepPending => "P" | .sweep => "S" | .disabled => "D"
  else "X"

theorem isBin_iff (q : Pocket) : isBin q = true ↔ q = .ea ∨ q = .eb ∨ q = .er := by
  cases q <;> decide

theorem pocketsFields_eq (s : State) : pocketsFields s =
    (Pocket.all.map fun q => text (pocketCode s q) ++ dec (s.pkc.recs.get q).committed) ++ [listField (s.pkc.blocked.map blockCode)] := by
  unfold pocketsFields
  refine congrArg (· ++ _) (List.map_congr_left fun q _ => congrArg (· ++ _) ?_)
  unfold pocketCode
  dsimp only
  split_ifs
  · rfl
  · rfl
  · cases (s.pkc.recs.get q).state <;> rfl
  · rfl

theorem listField_spec (f g : Text) (rest : List Text) : listField [] = text "-" ∧ listField [f] = f ∧
    listField (f :: g :: rest) = f ++ text "," ++ listField (g :: rest) := by
  refine ⟨by decide, by simp [listField, joinWith], ?_⟩
  simp [listField, joinWith]
  rfl

/-- R190: the reply to POCKETS with a pocket. -/
theorem pocketFields_spec (s : State) (q : Pocket) :
    let r := s.pkc.recs.get q
    let p := s.pfs.profile
    let bin := q = .ea ∨ q = .eb ∨ q = .er
    let sensor := if r.sensor = .active then text "ACTIVE" else text "CLEAR";
    (bin → pocketFields s q = [pocketName q, dec r.count, dec r.committed, sensor]) ∧
    (¬ bin → ∃ cls, pocketFields s q = [pocketName q, text (if p.fitted q then "YES" else "NO"), cls, dec (p.capacity q),
        dec (p.nearFull q), dec r.count, dec r.committed, pocketStateName r.state, sensor] ∧
      (q = .rm → cls = text "MACHINE") ∧ (q = .rh → cls = text "MANUAL") ∧
      ∀ x, stackOf q = some x → cls = pocketClassName (p.stack.get x).cls) := by
  dsimp only
  have hs : paddleName (s.pkc.recs.get q).sensor = if (s.pkc.recs.get q).sensor = .active then text "ACTIVE" else text "CLEAR" := by
    cases (s.pkc.recs.get q).sensor <;> rfl
  have hf : yesNo (s.pfs.profile.fitted q) = text (if s.pfs.profile.fitted q then "YES" else "NO") := by
    cases s.pfs.profile.fitted q <;> rfl
  rw [← isBin_iff, ← hs, ← hf]
  refine ⟨fun h => if_pos h, fun h => ⟨pocketClassField s.pfs.profile q, if_neg h, ?_, ?_, fun x hx => ?_⟩⟩
  · rintro rfl; rfl
  · rintro rfl; rfl
  · simp only [pocketClassField, hx]

theorem flagChar_eq (b : Bool) (c : String) : flagChar b (text c) = if b then text c else text "-" := by
  cases b <;> rfl

theorem onOff_eq (b : Bool) : onOff b = text (if b then "ON" else "OFF") := by
  cases b <;> rfl

theorem statusTrack_eq (s : State) :
    let level := fun c => if (s.pcm.cells.get c).qual = .blocked then text "B" else text "C"
    statusFields s .track = [hex8 s.trk.belt, dec2 s.trk.speed, dec s.trk.table.length, dec s.trk.nextNumber.toNat,
      level .pe0 ++ level .pe1 ++ level .pe2 ++ level .pe3a ++ level .pe3b ++ level .pe4r] := by
  simp [statusFields, statusTrack, Photocell.all]

theorem statusGates_eq (s : State) :
    statusFields s .gates = [Gate.g1, .gr, .g2, .a1, .a2, .a3, .a4, .a5, .a6, .b1, .b2, .b3, .b4, .b5, .b6, .rm, .rh].map fun g =>
      settingName (s.ptc.gates.get g).setting ++ text (if (s.ptc.gates.get g).settle = none then ".I" else ".S") := by
  refine List.map_congr_left fun g _ => ?_
  dsimp only
  cases (s.ptc.gates.get g).settle <;> simp <;> decide

/-- Settles O51: what each reading request answers, and what its reply gives. -/
theorem readingRequestsAnswer : Obligations.ReadingRequestsAnswer := by
  refine ⟨fun s hi => ?_, fun s test => flagBits_spec s test, fun s i => ?_, fun n => ⟨rfl, rfl, rfl, rfl, rfl, rfl, rfl⟩, fun s => ?_,
    by decide, fun f g rest => listField_spec f g rest, fun s q => pocketFields_spec s q, fun s => ?_,
    fun α f v => ⟨field_none f, rfl⟩⟩
  · obtain ⟨ping, status, pockets, pocket, count, countDenied, table, tableDenied, flags⟩ := reading_answers hi
    exact ⟨ping, status, fun name => (get_answers hi name).1, fun name => (get_answers hi name).2.1,
      fun name => (get_answers hi name).2.2, pockets, pocket, count, countDenied, table, tableDenied, flags⟩
  · refine ⟨_, _, tableFields_eq s i, by simp, by simp, fun j e hj he => ⟨?_, ?_⟩⟩
    · have h : (((s.trk.table.drop i).take 5).map (entryFields s))[j]? = some (entryFields s e) := by
        rw [List.getElem?_map, shown_getElem? hj he, Option.map_some]
      exact h.trans (congrArg some (entryFields_eq s e))
    · obtain ⟨outcome, marks, pocket, cause, h, hspec⟩ := disposalFields_spec e
      exact ⟨outcome, marks, pocket, cause, by rw [List.getElem?_map, shown_getElem? hj he, Option.map_some, h], hspec⟩
  · refine ⟨_, pocketsFields_eq s, rfl, fun i q hq => ⟨pocketCode s q, ?_, fun hb => ?_, fun hb hf => ?_, fun hb hf => ?_⟩⟩
    · rw [List.getElem?_map, show Pocket.all[i]? = some q from hq]; rfl
    · exact if_pos ((isBin_iff q).2 hb)
    · exact (if_neg (mt (isBin_iff q).1 hb)).trans (if_neg (by simp [hf]))
    · exact (if_neg (mt (isBin_iff q).1 hb)).trans (if_pos hf)
  · refine ⟨?_, statusTrack_eq s, rfl, rfl, statusGates_eq s, rfl⟩
    simp only [statusFields, statusLine, flagChar_eq, onOff_eq, apply_ite text, distance]

end Sys2Proof.Proofs
end

