-- ==== Sys2Proof/Proofs/Checks.lean ====
section
/-! PROOF. The START checks, in the terms of R193, and the first of a list that fails (O52). -/

namespace Sys2Proof.Proofs

open Sys2Proof Sys2Proof.Machine Sys2Proof.Safety Sys2Proof.Laws

/-! ### The first of a list that fails -/

/-- In a list without repetitions the first element with a property is the one that has it and no earlier one. -/
theorem find?_split {α : Type} {p : α → Bool} {l m : List α} {c : α} (hn : (l ++ c :: m).Nodup) :
    (l ++ c :: m).find? p = some c ↔ p c = true ∧ ∀ d ∈ l, p d = false := by
  rw [List.find?_eq_some_iff_append]
  refine and_congr_right fun _ => ⟨fun ⟨as, bs, he, h⟩ => ?_, fun h => ⟨l, m, rfl, by simpa using h⟩⟩
  have hc : c ∉ l := fun hl => (List.disjoint_of_nodup_append hn hl) List.mem_cons_self
  have hm : c ∉ m := (List.nodup_cons.1 hn.of_append_right).1
  obtain ⟨rfl, -, -⟩ := (List.append_cons_inj_of_notMem hc hm).1 he
  simpa using h

/-! ### The START checks (R193) -/

theorem startChecks_nodup : StartCheck.all.Nodup := by
  decide

theorem mem_startChecks (c : StartCheck) : c ∈ StartCheck.all := by
  cases c <;> decide

theorem failing_none (p : Profile) : p.failing = none ↔ ∀ c, p.passes c = true := by
  simp [Profile.failing, mem_startChecks]

theorem failing_some (p : Profile) {l m : List StartCheck} {c : StartCheck} (h : StartCheck.all = l ++ c :: m) :
    p.failing = some c ↔ p.passes c = false ∧ ∀ d ∈ l, p.passes d = true := by
  have hn := startChecks_nodup
  rw [h] at hn
  rw [Profile.failing, h, find?_split hn]
  simp

theorem rising_iff (l : List Nat) : rising l = true ↔ l.Pairwise (· < ·) := by
  induction l with
  | nil => simp [rising]
  | cons a l ih =>
    cases l with
    | nil => simp [rising]
    | cons b l =>
      simp only [rising, Bool.and_eq_true, decide_eq_true_eq, ih, List.pairwise_cons, List.mem_cons, forall_eq_or_imp]
      constructor
      · rintro ⟨hab, hb, hl⟩
        exact ⟨⟨hab, fun x hx => hab.trans (hb x hx)⟩, hb, hl⟩
      · rintro ⟨⟨hab, -⟩, hb, hl⟩
        exact ⟨hab, hb, hl⟩

theorem stationList (t : PerStation (Option Nat)) : t.toList = Station.all.map t.get :=
  rfl

theorem mem_stationAll (st : Station) : st ∈ Station.all := by
  cases st <;> decide

theorem stackList (t : PerStack StackRec) : t.toList = StackPocket.all.map t.get :=
  rfl

theorem mem_stackAll (x : StackPocket) : x ∈ StackPocket.all := by
  cases x <;> decide

theorem geometrySet_iff (p : Profile) : p.geometrySet = true ↔ ∀ st, (p.stations.get st).isSome = true := by
  simp [Profile.geometrySet, stationList, mem_stationAll]

theorem classesOn_iff (p : Profile) (st : Stream) : p.classesOn st = true ↔
    ∀ k, (k = PocketClass.cancelled ∨ k = .metered ∨ k = .uncancelled) →
      ∃ x ∈ stackOn st, (p.stack.get x).fit = true ∧ ((p.stack.get x).cls = k ∨ (p.stack.get x).cls = .overflow) := by
  simp only [Profile.classesOn, List.all_eq_true, List.mem_cons, List.not_mem_nil, or_false, List.any_eq_true, List.mem_filter,
    List.mem_map, decide_eq_true_eq]
  refine forall₂_congr fun k _ => ?_
  constructor
  · rintro ⟨_, ⟨⟨x, hx, rfl⟩, hf⟩, hc⟩
    exact ⟨x, hx, hf, hc⟩
  · rintro ⟨x, hx, hf, hc⟩
    exact ⟨_, ⟨⟨x, hx, rfl⟩, hf⟩, hc⟩

/-- Each START check, said in the terms of R193. -/
theorem passes_spec (p : Profile) (c : StartCheck) : p.passes c = true ↔
    let d := p.dist
    let rises := fun (l : List Station) => (l.map d).Pairwise (· < ·)
    let served := fun st => ∀ k, (k = .cancelled ∨ k = .metered ∨ k = .uncancelled) →
      ∃ x ∈ stackOn st, (p.stack.get x).fit = true ∧ ((p.stack.get x).cls = k ∨ (p.stack.get x).cls = .overflow);
    match c with
    | .unset => ∀ st, (p.stations.get st).isSome = true
    | .orderA => rises [.pe1, .sh, .dp, .g1, .mp, .pe2, .g2, .pe3a, .ca, .psa, .a1, .a2, .a3, .a4, .a5, .a6, .ea]
    | .orderB => rises [.pe1, .sh, .dp, .g1, .mp, .pe2, .g2, .pe3b, .cb, .psb, .b1, .b2, .b3, .b4, .b5, .b6, .eb]
    | .orderR => rises [.g1, .pe4r, .gr, .psr, .rm, .er] ∧ rises [.psr, .rh, .er]
    | .scan => 4 * 300 + p.minBlock + 4 * 4 ≤ d .sh
    | .decision => d .sh + 4 * 308 ≤ d .dp
    | .turnGate => (p.settleG1 + p.slipTol : Int) ≤ d .g1 - d .dp
    | .rejectGate => (p.settleGr + p.slipTol : Int) ≤ d .gr - d .dp
    | .gap => ∀ x ∈ [p.settleG1, p.settleGr, p.settleG2, p.settlePkt], x + 2 * p.slipTol ≤ p.minGap
    | .mergeGap => p.minMergeGap ≤ p.minGap
    | .selectA => d .ca + 4 * 300 + p.doneMargin ≤ d .psa
    | .selectB => d .cb + 4 * 300 + p.doneMargin ≤ d .psb
    | .classesA => served .a
    | .classesB => served .b
    | .nearFull => (∀ k, (p.stack.get k).near < (p.stack.get k).cap) ∧ p.rmNear < p.rmCap ∧ p.rhNear < p.rhCap
    | .tableMarks => p.releaseAt < p.holdAt
    | .window => p.w ≤ p.z := by
  cases c with
  | unset => exact geometrySet_iff p
  | orderA => exact rising_iff _
  | orderB => exact rising_iff _
  | orderR =>
    simp [Profile.passes, rising_iff]
    omega
  | scan => simp [Profile.passes]
  | decision => simp [Profile.passes]
  | turnGate => simp only [Profile.passes, decide_eq_true_eq]; omega
  | rejectGate => simp only [Profile.passes, decide_eq_true_eq]; omega
  | gap =>
    simp [Profile.passes, Profile.largestSettle]
    omega
  | mergeGap => exact decide_eq_true_iff
  | selectA => exact decide_eq_true_iff
  | selectB => exact decide_eq_true_iff
  | classesA => exact classesOn_iff p .a
  | classesB => exact classesOn_iff p .b
  | nearFull => simp [Profile.passes, stackList, mem_stackAll, and_assoc]
  | tableMarks => exact decide_eq_true_iff
  | window => exact decide_eq_true_iff

end Sys2Proof.Proofs
end

