-- ==== Sys2Proof/Proofs/Start.lean ====
section
/-! PROOF. START is refused by the first condition that applies, and otherwise enters STARTING (O52). -/

namespace Sys2Proof.Proofs

open Sys2Proof Sys2Proof.Machine Sys2Proof.Safety Sys2Proof.Laws

/-! ### The refusals of START (R144) -/

/-- A START that is refused has no effect (R144). -/
theorem start_refused {s : State} {a : Reply} (hi : LinkIdle s) (h : startRefusal s = some (.answered a)) :
    Answers .start s a (heard s) := by
  refine answers_unchanged hi rfl ?_
  have h' : startRefusal (taking .start s) = some (.answered a) := h
  show doStart _ = _
  rw [doStart, h']

/-- The heads pass where DEGRADE_POLICY is not DRAIN, or all are READY. -/
theorem startHeads_none {s : State} (hh : s.pfs.profile.degradePolicy = .drain → ∀ h, (s.scu.heads.get h).state = .ready) :
    (if s.pfs.profile.degradePolicy = .drain then firstUnready s else none) = none := by
  split
  next hp => simp [firstUnready, hh hp]
  next => rfl

section
variable {s : State} (hl : s.flc.line = .standby) (he : s.flc.estop = false)
include hl he

theorem startRefusal_geometry {c : StartCheck} (hf : s.pfs.profile.failing = some c) :
    startRefusal s = some (denyWith .start .geometry (checkName c)) := by
  simp [startRefusal, hl, he, hf]

theorem startRefusal_dater (hf : s.pfs.profile.failing = none) (hd : s.can.dater = none) :
    startRefusal s = some (deny .start .daterUnset) := by
  simp [startRefusal, hl, he, hf, hd]

variable (hf : s.pfs.profile.failing = none) (hd : s.can.dater ≠ none)
include hf hd

theorem startRefusal_heads {h : Head} (hp : s.pfs.profile.degradePolicy = .drain) (hh : firstUnready s = some h) :
    startRefusal s = some (denyWith .start .heads (headName h)) := by
  simp [startRefusal, hl, he, hf, hd, hp, hh]

variable (hh : s.pfs.profile.degradePolicy = .drain → ∀ h, (s.scu.heads.get h).state = .ready)
include hh

theorem startRefusal_faults (hc : s.pfs.profile.faultLimit ≤ s.flc.faultCount) :
    startRefusal s = some (deny .start .repeatedFault) := by
  simp only [startRefusal, hl, he, hf, startHeads_none hh]
  simp [hd, hc]

variable (hc : s.flc.faultCount < s.pfs.profile.faultLimit)
include hc

theorem startRefusal_bins : startRefusal s = (firstFullBin s).map fun b => denyWith .start .endBinFull (pocketName b) := by
  simp only [startRefusal, hl, he, hf, startHeads_none hh]
  simp only [hd, Nat.not_le.2 hc]
  cases firstFullBin s <;> simp

end

/-- R144: the first of the conditions that applies refuses START. -/
theorem start_refusals {s : State} (hi : LinkIdle s) :
    let refused := fun c d => Answers .start s (.deny (text "START") c d) (heard s)
    let ready := s.flc.line = .standby ∧ s.flc.estop = false
    let dated := ready ∧ s.pfs.profile.failing = none ∧ s.can.dater ≠ none
    let headsGood := s.pfs.profile.degradePolicy = .drain → ∀ h, (s.scu.heads.get h).state = .ready
    let open' := dated ∧ headsGood ∧ s.flc.faultCount < s.pfs.profile.faultLimit
    let full := fun q => (s.pkc.recs.get q).sensor = .active;
    (s.flc.line ≠ .standby → refused .wrongState none) ∧
    (s.flc.line = .standby → s.flc.estop = true → refused .estop none) ∧
    (∀ c, ready → s.pfs.profile.failing = some c → refused .geometry (some (checkName c))) ∧
    (ready → s.pfs.profile.failing = none → s.can.dater = none → refused .daterUnset none) ∧
    (∀ l h m, dated → s.pfs.profile.degradePolicy = .drain → [Head.ft, .fb, .bt, .bb] = l ++ h :: m →
      (∀ g ∈ l, (s.scu.heads.get g).state = .ready) → (s.scu.heads.get h).state ≠ .ready → refused .heads (some (headName h))) ∧
    (dated → headsGood → s.pfs.profile.faultLimit ≤ s.flc.faultCount → refused .repeatedFault none) ∧
    (∀ l q m, open' → [Pocket.ea, .eb, .er] = l ++ q :: m → (∀ p ∈ l, ¬ full p) → full q →
      refused .endBinFull (some (pocketName q))) := by
  dsimp only
  refine ⟨fun h => ?_, fun h he => ?_, ?_, ?_, ?_, ?_, ?_⟩
  · exact start_refused hi (by rw [startRefusal, if_pos h]; rfl)
  · exact start_refused hi (by rw [startRefusal, if_neg (not_not.2 h), if_pos he]; rfl)
  · rintro c ⟨hl, he⟩ hf
    exact start_refused hi (startRefusal_geometry hl he hf)
  · rintro ⟨hl, he⟩ hf hd
    exact start_refused hi (startRefusal_dater hl he hf hd)
  · rintro l h m ⟨⟨hl, he⟩, hf, hd⟩ hp hlist hbefore hh
    refine start_refused hi (startRefusal_heads hl he hf hd hp ?_)
    exact List.find?_eq_some_iff_append.2 ⟨by simpa using hh, l, m, hlist, fun g hg => by simp [hbefore g hg]⟩
  · rintro ⟨⟨hl, he⟩, hf, hd⟩ hh hc
    exact start_refused hi (startRefusal_faults hl he hf hd hh hc)
  · rintro l q m ⟨⟨⟨hl, he⟩, hf, hd⟩, hh, hc⟩ hlist hbefore hq
    have hb : firstFullBin s = some q :=
      List.find?_eq_some_iff_append.2 ⟨by simpa using hq, l, m, hlist, fun g hg => by simp [hbefore g hg]⟩
    exact start_refused hi (by rw [startRefusal_bins hl he hf hd hh hc, hb]; rfl)

/-! ### The entry to STARTING (R145) -/

/-- A canceller record at the entry to STARTING (R99). -/
def startedCanceller (p : Profile) (now : Nat) (k : CancRec) : CancRec :=
  let r := { k with armDist := p.armDist, doneMargin := p.doneMargin }
  if r.state = .off then
    { r with state := .priming, parityRun := 0, primeTimer := some now, frames := r.frames ++ [.prime] }
  else r

/-- The value R117 gives the hold cause CANCEL. -/
def cancelOwed (s : State) : Bool :=
  decide (s.pfs.profile.cancelPolicy = .hold ∧ (s.flc.line = .starting ∨ s.flc.line = .run) ∧ cancellerOut s = true)

theorem refreshCancel_owed (s : State) : refreshCancel s = setHold .cancel (cancelOwed s) s :=
  refreshCancel_eq s

theorem Holds.put_put (h : Machine.Holds) (a b : Bool) (c : HoldCause) : (h.put a c).put b c = h.put b c := by
  cases c <;> rfl

/-- What the entry of a canceller to STARTING does (R99, R117, R119). -/
structure CancStarted (c : Stream) (s t : State) : Prop where
  rest   : t = { s with can := t.can, flc := { s.flc with holds := t.flc.holds }, llk := t.llk }
  can    : t.can = { s.can with recs := s.can.recs.upd c (startedCanceller s.pfs.profile s.now) }
  owed   : ∀ h : Machine.Holds, s.flc.holds = h.put (cancelOwed s) .cancel → t.flc.holds = h.put (cancelOwed t) .cancel
  link   : LinkKept [.cancellerState] s t
  primed : (s.can.recs.get c).state = .off → FlagSet .cancellerState (.canceller c .priming none) s t
  stayed : (s.can.recs.get c).state ≠ .off → t.llk = s.llk

theorem updCanc_congr {c : Stream} {f g : CancRec → CancRec} {s : State} (h : f (s.can.recs.get c) = g (s.can.recs.get c)) :
    updCanc c f s = updCanc c g s := by
  unfold updCanc PerStream.upd
  rw [h]

theorem updCanc_updCanc (c : Stream) (f g : CancRec → CancRec) (s : State) : updCanc c f (updCanc c g s) = updCanc c (f ∘ g) s := by
  cases c <;> rfl

/-- A canceller record that primes (R99). -/
def primed (now : Nat) (r : CancRec) : CancRec :=
  { r with state := .priming, parityRun := 0, primeTimer := some now, frames := r.frames ++ [.prime] }

/-- A canceller record with the distances of the working profile (R99). -/
def withDistances (p : Profile) (r : CancRec) : CancRec :=
  { r with armDist := p.armDist, doneMargin := p.doneMargin }

theorem startedCanceller_eq (p : Profile) (now : Nat) (r : CancRec) : startedCanceller p now r =
    if r.state = .off then primed now (withDistances p r) else withDistances p r :=
  rfl

theorem cancPrime_off {c : Stream} {s : State} (h : (s.can.recs.get c).state = .off) : cancPrime c s =
    refreshCancel (setFlag .cancellerState (.canceller c .priming none) (updCanc c (primed s.now) s)) := by
  have hp : ((updCanc c (fun r => { r with parityRun := 0, primeTimer := some s.now }) (sendFrame c .prime s)).can.recs.get c).state =
      .off := by simp [sendFrame, h]
  have hu : updCanc c (fun r => { r with state := .priming })
      (updCanc c (fun r => { r with parityRun := 0, primeTimer := some s.now }) (sendFrame c .prime s)) = updCanc c (primed s.now) s := by
    simp only [sendFrame, updCanc_updCanc]
    rfl
  unfold cancPrime cancTo
  dsimp only
  rw [hp, if_pos ⟨by decide, .inr rfl⟩, if_neg (by decide)]
  exact congrArg (fun t => refreshCancel (setFlag .cancellerState (.canceller c .priming none) t)) hu

theorem cancStarting_eq (c : Stream) (s : State) : cancStarting c s =
    if (s.can.recs.get c).state = .off then cancPrime c (updCanc c (withDistances s.pfs.profile) s)
    else updCanc c (withDistances s.pfs.profile) s := by
  have hs : ((updCanc c (withDistances s.pfs.profile) s).can.recs.get c).state = (s.can.recs.get c).state := by simp [withDistances]
  rw [← hs]
  rfl

theorem cancStarting_off {c : Stream} {s : State} (h : (s.can.recs.get c).state = .off) : cancStarting c s =
    refreshCancel (setFlag .cancellerState (.canceller c .priming none) (updCanc c (startedCanceller s.pfs.profile s.now) s)) := by
  have hu : updCanc c (primed s.now) (updCanc c (withDistances s.pfs.profile) s) =
      updCanc c (startedCanceller s.pfs.profile s.now) s := by
    rw [updCanc_updCanc]
    exact updCanc_congr (by simp [startedCanceller_eq, h])
  rw [cancStarting_eq, if_pos h, cancPrime_off (by simpa [withDistances] using h)]
  exact congrArg (fun t => refreshCancel (setFlag .cancellerState (.canceller c .priming none) t)) hu

theorem cancStarting_on {c : Stream} {s : State} (h : (s.can.recs.get c).state ≠ .off) : cancStarting c s =
    updCanc c (startedCanceller s.pfs.profile s.now) s := by
  rw [cancStarting_eq, if_neg h]
  exact updCanc_congr (by simp [startedCanceller_eq, h])

theorem cancellerOut_of_states {s t : State} (h : ∀ c, (t.can.recs.get c).state = (s.can.recs.get c).state) :
    cancellerOut t = cancellerOut s := by
  unfold cancellerOut
  rw [show t.can.recs.a.state = s.can.recs.a.state from h .a, show t.can.recs.b.state = s.can.recs.b.state from h .b]

theorem cancStarting_started (c : Stream) (s : State) : CancStarted c s (cancStarting c s) := by
  by_cases h : (s.can.recs.get c).state = .off
  · rw [cancStarting_off h, refreshCancel_owed]
    have hx : (setFlag .cancellerState (.canceller c .priming none)
        (updCanc c (startedCanceller s.pfs.profile s.now) s)).flc.holds = s.flc.holds := rfl
    refine ⟨rfl, rfl, fun g hg => ?_, ?_, fun _ => setFlag_set _ _ _, fun h' => absurd h h'⟩
    · rw [setHold_effect, hx, hg, Holds.put_put]
      rfl
    · exact (setFlag_kept' (by rfl) (List.mem_singleton.2 rfl)).trans (setHold_kept _ _ _ _)
  · rw [cancStarting_on h]
    refine ⟨rfl, rfl, fun g hg => ?_, .of_eq rfl, fun h' => absurd h' h, fun _ => rfl⟩
    have ho : cancellerOut (updCanc c (startedCanceller s.pfs.profile s.now) s) = cancellerOut s := by
      refine cancellerOut_of_states fun d => ?_
      by_cases hd : d = c
      · subst hd; simp [startedCanceller_eq, h, withDistances]
      · simp [PerStream.get_upd_ne _ _ (Ne.symm hd)]
    show s.flc.holds = _
    rw [hg]
    unfold cancelOwed
    rw [ho]
    rfl

/-- The records that the entry to STARTING drops or begins (R9, R80, R91, R145). -/
def startReset (s : State) : State :=
  { s with
    trk := { s.trk with prevTail := none }
    ptc := { s.ptc with merge := none, gates := s.ptc.gates.map startGate }
    flc := { s.flc with runUp := some s.now, runUpQual := none } }

/-- The state at the entry to STARTING, before the cancellers' part. -/
def startEntered (s : State) : State :=
  setLine .starting .start none (startReset s)

theorem enterStarting_eq (s : State) : enterStarting s = cancStarting .b (cancStarting .a (startEntered s)) :=
  rfl

theorem startEntered_eq (s : State) : startEntered s = { s with
    trk := { s.trk with prevTail := none }
    ptc := { s.ptc with merge := none, gates := s.ptc.gates.map startGate }
    flc := { s.flc with
      line := .starting, runUp := some s.now, runUpQual := none
      holds := s.flc.holds.put (cancelOwed (startEntered s)) .cancel }
    llk := (startEntered s).llk } := by
  unfold startEntered setLine
  rw [refreshCancel_owed]
  rfl

theorem startEntered_flag (s : State) : FlagSet .lineState (.line .starting .start none) s (startEntered s) :=
  setFlag_set _ _ _

theorem startEntered_link (s : State) : LinkKept [.lineState] s (startEntered s) :=
  .left_eq (t := startReset s) rfl (setLine_kept _ _ _ _ (List.mem_singleton.2 rfl))

/-- What the entry to STARTING does (R9, R80, R91, R99, R117, R145). -/
structure StartEffect (s t : State) : Prop where
  rest  : t = { s with
    trk := { s.trk with prevTail := none }
    ptc := { s.ptc with merge := none, gates := s.ptc.gates.map startGate }
    flc := { s.flc with line := .starting, runUp := some s.now, runUpQual := none, holds := t.flc.holds }
    can := { s.can with recs := s.can.recs.map (startedCanceller s.pfs.profile s.now) }
    llk := t.llk }
  owed  : t.flc.holds = s.flc.holds.put (cancelOwed t) .cancel
  flag  : FlagSet .lineState (.line .starting .start none) s t
  told  : CancellersReported (startedCanceller s.pfs.profile s.now) s t
  link  : LinkKept [.lineState, .cancellerState] s t

theorem started_state (p : Profile) (now : Nat) (r : CancRec) :
    ((startedCanceller p now r).state ≠ r.state ↔ r.state = .off) ∧ (r.state = .off → (startedCanceller p now r).state = .priming) := by
  rw [startedCanceller_eq]
  split
  next h => simp [h, primed]
  next h => simp [h, withDistances]

/-- A flag set in a state whose flag is that of another is set in the terms of that other. -/
theorem flagSet_of_left {k : Kind} {d : Detail} {s t u : State} (h : FlagSet k d t u)
    (e : t.llk.flags.get k = s.llk.flags.get k) : FlagSet k d s u := by
  unfold FlagSet at h ⊢
  rw [h, e]

/-- A flag set twice stands as its last setting leaves it (R187). -/
theorem flagSet_of_set {k : Kind} {d d' : Detail} {s t u : State} (h : FlagSet k d t u) (h' : FlagSet k d' s t) : FlagSet k d s u := by
  unfold FlagSet at h h' ⊢
  rw [h, h']

theorem enterStarting_effect (s : State) : StartEffect s (enterStarting s) := by
  rw [enterStarting_eq]
  have h0 := startEntered_eq s
  have hflag := startEntered_flag s
  have hlink := startEntered_link s
  generalize startEntered s = u at h0 hflag hlink
  have ha := cancStarting_started .a u
  generalize cancStarting .a u = v at ha
  have hb := cancStarting_started .b v
  generalize cancStarting .b v = t at hb
  have hcan : u.can = s.can := by rw [h0]
  have hpfs : u.pfs = s.pfs := by rw [h0]
  have hnow : u.now = s.now := by rw [h0]
  have hvpfs : v.pfs = s.pfs := by rw [ha.rest, hpfs]
  have hvnow : v.now = s.now := by rw [ha.rest, hnow]
  have hva : (v.can.recs.get .b) = s.can.recs.get .b := by
    rw [ha.can, hcan]; rfl
  have htcan : t.can = { s.can with recs := s.can.recs.map (startedCanceller s.pfs.profile s.now) } := by
    rw [hb.can, hvpfs, hvnow, ha.can, hpfs, hnow, hcan]; rfl
  have hstate := fun r => (started_state s.pfs.profile s.now r).1
  have hprime := fun r => (started_state s.pfs.profile s.now r).2
  have hus : u.llk.flags.get .cancellerState = s.llk.flags.get .cancellerState := hlink.flags _ (by decide)
  have hls : Kind.lineState ∉ [Kind.cancellerState] := by decide
  refine ⟨?_, ?_, ?_, ⟨fun h => ?_, fun h h' => ?_, fun h h' => ?_⟩, ?_⟩
  · rw [hb.rest, ← htcan]
    conv_lhs => rw [ha.rest, h0]
  · exact hb.owed _ (ha.owed _ (congrArg (·.flc.holds) h0))
  · exact (hflag.of_eq (ha.link.flags _ hls)).of_eq (hb.link.flags _ hls)
  · have hoff := (hstate _).1 h
    have hset := hb.primed (by rw [hva]; exact hoff)
    rw [hprime _ hoff]
    by_cases ha' : (s.can.recs.get .a).state = .off
    · exact flagSet_of_set hset (flagSet_of_left (ha.primed (by rw [hcan]; exact ha')) hus)
    · exact flagSet_of_left hset (by rw [ha.stayed (by rw [hcan]; exact ha'), hus])
  · have hoff := (hstate _).1 h'
    rw [hprime _ hoff]
    have hb' : (v.can.recs.get .b).state ≠ .off := by rw [hva]; exact fun hb' => (hstate _).2 hb' h
    exact (flagSet_of_left (ha.primed (by rw [hcan]; exact hoff)) hus).of_eq (by rw [hb.stayed hb'])
  · rw [hb.stayed (by rw [hva]; exact fun hb' => (hstate _).2 hb' h), ha.stayed (by rw [hcan]; exact fun ha' => (hstate _).2 ha' h'), hus]
  · exact (hlink.mono (by simp)).trans ((ha.link.trans hb.link).mono (by simp))

/-! ### START accepted (O52) -/

theorem startRefusal_none {s : State} (hl : s.flc.line = .standby) (he : s.flc.estop = false) (hf : s.pfs.profile.failing = none)
    (hd : s.can.dater ≠ none) (hh : s.pfs.profile.degradePolicy = .drain → ∀ h, (s.scu.heads.get h).state = .ready)
    (hc : s.flc.faultCount < s.pfs.profile.faultLimit)
    (hb : ∀ q, (q = .ea ∨ q = .eb ∨ q = .er) → (s.pkc.recs.get q).sensor = .clear) : startRefusal s = none := by
  have hbins : firstFullBin s = none := by
    simp [firstFullBin, hb]
  rw [startRefusal_bins hl he hf hd hh hc, hbins]
  rfl

theorem start_accepted {s : State} (hi : LinkIdle s) (h : startRefusal s = none) :
    Answers .start s (.ok (text "START") []) (effect s (enterStarting (taking .start s))) := by
  have h' : startRefusal (taking .start s) = none := h
  refine answers_of_perform hi rfl ?_
  show doStart _ = _
  rw [doStart, h']
  rfl

/-- Settles O52: the START checks, the refusals by R144, and the entry to STARTING. -/
theorem startChecksItsConditions : Obligations.StartChecksItsConditions := by
  refine ⟨fun s hi hl he hf hd hh hc hb => ⟨_, start_accepted hi (startRefusal_none hl he hf hd hh hc hb), ?_⟩,
    fun s hi => start_refusals hi, fun p => ⟨failing_none p, fun l c m h => failing_some p h, passes_spec p⟩⟩
  have hE := enterStarting_effect (taking .start s)
  generalize enterStarting (taking .start s) = u at hE
  have hlink := hE.link.flags .feedHold (by decide)
  have hmoved : HoldMoved .cancel (cancelOwed u) s (effect s u) := effect_moved hE.owed hlink (by rw [hE.rest]; rfl)
  have heq := effect_eq s u
  have hflag := effect_flags s u (k := .lineState) (by decide)
  have htold := effect_flags s u (k := .cancellerState) (by decide)
  have hkept : LinkKept [.lineState, .feedHold, .cancellerState] (heard s) (effect s u) :=
    effect_kept hi (by simp) (hE.link.mono (by simp))
  have howed : cancelOwed u = decide (s.pfs.profile.cancelPolicy = .hold ∧ cancellerOut (effect s u) = true) := by
    rw [heq, hE.rest]
    simp only [cancelOwed, true_or, true_and]
    rfl
  have hcan : (effect s u).can = { s.can with recs := s.can.recs.map (startedCanceller s.pfs.profile s.now) } := by
    rw [heq, hE.rest]; rfl
  have hptc : (effect s u).ptc = { s.ptc with merge := none, gates := s.ptc.gates.map startGate } := by
    rw [heq, hE.rest]; rfl
  rw [howed] at hmoved
  refine ⟨?_, fun g => ?_, ⟨fun c => ?_, ?_⟩, hmoved, ?_, hflag.trans hE.flag, hkept⟩
  · rw [heq, hE.rest]; rfl
  · rw [hptc, PerGate.get_map]; rfl
  · rw [hcan, PerStream.get_map]; rfl
  · obtain ⟨hb', ha, hn⟩ := hE.told
    exact ⟨fun h => htold.trans (hb' h), fun h h' => htold.trans (ha h h'), fun h h' => htold.trans (hn h h')⟩
  · rw [heq, hE.rest]; rfl

end Sys2Proof.Proofs
end

