-- ==== Sys2Proof/Proofs/Removal.lean ====
section
/-! PROOF. The parts of a removal: a pocket's state, a letter record offered, the letter withdrawn, its gates released (for O43 and O54). -/

namespace Sys2Proof.Proofs

open Sys2Proof Sys2Proof.Machine Sys2Proof.Safety Sys2Proof.Laws

/-! ### A change of a pocket's state -/

theorem mem_blockAll (c : BlockClass) (h : ∀ st, c ≠ .on st .overflow) : c ∈ BlockClass.all := by
  rcases c with ⟨st, k⟩ | _ | _
  · cases k
    case overflow => exact absurd rfl (h st)
    all_goals cases st <;> decide
  · decide
  · decide

/-- The judgement of the blocked set holds exactly the classes blocked (R138). -/
theorem mem_judged (s : State) (c : BlockClass) : c ∈ BlockClass.all.filter (isBlocked s) ↔ isBlocked s c = true := by
  rw [List.mem_filter]
  refine ⟨And.right, fun h => ⟨mem_blockAll c fun st hc => ?_, h⟩⟩
  rw [hc] at h
  exact Bool.noConfusion h

/-- The blocked set and POCKETS stand as R138 gives them. -/
def BlockedJudged (s : State) : Prop :=
  (∀ c, c ∈ s.pkc.blocked ↔ isBlocked s c = true) ∧ s.flc.holds.pockets = !s.pkc.blocked.isEmpty

/-- A pocket's state came to stand at a value outside POWERUP (R123, R138). -/
structure PocketTo (q : Pocket) (new : PocketState) (s t : State) : Prop where
  rest   : t = { s with
    pkc := { recs := s.pkc.recs.upd q fun r => { r with state := new }, blocked := t.pkc.blocked }
    flc := { s.flc with holds := { s.flc.holds with pockets := t.flc.holds.pockets } }
    llk := t.llk }
  same   : (s.pkc.recs.get q).state = new → t = s
  judged : (s.pkc.recs.get q).state ≠ new → BlockedJudged t
  flag   : (s.pkc.recs.get q).state ≠ new → FlagSet .pocketState (.pocket q new) s t
  link   : LinkKept (if (s.pkc.recs.get q).state = new then [] else [.pocketState]) s t

theorem PerPocket.get_upd {α : Type} (t : PerPocket α) (i j : Pocket) (f : α → α) :
    (t.upd i f).get j = if j = i then f (t.get j) else t.get j := by
  rw [PerPocket.upd, PerPocket.get_set]
  split
  next h => rw [h]
  next h => rfl

theorem PerPocket.ext_get {α : Type} {t u : PerPocket α} (h : ∀ q, t.get q = u.get q) : t = u := by
  cases t; cases u
  congr 1
  exacts [h .a1, h .a2, h .a3, h .a4, h .a5, h .a6, h .b1, h .b2, h .b3, h .b4, h .b5, h .b6, h .rm, h .rh, h .ea, h .eb, h .er]

theorem setPocketState_to {q : Pocket} {new : PocketState} {s : State} (hl : s.flc.line ≠ .powerup) :
    PocketTo q new s (setPocketState q new s) := by
  unfold setPocketState
  split
  next h =>
    refine ⟨?_, fun _ => rfl, fun h' => absurd h h', fun h' => absurd h h', .refl _ _⟩
    have hr : (s.pkc.recs.upd q fun r => { r with state := new }) = s.pkc.recs :=
      PerPocket.ext_get fun p => by
        rw [PerPocket.get_upd]
        split
        next hp => subst hp; rw [← h]
        next => rfl
    rw [hr]
  next h =>
    have hu : restate q new s = setFlag .pocketState (.pocket q new) (updPocket q (fun r => { r with state := new }) s) := if_neg h
    have hj : judgeBlocked (restate q new s) = setHold .pockets (!(BlockClass.all.filter (isBlocked (restate q new s))).isEmpty)
        { restate q new s with pkc := { (restate q new s).pkc with blocked := BlockClass.all.filter (isBlocked (restate q new s)) } } := by
      rw [judgeBlocked, if_neg (by rw [hu]; exact hl)]
    rw [hj]
    refine ⟨?_, fun h' => absurd h' h, fun _ => ⟨fun c => mem_judged (restate q new s) c, rfl⟩, fun _ => ?_, ?_⟩
    · rw [hu]; rfl
    · rw [hu]; exact setFlag_set _ _ _
    · have hk : LinkKept [.pocketState] s (restate q new s) := by
        rw [hu]; exact setFlag_kept' (by rfl) (List.mem_singleton.2 rfl)
      rw [if_neg h]
      exact hk.trans (.of_eq rfl)

/-- The state a pocket in SWEEP_PENDING comes to at committed count 0 (R134). -/
def sweptState (q : Pocket) (r : PocketRec) : PocketState :=
  if r.state = .sweepPending ∧ r.committed = 0 ∧ isBin q = false then .sweep else r.state

theorem sweepIfClear_eq (q : Pocket) (s : State) : sweepIfClear q s = setPocketState q (sweptState q (s.pkc.recs.get q)) s := by
  unfold sweepIfClear sweptState
  simp only [Bool.not_eq_true]
  split
  · rfl
  · exact (if_pos rfl).symm

/-! ### A letter record offered -/

/-- A letter record was offered to the queue (R174, R176). -/
structure RecordOffered (r : LetterRecord) (s t : State) : Prop where
  rest : t = { s with
    flc := { s.flc with holds := { s.flc.holds with
      records := if s.pfs.profile.records = true ∧ s.pfs.profile.reportHold = true ∧ s.cnb.records.length = 79 then true
        else s.flc.holds.records } }
    cnb := { s.cnb with
      bank := { s.cnb.bank with line := { s.cnb.bank.line with
        recordsLost := if s.pfs.profile.records = true ∧ 96 ≤ s.cnb.records.length then s.cnb.bank.line.recordsLost + 1
          else s.cnb.bank.line.recordsLost } }
      records := if s.pfs.profile.records = true ∧ s.cnb.records.length < 96 then s.cnb.records ++ [r] else s.cnb.records }
    llk := t.llk }
  lost : s.pfs.profile.records = true ∧ 96 ≤ s.cnb.records.length →
    FlagSet .recordsLost (.lost r.number (s.cnb.bank.line.recordsLost + 1)) s t
  kept : ¬ (s.pfs.profile.records = true ∧ 96 ≤ s.cnb.records.length) → t.llk = s.llk
  link : LinkKept (if s.pfs.profile.records = true ∧ 96 ≤ s.cnb.records.length then [.recordsLost] else []) s t

theorem offerRecord_offered (r : LetterRecord) (s : State) : RecordOffered r s (offerRecord r s) := by
  unfold offerRecord
  split
  next h =>
    refine ⟨by simp [h], fun h' => by simp [h] at h', fun _ => rfl, .of_eq rfl⟩
  next h =>
    have h : s.pfs.profile.records = true := by simpa using h
    split
    next hl =>
      have hl' : ¬ 96 ≤ s.cnb.records.length := Nat.not_le.2 hl
      dsimp only
      split
      next hr =>
        have hr : s.pfs.profile.reportHold = true ∧ s.cnb.records.length = 79 := by simpa using hr
        exact ⟨by simp [h, hr, setHold, Holds.put], fun h' => absurd h'.2 hl', fun _ => rfl, .of_eq rfl⟩
      next hr =>
        have hr : ¬ (s.pfs.profile.reportHold = true ∧ s.cnb.records.length = 79) := by simpa using hr
        exact ⟨by simp [h, hl, hl', hr], fun h' => absurd h'.2 hl', fun _ => rfl, .of_eq rfl⟩
    next hl =>
      have hl : 96 ≤ s.cnb.records.length := Nat.not_lt.1 hl
      refine ⟨?_, fun _ => setFlag_set _ _ _, fun h' => absurd ⟨h, hl⟩ h', ?_⟩
      · have h79 : s.cnb.records.length ≠ 79 := by omega
        simp [h, hl, h79, setFlag, count]
      · rw [if_pos ⟨h, hl⟩]; exact setFlag_kept' (by rfl) (List.mem_singleton.2 rfl)

/-! ### A letter withdrawn -/

theorem withdraw_eq (n : LetterNo) (s : State) : withdraw n s = { s with
    trk := { s.trk with table := dropEntry n s.trk.table }
    pcm := { s.pcm with sups := s.pcm.sups.map (supRemoved n) }
    flc := { s.flc with holds := { s.flc.holds with
      table := if (dropEntry n s.trk.table).length = s.pfs.profile.releaseAt then false else s.flc.holds.table } } } := by
  unfold withdraw
  dsimp only
  split
  · rfl
  · rfl

/-- A gate record less a letter: neither its user nor in its queue (R87, R92). -/
def gateReleased (n : LetterNo) (r : GateRec) : GateRec :=
  { r with
    user := match r.user with
      | some u => if u.letter = n then none else some u
      | none => none
    queue := r.queue.filter fun q => decide (q.1 ≠ n) }

/-- What a gate whose record stands at `r` does in the state `s` (R88). -/
def gateNext (s : State) (g : Gate) (r : GateRec) : GateRec :=
  if running s = true then
    match r.user, r.settle, r.queue with
    | none, none, (n, set) :: rest =>
      match s.entry? n with
      | none => { r with queue := rest }
      | some e =>
        { r with
          queue := rest
          user := some { letter := n, dist := clearDist s.pfs.profile e g }
          setting := set
          settle := if r.setting = set then none else some (at' s.trk.belt (gateSettle s.pfs.profile g)) }
    | _, _, _ => r
  else r

theorem updGate_id {g : Gate} {f : GateRec → GateRec} {s : State} (h : f (s.ptc.gates.get g) = s.ptc.gates.get g) :
    updGate g f s = s := by
  have : s.ptc.gates.upd g f = s.ptc.gates := by
    rw [PerGate.upd, h]
    cases g <;> rfl
  rw [updGate, this]

theorem updGate_congr {g : Gate} {f f' : GateRec → GateRec} {s : State} (h : f (s.ptc.gates.get g) = f' (s.ptc.gates.get g)) :
    updGate g f s = updGate g f' s := by
  unfold updGate PerGate.upd
  rw [h]

theorem gateTry_eq (g : Gate) (s : State) : gateTry g s = updGate g (gateNext s g) s := by
  unfold gateTry
  split
  next hr =>
    dsimp only
    split
    next n set rest hu hs hq =>
      split
      next he => exact updGate_congr (by simp [gateNext, hr, hu, hs, hq, he])
      next e he => exact updGate_congr (by simp [gateNext, hr, hu, hs, hq, he])
    next h =>
      refine (updGate_id ?_).symm
      unfold gateNext
      rw [if_pos hr]
      split
      next n set rest hu hs hq => exact (h n set rest hu hs hq).elim
      next => rfl
  next hr => exact (updGate_id (by simp [gateNext, hr])).symm

theorem updGate_updGate (g : Gate) (f f' : GateRec → GateRec) (s : State) : updGate g f (updGate g f' s) = updGate g (f ∘ f') s := by
  cases g <;> rfl

theorem gateRemoved_eq (n : LetterNo) (s : State) (g : Gate) :
    gateRemoved n s g = updGate g (fun r => gateNext s g (gateReleased n r)) s := by
  show gateTry g (updGate g (gateReleased n) s) = _
  rw [gateTry_eq, updGate_updGate]
  rfl

/-- R87, R88, R92: at a removal each gate is released, and then takes its next entry, by its own record alone. -/
theorem gatesFold_spec (n : LetterNo) {l : List Gate} (hn : l.Nodup) (s : State) :
    let t := l.foldl (gateRemoved n) s
    t = { s with ptc := { s.ptc with gates := t.ptc.gates } } ∧
    ∀ g, t.ptc.gates.get g =
      if g ∈ l then gateNext s g (gateReleased n (s.ptc.gates.get g)) else s.ptc.gates.get g := by
  induction l generalizing s with
  | nil => exact ⟨rfl, fun g => by simp⟩
  | cons g₀ l ih =>
    obtain ⟨hg, hn⟩ := List.nodup_cons.1 hn
    rw [List.foldl_cons, gateRemoved_eq]
    obtain ⟨hrest, hget⟩ := ih hn (updGate g₀ (fun r => gateNext s g₀ (gateReleased n r)) s)
    refine ⟨hrest, fun g => (hget g).trans ?_⟩
    show (if g ∈ l then gateNext s g (gateReleased n ((s.ptc.gates.upd g₀ _).get g)) else (s.ptc.gates.upd g₀ _).get g) = _
    by_cases h : g = g₀
    · subst h; simp [hg]
    · simp [PerGate.get_upd_ne _ _ (Ne.symm h), h]

theorem gates_removed (n : LetterNo) (s : State) :
    let t := Gate.all.foldl (gateRemoved n) s
    t = { s with ptc := { s.ptc with gates := t.ptc.gates } } ∧
    ∀ g, t.ptc.gates.get g = gateNext s g (gateReleased n (s.ptc.gates.get g)) := by
  obtain ⟨hrest, hget⟩ := gatesFold_spec n (l := Gate.all) (by decide) s
  exact ⟨hrest, fun g => (hget g).trans (if_pos (mem_gateAll g))⟩

end Sys2Proof.Proofs
end

