-- ==== Sys2Proof/Proofs/Clear.lean ====
section
/-! PROOF. CLEAR checks its conditions, removes every letter and enters STANDBY (O54). -/

namespace Sys2Proof.Proofs

open Sys2Proof Sys2Proof.Machine Sys2Proof.Safety Sys2Proof.Laws

/-! ### One entry removed by CLEAR (R157) -/

/-- The line stands in FAULT with no letter at a canceller (R97, R114, R115). -/
structure Stopped (s : State) : Prop where
  line : s.flc.line = .fault
  can  : ∀ c, (s.can.recs.get c).held = none ∧ (s.can.recs.get c).deferred = none

theorem Stopped.of_eq {s t : State} (h : Stopped s) (hl : t.flc.line = s.flc.line) (hc : t.can = s.can) : Stopped t :=
  ⟨hl.trans h.line, fun c => by rw [hc]; exact h.can c⟩

theorem cancRemoved_idle {c : Stream} {n : LetterNo} {s : State}
    (h : (s.can.recs.get c).held = none ∧ (s.can.recs.get c).deferred = none) : cancRemoved c n s = s := by
  simp [cancRemoved, h.1, h.2]

/-- No calibration is taken in FAULT (R41). -/
theorem tryCalibrate_fault {s : State} (h : s.flc.line = .fault) : tryCalibrate s = s := by
  simp [tryCalibrate, h, calInterval]

theorem Stopped.removeEntry {n : LetterNo} {s : State} (h : Stopped s) :
    let t := Machine.removeEntry n s
    t = { withdraw n s with ptc := { s.ptc with gates := t.ptc.gates } } ∧
    ∀ g, t.ptc.gates.get g = gateReleased n (s.ptc.gates.get g) := by
  have hw := withdraw_eq n s
  rw [removeEntry_eq]
  obtain ⟨hrest, hget⟩ := gates_removed n (withdraw n s)
  generalize Gate.all.foldl (gateRemoved n) (withdraw n s) = t at hrest hget
  have ht : Stopped t := h.of_eq (by rw [hrest, hw]) (by rw [hrest, hw])
  rw [cancRemoved_idle (ht.can .a), cancRemoved_idle (ht.can .b), tryCalibrate_fault ht.line]
  refine ⟨hrest.trans (by rw [hw]), fun g => (hget g).trans ?_⟩
  have hr : running (withdraw n s) = false := by
    rw [hw]; simp [running, h.line]
  rw [gateNext, hr, hw]
  rfl

/-- A pocket record whose committed count falls by one at CLEAR, a pocket in SWEEP_PENDING going to SWEEP at 0 (R131, R134). -/
def pocketLowered (q : Pocket) (r : PocketRec) : PocketRec :=
  { r with committed := r.committed - 1, state := sweptState q { r with committed := r.committed - 1 } }

/-- The pocket of an entry that CLEAR removes gives up its letter (R131, R157). -/
def pocketGiven (e : Entry) (s : State) : State :=
  match e.pocket with
  | some q => sweepIfClear q (lowerCommitted q s)
  | none => s

/-- What the giving up of a letter does to its pocket. -/
structure PocketGiven (e : Entry) (s t : State) : Prop where
  rest   : t = { s with
    pkc := t.pkc, flc := { s.flc with holds := { s.flc.holds with pockets := t.flc.holds.pockets } }, llk := t.llk }
  recs   : ∀ q, t.pkc.recs.get q = if e.pocket = some q then pocketLowered q (s.pkc.recs.get q) else s.pkc.recs.get q
  judged : BlockedJudged s → BlockedJudged t
  kept   : (∀ q, (t.pkc.recs.get q).state = (s.pkc.recs.get q).state) → t.llk = s.llk
  flag   : ∀ q, (t.pkc.recs.get q).state ≠ (s.pkc.recs.get q).state → FlagSet .pocketState (.pocket q .sweep) s t
  link   : LinkKept [.pocketState] s t

/-- The classes blocked depend on the states of the pockets and the profile alone (R138). -/
theorem isBlocked_of_states {s t : State} (hp : t.pfs = s.pfs) (hs : ∀ q, (t.pkc.recs.get q).state = (s.pkc.recs.get q).state) :
    isBlocked t = isBlocked s := by
  funext c
  have hrm : t.pkc.recs.rm.state = s.pkc.recs.rm.state := hs .rm
  have hrh : t.pkc.recs.rh.state = s.pkc.recs.rh.state := hs .rh
  rcases c with ⟨st, k⟩ | _ | _
  · cases k <;> simp only [isBlocked, hp, hs]
  · simp only [isBlocked, hrm]
  · simp only [isBlocked, hrh]

theorem sweptState_cases (q : Pocket) (r : PocketRec) : sweptState q r = r.state ∨ sweptState q r = .sweep := by
  unfold sweptState
  split
  · exact .inr rfl
  · exact .inl rfl

theorem pocketLowered_state (q : Pocket) (r : PocketRec) :
    (pocketLowered q r).state = r.state ∨ (pocketLowered q r).state = .sweep :=
  sweptState_cases q { r with committed := r.committed - 1 }

theorem lowerCommitted_get (q p : Pocket) (s : State) : (lowerCommitted q s).pkc.recs.get p =
    if p = q then { s.pkc.recs.get p with committed := (s.pkc.recs.get p).committed - 1 } else s.pkc.recs.get p :=
  PerPocket.get_upd _ _ _ _

theorem pocketGiven_some {e : Entry} {q : Pocket} {s : State} (hq : e.pocket = some q) (hl : s.flc.line ≠ .powerup) :
    PocketGiven e s (sweepIfClear q (lowerCommitted q s)) := by
  have hto := setPocketState_to (q := q) (new := sweptState q ((lowerCommitted q s).pkc.recs.get q)) (s := lowerCommitted q s) hl
  rw [← sweepIfClear_eq] at hto
  generalize sweepIfClear q (lowerCommitted q s) = t at hto
  have hlow : (lowerCommitted q s).pkc.recs.get q = { s.pkc.recs.get q with committed := (s.pkc.recs.get q).committed - 1 } := by
    rw [lowerCommitted_get, if_pos rfl]
  rw [hlow] at hto
  have hrecs : ∀ p, t.pkc.recs.get p = if e.pocket = some p then pocketLowered p (s.pkc.recs.get p) else s.pkc.recs.get p := by
    intro p
    have ht : t.pkc.recs.get p = (((lowerCommitted q s).pkc.recs.upd q _).get p) := congrArg (fun x => x.pkc.recs.get p) hto.rest
    rw [ht, PerPocket.get_upd, lowerCommitted_get, hq]
    by_cases hp : p = q
    · subst hp; simp [pocketLowered]
    · simp [hp, Ne.symm hp]
  have hother : ∀ p, p ≠ q → (t.pkc.recs.get p).state = (s.pkc.recs.get p).state := by
    intro p hp
    rw [hrecs, hq, if_neg (by simpa using Ne.symm hp)]
  have hown : (t.pkc.recs.get q).state = sweptState q { s.pkc.recs.get q with committed := (s.pkc.recs.get q).committed - 1 } := by
    rw [hrecs, if_pos hq]; rfl
  have hstate : ((lowerCommitted q s).pkc.recs.get q).state = (s.pkc.recs.get q).state := by rw [hlow]
  have hsame : (t.pkc.recs.get q).state = (s.pkc.recs.get q).state → t = lowerCommitted q s :=
    fun hs => hto.same (hstate.trans (hs.symm.trans hown))
  have hmoves : (t.pkc.recs.get q).state ≠ (s.pkc.recs.get q).state → ((lowerCommitted q s).pkc.recs.get q).state ≠ _ :=
    fun hs h => hs (hown.trans (h.symm.trans hstate))
  refine ⟨?_, hrecs, fun hj => ?_, fun hs => ?_, fun p hp => ?_, ?_⟩
  · rw [hto.rest]; rfl
  · by_cases hs : (t.pkc.recs.get q).state = (s.pkc.recs.get q).state
    · have hst : ∀ p, (t.pkc.recs.get p).state = (s.pkc.recs.get p).state := fun p => by
        by_cases hp : p = q
        · rw [hp]; exact hs
        · exact hother p hp
      have ht := hsame hs
      refine ⟨fun c => ?_, ?_⟩
      · rw [isBlocked_of_states (s := s) (by rw [ht]; rfl) hst, ht]; exact hj.1 c
      · rw [ht]; exact hj.2
    · exact hto.judged (hmoves hs)
  · rw [hsame (hs q)]; rfl
  · have hpq : p = q := by_contra fun h => hp (hother p h)
    subst hpq
    have hsweep : (t.pkc.recs.get p).state = .sweep := by
      rw [hown]
      exact (sweptState_cases _ _).resolve_left fun h => hp (hown.trans h)
    have hflag := hto.flag (hmoves hp)
    rw [← hown, hsweep] at hflag
    exact hflag
  · refine .left_eq (t := lowerCommitted q s) rfl (hto.link.mono fun k hk => ?_)
    split at hk
    · exact absurd hk List.not_mem_nil
    · exact hk

theorem pocketGiven_given {e : Entry} {s : State} (hl : s.flc.line ≠ .powerup) : PocketGiven e s (pocketGiven e s) := by
  unfold pocketGiven
  split
  next q hq => exact pocketGiven_some hq hl
  next hq => exact ⟨rfl, fun q => by simp [hq], id, fun _ => rfl, fun q h => absurd rfl h, .refl _ _⟩

/-- The early part of the removal of an entry by CLEAR: its pocket, the counter CLEARED, its record. -/
theorem clearEntry_eq (s : State) (e : Entry) : clearEntry s e =
    removeEntry e.number (offerRecord (recordOf e .cleared)
      (count (fun b => { b with flow := { b.flow with cleared := b.flow.cleared + 1 } }) (pocketGiven e s))) :=
  rfl

/-- What the removal of one entry by CLEAR does (R19, R131, R134, R157, R174, R176). -/
structure EntryCleared (e : Entry) (s t : State) : Prop where
  rest   : t = { s with
    trk := { s.trk with table := dropEntry e.number s.trk.table }
    pcm := { s.pcm with sups := s.pcm.sups.map (supRemoved e.number) }
    ptc := { s.ptc with gates := t.ptc.gates }
    pkc := t.pkc
    flc := { s.flc with holds := { s.flc.holds with
      table := if (dropEntry e.number s.trk.table).length = s.pfs.profile.releaseAt then false else s.flc.holds.table
      pockets := t.flc.holds.pockets
      records := if s.pfs.profile.records = true ∧ s.pfs.profile.reportHold = true ∧ s.cnb.records.length = 79 then true
        else s.flc.holds.records } }
    cnb := { s.cnb with
      bank := { s.cnb.bank with
        flow := { s.cnb.bank.flow with cleared := s.cnb.bank.flow.cleared + 1 }
        line := { s.cnb.bank.line with
          recordsLost := if s.pfs.profile.records = true ∧ 96 ≤ s.cnb.records.length then s.cnb.bank.line.recordsLost + 1
            else s.cnb.bank.line.recordsLost } }
      records := if s.pfs.profile.records = true ∧ s.cnb.records.length < 96 then s.cnb.records ++ [recordOf e .cleared]
        else s.cnb.records }
    llk := t.llk }
  gates  : ∀ g, t.ptc.gates.get g = gateReleased e.number (s.ptc.gates.get g)
  recs   : ∀ q, t.pkc.recs.get q = if e.pocket = some q then pocketLowered q (s.pkc.recs.get q) else s.pkc.recs.get q
  judged : BlockedJudged s → BlockedJudged t
  swept  : (∀ q, (t.pkc.recs.get q).state = (s.pkc.recs.get q).state) →
    t.llk.flags.get .pocketState = s.llk.flags.get .pocketState
  sweeps : ∀ q, (t.pkc.recs.get q).state ≠ (s.pkc.recs.get q).state → FlagSet .pocketState (.pocket q .sweep) s t
  lost   : s.pfs.profile.records = true ∧ 96 ≤ s.cnb.records.length →
    FlagSet .recordsLost (.lost e.number (s.cnb.bank.line.recordsLost + 1)) s t
  kept   : ¬ (s.pfs.profile.records = true ∧ 96 ≤ s.cnb.records.length) →
    t.llk.flags.get .recordsLost = s.llk.flags.get .recordsLost
  link   : LinkKept [.pocketState, .recordsLost] s t

theorem clearEntry_cleared {e : Entry} {s : State} (hs : Stopped s) : EntryCleared e s (clearEntry s e) := by
  have hp := pocketGiven_given (e := e) (s := s) (by rw [hs.line]; decide)
  rw [clearEntry_eq]
  generalize pocketGiven e s = a at hp
  have hr := offerRecord_offered (recordOf e .cleared)
    (count (fun b => { b with flow := { b.flow with cleared := b.flow.cleared + 1 } }) a)
  generalize offerRecord (recordOf e .cleared) _ = b at hr
  have hb : Stopped b := hs.of_eq (by rw [hr.rest]; show a.flc.line = _; rw [hp.rest]) (by rw [hr.rest]; show a.can = _; rw [hp.rest])
  obtain ⟨hrest, hgates⟩ := hb.removeEntry (n := e.number)
  generalize removeEntry e.number b = t at hrest hgates
  rw [withdraw_eq] at hrest
  have hllk : t.llk = b.llk := by rw [hrest]
  have hpkc : t.pkc = a.pkc := by rw [hrest, hr.rest]; rfl
  have hprof : a.pfs = s.pfs := by rw [hp.rest]
  have hcnb : a.cnb = s.cnb := by rw [hp.rest]
  have hab : LinkKept [.recordsLost] a b := .left_eq (t := count _ a) rfl (hr.link.mono fun k hk => by
    split at hk
    · exact hk
    · exact absurd hk List.not_mem_nil)
  have hpocketFlag : t.llk.flags.get .pocketState = a.llk.flags.get .pocketState := by
    rw [hllk]; exact hab.flags _ (by decide)
  have hlostFlag : a.llk.flags.get .recordsLost = s.llk.flags.get .recordsLost := hp.link.flags _ (by decide)
  have hfull : (a.pfs.profile.records = true ∧ 96 ≤ a.cnb.records.length) ↔
      (s.pfs.profile.records = true ∧ 96 ≤ s.cnb.records.length) := by rw [hprof, hcnb]
  refine ⟨?_, fun g => ?_, fun q => ?_, fun hj => ?_, fun h => ?_, fun q h => ?_, fun h => ?_, fun h => ?_, ?_⟩
  · rw [hrest, hr.rest, hp.rest]; rfl
  · rw [hgates, hr.rest]
    show gateReleased _ (a.ptc.gates.get g) = _
    rw [hp.rest]
  · rw [hpkc]; exact hp.recs q
  · have hja := hp.judged hj
    refine ⟨fun c => ?_, ?_⟩
    · rw [isBlocked_of_states (s := a) (by rw [hrest, hr.rest]; rfl) (fun q => by rw [hpkc]), hpkc]; exact hja.1 c
    · rw [hpkc, hrest, hr.rest]; exact hja.2
  · rw [hpocketFlag, hp.kept fun q => by rw [← hpkc]; exact h q]
  · exact (hp.flag q (by rw [← hpkc]; exact h)).of_eq hpocketFlag
  · have hflag := hr.lost (hfull.2 h)
    rw [show (count _ a).cnb.bank.line.recordsLost = s.cnb.bank.line.recordsLost by show a.cnb.bank.line.recordsLost = _; rw [hcnb]] at hflag
    exact flagSet_of_left (hflag.of_eq (by rw [hllk])) hlostFlag
  · rw [hllk, hr.kept (mt hfull.1 h)]; exact hlostFlag
  · exact (hp.link.mono (by simp)).trans ((hab.mono (by simp)).trans (.of_eq hllk))

/-! ### Every entry removed -/

/-- The record of a pocket that gives up the letters of some entries (R131, R157). -/
def pocketEmptied (q : Pocket) (l : List Entry) (r : PocketRec) : PocketRec :=
  l.foldl (fun r e => if e.pocket = some q then pocketLowered q r else r) r

theorem pocketEmptied_append (q : Pocket) (l : List Entry) (e : Entry) (r : PocketRec) : pocketEmptied q (l ++ [e]) r =
    if e.pocket = some q then pocketLowered q (pocketEmptied q l r) else pocketEmptied q l r := by
  rw [pocketEmptied, List.foldl_append]
  rfl

theorem pocketLowered_moved {q : Pocket} {r : PocketRec} (h : (pocketLowered q r).state ≠ r.state) :
    r.state = .sweepPending ∧ (pocketLowered q r).state = .sweep := by
  have hs := (pocketLowered_state q r).resolve_left h
  refine ⟨by_contra fun hp => h ?_, hs⟩
  exact if_neg fun hx => hp hx.1

theorem lowered_moved {q : Pocket} {l : List Entry} {r : PocketRec} (h : (pocketEmptied q l r).state ≠ r.state) :
    r.state = .sweepPending ∧ (pocketEmptied q l r).state = .sweep := by
  induction l using List.reverseRecOn with
  | nil => exact absurd rfl h
  | append_singleton l e ih =>
    rw [pocketEmptied_append] at h ⊢
    split at h
    next hp =>
      rw [if_pos hp]
      by_cases hl : (pocketEmptied q l r).state = r.state
      · have := pocketLowered_moved (hl ▸ h)
        exact ⟨hl ▸ this.1, this.2⟩
      · obtain ⟨hpend, hsweep⟩ := ih hl
        exact ⟨hpend, (pocketLowered_state q _).elim (·.trans hsweep) id⟩
    next hp => rw [if_neg hp]; exact ih h

/-- How many letter records find no room in the queue where `k` are offered (R174). -/
def lostRecords (s : State) (k : Nat) : Nat :=
  if s.pfs.profile.records = true then k - (96 - s.cnb.records.length) else 0

/-- The state `t` in which the clearing that began in `s` has removed the entries `done` (R157). -/
structure Clearing (s : State) (done : List Entry) (t : State) : Prop where
  rest    : t = { s with
    trk := { s.trk with table := t.trk.table }
    pcm := { s.pcm with sups := t.pcm.sups }
    ptc := { s.ptc with gates := t.ptc.gates }
    pkc := t.pkc
    flc := { s.flc with holds := { s.flc.holds with
      table := if t.trk.table.length ≤ s.pfs.profile.releaseAt ∧ s.pfs.profile.releaseAt < s.trk.table.length then false
        else s.flc.holds.table
      pockets := t.flc.holds.pockets
      records := if s.pfs.profile.records = true ∧ s.pfs.profile.reportHold = true ∧ s.cnb.records.length < 80 ∧
          80 ≤ s.cnb.records.length + done.length then true else s.flc.holds.records } }
    cnb := { s.cnb with
      bank := { s.cnb.bank with
        flow := { s.cnb.bank.flow with cleared := s.cnb.bank.flow.cleared + BitVec.ofNat 32 done.length }
        line := { s.cnb.bank.line with
          recordsLost := s.cnb.bank.line.recordsLost + BitVec.ofNat 32 (lostRecords s done.length) } }
      records := if s.pfs.profile.records = true then
          s.cnb.records ++ (done.map (recordOf · .cleared)).take (96 - s.cnb.records.length)
        else s.cnb.records }
    llk := t.llk }
  table   : s.trk.table = done ++ t.trk.table
  sups    : ∀ c, t.pcm.sups.get c = done.foldl (fun r e => supRemoved e.number r) (s.pcm.sups.get c)
  gates   : ∀ g, t.ptc.gates.get g = done.foldl (fun r e => gateReleased e.number r) (s.ptc.gates.get g)
  recs    : ∀ q, t.pkc.recs.get q = pocketEmptied q done (s.pkc.recs.get q)
  judged  : BlockedJudged t
  swept   : (∀ q, (t.pkc.recs.get q).state = (s.pkc.recs.get q).state) →
    t.llk.flags.get .pocketState = s.llk.flags.get .pocketState
  sweeps  : ∀ q, (t.pkc.recs.get q).state ≠ (s.pkc.recs.get q).state →
    (∀ x, x ≠ q → (t.pkc.recs.get x).state = (s.pkc.recs.get x).state) → FlagSet .pocketState (.pocket q .sweep) s t
  lost    : ∀ e, 0 < lostRecords s done.length → done.getLast? = some e →
    FlagSet .recordsLost (.lost e.number (s.cnb.bank.line.recordsLost + BitVec.ofNat 32 (lostRecords s done.length))) s t
  kept    : lostRecords s done.length = 0 → t.llk.flags.get .recordsLost = s.llk.flags.get .recordsLost
  link    : LinkKept [.pocketState, .recordsLost] s t

theorem Clearing.start {s : State} (hj : BlockedJudged s) : Clearing s [] s := by
  have h0 : lostRecords s 0 = 0 := by simp [lostRecords]
  refine ⟨?_, rfl, fun _ => rfl, fun _ => rfl, fun _ => rfl, hj, fun _ => rfl, fun q h => absurd rfl h, fun e h => ?_, fun _ => rfl,
    .refl _ _⟩
  · have ht : ¬ (s.trk.table.length ≤ s.pfs.profile.releaseAt ∧ s.pfs.profile.releaseAt < s.trk.table.length) := by omega
    have hr : ¬ (s.pfs.profile.records = true ∧ s.pfs.profile.reportHold = true ∧ s.cnb.records.length < 80 ∧
        80 ≤ s.cnb.records.length + ([] : List Entry).length) := by
      rintro ⟨-, -, h, h'⟩; exact absurd h' (Nat.not_le.2 h)
    rw [if_neg ht, if_neg hr]
    simp [h0]
  · simp [h0] at h

theorem dropEntry_head (e : Entry) (l : List Entry) : dropEntry e.number (e :: l) = l := by
  simp [dropEntry]

section
variable {s t : State} {done : List Entry} (h : Clearing s done t)
include h

/-- A pocket's state moves in the clearing only from SWEEP_PENDING to SWEEP (R134). -/
theorem Clearing.moved {q : Pocket} (hne : (t.pkc.recs.get q).state ≠ (s.pkc.recs.get q).state) :
    (s.pkc.recs.get q).state = .sweepPending ∧ (t.pkc.recs.get q).state = .sweep := by
  rw [h.recs] at hne ⊢
  exact lowered_moved hne

theorem Clearing.queued (hr : s.pfs.profile.records = true) :
    t.cnb.records.length = s.cnb.records.length + min (96 - s.cnb.records.length) done.length := by
  rw [h.rest]
  simp [hr]

/-- The queue of letter records is full exactly where as many were offered as there was room (R174). -/
theorem Clearing.full : (t.pfs.profile.records = true ∧ 96 ≤ t.cnb.records.length) ↔
    s.pfs.profile.records = true ∧ 96 - s.cnb.records.length ≤ done.length := by
  rw [show t.pfs = s.pfs by rw [h.rest]]
  refine and_congr_right fun hr => ?_
  rw [h.queued hr]
  omega

theorem Clearing.lostRecords_succ : lostRecords s (done.length + 1) =
    if t.pfs.profile.records = true ∧ 96 ≤ t.cnb.records.length then lostRecords s done.length + 1 else lostRecords s done.length := by
  by_cases hf : t.pfs.profile.records = true ∧ 96 ≤ t.cnb.records.length
  · obtain ⟨hr, hd⟩ := h.full.1 hf
    rw [if_pos hf, lostRecords, lostRecords, if_pos hr, if_pos hr]
    omega
  · rw [if_neg hf, lostRecords, lostRecords]
    split
    next hr =>
      have hd : ¬ 96 - s.cnb.records.length ≤ done.length := fun hd => hf (h.full.2 ⟨hr, hd⟩)
      omega
    next => rfl

theorem Clearing.records_succ (e : Entry) :
    (if t.pfs.profile.records = true ∧ t.cnb.records.length < 96 then t.cnb.records ++ [recordOf e .cleared] else t.cnb.records) =
      if s.pfs.profile.records = true then
        s.cnb.records ++ ((done ++ [e]).map (recordOf · .cleared)).take (96 - s.cnb.records.length)
      else s.cnb.records := by
  have hp : t.pfs = s.pfs := by rw [h.rest]
  have hrec := congrArg (·.cnb.records) h.rest
  dsimp only at hrec
  rw [hp]
  by_cases hr : s.pfs.profile.records = true
  · have hq := h.queued hr
    rw [if_pos hr] at hrec ⊢
    rw [List.map_append, List.take_append, ← List.append_assoc, ← hrec, List.length_map]
    by_cases hl : t.cnb.records.length < 96
    · rw [if_pos ⟨hr, hl⟩, List.take_of_length_le (by simp; omega)]
      rfl
    · rw [if_neg fun hx => hl hx.2, show 96 - s.cnb.records.length - done.length = 0 by omega]
      simp
  · rw [if_neg hr] at hrec ⊢
    rw [if_neg fun hx => hr hx.1, hrec]

theorem Clearing.raise_succ :
    (if t.pfs.profile.records = true ∧ t.pfs.profile.reportHold = true ∧ t.cnb.records.length = 79 then true else t.flc.holds.records) =
      if s.pfs.profile.records = true ∧ s.pfs.profile.reportHold = true ∧ s.cnb.records.length < 80 ∧
        80 ≤ s.cnb.records.length + (done.length + 1) then true else s.flc.holds.records := by
  have hp : t.pfs = s.pfs := by rw [h.rest]
  have hhold := congrArg (·.flc.holds.records) h.rest
  dsimp only at hhold
  rw [hp, hhold]
  by_cases hr : s.pfs.profile.records = true ∧ s.pfs.profile.reportHold = true
  · have hq := h.queued hr.1
    rw [← ite_or]
    exact if_congr (by simp only [hr, true_and]; omega) rfl rfl
  · rw [if_neg fun hx => hr ⟨hx.1, hx.2.1⟩, if_neg fun hx => hr ⟨hx.1, hx.2.1⟩, if_neg fun hx => hr ⟨hx.1, hx.2.1⟩]

theorem Clearing.lower_succ {e : Entry} {rest : List Entry} (ht : t.trk.table = e :: rest) :
    (if rest.length = t.pfs.profile.releaseAt then false else t.flc.holds.table) =
      if rest.length ≤ s.pfs.profile.releaseAt ∧ s.pfs.profile.releaseAt < s.trk.table.length then false else s.flc.holds.table := by
  have hp : t.pfs = s.pfs := by rw [h.rest]
  have hhold := congrArg (·.flc.holds.table) h.rest
  have hlen := congrArg List.length h.table
  dsimp only at hhold
  rw [ht] at hhold hlen
  simp only [List.length_append, List.length_cons] at hhold hlen
  rw [hp, hhold]
  rw [← ite_or]
  exact if_congr (by omega) rfl rfl

end

theorem Clearing.step {s t : State} {done rest : List Entry} {e : Entry} (hs : Stopped s) (h : Clearing s done t)
    (ht : t.trk.table = e :: rest) : Clearing s (done ++ [e]) (clearEntry t e) ∧ (clearEntry t e).trk.table = rest := by
  have hst : Stopped t := hs.of_eq (by rw [h.rest]) (by rw [h.rest])
  have hc := clearEntry_cleared (e := e) hst
  generalize clearEntry t e = u at hc
  have htab : u.trk.table = rest := by rw [hc.rest, ht]; exact dropEntry_head e rest
  have hlostCount : u.cnb.bank.line.recordsLost =
      s.cnb.bank.line.recordsLost + BitVec.ofNat 32 (lostRecords s (done.length + 1)) := by
    have htl : t.cnb.bank.line.recordsLost = s.cnb.bank.line.recordsLost + BitVec.ofNat 32 (lostRecords s done.length) := by rw [h.rest]
    have hul : u.cnb.bank.line.recordsLost = if t.pfs.profile.records = true ∧ 96 ≤ t.cnb.records.length
        then t.cnb.bank.line.recordsLost + 1 else t.cnb.bank.line.recordsLost := by rw [hc.rest]
    rw [hul, htl, h.lostRecords_succ]
    split
    · rw [BitVec.add_assoc, BitVec.ofNat_add]; rfl
    · rfl
  have hstay : ∀ q, (t.pkc.recs.get q).state = .sweep → (u.pkc.recs.get q).state = .sweep := fun q hq => by
    rw [hc.recs q]
    split
    · exact (pocketLowered_state q _).elim (·.trans hq) id
    · exact hq
  have hback : ∀ q, (u.pkc.recs.get q).state = (s.pkc.recs.get q).state → (t.pkc.recs.get q).state = (s.pkc.recs.get q).state := by
    intro q hq
    by_contra hne
    obtain ⟨hpend, hsweep⟩ := h.moved hne
    rw [hstay q hsweep, hpend] at hq
    exact PocketState.noConfusion hq
  refine ⟨⟨?_, ?_, fun c => ?_, fun g => ?_, fun q => ?_, hc.judged h.judged, fun hq => ?_, fun q hq hx => ?_, fun x hx hl => ?_,
    fun h0 => ?_, h.link.trans hc.link⟩, htab⟩
  · have e1 : u.flc.holds.table = if u.trk.table.length ≤ s.pfs.profile.releaseAt ∧ s.pfs.profile.releaseAt < s.trk.table.length then false
        else s.flc.holds.table := by
      rw [htab, ← h.lower_succ ht, hc.rest, ht]
      exact if_congr (by rw [dropEntry_head]) rfl rfl
    have e2 : u.flc.holds.records = if s.pfs.profile.records = true ∧ s.pfs.profile.reportHold = true ∧ s.cnb.records.length < 80 ∧
          80 ≤ s.cnb.records.length + (done ++ [e]).length then true else s.flc.holds.records := by
      rw [List.length_append, List.length_singleton, ← h.raise_succ, hc.rest]
    have e3 : u.cnb.bank.flow.cleared = s.cnb.bank.flow.cleared + BitVec.ofNat 32 (done ++ [e]).length := by
      have ht3 : t.cnb.bank.flow.cleared = s.cnb.bank.flow.cleared + BitVec.ofNat 32 done.length := by rw [h.rest]
      have hu3 : u.cnb.bank.flow.cleared = t.cnb.bank.flow.cleared + 1 := by rw [hc.rest]
      rw [hu3, ht3, List.length_append, List.length_singleton, BitVec.add_assoc, BitVec.ofNat_add]
      rfl
    have e4 : u.cnb.bank.line.recordsLost = s.cnb.bank.line.recordsLost + BitVec.ofNat 32 (lostRecords s (done ++ [e]).length) := by
      rw [List.length_append, List.length_singleton]
      exact hlostCount
    have e5 : u.cnb.records = if s.pfs.profile.records = true then
          s.cnb.records ++ ((done ++ [e]).map (recordOf · .cleared)).take (96 - s.cnb.records.length)
        else s.cnb.records := by
      rw [← h.records_succ e, hc.rest]
    rw [← e1, ← e2, ← e3, ← e4, ← e5]
    rw [hc.rest, h.rest]
  · rw [h.table, ht, htab]; simp
  · rw [List.foldl_append, ← h.sups, hc.rest]; exact PerSup.get_map _ _ _
  · rw [List.foldl_append, ← h.gates, hc.gates]; rfl
  · rw [pocketEmptied_append, ← h.recs, hc.recs]
  · rw [hc.swept fun q => ?_, h.swept fun q => ?_]
    · exact hback q (hq q)
    · exact (hq q).trans (hback q (hq q)).symm
  · have hother : ∀ x, x ≠ q → (t.pkc.recs.get x).state = (s.pkc.recs.get x).state := fun x hxq => hback x (hx x hxq)
    by_cases htq : (t.pkc.recs.get q).state = (s.pkc.recs.get q).state
    · refine flagSet_of_left (hc.sweeps q (by rw [htq]; exact hq)) (h.swept fun x => ?_)
      by_cases hxq : x = q
      · rw [hxq]; exact htq
      · exact hother x hxq
    · refine (h.sweeps q htq hother).of_eq (hc.swept fun x => ?_)
      by_cases hxq : x = q
      · subst hxq
        rw [hstay x (h.moved htq).2, (h.moved htq).2]
      · exact (hx x hxq).trans (hother x hxq).symm
  · obtain rfl : e = x := by simpa using hl
    rw [List.length_append, List.length_singleton] at hx ⊢
    have hf : t.pfs.profile.records = true ∧ 96 ≤ t.cnb.records.length := by
      refine h.full.2 ?_
      unfold lostRecords at hx
      split at hx
      next hr => exact ⟨hr, by omega⟩
      next => exact absurd hx (Nat.lt_irrefl 0)
    have hflag := hc.lost hf
    have hul : u.cnb.bank.line.recordsLost = t.cnb.bank.line.recordsLost + 1 := by rw [hc.rest]; exact if_pos hf
    rw [← hul, hlostCount] at hflag
    by_cases h0 : lostRecords s done.length = 0
    · exact flagSet_of_left hflag (h.kept h0)
    · have hd : done ≠ [] := fun hd => h0 (by simp [hd, lostRecords])
      exact flagSet_of_set hflag (h.lost _ (Nat.pos_of_ne_zero h0) (List.getLast?_eq_some_getLast hd))
  · rw [List.length_append, List.length_singleton, h.lostRecords_succ] at h0
    split at h0
    next => exact absurd h0 (Nat.succ_ne_zero _)
    next hf => rw [hc.kept hf, h.kept h0]

/-- R157: CLEAR removes every entry, oldest first. -/
theorem clearing_all {s : State} (hs : Stopped s) (hj : BlockedJudged s) :
    Clearing s s.trk.table (s.trk.table.foldl clearEntry s) ∧ (s.trk.table.foldl clearEntry s).trk.table = [] := by
  have key : ∀ (rest done : List Entry) (t : State), Clearing s done t → t.trk.table = rest →
      Clearing s (done ++ rest) (rest.foldl clearEntry t) ∧ (rest.foldl clearEntry t).trk.table = [] := by
    intro rest
    induction rest with
    | nil => intro done t h ht; simpa using ⟨h, ht⟩
    | cons e rest ih =>
      intro done t h ht
      obtain ⟨hstep, htab⟩ := h.step hs ht
      have := ih (done ++ [e]) (clearEntry t e) hstep htab
      simpa using this
  simpa using key s.trk.table [] s (.start hj) rfl

/-! ### The lists, the gates and the pockets after the clearing -/

theorem supsCleared (l : List Entry) (r : SupRec) :
    let t := l.foldl (fun r e => supRemoved e.number r) r
    (∀ n, n ∈ t.expected ↔ n ∈ r.expected ∧ ¬ ∃ e ∈ l, e.number = n) ∧
    ∀ x, t.passing = some x ↔ r.passing = some x ∧ ¬ ∃ e ∈ l, e.number = x.letter := by
  induction l generalizing r with
  | nil => simp
  | cons e l ih =>
    obtain ⟨hexp, hpass⟩ := ih (supRemoved e.number r)
    refine ⟨fun n => (hexp n).trans ?_, fun x => (hpass x).trans ?_⟩
    · simp only [supRemoved, List.mem_filter, decide_eq_true_eq, List.mem_cons, exists_eq_or_imp, not_or]
      tauto
    · have hx : (supRemoved e.number r).passing = some x ↔ r.passing = some x ∧ e.number ≠ x.letter := by
        unfold supRemoved
        cases r.passing with
        | none => simp
        | some p =>
          simp only [Option.some.injEq]
          split
          next h => 
            simp only [reduceCtorEq, false_iff, not_and, not_not]
            rintro rfl; exact h.symm
          next h =>
            simp only [Option.some.injEq, iff_self_and]
            rintro rfl h'; exact h h'.symm
      rw [hx]
      simp only [List.mem_cons, exists_eq_or_imp, not_or]
      tauto

theorem gatesCleared (l : List Entry) (r : GateRec) :
    let t := l.foldl (fun r e => gateReleased e.number r) r
    t = { r with user := t.user, queue := t.queue } ∧
    (∀ x, t.user = some x ↔ r.user = some x ∧ ¬ ∃ e ∈ l, e.number = x.letter) ∧
    ∀ x, x ∈ t.queue ↔ x ∈ r.queue ∧ ¬ ∃ e ∈ l, e.number = x.1 := by
  induction l generalizing r with
  | nil => simp
  | cons e l ih =>
    obtain ⟨hrest, huser, hqueue⟩ := ih (gateReleased e.number r)
    refine ⟨hrest, fun x => (huser x).trans ?_, fun x => (hqueue x).trans ?_⟩
    · have hx : (gateReleased e.number r).user = some x ↔ r.user = some x ∧ e.number ≠ x.letter := by
        unfold gateReleased
        cases r.user with
        | none => simp
        | some p =>
          simp only [Option.some.injEq]
          split
          next h =>
            simp only [reduceCtorEq, false_iff, not_and, not_not]
            rintro rfl; exact h.symm
          next h =>
            simp only [Option.some.injEq, iff_self_and]
            rintro rfl h'; exact h h'.symm
      rw [hx]
      simp only [List.mem_cons, exists_eq_or_imp, not_or]
      tauto
    · simp only [gateReleased, List.mem_filter, decide_eq_true_eq, List.mem_cons, exists_eq_or_imp, not_or]
      tauto

theorem pocketLowered_step (q : Pocket) (r : PocketRec) (k : Nat) :
    pocketLowered q { r with
      committed := r.committed - k
      state := if r.state = .sweepPending ∧ isBin q = false ∧ 0 < k ∧ r.committed ≤ k then .sweep else r.state } =
    { r with
      committed := r.committed - (k + 1)
      state := if r.state = .sweepPending ∧ isBin q = false ∧ 0 < k + 1 ∧ r.committed ≤ k + 1 then .sweep else r.state } := by
  unfold pocketLowered sweptState
  by_cases hk : r.state = .sweepPending ∧ isBin q = false ∧ 0 < k ∧ r.committed ≤ k
  · obtain ⟨hp, hb, h0, hc⟩ := hk
    have hk' : r.committed ≤ k + 1 := Nat.le_succ_of_le hc
    simp [hp, hb, h0, hc, hk']
  · rw [if_neg hk]
    have hiff : (r.state = .sweepPending ∧ r.committed - (k + 1) = 0 ∧ isBin q = false) ↔
        (r.state = .sweepPending ∧ isBin q = false ∧ 0 < k + 1 ∧ r.committed ≤ k + 1) := by
      constructor
      · rintro ⟨hp, hc, hb⟩; exact ⟨hp, hb, Nat.succ_pos k, by omega⟩
      · rintro ⟨hp, hb, -, hc⟩; exact ⟨hp, by omega, hb⟩
    simp only [Nat.sub_sub, hiff]

/-- R131, R134: a pocket's committed count falls by the letters that named it, and one in SWEEP_PENDING goes to SWEEP where none is left. -/
theorem pocketEmptied_eq (q : Pocket) (l : List Entry) (r : PocketRec) : pocketEmptied q l r =
    let named := l.countP fun e => decide (e.pocket = some q)
    { r with
      committed := r.committed - named
      state := if r.state = .sweepPending ∧ isBin q = false ∧ 0 < named ∧ r.committed ≤ named then .sweep else r.state } := by
  induction l using List.reverseRecOn with
  | nil => simp [pocketEmptied]
  | append_singleton l e ih =>
    rw [pocketEmptied_append, ih]
    dsimp only
    rw [List.countP_append, List.countP_singleton]
    by_cases hp : e.pocket = some q
    · simp only [hp, decide_true, if_true]
      exact pocketLowered_step q r _
    · simp [hp]

/-! ### A calibration that is due -/

theorem calInterval_isSome (p : Profile) (l : LineState) : (calInterval p l).isSome = true ↔ l ≠ .powerup ∧ l ≠ .fault := by
  cases l <;> simp [calInterval]

theorem tryCalibrate_scu (s : State) : tryCalibrate s = { s with scu := (tryCalibrate s).scu } := by
  unfold tryCalibrate
  split
  · rfl
  · rfl

/-- A calibration that is due is taken with the station free, in a line state that permits one (R41, R42). -/
theorem tryCalibrate_taken {s : State} (hd : s.scu.calDue = true) (hf : stationFree s = true) (hp : s.flc.line ≠ .powerup)
    (hl : s.flc.line ≠ .fault) : Calibrated s (tryCalibrate s) := by
  have hc : tryCalibrate s = { s with scu := { s.scu with heads := s.scu.heads.map calPulse, calStart := s.now, calDue := false } } := by
    rw [tryCalibrate, if_pos (by simp [hd, hf, (calInterval_isSome s.pfs.profile s.flc.line).2 ⟨hp, hl⟩])]
  rw [hc]
  exact ⟨fun h => PerHead.get_map _ _ _, rfl⟩

theorem tryCalibrate_kept {s : State}
    (h : s.scu.calDue = false ∨ s.flc.line = .powerup ∨ s.flc.line = .fault ∨ stationFree s = false) : tryCalibrate s = s := by
  refine if_neg fun hc => ?_
  simp only [Bool.and_eq_true, calInterval_isSome] at hc
  obtain ⟨⟨hd, hf⟩, hp, hl⟩ := hc
  rcases h with h | h | h | h
  · simp [h] at hd
  · exact hp h
  · exact hl h
  · simp [h] at hf

/-! ### The end of the clearing -/

/-- The state in which every entry is removed, and the line in STANDBY (R157). -/
def lineCleared (s : State) : State :=
  setLine .standby .clear none
    { s.trk.table.foldl clearEntry s with flc := { (s.trk.table.foldl clearEntry s).flc with fault := none } }

theorem lineClearing_eq (s : State) : lineClearing s = tryCalibrate (lineCleared s) :=
  rfl

/-- What the clearing does before the calibration. -/
structure Cleared (s t : State) : Prop where
  rest    : t = { s with
    trk := { s.trk with table := [] }
    pcm := { s.pcm with sups := t.pcm.sups }
    ptc := { s.ptc with gates := t.ptc.gates }
    pkc := t.pkc
    flc := { s.flc with
      line := .standby
      fault := none
      holds := { s.flc.holds with
        table := if s.pfs.profile.releaseAt < s.trk.table.length then false else s.flc.holds.table
        pockets := !t.pkc.blocked.isEmpty
        cancel := false
        records := if s.pfs.profile.records = true ∧ s.pfs.profile.reportHold = true ∧ s.cnb.records.length < 80 ∧
            80 ≤ s.cnb.records.length + s.trk.table.length then true else s.flc.holds.records } }
    cnb := { s.cnb with
      bank := { s.cnb.bank with
        flow := { s.cnb.bank.flow with cleared := s.cnb.bank.flow.cleared + BitVec.ofNat 32 s.trk.table.length }
        line := { s.cnb.bank.line with
          recordsLost := s.cnb.bank.line.recordsLost + BitVec.ofNat 32 (lostRecords s s.trk.table.length) } }
      records := if s.pfs.profile.records = true then
          s.cnb.records ++ (s.trk.table.map (recordOf · .cleared)).take (96 - s.cnb.records.length)
        else s.cnb.records }
    llk := t.llk }
  clearing : ∃ u, Clearing s s.trk.table u ∧ t.pcm = u.pcm ∧ t.ptc = u.ptc ∧ t.pkc = u.pkc ∧ t.pfs = u.pfs ∧
    ∀ k, k ≠ .lineState → t.llk.flags.get k = u.llk.flags.get k
  line    : FlagSet .lineState (.line .standby .clear none) s t
  link    : LinkKept [.lineState, .pocketState, .recordsLost] s t

theorem lineCleared_cleared {s : State} (hs : Stopped s) (hj : BlockedJudged s) : Cleared s (lineCleared s) := by
  obtain ⟨hc, ht⟩ := clearing_all hs hj
  unfold lineCleared
  generalize s.trk.table.foldl clearEntry s = u at hc ht
  rw [setLine_off _ _ _ _ (by decide) (by decide)]
  have hflags : ∀ k, k ≠ .lineState →
      (setFlag .lineState (.line .standby .clear none) u).llk.flags.get k = u.llk.flags.get k := fun k hk =>
    (setFlag_kept (ks := [.lineState]) _ u (List.mem_singleton.2 rfl)).flags k (by simpa using hk)
  have htable : u.flc.holds.table = if s.pfs.profile.releaseAt < s.trk.table.length then false else s.flc.holds.table := by
    rw [hc.rest]
    exact if_congr (by simp [ht]) rfl rfl
  refine ⟨?_, ⟨u, hc, rfl, rfl, rfl, rfl, hflags⟩, ?_, ?_⟩
  · have hpockets : (!u.pkc.blocked.isEmpty) = u.flc.holds.pockets := hc.judged.2.symm
    have hrest := hc.rest
    rw [ht] at hrest
    show _ = ({ s with
      trk := _, pcm := _, ptc := _, pkc := _, flc := { s.flc with line := .standby, fault := none, holds := { s.flc.holds with
        table := _, pockets := !u.pkc.blocked.isEmpty, cancel := false, records := _ } }, cnb := _, llk := _ } : State)
    rw [← htable, hpockets, hrest]
    rfl
  · exact flagSet_of_left (setFlag_set _ _ u) (hc.link.flags _ (by decide))
  · have hl : LinkKept [.lineState] u (setFlag .lineState (.line .standby .clear none) u) :=
      setFlag_kept _ u (List.mem_singleton.2 rfl)
    exact (hc.link.mono (by simp)).trans ((hl.mono (by simp)).trans (.of_eq rfl))

/-! ### CLEAR (O54) -/

theorem recordOf_spec (e : Entry) (d : Disposition) :
    let r := recordOf e d;
    r.number = e.number ∧ r.late = e.late ∧ r.path = e.path ∧ r.stream = e.stream ∧ r.disposition = d ∧ r.cause = e.cause ∧
    (∀ l, e.length0 = some l → r.length = some (l / 4)) ∧ (e.length0 = none → r.length = none) ∧
    (∀ m, e.result = some m → r.cls = some m.cls ∧ r.orient = m.orient ∧ r.strength = m.strength ∧ r.cell = m.cell ∧ r.q = m.q ∧
      r.degraded = m.degraded ∧ r.saturated = m.saturated) ∧
    (e.result = none → r.cls = none ∧ r.orient = none ∧ r.strength = none ∧ r.cell = none ∧ r.q = none ∧ r.degraded = false ∧
      r.saturated = false) ∧
    (∀ j, e.job = some j → r.outcome = some j.outcome ∧ r.marks = some (j.truncated, decide (j.density = some .reduced))) ∧
    (e.job = none → r.outcome = none ∧ r.marks = none) ∧
    (d = .cleared → r.committed = e.pocket) ∧ (d ≠ .cleared → r.committed = none) := by
  refine ⟨rfl, rfl, rfl, rfl, rfl, rfl, fun l h => ?_, fun h => ?_, fun m h => ?_, fun h => ?_, fun j h => ?_, fun h => ?_, ?_, fun h => ?_⟩
  · simp [recordOf, h]
  · simp [recordOf, h]
  · simp [recordOf, h]
  · simp [recordOf, h]
  · simp [recordOf, h]
  · simp [recordOf, h]
  · rintro rfl; rfl
  · cases d with
    | cleared => exact absurd rfl h
    | stacked q => rfl

/-- A CLEAR that is refused has no effect (R156). -/
theorem clear_refused {s : State} {o : Bool} {a : Reply} (hi : LinkIdle s)
    (h : doClear o (taking (.clear o) s) = (taking (.clear o) s, .answered a)) : Answers (.clear o) s a (heard s) :=
  answers_unchanged hi rfl h

theorem firstBlockedCell_none {s : State} (h : ∀ c, (s.pcm.cells.get c).qual = .clear) : firstBlockedCell s = none := by
  simp [firstBlockedCell, h]

theorem doClear_blocked {o : Bool} {s : State} {c : Photocell} (hl : s.flc.line = .fault) (he : s.flc.estop = false)
    (hc : firstBlockedCell s = some c) : doClear o s = (s, denyWith .clear .photocell (cellName c)) := by
  simp [doClear, hl, he, hc]

theorem doClear_accepted {o : Bool} {s : State} (hl : s.flc.line = .fault) (he : s.flc.estop = false)
    (hc : firstBlockedCell s = none) : doClear o s =
      ((if o then resetFaultCount (lineClearing s) else lineClearing s), accept .clear [lineName .standby]) := by
  simp [doClear, hl, he, hc]

theorem clear_refusals {s : State} (o : Bool) (hi : LinkIdle s) :
    (s.flc.line ≠ .fault → (o = false ∨ s.flc.line ≠ .standby) →
      Answers (.clear o) s (.deny (text "CLEAR") .wrongState none) (heard s)) ∧
    (s.flc.line = .fault → s.flc.estop = true → Answers (.clear o) s (.deny (text "CLEAR") .estop none) (heard s)) ∧
    (∀ l c m, s.flc.line = .fault → s.flc.estop = false →
      [Photocell.pe0, .pe1, .pe2, .pe3a, .pe3b, .pe4r] = l ++ c :: m → (∀ d ∈ l, (s.pcm.cells.get d).qual = .clear) →
      (s.pcm.cells.get c).qual = .blocked →
      Answers (.clear o) s (.deny (text "CLEAR") .photocell (some (cellName c))) (heard s)) := by
  have hline : (taking (.clear o) s).flc = s.flc := rfl
  refine ⟨fun hf hs => clear_refused hi ?_, fun hf he => clear_refused hi ?_, fun l c m hf he hlist hbefore hc => clear_refused hi ?_⟩
  · have hn : ¬ (s.flc.line = .standby ∧ o = true) := fun hx => hs.elim (fun h => by simp [h] at hx) fun h => h hx.1
    rw [doClear, hline, if_neg hn, if_pos hf]
    rfl
  · simp only [doClear, hline, hf, he]
    rfl
  · have hb : firstBlockedCell (taking (.clear o) s) = some c :=
      List.find?_eq_some_iff_append.2 ⟨decide_eq_true hc, l, m, hlist, fun d hd => by
        have : ((taking (.clear o) s).pcm.cells.get d).qual = .clear := hbefore d hd
        simp [this]⟩
    exact doClear_blocked (s := taking (.clear o) s) hf he hb

theorem clear_override {s : State} (hi : LinkIdle s) (hl : s.flc.line = .standby) :
    Answers (.clear true) s (.ok (text "CLEAR") [text "STANDBY"])
      (heard { s with flc := { s.flc with faultCount := 0, cleanRun := 0 } }) := by
  have hp : perform (.clear true) (taking (.clear true) s) =
      (resetFaultCount (taking (.clear true) s), .answered (.ok (text "CLEAR") [text "STANDBY"])) := by
    show doClear true _ = _
    rw [doClear, if_pos ⟨hl, rfl⟩]
    rfl
  have h := answers_of_perform (c := .clear true) hi rfl hp
  have he : effect s (resetFaultCount (taking (.clear true) s)) =
      heard { s with flc := { s.flc with faultCount := 0, cleanRun := 0 } } := by
    rw [effect, judgeHold_same (by rfl)]
    show ({ heard { s with flc := { s.flc with faultCount := 0, cleanRun := 0 } } with
      llk := { (heard s).llk with answers := [] } } : State) = _
    rw [← show (heard s).llk.answers = [] from hi.answers]
    rfl
  rwa [he] at h

/-- The clearing with the fault counts set to 0 or kept (R156). -/
def clearedLine (o : Bool) (s : State) : State :=
  if o = true then resetFaultCount (lineClearing s) else lineClearing s

theorem clear_accepted {s : State} {o : Bool} (hi : LinkIdle s) (hl : s.flc.line = .fault) (he : s.flc.estop = false)
    (hc : ∀ c, (s.pcm.cells.get c).qual = .clear) :
    Answers (.clear o) s (.ok (text "CLEAR") [text "STANDBY"]) (effect s (clearedLine o (taking (.clear o) s))) :=
  answers_of_perform hi rfl (doClear_accepted (s := taking (.clear o) s) hl he (firstBlockedCell_none hc))

theorem clearedLine_eq (o : Bool) (s : State) : clearedLine o s = { lineClearing s with flc := { (lineClearing s).flc with
    faultCount := if o = true then 0 else (lineClearing s).flc.faultCount
    cleanRun := if o = true then 0 else (lineClearing s).flc.cleanRun } } := by
  cases o <;> rfl

/-- In FAULT no canceller holds or defers a letter (R97, R115). -/
theorem stopped_of_sound {s : State} (hl : s.flc.line = .fault) (hs : ∀ c, CancellerSound (s.can.recs.get c)) (hf : StoppedInFault s) :
    Stopped s := by
  refine ⟨hl, fun c => ?_⟩
  have hout : ¬ ((s.can.recs.get c).state = .arming ∨ (s.can.recs.get c).state = .armed ∨ (s.can.recs.get c).state = .printing) := by
    rcases hf hl c with h | h <;> simp [h]
  have hheld := mt (hs c).held.1 hout
  have hdef := mt (hs c).deferred hout
  exact ⟨by simpa using hheld, by simpa using hdef⟩

theorem judged_of_held {s : State} (hl : s.flc.line ≠ .powerup) (hp : PocketsHeld s) : BlockedJudged s := by
  obtain ⟨hb, hh⟩ := hp.after hl
  refine ⟨hb, ?_⟩
  rw [Bool.eq_iff_iff, hh]
  simp

/-- The state in which a request found the letters of an accepted CLEAR removed, before the reply. -/
theorem clearedLine_of {s w : State} (o : Bool) (h : lineCleared s = w) : clearedLine o s = { w with
    flc := { w.flc with
      faultCount := if o = true then 0 else w.flc.faultCount
      cleanRun := if o = true then 0 else w.flc.cleanRun }
    scu := (tryCalibrate w).scu } := by
  rw [clearedLine_eq, lineClearing_eq, h, tryCalibrate_scu]

theorem pocketEmptied_moved (q : Pocket) (l : List Entry) (r : PocketRec) :
    (pocketEmptied q l r).state ≠ r.state ↔ r.state = .sweepPending ∧ isBin q = false ∧
      0 < (l.countP fun e => decide (e.pocket = some q)) ∧ r.committed ≤ (l.countP fun e => decide (e.pocket = some q)) := by
  rw [pocketEmptied_eq]
  dsimp only
  split
  next h => exact iff_of_true (by simp [h.1]) h
  next h => exact iff_of_false (fun hx => hx rfl) h

/-- Settles O54: the entries are removed one by one (`Clearing`), then the line enters STANDBY and a calibration that is due is taken. -/
theorem clearRemovesEveryLetter : Obligations.ClearRemovesEveryLetter := by
  refine ⟨recordOf_spec, fun s o hi => ?_⟩
  obtain ⟨hstate, hestop, hcell⟩ := clear_refusals o hi
  refine ⟨clear_override hi, hstate, hestop, hcell, fun hl he hc hp hs hf => ⟨_, clear_accepted hi hl he hc, ?_⟩⟩
  have hst : Stopped (taking (.clear o) s) := stopped_of_sound hl hs hf
  have hj : BlockedJudged (taking (.clear o) s) := judged_of_held (by rw [show (taking (.clear o) s).flc = s.flc from rfl, hl]; decide)
    ⟨hp.before, hp.after⟩
  have hC := lineCleared_cleared hst hj
  have hy := clearedLine_of (s := taking (.clear o) s) o rfl
  generalize lineCleared (taking (.clear o) s) = w at hC hy
  generalize clearedLine o (taking (.clear o) s) = y at hy
  obtain ⟨u, hu, hpcm, hptc, hpkc, hpfs, hflags⟩ := hC.clearing
  have heq := effect_eq s y
  have hU : ∀ k, k ≠ .feedHold → (effect s y).llk.flags.get k = w.llk.flags.get k := fun k hk => by
    rw [effect_flags s y hk, hy]
  have hjudged : HoldJudged s (effect s y) := by
    refine effect_judged ?_ ?_
    · rw [hy]; exact hC.link.flags _ (by decide)
    · rw [hy, hC.rest]; rfl
  have hkept : LinkKept [.lineState, .feedHold, .pocketState, .recordsLost] (heard s) (effect s y) := by
    refine effect_kept (r := .clear o) hi (by simp) ?_
    exact (hC.link.mono (by simp)).trans (.of_eq (by rw [hy]))
  generalize effect s y = t at heq hU hjudged hkept ⊢
  have hrecs : ∀ q, t.pkc.recs.get q = pocketEmptied q s.trk.table (s.pkc.recs.get q) := fun q => by
    rw [heq, hy]; exact (congrArg (·.recs.get q) hpkc).trans (hu.recs q)
  have hstation : stationFree { t with scu := s.scu } = stationFree w := by
    rw [heq, hy, hC.rest]; rfl
  have hscu : t.scu = (tryCalibrate w).scu := by rw [heq, hy]
  have hflag : ∀ k, k ≠ .feedHold → k ≠ .lineState → t.llk.flags.get k = u.llk.flags.get k := fun k hk hl =>
    (hU k hk).trans (hflags k hl)
  have hmoved : ∀ q, (u.pkc.recs.get q).state ≠ (s.pkc.recs.get q).state ↔ (s.pkc.recs.get q).state = .sweepPending ∧
      isBin q = false ∧ 0 < (s.trk.table.countP fun e => decide (e.pocket = some q)) ∧
      (s.pkc.recs.get q).committed ≤ (s.trk.table.countP fun e => decide (e.pocket = some q)) := fun q => by
    rw [hu.recs q]; exact pocketEmptied_moved q s.trk.table (s.pkc.recs.get q)
  have hsame : ∀ q, ¬ _ → (u.pkc.recs.get q).state = (s.pkc.recs.get q).state := fun q h => not_not.1 (mt (hmoved q).1 h)
  have hnow : w.now = s.now := by rw [hC.rest]; rfl
  have hwline : w.flc.line = .standby := by rw [hC.rest]
  have hwscu : w.scu = s.scu := by rw [hC.rest]; rfl
  have hblocked : isBlocked t = isBlocked u :=
    isBlocked_of_states (by rw [heq, hy]; exact hpfs) fun q => by rw [heq, hy]; exact congrArg (fun p => (p.recs.get q).state) hpkc
  refine ⟨?_, hjudged, fun q => (hrecs q).trans (pocketEmptied_eq q _ _), fun c => ?_, fun c n => ?_, fun c x => ?_, fun g => ?_,
    fun hd hfree => ?_, fun hk => ?_, ?_, fun e hlost hlast => ?_, fun hlost => ?_, fun q hq hx => ?_, fun hq => ?_, hkept⟩
  · rw [heq, hy, hC.rest]
    cases o <;> rfl
  · rw [hblocked, heq, hy]
    rw [show w.pkc.blocked = u.pkc.blocked from congrArg (·.blocked) hpkc]
    exact hu.judged.1 c
  · rw [heq, hy]
    rw [show w.pcm.sups.get c = _ from (congrArg (·.sups.get c) hpcm).trans (hu.sups c)]
    exact (supsCleared _ _).1 n
  · rw [heq, hy]
    rw [show w.pcm.sups.get c = _ from (congrArg (·.sups.get c) hpcm).trans (hu.sups c)]
    exact (supsCleared _ _).2 x
  · rw [heq, hy]
    rw [show w.ptc.gates.get g = _ from (congrArg (·.gates.get g) hptc).trans (hu.gates g)]
    exact gatesCleared _ _
  · have hw := tryCalibrate_taken (s := w) (hwscu ▸ hd) (hstation ▸ hfree) (by rw [hwline]; decide) (by rw [hwline]; decide)
    obtain ⟨hheads, hscu'⟩ := hw
    rw [← hscu, hwscu] at hheads hscu'
    exact ⟨hheads, hscu'.trans (by rw [hnow])⟩
  · rw [hscu, tryCalibrate_kept (hk.imp (hwscu ▸ ·) fun h => .inr (.inr (hstation ▸ h))), hwscu]
  · exact FlagSet.of_eq hC.line (hU _ (by decide))
  · exact FlagSet.of_eq (hu.lost e hlost hlast) (hflag _ (by decide) (by decide))
  · exact (hflag _ (by decide) (by decide)).trans (hu.kept hlost)
  · exact FlagSet.of_eq (hu.sweeps q ((hmoved q).2 hq) fun x hne => hsame x (hx x hne)) (hflag _ (by decide) (by decide))
  · exact (hflag _ (by decide) (by decide)).trans (hu.swept fun q => hsame q (hq q))

end Sys2Proof.Proofs
end

