-- ==== Sys2Proof/Proofs/Cancellers.lean ====
section
/-! PROOF. A canceller at the removal of a letter (R105, R116), for O43. -/

namespace Sys2Proof.Proofs

open Sys2Proof Sys2Proof.Machine Sys2Proof.Safety Sys2Proof.Laws

/-! ### A canceller at the removal of a letter (R105, R116) -/

theorem cancelHeld_iff (s : State) : CancelHeld s ↔ s.flc.holds.cancel = cancelOwed s :=
  ⟨fun h => Bool.eq_iff_iff.2 (h.trans decide_eq_true_iff.symm), fun h => (Bool.eq_iff_iff.1 h).trans decide_eq_true_iff⟩

theorem cancellerOut_of_available {s t : State}
    (h : ∀ c, available (t.can.recs.get c).state = available (s.can.recs.get c).state) : cancellerOut t = cancellerOut s := by
  unfold cancellerOut
  rw [show available t.can.recs.a.state = _ from h .a, show available t.can.recs.b.state = _ from h .b]
  rfl

/-- CANCEL is right as long as the line, the profile and the availability of the cancellers stand (R117). -/
theorem cancelHeld_of_available {s t : State} (hh : CancelHeld s) (hf : t.flc = s.flc) (hp : t.pfs = s.pfs)
    (ha : ∀ c, available (t.can.recs.get c).state = available (s.can.recs.get c).state) : CancelHeld t := by
  unfold CancelHeld
  rw [hf, hp, cancellerOut_of_available ha]
  exact hh

theorem refreshCancel_held {s : State} (h : CancelHeld s) : refreshCancel s = s := by
  rw [refreshCancel_owed, ← (cancelHeld_iff s).1 h]
  exact setHold_same rfl

theorem available_upd {c : Stream} {f : CancRec → CancRec} {s : State}
    (h : available (f (s.can.recs.get c)).state = available (s.can.recs.get c).state) (d : Stream) :
    available ((updCanc c f s).can.recs.get d).state = available (s.can.recs.get d).state := by
  show available ((s.can.recs.upd c f).get d).state = _
  rw [PerStream.upd_get]
  split
  next hd => subst hd; exact h
  next => rfl

theorem cancelHeld_upd {c : Stream} {f : CancRec → CancRec} {s : State} (hh : CancelHeld s)
    (h : available (f (s.can.recs.get c)).state = available (s.can.recs.get c).state) : CancelHeld (updCanc c f s) :=
  cancelHeld_of_available (t := updCanc c f s) hh rfl rfl (available_upd h)

theorem not_reported {x : CancState} (h : available x = true) : ¬ cancReported x = true := by
  cases x <;> simp_all [available, cancReported]

/-- A change of state between READY, ARMING, ARMED and PRINTING sets no flag and moves no hold cause (R117, R119). -/
theorem cancTo_available {c : Stream} {x : CancState} {s : State} (hh : CancelHeld s)
    (ho : available (s.can.recs.get c).state = true) (hx : available x = true) :
    cancTo c x s = updCanc c (fun r => { r with state := x }) s := by
  unfold cancTo
  dsimp only
  rw [if_neg fun h => h.2.elim (not_reported ho) (not_reported hx)]
  exact refreshCancel_held (cancelHeld_upd hh (hx.trans ho.symm))

/-- A canceller record after the removal of its held letter (R105, R116). -/
def readied (r : CancRec) : CancRec :=
  { r with state := .ready, held := none, deferred := none, replyTimer := none, frames := r.frames ++ [.abort] }

/-- A canceller record after the removal of its held letter, with the deferred letter `m` armed (R104, R105). -/
def rearmed (now : Nat) (m : LetterNo) (f : Entry) (j : CancelJob) (r : CancRec) : CancRec :=
  { r with
    state := .arming, held := some m, deferred := none, replyTimer := some now
    frames := r.frames ++ [.abort, .impression (impressionOf f j (if r.band = .hot then .reduced else .full))] }

theorem available_sound {r : CancRec} (h : CancellerSound r) (hn : r.held ≠ none) : available r.state = true := by
  rcases h.held.1 (Option.isSome_iff_ne_none.2 hn) with h | h | h <;> simp [h, available]

/-- A canceller record without a deferral of the letter `n` (R105). -/
def undeferred (n : LetterNo) (r : CancRec) : CancRec :=
  { r with deferred := if r.deferred = some n then none else r.deferred }

theorem updCanc_get (c : Stream) (f : CancRec → CancRec) (s : State) : (updCanc c f s).can.recs.get c = f (s.can.recs.get c) := by
  cases c <;> rfl

theorem updCanc_id {c : Stream} {f : CancRec → CancRec} {s : State} (h : f (s.can.recs.get c) = s.can.recs.get c) :
    updCanc c f s = s := by
  have : s.can.recs.upd c f = s.can.recs := by
    rw [PerStream.upd, h]
    cases c <;> rfl
  rw [updCanc, this]

theorem undefer_eq (c : Stream) (n : LetterNo) (s : State) :
    (if (s.can.recs.get c).deferred = some n then updCanc c (fun r => { r with deferred := none }) s else s) =
      updCanc c (undeferred n) s := by
  split
  next h => exact updCanc_congr (by simp [undeferred, h])
  next h => exact (updCanc_id (by simp [undeferred, h])).symm

theorem cancRemoved_other {c : Stream} {n : LetterNo} {s : State} (h : (s.can.recs.get c).held ≠ some n) :
    cancRemoved c n s = updCanc c (undeferred n) s := by
  unfold cancRemoved
  rw [undefer_eq]
  exact if_neg (by simpa [undeferred] using h)

/-- A canceller record with its held letter let go, before the entry to READY (R105, R116). -/
def letGo (n : LetterNo) (r : CancRec) : CancRec :=
  { undeferred n r with held := none, replyTimer := none, frames := r.frames ++ [.abort] }

theorem cancRemoved_held {c : Stream} {n : LetterNo} {s : State} (h : (s.can.recs.get c).held = some n) :
    cancRemoved c n s = cancReady c (updCanc c (letGo n) s) := by
  unfold cancRemoved
  rw [undefer_eq, if_pos (by simpa [undeferred] using h), sendFrame, updCanc_updCanc, updCanc_updCanc]
  rfl

theorem cancReady_alone {c : Stream} {s : State} (hh : CancelHeld s) (ha : available (s.can.recs.get c).state = true)
    (hd : (s.can.recs.get c).deferred = none) : cancReady c s = updCanc c (fun r => { r with state := .ready }) s := by
  unfold cancReady
  rw [cancTo_available hh ha rfl]
  simp [hd]

theorem cancReady_next {c : Stream} {m : LetterNo} {s : State} (hh : CancelHeld s) (ha : available (s.can.recs.get c).state = true)
    (hd : (s.can.recs.get c).deferred = some m) :
    cancReady c s = armLetter c m (updCanc c (fun r => { r with state := .ready, deferred := none }) s) := by
  unfold cancReady
  rw [cancTo_available hh ha rfl]
  simp only [updCanc_get, hd]
  rw [updCanc_updCanc]
  rfl

theorem armLetter_none {c : Stream} {m : LetterNo} {s : State} (h : jobOf s m = none) : armLetter c m s = s := by
  unfold armLetter
  unfold jobOf at h
  cases he : s.entry? m with
  | none => rfl
  | some e =>
    rw [he] at h
    have hj : e.job = none := h
    simp only [hj]

/-- The density that a letter's job takes as it is armed (R104). -/
def densified (r : CancRec) (j : CancelJob) : CancelJob :=
  { j with density := some (if r.band = .hot then .reduced else .full) }

/-- A canceller record that arms a letter (R104). -/
def armed (now : Nat) (m : LetterNo) (f : Entry) (j : CancelJob) (r : CancRec) : CancRec :=
  { r with
    state := .arming, held := some m, replyTimer := some now
    frames := r.frames ++ [.impression (impressionOf f j (if r.band = .hot then .reduced else .full))] }

theorem armLetter_some {c : Stream} {m : LetterNo} {f : Entry} {j : CancelJob} {s : State} (hh : CancelHeld s)
    (ha : available (s.can.recs.get c).state = true) (he : s.entry? m = some f) (hj : f.job = some j) :
    armLetter c m s = updCanc c (armed s.now m f j) (updJob m (densified (s.can.recs.get c)) s) := by
  unfold armLetter
  simp only [he, hj]
  have hu : CancelHeld (updJob m (densified (s.can.recs.get c)) s) :=
    cancelHeld_of_available (t := updJob m (densified (s.can.recs.get c)) s) hh rfl rfl fun _ => rfl
  rw [sendFrame, updCanc_updCanc]
  refine (cancTo_available (cancelHeld_upd hu rfl) ?_ rfl).trans ?_
  · rw [available_upd (s := updJob m (densified (s.can.recs.get c)) s) rfl]; exact ha
  · rw [updCanc_updCanc]
    exact updCanc_congr rfl

/-- What the removal of a letter does at one canceller (R105, R116): CANCEL stands, as the canceller stays available or not. -/
structure CancLeft (c : Stream) (n : LetterNo) (s t : State) : Prop where
  rest  : t = { s with trk := { s.trk with table := t.trk.table }, can := { s.can with recs := s.can.recs.set c (t.can.recs.get c) } }
  avail : available (t.can.recs.get c).state = available (s.can.recs.get c).state
  bare  : bare t.trk.table = bare s.trk.table
  kept  : (s.can.recs.get c).held ≠ some n → t.trk.table = s.trk.table
  entry : ∀ m, ((s.can.recs.get c).held = some n → (s.can.recs.get c).deferred ≠ some m) → t.entry? m = s.entry? m
  other : (s.can.recs.get c).held ≠ some n → t.can.recs.get c = undeferred n (s.can.recs.get c)
  ready : (s.can.recs.get c).held = some n → (s.can.recs.get c).deferred = none ∨ (s.can.recs.get c).deferred = some n →
    t.can.recs.get c = readied (s.can.recs.get c)
  armed : ∀ m f j, (s.can.recs.get c).held = some n → (s.can.recs.get c).deferred = some m → m ≠ n → s.entry? m = some f →
    f.job = some j → t.can.recs.get c = rearmed s.now m f j (s.can.recs.get c) ∧
      jobOf t m = some (densified (s.can.recs.get c) j)

theorem cancLeft_other {c : Stream} {n : LetterNo} {s : State} (h : (s.can.recs.get c).held ≠ some n) :
    CancLeft c n s (updCanc c (undeferred n) s) := by
  have hg := updCanc_get c (undeferred n) s
  refine ⟨?_, by rw [hg]; rfl, rfl, fun _ => rfl, fun m _ => rfl, fun _ => hg, fun h' => absurd h' h, fun m f j h' => absurd h' h⟩
  rw [hg]; rfl

theorem cancLeft_ready {c : Stream} {n : LetterNo} {s : State} (h : (s.can.recs.get c).held = some n)
    (ha : available (s.can.recs.get c).state = true)
    (hd : ∀ m, (s.can.recs.get c).deferred = some m → m ≠ n → jobOf s m = none) : CancLeft c n s (updCanc c readied s) := by
  have hg := updCanc_get c readied s
  refine ⟨by rw [hg]; rfl, by rw [hg, ha]; rfl, rfl, fun _ => rfl, fun m _ => rfl, fun h' => absurd h h', fun _ _ => hg,
    fun m f j _ hm hn hf hj => ?_⟩
  have := hd m hm hn
  simp [jobOf, hf, hj] at this

theorem cancLeft_armed {c : Stream} {n m : LetterNo} {f : Entry} {j : CancelJob} {s : State} (h : (s.can.recs.get c).held = some n)
    (ha : available (s.can.recs.get c).state = true) (hm : (s.can.recs.get c).deferred = some m) (hn : m ≠ n)
    (hf : s.entry? m = some f) (hj : f.job = some j) :
    CancLeft c n s (updCanc c (rearmed s.now m f j) (updJob m (densified (s.can.recs.get c)) s)) := by
  have hg := updCanc_get c (rearmed s.now m f j) (updJob m (densified (s.can.recs.get c)) s)
  refine ⟨by rw [hg]; rfl, by rw [hg, ha]; rfl, updJob_bare m _ _, fun h' => absurd h h', fun x hx => ?_, fun h' => absurd h h',
    fun _ h' => ?_, fun x f' j' _ hx _ hf' hj' => ?_⟩
  · have hxm : x ≠ m := fun hxm => hx h (hxm ▸ hm)
    exact (entry_upd m x (fun e => { e with job := e.job.map (densified (s.can.recs.get c)) }) (fun _ => rfl) s).trans (if_neg hxm)
  · rw [hm] at h'
    exact h'.elim nofun fun h' => absurd (Option.some.inj h') hn
  · obtain rfl : m = x := Option.some.inj (hm.symm.trans hx)
    obtain rfl : f = f' := Option.some.inj (hf.symm.trans hf')
    obtain rfl : j = j' := Option.some.inj (hj.symm.trans hj')
    refine ⟨hg, ?_⟩
    have he := entry_upd m m (fun e => { e with job := e.job.map (densified (s.can.recs.get c)) }) (fun _ => rfl) s
    rw [if_pos rfl, hf] at he
    show (Option.bind _ _) = _
    rw [show (updCanc c _ (updJob m _ s)).entry? m = _ from he]
    simp [hj]

section
variable {c : Stream} {n : LetterNo} {s : State} (hh : CancelHeld s) (h : (s.can.recs.get c).held = some n)
  (ha : available (s.can.recs.get c).state = true)
include hh h ha

theorem cancRemoved_ready (hd : (s.can.recs.get c).deferred = none ∨ (s.can.recs.get c).deferred = some n) :
    cancRemoved c n s = updCanc c readied s := by
  have hnone : (undeferred n (s.can.recs.get c)).deferred = none := by
    rcases hd with hd | hd <;> simp [undeferred, hd]
  rw [cancRemoved_held h, cancReady_alone (cancelHeld_upd hh rfl) (by rw [updCanc_get]; exact ha) (by rw [updCanc_get]; exact hnone),
    updCanc_updCanc]
  refine updCanc_congr ?_
  simp only [Function.comp, readied, letGo, hnone]
  rfl

theorem cancRemoved_next {m : LetterNo} (hm : (s.can.recs.get c).deferred = some m) (hn : m ≠ n) :
    cancRemoved c n s = armLetter c m (updCanc c readied s) := by
  have hsome : (undeferred n (s.can.recs.get c)).deferred = some m := by simp [undeferred, hm, hn]
  rw [cancRemoved_held h, cancReady_next (cancelHeld_upd hh rfl) (by rw [updCanc_get]; exact ha) (by rw [updCanc_get]; exact hsome),
    updCanc_updCanc]
  exact congrArg (armLetter c m) (updCanc_congr rfl)

end

theorem cancRemoved_left {c : Stream} {n : LetterNo} {s : State} (hh : CancelHeld s) (hs : CancellerSound (s.can.recs.get c)) :
    CancLeft c n s (cancRemoved c n s) := by
  by_cases h : (s.can.recs.get c).held = some n
  case neg => rw [cancRemoved_other h]; exact cancLeft_other h
  have ha : available (s.can.recs.get c).state = true := available_sound hs (by simp [h])
  by_cases hd : (s.can.recs.get c).deferred = none ∨ (s.can.recs.get c).deferred = some n
  · rw [cancRemoved_ready hh h ha hd]
    exact cancLeft_ready h ha fun m hm hn => by rcases hd with hd | hd <;> simp_all
  obtain ⟨hnone, hne⟩ := not_or.1 hd
  obtain ⟨m, hm⟩ := Option.ne_none_iff_exists'.1 hnone
  have hn : m ≠ n := fun h => hne (h ▸ hm)
  have hh' : CancelHeld (updCanc c readied s) := cancelHeld_upd hh (by rw [ha]; rfl)
  rw [cancRemoved_next hh h ha hm hn]
  cases hj : jobOf s m with
  | none =>
    rw [armLetter_none (s := updCanc c readied s) hj]
    exact cancLeft_ready h ha fun x hx _ => by rw [← Option.some.inj (hm.symm.trans hx)]; exact hj
  | some j =>
    obtain ⟨f, hf, hj⟩ := Option.bind_eq_some_iff.1 hj
    have hu : updCanc c (armed s.now m f j) (updJob m (densified (s.can.recs.get c)) (updCanc c readied s)) =
        updCanc c (rearmed s.now m f j) (updJob m (densified (s.can.recs.get c)) s) := by
      show updCanc c (armed s.now m f j) (updCanc c readied (updJob m (densified (s.can.recs.get c)) s)) = _
      rw [updCanc_updCanc]
      refine updCanc_congr ?_
      unfold armed rearmed readied
      simp only [Function.comp, List.append_assoc]
      rfl
    have hr : densified ((updCanc c readied s).can.recs.get c) = densified (s.can.recs.get c) := by
      rw [updCanc_get]; rfl
    rw [armLetter_some (s := updCanc c readied s) hh' (by rw [updCanc_get]; rfl) hf hj, hr]
    exact hu ▸ cancLeft_armed h ha hm hn hf hj

/-- What the removal of a letter does at both cancellers (R105, R116). -/
structure CancellersLeft (n : LetterNo) (s t : State) : Prop where
  bare  : bare t.trk.table = bare s.trk.table
  kept  : (∀ c, (s.can.recs.get c).held ≠ some n) → t.trk.table = s.trk.table
  entry : ∀ m, (∀ c, (s.can.recs.get c).held = some n → (s.can.recs.get c).deferred ≠ some m) → t.entry? m = s.entry? m
  other : ∀ c, (s.can.recs.get c).held ≠ some n → t.can.recs.get c = undeferred n (s.can.recs.get c)
  ready : ∀ c, (s.can.recs.get c).held = some n → (s.can.recs.get c).deferred = none ∨ (s.can.recs.get c).deferred = some n →
    t.can.recs.get c = readied (s.can.recs.get c)
  armed : ∀ c m f j, (s.can.recs.get c).held = some n → (∀ d, d ≠ c → (s.can.recs.get d).held ≠ some n) →
    (s.can.recs.get c).deferred = some m → m ≠ n → s.entry? m = some f → f.job = some j →
    t.can.recs.get c = rearmed s.now m f j (s.can.recs.get c) ∧ jobOf t m = some (densified (s.can.recs.get c) j)

theorem CancellersLeft.congr {n : LetterNo} {s s' t t' : State} (h : CancellersLeft n s t) (hs : s'.trk.table = s.trk.table)
    (hc : s'.can.recs = s.can.recs) (hn : s'.now = s.now) (ht : t'.trk.table = t.trk.table) (hk : t'.can.recs = t.can.recs) :
    CancellersLeft n s' t' := by
  have he : ∀ m, s'.entry? m = s.entry? m := entry_of_table hs
  have he' : ∀ m, t'.entry? m = t.entry? m := entry_of_table ht
  have hj : ∀ m, jobOf t' m = jobOf t m := jobOf_table ht
  obtain ⟨h1, h2, h3, h4, h5, h6⟩ := h
  refine ⟨?_, ?_, ?_, ?_, ?_, ?_⟩
  all_goals simp only [hs, hc, hn, ht, hk, he, he', hj]
  all_goals assumption

theorem cancellersRemoved {n : LetterNo} {s : State} (hh : CancelHeld s) (hs : ∀ c, CancellerSound (s.can.recs.get c)) :
    let t := cancRemoved .b n (cancRemoved .a n s)
    t = { s with trk := { s.trk with table := t.trk.table }, can := { s.can with recs := t.can.recs } } ∧ CancellersLeft n s t := by
  have ha := cancRemoved_left (n := n) hh (hs .a)
  generalize cancRemoved .a n s = v at ha
  have hvb : v.can.recs.get .b = s.can.recs.get .b := by rw [ha.rest]; rfl
  have hhv : CancelHeld v := cancelHeld_of_available hh (by rw [ha.rest]) (by rw [ha.rest]) fun c => by
    cases c
    · exact ha.avail
    · rw [hvb]
  have hb := cancRemoved_left (n := n) hhv (hvb ▸ hs .b)
  generalize cancRemoved .b n v = t at hb
  have hta : t.can.recs.get .a = v.can.recs.get .a := by rw [hb.rest]; rfl
  have hnow : v.now = s.now := by rw [ha.rest]
  obtain ⟨hbrest, -, hbbare, hbkept, hbentry, hbother, hbready, hbarmed⟩ := hb
  simp only [hvb, hnow] at hbkept hbentry hbother hbready hbarmed
  refine ⟨?_, hbbare.trans ha.bare, fun h => (hbkept (h .b)).trans (ha.kept (h .a)),
    fun m h => (hbentry m (h .b)).trans (ha.entry m (h .a)), fun c h => ?_, fun c h hd => ?_, fun c m f j h ho hd hn hf hj => ?_⟩
  · rw [hbrest, ha.rest]
  · cases c
    · exact hta.trans (ha.other h)
    · exact hbother h
  · cases c
    · exact hta.trans (ha.ready h hd)
    · exact hbready h hd
  · cases c
    · obtain ⟨hrec, hjob⟩ := ha.armed m f j h hd hn hf hj
      exact ⟨hta.trans hrec, (jobOf_table (hbkept (ho .b (by decide))) m).trans hjob⟩
    · exact hbarmed m f j h hd hn ((entry_of_table (ha.kept (ho .a (by decide))) m).trans hf) hj

end Sys2Proof.Proofs
end

