-- ==== Sys2Proof/Proofs/Stacking.lean ====
section
/-! PROOF. STACKING removes the letter, counts it, and may end the drain (O43). -/

namespace Sys2Proof.Proofs

open Sys2Proof Sys2Proof.Machine Sys2Proof.Safety Sys2Proof.Laws

/-! ### The Letter Table without a letter (R18) -/

theorem dropEntry_erase {n : LetterNo} {l : List Entry} {e : Entry} (h : l.find? (fun e => decide (e.number = n)) = some e) :
    dropEntry n l = l.erase e := by
  induction l with
  | nil => simp at h
  | cons a l ih =>
    by_cases ha : a.number = n
    · simp [ha] at h; subst h; simp [dropEntry, ha]
    · simp [ha] at h
      have hne : a ≠ e := fun hae => ha (hae ▸ (find_number h).2)
      simp [dropEntry, ha, hne, ih h]

theorem find_dropEntry {n m : LetterNo} (h : m ≠ n) (l : List Entry) :
    (dropEntry n l).find? (fun e => decide (e.number = m)) = l.find? (fun e => decide (e.number = m)) := by
  induction l with
  | nil => rfl
  | cons a l ih =>
    by_cases ha : a.number = n
    · simp [dropEntry, ha, Ne.symm h]
    · simp [dropEntry, ha, ih, List.find?_cons]

/-- A letter is in both of two tables that differ in jobs alone, with entries that differ in their jobs alone. -/
theorem find_of_bare {l l' : List Entry} (h : bare l = bare l') {n : LetterNo} {e : Entry}
    (he : l.find? (fun e => decide (e.number = n)) = some e) :
    ∃ e', l'.find? (fun e => decide (e.number = n)) = some e' ∧ { e with job := none } = { e' with job := none } := by
  have key : ∀ l : List Entry, (l.find? fun e => decide (e.number = n)).map (fun e => { e with job := none }) =
      (bare l).find? fun e => decide (e.number = n) := fun l => by
    rw [bare, List.find?_map]
    rfl
  have h' := (key l').trans ((congrArg _ h.symm).trans (key l).symm)
  rw [he] at h'
  obtain ⟨e', he', hb⟩ := Option.map_eq_some_iff.1 h'
  exact ⟨e', he', hb.symm⟩

/-! ### The gates at a removal (R87, R88) -/

theorem clearDist_bare (p : Profile) {e e' : Entry} (g : Gate) (h : { e with job := none } = { e' with job := none }) :
    clearDist p e g = clearDist p e' g := by
  have hc := congrArg (fun x => clearDist p x g) h
  exact hc

/-- A gate acts on its own record and on the entry of its queue's oldest letter. -/
theorem gateNext_took {g : Gate} {r : GateRec} {s v t : State} (hr : running v = true) (hb : bare t.trk.table = bare v.trk.table)
    (hp : v.pfs = s.pfs) (hk : v.trk.belt = s.trk.belt) (ht : t.ptc.gates.get g = gateNext v g r) : GateTook g r r.queue s t := by
  rw [gateNext, if_pos hr] at ht
  refine ⟨fun h => ?_, fun h => ?_, fun hu hs n set rest e hq he => ?_⟩
  · rw [ht]
    split
    next hu hs _ => simp [hu, hs] at h
    next => rfl
  · rw [ht]
    split
    next hq => simp [hq] at h
    next => rw [← h]
  · obtain ⟨e', he', hbare⟩ := find_of_bare hb he
    have he' : v.entry? n = some e' := he'
    rw [ht, hu, hs, hq]
    simp only [he']
    rw [clearDist_bare v.pfs.profile g hbare.symm, hp, hk]

/-! ### The removal of a letter (R18) -/

/-- What the removal of a letter does while the line runs (R18, R19, R41, R87, R88, R105, R116). -/
structure Removed (n : LetterNo) (s t : State) : Prop where
  rest  : t = { s with
    trk := { s.trk with table := t.trk.table }
    pcm := { s.pcm with sups := s.pcm.sups.map (supRemoved n) }
    scu := t.scu
    ptc := { s.ptc with gates := t.ptc.gates }
    can := { s.can with recs := t.can.recs }
    flc := { s.flc with holds := { s.flc.holds with
      table := if (dropEntry n s.trk.table).length = s.pfs.profile.releaseAt then false else s.flc.holds.table } } }
  left  : CancellersLeft n { s with trk := { s.trk with table := dropEntry n s.trk.table } } t
  gates : ∀ g, GateTook g (gateReleased n (s.ptc.gates.get g)) (gateReleased n (s.ptc.gates.get g)).queue s t
  calib : CalibratedIfFree s t

theorem removeEntry_removed {n : LetterNo} {s : State} (hr : running s = true) (hh : CancelHeld s)
    (hs : ∀ c, CancellerSound (s.can.recs.get c)) : Removed n s (removeEntry n s) := by
  rw [removeEntry_eq]
  have hw := withdraw_eq n s
  generalize withdraw n s = w at hw
  obtain ⟨hvrest, hvget⟩ := gates_removed n w
  generalize Gate.all.foldl (gateRemoved n) w = v at hvrest hvget
  have hvcan : v.can = s.can := by rw [hvrest, hw]
  have hhv : CancelHeld v := by
    unfold CancelHeld
    rw [hvrest, hw]
    exact hh
  obtain ⟨hurest, hL⟩ := cancellersRemoved (n := n) hhv (hvcan ▸ hs)
  generalize cancRemoved .b n (cancRemoved .a n v) = u at hurest hL
  have ht := tryCalibrate_scu u
  have hscu : u.scu = s.scu := by rw [hurest, hvrest, hw]
  have hline : u.flc.line = s.flc.line := by rw [hurest, hvrest, hw]
  have hnow : u.now = s.now := by rw [hurest, hvrest, hw]
  have hfree : stationFree { tryCalibrate u with scu := s.scu } = stationFree u := by
    rw [ht, ← hscu]
  refine ⟨?_, hL.congr ?_ ?_ ?_ ?_ ?_, fun g => ?_, ⟨fun hd hp hf hst => ?_, fun h => ?_⟩⟩
  · rw [ht, hurest, hvrest, hw]
  · rw [hvrest, hw]
  · rw [hvcan]
  · rw [hvrest, hw]
  · rw [ht]
  · rw [ht]
  · have hg := hvget g
    refine gateNext_took (v := w) ?_ ?_ (by rw [hw]) (by rw [hw]) ?_
    · rw [hw]; exact hr
    · rw [ht]; exact hL.bare.trans (by rw [hvrest])
    · rw [ht, show u.ptc = v.ptc by rw [hurest], hg, hw]
  · obtain ⟨hheads, hrest⟩ := tryCalibrate_taken (s := u) (hscu ▸ hd) (hfree ▸ hst) (hline ▸ hp) (hline ▸ hf)
    exact ⟨fun h => (hheads h).trans (by rw [hscu]), hrest.trans (by rw [hscu, hnow])⟩
  · rw [tryCalibrate_kept, hscu]
    rw [hscu, hline, ← hfree]
    exact h

/-! ### The pocket of a stacking (R123, R130, R134) -/

theorem byCountSensor_eq (p : Profile) (q : Pocket) (r : PocketRec) : byCountSensor p q r = stateByCount p q r := by
  unfold byCountSensor stateByCount
  refine if_congr ?_ rfl rfl
  simp [and_comm]

/-- A pocket record with a letter stacked (R130). -/
def stackedRec (r : PocketRec) : PocketRec :=
  { r with count := r.count + 1, committed := r.committed - 1 }

/-- The state a pocket comes to with its record at `r` (R123, R134). -/
def stackedState (p : Profile) (q : Pocket) (r : PocketRec) : PocketState :=
  if isBin q = true then r.state else
    match r.state with
    | .open | .nearFull | .full => stateByCount p q r
    | .sweepPending => if r.committed = 0 then .sweep else .sweepPending
    | .sweep => .sweep
    | .disabled => .disabled

theorem stateByCount_ne (p : Profile) (q : Pocket) (r : PocketRec) : stateByCount p q r ≠ .sweepPending := by
  unfold stateByCount
  split
  · decide
  · split <;> decide

/-- A pocket follows its count, and then goes to SWEEP where it may: the two are never both changes. -/
theorem stackedState_eq (p : Profile) (q : Pocket) (r : PocketRec) :
    sweptState q { r with state := followed p q r } = stackedState p q r := by
  unfold stackedState followed
  cases hb : isBin q with
  | true => simp [sweptState, hb]
  | false =>
    cases hs : r.state <;> simp [sweptState, hb, byCountSensor_eq, stateByCount_ne]

theorem followed_sweepPending {p : Profile} {q : Pocket} {r : PocketRec} (h : followed p q r = .sweepPending) :
    r.state = .sweepPending := by
  unfold followed at h
  split at h
  · exact h
  · split at h
    next => exact absurd h (byCountSensor_eq p q r ▸ stateByCount_ne p q r)
    next => exact absurd h (byCountSensor_eq p q r ▸ stateByCount_ne p q r)
    next => exact absurd h (byCountSensor_eq p q r ▸ stateByCount_ne p q r)
    next hs => exact hs
    next => exact absurd h (by decide)
    next => exact absurd h (by decide)

theorem stackedState_followed {p : Profile} {q : Pocket} {r : PocketRec} (h : followed p q r ≠ r.state) :
    stackedState p q r = followed p q r := by
  rw [← stackedState_eq]
  exact if_neg fun hx => h (hx.1.trans (followed_sweepPending hx.1).symm)

theorem follow_sweep {q : Pocket} {s : State} (hl : s.flc.line ≠ .powerup) :
    sweepIfClear q (follow q s) = setPocketState q (stackedState s.pfs.profile q (s.pkc.recs.get q)) s := by
  have ht := setPocketState_to (q := q) (new := followed s.pfs.profile q (s.pkc.recs.get q)) hl
  rw [sweepIfClear_eq, follow]
  by_cases h : followed s.pfs.profile q (s.pkc.recs.get q) = (s.pkc.recs.get q).state
  · rw [ht.same h.symm, ← stackedState_eq, h]
  · have hrec : (setPocketState q (followed s.pfs.profile q (s.pkc.recs.get q)) s).pkc.recs.get q =
        { s.pkc.recs.get q with state := followed s.pfs.profile q (s.pkc.recs.get q) } := by
      rw [ht.rest]
      exact (PerPocket.get_upd _ _ _ _).trans (if_pos rfl)
    rw [hrec, stackedState_eq, stackedState_followed h]
    exact if_pos (by rw [hrec])

/-- What a stacking does at its pocket, whose state comes to stand at `new` (R123, R130, R134, R138). -/
structure PocketStacked (q : Pocket) (new : PocketState) (s t : State) : Prop where
  rest   : t = { s with
    pkc := { recs := s.pkc.recs.set q { stackedRec (s.pkc.recs.get q) with state := new }, blocked := t.pkc.blocked }
    flc := { s.flc with holds := { s.flc.holds with
      pockets := if new ≠ (s.pkc.recs.get q).state then !t.pkc.blocked.isEmpty else s.flc.holds.pockets } }
    llk := t.llk }
  same   : new = (s.pkc.recs.get q).state → t.pkc.blocked = s.pkc.blocked ∧ t.llk = s.llk
  judged : new ≠ (s.pkc.recs.get q).state → ∀ c, c ∈ t.pkc.blocked ↔ isBlocked t c = true
  flag   : new ≠ (s.pkc.recs.get q).state → FlagSet .pocketState (.pocket q new) s t
  link   : LinkKept (if new ≠ (s.pkc.recs.get q).state then [.pocketState] else []) s t

theorem pocketStacked {q : Pocket} {s : State} (hl : s.flc.line ≠ .powerup) :
    PocketStacked q (stackedState s.pfs.profile q (stackedRec (s.pkc.recs.get q))) s
      (sweepIfClear q (follow q (updPocket q stackedRec s))) := by
  have hr : (updPocket q stackedRec s).pkc.recs.get q = stackedRec (s.pkc.recs.get q) := by simp
  have hp : (updPocket q stackedRec s).pfs.profile = s.pfs.profile := rfl
  rw [follow_sweep (s := updPocket q stackedRec s) hl, hr, hp]
  generalize stackedState s.pfs.profile q (stackedRec (s.pkc.recs.get q)) = new
  obtain ⟨hrest, hsame, hjudged, hflag, hlink⟩ := setPocketState_to (q := q) (new := new) (s := updPocket q stackedRec s) hl
  rw [hr, show (stackedRec (s.pkc.recs.get q)).state = (s.pkc.recs.get q).state from rfl] at hsame hjudged hflag hlink
  have hpockets : (setPocketState q new (updPocket q stackedRec s)).flc.holds.pockets =
      if new ≠ (s.pkc.recs.get q).state then !(setPocketState q new (updPocket q stackedRec s)).pkc.blocked.isEmpty
      else s.flc.holds.pockets := by
    split
    next h => exact (hjudged (Ne.symm h)).2
    next h => rw [hsame (not_not.1 h).symm]; rfl
  refine ⟨?_, fun h => ?_, fun h => (hjudged (Ne.symm h)).1, fun h => hflag (Ne.symm h), ?_⟩
  · rw [← hpockets]
    have hrecs : ((s.pkc.recs.upd q stackedRec).upd q fun r => { r with state := new }) =
        s.pkc.recs.set q { stackedRec (s.pkc.recs.get q) with state := new } := by cases q <;> rfl
    rw [← hrecs]
    exact hrest
  · rw [hsame h.symm]
    exact ⟨rfl, rfl⟩
  · refine .left_eq (t := updPocket q stackedRec s) rfl ?_
    by_cases h : new = (s.pkc.recs.get q).state
    · rw [if_neg (not_not.2 h)]
      rwa [if_pos h.symm] at hlink
    · rw [if_pos h]
      rwa [if_neg (Ne.symm h)] at hlink

/-! ### The counters of a stacking (R158, R163, R165) -/

theorem cleanRunCount_eq (q : Pocket) (s : State) : cleanRunCount q s = { s with flc := { s.flc with
    faultCount := if isBin q = false ∧ s.pfs.profile.cleanRun ≤ s.flc.cleanRun + 1 then 0 else s.flc.faultCount
    cleanRun := if isBin q = true then s.flc.cleanRun else if s.pfs.profile.cleanRun ≤ s.flc.cleanRun + 1 then 0
      else s.flc.cleanRun + 1 } } := by
  unfold cleanRunCount
  cases isBin q with
  | true => simp
  | false =>
    by_cases h : s.pfs.profile.cleanRun ≤ s.flc.cleanRun + 1
    · simp [h]
    · simp [h]

theorem countStacking_flow (e : Entry) (q : Pocket) (b : Bank) : (countStacking e q b).flow = { b.flow with
    stacked := if stackOf q ≠ none then b.flow.stacked + 1 else b.flow.stacked
    rejected := if stackOf q ≠ none then b.flow.rejected else b.flow.rejected + 1
    late := if e.late then b.flow.late + 1 else b.flow.late } := by
  unfold countStacking
  cases stackOf q <;> rfl

theorem countStacking_line (e : Entry) (q : Pocket) (b : Bank) : (countStacking e q b).line = { b.line with
    lengthSumMm := if stackOf q ≠ none then b.line.lengthSumMm + BitVec.ofNat 32 (e.length0.getD 0 / 4) else b.line.lengthSumMm } := by
  unfold countStacking
  cases stackOf q <;> rfl

theorem countStacking_cancel {e : Entry} {j : CancelJob} {c : Stream} (q : Pocket) (b : Bank) (hc : e.stream = some c)
    (hj : e.job = some j) : (countStacking e q b).cancel = b.cancel.upd c (countJob j) := by
  unfold countStacking
  simp only [hc, hj]

theorem countStacking_nojob {e : Entry} {c : Stream} (q : Pocket) (b : Bank) (h : e.stream ≠ some c ∨ e.job = none) :
    (countStacking e q b).cancel.get c = b.cancel.get c := by
  unfold countStacking
  cases hj : e.job with
  | none => rfl
  | some j =>
    cases hs : e.stream with
    | none => rfl
    | some d =>
      have hd : c ≠ d := fun hcd => h.elim (fun h => h (hcd ▸ hs)) (by simp [hj])
      exact (PerStream.upd_get _ _ _ _).trans (if_neg hd)

theorem countJob_eq (j : CancelJob) (p : CancelPage) : countJob j p = { p with
    done := p.done + if j.outcome = .done then 1 else 0
    busy := p.busy + if j.outcome = .skippedBusy then 1 else 0
    unavailable := p.unavailable + if j.outcome = .skippedUnavailable then 1 else 0
    parity := p.parity + if j.outcome = .skippedParity then 1 else 0
    failed := p.failed + if j.outcome = .failed then 1 else 0
    truncated := p.truncated + if j.truncated then 1 else 0
    reduced := p.reduced + if j.density = some .reduced then 1 else 0 } := by
  unfold countJob
  cases j.outcome <;> simp [add_ite]

theorem countStacking_rejects (e : Entry) (q : Pocket) (b : Bank) (c : RejectCause) :
    (countStacking e q b).rejects.get c = if e.cause = some c then b.rejects.get c + 1 else b.rejects.get c := by
  unfold countStacking
  cases he : e.cause with
  | none => simp
  | some d =>
    by_cases h : d = c
    · subst h; simp
    · simp [PerCause.get_upd_ne _ _ h, h]

/-! ### The stacking of a letter (R130) -/

theorem stackAct_eq {n : LetterNo} {s : State} {e : Entry} {q : Pocket} (he : s.entry? n = some e) (hq : e.pocket = some q) :
    stackAct n s = cleanRunCount q (offerRecord (recordOf e (.stacked q)) (count (countStacking e q)
      (removeEntry n (sweepIfClear q (follow q (updPocket q stackedRec s)))))) := by
  unfold stackAct
  simp only [he, hq]
  rfl

/-- What the stacking of the letter `n`, its entry `e`, into `q` does before the hold cause set is judged (R130). -/
structure Stacked (n : LetterNo) (e : Entry) (q : Pocket) (new : PocketState) (s t : State) : Prop where
  rest   : t = { s with
    trk := { s.trk with table := t.trk.table }
    pcm := { s.pcm with sups := s.pcm.sups.map (supRemoved n) }
    scu := t.scu
    ptc := { s.ptc with gates := t.ptc.gates }
    can := { s.can with recs := t.can.recs }
    pkc := { recs := s.pkc.recs.set q { stackedRec (s.pkc.recs.get q) with state := new }, blocked := t.pkc.blocked }
    flc := { s.flc with
      holds := { s.flc.holds with
        table := if (dropEntry n s.trk.table).length = s.pfs.profile.releaseAt then false else s.flc.holds.table
        pockets := if new ≠ (s.pkc.recs.get q).state then !t.pkc.blocked.isEmpty else s.flc.holds.pockets
        records := if s.pfs.profile.records = true ∧ s.pfs.profile.reportHold = true ∧ s.cnb.records.length = 79 then true
          else s.flc.holds.records }
      faultCount := if isBin q = false ∧ s.pfs.profile.cleanRun ≤ s.flc.cleanRun + 1 then 0 else s.flc.faultCount
      cleanRun := if isBin q = true then s.flc.cleanRun else if s.pfs.profile.cleanRun ≤ s.flc.cleanRun + 1 then 0
        else s.flc.cleanRun + 1 }
    cnb := { s.cnb with
      bank := { countStacking e q s.cnb.bank with line := { (countStacking e q s.cnb.bank).line with
        recordsLost := if s.pfs.profile.records = true ∧ 96 ≤ s.cnb.records.length then s.cnb.bank.line.recordsLost + 1
          else s.cnb.bank.line.recordsLost } }
      records := if s.pfs.profile.records = true ∧ s.cnb.records.length < 96 then s.cnb.records ++ [recordOf e (.stacked q)]
        else s.cnb.records }
    llk := t.llk }
  left   : CancellersLeft n { s with trk := { s.trk with table := dropEntry n s.trk.table } } t
  gates  : ∀ g, GateTook g (gateReleased n (s.ptc.gates.get g)) (gateReleased n (s.ptc.gates.get g)).queue s t
  calib  : CalibratedIfFree s t
  same   : new = (s.pkc.recs.get q).state →
    t.pkc.blocked = s.pkc.blocked ∧ t.llk.flags.get .pocketState = s.llk.flags.get .pocketState
  judged : new ≠ (s.pkc.recs.get q).state → ∀ c, c ∈ t.pkc.blocked ↔ isBlocked t c = true
  flag   : new ≠ (s.pkc.recs.get q).state → FlagSet .pocketState (.pocket q new) s t
  lost   : s.pfs.profile.records = true ∧ 96 ≤ s.cnb.records.length →
    FlagSet .recordsLost (.lost e.number (s.cnb.bank.line.recordsLost + 1)) s t
  link   : LinkKept ((if new ≠ (s.pkc.recs.get q).state then [.pocketState] else []) ++
    if s.pfs.profile.records = true ∧ 96 ≤ s.cnb.records.length then [.recordsLost] else []) s t

theorem gateTook_of {g : Gate} {r : GateRec} {l : List (LetterNo × Setting)} {s s' t t' : State} (h : GateTook g r l s t)
    (hp : s'.pfs = s.pfs) (hk : s'.trk.belt = s.trk.belt) (ht : t'.ptc.gates = t.ptc.gates) (hb : t'.trk.table = t.trk.table) :
    GateTook g r l s' t' := by
  obtain ⟨hwaits, hempty, htakes⟩ := h
  refine ⟨?_, ?_, ?_⟩
  all_goals simp only [hp, hk, ht, entry_of_table hb]
  all_goals assumption

theorem calibratedIfFree_of {s s' t t' : State} (h : CalibratedIfFree s t) (hs : s'.scu = s.scu) (hn : s'.now = s.now)
    (hl : s'.flc.line = s.flc.line) (ht : t'.scu = t.scu) (hk : t'.trk.table = t.trk.table) (hc : t'.pcm = t.pcm) :
    CalibratedIfFree s' t' := by
  have hf : stationFree { t' with scu := s'.scu } = stationFree { t with scu := s.scu } := by
    unfold stationFree
    simp only [hs, hk, hc]
  refine ⟨fun hd hp hx hy => ?_, fun hx => ?_⟩
  · obtain ⟨hheads, hrest⟩ := h.taken (hs ▸ hd) (hl ▸ hp) (hl ▸ hx) (hf ▸ hy)
    exact ⟨by rw [hs, ht]; exact hheads, by rw [hs, ht, hn]; exact hrest⟩
  · rw [ht, hs]
    exact h.kept (by rw [← hf, ← hs, ← hl]; exact hx)

theorem stackAct_stacked {n : LetterNo} {e : Entry} {q : Pocket} {s : State} (hr : running s = true) (hh : CancelHeld s)
    (hs : ∀ c, CancellerSound (s.can.recs.get c)) (he : s.entry? n = some e) (hq : e.pocket = some q) :
    Stacked n e q (stackedState s.pfs.profile q (stackedRec (s.pkc.recs.get q))) s (stackAct n s) := by
  rw [stackAct_eq he hq]
  have hP := pocketStacked (q := q) (s := s) (fun h => by simp [running, h] at hr)
  generalize stackedState s.pfs.profile q (stackedRec (s.pkc.recs.get q)) = new at hP
  generalize sweepIfClear q (follow q (updPocket q stackedRec s)) = u at hP
  have hhu : CancelHeld u := by unfold CancelHeld; rw [hP.rest]; exact hh
  have hR := removeEntry_removed (n := n) (s := u) (by rw [hP.rest]; exact hr) hhu (by rw [hP.rest]; exact hs)
  generalize removeEntry n u = v at hR
  have hO := offerRecord_offered (recordOf e (.stacked q)) (count (countStacking e q) v)
  generalize offerRecord (recordOf e (.stacked q)) (count (countStacking e q) v) = w at hO
  have hllk : v.llk = u.llk := by rw [hR.rest]
  have hptc : u.ptc = s.ptc := by rw [hP.rest]
  have hpkc : w.pkc = u.pkc := by rw [hO.rest, hR.rest]; rfl
  have hlost : ∀ k, k ≠ .recordsLost → w.llk.flags.get k = u.llk.flags.get k := fun k hk => by
    rw [hO.link.flags k (by split <;> simp [hk])]
    exact congrArg (·.flags.get k) hllk
  have hrecords : (countStacking e q s.cnb.bank).line.recordsLost = s.cnb.bank.line.recordsLost := by rw [countStacking_line]
  have hcnb : (count (countStacking e q) v).cnb = { s.cnb with bank := countStacking e q s.cnb.bank } := by
    rw [hR.rest, hP.rest]; rfl
  have hpfs : (count (countStacking e q) v).pfs = s.pfs := by rw [hR.rest, hP.rest]; rfl
  rw [cleanRunCount_eq]
  refine ⟨?_, hR.left.congr ?_ ?_ ?_ ?_ ?_, fun g => ?_, ?_, fun h => ?_, fun h c => ?_, fun h => ?_, fun h => ?_, ?_⟩
  · rw [← hrecords, hO.rest, hR.rest, hP.rest]
    rfl
  · rw [hP.rest]
  · rw [hP.rest]
  · rw [hP.rest]
  · rw [hO.rest]; rfl
  · rw [hO.rest]; rfl
  · exact hptc ▸ gateTook_of (hR.gates g) (by rw [hP.rest]) (by rw [hP.rest]) (by rw [hO.rest]; rfl) (by rw [hO.rest]; rfl)
  · refine calibratedIfFree_of hR.calib ?_ ?_ ?_ ?_ ?_ ?_
    · rw [hP.rest]
    · rw [hP.rest]
    · rw [hP.rest]
    · rw [hO.rest]; rfl
    · rw [hO.rest]; rfl
    · rw [hO.rest]; rfl
  · obtain ⟨hb, hl⟩ := hP.same h
    exact ⟨(congrArg (·.blocked) hpkc).trans hb, (hlost _ (by decide)).trans (congrArg (·.flags.get .pocketState) hl)⟩
  · have hjudged : ∀ x : State, x.pfs = w.pfs → x.pkc = w.pkc → (c ∈ x.pkc.blocked ↔ isBlocked x c = true) := fun x hp hk => by
      rw [isBlocked_of_states (s := u) (by rw [hp, hO.rest, hR.rest]; rfl) fun q => by rw [hk, hpkc], hk, hpkc]
      exact hP.judged h c
    exact hjudged _ rfl rfl
  · exact (hP.flag h).of_eq (hlost _ (by decide))
  · have hflag := hO.lost (by rw [hpfs, hcnb]; exact h)
    rw [hcnb, hrecords] at hflag
    refine flagSet_of_left hflag ((congrArg (·.flags.get .recordsLost) hllk).trans (hP.link.flags _ ?_))
    split <;> simp
  · have hlink := hO.link
    rw [hpfs, hcnb] at hlink
    have hv : LinkKept [] u (count (countStacking e q) v) := .of_eq hllk
    exact (hP.link.mono fun k hk => List.mem_append_left _ hk).trans
      ((hv.mono (by simp)).trans ((hlink.mono fun k hk => List.mem_append_right _ hk).trans (.of_eq rfl)))

/-! ### The end of a drain (R116, R148) -/

/-- What the change from DRAIN to STANDBY does at one canceller (R116, R119). -/
structure CancDrained (c : Stream) (s t : State) : Prop where
  rest   : t = { s with can := t.can, flc := { s.flc with holds := t.flc.holds }, llk := t.llk }
  can    : t.can = { s.can with recs := s.can.recs.upd c drainedCanceller }
  holds  : ∃ b, t.flc.holds = s.flc.holds.put b .cancel
  told   : (drainedCanceller (s.can.recs.get c)).state ≠ (s.can.recs.get c).state →
    FlagSet .cancellerState (.canceller c (drainedCanceller (s.can.recs.get c)).state none) s t
  stayed : (drainedCanceller (s.can.recs.get c)).state = (s.can.recs.get c).state → t.llk = s.llk
  link   : LinkKept [.cancellerState] s t

theorem cancTo_off {c : Stream} {s : State} (h : (s.can.recs.get c).state ≠ .off) : cancTo c .off s =
    refreshCancel (setFlag .cancellerState (.canceller c .off none) (updCanc c (fun r => { r with state := .off }) s)) := by
  unfold cancTo
  dsimp only
  rw [if_pos ⟨h, .inr rfl⟩, if_neg (by decide)]

theorem cancDrained_off {c : Stream} {s : State}
    (h : (s.can.recs.get c).state = .priming ∨ (s.can.recs.get c).state = .ready ∨ (s.can.recs.get c).state = .overheat) :
    cancDrained c s = refreshCancel (setFlag .cancellerState (.canceller c .off none) (updCanc c drainedCanceller s)) := by
  have hto : cancDrained c s = cancTo c .off (updCanc c (fun r => { r with primeTimer := none }) (sendFrame c .standby s)) := by
    unfold cancDrained
    rcases h with h | h | h <;> simp only [h]
  have hu : updCanc c (fun r => { r with state := .off })
      (updCanc c (fun r => { r with primeTimer := none }) (sendFrame c .standby s)) = updCanc c drainedCanceller s := by
    rw [sendFrame, updCanc_updCanc, updCanc_updCanc]
    refine updCanc_congr ?_
    rcases h with h | h | h <;> simp [drainedCanceller, h]
  rw [hto, cancTo_off, hu]
  rw [sendFrame, updCanc_updCanc, updCanc_get]
  rcases h with h | h | h <;> simp [h]

theorem cancDrained_stays {c : Stream} {s : State}
    (h : ¬ ((s.can.recs.get c).state = .priming ∨ (s.can.recs.get c).state = .ready ∨ (s.can.recs.get c).state = .overheat)) :
    cancDrained c s = updCanc c drainedCanceller s ∧ (drainedCanceller (s.can.recs.get c)).state = (s.can.recs.get c).state := by
  unfold cancDrained
  cases hs : (s.can.recs.get c).state with
  | fault => exact ⟨updCanc_congr (by simp [drainedCanceller, hs]), by simp [drainedCanceller, hs]⟩
  | priming | ready | overheat => simp [hs] at h
  | off | arming | armed | printing => exact ⟨(updCanc_id (by simp [drainedCanceller, hs])).symm, by simp [drainedCanceller, hs]⟩

theorem cancDrained_drained (c : Stream) (s : State) : CancDrained c s (cancDrained c s) := by
  by_cases h : (s.can.recs.get c).state = .priming ∨ (s.can.recs.get c).state = .ready ∨ (s.can.recs.get c).state = .overheat
  · have hoff : (drainedCanceller (s.can.recs.get c)).state = .off := by
      rcases h with h | h | h <;> simp [drainedCanceller, h]
    rw [cancDrained_off h, refreshCancel_owed]
    refine ⟨rfl, rfl, ⟨_, rfl⟩, fun _ => ?_, fun h' => ?_, ?_⟩
    · rw [hoff]; exact setFlag_set _ _ _
    · rw [hoff] at h'
      rw [← h'] at h
      exact absurd h (by decide)
    · exact (setFlag_kept' (by rfl) (List.mem_singleton.2 rfl)).trans (setHold_kept _ _ _ _)
  · obtain ⟨heq, hstate⟩ := cancDrained_stays h
    rw [heq]
    exact ⟨rfl, rfl, ⟨s.flc.holds.cancel, rfl⟩, fun h' => absurd hstate h', fun _ => rfl, .of_eq rfl⟩

/-- The two cancellers' steps, one after the other, report as R119 gives it. -/
theorem cancellersReported_of {f : CancRec → CancRec} {s v t : State}
    (ha : (f (s.can.recs.get .a)).state ≠ (s.can.recs.get .a).state →
      FlagSet .cancellerState (.canceller .a (f (s.can.recs.get .a)).state none) s v)
    (ha' : (f (s.can.recs.get .a)).state = (s.can.recs.get .a).state → v.llk = s.llk)
    (hb : (f (s.can.recs.get .b)).state ≠ (s.can.recs.get .b).state →
      FlagSet .cancellerState (.canceller .b (f (s.can.recs.get .b)).state none) v t)
    (hb' : (f (s.can.recs.get .b)).state = (s.can.recs.get .b).state → t.llk = v.llk) : CancellersReported f s t := by
  refine ⟨fun h => ?_, fun h h' => ?_, fun h h' => ?_⟩
  · by_cases hx : (f (s.can.recs.get .a)).state = (s.can.recs.get .a).state
    · exact flagSet_of_left (hb h) (by rw [ha' hx])
    · exact flagSet_of_set (hb h) (ha hx)
  · exact (ha h').of_eq (by rw [hb' h])
  · rw [hb' h, ha' h']

/-- The snapshot and the line at the end of a drain, after the cancellers' part (R148, R170). -/
def drainedLine (s : State) : State :=
  { takeSnapshot s with flc := { s.flc with drainLimit := none } }

theorem drainEmpty_eq (s : State) : drainEmpty s = setHold .cancel false
    (setFlag .lineState (.line .standby .empty (some (nextSnapshot (cancDrained .b (cancDrained .a s)).cnb.snap.number)))
      { drainedLine (cancDrained .b (cancDrained .a s)) with
        flc := { (drainedLine (cancDrained .b (cancDrained .a s))).flc with line := .standby } }) :=
  setLine_off _ _ _ _ (by decide) (by decide)

theorem drainEmpty_emptied {s : State} (h : s.trk.table = []) : DrainEmptied s (pump (drainEmpty s)) := by
  have hA := cancDrained_drained .a s
  have hB := cancDrained_drained .b (cancDrained .a s)
  rw [drainEmpty_eq]
  generalize cancDrained .a s = v at hA hB
  generalize cancDrained .b v = w at hB
  have hvb : v.can.recs.get .b = s.can.recs.get .b := by rw [hA.can]; rfl
  have hcan : w.can = { s.can with recs := s.can.recs.map drainedCanceller } := by rw [hB.can, hA.can]; rfl
  obtain ⟨_, hvholds⟩ := hA.holds
  obtain ⟨_, hwholds⟩ := hB.holds
  have hw : w = { s with can := w.can, flc := { s.flc with holds := w.flc.holds }, llk := w.llk } := by
    conv_lhs => rw [hB.rest, hA.rest]
  have hholds : w.flc.holds.put false .cancel = s.flc.holds.put false .cancel := by
    rw [hwholds, hvholds, Holds.put_put, Holds.put_put]
  have htold : CancellersReported drainedCanceller s w :=
    cancellersReported_of hA.told hA.stayed (hvb ▸ hB.told) (hvb ▸ hB.stayed)
  have hlink : LinkKept [.cancellerState] s w := hA.link.trans hB.link
  have hflag : FlagSet .lineState (.line .standby .empty (some (nextSnapshot w.cnb.snap.number))) w _ :=
    setFlag_set (k := .lineState) _ { drainedLine w with flc := { (drainedLine w).flc with line := .standby } }
  have hset : LinkKept [.lineState] w (setFlag .lineState (.line .standby .empty (some (nextSnapshot w.cnb.snap.number)))
      { drainedLine w with flc := { (drainedLine w).flc with line := .standby } }) := setFlag_kept' (by rfl) (List.mem_singleton.2 rfl)
  generalize hy : setFlag .lineState _ _ = y at hflag hset ⊢
  have heq : setHold .cancel false y = { s with
      flc := { s.flc with line := .standby, drainLimit := none, holds := { s.flc.holds with cancel := false } }
      can := { s.can with recs := s.can.recs.map drainedCanceller }
      cnb := { s.cnb with snap := {
        number := nextSnapshot s.cnb.snap.number, pos := s.trk.belt, bank := s.cnb.bank, inTable := s.trk.table.length
        utilisation := utilisationOf s.cnb.bank } }
      llk := y.llk } := by
    have hye : y = { drainedLine w with flc := { (drainedLine w).flc with line := .standby }, llk := y.llk } := by
      rw [← hy]; rfl
    have hput : { w.flc.holds with cancel := false } = { s.flc.holds with cancel := false } := hholds
    rw [hye]
    show ({ drainedLine w with
      flc := { (drainedLine w).flc with line := .standby, holds := { w.flc.holds with cancel := false } }, llk := y.llk } : State) = _
    rw [hput, ← hcan, hw]
    rfl
  have hcs : Kind.cancellerState ∉ [Kind.lineState] := by decide
  have hnum : (pump (setHold .cancel false y)).cnb.snap.number = nextSnapshot w.cnb.snap.number := by
    rw [pump_eq, heq, hw]
  refine ⟨?_, FlagSet_pump ?_, ⟨fun hb => ?_, fun hb ha => ?_, fun hb ha => ?_⟩, LinkKept_pump ?_⟩
  · rw [pump_eq, heq, show s.trk.table.length = 0 by rw [h]; rfl]
  · rw [hnum]
    exact flagSet_of_left hflag (hlink.flags _ (by decide))
  · exact FlagSet_pump ((htold.1 hb).of_eq (hset.flags _ hcs))
  · exact FlagSet_pump ((htold.2.1 hb ha).of_eq (hset.flags _ hcs))
  · exact (congrArg (·.flags.get .cancellerState) (pump_llk (setHold .cancel false y))).trans ((hset.flags _ hcs).trans (htold.2.2 hb ha))
  · exact (hlink.mono (by simp)).trans ((hset.mono (by simp)).trans (.of_eq rfl))

/-! ### STACKING (O43) -/

theorem dropEntry_length {n : LetterNo} {s : State} {e : Entry} (he : s.entry? n = some e) :
    s.trk.table.length = (dropEntry n s.trk.table).length + 1 := by
  rw [(dropEntry_perm he).length_eq]
  rfl

/-- The end of an event that found the table not empty (R148, R152). -/
theorem endStacking_eq {s t : State} (h : s.trk.table ≠ []) :
    endStacking s t = pump (checkDrained (judgeHold s.flc.holds.any t)) := by
  unfold endStacking
  dsimp only
  rw [if_neg (by simpa using h)]

theorem exec_stacking {n : LetterNo} {s : State} {e : Entry} {q : Pocket} (hr : running s = true) (he : s.entry? n = some e)
    (hpath : e.path ≠ none) (hq : e.pocket = some q)
    (hreach : reached s.trk.belt (at' e.anchor (stackOffset s.pfs.profile e q : Nat)) = true) :
    exec (.stacking n) s = .next (pump (checkDrained (judgeHold s.flc.holds.any (stackAct n s)))) := by
  have hmem : (PosKind.stacking, ((stackOffset s.pfs.profile e q : Nat) : Int)) ∈ reachedPositions s e :=
    mem_reachedPositions.2 ⟨mem_positions_iff.2 (.inr ⟨hr, .inr (.inr (.inr (.inr (.inr (.inr
      (mem_pocketPositions.2 ⟨hpath, .inr ⟨rfl, q, hq, rfl⟩⟩))))))⟩), hreach⟩
  show execStacking n s = _
  rw [execStacking, takeDue_of_mem he hmem, endStacking_eq (entry_table_ne he)]
  rfl

theorem supRemoved_passing (n : LetterNo) (r : SupRec) (x : Passing) :
    (supRemoved n r).passing = some x ↔ r.passing = some x ∧ x.letter ≠ n := by
  unfold supRemoved
  cases r.passing with
  | none => simp
  | some y =>
    by_cases hy : y.letter = n
    · simp [hy]
      rintro rfl; exact hy
    · simp [hy]
      rintro rfl; exact hy

/-- The judgement sets FEED_HOLD where the set crossed between empty and not empty, and no other flag (R152). -/
theorem judgeHold_kept_if (held : Bool) (s : State) :
    LinkKept (if held = s.flc.holds.any then [] else [.feedHold]) s (judgeHold held s) := by
  split
  next h => rw [judgeHold, if_pos h.symm]; exact .refl _ _
  next h => exact judgeHold_kept _ _ (List.mem_singleton.2 rfl)

theorem Stacked.holdJudged {n : LetterNo} {e : Entry} {q : Pocket} {new : PocketState} {s t : State} (h : Stacked n e q new s t) :
    HoldJudged s (judgeHold s.flc.holds.any t) := by
  refine judgeHold_judged (h.link.flags _ ?_) ?_
  · split <;> split <;> simp
  · rw [h.rest]
    exact congrArg (·.holdCrossings) (countStacking_line e q s.cnb.bank)

/-- Settles O43: the action of a stacking (`Stacked`), judged, and the end of a drain (`DrainEmptied`). -/
theorem stackingRemovesAndCounts : Obligations.StackingRemovesAndCounts := by
  refine ⟨fun s n e q hh hs hr he hpath hq hreach => ?_, fun p e q => ?_, fun q => ?_, fun q => ?_⟩
  · have hS := stackAct_stacked hr hh hs he hq
    refine ⟨_, judgeHold s.flc.holds.any (stackAct n s), exec_stacking hr he hpath hq hreach, ?_⟩
    generalize stackAct n s = x at hS
    have hu := judgeHold_eq s.flc.holds.any x
    obtain ⟨htrk, hpcm, hscu, hmkf, hptc, hcan, hpkc, hflc, -, -, -, -, -, -, -, -, -, -, hpfs, hnow, hfresh, hpend⟩ :=
      judgeHold_frame s.flc.holds.any x
    have hflags : ∀ k, k ≠ .feedHold → (judgeHold s.flc.holds.any x).llk.flags.get k = x.llk.flags.get k := fun k hk =>
      (judgeHold_kept (ks := [.feedHold]) s.flc.holds.any x (by simp)).flags k (by simpa using hk)
    have hjudged := hS.holdJudged
    have hkept := judgeHold_kept_if s.flc.holds.any x
    rw [← hflc] at hkept
    have hline : (judgeHold s.flc.holds.any x).flc.line = s.flc.line := by rw [hflc, hS.rest]
    have hlen := dropEntry_length he
    have hsup : ∀ c, (judgeHold s.flc.holds.any x).pcm.sups.get c = supRemoved n (s.pcm.sups.get c) := fun c => by
      rw [hpcm, hS.rest]
      exact PerSup.get_map _ _ _
    have hbank : (judgeHold s.flc.holds.any x).cnb.bank = { countStacking e q s.cnb.bank with
        line := { (countStacking e q s.cnb.bank).line with
          recordsLost := if s.pfs.profile.records = true ∧ 96 ≤ s.cnb.records.length then s.cnb.bank.line.recordsLost + 1
            else s.cnb.bank.line.recordsLost
          holdCrossings := (judgeHold s.flc.holds.any x).cnb.bank.line.holdCrossings } } := by
      refine (congrArg (·.cnb.bank) hu).trans ?_
      rw [hS.rest]
      rfl
    generalize judgeHold s.flc.holds.any x = u at *
    have hL := hS.left.congr (s' := { s with trk := { s.trk with table := dropEntry n s.trk.table } }) (t' := u) rfl rfl rfl
      (by rw [htrk]) (by rw [hcan])
    intro p r state moves joins lost raises lowers stream b b'
    refine ⟨?_, ?_, fun h => ?_, fun m f hm hf h => ?_, fun c => ⟨?_, fun p => ?_⟩, fun g => ?_, fun c => ⟨fun h => ?_,
      fun h hd => ?_, fun m f j h ho hd hm hf hj => ?_⟩, ?_, fun h => ⟨fun c => ?_, ?_⟩, fun h => ?_, ?_, ?_, fun p => ?_, fun c => ?_,
      fun c j hc hj => ?_, fun c h => ?_, fun h => ?_, hjudged, ?_, fun hl ht => ?_, fun h => ?_⟩
    · have htable : (if (dropEntry n s.trk.table).length = s.pfs.profile.releaseAt then false else s.flc.holds.table) =
          if lowers then false else s.flc.holds.table :=
        if_congr (by show _ ↔ s.trk.table.length = s.pfs.profile.releaseAt + 1; omega) rfl rfl
      have hrecords : (if s.pfs.profile.records = true ∧ s.pfs.profile.reportHold = true ∧ s.cnb.records.length = 79 then true
          else s.flc.holds.records) = if raises then true else s.flc.holds.records :=
        if_congr ⟨fun ⟨h, h', hl⟩ => ⟨⟨h, by omega⟩, h', hl⟩, fun ⟨h, h', hl⟩ => ⟨h.1, h', hl⟩⟩ rfl rfl
      rw [← htable, ← hrecords]
      refine State.ext' (htrk.trans ?_) (hpcm.trans ?_) rfl (hmkf.trans ?_) (hptc.trans ?_) (hcan.trans ?_) (hpkc.trans ?_)
        (hflc.trans ?_) ?_ rfl (hpfs.trans ?_) (hnow.trans ?_) (hfresh.trans ?_) (hpend.trans ?_)
      · rw [htrk, hS.rest]
      · rw [hpcm, hS.rest]
      · rw [hS.rest]
      · rw [hptc, hS.rest]
      · rw [hcan, hS.rest]
      · rw [hpkc, hS.rest]; rfl
      · rw [hpkc, hS.rest]; rfl
      · refine (congrArg (·.cnb) hu).trans ?_
        show _ = { s.cnb with
          bank := { u.cnb.bank with marks := s.cnb.bank.marks, lengths := s.cnb.bank.lengths }
          records := if joins then s.cnb.records ++ [recordOf e (.stacked q)] else s.cnb.records }
        rw [hbank, hS.rest]
        rfl
      · rw [hS.rest]
      · rw [hS.rest]
      · rw [hS.rest]
      · rw [hS.rest]
    · rw [← dropEntry_erase he]; exact hL.bare
    · rw [← dropEntry_erase he]; exact hL.kept h
    · exact (hL.entry m h).trans ((find_dropEntry hm _).trans hf)
    · rw [hsup]; rfl
    · rw [hsup]; exact supRemoved_passing _ _ _
    · obtain ⟨hwaits, hempty, htakes⟩ := gateTook_of (hS.gates g) rfl rfl (t' := u) (by rw [hptc]) (by rw [htrk])
      exact ⟨hwaits, hempty, htakes⟩
    · exact hL.other c h
    · exact hL.ready c h hd
    · exact hL.armed c m f j h ho hd hm ((find_dropEntry hm _).trans hf) hj
    · exact calibratedIfFree_of hS.calib rfl rfl rfl hscu (by rw [htrk]) hpcm
    · rw [hpkc, isBlocked_of_states (s := x) hpfs fun q => by rw [hpkc]]
      exact hS.judged h c
    · exact (hS.flag h).of_eq (hflags _ (by decide))
    · obtain ⟨hb, hf⟩ := hS.same (not_not.1 h)
      exact ⟨by rw [hpkc]; exact hb, (hflags _ (by decide)).trans hf⟩
    · exact (congrArg (·.flow) hbank).trans (countStacking_flow e q b)
    · refine (congrArg (·.line) hbank).trans ?_
      rw [countStacking_line]
    · exact (congrArg (·.pockets.get p) hbank).trans (PerPocket.get_upd _ _ _ _)
    · exact (congrArg (·.rejects.get c) hbank).trans (countStacking_rejects e q b c)
    · refine (congrArg (·.cancel.get c) hbank).trans ?_
      rw [countStacking_cancel q b hc hj, PerStream.upd_get, if_pos rfl]
      exact countJob_eq j _
    · exact (congrArg (·.cancel.get c) hbank).trans (countStacking_nojob q b h)
    · exact (hS.lost h).of_eq (hflags _ (by decide))
    · exact (hS.link.mono fun k hk => List.mem_append_left _ hk).trans (hkept.mono fun k hk => List.mem_append_right _ hk)
    · rw [checkDrained, if_pos ⟨hline.trans hl, ht⟩]
      exact drainEmpty_emptied ht
    · rw [checkDrained, if_neg fun hx => h.elim (fun h => h (hline.symm.trans hx.1)) fun h => h hx.2]
      exact ⟨pump_llk_only u, pump_kept _ _⟩
  · unfold stackOffset length0Of twistOf Profile.twistExtra
    cases q with
    | rm | rh | er => simp [isBin]
    | ea | eb => simp [isBin]
    | a1 | a2 | a3 | a4 | a5 | a6 | b1 | b2 | b3 | b4 | b5 | b6 => simp [isBin]
  · cases q <;> rfl
  · cases q <;> decide

end Sys2Proof.Proofs
end

