-- ==== Sys2Proof/Proofs/Unjudged.lean ====
section
/-! PROOF. No action of a scheduled position judges the hold cause set (R152), for O23. -/

namespace Sys2Proof.Proofs

open Sys2Proof Sys2Proof.Machine Sys2Proof.Safety Sys2Proof.Laws

/-- Between two states of one event the hold cause set was not judged: FEED_HOLD and HOLD_CROSSINGS are as they were (R152). -/
structure Unjudged (s t : State) : Prop where
  flag  : t.llk.flags.get .feedHold = s.llk.flags.get .feedHold
  count : t.cnb.bank.line.holdCrossings = s.cnb.bank.line.holdCrossings

namespace Unjudged

theorem refl (s : State) : Unjudged s s :=
  ⟨rfl, rfl⟩

section
variable {s t : State} (h : Unjudged s t)
include h

theorem of_eq {u : State} (hl : u.llk = t.llk) (hc : u.cnb = t.cnb) : Unjudged s u :=
  ⟨by rw [hl]; exact h.flag, by rw [hc]; exact h.count⟩

theorem of_kept {u : State} {ks : List Kind} (hl : LinkKept ks t u) (hk : .feedHold ∉ ks)
    (hc : u.cnb.bank.line.holdCrossings = t.cnb.bank.line.holdCrossings) : Unjudged s u :=
  ⟨(hl.flags _ hk).trans h.flag, hc.trans h.count⟩

theorem setFlag {k : Kind} (d : Detail) (hk : k ≠ .feedHold) : Unjudged s (setFlag k d t) :=
  h.of_kept (setFlag_kept (ks := [k]) d t (List.mem_singleton.2 rfl)) (by simpa using Ne.symm hk) rfl

theorem setLine (l : LineState) (c : LineCause) (n : Option Counter) : Unjudged s (setLine l c n t) :=
  h.of_kept (setLine_kept (ks := [.lineState]) l c n t (List.mem_singleton.2 rfl)) (by decide) rfl

theorem updEntry (n : LetterNo) (f : Entry → Entry) : Unjudged s (updEntry n f t) := h.of_eq rfl rfl

theorem updCanc (c : Stream) (f : CancRec → CancRec) : Unjudged s (updCanc c f t) := h.of_eq rfl rfl

theorem updPocket (q : Pocket) (f : PocketRec → PocketRec) : Unjudged s (updPocket q f t) := h.of_eq rfl rfl

theorem updGate (g : Gate) (f : GateRec → GateRec) : Unjudged s (updGate g f t) := h.of_eq rfl rfl

theorem setHold (c : HoldCause) (b : Bool) : Unjudged s (setHold c b t) := h.of_eq rfl rfl

theorem updBuf (b : Buf) (f : BufRec → BufRec) : Unjudged s (updBuf b f t) := h.of_eq rfl rfl

theorem stopBlocks : Unjudged s (stopBlocks t) := h.of_eq rfl rfl

theorem writeOutcome (n : LetterNo) (o : CancelOutcome) : Unjudged s (writeOutcome n o t) := h.of_eq rfl rfl

/-! ### The cancellers -/

theorem cancTo (c : Stream) (x : CancState) : Unjudged s (cancTo c x t) :=
  h.of_kept (cancTo_kept (ks := [.cancellerState]) c x t (List.mem_singleton.2 rfl)) (by decide) (by rw [cancTo_cnb])

theorem releaseHeld (c : Stream) (o : CancelOutcome) : Unjudged s (releaseHeld c o t) := by
  obtain ⟨-, -, -, hllk, -, hcnb, -⟩ := releaseHeld_spec c o t
  exact h.of_eq hllk hcnb

theorem releaseDeferred (c : Stream) (o : CancelOutcome) : Unjudged s (releaseDeferred c o t) := by
  obtain ⟨-, -, -, hllk, -, hcnb, -⟩ := releaseDeferred_spec c o t
  exact h.of_eq hllk hcnb

theorem armLetter (c : Stream) (n : LetterNo) : Unjudged s (armLetter c n t) := by
  unfold Machine.armLetter
  split
  · exact h
  · split
    · exact h
    · exact (((h.updEntry _ _).updCanc _ _).updCanc _ _).cancTo _ _

theorem cancReady (c : Stream) : Unjudged s (cancReady c t) := by
  unfold Machine.cancReady
  dsimp only
  split
  · exact h.cancTo _ _
  · exact ((h.cancTo _ _).updCanc _ _).armLetter _ _

theorem cancFault (c : Stream) (x : CancCause) (o : Option CancelOutcome) : Unjudged s (cancFault c x o t) := by
  unfold Machine.cancFault
  split
  · exact h
  · dsimp only
    refine (releaseDeferred ?_ _ _).cancTo _ _
    split
    · exact ((h.updCanc _ _).updCanc _ _).releaseHeld _ _
    · exact ((h.updCanc _ _).updCanc _ _).updCanc _ _

theorem cancStop (c : Stream) : Unjudged s (cancStop c t) := by
  unfold Machine.cancStop
  have hheld : Unjudged s (Machine.updCanc c (fun r => { r with primeTimer := none, replyTimer := none })
      (Machine.releaseHeld c .failed (sendFrame c .standby (sendFrame c .abort t)))) :=
    (((h.updCanc _ _).updCanc _ _).releaseHeld _ _).updCanc _ _
  have hidle : Unjudged s (Machine.updCanc c (fun r => { r with primeTimer := none }) (sendFrame c .standby t)) :=
    (h.updCanc _ _).updCanc _ _
  split
  case h_1 | h_2 | h_3 => exact (hheld.releaseDeferred _ _).cancTo _ _
  case h_4 | h_5 | h_6 => exact (hidle.releaseDeferred _ _).cancTo _ _
  case h_7 => exact h.updCanc _ _
  case h_8 => exact h

theorem faultStop (call : FaultCall) : Unjudged s (faultStop call t) := by
  unfold Machine.faultStop
  split
  · refine cancStop (cancStop (stopBlocks (setLine (setFlag (k := .fault) ?_ _ nofun) _ _ _)) _) _
    exact ⟨h.flag, h.count⟩
  · exact h

theorem armAct (n : LetterNo) : Unjudged s (armAct n t) := by
  unfold Machine.armAct
  have hu : Unjudged s (updJob n (fun j => { j with armTaken := true }) t) := h.updEntry _ _
  split
  · exact h
  · dsimp only
    split
    · split
      · split
        next => exact hu.armLetter _ _
        case h_2 | h_3 | h_4 => split; exacts [hu.updCanc _ _, hu.writeOutcome _ _]
        all_goals exact hu.writeOutcome _ _
      · exact hu
    · exact hu

theorem fireAct (n : LetterNo) : Unjudged s (fireAct n t) := by
  unfold Machine.fireAct
  have hu : Unjudged s (updJob n (fun j => { j with fireTaken := true }) t) := h.updEntry _ _
  split
  · exact h
  · dsimp only
    split
    · split
      · split
        · exact (hu.updCanc _ _).cancTo _ _
        · split
          · exact (((hu.updCanc _ _).releaseHeld _ _).updCanc _ _).cancReady _
          · split
            · exact (hu.writeOutcome _ _).updCanc _ _
            · exact hu.writeOutcome _ _
      · exact hu
    · exact hu

/-! ### The path, the select point and the scan -/

theorem dpAct (n : LetterNo) : Unjudged s (dpAct n t) :=
  dpAct_keeps (P := Unjudged s) (fun c _ h => h.faultStop c) (fun _ _ _ h => h.updGate _ _) (fun _ _ h => h.of_eq rfl rfl)
    (fun _ _ _ h => h.of_eq rfl rfl) (fun n _ h => h.armAct n) (fun n _ h => h.fireAct n) n t h (fun _ _ => h.updEntry _ _)

theorem selectAct (n : LetterNo) : Unjudged s (selectAct n t) := by
  have hc : ∀ q l, Unjudged s (commit n q l t) := fun q l =>
    commit_keeps (P := Unjudged s) (fun c _ h => h.faultStop c) (fun _ _ _ h => h.updGate _ _) n q l t
      ((h.updPocket _ _).updEntry _ _)
  unfold Machine.selectAct
  split
  · exact h
  · split
    · exact hc _ _
    · exact hc _ _

theorem refuseScan (n : LetterNo) : Unjudged s (refuseScan n t) :=
  ⟨h.flag, h.count⟩

theorem shAct (n : LetterNo) : Unjudged s (shAct n t) := by
  unfold Machine.shAct
  split
  · exact h
  · dsimp only
    split
    · exact h.updEntry _ _
    · split
      · exact (h.updEntry _ _).refuseScan _
      · split
        · exact ((h.updEntry _ _).updBuf _ _).updEntry _ _
        · exact (h.updEntry _ _).refuseScan _

/-! ### A stacking -/

theorem setPocketState (q : Pocket) (x : PocketState) : Unjudged s (setPocketState q x t) := by
  unfold Machine.setPocketState
  split
  · exact h
  · have hr : Unjudged s (restate q x t) := by
      unfold restate
      split
      · exact h
      · exact (h.updPocket _ _).setFlag _ (by decide)
    unfold judgeBlocked
    split
    · exact hr
    · exact hr.of_eq rfl rfl

theorem cancRemoved (c : Stream) (n : LetterNo) : Unjudged s (cancRemoved c n t) := by
  unfold Machine.cancRemoved
  rw [undefer_eq]
  dsimp only
  split
  · exact (((h.updCanc _ _).updCanc _ _).updCanc _ _).cancReady _
  · exact h.updCanc _ _

theorem removeEntry (n : LetterNo) : Unjudged s (removeEntry n t) := by
  rw [removeEntry_eq, tryCalibrate_scu]
  have hg : Unjudged s (Gate.all.foldl (gateRemoved n) (withdraw n t)) := by
    refine foldl_keeps (fun u g hu => ?_) _ _ ?_
    · rw [gateRemoved_eq]; exact updGate hu _ _
    · rw [withdraw_eq]; exact h.of_eq rfl rfl
  exact of_eq ((hg.cancRemoved _ _).cancRemoved _ _) rfl rfl

theorem offerRecord (r : LetterRecord) : Unjudged s (offerRecord r t) := by
  have hr := offerRecord_offered r t
  refine h.of_kept hr.link ?_ ?_
  · split <;> simp
  · rw [hr.rest]

theorem counted (e : Entry) (q : Pocket) : Unjudged s (Machine.count (countStacking e q) t) :=
  ⟨h.flag, by rw [← h.count]; exact congrArg (·.holdCrossings) (countStacking_line e q t.cnb.bank)⟩

theorem stackAct (n : LetterNo) : Unjudged s (stackAct n t) := by
  cases he : t.entry? n with
  | none => simpa [Machine.stackAct, he] using h
  | some e =>
    cases hq : e.pocket with
    | none => simpa [Machine.stackAct, he, hq] using h
    | some q =>
      rw [stackAct_eq he hq, cleanRunCount_eq, sweepIfClear_eq, follow]
      exact of_eq (offerRecord (counted (removeEntry (setPocketState (setPocketState (updPocket h _ _) _ _) _ _) _) _ _) _) rfl rfl

/-- No action of a scheduled position judges the hold cause set (R152, log entry 47). -/
theorem act (n : LetterNo) (k : PosKind) : Unjudged s (act n k t) := by
  cases k with
  | overLength => exact h.of_eq (by simp [Machine.act]) (by simp [Machine.act])
  | pe0Jam => exact h.faultStop _
  | missing c => exact h.faultStop _
  | stationExit => exact h.of_eq (by simp [Machine.act]) (by simp [Machine.act])
  | sh => exact h.shAct n
  | pulse => exact h.of_eq (by simp [Machine.act]) (by simp [Machine.act])
  | dp => exact h.dpAct n
  | gateClear g => exact h.of_eq (by simp [Machine.act]) (by simp [Machine.act])
  | arm => exact h.armAct n
  | fire => exact h.fireAct n
  | doneLimit c => exact h.cancFault c .timeout (some .failed)
  | select => exact h.selectAct n
  | stacking => exact h.stackAct n

end

end Unjudged

theorem takeReached_unjudged (n : LetterNo) (fuel : Nat) (s : State) : Unjudged s (takeReached n fuel s) :=
  takeReached_keeps (fun n k _ _ h => h.act n k) n fuel s (.refl s)

end Sys2Proof.Proofs
end

