-- ==== Sys2Proof/Proofs/Arrivals.lean ====
section
/-! PROOF. An arrival is matched or stops the line, and the positions a match brings to be reached are taken (O23). -/

namespace Sys2Proof.Proofs

open Sys2Proof Sys2Proof.Machine Sys2Proof.Safety Sys2Proof.Laws

/-! ### The pulses that move with an anchor (R36, R48) -/

/-- A waiting pulse moved with its letter's anchor. -/
def movedPulse (δ : Pos) (p : Pulse) : Pulse :=
  { p with pos := p.pos + δ }

theorem placePulse_split (p : Pulse) (l : List Pulse) : ∃ front back, l = front ++ back ∧ placePulse p l = front ++ p :: back ∧
    (∀ q ∈ front, q.letter = p.letter ∨ before p.pos q.pos = false) ∧ ∀ q, back.head? = some q → before p.pos q.pos = true := by
  let f := fun q : Pulse => decide (q.letter = p.letter) || !before p.pos q.pos
  refine ⟨l.takeWhile f, l.dropWhile f, List.takeWhile_append_dropWhile.symm, rfl, fun q hq => ?_, fun q hq => ?_⟩
  · have := List.mem_takeWhile_imp (p := f) hq
    simpa [f] using this
  · have h := List.head?_dropWhile_not f l
    rw [hq] at h
    simp [f] at h
    exact h.2

theorem placePulse_perm (p : Pulse) (l : List Pulse) : (placePulse p l).Perm (p :: l) := by
  obtain ⟨front, back, hl, hp, -⟩ := placePulse_split p l
  rw [hp, hl]
  exact List.perm_middle

theorem placePulse_others {n : LetterNo} {p : Pulse} (h : p.letter = n) (l : List Pulse) :
    (placePulse p l).filter (fun q => decide (q.letter ≠ n)) = l.filter fun q => decide (q.letter ≠ n) := by
  obtain ⟨front, back, hl, hp, -⟩ := placePulse_split p l
  rw [hp, hl, List.filter_append, List.filter_append, List.filter_cons_of_neg (by simpa using h)]

theorem placed_perm (δ : Pos) (own l : List Pulse) :
    (own.foldl (fun l p => placePulse (movedPulse δ p) l) l).Perm (own.map (movedPulse δ) ++ l) := by
  induction own generalizing l with
  | nil => exact .refl _
  | cons p own ih =>
    exact (ih _).trans (((placePulse_perm _ l).append_left _).trans List.perm_middle)

theorem placed_others {n : LetterNo} (δ : Pos) (own l : List Pulse) (h : ∀ p ∈ own, p.letter = n) :
    (own.foldl (fun l p => placePulse (movedPulse δ p) l) l).filter (fun q => decide (q.letter ≠ n)) =
      l.filter fun q => decide (q.letter ≠ n) := by
  induction own generalizing l with
  | nil => rfl
  | cons p own ih =>
    obtain ⟨hp, hown⟩ := List.forall_mem_cons.1 h
    exact (ih _ hown).trans (placePulse_others (p := movedPulse δ p) hp l)

theorem movePulses_eq (n : LetterNo) (δ : Pos) (h : HeadRec) : movePulses n δ h = { h with
    waiting := (h.waiting.filter fun p => decide (p.letter = n)).foldl (fun l p => placePulse (movedPulse δ p) l)
      (h.waiting.filter fun p => decide (p.letter ≠ n)) } :=
  rfl

theorem movePulses_spec (n : LetterNo) (δ : Pos) (h : HeadRec) :
    let own := fun l : List Pulse => l.filter fun p => decide (p.letter = n)
    let others := fun l : List Pulse => l.filter fun p => decide (p.letter ≠ n)
    let w := (movePulses n δ h).waiting;
    movePulses n δ h = { h with waiting := w } ∧ others w = others h.waiting ∧ (own w).Perm ((own h.waiting).map (movedPulse δ)) ∧
    (∀ p, own h.waiting = [p] → ∃ l r, w = l ++ movedPulse δ p :: r ∧ (∀ q ∈ l, before (movedPulse δ p).pos q.pos = false) ∧
      (∀ q, r.head? = some q → before (movedPulse δ p).pos q.pos = true)) := by
  dsimp only
  have hown : ∀ p ∈ h.waiting.filter (fun p => decide (p.letter = n)), p.letter = n := fun p hp => by
    simpa using List.of_mem_filter hp
  have hothers : ∀ p ∈ h.waiting.filter (fun p => decide (p.letter ≠ n)), p.letter ≠ n := fun p hp => by
    simpa using List.of_mem_filter hp
  rw [movePulses_eq]
  generalize h.waiting.filter (fun p => decide (p.letter = n)) = own at hown
  generalize h.waiting.filter (fun p => decide (p.letter ≠ n)) = rest at hothers
  refine ⟨rfl, ?_, ?_, fun p hp => ?_⟩
  · exact (placed_others δ own rest hown).trans (List.filter_eq_self.2 fun p hp => by simpa using hothers p hp)
  · have hmap : ∀ p ∈ own.map (movedPulse δ), decide (p.letter = n) = true := fun p hp => by
      obtain ⟨q, hq, rfl⟩ := List.mem_map.1 hp
      exact decide_eq_true (hown q hq)
    refine ((placed_perm δ own rest).filter _).trans (.of_eq ?_)
    rw [List.filter_append, List.filter_eq_self.2 hmap, List.filter_eq_nil_iff.2 fun p hp => by simpa using hothers p hp,
      List.append_nil]
  · subst hp
    have hn : p.letter = n := hown p (List.mem_singleton.2 rfl)
    obtain ⟨front, back, hl, hplace, hbefore, hafter⟩ := placePulse_split (movedPulse δ p) rest
    refine ⟨front, back, hplace, fun q hq => (hbefore q hq).resolve_left fun hx => ?_, hafter⟩
    exact hothers q (hl ▸ List.mem_append_left _ hq) (hx.trans hn)

/-! ### The scheduled positions (R3, R24) -/

theorem supDist_eq (p : Profile) (e : Entry) (c : Sup) : supDist p e c = (match c with
    | .pe1 => p.dist .pe1
    | .pe2 => p.dist .pe2
    | .pe3a => p.dist .pe3a
    | .pe3b => p.dist .pe3b
    | .pe4r => p.dist .pe4r) + if e.path = some .twist ∧ c ≠ .pe1 ∧ c ≠ .pe4r then p.twist.getD 0 else 0 := by
  cases c <;> simp [supDist, twistOf, Profile.twistExtra]

/-- The positions of a letter, kind by kind, as R3 gives them. -/
theorem mem_positions_kind (s : State) (e : Entry) (k : PosKind) (d : Int) : (k, d) ∈ positions s e ↔
    k = .stationExit ∧ e.inStation = true ∧ d = (exitOffset s.pfs.profile e : Int) ∨ running s = true ∧
    (s.trk.measuring = some e.number ∧ (k = .overLength ∧ s.trk.overTaken = false ∧ d = (1201 + s.pfs.profile.minBlock : Nat) ∨
        k = .pe0Jam ∧ d = (2401 + s.pfs.profile.minBlock : Nat)) ∨
      (∃ c, k = .missing c ∧ e.number ∈ (s.pcm.sups.get c).expected ∧
        d = (supDist s.pfs.profile e c + s.pfs.profile.slipTol + s.pfs.profile.minBlock + 1 : Nat)) ∨
      (k = .sh ∧ e.shTaken = false ∧ d = (s.pfs.profile.dist .sh : Int) ∨
        (k = .pulse ∧ ∃ h p rest, (s.scu.heads.get h).out = none ∧ (s.scu.heads.get h).waiting = p :: rest ∧ p.letter = e.number ∧
          d = (p.pos - e.anchor).toInt) ∨ k = .pulse ∧ NextPulse s e d) ∨
      (k = .dp ∧ e.path = none ∧ decidable e = true ∧ d = (s.pfs.profile.dist .dp : Int)) ∨
      (∃ g, k = .gateClear g ∧ ∃ u, (s.ptc.gates.get g).user = some u ∧ u.letter = e.number ∧ d = u.dist) ∨
      (∃ c j, e.stream = some c ∧ e.job = some j ∧
        (k = .arm ∧ j.armTaken = false ∧ d = armOffset s e c ∨ k = .fire ∧ j.fireTaken = false ∧ d = fireOffset s e c j ∨
          k = .doneLimit c ∧ (s.can.recs.get c).held = some e.number ∧ (s.can.recs.get c).state = .printing ∧ d = doneOffset s e c)) ∨
      e.path ≠ none ∧ (k = .select ∧ e.pocket = none ∧ d = (selectOffset s.pfs.profile e : Int) ∨
        k = .stacking ∧ ∃ q, e.pocket = some q ∧ d = (stackOffset s.pfs.profile e q : Int))) := by
  rw [mem_positions_iff, mem_exitPositions, mem_pe0Positions, mem_missingPositions, mem_scanPositions, mem_delayedPositions,
    mem_dpPositions, mem_clearPositions, mem_cancelPositions, mem_pocketPositions]

/-- The end of the event that takes a scheduled position, its action having come to `t` (R148, R152). -/
def positionEnded (k : PosKind) (s t : State) : State :=
  match k with
  | .overLength | .stationExit | .sh | .pulse | .gateClear _ => t
  | .stacking => endStacking s t
  | .pe0Jam | .missing _ | .dp | .arm | .fire | .doneLimit _ | .select => endEvent s t

/-- The command of a scheduled position takes it (R3). -/
theorem exec_commandOf {s : State} {n : LetterNo} {e : Entry} {k : PosKind} {d : Int} (he : s.entry? n = some e)
    (hm : (k, d) ∈ reachedPositions s e) : exec (commandOf n k) s = .next (positionEnded k s (act n k s)) := by
  have hpos := (mem_positions_kind s e k d).1 (mem_reachedPositions.1 hm).1
  have htake := takeDue_of_mem he hm
  rw [← (entry_some he).2] at htake ⊢
  cases k with
  | overLength =>
    obtain ⟨-, hmeas, -⟩ : running s = true ∧ s.trk.measuring = some e.number ∧ _ := by simpa using hpos
    show execOverLengthPosition s = _
    simp only [execOverLengthPosition, hmeas, htake, positionEnded]
  | pe0Jam =>
    obtain ⟨-, hmeas, -⟩ : running s = true ∧ s.trk.measuring = some e.number ∧ _ := by simpa using hpos
    show execPe0JamPosition s = _
    simp only [execPe0JamPosition, hmeas, htake, positionEnded]
  | gateClear g =>
    obtain ⟨-, u, hu, hl, -⟩ : running s = true ∧ ∃ u, (s.ptc.gates.get g).user = some u ∧ u.letter = e.number ∧ d = u.dist := by
      simpa using hpos
    show execGateClearPosition g s = _
    simp only [execGateClearPosition, hu, hl, htake, positionEnded]
  | doneLimit c =>
    obtain ⟨-, -, -, hheld, -⟩ : running s = true ∧ e.stream = some c ∧ (∃ j, e.job = some j) ∧
      (s.can.recs.get c).held = some e.number ∧ _ := by simpa using hpos
    show execDoneLimit c s = _
    simp only [execDoneLimit, hheld, htake, positionEnded]
  | stationExit => exact congrArg Host.Outcome.next htake
  | sh => exact congrArg Host.Outcome.next htake
  | pulse => exact congrArg Host.Outcome.next htake
  | stacking => exact congrArg (fun t => Host.Outcome.next (endStacking s t)) htake
  | missing c => exact congrArg (fun t => Host.Outcome.next (endEvent s t)) htake
  | dp | arm | fire | select => exact congrArg (fun t => Host.Outcome.next (endEvent s t)) htake

/-! ### The positions taken in one event (R27) -/

theorem earliest_none {l : List (PosKind × Int)} (h : earliest l = none) : l = [] := by
  cases l with
  | nil => rfl
  | cons p l =>
    unfold earliest at h
    split at h
    · exact absurd h nofun
    · split at h
      · exact absurd h nofun
      · exact absurd h nofun

theorem earliest_le {l : List (PosKind × Int)} {p : PosKind × Int} (h : earliest l = some p) : ∀ q ∈ l, p.2 ≤ q.2 := by
  induction l generalizing p with
  | nil => simp
  | cons a l ih =>
    unfold earliest at h
    split at h
    next hn =>
      obtain rfl := Option.some.inj h
      rw [earliest_none hn]
      simp
    next q hq =>
      have hl := ih hq
      split at h
      next hlt =>
        obtain rfl := Option.some.inj h
        exact List.forall_mem_cons.2 ⟨hlt.le, hl⟩
      next hle =>
        obtain rfl := Option.some.inj h
        exact List.forall_mem_cons.2 ⟨le_refl _, fun x hx => (Int.not_lt.1 hle).trans (hl x hx)⟩

theorem takeReached_took (n : LetterNo) (fuel : Nat) (s : State) : TookReached n fuel s (takeReached n fuel s) := by
  induction fuel generalizing s with
  | zero => exact .spent s
  | succ k ih =>
    unfold takeReached
    split
    next he => exact .done _ _ fun e h => by simp [he] at h
    next e he =>
      split
      next hn => exact .done _ _ fun e' h => by rw [← Option.some.inj (he.symm.trans h)]; exact earliest_none hn
      next a d hd => exact .next _ _ _ e a d he (earliest_mem hd) (earliest_le hd) (ih _)

theorem takeReached_none {n : LetterNo} {e : Entry} {s : State} (he : s.entry? n = some e) (h : reachedPositions s e = []) (fuel : Nat) :
    takeReached n fuel s = s := by
  cases fuel with
  | zero => rfl
  | succ k => simp [takeReached, he, h, earliest]

/-! ### An arrival against the tolerance (R26) -/

theorem distance_range (p q : Pos) : -2147483648 ≤ distance p q ∧ distance p q < 2147483648 :=
  ⟨BitVec.le_toInt _, BitVec.toInt_lt⟩

theorem distance_at (x a : Pos) (i : Int) : distance (at' x i) a = (BitVec.ofInt 32 (distance x a - i)).toInt := by
  rw [Int.sub_eq_add_neg, BitVec.ofInt_add, BitVec.ofInt_neg, distance, distance, BitVec.ofInt_toInt, at']
  congr 1
  ring

theorem distance_at' (x a : Pos) (i : Int) : distance a (at' x i) = (BitVec.ofInt 32 (i - distance x a)).toInt := by
  rw [Int.sub_eq_add_neg, BitVec.ofInt_add, BitVec.ofInt_neg, distance, distance, BitVec.ofInt_toInt, at']
  congr 1
  ring

theorem before_low {a x : Pos} {k : Nat} (hk : distance x a + k < 2147483648) :
    before a (at' x (-(k : Int))) = true ↔ distance x a < -(k : Int) := by
  have := distance_range x a
  rw [before, decide_eq_true_iff, distance_at, BitVec.toInt_ofInt_eq_self (by decide) (by omega) (by omega)]
  omega

theorem before_high {a x : Pos} {k : Nat} (hk : k ≤ 160) (h : -(k : Int) ≤ distance x a) :
    before (at' x k) a = true ↔ (k : Int) < distance x a := by
  have := distance_range x a
  rw [before, decide_eq_true_iff, distance_at', BitVec.toInt_ofInt_eq_self (by decide) (by omega) (by omega)]
  omega

/-! ### An arrival (R26, R27) -/

theorem qualify_arrival {c : Sup} {ch : Change} {s : State} (hr : running s = true)
    (hraw : (s.pcm.cells.get (supCell c)).raw = .blocked) : qualify (supCell c) ch s =
      if c = .pe1 then tryCalibrate (arrival c ch.pos (qualified (supCell c) s)) else arrival c ch.pos (qualified (supCell c) s) := by
  have hr' : running (qualified (supCell c) s) = true := hr
  have hsup : cellSup (supCell c) = some c := by cases c <;> rfl
  have hpe1 : supCell c = .pe1 ↔ c = .pe1 := by cases c <;> decide
  unfold qualify edge
  simp only [hraw, hsup, hr', if_true]
  exact if_congr hpe1 rfl rfl

theorem arrival_empty {c : Sup} {a : Pos} {s : State} (h : (s.pcm.sups.get c).expected = []) :
    arrival c a s = faultStop (.stray (supCell c)) s := by
  simp [arrival, h]

section
variable {c : Sup} {a : Pos} {s : State} {n : LetterNo} {rest : List LetterNo} {e : Entry}
  (h : (s.pcm.sups.get c).expected = n :: rest) (he : s.entry? n = some e)
include h he

theorem arrival_eq : arrival c a s =
    if before a (at' (at' e.anchor (supDist s.pfs.profile e c)) (-(s.pfs.profile.slipTol : Int))) then faultStop (.stray (supCell c)) s
    else if before (at' (at' e.anchor (supDist s.pfs.profile e c)) s.pfs.profile.slipTol) a then
      faultStop (.jam (supCell c) .missing) s
    else matched c e a s := by
  simp [arrival, h, he]

theorem arrival_stray
    (ho : distance (at' e.anchor (supDist s.pfs.profile e c)) a < -(s.pfs.profile.slipTol : Int)) :
    arrival c a s = faultStop (.stray (supCell c)) s := by
  rw [arrival_eq h he, if_pos ((before_low (by omega)).2 ho)]

theorem arrival_missing (hk : s.pfs.profile.slipTol ≤ 160)
    (ho : (s.pfs.profile.slipTol : Int) < distance (at' e.anchor (supDist s.pfs.profile e c)) a)
    (ho' : distance (at' e.anchor (supDist s.pfs.profile e c)) a < 2147483648 - (s.pfs.profile.slipTol : Int)) :
    arrival c a s = faultStop (.jam (supCell c) .missing) s := by
  rw [arrival_eq h he, if_neg (mt (before_low (by omega)).1 (by omega)), if_pos ((before_high hk (by omega)).2 ho)]

theorem arrival_matched (hk : s.pfs.profile.slipTol ≤ 160)
    (ho : -(s.pfs.profile.slipTol : Int) ≤ distance (at' e.anchor (supDist s.pfs.profile e c)) a)
    (ho' : distance (at' e.anchor (supDist s.pfs.profile e c)) a ≤ s.pfs.profile.slipTol) : arrival c a s = matched c e a s := by
  rw [arrival_eq h he, if_neg (mt (before_low (by omega)).1 (by omega)), if_neg (mt (before_high hk ho).1 (by omega))]

end

/-- The passing slot of a letter that arrived at `a` (R26, R31). -/
def arrivalSlot (p : Profile) (c : Sup) (n : LetterNo) (e : Entry) (a : Pos) : Passing :=
  let limit := if c = .pe1 then 2400 else e.length0.getD 0 + 2 * p.slipTol
  { letter := n, arrival := a, blocked := a + BitVec.ofNat 32 (limit + p.minBlock + 1) }

/-- The merge record with the tail of the letter `n` moved with its anchor (R80). -/
def movedMerge (n : LetterNo) (δ : Pos) (m : Option MergeRec) : Option MergeRec :=
  match m with
  | some m => if m.letter = n then some { m with tail := m.tail + δ } else some m
  | none => none

theorem shiftMerge_eq (n : LetterNo) (δ : Pos) (m : Option MergeRec) : shiftMerge n δ m = movedMerge n δ m := by
  unfold shiftMerge movedMerge
  cases m with
  | none => rfl
  | some m => exact apply_ite some _ _ _

/-- The state that a matched arrival leaves before the positions it brings to be reached are taken (R27). -/
def corrected (c : Sup) (n : LetterNo) (rest : List LetterNo) (e : Entry) (a : Pos) (s : State) : State :=
  let anchor := a - BitVec.ofNat 32 (supDist s.pfs.profile e c)
  withEntry n { e with anchor := anchor, lastPe := supCell c, inStation := decide (c = .pe1) || e.inStation } { s with
    pcm := { s.pcm with sups := s.pcm.sups.set c { expected := rest, passing := some (arrivalSlot s.pfs.profile c n e a) } }
    scu := { s.scu with heads := s.scu.heads.map (movePulses n (anchor - e.anchor)) }
    ptc := { s.ptc with merge := movedMerge n (anchor - e.anchor) s.ptc.merge } }

theorem at_neg (a : Pos) (d : Nat) : at' a (-(d : Int)) = a - BitVec.ofNat 32 d := by
  rw [at', BitVec.ofInt_neg, BitVec.ofInt_natCast, BitVec.sub_eq_add_neg]

theorem at_nat (a : Pos) (d : Nat) : at' a (d : Nat) = a + BitVec.ofNat 32 d := by
  rw [at', BitVec.ofInt_natCast]

theorem blockedLimit_eq (p : Profile) (c : Sup) (e : Entry) :
    blockedLimit p c e = if c = .pe1 then 2400 else e.length0.getD 0 + 2 * p.slipTol := by
  cases c <;> rfl

theorem matched_eq {c : Sup} {a : Pos} {s : State} {n : LetterNo} {rest : List LetterNo} {e : Entry}
    (h : (s.pcm.sups.get c).expected = n :: rest) (he : s.entry? n = some e) :
    matched c e a s = takeReached n 200 (corrected c n rest e a s) := by
  have hslot : arrivalSlot s.pfs.profile c n e a =
      ⟨n, a, at' a (blockedLimit s.pfs.profile c e + s.pfs.profile.minBlock + 1 : Nat)⟩ := by
    rw [at_nat, blockedLimit_eq]; rfl
  have hsup : updSup c (fun r => { expected := r.expected.tail, passing := some (arrivalSlot s.pfs.profile c n e a) }) s =
      { s with pcm := { s.pcm with sups := s.pcm.sups.set c ⟨rest, some (arrivalSlot s.pfs.profile c n e a)⟩ } } := by
    rw [updSup, PerSup.upd, h]
    rfl
  have hin : ∀ b : Bool, (if c = .pe1 then true else b) = (decide (c = .pe1) || b) := fun b => by
    by_cases hc : c = .pe1
    · simp [hc]
    · simp [hc]
  have hupd : ∀ (f : Entry → Entry) q, updEntry n f { s with pcm := q } = withEntry n (f e) { s with pcm := q } := fun f q =>
    updEntry_eq_withEntry (s := { s with pcm := q }) f he
  unfold matched
  simp only [(entry_some he).2, ← hslot, at_neg, hin, shiftMerge_eq]
  rw [hsup, hupd]
  rfl

theorem corrected_entry {c : Sup} {a : Pos} {s : State} {n : LetterNo} (rest : List LetterNo) {e : Entry} (he : s.entry? n = some e) :
    (corrected c n rest e a s).entry? n = some { e with
      anchor := a - BitVec.ofNat 32 (supDist s.pfs.profile e c), lastPe := supCell c, inStation := decide (c = .pe1) || e.inStation } := by
  let f : Entry → Entry := fun e => { e with
    anchor := a - BitVec.ofNat 32 (supDist s.pfs.profile e c), lastPe := supCell c, inStation := decide (c = .pe1) || e.inStation }
  have hw := entry_upd n n f (fun _ => rfl) s
  rw [if_pos rfl, he, updEntry_eq_withEntry f he] at hw
  exact hw

theorem qualified_sup {c : Sup} {s : State} (hraw : (s.pcm.cells.get (supCell c)).raw = .blocked) : qualified (supCell c) s =
    { s with pcm := { s.pcm with cells := s.pcm.cells.set (supCell c) { raw := .blocked, qual := .blocked, change := none } } } := by
  show updCell _ _ _ = _
  rw [updCell, PerCell.upd, hraw]

theorem takeReached_cells (n : LetterNo) (fuel : Nat) (s : State) : (takeReached n fuel s).pcm.cells = s.pcm.cells :=
  takeReached_keeps (P := fun t => t.pcm.cells = s.pcm.cells) (fun n k t _ h => by rw [← h]; simp) n fuel s rfl

/-- Settles O23: an arrival by its offset, the positions a match brings to be reached (`takeReached`), and the positions by kind. -/
theorem arrivalsMatchOrStop : Obligations.ArrivalsMatchOrStop := by
  refine ⟨fun s c ch hr hk hraw hch hd => ?_, fun s n e k d he hm => ?_, fun s e k d => ?_, supDist_eq, movePulses_spec⟩
  · refine ⟨_, exec_qualifyTravel hr hch hd, ?_⟩
    intro u
    have hq : qualified (supCell c) s = u := qualified_sup hraw
    have hru : running u = true := hr
    have hstop : ∀ call, arrival c ch.pos u = faultStop call u → FaultStopped call u (endStacking s (qualify (supCell c) ch s)) := by
      intro call h
      have hfault : tryCalibrate (faultStop call u) = faultStop call u := tryCalibrate_fault (by rw [faultStop_line, if_pos hru])
      rw [qualify_arrival hr hraw, hq, h, hfault, ite_self]
      exact endStacking_faultStop hru rfl
    refine ⟨fun h => hstop _ (arrival_empty h), fun n rest e hn he => ?_⟩
    intro d off
    refine ⟨fun h => ?_, fun h h' => ?_, fun h h' => ?_⟩
    · exact hstop _ (arrival_stray (s := u) hn he h)
    · exact hstop _ (arrival_missing (s := u) hn he hk h h')
    intro limit e' slot v
    have hve : v.entry? n = some e' := corrected_entry rest he
    have hcal : ∀ w : State, w.pcm.cells = v.pcm.cells → (if c = .pe1 then tryCalibrate w else w) = w := by
      intro w hw
      split
      next hc =>
        refine tryCalibrate_kept (.inr (.inr (.inr ?_)))
        have hblocked : w.pcm.cells.pe1.qual = .blocked := by rw [hw]; subst hc; rfl
        simp [stationFree, hblocked]
      next => rfl
    have hqualify : qualify (supCell c) ch s = takeReached n 200 v := by
      rw [qualify_arrival hr hraw, hq, arrival_matched (s := u) hn he hk h h', matched_eq (s := u) hn he]
      exact hcal _ (takeReached_cells n 200 v)
    rw [hqualify, endStacking_eq (entry_table_ne he)]
    have hW := takeReached_took n 200 v
    have hU := takeReached_unjudged n 200 v
    refine ⟨fun hnone => ?_, takeReached n 200 v, judgeHold s.flc.holds.any (takeReached n 200 v), hW, judgeHold_eq _ _, by simp, ?_,
      judgeHold_kept _ _ (List.mem_singleton.2 rfl), fun hl ht => ?_, fun hx => ?_⟩
    · rw [takeReached_none hve hnone, judgeHold_same (held := s.flc.holds.any) (s := v) rfl, checkDrained,
        if_neg fun hy => entry_table_ne hve hy.2]
      exact ⟨pump_llk_only v, .left_eq (t := v) rfl (pump_kept _ _)⟩
    · exact judgeHold_judged hU.flag hU.count
    · rw [checkDrained, if_pos ⟨hl, ht⟩]
      exact drainEmpty_emptied ht
    · rw [checkDrained, if_neg fun hy => hx.elim (fun h => h hy.1) fun h => h hy.2]
      exact ⟨pump_llk_only _, pump_kept _ _⟩
  · exact exec_commandOf he hm
  · rw [mem_positions_kind]
    cases k with
    | overLength => simp
    | pe0Jam => simp
    | missing c => simp
    | stationExit => cases hl : e.length0 <;> simp [exitOffset, hl, Nat.add_assoc]
    | sh => simp
    | pulse => simp [NextPulse]
    | dp => simp
    | gateClear g => simp
    | arm => simp
    | fire => simp
    | doneLimit c => simp [Option.isSome_iff_exists]
    | select => simp
    | stacking => simp

end Sys2Proof.Proofs
end

