-- ==== Sys2Proof/Proofs/Photocells.lean ====
section
/-! PROOF. The Photocell Monitor: the resets that leave it and the Mark Finder alike (O15), raw changes and qualification by time (O20), and
tails (O24). -/

namespace Sys2Proof.Proofs

open Sys2Proof Sys2Proof.Machine Sys2Proof.Safety Sys2Proof.Laws

/-! ### The two resets (O15) -/

/-- A power-on reset and the completion of `= RESTART` run the one reset of the whole part (R184, R198). -/
theorem exec_reset {c : Instr} {s : State} (h : Resets c s) : ∃ cause, exec c s = .next (resetPart cause s) := by
  rcases h with rfl | ⟨rfl, htx⟩
  · exact ⟨.power, rfl⟩
  · have hreply : isRestartReply (.reply (.ok (text "RESTART") [])) = true := decide_eq_true rfl
    refine ⟨.restart, ?_⟩
    show execTransmitLineComplete s = _
    rw [execTransmitLineComplete, transmitComplete, htx]
    exact congrArg Host.Outcome.next (if_pos hreply)

/-- R34: every reset gives each photocell its raw level, qualified. -/
theorem resetPcm_cell (raw : PerCell Level) (x : Photocell) :
    (resetPcm raw).cells.get x = { raw := raw.get x, qual := raw.get x, change := none } :=
  PerCell.get_map _ _ _

/-- Settles O15: each reset is `resetPart`, whose Photocell Monitor and Mark Finder do not depend on its cause. -/
theorem resetsOfPhotocellsAndMarkFinder : Obligations.ResetsOfPhotocellsAndMarkFinder := by
  intro s c hc
  obtain ⟨cause, hex⟩ := exec_reset hc
  refine ⟨resetPart cause s, hex, fun x => ?_, fun x => ?_, rfl, rfl, rfl, rfl, fun b => ?_, ?_⟩
  · have hraw : (s.pcm.cells.map (·.raw)).get x = (s.pcm.cells.get x).raw := PerCell.get_map _ _ _
    have hcell : (resetPart cause s).pcm.cells.get x = _ := resetPcm_cell (s.pcm.cells.map (·.raw)) x
    simp only [hcell, hraw, and_self]
  · cases x <;> exact ⟨rfl, rfl⟩
  · cases b <;> rfl
  · rfl

/-! ### A raw change, and the qualification by time (O20) -/

/-- The calibration at the end of an event that touches no head, clock or line state is that of `CalibratedIfFree` (R41). -/
theorem tryCalibrate_ifFree {s t : State} (hs : t.scu = s.scu) (hn : t.now = s.now) (hl : t.flc.line = s.flc.line) :
    CalibratedIfFree s (tryCalibrate t) := by
  have ht := tryCalibrate_scu t
  have hfree : stationFree { tryCalibrate t with scu := s.scu } = stationFree t := by rw [ht, ← hs]
  refine ⟨fun hd hp hf hst => ?_, fun h => ?_⟩
  · obtain ⟨hheads, hrest⟩ := tryCalibrate_taken (s := t) (hs ▸ hd) (hfree ▸ hst) (hl ▸ hp) (hl ▸ hf)
    exact ⟨fun h => (hheads h).trans (by rw [hs]), hrest.trans (by rw [hs, hn])⟩
  · rw [tryCalibrate_kept, hs]
    rw [hs, hl, ← hfree]
    exact h

theorem updCell_get (c : Photocell) (f : CellRec → CellRec) (s : State) (d : Photocell) :
    (updCell c f s).pcm.cells.get d = if d = c then f (s.pcm.cells.get c) else s.pcm.cells.get d :=
  PerCell.get_set _ _ _ _

/-- The end of a photocell event: a change at PE1 may leave the scan station free (R40, R41). -/
def atStation (c : Photocell) (t : State) : State :=
  if c = .pe1 then tryCalibrate t else t

/-- A photocell event took a calibration that was due where PE1 left the station free, and touched no head otherwise (R41). -/
structure StationJudged (c : Photocell) (s t : State) : Prop where
  other : c ≠ .pe1 → t.scu = s.scu
  pe1   : c = .pe1 → CalibratedIfFree s t

theorem atStation_scu (c : Photocell) (t : State) : atStation c t = { t with scu := (atStation c t).scu } := by
  unfold atStation
  split
  · exact tryCalibrate_scu t
  · rfl

theorem atStation_judged {c : Photocell} {s t : State} (hs : t.scu = s.scu) (hn : t.now = s.now) (hl : t.flc.line = s.flc.line) :
    StationJudged c s (atStation c t) := by
  unfold atStation
  split
  next hc => exact ⟨fun h => absurd hc h, fun _ => tryCalibrate_ifFree hs hn hl⟩
  next hc => exact ⟨fun _ => hs, fun h => absurd h hc⟩

/-- A photocell event that moves neither the line nor the link ends with the calibration PE1 may bring and the transmitter's pick. -/
theorem endEvent_atStation {c : Photocell} {s t : State} (hs : t.scu = s.scu) (hn : t.now = s.now) (hf : t.flc = s.flc)
    (hk : t.llk = s.llk) :
    let v := endEvent s (atStation c t)
    v = { t with scu := v.scu, llk := v.llk } ∧ LinkKept [] s v ∧ StationJudged c s v := by
  have hst := atStation_scu c t
  obtain ⟨hother, hpe1⟩ := atStation_judged (c := c) hs hn (congrArg Flc.line hf)
  generalize atStation c t = w at hst hother hpe1
  rw [endEvent_same (by rw [hst, hf])]
  refine ⟨?_, .left_eq (t := w) (by rw [hst, hk]) (pump_kept [] w), fun hc => ?_, fun hc => ?_⟩
  · rw [pump_eq, hst]
  · rw [pump_eq]; exact hother hc
  · refine calibratedIfFree_of (hpe1 hc) rfl rfl rfl ?_ ?_ ?_ <;> rw [pump_eq]

/-- Outside STARTING, RUN and DRAIN a qualified edge reaches no user while no letter is measured (R9, R33). -/
theorem edge_idle {c : Photocell} {l : Level} {p : Pos} {s : State} (hr : running s = false) (hm : s.trk.measuring = none) :
    edge c l p s = s := by
  unfold edge
  split
  · simp [hr]
  · simp [hm]
  · simp [hr]
  · simp [hr]

/-- A raw level that moves records the pending change, or drops it where the level returns (R21). -/
def rawMoved (l : Level) (s : State) (r : CellRec) : CellRec :=
  { r with raw := l, change := if l = r.qual then none else some { pos := s.trk.belt, time := s.now } }

theorem exec_rawChange {c : Photocell} {l : Level} {s : State} (h : (s.pcm.cells.get c).raw ≠ l) :
    exec (.photocellRawChange c l) s = .next (atStation c (updCell c (rawMoved l s) s)) :=
  congrArg Host.Outcome.next (if_neg h)

/-- A change that has stood 20 ms qualifies outside STARTING, RUN and DRAIN, at the end of its timer (R22, log entry 2). -/
theorem exec_qualifyTime {c : Photocell} {ch : Change} {s : State} (hr : running s = false) (hm : s.trk.measuring = none)
    (hc : (s.pcm.cells.get c).change = some ch) : exec (.photocellQualifyTime c) s =
      .next (endEvent s (atStation c (qualified c (waitUntil (ch.time + 20) s)))) := by
  have hex : exec (.photocellQualifyTime c) s = .next (endEvent s (qualify c ch (waitUntil (ch.time + 20) s))) := by
    show execPhotocellQualifyTime c s = _
    simp [execPhotocellQualifyTime, hc, hr]
  have hq : qualify c ch (waitUntil (ch.time + 20) s) = atStation c (edge c _ _ (qualified c (waitUntil (ch.time + 20) s))) := rfl
  rw [hex, hq, edge_idle (s := qualified c (waitUntil (ch.time + 20) s)) hr hm]

/-- Settles O20. -/
theorem photocellChangesQualify : Obligations.PhotocellChangesQualify := by
  refine fun s c => ⟨fun l hraw => ⟨_, exec_rawChange hraw, ?_⟩, fun ch hr hm hch => ⟨_, exec_qualifyTime hr hm hch, ?_⟩⟩
  · obtain ⟨hother, hpe1⟩ := atStation_judged (c := c) (s := s) (t := updCell c (rawMoved l s) s) rfl rfl rfl
    have ht := atStation_scu c (updCell c (rawMoved l s) s)
    generalize atStation c _ = t at ht hother hpe1
    refine ⟨?_, ?_, fun d hd => ?_, hother, hpe1⟩
    · rw [ht]; rfl
    · rw [ht]; exact (updCell_get _ _ _ _).trans (if_pos rfl)
    · rw [ht]; exact (updCell_get _ _ _ _).trans (if_neg hd)
  · obtain ⟨ht, hlink, hother, hpe1⟩ := endEvent_atStation (c := c) (s := waitUntil (ch.time + 20) s)
      (t := qualified c (waitUntil (ch.time + 20) s)) rfl rfl rfl rfl
    have hend : endEvent s = endEvent (waitUntil (ch.time + 20) s) := rfl
    rw [hend]
    generalize endEvent _ _ = t at ht hlink hother hpe1
    have hnow : t.now = max s.now (ch.time + 20) := by rw [ht]; rfl
    refine ⟨?_, ?_, fun d hd => ?_, hother, fun hc => ?_, .left_eq (t := waitUntil (ch.time + 20) s) rfl hlink⟩
    · rw [ht]; rfl
    · rw [ht]; exact (updCell_get _ _ _ _).trans (if_pos rfl)
    · rw [ht]; exact (updCell_get _ _ _ _).trans (if_neg hd)
    · exact calibratedIfFree_of (hpe1 hc) rfl hnow rfl rfl rfl rfl

/-! ### A tail (O24) -/

theorem qualified_clear {c : Sup} {s : State} (hraw : (s.pcm.cells.get (supCell c)).raw = .clear) : qualified (supCell c) s =
    { s with pcm := { s.pcm with cells := s.pcm.cells.set (supCell c) { raw := .clear, qual := .clear, change := none } } } := by
  show updCell _ _ _ = _
  rw [updCell, PerCell.upd, hraw]

theorem supCell_pe1 (c : Sup) : supCell c = .pe1 ↔ c = .pe1 := by
  cases c <;> decide

/-- A clearing of a supervised photocell hands its tail on while the line runs (R30). -/
theorem qualify_tail {c : Sup} {ch : Change} {s : State} (hr : running s = true)
    (hraw : (s.pcm.cells.get (supCell c)).raw = .clear) :
    qualify (supCell c) ch s = atStation (supCell c) (cellTail c ch.pos (qualified (supCell c) s)) := by
  have hr' : running (qualified (supCell c) s) = true := hr
  have hsup : cellSup (supCell c) = some c := by cases c <;> rfl
  unfold qualify edge
  simp only [hraw, hsup, hr', if_true]
  rfl

/-- The blocked limit of a passing slot, MIN_BLOCK and one count ahead of its blocked position (R31). -/
def limitOf (s : State) (p : Passing) : Pos :=
  p.blocked - BitVec.ofNat 32 (s.pfs.profile.minBlock + 1)

theorem before_limit (s : State) (p : Passing) (tail : Pos) :
    before (at' p.blocked (-(s.pfs.profile.minBlock + 1 : Nat))) tail = true ↔ (limitOf s p - tail).toInt < 0 := by
  rw [at_neg, before, decide_eq_true_iff]
  rfl

/-- The state with the passing slot of a photocell emptied (R30). -/
abbrev slotEmptied (c : Sup) (s : State) : State :=
  updSup c (fun r => { r with passing := none }) s

theorem cellTail_none {c : Sup} {tail : Pos} {s : State} (h : (s.pcm.sups.get c).passing = none) : cellTail c tail s = s := by
  simp [cellTail, h]

section
variable {c : Sup} {tail : Pos} {s : State} {p : Passing} (h : (s.pcm.sups.get c).passing = some p)
include h

theorem cellTail_late (hl : (limitOf s p - tail).toInt < 0) : cellTail c tail s = faultStop (.jam (supCell c) .blocked) s := by
  simp only [cellTail, h, if_pos ((before_limit s p tail).2 hl)]

theorem cellTail_timely (hl : 0 ≤ (limitOf s p - tail).toInt) : cellTail c tail s =
    if c = .pe1 then secondLength p.letter (distance p.arrival tail) (slotEmptied c s) else slotEmptied c s := by
  simp only [cellTail, h, if_neg (mt (before_limit s p tail).1 (Int.not_lt.2 hl))]

end

/-- A write to a letter that is not in the table is discarded (R17). -/
theorem updTable_absent {n : LetterNo} {f : Entry → Entry} {l : List Entry} (h : l.find? (fun e => decide (e.number = n)) = none) :
    updTable n f l = l := by
  induction l with
  | nil => rfl
  | cons e l ih =>
    obtain ⟨he, hl⟩ := List.forall_mem_cons.1 (List.find?_eq_none.1 h)
    rw [updTable, if_neg (by simpa using he), ih (List.find?_eq_none.2 hl)]

theorem secondLength_absent {n : LetterNo} {len : Int} {s : State} (h : s.entry? n = none) : secondLength n len s = s := by
  unfold secondLength updEntry
  rw [updTable_absent h]

/-- The second length of a letter calls for DOUBLE (R31). -/
def IsDouble (p : Profile) (e : Entry) (len : Int) : Prop :=
  ∃ l, e.length0 = some l ∧ (2 * p.slipTol : Nat) < (len - l).natAbs ∧ e.path = none

theorem isDouble_iff (p : Profile) (e : Entry) (len : Int) :
    isDouble p { e with length1 := some len } len = true ∧ e.path = none ↔ IsDouble p e len := by
  unfold isDouble IsDouble
  cases e.length0 <;> simp

theorem secondLength_double {n : LetterNo} {len : Int} {s : State} {e : Entry} (he : s.entry? n = some e)
    (hd : IsDouble s.pfs.profile e len) (hn : e.early = none) : secondLength n len s =
      withEntry n { e with length1 := some len, early := some .double, cause := some (e.cause.getD .double) } s := by
  unfold secondLength
  rw [updEntry_eq_withEntry _ he, if_pos ((isDouble_iff _ _ _).2 hd)]
  unfold withEarly
  cases hc : e.cause <;> simp [hn]

theorem secondLength_single {n : LetterNo} {len : Int} {s : State} {e : Entry} (he : s.entry? n = some e)
    (h : ¬ IsDouble s.pfs.profile e len ∨ e.early.isSome = true) :
    secondLength n len s = withEntry n { e with length1 := some len } s := by
  unfold secondLength
  rw [updEntry_eq_withEntry _ he]
  dsimp only
  split
  next hd =>
    have hsome : e.early.isSome = true := h.resolve_left fun hn => hn ((isDouble_iff _ _ _).1 hd)
    rw [withEarly, if_pos hsome]
  next => rfl

/-- A tail within the blocked limit leaves the line, the link, the clock and the heads, and no letter enters or leaves. -/
theorem cellTail_timely_frame {c : Sup} {tail : Pos} {s : State} {p : Passing} (h : (s.pcm.sups.get c).passing = some p)
    (hl : 0 ≤ (limitOf s p - tail).toInt) :
    let t := cellTail c tail s
    t.scu = s.scu ∧ t.now = s.now ∧ t.flc = s.flc ∧ t.llk = s.llk ∧ (t.trk.table = [] ↔ s.trk.table = []) := by
  rw [cellTail_timely h hl]
  split
  · exact ⟨rfl, rfl, rfl, rfl, updTable_eq_nil⟩
  · exact ⟨rfl, rfl, rfl, rfl, .rfl⟩

/-- An event at a supervised photocell that empties no table ends as `endEvent_atStation` says (R148). -/
theorem endStacking_atStation {c : Sup} {s w : State} (hs : w.scu = s.scu) (hn : w.now = s.now) (hf : w.flc = s.flc)
    (hk : w.llk = s.llk) (ht : w.trk.table = [] → s.trk.table = []) :
    let t := endStacking s (atStation (supCell c) w)
    t = { w with scu := t.scu, llk := t.llk } ∧ LinkKept [] s t ∧ if c = .pe1 then CalibratedIfFree s t else t.scu = s.scu := by
  have htable : (atStation (supCell c) w).trk.table = w.trk.table := by rw [atStation_scu]
  have hend : s.trk.table = [] ∨ (atStation (supCell c) w).flc.line ≠ .drain ∨ (atStation (supCell c) w).trk.table ≠ [] := by
    by_cases hempty : s.trk.table = []
    · exact .inl hempty
    · exact .inr (.inr (htable ▸ mt ht hempty))
  rw [endStacking_eq_endEvent hend]
  obtain ⟨hv, hlink, hother, hpe1⟩ := endEvent_atStation (c := supCell c) hs hn hf hk
  refine ⟨hv, hlink, ?_⟩
  split
  next hc => exact hpe1 ((supCell_pe1 c).2 hc)
  next hc => exact hother (mt (supCell_pe1 c).1 hc)

/-- Settles O24: the tail is `cellTail`, and PE1 then has left the station free or not (`endStacking_atStation`). -/
theorem tailsEmptyThePassingSlot : Obligations.TailsEmptyThePassingSlot := by
  intro s c ch hr hraw hch hd
  refine ⟨_, exec_qualifyTravel hr hch hd, ?_⟩
  intro u
  have hu : qualified (supCell c) s = u := qualified_clear hraw
  rw [qualify_tail hr hraw, hu]
  intro station
  refine ⟨fun hnone => ?_, fun p hp => ?_⟩
  · have htail : cellTail c ch.pos u = u := cellTail_none hnone
    obtain ⟨ht, hlink, hst⟩ := endStacking_atStation (c := c) (s := s) (w := u) rfl rfl rfl rfl id
    rw [← htail] at ht hlink hst
    exact ⟨ht.trans (by rw [htail]), hlink, hst⟩
  intro limit
  refine ⟨fun hlate => ?_, fun htimely => ?_⟩
  · have hfault : atStation (supCell c) (faultStop (.jam (supCell c) .blocked) u) = faultStop (.jam (supCell c) .blocked) u :=
      (congrArg (ite _ · _) (tryCalibrate_fault (by rw [faultStop_line, if_pos (show running u = true from hr)]))).trans (ite_self _)
    rw [cellTail_late (s := u) hp hlate, hfault]
    exact endStacking_faultStop hr rfl
  intro v
  obtain ⟨hscu, hnow, hflc, hllk, htable⟩ := cellTail_timely_frame (tail := ch.pos) (s := u) hp htimely
  obtain ⟨ht, hlink, hst⟩ := endStacking_atStation (c := c) (s := s) hscu hnow hflc hllk htable.1
  have hval : ∀ w, cellTail c ch.pos u = w → endStacking s (atStation (supCell c) (cellTail c ch.pos u)) = { w with
      scu := (endStacking s (atStation (supCell c) (cellTail c ch.pos u))).scu
      llk := (endStacking s (atStation (supCell c) (cellTail c ch.pos u))).llk } := fun w hw => by rw [← hw]; exact ht
  have htail := cellTail_timely (tail := ch.pos) (s := u) hp htimely
  have hv : slotEmptied c u = v := rfl
  rw [hv] at htail
  refine ⟨hlink, hst, fun h => hval v ?_, fun hc e he => ⟨fun hdouble hearly => hval _ ?_, fun h => hval _ ?_⟩⟩
  · rcases h with hc | he
    · rw [htail, if_neg hc]
    · rw [htail, secondLength_absent (s := v) he, ite_self]
  · rw [htail, if_pos hc]
    exact secondLength_double (s := v) (e := e) he hdouble hearly
  · rw [htail, if_pos hc]
    exact secondLength_single (s := v) he h

end Sys2Proof.Proofs
end

