-- ==== Sys2Proof/Proofs/ArmFire.lean ====
section
/-! PROOF. A letter at its arm point and at its fire point, as one change of its cancel job and of its canceller's record (R103 to R105, R108),
for O34. -/

namespace Sys2Proof.Proofs

open Sys2Proof Sys2Proof.Machine Sys2Proof.Safety Sys2Proof.Laws

/-! ### Writes to one letter's job -/

theorem PerStream.set_set {α : Type} (t : PerStream α) (c : Stream) (a b : α) : (t.set c a).set c b = t.set c b := by
  cases c <;> rfl

theorem updTable_updTable {n : LetterNo} {f g : Entry → Entry} (hf : ∀ e, (f e).number = e.number) (l : List Entry) :
    updTable n g (updTable n f l) = updTable n (g ∘ f) l := by
  induction l with
  | nil => rfl
  | cons e l ih =>
    by_cases h : e.number = n
    · simp [updTable, h, hf]
    · simp [updTable, h, ih]

theorem updEntry_updEntry {n : LetterNo} {f g : Entry → Entry} (hf : ∀ e, (f e).number = e.number) (s : State) :
    updEntry n g (updEntry n f s) = updEntry n (g ∘ f) s := by
  simp only [updEntry, updTable_updTable hf]

theorem updJob_updJob (n : LetterNo) (f g : CancelJob → CancelJob) (s : State) :
    updJob n g (updJob n f s) = updJob n (g ∘ f) s := by
  have hjob : (fun e : Entry => { e with job := (e.job.map f).map g }) = fun e => { e with job := e.job.map (g ∘ f) } := by
    simp only [Option.map_map]
  exact (updEntry_updEntry (f := fun e => { e with job := e.job.map f }) (fun _ => rfl) s).trans (congrArg (updEntry n · s) hjob)

theorem updJob_entry (n m : LetterNo) (f : CancelJob → CancelJob) (s : State) : (updJob n f s).entry? m =
    if m = n then (s.entry? m).map fun e => { e with job := e.job.map f } else s.entry? m :=
  entry_upd n m (fun e => { e with job := e.job.map f }) (fun _ => rfl) s

theorem cancelHeld_updJob {n : LetterNo} {f : CancelJob → CancelJob} {s : State} (h : CancelHeld s) : CancelHeld (updJob n f s) :=
  cancelHeld_of_available (t := updJob n f s) h rfl rfl fun _ => rfl

/-- The state in which a letter's cancel job stands at `j` and its canceller's record at `r` (R17, R97). -/
def jobAt (n : LetterNo) (e : Entry) (c : Stream) (j : CancelJob) (r : CancRec) (s : State) : State :=
  { withEntry n { e with job := some j } s with can := { s.can with recs := s.can.recs.set c r } }

theorem updCanc_updJob_eq {n : LetterNo} {e : Entry} {j : CancelJob} {s : State} (he : s.entry? n = some e) (hj : e.job = some j)
    (c : Stream) (f : CancRec → CancRec) (g : CancelJob → CancelJob) :
    updCanc c f (updJob n g s) = jobAt n e c (g j) (f (s.can.recs.get c)) s := by
  unfold updJob
  rw [updEntry_eq_withEntry _ he, hj]
  rfl

section
variable {n : LetterNo} {e : Entry} {c : Stream} {j : CancelJob} {s : State}

theorem jobAt_entry (he : s.entry? n = some e) (hj : e.job = some j) (k : CancelJob) (r : CancRec) :
    (jobAt n e c k r s).entry? n = some { e with job := some k } := by
  rw [← updCanc_updJob_eq he hj c (fun _ => r) (fun _ => k)]
  show (updJob n (fun _ => k) s).entry? n = _
  rw [updJob_entry, if_pos rfl, he, Option.map_some, hj, Option.map_some]

theorem jobAt_entry_ne (he : s.entry? n = some e) (hj : e.job = some j) (k : CancelJob) (r : CancRec) {m : LetterNo} (hm : m ≠ n) :
    (jobAt n e c k r s).entry? m = s.entry? m := by
  rw [← updCanc_updJob_eq he hj c (fun _ => r) (fun _ => k)]
  exact (updJob_entry n m (fun _ => k) s).trans (if_neg hm)

theorem jobAt_rec (k : CancelJob) (r : CancRec) : (jobAt n e c k r s).can.recs.get c = r :=
  (PerStream.get_set _ _ _ _).trans (if_pos rfl)

/-- A letter keeps CANCEL right where its canceller stays available, or stays not (R117). -/
theorem cancelHeld_jobAt {r : CancRec} (k : CancelJob) (hh : CancelHeld s)
    (ha : available r.state = available (s.can.recs.get c).state) : CancelHeld (jobAt n e c k r s) := by
  refine cancelHeld_of_available (t := jobAt n e c k r s) hh rfl rfl fun d => ?_
  show available ((s.can.recs.set c r).get d).state = _
  rw [PerStream.get_set]
  split
  next hd => rw [hd, ha]
  next => rfl

/-! ### The arm point (R103, R104) -/

/-- A cancel job as the arm point leaves it, with the canceller's record at `r` (R103, R104). -/
def armedJob (r : CancRec) (j : CancelJob) : CancelJob :=
  let k := if j.outcome = .pending then
      match r.state with
      | .ready => densified r j
      | .arming | .armed | .printing => if r.deferred = none then j else { j with outcome := .skippedBusy }
      | .off | .priming | .overheat | .fault => { j with outcome := .skippedUnavailable }
    else j
  { k with armTaken := true }

/-- A canceller record as the arm point of a letter leaves it (R103, R104). -/
def armedRec (now : Nat) (n : LetterNo) (e : Entry) (j : CancelJob) (r : CancRec) : CancRec :=
  if j.outcome = .pending then
    match r.state with
    | .ready => armed now n e j r
    | .arming | .armed | .printing => if r.deferred = none then { r with deferred := some n } else r
    | .off | .priming | .overheat | .fault => r
  else r

theorem armedRec_available (now : Nat) (n : LetterNo) (e : Entry) (j : CancelJob) (r : CancRec) :
    available (armedRec now n e j r).state = available r.state := by
  unfold armedRec
  split
  · split
    next hs => rw [hs]; rfl
    case h_2 | h_3 | h_4 => split <;> rfl
    all_goals rfl
  · rfl

theorem armedJob_winStart (r : CancRec) (j : CancelJob) : (armedJob r j).winStart = j.winStart := by
  unfold armedJob
  dsimp only
  split
  · split
    next => rfl
    case h_2 | h_3 | h_4 => split <;> rfl
    all_goals rfl
  · rfl

/-- The arm point, as one change of the job and one of the canceller's record. -/
theorem armAct_eq (hh : CancelHeld s) (he : s.entry? n = some e) (hc : e.stream = some c) (hj : e.job = some j) :
    armAct n s = jobAt n e c (armedJob (s.can.recs.get c) j) (armedRec s.now n e j (s.can.recs.get c)) s := by
  have hjob : ∀ g : CancelJob → CancelJob, updJob n g s = jobAt n e c (g j) (s.can.recs.get c) s := fun g =>
    (updCanc_id (f := id) rfl).symm.trans (updCanc_updJob_eq he hj c id g)
  have hmark := updJob_entry n n (fun j => { j with armTaken := true }) s
  rw [if_pos rfl, he, Option.map_some, hj, Option.map_some] at hmark
  have hout : ∀ o, writeOutcome n o (updJob n (fun j => { j with armTaken := true }) s) =
      jobAt n e c { j with outcome := o, armTaken := true } (s.can.recs.get c) s := fun o =>
    (updJob_updJob n _ (fun j => { j with outcome := o }) s).trans (hjob _)
  unfold armAct armedJob armedRec
  simp only [he, hc, hj]
  split
  next hp =>
    have hr : (updJob n (fun j => { j with armTaken := true }) s).can = s.can := rfl
    rw [hr]
    cases hs : (s.can.recs.get c).state with
    | ready =>
      refine (armLetter_some (cancelHeld_updJob hh) (by rw [hr, hs]; rfl) hmark rfl).trans ?_
      rw [updJob_updJob]
      exact updCanc_updJob_eq he hj c _ _
    | arming | armed | printing =>
      dsimp only
      split
      · exact (updCanc_updJob_eq he hj c _ _).trans (by simp only [hs])
      · exact hout _
    | off | priming | overheat | fault => exact hout _
  next => exact hjob _

theorem armAct_taken (hh : CancelHeld s) (he : s.entry? n = some e) (hc : e.stream = some c) (hj : e.job = some j) (l : Llk) :
    ArmTaken n e c j s { armAct n s with llk := l } := by
  rw [armAct_eq hh he hc hj]
  obtain rfl := (entry_some he).2
  unfold armedJob armedRec
  refine ⟨fun hp => ?_, fun hp => ⟨fun hs => ?_, fun hs => ⟨fun hd => ?_, fun hd => ?_⟩, fun hs => ?_⟩⟩
  · rw [if_neg hp, if_neg hp]; rfl
  · rw [if_pos hp, if_pos hp]
    simp only [hs]
    rfl
  · rw [if_pos hp, if_pos hp]
    rcases hs with hs | hs | hs <;> simp only [hs, if_pos hd] <;> rfl
  · rw [if_pos hp, if_pos hp]
    rcases hs with hs | hs | hs <;> simp only [hs, if_neg hd] <;> rfl
  · rw [if_pos hp, if_pos hp]
    rcases hs with hs | hs | hs | hs <;> simp only [hs] <;> rfl

/-! ### The fire point (R103, R105, R108) -/

/-- A cancel job that its fire point leaves with an outcome (R103). -/
def firedJob (o : CancelOutcome) (j : CancelJob) : CancelJob :=
  { j with outcome := o, fireTaken := true }

/-- A canceller record whose arming ended, before the return to READY (R105). -/
def disarmed (r : CancRec) : CancRec :=
  { r with held := none, replyTimer := none, frames := r.frames ++ [.abort] }

/-- The state in which a letter has taken its fire point, its arming ended, before a deferred arm is taken (R105, R108). -/
def aborted (n : LetterNo) (e : Entry) (c : Stream) (j : CancelJob) (s : State) : State :=
  jobAt n e c (firedJob .skippedBusy j) (readied (s.can.recs.get c)) s

/-- The arming of a letter ends at its fire point (R105, R108). -/
theorem arming_ends (hheld : (s.can.recs.get c).held = some n) :
    updCanc c (fun r => { r with replyTimer := none }) (releaseHeld c .skippedBusy
      (sendFrame c .abort (updJob n (fun j => { j with fireTaken := true }) s))) = updCanc c disarmed (updJob n (firedJob .skippedBusy) s) := by
  have hheld' : ((sendFrame c .abort (updJob n (fun j => { j with fireTaken := true }) s)).can.recs.get c).held = some n := by
    rw [sendFrame, updCanc_get]; exact hheld
  simp only [releaseHeld, hheld']
  show updCanc c _ (updCanc c _ (updCanc c _ (writeOutcome n .skippedBusy (updJob n _ s)))) = _
  rw [updCanc_updCanc, updCanc_updCanc]
  exact congrArg (updCanc c disarmed) (updJob_updJob n _ (fun j => { j with outcome := .skippedBusy }) s)

section
variable (he : s.entry? n = some e) (hc : e.stream = some c) (hj : e.job = some j)
include he hc hj

theorem fireAct_marks (hp : j.outcome ≠ .pending) :
    fireAct n s = jobAt n e c (firedJob j.outcome j) (s.can.recs.get c) s := by
  simp only [fireAct, he, hc, hj, if_neg hp]
  exact (updCanc_id (f := id) rfl).symm.trans (updCanc_updJob_eq he hj c id _)

theorem fireAct_skips (hp : j.outcome = .pending)
    (h : (s.can.recs.get c).held ≠ some n ∨ (s.can.recs.get c).state ≠ .armed ∧ (s.can.recs.get c).state ≠ .arming) :
    fireAct n s = jobAt n e c (firedJob .skippedBusy j)
      { s.can.recs.get c with deferred := if (s.can.recs.get c).deferred = some n then none else (s.can.recs.get c).deferred } s := by
  have hout : ∀ f, updCanc c f (writeOutcome n .skippedBusy (updJob n (fun j => { j with fireTaken := true }) s)) =
      jobAt n e c (firedJob .skippedBusy j) (f (s.can.recs.get c)) s := fun f =>
    (congrArg (updCanc c f) (updJob_updJob n _ (fun j => { j with outcome := .skippedBusy }) s)).trans (updCanc_updJob_eq he hj c f _)
  have harmed : ¬ ((s.can.recs.get c).held = some n ∧ (s.can.recs.get c).state = .armed) := fun hx => h.elim (· hx.1) fun h => h.1 hx.2
  have harming : ¬ ((s.can.recs.get c).held = some n ∧ (s.can.recs.get c).state = .arming) := fun hx => h.elim (· hx.1) fun h => h.2 hx.2
  have hr : (updJob n (fun j => { j with fireTaken := true }) s).can = s.can := rfl
  simp only [fireAct, he, hc, hj, if_pos hp, hr, if_neg harmed, if_neg harming]
  split
  · exact hout _
  · exact (updCanc_id (f := id) rfl).symm.trans (hout id)

variable (hh : CancelHeld s)
include hh

theorem fireAct_strobes (hp : j.outcome = .pending) (hheld : (s.can.recs.get c).held = some n)
    (hs : (s.can.recs.get c).state = .armed) : fireAct n s = jobAt n e c (firedJob .pending j)
      { s.can.recs.get c with state := .printing, strobes := (s.can.recs.get c).strobes ++ [n] } s := by
  have hr : (updJob n (fun j => { j with fireTaken := true }) s).can = s.can := rfl
  simp only [fireAct, he, hc, hj, if_pos hp, hr, if_pos (And.intro hheld hs)]
  rw [cancTo_available (cancelHeld_upd (cancelHeld_updJob hh) rfl) (by rw [updCanc_get, hr, hs]; rfl) rfl, updCanc_updCanc,
    updCanc_updJob_eq he hj, firedJob, ← hp]
  rfl

/-- A letter whose arming is under way at its fire point ends it, and the deferred letter is armed (R105, R108). -/
theorem fireAct_aborts (hp : j.outcome = .pending) (hheld : (s.can.recs.get c).held = some n)
    (hs : (s.can.recs.get c).state = .arming) : fireAct n s = match (s.can.recs.get c).deferred with
      | none => aborted n e c j s
      | some m => armLetter c m (aborted n e c j s) := by
  have harmed : ¬ ((s.can.recs.get c).held = some n ∧ (s.can.recs.get c).state = .armed) := fun hx =>
    absurd (hs.symm.trans hx.2) (by decide)
  have hr : (updJob n (fun j => { j with fireTaken := true }) s).can = s.can := rfl
  simp only [fireAct, he, hc, hj, if_pos hp, hr, if_neg harmed, if_pos (And.intro hheld hs), arming_ends hheld]
  have hget : (updCanc c disarmed (updJob n (firedJob .skippedBusy) s)).can.recs.get c = disarmed (s.can.recs.get c) := updCanc_get _ _ _
  have hh' : CancelHeld (updCanc c disarmed (updJob n (firedJob .skippedBusy) s)) := cancelHeld_upd (cancelHeld_updJob hh) rfl
  have ha : available ((updCanc c disarmed (updJob n (firedJob .skippedBusy) s)).can.recs.get c).state = true := by
    rw [hget]; exact congrArg available hs
  cases hd : (s.can.recs.get c).deferred with
  | none =>
    rw [cancReady_alone hh' ha (by rw [hget]; exact hd), updCanc_updCanc, updCanc_updJob_eq he hj]
    simp only [Function.comp, disarmed, aborted, readied, hd]
  | some m =>
    rw [cancReady_next hh' ha (by rw [hget]; exact hd), updCanc_updCanc, updCanc_updJob_eq he hj]
    rfl

end

/-- The arming of a letter touches neither the link nor the line, in a canceller that is available (R104, R117, R119). -/
theorem armLetter_quiet {m : LetterNo} (hh : CancelHeld s) (ha : available (s.can.recs.get c).state = true) :
    (armLetter c m s).llk = s.llk ∧ (armLetter c m s).flc = s.flc := by
  cases hj : jobOf s m with
  | none => rw [armLetter_none hj]; exact ⟨rfl, rfl⟩
  | some k =>
    obtain ⟨f, hf, hk⟩ := Option.bind_eq_some_iff.1 hj
    rw [armLetter_some hh ha hf hk]
    exact ⟨rfl, rfl⟩

theorem cancelHeld_aborted (hh : CancelHeld s) (hs : (s.can.recs.get c).state = .arming) : CancelHeld (aborted n e c j s) :=
  cancelHeld_jobAt _ hh (by rw [hs]; rfl)

section
variable (hh : CancelHeld s) (he : s.entry? n = some e) (hc : e.stream = some c) (hj : e.job = some j)
include hh he hc hj

/-- The fire point touches neither the link nor the line (R108, R117, R119). -/
theorem fireAct_quiet : (fireAct n s).llk = s.llk ∧ (fireAct n s).flc = s.flc := by
  by_cases hp : j.outcome = .pending
  case neg => rw [fireAct_marks he hc hj hp]; exact ⟨rfl, rfl⟩
  by_cases hheld : (s.can.recs.get c).held = some n
  case neg => rw [fireAct_skips he hc hj hp (.inl hheld)]; exact ⟨rfl, rfl⟩
  by_cases harmed : (s.can.recs.get c).state = .armed
  · rw [fireAct_strobes he hc hj hh hp hheld harmed]; exact ⟨rfl, rfl⟩
  by_cases harming : (s.can.recs.get c).state = .arming
  · rw [fireAct_aborts he hc hj hh hp hheld harming]
    split
    · exact ⟨rfl, rfl⟩
    · exact armLetter_quiet (cancelHeld_aborted hh harming) (by rw [aborted, jobAt_rec]; rfl)
  · rw [fireAct_skips he hc hj hp (.inr ⟨harmed, harming⟩)]; exact ⟨rfl, rfl⟩

theorem fireAct_taken (l : Llk) : FireTaken n e c j s { fireAct n s with llk := l } := by
  refine ⟨fun hp => ?_, fun hp => ⟨fun hheld hs => ?_, fun hheld hs hd => ?_, fun m f k hheld hs hd hm hf hk => ?_, fun h hd => ?_,
    fun h hd => ?_⟩⟩
  · rw [fireAct_marks he hc hj hp]; rfl
  · rw [fireAct_strobes he hc hj hh hp hheld hs]; rfl
  · rw [fireAct_aborts he hc hj hh hp hheld hs, hd]
    simp only [aborted, readied]
    rfl
  · have hent : (aborted n e c j s).entry? m = some f := (jobAt_entry_ne he hj _ _ hm).trans hf
    have hrec : (aborted n e c j s).can.recs.get c = readied (s.can.recs.get c) := jobAt_rec _ _
    have hset : ∀ r, (aborted n e c j s).can.recs.set c r = s.can.recs.set c r := fun r => PerStream.set_set _ _ _ _
    rw [fireAct_aborts he hc hj hh hp hheld hs, hd]
    simp only
    rw [armLetter_some (cancelHeld_aborted hh hs) (by rw [hrec]; rfl) hent hk, updCanc_updJob_eq hent hk, hrec]
    unfold jobAt
    rw [hset]
    simp only [armed, readied, List.append_assoc, hs]
    rfl
  · rw [fireAct_skips he hc hj hp h, if_pos hd]; rfl
  · rw [fireAct_skips he hc hj hp h, if_neg hd]; rfl

end

end

end Sys2Proof.Proofs
end

