-- ==== Sys2Proof/Proofs/Decisions.lean ====
section
/-! PROOF. The decision at DP written into the entry and handed on to the lists, the merge record, the gates and the cancellers (O34). -/

namespace Sys2Proof.Proofs

open Sys2Proof Sys2Proof.Machine Sys2Proof.Safety Sys2Proof.Laws

/-! ### Arm and fire points already reached (R103) -/

/-- The first half of `armAtDp`: the arm point where it is already reached (R103). -/
def armFirst (n : LetterNo) (s : State) : State :=
  match s.entry? n with
  | some e => match e.stream, e.job with
    | some c, some _ => if running s && reached s.trk.belt (at' e.anchor (armOffset s e c)) then armAct n s else s
    | _, _ => s
  | none => s

/-- The second half of `armAtDp`: the fire point where it is already reached (R103). -/
def fireNext (n : LetterNo) (s : State) : State :=
  match s.entry? n with
  | some e => match e.stream, e.job with
    | some c, some j => if running s && reached s.trk.belt (at' e.anchor (fireOffset s e c j)) then fireAct n s else s
    | _, _ => s
  | none => s

theorem armAtDp_eq (n : LetterNo) (s : State) : armAtDp n s = fireNext n (armFirst n s) :=
  rfl

theorem armAtDp_stopped {n : LetterNo} {s : State} (hr : running s = false) : armAtDp n s = s := by
  have harm : armFirst n s = s := by
    unfold armFirst
    simp only [hr, Bool.false_and, Bool.false_eq_true, if_false]
    split
    · split <;> rfl
    · rfl
  rw [armAtDp_eq, harm]
  unfold fireNext
  simp only [hr, Bool.false_and, Bool.false_eq_true, if_false]
  split
  · split <;> rfl
  · rfl

theorem armAtDp_jobless {n : LetterNo} {e : Entry} {s : State} (he : s.entry? n = some e) (hj : e.job = none) : armAtDp n s = s := by
  have harm : armFirst n s = s := by simp [armFirst, he, hj]
  rw [armAtDp_eq, harm]
  simp [fireNext, he, hj]

/-- A letter with a cancel job took those of its arm and fire points that were already reached, the arm point first (R103). -/
structure PointsTaken (n : LetterNo) (e : Entry) (c : Stream) (j : CancelJob) (s t : State) : Prop where
  neither : ¬ reached s.trk.belt (at' e.anchor (armOffset s e c)) = true →
    ¬ reached s.trk.belt (at' e.anchor (fireOffset s e c j)) = true → t = { s with llk := t.llk }
  arm     : reached s.trk.belt (at' e.anchor (armOffset s e c)) = true →
    ¬ reached s.trk.belt (at' e.anchor (fireOffset s e c j)) = true → ArmTaken n e c j s t
  fire    : ¬ reached s.trk.belt (at' e.anchor (armOffset s e c)) = true →
    reached s.trk.belt (at' e.anchor (fireOffset s e c j)) = true → FireTaken n e c j s t
  both    : reached s.trk.belt (at' e.anchor (armOffset s e c)) = true →
    reached s.trk.belt (at' e.anchor (fireOffset s e c j)) = true →
    ∃ v k, ArmTaken n e c j s v ∧ (v.entry? n).bind (·.job) = some k ∧ FireTaken n { e with job := some k } c k v t

section
variable {n : LetterNo} {e : Entry} {c : Stream} {j : CancelJob} {s : State} (hr : running s = true) (he : s.entry? n = some e)
  (hc : e.stream = some c) (hj : e.job = some j)
include hr he hc hj

theorem armFirst_at : armFirst n s = if reached s.trk.belt (at' e.anchor (armOffset s e c)) = true then armAct n s else s := by
  simp only [armFirst, he, hc, hj, hr, Bool.true_and]

theorem fireNext_at : fireNext n s = if reached s.trk.belt (at' e.anchor (fireOffset s e c j)) = true then fireAct n s else s := by
  simp only [fireNext, he, hc, hj, hr, Bool.true_and]

variable (hh : CancelHeld s)
include hh

/-- After its arm point a letter stands as before it, but for its cancel job and its canceller (R103, R104). -/
theorem fireNext_armed : ∃ k, (armAct n s).entry? n = some { e with job := some k } ∧ CancelHeld (armAct n s) ∧
    (armAct n s).llk = s.llk ∧ (armAct n s).flc = s.flc ∧ fireNext n (armAct n s) =
      if reached s.trk.belt (at' e.anchor (fireOffset s e c j)) = true then fireAct n (armAct n s) else armAct n s := by
  have harm := armAct_eq hh he hc hj
  have hent := jobAt_entry he hj (c := c) (armedJob (s.can.recs.get c) j) (armedRec s.now n e j (s.can.recs.get c))
  have hheld := cancelHeld_jobAt (n := n) (e := e) (armedJob (s.can.recs.get c) j) hh
    (armedRec_available s.now n e j (s.can.recs.get c))
  have hstart := armedJob_winStart (s.can.recs.get c) j
  rw [← harm] at hent hheld
  refine ⟨_, hent, hheld, by rw [harm]; rfl, by rw [harm]; rfl, ?_⟩
  have hrun : running (armAct n s) = true := by rw [harm]; exact hr
  have hoff : fireOffset (armAct n s) { e with job := some (armedJob (s.can.recs.get c) j) } c (armedJob (s.can.recs.get c) j) =
      fireOffset s e c j := by
    rw [harm, fireOffset, fireOffset, hstart]
    rfl
  have hbelt : (armAct n s).trk.belt = s.trk.belt := by rw [harm]; rfl
  rw [fireNext_at hrun hent hc rfl, hoff, hbelt]

theorem armAtDp_quiet : (armAtDp n s).llk = s.llk ∧ (armAtDp n s).flc = s.flc := by
  rw [armAtDp_eq, armFirst_at hr he hc hj]
  split
  next =>
    obtain ⟨k, hent, hheld, hllk, hflc, hfire⟩ := fireNext_armed hr he hc hj hh
    rw [hfire, ← hllk, ← hflc]
    split
    · exact fireAct_quiet hheld hent hc rfl
    · exact ⟨rfl, rfl⟩
  next =>
    rw [fireNext_at hr he hc hj]
    split
    · exact fireAct_quiet hh he hc hj
    · exact ⟨rfl, rfl⟩

theorem armAtDp_taken (l : Llk) : PointsTaken n e c j s { armAtDp n s with llk := l } := by
  rw [armAtDp_eq, armFirst_at hr he hc hj]
  refine ⟨fun ha hf => ?_, fun ha hf => ?_, fun ha hf => ?_, fun ha hf => ?_⟩
  · rw [if_neg ha, fireNext_at hr he hc hj, if_neg hf]
  · obtain ⟨k, -, -, -, -, hfire⟩ := fireNext_armed hr he hc hj hh
    rw [if_pos ha, hfire, if_neg hf]
    exact armAct_taken hh he hc hj l
  · rw [if_neg ha, fireNext_at hr he hc hj, if_pos hf]
    exact fireAct_taken hh he hc hj l
  · obtain ⟨k, hent, hheld, -, -, hfire⟩ := fireNext_armed hr he hc hj hh
    rw [if_pos ha, hfire, if_pos hf]
    exact ⟨armAct n s, k, armAct_taken hh he hc hj (armAct n s).llk, by rw [hent]; rfl, fireAct_taken hheld hent hc rfl l⟩

end

/-! ### A gate entry placed (R86, R88) -/

/-- A gate record with a letter's setting placed in its queue (R86). -/
def gatePlaced (n : LetterNo) (x : Setting) (r : GateRec) : GateRec :=
  { r with queue := insertByAge Prod.fst (n, x) r.queue }

theorem placeEntry_stopped {g : Gate} {n : LetterNo} {x : Setting} {s : State} (hr : running s = false) : placeEntry g n x s = s := by
  simp [placeEntry, hr]

section
variable {g : Gate} {n : LetterNo} {x : Setting} {s : State} (hr : running s = true)
include hr

theorem placeEntry_full (hf : 8 ≤ (s.ptc.gates.get g).queue.length) : placeEntry g n x s = faultStop (.overrunGate g) s := by
  simp [placeEntry, hr, hf]

/-- A gate entry that finds room is placed by age, and the gate may take its oldest at once; no other gate moves. -/
theorem placeEntry_placed (hf : ¬ 8 ≤ (s.ptc.gates.get g).queue.length) :
    let t := placeEntry g n x s
    t = { s with ptc := { s.ptc with gates := t.ptc.gates } } ∧ GateQueued g n x s t ∧
    ∀ h, h ≠ g → t.ptc.gates.get h = s.ptc.gates.get h := by
  obtain ⟨front, back, hq, hins, hfront, hback⟩ := insertByAge_split Prod.fst (n, x) (s.ptc.gates.get g).queue
  have ht : placeEntry g n x s = updGate g (gateNext s g ∘ gatePlaced n x) s := by
    rw [← updGate_updGate]
    simp only [placeEntry, hr, if_true, if_neg hf, gateTry_eq]
    rfl
  have hget : (updGate g (gateNext s g ∘ gatePlaced n x) s).ptc.gates.get g = gateNext s g (gatePlaced n x (s.ptc.gates.get g)) :=
    PerGate.get_upd_self _ _ _
  obtain ⟨hwaits, hempty, htakes⟩ := gateNext_took (s := s) (v := s)
    (t := updGate g (gateNext s g ∘ gatePlaced n x) s) hr rfl rfl rfl hget
  have hplaced : (gatePlaced n x (s.ptc.gates.get g)).queue = front ++ (n, x) :: back := hins
  rw [hplaced] at hwaits hempty htakes
  dsimp only
  rw [ht]
  exact ⟨rfl, ⟨front, back, hq, hfront, hback, hwaits, hempty, htakes⟩, fun h hh => PerGate.get_upd_ne _ _ (Ne.symm hh)⟩

end

theorem gateQueued_of {g : Gate} {n : LetterNo} {x : Setting} {s s' t t' : State} (h : GateQueued g n x s t)
    (hs : s'.ptc.gates.get g = s.ptc.gates.get g) (hp : s'.pfs = s.pfs) (hk : s'.trk.belt = s.trk.belt)
    (ht : t'.ptc.gates.get g = t.ptc.gates.get g) (hb : t'.trk.table = t.trk.table) : GateQueued g n x s' t' := by
  obtain ⟨front, back, hq, hfront, hback, hwaits, hempty, htakes⟩ := h
  refine ⟨front, back, by rw [hs, hq], hfront, hback, ?_, ?_, ?_⟩
  all_goals simp only [hs, hp, hk, ht, entry_of_table hb]
  all_goals assumption

/-! ### The lists a decision joins (R24) -/

/-- A record of supervision with a letter in its expected-arrival list (R24). -/
def joinedRec (n : LetterNo) (r : SupRec) : SupRec :=
  { r with expected := if r.expected.contains n then r.expected else insertByAge id n r.expected }

theorem joinedRec_joined {c : Sup} {n : LetterNo} {s t : State} (h : t.pcm.sups.get c = joinedRec n (s.pcm.sups.get c)) :
    ListJoined c n s t := by
  refine ⟨fun hm => ?_, fun hm => ?_⟩
  · rw [h, joinedRec, if_pos (List.contains_iff_mem.2 hm)]
  · obtain ⟨front, back, hl, hins, hfront, hback⟩ := insertByAge_split id n (s.pcm.sups.get c).expected
    refine ⟨front, back, hl, ?_, hfront, hback⟩
    rw [h, joinedRec, if_neg (mt List.contains_iff_mem.1 hm), hins]

/-- The lists a decision joins: that of the reject line, or PE2's and that of the stream (R24). -/
def Joins (d : Decision) (c : Sup) : Prop :=
  c = .pe4r ∧ d.path = .reject ∨ c = .pe2 ∧ d.path ≠ .reject ∨ c = .pe3a ∧ d.stream = some .a ∨ c = .pe3b ∧ d.stream = some .b

theorem joinList_get (c : Sup) (n : LetterNo) (s : State) (x : Sup) : (joinList c n s).pcm.sups.get x =
    if x = c then joinedRec n (s.pcm.sups.get x) else s.pcm.sups.get x := by
  refine (PerSup.get_set _ _ _ _).trans ?_
  split
  next h => rw [h]; rfl
  next => rfl

theorem joinTwo_get (a b : Sup) (n : LetterNo) (s : State) (hab : a ≠ b) (x : Sup) :
    (joinList b n (joinList a n s)).pcm.sups.get x =
      if x = a ∨ x = b then joinedRec n (s.pcm.sups.get x) else s.pcm.sups.get x := by
  rw [joinList_get, joinList_get]
  by_cases hb : x = b
  · have ha : x ≠ a := fun h => hab (h.symm.trans hb)
    rw [if_pos hb, if_neg ha, if_pos (.inr hb)]
  · rw [if_neg hb]
    exact if_congr (by simp [hb]) rfl rfl

/-- The lists of a letter of the main line: PE2's, and that of its stream (R24). -/
theorem joinLists_main {n : LetterNo} {d : Decision} (s : State) (hd : d.path ≠ .reject) : joinLists n d s =
    match d.stream with
    | some .a => joinList .pe3a n (joinList .pe2 n s)
    | some .b => joinList .pe3b n (joinList .pe2 n s)
    | none => joinList .pe2 n s := by
  unfold joinLists
  cases hp : d.path with
  | reject => exact absurd hp hd
  | straight => rfl
  | twist => rfl

/-- The decision joins the letter to the lists of its path, each once. -/
theorem joinLists_get {n : LetterNo} {d : Decision} {s : State} (hd : d.path = .reject → d.stream = none) (x : Sup) :
    (Joins d x → (joinLists n d s).pcm.sups.get x = joinedRec n (s.pcm.sups.get x)) ∧
    (¬ Joins d x → (joinLists n d s).pcm.sups.get x = s.pcm.sups.get x) := by
  by_cases hp : d.path = .reject
  · have hlist : joinLists n d s = joinList .pe4r n s := by unfold joinLists; rw [hp]
    have hj : Joins d x ↔ x = .pe4r := by simp [Joins, hp, hd hp]
    rw [hlist, joinList_get, hj]
    exact ⟨fun h => if_pos h, fun h => if_neg h⟩
  · rw [joinLists_main s hp]
    cases hs : d.stream with
    | none =>
      have hj : Joins d x ↔ x = .pe2 := by simp [Joins, hp, hs]
      rw [joinList_get, hj]
      exact ⟨fun h => if_pos h, fun h => if_neg h⟩
    | some st =>
      cases st with
      | a =>
        have hj : Joins d x ↔ x = .pe2 ∨ x = .pe3a := by simp [Joins, hp, hs]
        rw [joinTwo_get _ _ _ _ (by decide), hj]
        exact ⟨fun h => if_pos h, fun h => if_neg h⟩
      | b =>
        have hj : Joins d x ↔ x = .pe2 ∨ x = .pe3b := by simp [Joins, hp, hs]
        rw [joinTwo_get _ _ _ _ (by decide), hj]
        exact ⟨fun h => if_pos h, fun h => if_neg h⟩

theorem joinLists_eq (n : LetterNo) (d : Decision) (s : State) :
    joinLists n d s = { s with pcm := { s.pcm with sups := (joinLists n d s).pcm.sups } } := by
  unfold joinLists
  split
  · rfl
  · split <;> rfl
  · split <;> rfl

/-! ### The decision (R77 to R83) -/

theorem faceBy_reject {p : Profile} {o : Orient} (h : (faceBy p o).path = .reject) : (faceBy p o).stream = none := by
  unfold faceBy at h ⊢
  split at h
  · cases h
  · cases h
  all_goals
    split at h
    · cases h
    next hp => simp only [if_neg hp]; rfl

theorem faced_reject {p : Profile} {o : Option Orient} (h : ((o.map (faceBy p)).getD (rejectFor .noMark)).path = .reject) :
    ((o.map (faceBy p)).getD (rejectFor .noMark)).stream = none := by
  cases o with
  | none => rfl
  | some o => exact faceBy_reject h

theorem decideResult_reject {p : Profile} {r : MarkResult} (h : (decideResult p r).path = .reject) : (decideResult p r).stream = none := by
  unfold decideResult at h ⊢
  split at h
  case h_1 | h_2 | h_3 => rfl
  case h_4 =>
    split at h
    next hp => rw [if_pos hp]; rfl
    next hp => rw [if_neg hp]; exact faced_reject h
  case h_5 | h_6 => exact faced_reject h

theorem firstDecision_reject {p : Profile} {e : Entry} (h : (firstDecision p e).path = .reject) : (firstDecision p e).stream = none := by
  unfold firstDecision at h ⊢
  split at h
  next he => rw [if_pos he]
  next he =>
    rw [if_neg he]
    split at h
    next => exact decideResult_reject h
    all_goals rfl

/-- A letter of the reject line has no stream (R77 to R81). -/
theorem finalDecision_reject {s : State} {e : Entry} (h : (finalDecision s e).path = .reject) : (finalDecision s e).stream = none := by
  have hkept : ∀ b : Bool, (if b then firstDecision s.pfs.profile e else rejectFor .merge).path = .reject →
      (if b then firstDecision s.pfs.profile e else rejectFor .merge).stream = none := fun b hb => by
    cases b
    · rfl
    · exact firstDecision_reject hb
  unfold finalDecision at h ⊢
  dsimp only at h ⊢
  split at h
  next => exact firstDecision_reject h
  next => exact hkept _ h
  next => exact hkept _ h

/-- An entry with its final decision and its cancel job written (R82, R83). -/
def decidedEntry (s : State) (e : Entry) : Entry :=
  writeDecision (finalDecision s e) (makeJob s e (finalDecision s e)) e

/-- The merge record after a letter's decision (R80, R81). -/
def mergeAfter (n : LetterNo) (s : State) (e : Entry) : Option MergeRec :=
  let path := (finalDecision s e).path
  let tail := e.anchor + BitVec.ofNat 32 (s.pfs.profile.dist .mp + if path = .twist then s.pfs.profile.twistExtra else 0) +
    BitVec.ofNat 32 (e.length0.getD 0)
  if path = .reject then s.ptc.merge else some { letter := n, tail := tail }

/-- The state with a letter's decision written, before it is handed on (R80 to R83). -/
def decided (n : LetterNo) (e : Entry) (s : State) : State :=
  withEntry n (decidedEntry s e) { s with ptc := { s.ptc with merge := mergeAfter n s e } }

/-- The setting of the second gate of a decision (R86, R125). -/
def secondSetting (d : Decision) (cause : Option RejectCause) : Setting :=
  if d.path = .reject then (if manualCause cause then .manual else .machine) else if d.stream = some .b then .b else .a

/-- The second gate of a decision (R86). -/
def secondGate (d : Decision) : Gate :=
  if d.path = .reject then .gr else .g2

theorem placeGates_eq (n : LetterNo) (d : Decision) (cause : Option RejectCause) (s : State) : placeGates n d cause s =
    placeEntry (secondGate d) n (secondSetting d cause) (placeEntry .g1 n (pathSetting d.path) s) := by
  obtain ⟨path, stream, _⟩ := d
  have hstream : (match stream with | some .b => Setting.b | some .a | none => .a) = if stream = some .b then .b else .a := by
    rcases stream with _ | _ | _ <;> rfl
  cases path with
  | reject => rfl
  | straight => exact congrArg (placeEntry .g2 n · _) hstream
  | twist => exact congrArg (placeEntry .g2 n · _) hstream

section
variable {n : LetterNo} {s : State} {e : Entry} (he : s.entry? n = some e)
include he

theorem recordMerge_decided :
    recordMerge e (finalDecision s e) (updEntry n (writeDecision (finalDecision s e) (makeJob s e (finalDecision s e))) s) =
      decided n e s := by
  rw [updEntry_eq_withEntry _ he]
  unfold recordMerge decided mergeAfter mergeHead
  rw [(entry_some he).2, at_nat, at_nat]
  cases (finalDecision s e).path with
  | reject => rfl
  | straight => rfl
  | twist => rfl

theorem dpAct_eq : dpAct n s = armAtDp n (placeGates n (finalDecision s e) (decidedEntry s e).cause
    (joinLists n (finalDecision s e) (decided n e s))) := by
  unfold dpAct
  simp only [he]
  rw [← recordMerge_decided he]
  rfl

theorem decided_entry : (decided n e s).entry? n = some (decidedEntry s e) := by
  have h := entry_upd n n (writeDecision (finalDecision s e) (makeJob s e (finalDecision s e))) (fun _ => rfl) s
  rw [if_pos rfl, he, updEntry_eq_withEntry _ he] at h
  exact h

theorem exec_dpDecision (hr : running s = true) (hpath : e.path = none) (hd : decidable e = true)
    (hp : reached s.trk.belt (at' e.anchor (s.pfs.profile.dist .dp : Nat)) = true) :
    exec (.dpDecision n) s = .next (endEvent s (dpAct n s)) :=
  exec_commandOf he (mem_reachedPositions.2 ⟨mem_positions_iff.2 (.inr ⟨hr, .inr (.inr (.inr (.inl
    (mem_dpPositions.2 ⟨rfl, hpath, hd, rfl⟩))))⟩), hp⟩)

end

/-! ### A fault stop of the decision (R86) -/

theorem faultStop_stops {call : FaultCall} {s : State} (h : running s = true) : running (faultStop call s) = false := by
  unfold running
  rw [faultStop_line, if_pos h]

theorem endEvent_faultStop {call : FaultCall} {r s : State} (h : running s = true) (hr : s.flc = r.flc) :
    FaultStopped call s (endEvent r (faultStop call s)) := by
  rw [endEvent, ← hr]
  exact faultStop_spec h

/-- A fault stop empties the arrival lists, whatever they held (R32). -/
theorem faultStopped_of_lists {call : FaultCall} {s v t : State} {l : PerSup SupRec}
    (hv : v = { s with pcm := { s.pcm with sups := l } }) (h : FaultStopped call v t) : FaultStopped call s t := by
  subst hv
  exact { h with
    hold := ⟨⟨h.hold.flag, h.hold.count⟩, h.hold.holds⟩
    link := { h.link with } }

/-- The reject causes of the manual lane (R86, R125). -/
theorem manualCause_iff (c : Option RejectCause) : manualCause c = true ↔
    c = some .noMark ∨ c = some .offcorner ∨ c = some .ambiguous ∨ c = some .brightManual ∨ c = some .noTwist := by
  rcases c with _ | c
  · simp [manualCause]
  · cases c <;> simp [manualCause]

/-! ### The decision handed on (O34) -/

/-- The two gate entries of a decision, both placed (R86): the gates move, and nothing else. -/
structure GatesPlaced (n : LetterNo) (d : Decision) (cause : Option RejectCause) (s t : State) : Prop where
  rest   : t = { s with ptc := { s.ptc with gates := t.ptc.gates } }
  first  : GateQueued .g1 n (pathSetting d.path) s t
  second : GateQueued (secondGate d) n (secondSetting d cause) s t
  others : ∀ h, h ≠ .g1 → h ≠ secondGate d → t.ptc.gates.get h = s.ptc.gates.get h

theorem secondGate_ne (d : Decision) : secondGate d ≠ .g1 := by
  unfold secondGate
  split
  · decide
  · decide

theorem placeGates_placed {n : LetterNo} {d : Decision} (cause : Option RejectCause) {s : State} (hr : running s = true)
    (hfirst : ¬ 8 ≤ (s.ptc.gates.get .g1).queue.length) (hsecond : ¬ 8 ≤ (s.ptc.gates.get (secondGate d)).queue.length) :
    GatesPlaced n d cause s (placeGates n d cause s) := by
  rw [placeGates_eq]
  obtain ⟨hrest, hqueued, hothers⟩ := placeEntry_placed (g := .g1) (n := n) (x := pathSetting d.path) hr hfirst
  generalize placeEntry .g1 n (pathSetting d.path) s = u at hrest hqueued hothers
  have hsame : u.ptc.gates.get (secondGate d) = s.ptc.gates.get (secondGate d) := hothers _ (secondGate_ne d)
  obtain ⟨hrest', hqueued', hothers'⟩ := placeEntry_placed (g := secondGate d) (n := n) (x := secondSetting d cause) (s := u)
    (by rw [hrest]; exact hr) (by rw [hsame]; exact hsecond)
  generalize placeEntry (secondGate d) n (secondSetting d cause) u = t at hrest' hqueued' hothers'
  refine ⟨?_, ?_, ?_, fun h hh hg => (hothers' h hg).trans (hothers h hh)⟩
  · rw [hrest', hrest]
  · exact gateQueued_of hqueued rfl rfl rfl (hothers' _ (secondGate_ne d).symm) (by rw [hrest'])
  · exact gateQueued_of hqueued' hsame.symm (by rw [hrest]) (by rw [hrest]) rfl rfl

section
variable {n : LetterNo} {s : State} {e : Entry} (he : s.entry? n = some e) (hr : running s = true)
include he hr

/-- A decision that G1 has no room for (R86). -/
theorem dpAct_firstFull (hf : 8 ≤ (s.ptc.gates.get .g1).queue.length) :
    FaultStopped (.overrunGate .g1) (decided n e s) (endEvent s (dpAct n s)) := by
  have hact := dpAct_eq he
  rw [joinLists_eq] at hact
  generalize (joinLists n (finalDecision s e) (decided n e s)).pcm.sups = l at hact
  generalize hu : ({ decided n e s with pcm := { (decided n e s).pcm with sups := l } } : State) = u at hact
  have hru : running u = true := by rw [← hu]; exact hr
  rw [placeGates_eq, placeEntry_full (s := u) hru (by rw [← hu]; exact hf), placeEntry_stopped (faultStop_stops hru),
    armAtDp_stopped (faultStop_stops hru)] at hact
  rw [hact]
  exact faultStopped_of_lists hu.symm (endEvent_faultStop hru (by rw [← hu]; rfl))

/-- A decision that G1 takes and its second gate has no room for (R86). -/
theorem dpAct_secondFull (hfirst : ¬ 8 ≤ (s.ptc.gates.get .g1).queue.length)
    (hf : 8 ≤ (s.ptc.gates.get (secondGate (finalDecision s e))).queue.length) :
    ∃ u, u = { decided n e s with ptc := { (decided n e s).ptc with gates := u.ptc.gates } } ∧
      GateQueued .g1 n (pathSetting (finalDecision s e).path) (decided n e s) u ∧
      (∀ h, h ≠ .g1 → u.ptc.gates.get h = s.ptc.gates.get h) ∧
      FaultStopped (.overrunGate (secondGate (finalDecision s e))) u (endEvent s (dpAct n s)) := by
  have hact := dpAct_eq he
  rw [joinLists_eq] at hact
  generalize (joinLists n (finalDecision s e) (decided n e s)).pcm.sups = l at hact
  generalize hu : ({ decided n e s with pcm := { (decided n e s).pcm with sups := l } } : State) = u at hact
  obtain ⟨hrest, hqueued, hothers⟩ := placeEntry_placed (g := .g1) (n := n) (x := pathSetting (finalDecision s e).path) (s := u)
    (by rw [← hu]; exact hr) (by rw [← hu]; exact hfirst)
  rw [placeGates_eq] at hact
  generalize placeEntry .g1 n (pathSetting (finalDecision s e).path) u = v at hact hrest hqueued hothers
  have hptc : u.ptc.gates = s.ptc.gates := by rw [← hu]; rfl
  have hrv : running v = true := by rw [hrest, ← hu]; exact hr
  rw [placeEntry_full hrv (by rw [hothers _ (secondGate_ne _), hptc]; exact hf), armAtDp_stopped (faultStop_stops hrv)] at hact
  rw [hact]
  refine ⟨{ decided n e s with ptc := { (decided n e s).ptc with gates := v.ptc.gates } }, rfl, ?_, fun h hh => ?_, ?_⟩
  · refine gateQueued_of hqueued ?_ ?_ ?_ rfl ?_
    · rw [hptc]; rfl
    · rw [← hu]
    · rw [← hu]
    · rw [hrest, ← hu]
  · exact (hothers h hh).trans (by rw [hptc])
  · refine faultStopped_of_lists (l := l) ?_ (endEvent_faultStop hrv (by rw [hrest, ← hu]; rfl))
    rw [hrest, ← hu]

/-- The state in which a decision is handed on to the lists and the gates, before the arm and fire points (R24, R86). -/
structure HandedOn (n : LetterNo) (s : State) (e : Entry) (t : State) : Prop where
  rest  : t = { decided n e s with
    pcm := { s.pcm with sups := t.pcm.sups }
    ptc := { (decided n e s).ptc with gates := t.ptc.gates } }
  joins : ∀ c, Joins (finalDecision s e) c → ListJoined c n s t
  kept  : ∀ c, ¬ Joins (finalDecision s e) c → t.pcm.sups.get c = s.pcm.sups.get c
  gates : GatesPlaced n (finalDecision s e) (decidedEntry s e).cause { decided n e s with pcm := t.pcm } t

theorem dpAct_handedOn (hfirst : ¬ 8 ≤ (s.ptc.gates.get .g1).queue.length)
    (hsecond : ¬ 8 ≤ (s.ptc.gates.get (secondGate (finalDecision s e))).queue.length) :
    ∃ u, HandedOn n s e u ∧ dpAct n s = armAtDp n u := by
  have hact := dpAct_eq he
  have hlists := joinLists_get (n := n) (s := decided n e s) (finalDecision_reject (s := s) (e := e))
  rw [joinLists_eq] at hact
  generalize (joinLists n (finalDecision s e) (decided n e s)).pcm.sups = l at hact hlists
  have hplaced := placeGates_placed (n := n) (d := finalDecision s e) (decidedEntry s e).cause
    (s := { decided n e s with pcm := { (decided n e s).pcm with sups := l } }) hr hfirst hsecond
  generalize placeGates n (finalDecision s e) (decidedEntry s e).cause _ = u at hact hplaced
  have hpcm : u.pcm = { s.pcm with sups := l } := by rw [hplaced.rest]; rfl
  refine ⟨u, ⟨?_, fun c hc => joinedRec_joined ?_, fun c hc => ?_, ?_⟩, hact⟩
  · rw [hpcm]; exact hplaced.rest
  · rw [hpcm]; exact (hlists c).1 hc
  · rw [hpcm]; exact (hlists c).2 hc
  · rw [hpcm]; exact hplaced

end

/-- Settles O34: `dpAct_eq` hands the decision on, the gates in turn, and the arm and fire points last (`armAtDp_taken`). -/
theorem decisionWrittenAndHandedOn : Obligations.DecisionWrittenAndHandedOn := by
  refine ⟨fun s n e hh hr he hpath hdec hp => ⟨_, exec_dpDecision he hr hpath hdec hp, ?_⟩, manualCause_iff⟩
  intro d e' tail dec set1 g set2 full
  refine ⟨fun hfirst => dpAct_firstFull he hr hfirst, fun hfirst hsecond => ?_, fun hfirst hsecond => ?_⟩
  · exact dpAct_secondFull he hr hfirst hsecond
  · obtain ⟨u, ⟨hrest, hjoins, hkept, hgates⟩, hact⟩ := dpAct_handedOn he hr hfirst hsecond
    have hent : u.entry? n = some e' := by rw [hrest]; exact decided_entry he
    have hheld : CancelHeld u := by rw [hrest]; exact hh
    have hru : running u = true := by rw [hrest]; exact hr
    obtain ⟨hllk, hflc⟩ : (armAtDp n u).llk = u.llk ∧ (armAtDp n u).flc = u.flc := by
      cases hj : e'.job with
      | none => rw [armAtDp_jobless hent hj]; exact ⟨rfl, rfl⟩
      | some j =>
        obtain ⟨c, hc⟩ := Option.isSome_iff_exists.1 (makeJob_stream s e d (Option.isSome_iff_exists.2 ⟨j, hj⟩))
        exact armAtDp_quiet hru hent hc hj hheld
    replace hllk : (armAtDp n u).llk = s.llk := hllk.trans (by rw [hrest]; rfl)
    have hend : endEvent s (dpAct n s) = pump (armAtDp n u) := by
      rw [hact, endEvent_same (by rw [hflc, hrest]; rfl)]
    refine ⟨u, hrest, fun c => ?_, ?_, ?_, fun h h1 h2 => hgates.others h h1 h2, ?_, fun hj => ?_, fun c j hc hj => ?_⟩
    · split
      next hc => exact hjoins c hc
      next hc => exact hkept c hc
    · exact gateQueued_of hgates.first rfl rfl rfl rfl rfl
    · exact gateQueued_of hgates.second rfl rfl rfl rfl rfl
    · rw [hend]
      exact .left_eq hllk (pump_kept [] _)
    · rw [hend, armAtDp_jobless hent hj]
      exact pump_llk_only u
    · have htaken := armAtDp_taken hru hent hc hj hheld (pump (armAtDp n u)).llk
      rw [← pump_llk_only, ← hend] at htaken
      obtain ⟨hneither, harm, hfire, hboth⟩ := htaken
      have hbelt : u.trk.belt = s.trk.belt := by rw [hrest]; rfl
      have hoffArm : armOffset u e' c = armOffset s e' c := by rw [hrest]; rfl
      have hoffFire : fireOffset u e' c j = fireOffset s e' c j := by rw [hrest]; rfl
      rw [hbelt, hoffArm, hoffFire] at hneither harm hfire hboth
      exact ⟨hneither, harm, hfire, hboth⟩

end Sys2Proof.Proofs
end

