-- ==== Sys2Proof/Proofs/ScanUnit.lean ====
section
/-! PROOF. Head records and scan buffers stay sound at every step (O9): what each operation of the Scan Control Unit does to a head record,
and what the buffers and the blocks that hold them do together. -/

namespace Sys2Proof.Proofs

open Sys2Proof Sys2Proof.Machine Sys2Proof.Safety Sys2Proof.Laws

/-! ### One head record -/

theorem headSound_idle {r : HeadRec} (hs : HeadSound r) : HeadSound { r with out := none } :=
  ⟨hs.code, nofun, hs.run, fun h => ⟨rfl, (hs.failed h).2⟩⟩

theorem headSound_calPulse {r : HeadRec} (hs : HeadSound r) : HeadSound (calPulse r) := by
  unfold calPulse
  split
  next => exact hs
  next hf => exact ⟨hs.code, fun o ho => by cases ho; exact hs.code.1, hs.run, fun h => absurd h hf⟩

theorem headSound_stopLink {r : HeadRec} (hs : HeadSound r) : HeadSound (stopLink r) where
  code := hs.code
  sent o ho := by
    obtain ⟨x, hx, rfl⟩ := Option.map_eq_some_iff.1 ho
    exact hs.sent x hx
  run := hs.run
  failed h := ⟨by simp [stopLink, (hs.failed h).1], rfl⟩

theorem headSound_movePulses {r : HeadRec} (hs : HeadSound r) (n : LetterNo) (δ : Pos) : HeadSound (movePulses n δ r) where
  code := hs.code
  sent := hs.sent
  run := hs.run
  failed h := ⟨(hs.failed h).1, by simp [movePulses, (hs.failed h).2]⟩

/-- A FAILED head has no pulse waiting, so none is sent to it (R36). -/
theorem headSound_sendNext {r : HeadRec} (hs : HeadSound r) (belt : Pos) : HeadSound (sendNext belt r) := by
  unfold sendNext
  split
  next p rest hout hw =>
    split
    · refine ⟨hs.code, fun o ho => by cases ho; exact hs.code.2, hs.run, fun h => ?_⟩
      have hnone := (hs.failed h).2
      rw [hw] at hnone
      cases hnone
    · exact hs
  next => exact hs

theorem headSound_sendPulse {r : HeadRec} (hs : HeadSound r) (belt : Pos) (p : Pulse) (hf : r.state ≠ .failed) :
    HeadSound (sendPulse belt p r) := by
  have hplaced : HeadSound { r with waiting := placePulse p r.waiting } := ⟨hs.code, hs.sent, hs.run, fun h => absurd h hf⟩
  exact headSound_sendNext hplaced belt

/-! ### A calibration judged, as a change of one record (R37, R42, R43) -/

/-- The levels a good calibration gives a head record, answered with `ga` to a pulse sent at the drive code `k`; a bad one gives none (R42,
R43). -/
def levelled (lnom k ga : Nat) (r : HeadRec) : HeadRec :=
  if calGood lnom ga then { r with lref := ga, refCode := k, code := driveCode ga lnom r.code } else r

/-- A head record after a calibration answered with the level `ga` to a pulse sent at the drive code `k` (R37, R42). -/
def calibratedRec (lnom k ga : Nat) (r : HeadRec) : HeadRec :=
  let m := calibratedState (calGood lnom ga) r.state r.run
  { levelled lnom k ga r with state := m.1, run := m.2 }

theorem levelled_state (lnom k ga : Nat) (r : HeadRec) : (levelled lnom k ga r).state = r.state ∧ (levelled lnom k ga r).run = r.run := by
  unfold levelled
  split <;> exact ⟨rfl, rfl⟩

theorem updHead_updHead (h : Head) (f g : HeadRec → HeadRec) (s : State) : updHead h f (updHead h g s) = updHead h (f ∘ g) s := by
  cases h <;> rfl

theorem updHead_congr {h : Head} {f g : HeadRec → HeadRec} {s : State} (e : f (s.scu.heads.get h) = g (s.scu.heads.get h)) :
    updHead h f s = updHead h g s :=
  congrArg (fun v => ({ s with scu := { s.scu with heads := s.scu.heads.set h v } } : State)) e

theorem updHead_id {h : Head} {f : HeadRec → HeadRec} {s : State} (e : f (s.scu.heads.get h) = s.scu.heads.get h) :
    updHead h f s = s := by
  rw [updHead_congr (g := id) e]
  cases h <;> rfl

theorem updHead_get (h g : Head) (f : HeadRec → HeadRec) (s : State) :
    (updHead h f s).scu.heads.get g = if g = h then f (s.scu.heads.get h) else s.scu.heads.get g :=
  PerHead.get_set _ _ _ _

/-- A calibration answer either keeps the head's state and gives its run count, or changes the state (R37). -/
theorem headJudged_eq (good : Bool) (h : Head) (s : State) :
    let r := s.scu.heads.get h
    let m := calibratedState good r.state r.run
    (if good then headGood h s else headBad h s) =
      if m.1 = r.state then updHead h (fun r => { r with run := m.2 }) s else headTo h m.1 s := by
  have hkeep : ∀ x, x = (s.scu.heads.get h).run → updHead h (fun r => { r with run := x }) s = s := fun x hx =>
    updHead_id (by rw [hx])
  cases good <;> cases hst : (s.scu.heads.get h).state
  case false.ready | true.weak =>
    by_cases hr : (s.scu.heads.get h).run = 0 <;> simp [headGood, headBad, calibratedState, hst, hr]
  all_goals simp [headGood, headBad, calibratedState, hst, hkeep]

theorem headTo_scu (h : Head) (x : HeadState) (s : State) :
    (headTo h x s).scu = (updHead h (fun r => { r with state := x, run := 0 }) s).scu := by
  unfold headTo
  dsimp only
  split <;> simp

/-- A change of state brings the same whatever the record was but for its state and run count (R37). -/
theorem headTo_congr {h : Head} {x : HeadState} {f g : HeadRec → HeadRec} {s : State}
    (e : { f (s.scu.heads.get h) with state := x, run := 0 } = { g (s.scu.heads.get h) with state := x, run := 0 }) :
    headTo h x (updHead h f s) = headTo h x (updHead h g s) := by
  have hu : updHead h (fun r => { r with state := x, run := 0 }) (updHead h f s) =
      updHead h (fun r => { r with state := x, run := 0 }) (updHead h g s) := by
    rw [updHead_updHead, updHead_updHead]
    exact updHead_congr e
  unfold headTo
  rw [hu]
  rfl

/-- A change of state begins a new run (R37). -/
theorem calibratedState_run {good : Bool} {x : HeadState} {n : Nat} (h : (calibratedState good x n).1 ≠ x) :
    (calibratedState good x n).2 = 0 := by
  revert h
  unfold calibratedState
  split <;> (try split) <;> simp

/-- A judged calibration is a change of the one record, with what a change of state brings (R37, R42, R43). -/
theorem judgeCalibration_eq (h : Head) (k ga : Nat) (s : State) :
    judgeCalibration h k ga s =
      if (calibratedRec s.pfs.profile.lnom k ga (s.scu.heads.get h)).state = (s.scu.heads.get h).state then
        updHead h (calibratedRec s.pfs.profile.lnom k ga) s
      else headTo h (calibratedRec s.pfs.profile.lnom k ga (s.scu.heads.get h)).state
        (updHead h (calibratedRec s.pfs.profile.lnom k ga) s) := by
  obtain ⟨hstate, hrun⟩ := levelled_state s.pfs.profile.lnom k ga (s.scu.heads.get h)
  have hlevel : judgeCalibration h k ga s = if calGood s.pfs.profile.lnom ga then
      headGood h (updHead h (levelled s.pfs.profile.lnom k ga) s) else headBad h (updHead h (levelled s.pfs.profile.lnom k ga) s) := by
    unfold judgeCalibration
    dsimp only
    split
    next hg => rw [updHead_congr (g := levelled s.pfs.profile.lnom k ga) (if_pos hg).symm]
    next hg => rw [updHead_id (f := levelled s.pfs.profile.lnom k ga) (if_neg hg)]
  have hj := headJudged_eq (calGood s.pfs.profile.lnom ga) h (updHead h (levelled s.pfs.profile.lnom k ga) s)
  simp only [updHead_get, if_true, hstate, hrun] at hj
  rw [hlevel, hj]
  split
  next e =>
    rw [updHead_updHead, if_pos (show (calibratedRec _ _ _ _).state = _ from e)]
    exact updHead_congr (by simp only [Function.comp, calibratedRec, e, hstate])
  next e =>
    rw [if_neg (show (calibratedRec _ _ _ _).state ≠ _ from e)]
    exact headTo_congr rfl

/-- A head comes to FAILED by no calibration, and its run count stays 0 or 1 (R37). -/
theorem calibratedState_bounds (good : Bool) (x : HeadState) (n : Nat) :
    ((calibratedState good x n).1 = .failed → x = .failed) ∧ (n ≤ 1 → (calibratedState good x n).2 ≤ 1) := by
  unfold calibratedState
  split <;> (try split) <;> simp

theorem driveCode_le {lref lnom code : Nat} (h : code ≤ 15) : driveCode lref lnom code ≤ 15 := by
  unfold driveCode
  split
  · exact Nat.min_le_left _ _
  · split <;> omega

theorem headSound_calibrated {r : HeadRec} (hs : HeadSound r) (lnom ga : Nat) {k : Nat} (hk : k ≤ 15) :
    HeadSound (calibratedRec lnom k ga r) := by
  obtain ⟨hfailed, hrun⟩ := calibratedState_bounds (calGood lnom ga) r.state r.run
  unfold calibratedRec levelled
  split
  · exact ⟨⟨driveCode_le hs.code.1, hk⟩, hs.sent, hrun hs.run, fun h => hs.failed (hfailed h)⟩
  · exact ⟨hs.code, hs.sent, hrun hs.run, fun h => hs.failed (hfailed h)⟩

/-! ### The pulse of the next cell (R48) -/

/-- A head record at the pulse `p` of a letter's next cell: the head takes it where it takes part in the scan (R48). -/
def pulsed (l : Latched) (b : BufRec) (belt : Pos) (p : Pulse) (h : Head) (r : HeadRec) : HeadRec :=
  if scans l b h r then sendPulse belt p r else r

/-- A pulse goes only to heads that have not failed (R48). -/
theorem headSound_pulsed {r : HeadRec} (hs : HeadSound r) (l : Latched) (b : BufRec) (belt : Pos) (p : Pulse) (h : Head) :
    HeadSound (pulsed l b belt p h r) := by
  unfold pulsed
  split
  next hsc =>
    simp only [scans, Bool.and_eq_true, decide_eq_true_eq] at hsc
    exact headSound_sendPulse hs belt p hsc.1.2
  next => exact hs

theorem updHead_ite (h : Head) (c : HeadRec → Bool) (f : HeadRec → HeadRec) (s : State) :
    (if c (s.scu.heads.get h) then updHead h f s else s) = updHead h (fun r => if c r then f r else r) s := by
  split
  next hc => exact updHead_congr (if_pos hc).symm
  next hc => exact (updHead_id (if_neg hc)).symm

/-- The pulse of the letter's next cell (R48). -/
def cellPulse (n : LetterNo) (e : Entry) (b : Buf) (s : State) : Pulse where
  letter := n
  buf := b
  cell := (s.scu.bufs.get b).next
  pos := at' e.anchor (s.pfs.profile.dist .sh + 8 * (s.scu.bufs.get b).next + 4 : Nat)

section
variable {n : LetterNo} {s : State} {e : Entry} {b : Buf} {l : Latched} (he : s.entry? n = some e) (hb : fillingOf s n = some b)
  (hl : e.latched = some l)
include he hb hl

/-- The next pulse goes to the heads one after another, and the buffer's next cell moves on (R48). -/
theorem nextPulse_eq : nextPulse n s =
    let go := fun h => updHead h (pulsed l (s.scu.bufs.get b) s.trk.belt (cellPulse n e b s) h)
    updBuf b (fun r => { r with next := r.next + 1 }) (go .bb (go .bt (go .fb (go .ft s)))) := by
  unfold nextPulse
  simp only [he, hb, hl]
  simp only [updHead_ite _ (scans l (s.scu.bufs.get b) _)]
  rfl

/-- Each head record at the next pulse (R48). -/
theorem nextPulse_get (h : Head) : (nextPulse n s).scu.heads.get h =
    pulsed l (s.scu.bufs.get b) s.trk.belt (cellPulse n e b s) h (s.scu.heads.get h) := by
  rw [nextPulse_eq he hb hl]
  cases h <;> rfl

end

/-- Without an entry, a buffer filling for it and latched parameters no pulse falls due. -/
theorem nextPulse_none {n : LetterNo} {s : State}
    (h : ¬ ∃ e b l, s.entry? n = some e ∧ fillingOf s n = some b ∧ e.latched = some l) : nextPulse n s = s := by
  unfold nextPulse
  split
  next e b he hb =>
    split
    next l hl => exact absurd ⟨e, b, l, he, hb, hl⟩ h
    next => rfl
  next => rfl

/-! ### The four heads -/

/-- Every head record is sound (R36, R37, R43). -/
def HeadsSound (s : State) : Prop :=
  ∀ h, HeadSound (s.scu.heads.get h)

theorem HeadsSound.of_eq {s t : State} (hs : HeadsSound s) (h : t.scu.heads = s.scu.heads) : HeadsSound t := by
  unfold HeadsSound
  rw [h]
  exact hs

theorem HeadsSound.of_map {s t : State} {f : HeadRec → HeadRec} (hs : HeadsSound s) (h : t.scu.heads = s.scu.heads.map f)
    (hf : ∀ r, HeadSound r → HeadSound (f r)) : HeadsSound t := fun g => by
  rw [h, PerHead.get_map]
  exact hf _ (hs g)

theorem HeadsSound.updHead {s : State} (hs : HeadsSound s) {h : Head} {f : HeadRec → HeadRec} (hf : HeadSound (f (s.scu.heads.get h))) :
    HeadsSound (updHead h f s) := fun g => by
  rw [updHead_get]
  split
  · exact hf
  · exact hs g

theorem HeadsSound.faultStop (call : FaultCall) (s : State) (hs : HeadsSound s) : HeadsSound (faultStop call s) := by
  unfold Machine.faultStop
  split
  · exact hs.of_map (by simp [stopBlocks]) fun r hr => headSound_stopLink hr
  · exact hs

theorem HeadsSound.tryCalibrate (s : State) (hs : HeadsSound s) : HeadsSound (tryCalibrate s) := by
  unfold Machine.tryCalibrate
  split
  · exact hs.of_map rfl fun r hr => headSound_calPulse hr
  · exact hs

/-- A change of state to anything but FAILED keeps a head sound, and one to FAILED where its pulses are gone (R36, R37). -/
theorem HeadsSound.headTo {h : Head} {x : HeadState} {s : State} (hs : HeadsSound s)
    (hx : x = .failed → (s.scu.heads.get h).out = none ∧ (s.scu.heads.get h).waiting = []) : HeadsSound (headTo h x s) := by
  have hr := hs h
  have hu : HeadsSound (Machine.updHead h (fun r => { r with state := x, run := 0 }) s) :=
    hs.updHead ⟨hr.code, hr.sent, Nat.zero_le 1, hx⟩
  exact hu.of_eq (congrArg Scu.heads (headTo_scu h x s))

theorem HeadsSound.judgeCalibration {h : Head} {k ga : Nat} {s : State} (hs : HeadsSound s) (hk : k ≤ 15) :
    HeadsSound (judgeCalibration h k ga s) := by
  have hr := headSound_calibrated (hs h) s.pfs.profile.lnom ga hk
  have hu : HeadsSound (Machine.updHead h (calibratedRec s.pfs.profile.lnom k ga) s) := hs.updHead hr
  rw [judgeCalibration_eq]
  split
  · exact hu
  · refine hu.headTo fun hf => ?_
    rw [updHead_get, if_pos rfl]
    exact hr.failed hf

theorem HeadsSound.answerHead (h : Head) (v : Sample) (s : State) (hs : HeadsSound s) : HeadsSound (answerHead h v s) := by
  have hend : ∀ t, HeadsSound t → HeadsSound (Machine.tryCalibrate (Machine.updHead h (sendNext t.trk.belt) t)) := fun t ht =>
    HeadsSound.tryCalibrate _ (ht.updHead (headSound_sendNext (ht h) _))
  have hidle : HeadsSound (Machine.updHead h (fun r => { r with out := none }) s) := hs.updHead (headSound_idle (hs h))
  unfold Machine.answerHead
  split
  · exact hs
  · rename_i o ho
    dsimp only
    apply hend
    split
    · exact hidle.judgeCalibration ((hs h).sent o ho)
    · exact hidle.of_eq (by simp)
    · exact hidle

theorem HeadsSound.failHead (h : Head) (s : State) (hs : HeadsSound s) : HeadsSound (failHead h s) := by
  have hr := hs h
  have hfailed : HeadsSound (Machine.headTo h .failed (Machine.updHead h (fun r => { r with out := none, waiting := [] }) s)) :=
    HeadsSound.headTo (hs.updHead ⟨hr.code, nofun, hr.run, fun _ => ⟨rfl, rfl⟩⟩) fun _ => by
      rw [updHead_get, if_pos rfl]
      exact ⟨rfl, rfl⟩
  exact hfailed.of_eq (by simp [Machine.failHead])

theorem HeadsSound.limitHead (s : State) (h : Head) (hs : HeadsSound s) : HeadsSound (limitHead s h) := by
  unfold Machine.limitHead
  split
  case h_1 | h_2 | h_3 => exact hs.failHead h
  case h_4 | h_5 => exact hs

theorem HeadsSound.pulseAct (n : LetterNo) (s : State) (hs : HeadsSound s) : HeadsSound (pulseAct n s) := by
  unfold Machine.pulseAct
  dsimp only
  split
  · refine hs.of_map (f := fun r => if resumes n s.trk.belt r then sendNext s.trk.belt r else r) rfl fun r hr => ?_
    split
    · exact headSound_sendNext hr _
    · exact hr
  · by_cases hn : ∃ e b l, s.entry? n = some e ∧ fillingOf s n = some b ∧ e.latched = some l
    · obtain ⟨e, b, l, he, hb, hl⟩ := hn
      intro h
      rw [nextPulse_get he hb hl]
      exact headSound_pulsed (hs h) ..
    · rw [nextPulse_none hn]
      exact hs

theorem HeadsSound.removeEntry (n : LetterNo) (s : State) (hs : HeadsSound s) : HeadsSound (removeEntry n s) := by
  rw [removeEntry_eq]
  refine HeadsSound.tryCalibrate _ (hs.of_eq ?_)
  simp [withdraw]
  split <;> rfl

theorem HeadsSound.stackAct (n : LetterNo) (s : State) (hs : HeadsSound s) : HeadsSound (stackAct n s) := by
  unfold Machine.stackAct
  split
  · exact hs
  · split
    · exact hs
    · rename_i e _ _ q _
      dsimp only
      generalize hu : sweepIfClear q (follow q (updPocket q _ s)) = u
      have h : HeadsSound u := hs.of_eq (by rw [← hu]; simp)
      exact (h.removeEntry n).of_eq (by simp)

theorem HeadsSound.clearEntry (s : State) (e : Entry) (hs : HeadsSound s) : HeadsSound (clearEntry s e) := by
  unfold Machine.clearEntry
  dsimp only
  exact HeadsSound.removeEntry _ _ (hs.of_eq (by split <;> simp))

theorem HeadsSound.dpAct (n : LetterNo) (s : State) (hs : HeadsSound s) : HeadsSound (dpAct n s) :=
  dpAct_keeps HeadsSound.faultStop (fun _ _ _ h => h.of_eq rfl) (fun _ _ h => h.of_eq rfl) (fun _ _ _ h => h.of_eq rfl)
    (fun _ _ h => h.of_eq (by simp)) (fun _ _ h => h.of_eq (by simp)) n s hs (fun _ _ => hs.of_eq rfl)

theorem HeadsSound.selectAct (n : LetterNo) (s : State) (hs : HeadsSound s) : HeadsSound (selectAct n s) := by
  have hc : ∀ q l, HeadsSound (commit n q l s) := fun q l =>
    commit_keeps HeadsSound.faultStop (fun _ _ _ h => h.of_eq rfl) n q l s (hs.of_eq rfl)
  unfold Machine.selectAct
  split
  · exact hs
  · split <;> exact hc _ _

theorem HeadsSound.induct (a : Pos) (s : State) (hs : HeadsSound s) : HeadsSound (induct a s) := by
  by_cases hl : s.trk.table.length < 64
  · rw [induct_eq hl]
    exact hs.of_eq (by split <;> rfl)
  · rw [induct_full (by omega)]
    exact hs.faultStop _ _

/-- The soundness of the heads is kept by every part of an event. -/
theorem headsSound_parts : Parts HeadsSound := by
  constructor
  case reset => exact fun _ _ _ h => by cases h <;> exact reset_headSound .ft
  case faultStop => exact HeadsSound.faultStop
  case tryCalibrate => exact HeadsSound.tryCalibrate
  case loaded =>
    intro s _ h
    have hend : ∀ u, u.scu.heads = s.scu.heads → HeadsSound (stopRepeats (Machine.tryCalibrate u)) := fun u hu =>
      (HeadsSound.tryCalibrate u (h.of_eq hu)).of_eq (by simp)
    exact hend _ (by simp)
  case exit => exact fun n s h => HeadsSound.tryCalibrate _ (h.of_eq rfl)
  case pulse => exact HeadsSound.pulseAct
  case dp => exact fun n s _ => HeadsSound.dpAct n s
  case select => exact fun n s _ => HeadsSound.selectAct n s
  case stack => exact fun n s _ => HeadsSound.stackAct n s
  case induct => exact fun a s _ _ => HeadsSound.induct a s
  case corrected => exact fun c n a m d s h => h.of_map rfl fun r hr => headSound_movePulses hr n d
  case answer => exact HeadsSound.answerHead
  case failHead => exact HeadsSound.failHead
  case warmEnd => exact fun s _ h => (foldl_keeps HeadsSound.limitHead Head.all s h).of_eq (by simp)
  case sensorQualified =>
    exact sensorQualified_keeps HeadsSound.faultStop (fun _ _ _ h => h.of_eq rfl) (fun _ _ _ h => h.of_eq rfl)
      (fun _ _ h => h.of_eq (by simp))
  case clearing =>
    exact fun s _ h => HeadsSound.tryCalibrate _ ((foldl_keeps HeadsSound.clearEntry s.trk.table s h).of_eq (by simp))
  case headRetry =>
    intro h s hf hs
    rw [doHeadRetry, if_pos hf]
    exact HeadsSound.tryCalibrate _ (HeadsSound.of_eq (HeadsSound.headTo (h := h) (x := .cold) hs nofun) rfl)
  all_goals intros; exact HeadsSound.of_eq ‹_› (by simp)

/-! ### The scan buffers and the blocks that hold them (R45, R53, R71) -/

/-- The buffers agree with the blocks that hold them, the oldest waiting item perhaps not yet taken up (R53). -/
structure BuffersListed (s : State) : Prop where
  free      : ∀ b, (s.scu.bufs.get b).phase = .free ↔ (s.scu.bufs.get b).letter = none
  waiting   : ∀ b, (s.scu.bufs.get b).phase = .waiting ↔ b ∈ s.mkf.work.map (·.buf)
  once      : (s.mkf.work.map (·.buf)).Nodup
  computing : ∀ b, (s.scu.bufs.get b).phase = .computing ↔ ∃ i, s.mkf.slot = some i ∧ i.buf = b
  capture   : ∀ b, (s.scu.bufs.get b).phase = .capture ↔ ∃ d, s.mkf.capture = .draining d ∧ d.buf = b

theorem listed_of_held {s : State} (h : BuffersHeld s) : BuffersListed s :=
  ⟨h.free, h.waiting, h.once, h.computing, h.capture⟩

theorem held_of_listed {s : State} (h : BuffersListed s) (ht : s.mkf.slot = none → s.mkf.work = []) : BuffersHeld s :=
  ⟨h.free, h.waiting, h.once, h.computing, h.capture, ht⟩

/-- The agreement rests on each buffer's state and letter, and on the Mark Finder. -/
theorem buffersHeld_of_phases {s t : State} (h : BuffersHeld s)
    (hb : ∀ b, (t.scu.bufs.get b).phase = (s.scu.bufs.get b).phase ∧
      ((t.scu.bufs.get b).letter = none ↔ (s.scu.bufs.get b).letter = none))
    (hm : t.mkf = s.mkf) : BuffersHeld t where
  free b := by rw [(hb b).1, (hb b).2]; exact h.free b
  waiting b := by rw [(hb b).1, hm]; exact h.waiting b
  once := by rw [hm]; exact h.once
  computing b := by rw [(hb b).1, hm]; exact h.computing b
  capture b := by rw [(hb b).1, hm]; exact h.capture b
  taken := by rw [hm]; exact h.taken

theorem buffersHeld_of_eq {s t : State} (h : BuffersHeld s) (hb : t.scu.bufs = s.scu.bufs) (hm : t.mkf = s.mkf) : BuffersHeld t :=
  buffersHeld_of_phases h (fun b => by rw [hb]; exact ⟨rfl, .rfl⟩) hm

theorem updBuf_get (b c : Buf) (f : BufRec → BufRec) (s : State) :
    (updBuf b f s).scu.bufs.get c = if c = b then f (s.scu.bufs.get b) else s.scu.bufs.get c :=
  PerBuf.get_set _ _ _ _

/-- A change of a buffer's samples or of its next cell. -/
theorem buffersHeld_updBuf {b : Buf} {f : BufRec → BufRec} {s : State} (h : BuffersHeld s)
    (hp : (f (s.scu.bufs.get b)).phase = (s.scu.bufs.get b).phase) (hl : (f (s.scu.bufs.get b)).letter = (s.scu.bufs.get b).letter) :
    BuffersHeld (updBuf b f s) :=
  buffersHeld_of_phases h (fun c => by
    rw [updBuf_get]
    split
    next hc => subst hc; exact ⟨hp, by rw [hl]⟩
    next => exact ⟨rfl, .rfl⟩) rfl

/-- A buffer that is FREE or FILLING is with none of the blocks that hold buffers. -/
theorem listed_unheld {s : State} {b : Buf} (h : BuffersListed s) (hp : (s.scu.bufs.get b).phase = .free ∨ (s.scu.bufs.get b).phase = .filling) :
    b ∉ s.mkf.work.map (·.buf) ∧ (∀ i, s.mkf.slot = some i → i.buf ≠ b) ∧ ∀ d, s.mkf.capture = .draining d → d.buf ≠ b := by
  refine ⟨fun hw => ?_, fun i hi hb => ?_, fun d hd hb => ?_⟩
  · have := (h.waiting b).2 hw
    rcases hp with hp | hp <;> rw [hp] at this <;> cases this
  · have := (h.computing b).2 ⟨i, hi, hb⟩
    rcases hp with hp | hp <;> rw [hp] at this <;> cases this
  · have := (h.capture b).2 ⟨d, hd, hb⟩
    rcases hp with hp | hp <;> rw [hp] at this <;> cases this

/-- The item of the computing slot that an item of the work list becomes at its take-up (R53). -/
def slotItem (s : State) (w : WorkItem) : SlotItem where
  buf := w.buf
  letter := w.letter
  time := w.time
  params := (s.entry? w.letter).bind (·.latched)

theorem takeUp_next {s : State} {w : WorkItem} {rest : List WorkItem} (hs : s.mkf.slot = none) (hw : s.mkf.work = w :: rest) :
    takeUp s = updEntry w.letter (fun e => { e with scan := .computing }) (updBuf w.buf (fun b => { b with phase := .computing })
      { s with mkf := { s.mkf with work := rest, slot := some (slotItem s w) } }) := by
  simp only [takeUp, hs, hw]
  rfl

theorem takeUp_busy {s : State} (h : s.mkf.slot ≠ none ∨ s.mkf.work = []) : takeUp s = s := by
  unfold takeUp
  split
  next hs hw =>
    rcases h with h | h
    · exact absurd hs h
    · rw [h] at hw; cases hw
  next => rfl

/-- A take-up completes the agreement (R53). -/
theorem takeUp_held {s : State} (h : BuffersListed s) : BuffersHeld (takeUp s) := by
  cases hs : s.mkf.slot with
  | some i =>
    rw [takeUp_busy (.inl (by rw [hs]; nofun))]
    exact held_of_listed h (by rw [hs]; nofun)
  | none =>
    cases hw : s.mkf.work with
    | nil =>
      rw [takeUp_busy (.inr hw)]
      exact held_of_listed h fun _ => hw
    | cons w rest =>
      have hwait : (s.scu.bufs.get w.buf).phase = .waiting := (h.waiting w.buf).2 (by simp [hw])
      have honce := h.once
      simp only [hw, List.map_cons, List.nodup_cons] at honce
      have hget : ∀ b, (takeUp s).scu.bufs.get b =
          if b = w.buf then { s.scu.bufs.get w.buf with phase := .computing } else s.scu.bufs.get b := fun b => by
        rw [takeUp_next hs hw]
        exact updBuf_get _ _ _ _
      have hmkf : (takeUp s).mkf = { s.mkf with work := rest, slot := some (slotItem s w) } := by rw [takeUp_next hs hw]; rfl
      refine ⟨fun b => ?_, fun b => ?_, by rw [hmkf]; exact honce.2, fun b => ?_, fun b => ?_, by rw [hmkf]; nofun⟩
      all_goals
        rw [hget]
        split
      · have hletter := mt (h.free w.buf).2 (by rw [hwait]; nofun)
        exact ⟨nofun, fun hn => absurd hn hletter⟩
      · exact h.free b
      · rename_i hb
        rw [hmkf, hb]
        exact ⟨nofun, fun hm => absurd hm honce.1⟩
      · rename_i hb
        rw [hmkf, h.waiting b, hw]
        simp [hb]
      · rename_i hb
        rw [hmkf, hb]
        exact ⟨fun _ => ⟨_, rfl, rfl⟩, fun _ => rfl⟩
      · rename_i hb
        rw [hmkf, h.computing b, hs]
        exact ⟨fun ⟨_, hi, _⟩ => (by cases hi), fun ⟨i, hi, he⟩ => by cases hi; exact absurd he.symm hb⟩
      · rename_i hb
        rw [hmkf, hb]
        refine ⟨nofun, fun hd => ?_⟩
        have := (h.capture w.buf).2 hd
        rw [hwait] at this
        cases this
      · rw [hmkf]
        exact h.capture b

/-- A buffer that the scan of a letter completes (R49). -/
def ScanComplete (s : State) (b : Buf) (n : LetterNo) (l : Latched) : Prop :=
  (s.scu.bufs.get b).phase = .filling ∧ (s.scu.bufs.get b).letter = some n ∧ (s.entry? n).bind (·.latched) = some l ∧
    allCells l (s.scu.bufs.get b) = true

/-- The state in which a complete scan has joined the work list (R49, R53). -/
def scanJoined (b : Buf) (n : LetterNo) (s : State) : State :=
  let t := updEntry n (fun e => { e with scan := .waiting }) (updBuf b (fun r => { r with phase := .waiting }) s)
  { t with mkf := { t.mkf with work := t.mkf.work ++ [{ buf := b, letter := n, time := t.now }] } }

theorem checkComplete_complete {b : Buf} {s : State} {n : LetterNo} {l : Latched} (h : ScanComplete s b n l) :
    checkComplete b s = takeUp (scanJoined b n s) := by
  obtain ⟨hp, hn, hl, hc⟩ := h
  simp only [checkComplete, hp, hn, hl, hc]
  rfl

theorem checkComplete_incomplete {b : Buf} {s : State} (h : ∀ n l, ¬ ScanComplete s b n l) : checkComplete b s = s := by
  unfold checkComplete
  dsimp only
  split
  next n hp hn =>
    split
    next l hl =>
      split
      next hc => exact absurd ⟨hp, hn, hl, hc⟩ (h n l)
      next => rfl
    next => rfl
  next => rfl

theorem scanJoined_listed {b : Buf} {s : State} {n : LetterNo} {l : Latched} (h : BuffersListed s) (hc : ScanComplete s b n l) :
    BuffersListed (scanJoined b n s) := by
  obtain ⟨hp, hn, -, -⟩ := hc
  obtain ⟨hwork, hslot, hcap⟩ := listed_unheld h (.inr hp)
  have hget : ∀ c, (scanJoined b n s).scu.bufs.get c =
      if c = b then { s.scu.bufs.get b with phase := .waiting } else s.scu.bufs.get c := fun c => updBuf_get _ _ _ _
  have hmap : (scanJoined b n s).mkf.work.map (·.buf) = s.mkf.work.map (·.buf) ++ [b] := List.map_append
  refine ⟨fun c => ?_, fun c => ?_, ?_, fun c => ?_, fun c => ?_⟩
  case refine_3 =>
    rw [hmap]
    exact List.nodup_append.2 ⟨h.once, List.nodup_singleton b, fun x hx y hy hxy => hwork (List.mem_singleton.1 hy ▸ hxy ▸ hx)⟩
  all_goals
    rw [hget]
    split
  · exact ⟨nofun, fun hnone => by rw [show ({ s.scu.bufs.get b with phase := .waiting } : BufRec).letter = _ from hn] at hnone; cases hnone⟩
  · exact h.free c
  · rename_i hcb
    rw [hmap, hcb]
    simp
  · rename_i hcb
    rw [hmap, h.waiting c]
    simp [hcb]
  · rename_i hcb
    exact ⟨nofun, fun ⟨i, hi, hib⟩ => absurd (hib.trans hcb) (hslot i hi)⟩
  · exact h.computing c
  · rename_i hcb
    exact ⟨nofun, fun ⟨d, hd, hdb⟩ => absurd (hdb.trans hcb) (hcap d hd)⟩
  · exact h.capture c

theorem checkComplete_held {b : Buf} {s : State} (h : BuffersHeld s) : BuffersHeld (checkComplete b s) := by
  by_cases hc : ∃ n l, ScanComplete s b n l
  · obtain ⟨n, l, hc⟩ := hc
    rw [checkComplete_complete hc]
    exact takeUp_held (scanJoined_listed (listed_of_held h) hc)
  · rw [checkComplete_incomplete fun n l hx => hc ⟨n, l, hx⟩]
    exact h

theorem scanAnswer_held (h : Head) (p : Pulse) (v : Sample) (s : State) (hs : BuffersHeld s) : BuffersHeld (scanAnswer h p v s) := by
  unfold scanAnswer
  split
  · exact checkComplete_held (buffersHeld_updBuf hs rfl rfl)
  · exact hs

theorem answerHead_held (h : Head) (v : Sample) (s : State) (hs : BuffersHeld s) : BuffersHeld (answerHead h v s) := by
  unfold answerHead
  split
  · exact hs
  · have hidle : BuffersHeld (updHead h (fun r => { r with out := none }) s) := buffersHeld_of_eq hs rfl rfl
    have hend : ∀ t, BuffersHeld t → BuffersHeld (tryCalibrate (updHead h (sendNext t.trk.belt) t)) := fun t ht =>
      buffersHeld_of_eq ht (by simp) (by simp)
    dsimp only
    apply hend
    split
    · exact buffersHeld_of_eq hidle (by simp) (by simp)
    · exact scanAnswer_held _ _ _ _ hidle
    · exact hidle

theorem loseHead_held {h : Head} {b : Buf} {s : State} (hs : BuffersHeld s) : BuffersHeld (loseHead h b s) := by
  unfold loseHead
  dsimp only
  split
  · split
    · split
      · exact checkComplete_held (buffersHeld_updBuf hs rfl rfl)
      · exact hs
    · exact hs
  · exact hs

theorem failHead_held (h : Head) (s : State) (hs : BuffersHeld s) : BuffersHeld (failHead h s) := by
  have hfailed : BuffersHeld (headTo h .failed (updHead h (fun r => { r with out := none, waiting := [] }) s)) :=
    buffersHeld_of_eq hs (by simp) (by simp)
  exact loseHead_held (loseHead_held (loseHead_held hfailed))

theorem limitHead_held (s : State) (h : Head) (hs : BuffersHeld s) : BuffersHeld (limitHead s h) := by
  unfold limitHead
  split
  case h_1 | h_2 | h_3 => exact failHead_held h s hs
  case h_4 | h_5 => exact hs

theorem freeBuffer_some {s : State} {b : Buf} (h : freeBuffer s = some b) : (s.scu.bufs.get b).phase = .free := by
  simpa using List.find?_some h

/-- A scan starts in a FREE buffer, which no block holds (R46). -/
theorem started_held {s t : State} {b : Buf} {r : BufRec} (h : BuffersHeld s) (hf : (s.scu.bufs.get b).phase = .free)
    (hb : t.scu.bufs = s.scu.bufs.set b r) (hm : t.mkf = s.mkf) (hp : r.phase = .filling) (hl : r.letter ≠ none) : BuffersHeld t := by
  obtain ⟨hwork, hslot, hcap⟩ := listed_unheld (listed_of_held h) (.inl hf)
  have hget : ∀ c, t.scu.bufs.get c = if c = b then r else s.scu.bufs.get c := fun c => by rw [hb]; exact PerBuf.get_set _ _ _ _
  refine ⟨fun c => ?_, fun c => ?_, by rw [hm]; exact h.once, fun c => ?_, fun c => ?_, by rw [hm]; exact h.taken⟩
  all_goals
    rw [hget]
    split
  · rw [hp]; exact ⟨nofun, fun hn => absurd hn hl⟩
  · exact h.free c
  · rename_i hcb
    rw [hp, hm]; exact ⟨nofun, fun hc => absurd (hcb ▸ hc) hwork⟩
  · rw [hm]; exact h.waiting c
  · rename_i hcb
    rw [hp, hm]; exact ⟨nofun, fun ⟨i, hi, hib⟩ => absurd (hib.trans hcb) (hslot i hi)⟩
  · rw [hm]; exact h.computing c
  · rename_i hcb
    rw [hp, hm]; exact ⟨nofun, fun ⟨d, hd, hdb⟩ => absurd (hdb.trans hcb) (hcap d hd)⟩
  · rw [hm]; exact h.capture c

theorem shAct_held (n : LetterNo) (s : State) (hs : BuffersHeld s) : BuffersHeld (shAct n s) := by
  unfold shAct
  split
  · exact hs
  · dsimp only
    split
    · exact buffersHeld_of_eq hs rfl rfl
    · split
      · exact buffersHeld_of_eq hs rfl rfl
      · rename_i hb
        split
        · exact started_held hs (freeBuffer_some hb) rfl rfl rfl nofun
        · exact buffersHeld_of_eq hs rfl rfl

theorem pulseAct_held (n : LetterNo) (s : State) (hs : BuffersHeld s) : BuffersHeld (pulseAct n s) := by
  unfold pulseAct
  dsimp only
  split
  · exact buffersHeld_of_eq hs rfl rfl
  · by_cases hn : ∃ e b l, s.entry? n = some e ∧ fillingOf s n = some b ∧ e.latched = some l
    · obtain ⟨e, b, l, he, hb, hl⟩ := hn
      rw [nextPulse_eq he hb hl]
      exact buffersHeld_updBuf (buffersHeld_of_eq hs rfl rfl) rfl rfl
    · rw [nextPulse_none hn]
      exact hs

/-! ### Fault stops, deliveries and captures -/

/-- A fault stop frees every buffer but the one in CAPTURE, and empties the work list and the computing slot (R50, R53). -/
theorem faultStop_held (call : FaultCall) (s : State) (hs : BuffersHeld s) : BuffersHeld (faultStop call s) := by
  unfold faultStop
  split
  · have hget : ∀ t : State, t.scu.bufs = s.scu.bufs.map stopBuf → ∀ b, t.scu.bufs.get b = stopBuf (s.scu.bufs.get b) := fun t ht b => by
      rw [ht, PerBuf.get_map]
    have hfree : ∀ r : BufRec, r.phase ≠ .capture → stopBuf r = freeBuf := fun r hr => if_neg hr
    have hkept : ∀ r : BufRec, r.phase = .capture → stopBuf r = r := fun r hr => if_pos hr
    have key : ∀ t : State, t.scu.bufs = s.scu.bufs.map stopBuf → t.mkf = { s.mkf with work := [], slot := none } → BuffersHeld t := by
      intro t hb hm
      refine ⟨fun b => ?_, fun b => ?_, by rw [hm]; exact List.nodup_nil, fun b => ?_, fun b => ?_, fun _ => by rw [hm]⟩
      all_goals
        rw [hget t hb]
        by_cases hc : (s.scu.bufs.get b).phase = .capture
      · rw [hkept _ hc]; exact hs.free b
      · rw [hfree _ hc]; exact ⟨fun _ => rfl, fun _ => rfl⟩
      · rw [hkept _ hc, hc, hm]; exact ⟨nofun, nofun⟩
      · rw [hfree _ hc, hm]; exact ⟨nofun, nofun⟩
      · rw [hkept _ hc, hc, hm]; exact ⟨nofun, fun ⟨_, hi, _⟩ => by cases hi⟩
      · rw [hfree _ hc, hm]; exact ⟨nofun, fun ⟨_, hi, _⟩ => by cases hi⟩
      · rw [hkept _ hc, hm]; exact hs.capture b
      · rw [hfree _ hc, hm]; exact ⟨nofun, fun hd => absurd ((hs.capture b).2 hd) hc⟩
    refine key _ ?_ ?_ <;> simp [stopBlocks]
  · exact hs

/-- The computing slot emptied, its buffer returned, or kept for a capture that was not draining (R51, R72). -/
theorem listed_released {s t : State} {i : SlotItem} {r : BufRec} {c : Capture} (h : BuffersHeld s) (hi : s.mkf.slot = some i)
    (hb : t.scu.bufs = s.scu.bufs.set i.buf r) (hm : t.mkf = { s.mkf with slot := none, capture := c })
    (hr : r.phase = .free ∧ r.letter = none ∧ c = s.mkf.capture ∨
      r.phase = .capture ∧ r.letter ≠ none ∧ (∀ d, s.mkf.capture ≠ .draining d) ∧ ∃ d, c = .draining d ∧ d.buf = i.buf) :
    BuffersListed t := by
  have hcomp : (s.scu.bufs.get i.buf).phase = .computing := (h.computing i.buf).2 ⟨i, hi, rfl⟩
  have hget : ∀ b, t.scu.bufs.get b = if b = i.buf then r else s.scu.bufs.get b := fun b => by rw [hb]; exact PerBuf.get_set _ _ _ _
  have hwork : i.buf ∉ s.mkf.work.map (·.buf) := fun hw => by
    have := (h.waiting i.buf).2 hw
    rw [hcomp] at this
    cases this
  have hundrained : ∀ d, s.mkf.capture = .draining d → d.buf ≠ i.buf := fun d hd hdb => by
    have := (h.capture i.buf).2 ⟨d, hd, hdb⟩
    rw [hcomp] at this
    cases this
  refine ⟨fun b => ?_, fun b => ?_, by rw [hm]; exact h.once, fun b => ?_, fun b => ?_⟩
  all_goals
    rw [hget]
    split
  · rcases hr with ⟨hp, hl, -⟩ | ⟨hp, hl, -, -⟩ <;> simp [hp, hl]
  · exact h.free b
  · rename_i hbi
    rw [hm, hbi]
    rcases hr with ⟨hp, -, -⟩ | ⟨hp, -, -, -⟩ <;> rw [hp] <;> exact ⟨nofun, fun hw => absurd hw hwork⟩
  · rw [hm]; exact h.waiting b
  · rw [hm]
    rcases hr with ⟨hp, -, -⟩ | ⟨hp, -, -, -⟩ <;> rw [hp] <;> exact ⟨nofun, fun ⟨_, hx, _⟩ => by cases hx⟩
  · rename_i hbi
    rw [hm, h.computing b, hi]
    exact ⟨fun ⟨x, hx, hxb⟩ => by cases hx; exact absurd hxb.symm hbi, fun ⟨_, hx, _⟩ => by cases hx⟩
  · rename_i hbi
    rw [hm, hbi]
    rcases hr with ⟨hp, -, hc⟩ | ⟨hp, -, -, d, hc, hd⟩
    · rw [hp, hc]; exact ⟨nofun, fun ⟨d, hd, hdb⟩ => absurd hdb (hundrained d hd)⟩
    · rw [hp, hc]; exact ⟨fun _ => ⟨d, rfl, hd⟩, fun _ => rfl⟩
  · rename_i hbi
    rw [hm, h.capture b]
    rcases hr with ⟨-, -, hc⟩ | ⟨-, -, hnone, d, hc, hd⟩
    · rw [hc]
    · rw [hc]
      exact ⟨fun ⟨x, hx, _⟩ => absurd hx (hnone x), fun ⟨x, hx, hxb⟩ => by cases hx; exact absurd (hxb.symm.trans hd) hbi⟩

theorem wants_undraining {c : Capture} {k : MarkClass} (h : wants c k = true) (d : Draining) : c ≠ .draining d := by
  rintro rfl
  cases h

/-- A delivery empties the computing slot and takes up the next item (R68 to R72). -/
theorem deliver_held (i : SlotItem) (s : State) (hi : s.mkf.slot = some i) (hs : BuffersHeld s) : BuffersHeld (deliver i s) := by
  have hcomp : (s.scu.bufs.get i.buf).phase = .computing := (hs.computing i.buf).2 ⟨i, hi, rfl⟩
  have hletter : (s.scu.bufs.get i.buf).letter ≠ none := mt (hs.free i.buf).2 (by rw [hcomp]; nofun)
  unfold deliver
  dsimp only
  refine takeUp_held ?_
  split
  · exact listed_released hs hi (r := freeBuf) (c := s.mkf.capture) rfl rfl (.inl ⟨rfl, rfl, rfl⟩)
  · rename_i l _
    generalize markResult l _ _ = r
    have hscu : (writeResult i.letter r s).scu = s.scu := by simp
    have hmkf : (writeResult i.letter r s).mkf = s.mkf := by simp
    generalize writeResult i.letter r s = w at hscu hmkf
    have hbufs : ∀ f, (updBuf i.buf f w).scu.bufs = s.scu.bufs.set i.buf (f (s.scu.bufs.get i.buf)) := fun f =>
      congrArg (fun u : Scu => u.bufs.upd i.buf f) hscu
    unfold returnBuf
    split
    next hw =>
      rw [hmkf] at hw
      let d : Draining := { buf := i.buf, letter := i.letter, cls := r.cls, lines := captureKeys l }
      have hm : ({ w.mkf with slot := none, capture := .draining d } : Mkf) = { s.mkf with slot := none, capture := .draining d } := by
        rw [hmkf]
      exact listed_released hs hi (hbufs _) hm
        (.inr ⟨rfl, hletter, wants_undraining hw, d, rfl, rfl⟩)
    next =>
      have hm : ({ w.mkf with slot := none } : Mkf) = { s.mkf with slot := none, capture := s.mkf.capture } := by rw [hmkf]
      exact listed_released hs hi (hbufs _) hm (.inl ⟨rfl, rfl, rfl⟩)

/-- A draining capture ended: its buffer FREE, the slot OFF (R71, R74). -/
theorem uncaptured_held {s t : State} {d : Draining} (h : BuffersHeld s) (hd : s.mkf.capture = .draining d)
    (hb : t.scu.bufs = s.scu.bufs.set d.buf freeBuf) (hm : t.mkf = { s.mkf with capture := .off }) : BuffersHeld t := by
  have hcap : (s.scu.bufs.get d.buf).phase = .capture := (h.capture d.buf).2 ⟨d, hd, rfl⟩
  have hget : ∀ b, t.scu.bufs.get b = if b = d.buf then freeBuf else s.scu.bufs.get b := fun b => by rw [hb]; exact PerBuf.get_set _ _ _ _
  have hne : ∀ b, b = d.buf → ∀ p, p ≠ .capture → (s.scu.bufs.get b).phase ≠ p := fun b hbd p hp hx => hp (hx ▸ hbd ▸ hcap)
  refine ⟨fun b => ?_, fun b => ?_, by rw [hm]; exact h.once, fun b => ?_, fun b => ?_, by rw [hm]; exact h.taken⟩
  all_goals
    rw [hget]
    split
  · exact ⟨fun _ => rfl, fun _ => rfl⟩
  · exact h.free b
  · rename_i hbd
    rw [hm]
    exact ⟨nofun, fun hw => absurd ((h.waiting b).2 hw) (hne b hbd _ nofun)⟩
  · rw [hm]; exact h.waiting b
  · rename_i hbd
    rw [hm]
    exact ⟨nofun, fun hx => absurd ((h.computing b).2 hx) (hne b hbd _ nofun)⟩
  · rw [hm]; exact h.computing b
  · rw [hm]
    exact ⟨nofun, fun ⟨_, hx, _⟩ => by cases hx⟩
  · rename_i hbd
    rw [hm, h.capture b, hd]
    exact ⟨fun ⟨x, hx, hxb⟩ => by cases hx; exact absurd hxb.symm hbd, fun ⟨_, hx, _⟩ => by cases hx⟩

/-- A capture that starts no draining, or goes on draining the same buffer. -/
theorem buffersHeld_capture {s t : State} (h : BuffersHeld s) (hb : t.scu.bufs = s.scu.bufs) (hw : t.mkf.work = s.mkf.work)
    (hs : t.mkf.slot = s.mkf.slot)
    (hc : ∀ b, (∃ d, t.mkf.capture = .draining d ∧ d.buf = b) ↔ ∃ d, s.mkf.capture = .draining d ∧ d.buf = b) : BuffersHeld t where
  free b := by rw [hb]; exact h.free b
  waiting b := by rw [hb, hw]; exact h.waiting b
  once := by rw [hw]; exact h.once
  computing b := by rw [hb, hs]; exact h.computing b
  capture b := by rw [hb, hc]; exact h.capture b
  taken := by rw [hs, hw]; exact h.taken

theorem captureSent_held (c : CaptureLine) (s : State) (hs : BuffersHeld s) : BuffersHeld (captureSent c s) := by
  unfold captureSent
  split
  · rename_i d hd
    split
    · split
      · exact uncaptured_held hs hd rfl rfl
      · refine buffersHeld_capture hs rfl rfl rfl fun b => ?_
        rw [hd]
        exact ⟨fun ⟨x, hx, hxb⟩ => by cases hx; exact ⟨d, rfl, hxb⟩, fun ⟨x, hx, hxb⟩ => by cases hx; exact ⟨_, rfl, hxb⟩⟩
    · exact hs
  · exact hs
  · exact hs

theorem capture_held (w : Option MarkClass) (s : State) (hs : BuffersHeld s) : BuffersHeld (doCapture w s).1 := by
  unfold doCapture
  split
  · rename_i hc
    refine buffersHeld_capture hs rfl rfl rfl fun b => ?_
    rw [hc]
    exact ⟨fun ⟨_, hx, _⟩ => (by cases hx), fun ⟨_, hx, _⟩ => by cases hx⟩
  · exact hs
  · exact hs

theorem captureOff_held (s : State) (hs : BuffersHeld s) : BuffersHeld (doCaptureOff s).1 := by
  unfold doCaptureOff
  dsimp only
  split
  · exact hs
  · rename_i hc
    refine buffersHeld_capture hs rfl rfl rfl fun b => ?_
    rw [hc]
    exact ⟨fun ⟨_, hx, _⟩ => (by cases hx), fun ⟨_, hx, _⟩ => by cases hx⟩
  · rename_i d hd
    exact uncaptured_held hs hd rfl rfl

theorem dpAct_held (n : LetterNo) (s : State) (hs : BuffersHeld s) : BuffersHeld (dpAct n s) :=
  dpAct_keeps faultStop_held (fun _ _ _ h => buffersHeld_of_eq h rfl rfl) (fun _ _ h => buffersHeld_of_eq h rfl rfl)
    (fun _ _ _ h => buffersHeld_of_eq h rfl rfl) (fun _ _ h => buffersHeld_of_eq h (by simp) (by simp))
    (fun _ _ h => buffersHeld_of_eq h (by simp) (by simp)) n s hs (fun _ _ => buffersHeld_of_eq hs rfl rfl)

theorem selectAct_held (n : LetterNo) (s : State) (hs : BuffersHeld s) : BuffersHeld (selectAct n s) := by
  have hc : ∀ q l, BuffersHeld (commit n q l s) := fun q l =>
    commit_keeps faultStop_held (fun _ _ _ h => buffersHeld_of_eq h rfl rfl) n q l s (buffersHeld_of_eq hs rfl rfl)
  unfold selectAct
  split
  · exact hs
  · split <;> exact hc _ _

theorem induct_held (a : Pos) (s : State) (hs : BuffersHeld s) : BuffersHeld (induct a s) := by
  by_cases hl : s.trk.table.length < 64
  · rw [induct_eq hl]
    exact buffersHeld_of_eq hs (by split <;> rfl) (by split <;> rfl)
  · rw [induct_full (by omega)]
    exact faultStop_held _ _ hs

/-- The agreement of the buffers is kept by every part of an event. -/
theorem buffersHeld_parts : Parts BuffersHeld := by
  constructor
  case reset => exact fun _ _ _ => buffersHeld_of_eq reset_buffersHeld rfl rfl
  case faultStop => exact faultStop_held
  case sh => exact shAct_held
  case pulse => exact pulseAct_held
  case dp => exact fun n s _ => dpAct_held n s
  case select => exact fun n s _ => selectAct_held n s
  case induct => exact fun a s _ _ => induct_held a s
  case answer => exact answerHead_held
  case failHead => exact failHead_held
  case warmEnd => exact fun s _ h => buffersHeld_of_eq (foldl_keeps limitHead_held Head.all s h) (by simp) (by simp)
  case deliver => exact deliver_held
  case sensorQualified =>
    exact sensorQualified_keeps faultStop_held (fun _ _ _ h => buffersHeld_of_eq h rfl rfl) (fun _ _ _ h => buffersHeld_of_eq h rfl rfl)
      (fun _ _ h => buffersHeld_of_eq h (by simp) (by simp))
  case captureSent => exact captureSent_held
  case capture => exact capture_held
  case captureOff => exact captureOff_held
  all_goals intros; exact buffersHeld_of_eq ‹_› (by simp) (by simp)

/-- Settles O9: the soundness of the heads and the agreement of the buffers are each kept by every part of an event. -/
theorem scanUnitSoundKept : Obligations.ScanUnitSoundKept :=
  fun _ _ hs hb hstep => ⟨headsSound_parts.kept.step hstep hs, buffersHeld_parts.kept.step hstep hb⟩

end Sys2Proof.Proofs
end

