-- ==== Sys2Proof/Proofs/Scanning.lean ====
section
/-! PROOF. The scan of a letter and the calibrations that fall due: the start of a scan (O29), its pulses (O30), the station exit and the
calibration timer (O25). -/

namespace Sys2Proof.Proofs

open Sys2Proof Sys2Proof.Machine Sys2Proof.Safety Sys2Proof.Laws

/-! ### The start of a scan (O29) -/

theorem sh_reached {s : State} {e : Entry} (hr : running s = true) (hs : e.shTaken = false)
    (hp : reached s.trk.belt (at' e.anchor (s.pfs.profile.dist .sh : Nat)) = true) :
    (PosKind.sh, (s.pfs.profile.dist .sh : Int)) ∈ reachedPositions s e :=
  mem_reachedPositions.2 ⟨mem_positions_iff.2 (.inr ⟨hr, .inr (.inr (.inl (mem_scanPositions.2 (.inl ⟨rfl, hs, rfl⟩))))⟩), hp⟩

/-- The lowest-numbered free buffer (R46). -/
theorem freeBuffer_lowest {s : State} {b : Buf} (hf : (s.scu.bufs.get b).phase = .free)
    (hlow : b = .b0 ∨ ¬ (s.scu.bufs.get .b0).phase = .free ∧ (b = .b1 ∨ ¬ (s.scu.bufs.get .b1).phase = .free)) :
    freeBuffer s = some b := by
  unfold freeBuffer Buf.all
  cases b
  case b0 => simp [hf]
  case b1 =>
    obtain ⟨h0, -⟩ := hlow.resolve_left nofun
    simp [hf, h0]
  case b2 =>
    obtain ⟨h0, h1⟩ := hlow.resolve_left nofun
    simp [hf, h0, h1.resolve_left nofun]

theorem freeBuffer_none {s : State} (h : ∀ b, ¬ (s.scu.bufs.get b).phase = .free) : freeBuffer s = none := by
  simp [freeBuffer, h]

/-- A test that some head of a set passes, as the model's list gives it. -/
theorem anyHead_iff (u : PerHead Bool) : u.toList.any id = true ↔ ∃ h, u.get h = true := by
  refine ⟨fun hany => ?_, fun ⟨h, ht⟩ => List.any_eq_true.2 ⟨_, ?_, ht⟩⟩
  · obtain ⟨_, hmem, ht⟩ := List.any_eq_true.1 hany
    simp only [PerHead.toList, List.mem_cons, List.not_mem_nil, or_false] at hmem
    rcases hmem with rfl | rfl | rfl | rfl
    exacts [⟨.ft, ht⟩, ⟨.fb, ht⟩, ⟨.bt, ht⟩, ⟨.bb, ht⟩]
  · cases h <;> simp [PerHead.toList]

section
variable {n : LetterNo} {s : State} {e : Entry} (he : s.entry? n = some e)
include he

/-- With an early disposition no scan is called for (R46). -/
theorem shAct_early (hd : e.early.isSome = true) : shAct n s = withEntry n { e with shTaken := true } s := by
  rw [← updEntry_eq_withEntry (fun e => { e with shTaken := true }) he]
  simp [shAct, he, hd]

/-- A scan starts in a free buffer with its parameters latched (R46, R47). -/
theorem shAct_started {b : Buf} (hd : e.early = none) (hb : freeBuffer s = some b)
    (hu : (latch s.pfs.profile s.scu.heads (length0Of e)).usable.toList.any id = true) : shAct n s =
      { withEntry n { e with
          shTaken := true, scan := .scanning, latched := some (latch s.pfs.profile s.scu.heads (length0Of e)) } s with
        scu := { s.scu with bufs := s.scu.bufs.set b { freeBuf with phase := .filling, letter := some n } } } := by
  rw [← updEntry_eq_withEntry (fun e' => { e' with
    shTaken := true, scan := .scanning, latched := some (latch s.pfs.profile s.scu.heads (length0Of e)) }) he]
  simp only [shAct, he, hd, hb, hu, Option.isSome_none, Bool.false_eq_true, if_false, if_true]
  simp only [updEntry, updBuf, updTable_updTable (f := fun e => { e with shTaken := true }) fun _ => rfl]
  rfl

/-- Without a free buffer or a usable head the scan is refused, and counted (R46, R163). -/
theorem shAct_refused (hd : e.early = none)
    (h : freeBuffer s = none ∨ (latch s.pfs.profile s.scu.heads (length0Of e)).usable.toList.any id = false) : shAct n s =
      count (fun b => { b with flow := { b.flow with unscanned := b.flow.unscanned + 1 } })
        (withEntry n { e with shTaken := true, early := some .unscanned, cause := some (e.cause.getD .unscanned) } s) := by
  have hearly : withEarly .unscanned { e with shTaken := true } =
      { e with shTaken := true, early := some .unscanned, cause := some (e.cause.getD .unscanned) } := by
    simp only [withEarly, hd, Option.isSome_none, Bool.false_eq_true, if_false]
    cases e.cause <;> rfl
  have hrefuse : refuseScan n (updEntry n (fun e => { e with shTaken := true }) s) =
      count (fun b => { b with flow := { b.flow with unscanned := b.flow.unscanned + 1 } })
        (withEntry n { e with shTaken := true, early := some .unscanned, cause := some (e.cause.getD .unscanned) } s) := by
    rw [refuseScan, updEntry_updEntry (f := fun e => { e with shTaken := true }) fun _ => rfl, updEntry_eq_withEntry _ he,
      Function.comp, hearly]
  rw [← hrefuse]
  simp only [shAct, he, hd, Option.isSome_none, Bool.false_eq_true, if_false]
  split
  next => rfl
  next b hb =>
    rw [if_neg]
    rcases h with h | h
    · rw [hb] at h; cases h
    · simp [h]

end

/-- The parameters latched at a scan start are those of the working profile and the heads (R44, R47). -/
theorem latch_eq (p : Profile) (heads : PerHead HeadRec) (e : Entry) : latch p heads (length0Of e) =
    { lnom := p.lnom, w := p.w, z := p.z, tPh := p.tPh, tMt := p.tMt, tBr := p.tBr, qMin := p.qMin, ambig := p.ambig
      n := (e.length0.getD 0 + 7) / 8
      lref := heads.map (·.lref)
      usable := heads.map fun h => decide (h.state = .ready ∧ p.lnom ≤ h.lref * 2) } := by
  simp only [latch, usableHeads, length0Of, Bool.decide_and]

/-- Settles O29: the command takes the SH position, and `shAct` is one of three outcomes. -/
theorem scanStartsOrIsRefused : Obligations.ScanStartsOrIsRefused := by
  intro s n e hr he hs hp
  refine ⟨_, exec_commandOf (k := .sh) he (sh_reached hr hs hp), ?_⟩
  intro p l filling free someHead
  have hl : latch s.pfs.profile s.scu.heads (length0Of e) = l := latch_eq s.pfs.profile s.scu.heads e
  refine ⟨fun hd => shAct_early he hd, fun b hd hf hlow hsome => ?_, fun hd h => ?_⟩
  · rw [← hl]
    exact shAct_started he hd (freeBuffer_lowest hf hlow) (hl ▸ (anyHead_iff _).2 hsome)
  · refine shAct_refused he hd (h.imp freeBuffer_none fun hnone => ?_)
    rw [hl, ← Bool.not_eq_true, anyHead_iff]
    exact hnone

/-! ### The pulses of a scan (O30) -/

theorem resumes_iff {n : LetterNo} {s : State} {r : HeadRec} : resumes n s.trk.belt r = true ↔ DelayedReached n s r := by
  unfold resumes DelayedReached
  split
  next p hp =>
    obtain ⟨hout, ⟨rest, hw⟩, hn⟩ := delayed_some.1 hp
    refine ⟨fun hb => ⟨hout, p, rest, hw, hn, hb⟩, fun ⟨_, q, rest', hq, _, hb⟩ => ?_⟩
    rw [hw] at hq
    cases hq
    exact hb
  next hnone =>
    refine ⟨(nofun), fun ⟨hout, p, rest, hw, hn, _⟩ => ?_⟩
    rw [delayed_some.2 ⟨hout, ⟨rest, hw⟩, hn⟩] at hnone
    cases hnone

/-- On an idle link the next waiting pulse is sent as `nextSent` says; a busy one keeps it waiting (R36, R48). -/
theorem sendNext_idle {belt : Pos} {r : HeadRec} (h : r.out = none) : sendNext belt r = nextSent belt r := by
  obtain ⟨state, run, code, refCode, lref, out, waiting⟩ := r
  cases h
  cases waiting <;> rfl

theorem sendNext_busy {belt : Pos} {r : HeadRec} (h : r.out ≠ none) : sendNext belt r = r := by
  unfold sendNext
  split
  next hout _ => exact absurd hout h
  next => rfl

/-- A pulse is placed behind those of its own letter and those before it, and ahead of the rest (R36). -/
theorem placePulse_between (p : Pulse) (l : List Pulse) : ∃ front back, l = front ++ back ∧ placePulse p l = front ++ p :: back ∧
    (∀ q ∈ front, q.letter = p.letter ∨ before p.pos q.pos = false) ∧
    ∀ q, back.head? = some q → q.letter ≠ p.letter ∧ before p.pos q.pos = true := by
  refine ⟨_, _, List.takeWhile_append_dropWhile.symm, rfl, fun q hq => ?_, fun q hq => ?_⟩
  · simpa using List.mem_takeWhile_imp hq
  · have h := List.head?_dropWhile_not (fun q : Pulse => decide (q.letter = p.letter) || !before p.pos q.pos) l
    rw [hq] at h
    simpa using h

theorem fillingOf_unique {n : LetterNo} {s : State} {b : Buf} (hp : (s.scu.bufs.get b).phase = .filling)
    (hn : (s.scu.bufs.get b).letter = some n)
    (hu : ∀ d, d ≠ b → ¬ ((s.scu.bufs.get d).phase = .filling ∧ (s.scu.bufs.get d).letter = some n)) : fillingOf s n = some b := by
  have hfill : ∀ d, (decide ((s.scu.bufs.get d).phase = .filling) && decide ((s.scu.bufs.get d).letter = some n)) = decide (d = b) := by
    intro d
    by_cases hd : d = b
    · subst hd; simp [hp, hn]
    · rw [← Bool.decide_and, decide_eq_decide]
      exact ⟨fun h => absurd h (hu d hd), fun h => absurd h hd⟩
  unfold fillingOf
  simp only [hfill]
  cases b <;> rfl

theorem scans_iff (l : Latched) (b : BufRec) (h : Head) (r : HeadRec) :
    scans l b h r = true ↔ l.usable.get h = true ∧ r.state ≠ .failed ∧ b.lost.get h = none := by
  simp [scans, and_assoc]

/-- The position of a waiting pulse, as a distance from its letter's anchor (R48). -/
theorem at_difference (a p : Pos) : at' a (p - a).toInt = p := by
  rw [at', BitVec.ofInt_toInt, BitVec.add_comm, BitVec.sub_add_cancel]

/-- A delayed pulse of the letter brings its SCAN_PULSE (R48). -/
theorem delayed_reached {n : LetterNo} {s : State} {e : Entry} {h : Head} (hr : running s = true) (he : s.entry? n = some e)
    (hd : DelayedReached n s (s.scu.heads.get h)) : ∃ d, (PosKind.pulse, d) ∈ reachedPositions s e := by
  obtain ⟨hout, p, rest, hw, hn, hb⟩ := hd
  refine ⟨(p.pos - e.anchor).toInt, mem_reachedPositions.2 ⟨mem_positions_iff.2 (.inr ⟨hr, .inr (.inr (.inl (mem_scanPositions.2
    (.inr (.inl (mem_delayedPositions.2 ⟨rfl, h, p, rest, hout, hw, ?_, rfl⟩))))))⟩), ?_⟩⟩
  · rw [hn, (entry_some he).2]
  · rw [at_difference]; exact hb

theorem anyDelayed_iff {n : LetterNo} {s : State} :
    s.scu.heads.toList.any (resumes n s.trk.belt) = true ↔ ∃ h, DelayedReached n s (s.scu.heads.get h) := by
  simp only [List.any_eq_true, mem_headList, resumes_iff]
  exact ⟨fun ⟨_, ⟨h, he⟩, hd⟩ => ⟨h, he ▸ hd⟩, fun ⟨h, hd⟩ => ⟨_, ⟨h, rfl⟩, hd⟩⟩

/-- The records that a pulse at the position `p.pos`, now reached, leaves on the links (R36, R48). -/
theorem pulsed_spec {l : Latched} {b : BufRec} {belt : Pos} {p : Pulse} {h : Head} (r : HeadRec) (hp : reached belt p.pos = true) :
    let r' := pulsed l b belt p h r
    let scans := l.usable.get h = true ∧ r.state ≠ .failed ∧ b.lost.get h = none
    (¬ scans → r' = r) ∧
    (scans → r.out = none → r.waiting = [] → r' = { r with out := some { what := .scan p, code := r.refCode } }) ∧
    (scans → ∃ before' after', r.waiting = before' ++ after' ∧
      (let placed := { r with waiting := before' ++ p :: after' };
       (r.out ≠ none → r' = placed) ∧ (r.out = none → r' = nextSent belt placed)) ∧
      (∀ q ∈ before', q.letter = p.letter ∨ before p.pos q.pos = false) ∧
      (∀ q, after'.head? = some q → q.letter ≠ p.letter ∧ before p.pos q.pos = true)) := by
  intro r' scans
  have hnot : ¬ scans → r' = r := fun hs => if_neg (mt (scans_iff l b h r).1 hs)
  have hsent : scans → r' = sendPulse belt p r := fun hs => if_pos ((scans_iff l b h r).2 hs)
  refine ⟨hnot, fun hs hout hw => ?_, fun hs => ?_⟩
  · have hplaced : placePulse p r.waiting = [p] := by rw [hw]; rfl
    rw [hsent hs, sendPulse, hplaced, sendNext_idle (r := { r with waiting := [p] }) hout]
    simp only [nextSent, hp, if_true, hw]
  · obtain ⟨front, back, hl, hplace, hfront, hback⟩ := placePulse_between p r.waiting
    rw [hsent hs, sendPulse, hplace]
    exact ⟨front, back, hl, ⟨fun hout => sendNext_busy hout, fun hout => sendNext_idle hout⟩, hfront, hback⟩

/-- Settles O30: SCAN_PULSE is `nextPulse`, or the delayed pulses of the letter sent (R48). -/
theorem pulseSentToUsableHeads : Obligations.PulseSentToUsableHeads := by
  refine ⟨fun s n e l b hr he hscan hl hp hn hu hnext hreach hnone => ?_, fun s n e hr he hd => ?_, fun belt r => ?_⟩
  · have hfill := fillingOf_unique hp hn hu
    have hmem : (PosKind.pulse, ((s.pfs.profile.dist .sh + 8 * (s.scu.bufs.get b).next + 4 : Nat) : Int)) ∈ reachedPositions s e :=
      mem_reachedPositions.2 ⟨mem_positions_iff.2 (.inr ⟨hr, .inr (.inr (.inl (mem_scanPositions.2
        (.inr (.inr ⟨rfl, hscan, b, l, by rw [(entry_some he).2]; exact hfill, hl, hnext, rfl⟩)))))⟩), hreach⟩
    have hact : pulseAct n s = nextPulse n s := if_neg (mt anyDelayed_iff.1 (not_exists.2 hnone))
    refine ⟨_, exec_commandOf (k := .pulse) he hmem, ?_, fun h => ?_⟩
    · show pulseAct n s = { s with scu := { s.scu with heads := (pulseAct n s).scu.heads, bufs := _ } }
      rw [hact, nextPulse_eq he hfill hl]
      rfl
    · have hget : (pulseAct n s).scu.heads.get h =
          pulsed l (s.scu.bufs.get b) s.trk.belt (cellPulse n e b s) h (s.scu.heads.get h) := by
        rw [hact]; exact nextPulse_get he hfill hl h
      intro r r'
      rw [show r' = pulsed l (s.scu.bufs.get b) s.trk.belt (cellPulse n e b s) h r from hget]
      exact pulsed_spec r hreach
  · obtain ⟨h, hd⟩ := hd
    obtain ⟨d, hmem⟩ := delayed_reached hr he hd
    have hact : pulseAct n s = { s with scu := { s.scu with
        heads := s.scu.heads.map fun r => if resumes n s.trk.belt r then sendNext s.trk.belt r else r } } :=
      if_pos (anyDelayed_iff.2 ⟨h, hd⟩)
    refine ⟨_, exec_commandOf (k := .pulse) he hmem, ?_, fun g => ?_⟩
    · show pulseAct n s = { s with scu := { s.scu with heads := (pulseAct n s).scu.heads } }
      rw [hact]
    · have hget : (pulseAct n s).scu.heads.get g = if resumes n s.trk.belt (s.scu.heads.get g) then
          sendNext s.trk.belt (s.scu.heads.get g) else s.scu.heads.get g := by
        rw [hact]; exact PerHead.get_map _ _ _
      exact ⟨fun hg => hget.trans ((if_pos (resumes_iff.2 hg)).trans (sendNext_idle hg.1)),
        fun hg => hget.trans (if_neg (mt resumes_iff.1 hg))⟩
  · refine ⟨fun hw => ?_, fun p rest hw hb => ?_, fun p rest hw hb => ?_⟩ <;> simp [nextSent, *]

/-! ### The calibrations that fall due (O25) -/

/-- The scan station is free (R40). -/
theorem stationFree_iff (s : State) : stationFree s = true ↔
    (s.pcm.cells.get .pe1).qual = .clear ∧ (s.pcm.cells.get .pe1).change = none ∧ (∀ e ∈ s.trk.table, e.inStation = false) ∧
      ∀ h, (s.scu.heads.get h).out = none ∧ (s.scu.heads.get h).waiting = [] := by
  have hcell : s.pcm.cells.pe1 = s.pcm.cells.get .pe1 := rfl
  simp only [stationFree, hcell, Bool.and_eq_true, decide_eq_true_eq, Option.isNone_iff_eq_none, List.all_eq_true, Bool.not_eq_true',
    List.isEmpty_iff, mem_headList, forall_exists_index, forall_apply_eq_imp_iff, and_assoc]

/-- The station exit position with its two offsets written out (R40). -/
theorem exitOffset_eq (p : Profile) (e : Entry) :
    exitOffset p e = p.dist .sh + (match e.length0 with | some l => l + 16 | none => 2416) := by
  unfold exitOffset
  cases e.length0 with
  | some l => exact Nat.add_assoc ..
  | none => rfl

theorem calInterval_eq {p : Profile} {l : LineState} {i : Nat}
    (h : l = .warmup ∧ i = 500 ∨ (l = .standby ∨ l = .starting ∨ l = .run ∨ l = .drain) ∧ i = p.calInterval * 1000) :
    calInterval p l = some i := by
  rcases h with ⟨rfl, rfl⟩ | ⟨rfl | rfl | rfl | rfl, rfl⟩ <;> rfl

/-- The calibration timer of the interval `i` has ended: the clock has moved on to it and the calibration is due (R41). -/
def calibrationDue (i : Nat) (s : State) : State :=
  { waitUntil (s.scu.calStart + i) s with scu := { s.scu with calDue := true } }

/-- Settles O25: both events end in `tryCalibrate`. -/
theorem calibrationsFallDue : Obligations.CalibrationsFallDue := by
  refine ⟨stationFree_iff, fun s => ⟨fun n e he hin hp => ?_, fun i hi => ?_⟩⟩
  · have hmem : (PosKind.stationExit, (exitOffset s.pfs.profile e : Int)) ∈ reachedPositions s e :=
      mem_reachedPositions.2 ⟨mem_positions_iff.2 (.inl (mem_exitPositions.2 ⟨rfl, hin, rfl⟩)), by rw [exitOffset_eq]; exact hp⟩
    have hleft := updEntry_eq_withEntry (fun e => { e with inStation := false }) he
    refine ⟨_, exec_commandOf (k := .stationExit) he hmem, ?_, ?_⟩
    · show exitAct n s = { withEntry n { e with inStation := false } s with scu := (exitAct n s).scu }
      rw [exitAct, hleft]
      exact tryCalibrate_scu _
    · exact tryCalibrate_ifFree rfl rfl rfl
  · have hex : exec .calibrationTimer s = .next (tryCalibrate (calibrationDue i s)) := by
      show execCalibrationTimer s = _
      rw [execCalibrationTimer, calInterval_eq hi]
      rfl
    have hline : s.flc.line ≠ .powerup ∧ s.flc.line ≠ .fault :=
      (calInterval_isSome s.pfs.profile s.flc.line).1 (by rw [calInterval_eq hi]; rfl)
    refine ⟨_, hex, tryCalibrate_scu (calibrationDue i s), fun hf => ?_, fun hf => ?_⟩
    · obtain ⟨hheads, hrest⟩ := tryCalibrate_taken (s := calibrationDue i s) rfl hf hline.1 hline.2
      exact ⟨hheads, hrest.trans (by rw [tryCalibrate_scu]; rfl)⟩
    · rw [tryCalibrate_kept (s := calibrationDue i s) (.inr (.inr (.inr hf)))]
      rfl

end Sys2Proof.Proofs
end

