-- ==== Sys2Proof/Proofs/HeadStates.lean ====
section
/-! PROOF. What a change of a head's state does to the line (R39, R143, R146): the change to DRAIN, the end of WARMUP, and both at the end
of the event. The statements that need it are O26 and O28. -/

namespace Sys2Proof.Proofs

open Sys2Proof Sys2Proof.Machine Sys2Proof.Safety Sys2Proof.Laws

/-! ### The end of an event that lowers a hold cause -/

theorem endEvent_from {r s : State} (t : State) (h : r.flc.holds = s.flc.holds) : endEvent r t = endEvent s t := by
  rw [endEvent, endEvent, h]

/-- Where a hold cause is lowered the set does not come to be not empty, and HOLD_CROSSINGS stays (R152). -/
theorem endEvent_lowered {c : HoldCause} {s t : State} (h : t.flc.holds = s.flc.holds.put false c)
    (h1 : t.llk.flags.get .feedHold = s.llk.flags.get .feedHold)
    (h2 : t.cnb.bank.line.holdCrossings = s.cnb.bank.line.holdCrossings) :
    HoldMoved c false s (endEvent s t) ∧ endEvent s t = { t with llk := (endEvent s t).llk } := by
  have hmoved : HoldMoved c false s (endEvent s t) := endEvent_moved h h1 h2
  have hholds : (endEvent s t).flc.holds = t.flc.holds := hmoved.holds.trans h.symm
  have hcount : (endEvent s t).cnb.bank.line.holdCrossings = t.cnb.bank.line.holdCrossings := by
    rw [hmoved.count, if_neg, h2]
    rintro ⟨hs, ht⟩
    rw [hmoved.holds] at ht
    rw [put_low_any ht] at hs
    cases hs
  refine ⟨hmoved, (endEvent_eq s t).trans ?_⟩
  rw [withHolds, hholds, hcount]

theorem linkKept_of_llk {ks : List Kind} {s s' t t' : State} (h : LinkKept ks s t) (hs : s'.llk = s.llk) (ht : t'.llk = t.llk) :
    LinkKept ks s' t' :=
  (h.left_eq hs.symm).trans (.of_eq ht)

theorem cancellersReported_of_flags {f : CancRec → CancRec} {s s' t t' : State} (h : CancellersReported f s t) (hc : s'.can = s.can)
    (hs : s'.llk.flags.get .cancellerState = s.llk.flags.get .cancellerState)
    (ht : t'.llk.flags.get .cancellerState = t.llk.flags.get .cancellerState) : CancellersReported f s' t' := by
  unfold CancellersReported FlagSet at h ⊢
  rw [hc, hs, ht]
  exact h

/-! ### The change to DRAIN (R146, R148) -/

/-- The line put into DRAIN (R146). -/
def draining (c : LineCause) (s : State) : State :=
  setHold .cancel false (setFlag .lineState (.line .drain c none) { s with flc := { s.flc with
    line := .drain, runUp := none, runUpQual := none
    drainLimit := some (at' s.trk.belt (s.pfs.profile.drainLimit * 4000 : Nat)) } })

theorem enterDrain_eq (c : LineCause) (s : State) : enterDrain c s = checkDrained (draining c s) :=
  congrArg checkDrained (setLine_off .drain c none _ nofun nofun)

theorem enterDrain_coming {c : LineCause} {s : State} (h : s.trk.table ≠ []) : enterDrain c s = draining c s := by
  rw [enterDrain_eq]
  exact if_neg fun hc => h hc.2

theorem enterDrain_empty {c : LineCause} {s : State} (h : s.trk.table = []) : enterDrain c s = drainEmpty (draining c s) := by
  rw [enterDrain_eq]
  exact if_pos ⟨rfl, h⟩

theorem draining_link (c : LineCause) (s : State) : LinkKept [.lineState] s (draining c s) :=
  (setFlag_kept' (by rfl) (List.mem_singleton.2 rfl)).trans (setHold_kept _ _ _ _)

theorem drainEmpty_link (s : State) : LinkKept [.lineState, .cancellerState] s (drainEmpty s) := by
  have hA := (cancDrained_drained .a s).link
  have hB := (cancDrained_drained .b (cancDrained .a s)).link
  have hline := setLine_kept (ks := [.lineState]) .standby .empty
    (some (drainedLine (cancDrained .b (cancDrained .a s))).cnb.snap.number) (drainedLine (cancDrained .b (cancDrained .a s)))
    (List.mem_singleton.2 rfl)
  exact ((hA.trans hB).mono (by simp)).trans ((LinkKept.left_eq (by rfl) hline).mono (by simp))

/-- What the change to DRAIN has done before the event ends: `DrainEntered` without the judgement of the hold cause set and the
transmitter's pick. -/
structure DrainLeft (c : LineCause) (s t : State) : Prop where
  coming : s.trk.table ≠ [] → t = { s with
    flc := { s.flc with
      line := .drain, runUp := none, runUpQual := none
      holds := { s.flc.holds with cancel := false }
      drainLimit := some (at' s.trk.belt (s.pfs.profile.drainLimit * 4000 : Nat)) }
    llk := t.llk } ∧ FlagSet .lineState (.line .drain c none) s t ∧ LinkKept [.lineState] s t
  empty  : s.trk.table = [] → t = { s with
    flc := { s.flc with
      line := .standby, runUp := none, runUpQual := none, drainLimit := none
      holds := { s.flc.holds with cancel := false } }
    can := { s.can with recs := s.can.recs.map drainedCanceller }
    cnb := { s.cnb with snap :=
      { number := nextSnapshot s.cnb.snap.number, pos := s.trk.belt, bank := s.cnb.bank, inTable := 0
        utilisation := utilisationOf s.cnb.bank } }
    llk := t.llk } ∧
    FlagSet .lineState (.line .standby .empty (some (nextSnapshot s.cnb.snap.number))) s t ∧
    CancellersReported drainedCanceller s t ∧ LinkKept [.lineState, .cancellerState] s t

theorem enterDrain_left (c : LineCause) (s : State) : DrainLeft c s (enterDrain c s) where
  coming h := by
    rw [enterDrain_coming h]
    exact ⟨rfl, setFlag_set .lineState _ { s with flc := { s.flc with
      line := .drain, runUp := none, runUpQual := none, drainLimit := _ } }, draining_link c s⟩
  empty h := by
    rw [enterDrain_empty h]
    have hlink := draining_link c s
    have hE := drainEmpty_emptied (s := draining c s) h
    have hpump := pump_llk_only (drainEmpty (draining c s))
    have hflags := (pump_kept [] (drainEmpty (draining c s))).flags
    refine ⟨?_, ?_, ?_, (hlink.mono (by simp)).trans (drainEmpty_link _)⟩
    · have hrest := congrArg (fun u : State => { u with llk := (drainEmpty (draining c s)).llk }) (hpump.symm.trans hE.rest)
      exact hrest
    · have hline := hE.line
      rw [hE.rest] at hline
      exact (flagSet_of_set (hline.of_eq (hflags .lineState (by simp)).symm) (setFlag_set .lineState (.line .drain c none)
        { s with flc := { s.flc with line := .drain, runUp := none, runUpQual := none, drainLimit := _ } }))
    · exact cancellersReported_of_flags hE.cancels rfl (hlink.flags _ (by simp)).symm (hflags _ (by simp)).symm

/-- The Track, the Scan Control Unit and the Mark Finder put back into a state: the blocks a head's failure and a calibration touch. -/
def withScan (v s : State) : State :=
  { s with trk := v.trk, scu := v.scu, mkf := v.mkf }

/-- The change to DRAIN does not look at the scan, nor at the letters but for whether there are any. -/
theorem DrainLeft.of_scan {c : LineCause} {s t : State} (h : DrainLeft c s t) {v : State} (hb : v.trk.belt = s.trk.belt)
    (ht : v.trk.table = [] ↔ s.trk.table = []) : DrainLeft c (withScan v s) (withScan v t) where
  coming h' := by
    obtain ⟨heq, hflag, hlink⟩ := h.coming (mt ht.2 h')
    refine ⟨(congrArg (withScan v) heq).trans ?_, hflag, linkKept_of_llk hlink rfl rfl⟩
    rw [show (withScan v s).trk.belt = s.trk.belt from hb]
    rfl
  empty h' := by
    obtain ⟨heq, hflag, hcanc, hlink⟩ := h.empty (ht.1 h')
    refine ⟨(congrArg (withScan v) heq).trans ?_, hflag, hcanc, linkKept_of_llk hlink rfl rfl⟩
    rw [show (withScan v s).trk.belt = s.trk.belt from hb]
    rfl

/-- The change to DRAIN at the end of an event that began with the hold causes of `s` (R146, R152). -/
theorem DrainLeft.entered {c : LineCause} {s t : State} (h : DrainLeft c s t) {r : State} (hr : r.flc.holds = s.flc.holds) :
    DrainEntered c s (endEvent r t) := by
  rw [endEvent_from t hr]
  constructor
  · intro ht
    obtain ⟨heq, hflag, hlink⟩ := h.coming ht
    obtain ⟨hmoved, hend⟩ := endEvent_lowered (c := .cancel) (s := s) (t := t) (by rw [heq]; rfl)
      (hlink.flags _ (by simp)) (by rw [heq])
    refine ⟨hend.trans ?_, FlagSet_end s nofun hflag, hmoved, LinkKept_end s (by simp) (hlink.mono (by simp))⟩
    exact congrArg (fun u : State => { u with llk := (endEvent s t).llk }) heq
  · intro ht
    obtain ⟨heq, hflag, hcanc, hlink⟩ := h.empty ht
    obtain ⟨hmoved, hend⟩ := endEvent_lowered (c := .cancel) (s := s) (t := t) (by rw [heq]; rfl)
      (hlink.flags _ (by simp)) (by rw [heq])
    have hall := hend.trans (congrArg (fun u : State => { u with llk := (endEvent s t).llk }) heq)
    have hsnap := congrArg (fun u : State => u.cnb.snap) hall
    refine ⟨hall.trans ?_, hsnap, ?_, hmoved, ?_, LinkKept_end s (by simp) (hlink.mono (by simp))⟩
    · rw [hsnap]
    · rw [hsnap]; exact FlagSet_end s nofun hflag
    · exact cancellersReported_of_flags hcanc rfl rfl ((endEvent_kept (ks := [.feedHold]) s t (by simp)).flags _ (by simp))

theorem DrainLeft.flags {c : LineCause} {s t : State} (h : DrainLeft c s t) (k : Kind) (hk : k ≠ .lineState ∧ k ≠ .cancellerState) :
    t.llk.flags.get k = s.llk.flags.get k := by
  by_cases ht : s.trk.table = []
  · obtain ⟨-, -, -, hlink⟩ := h.empty ht
    exact hlink.flags k (by simp [hk])
  · obtain ⟨-, -, hlink⟩ := h.coming ht
    exact hlink.flags k (by simp [hk])

/-! ### A change of a head's state -/

/-- The head's record and HEAD_STATE at a change of state (R37). -/
def headMoved (h : Head) (x : HeadState) (s : State) : State :=
  setFlag .headState (.head h x) (updHead h (fun r => { r with state := x, run := 0 }) s)

/-- The end of WARMUP with all heads READY (R143). -/
def warmedUp (s : State) : State :=
  setHold .cancel false
    (setFlag .lineState (.line .standby .warm none) { s with flc := { s.flc with line := .standby, warmup := none } })

/-- A change of state to `x` drains the line (R39, R146). -/
def Degrades (x : HeadState) (s : State) : Prop :=
  (x = .weak ∨ x = .failed) ∧ s.pfs.profile.degradePolicy = .drain ∧ (s.flc.line = .starting ∨ s.flc.line = .run)

/-- Every head is READY in WARMUP (R143). -/
def Warm (s : State) : Prop :=
  s.flc.line = .warmup ∧ ∀ g, (s.scu.heads.get g).state = .ready

theorem headAttention_false {s : State} : headAttention s = false ↔ ∀ g, (s.scu.heads.get g).state = .ready := by
  simp only [headAttention, List.any_eq_false, mem_headList, decide_eq_true_eq, not_not, forall_exists_index, forall_apply_eq_imp_iff]

theorem checkWarm_warm {s : State} (h : Warm s) : checkWarm s = warmedUp s := by
  rw [checkWarm, if_pos ⟨h.1, headAttention_false.2 h.2⟩, setLine_off _ _ _ _ (by decide) (by decide)]
  rfl

theorem checkWarm_stays {s : State} (h : ¬ Warm s) : checkWarm s = s :=
  if_neg fun hc => h ⟨hc.1, headAttention_false.1 hc.2⟩

theorem enterDrain_not_warmup (c : LineCause) (s : State) : (enterDrain c s).flc.line ≠ .warmup := by
  by_cases ht : s.trk.table = []
  · rw [enterDrain_empty ht, drainEmpty_line]; exact nofun
  · rw [enterDrain_coming ht]; exact nofun

section
variable {h : Head} {x : HeadState} {s : State}

theorem headTo_degrades (hd : Degrades x s) : headTo h x s = enterDrain .head (headMoved h x s) := by
  have hif : headTo h x s = checkWarm (enterDrain .head (headMoved h x s)) := congrArg checkWarm (if_pos hd)
  rw [hif, checkWarm_stays]
  exact fun hw => enterDrain_not_warmup _ _ hw.1

theorem headTo_undegraded (hd : ¬ Degrades x s) : headTo h x s = checkWarm (headMoved h x s) :=
  congrArg checkWarm (if_neg hd)

/-- The heads at a change of state, in WARMUP. -/
def WarmsTo (h : Head) (x : HeadState) (s : State) : Prop :=
  s.flc.line = .warmup ∧ x = .ready ∧ ∀ g, g ≠ h → (s.scu.heads.get g).state = .ready

theorem warm_headMoved : Warm (headMoved h x s) ↔ WarmsTo h x s := by
  have hget : ∀ g, ((headMoved h x s).scu.heads.get g).state = if g = h then x else (s.scu.heads.get g).state := by
    intro g
    show ((updHead h _ s).scu.heads.get g).state = _
    rw [updHead_get]
    split <;> rfl
  refine and_congr_right fun _ => ⟨fun hall => ⟨?_, fun g hg => ?_⟩, fun ⟨hx, hall⟩ g => ?_⟩
  · rw [← hall h, hget, if_pos rfl]
  · rw [← hall g, hget, if_neg hg]
  · rw [hget]
    split
    next => exact hx
    next hg => exact hall g hg

end

/-! ### The event in which a head's state changes -/

section
variable {h : Head} {x : HeadState} {s : State} {c : Scu} {v : State} (hv : v = withScan v (headTo h x { s with scu := c }))
include hv

theorem headTo_headFlag : FlagSet .headState (.head h x) s (endEvent s v) := by
  refine FlagSet_end s nofun ?_
  have hset : FlagSet .headState (.head h x) s (headMoved h x { s with scu := c }) :=
    setFlag_set .headState _ (updHead h (fun r => { r with state := x, run := 0 }) { s with scu := c })
  rw [hv]
  refine hset.of_eq ?_
  show (headTo h x { s with scu := c }).llk.flags.get .headState = _
  by_cases hd : Degrades x s
  · rw [headTo_degrades (s := { s with scu := c }) hd]
    exact (enterDrain_left _ _).flags _ ⟨nofun, nofun⟩
  · rw [headTo_undegraded (s := { s with scu := c }) hd]
    by_cases hw : Warm (headMoved h x { s with scu := c })
    · rw [checkWarm_warm hw]
      exact (setFlag_kept (ks := [.lineState]) _ _ (by simp)).flags .headState (by simp)
    · rw [checkWarm_stays hw]

/-- A change of state that neither degrades nor warms up changes the head and HEAD_STATE only (R37). -/
theorem headTo_end_stays (hd : ¬ Degrades x s) (hw : ¬ WarmsTo h x { s with scu := c }) :
    endEvent s v = { withScan v (setFlag .headState (.head h x) s) with llk := (endEvent s v).llk } ∧
      LinkKept [.headState] s (endEvent s v) := by
  rw [headTo_undegraded (s := { s with scu := c }) hd, checkWarm_stays (mt warm_headMoved.1 hw)] at hv
  have hvu : v = withScan v (setFlag .headState (.head h x) s) := hv
  have hend : endEvent s v = pump v := endEvent_same (by rw [hvu]; rfl)
  have hlink : LinkKept [.headState] s v := by
    rw [hvu]
    exact linkKept_of_llk (setFlag_kept _ s (by simp)) rfl rfl
  rw [hend]
  refine ⟨?_, LinkKept_pump hlink⟩
  exact (pump_llk_only v).trans (congrArg (fun u : State => { u with llk := (pump v).llk }) hvu)

/-- A head that degrades the line drains it (R39, R146). -/
theorem headTo_end_drains (hd : Degrades x s) (hb : v.trk.belt = s.trk.belt) (ht : v.trk.table = [] ↔ s.trk.table = []) :
    DrainEntered .head (withScan v (setFlag .headState (.head h x) s)) (endEvent s v) := by
  rw [headTo_degrades (s := { s with scu := c }) hd] at hv
  have hleft := (enterDrain_left .head (headMoved h x { s with scu := c })).of_scan hb ht
  rw [← hv] at hleft
  exact hleft.entered rfl

/-- The last head to warm up takes the line to STANDBY (R143). -/
theorem headTo_end_warms (hd : ¬ Degrades x s) (hw : WarmsTo h x { s with scu := c }) :
    let t := endEvent s v
    t = { s with
      trk := v.trk, scu := v.scu, mkf := v.mkf
      flc := { s.flc with line := .standby, warmup := none, holds := { s.flc.holds with cancel := false } }
      llk := t.llk } ∧
    HoldMoved .cancel false s t ∧ FlagSet .lineState (.line .standby .warm none) s t ∧
    LinkKept [.headState, .lineState, .feedHold] s t := by
  rw [headTo_undegraded (s := { s with scu := c }) hd, checkWarm_warm (warm_headMoved.2 hw)] at hv
  generalize hm : headMoved h x { s with scu := c } = m at hv
  have hmlink : LinkKept [.headState] s m := by
    rw [← hm]
    exact setFlag_kept' (by rfl) (List.mem_singleton.2 rfl)
  have hwlink : LinkKept [.lineState] m (warmedUp m) :=
    (setFlag_kept' (by rfl) (List.mem_singleton.2 rfl)).trans (setHold_kept _ _ _ _)
  have hllk : v.llk = (warmedUp m).llk := by rw [hv]; rfl
  have hlink : LinkKept [.headState, .lineState] s v :=
    linkKept_of_llk ((hmlink.mono (by simp)).trans (hwlink.mono (by simp))) rfl hllk
  have hvs : v = { s with
      trk := v.trk, scu := v.scu, mkf := v.mkf
      flc := { s.flc with line := .standby, warmup := none, holds := { s.flc.holds with cancel := false } }
      llk := v.llk } := by
    rw [hllk]
    exact hv.trans (by rw [← hm]; rfl)
  have hflag : FlagSet .lineState (.line .standby .warm none) s v := by
    have hset : FlagSet .lineState (.line .standby .warm none) m (warmedUp m) :=
      setFlag_set .lineState _ { m with flc := { m.flc with line := .standby, warmup := none } }
    exact (flagSet_of_left hset (hmlink.flags _ (by simp))).of_eq (by rw [hllk])
  obtain ⟨hmoved, hend⟩ := endEvent_lowered (c := .cancel) (s := s) (t := v) (by rw [hvs]; rfl) (hlink.flags _ (by simp)) (by rw [hvs])
  exact ⟨hend.trans (congrArg (fun u : State => { u with llk := (endEvent s v).llk }) hvs), hmoved, FlagSet_end s nofun hflag,
    LinkKept_end s (by simp) (hlink.mono (by simp))⟩

end

end Sys2Proof.Proofs
end

