-- ==== Sys2Proof/Proofs/HeadAnswers.lean ====
section
/-! PROOF. HEAD_ANSWER: the answer to a calibration pulse judged (O26), and the answer to a scan pulse written to its buffer (O27). -/

namespace Sys2Proof.Proofs

open Sys2Proof Sys2Proof.Machine Sys2Proof.Safety Sys2Proof.Laws

/-! ### The checks of a sample word (R190) -/

theorem parity_iff (k n : Nat) : parity k n = true ↔ (List.range k).countP (fun i => n.testBit i) % 2 = 1 := by
  induction k generalizing n with
  | zero => simp [parity]
  | succ k ih =>
    have hshift : (List.range k).countP ((fun i => n.testBit i) ∘ Nat.succ) = (List.range k).countP fun i => (n / 2).testBit i :=
      List.countP_congr fun i _ => by simp [Nat.testBit_succ]
    have ih := ih (n / 2)
    rw [List.range_succ_eq_map, List.countP_cons, List.countP_map, hshift, Nat.testBit_zero, parity]
    cases hp : parity k (n / 2) <;> simp only [hp, true_iff, Bool.false_eq_true, false_iff] at ih <;>
      simp only [Bool.bne_false, Bool.bne_true, beq_iff_eq, decide_eq_true_eq, Bool.not_eq_true', beq_eq_false_iff_ne] <;> split <;> omega

/-- One more bit in a parity. -/
theorem odd_cons (p : Nat → Bool) (i : Nat) (l : List Nat) {q : Bool} (h : q = true ↔ l.countP p % 2 = 1) :
    xor (p i) q = true ↔ (i :: l).countP p % 2 = 1 := by
  rw [List.countP_cons]
  cases hp : p i <;> cases hq : q <;> simp only [hq, true_iff, Bool.false_eq_true, false_iff] at h <;> simp [h] <;> omega

theorem wordGood_iff (w : BitVec 32) : wordGood w = true ↔
    (31 :: List.range' 15 15).countP (fun i => w.getLsbD i) % 2 = 1 ∧ (30 :: List.range 15).countP (fun i => w.getLsbD i) % 2 = 1 := by
  have hhigh : parity 15 (w.toNat / 32768) = true ↔ (List.range' 15 15).countP (fun i => w.getLsbD i) % 2 = 1 := by
    rw [parity_iff, List.range'_eq_map_range, List.countP_map]
    have hbits : (fun i => (w.toNat / 32768).testBit i) = (fun i => w.getLsbD i) ∘ fun i => 15 + i :=
      funext fun i => (Nat.testBit_div_two_pow (n := 15) w.toNat i).trans (by rw [Nat.add_comm]; rfl)
    rw [hbits]
  rw [wordGood, Bool.and_eq_true, odd_cons _ 31 _ hhigh, odd_cons (fun i => w.getLsbD i) 30 (List.range 15) (parity_iff 15 w.toNat)]

/-! ### The link after an answer -/

theorem nextSent_out (belt : Pos) (r : HeadRec) (o : Option Outstanding) : nextSent belt { r with out := o } = nextSent belt r := by
  unfold nextSent
  cases r.waiting <;> rfl

theorem nextSent_rest (belt : Pos) (r : HeadRec) :
    nextSent belt r = { r with out := (nextSent belt r).out, waiting := (nextSent belt r).waiting } := by
  unfold nextSent
  split
  next => split <;> rfl
  next => rfl

/-- A calibration sends pulses and changes the head records in nothing else (R42). -/
theorem tryCalibrate_head (s : State) (g : Head) :
    (tryCalibrate s).scu.heads.get g = { s.scu.heads.get g with out := ((tryCalibrate s).scu.heads.get g).out } := by
  by_cases h : s.scu.calDue = true ∧ stationFree s = true ∧ s.flc.line ≠ .powerup ∧ s.flc.line ≠ .fault
  · obtain ⟨hd, hf, hp, hl⟩ := h
    rw [(tryCalibrate_taken hd hf hp hl).heads g]
    split <;> rfl
  · rw [tryCalibrate_kept]
    simp only [not_and_or, Bool.not_eq_true, not_not] at h
    tauto

/-- A calibration taken where the line has come to another state in which it is taken too (R41). -/
theorem tryCalibrate_ifFree_moved {s t : State} (hs : t.scu = s.scu) (hn : t.now = s.now) (hm : HeadMove s t) :
    CalibratedIfFree s (tryCalibrate t) := by
  have hline : ∀ l, l = .powerup ∨ l = .fault → (t.flc.line = l ↔ s.flc.line = l) := by
    intro l hl
    rcases hm with h | ⟨h, h'⟩ | ⟨h, h'⟩
    · rw [h]
    · rw [h']
      rcases hl with rfl | rfl <;> rcases h with h | h <;> rw [h] <;> split <;> simp
    · rw [h, h']
      rcases hl with rfl | rfl <;> simp
  have ht := tryCalibrate_scu t
  have hfree : stationFree { tryCalibrate t with scu := s.scu } = stationFree t := by rw [ht, ← hs]
  refine ⟨fun hd hp hf hst => ?_, fun h => ?_⟩
  · obtain ⟨hheads, hrest⟩ := tryCalibrate_taken (s := t) (hs ▸ hd) (hfree ▸ hst) (mt (hline _ (.inl rfl)).1 hp)
      (mt (hline _ (.inr rfl)).1 hf)
    exact ⟨fun h => (hheads h).trans (by rw [hs]), hrest.trans (by rw [hs, hn])⟩
  · rw [tryCalibrate_kept, hs]
    rw [hs, hline _ (.inl rfl), hline _ (.inr rfl), ← hfree]
    exact h

theorem exec_headAnswer {w : BitVec 32} (hw : wordGood w = true) (h : Head) (s : State) :
    exec (.headAnswer h w) s = .next (endEvent s (answerHead h (wordSample w) s)) :=
  congrArg Host.Outcome.next (if_pos hw)

/-- The link of a head whose outstanding pulse has been answered. -/
def linkAnswered (h : Head) (s : State) : State :=
  updHead h (fun r => { r with out := none }) s

theorem linkAnswered_get (h : Head) (s : State) : (linkAnswered h s).scu.heads.get h = { s.scu.heads.get h with out := none } := by
  rw [linkAnswered, updHead_get, if_pos rfl]

/-- What the answer to an outstanding pulse brings, the next waiting pulse and the calibration apart (R36). -/
def answerTaken (h : Head) (o : Outstanding) (v : Sample) (s : State) : State :=
  match o.what with
  | .calibration => judgeCalibration h o.code v.ga (linkAnswered h s)
  | .scan p => scanAnswer h p v (linkAnswered h s)
  | .dropped => linkAnswered h s

theorem answerHead_out {h : Head} {o : Outstanding} {s : State} (ho : (s.scu.heads.get h).out = some o) (v : Sample) :
    answerHead h v s = tryCalibrate (updHead h (sendNext (answerTaken h o v s).trk.belt) (answerTaken h o v s)) := by
  simp only [answerHead, ho]
  rfl

theorem answerTaken_belt (h : Head) (o : Outstanding) (v : Sample) (s : State) : (answerTaken h o v s).trk.belt = s.trk.belt := by
  unfold answerTaken
  split <;> simp [linkAnswered]

/-! ### A calibration answer (O26) -/

theorem judgeCalibration_scu (h : Head) (k ga : Nat) (s : State) :
    (judgeCalibration h k ga s).scu = (updHead h (calibratedRec s.pfs.profile.lnom k ga) s).scu := by
  rw [judgeCalibration_eq]
  split
  next => rfl
  next hne =>
    rw [headTo_scu, updHead_updHead]
    refine congrArg State.scu (updHead_congr ?_)
    have hrun : (calibratedRec s.pfs.profile.lnom k ga (s.scu.heads.get h)).run = 0 := calibratedState_run hne
    show ({ calibratedRec s.pfs.profile.lnom k ga (s.scu.heads.get h) with run := 0 } : HeadRec) = _
    rw [← hrun]

/-- What a calibration leaves of a head's record but for its state and run count (R42, R43). -/
theorem calibratedRec_levels (lnom k ga : Nat) (r : HeadRec) :
    let r' := calibratedRec lnom k ga r
    (calGood lnom ga = true → r'.lref = ga ∧ r'.refCode = k ∧
      r'.code = if ga * 8 < lnom * 7 then min 15 (r.code + 1) else if lnom * 9 < ga * 8 then r.code - 1 else r.code) ∧
    (calGood lnom ga = false → r'.lref = r.lref ∧ r'.refCode = r.refCode ∧ r'.code = r.code) ∧
    r'.out = r.out ∧ r'.waiting = r.waiting := by
  intro r'
  have hr' : r' = calibratedRec lnom k ga r := rfl
  rw [hr', calibratedRec, levelled]
  refine ⟨fun hg => ?_, fun hb => ?_, ?_⟩
  · rw [if_pos hg]; exact ⟨rfl, rfl, rfl⟩
  · rw [hb]; exact ⟨rfl, rfl, rfl⟩
  · split <;> exact ⟨rfl, rfl⟩

/-- The record of a head whose calibration pulse, sent at the drive code `k`, was answered with the level `ga`. -/
def judgedRec (h : Head) (k ga : Nat) (s : State) : HeadRec :=
  calibratedRec s.pfs.profile.lnom k ga { s.scu.heads.get h with out := none }

/-- The state a calibration answer comes to. -/
def calibrationTaken (h : Head) (k ga : Nat) (s : State) : State :=
  let t := judgeCalibration h k ga (linkAnswered h s)
  tryCalibrate (updHead h (sendNext t.trk.belt) t)

/-- The head records after a calibration answer and before a calibration (R36). -/
def headsJudged (h : Head) (k ga : Nat) (s : State) : PerHead HeadRec :=
  s.scu.heads.set h (nextSent s.trk.belt (judgedRec h k ga s))

section
variable (h : Head) (k ga : Nat) (s : State)

theorem judged_scu : (updHead h (sendNext s.trk.belt) (judgeCalibration h k ga (linkAnswered h s))).scu =
    { s.scu with heads := headsJudged h k ga s } := by
  have hw : (judgeCalibration h k ga (linkAnswered h s)).scu = (updHead h (fun _ => judgedRec h k ga s) s).scu := by
    rw [judgeCalibration_scu, linkAnswered, updHead_updHead]
    rfl
  have hout : (judgedRec h k ga s).out = none := (calibratedRec_levels _ _ _ _).2.2.1
  have hupd : (updHead h (sendNext s.trk.belt) (judgeCalibration h k ga (linkAnswered h s))).scu =
      (updHead h (sendNext s.trk.belt) (updHead h (fun _ => judgedRec h k ga s) s)).scu := by
    unfold updHead
    rw [hw]
    rfl
  rw [hupd, updHead_updHead, headsJudged, ← sendNext_idle hout]
  rfl

theorem calibrationTaken_eq : calibrationTaken h k ga s =
    { judgeCalibration h k ga (linkAnswered h s) with scu := (calibrationTaken h k ga s).scu } :=
  tryCalibrate_scu _

theorem calibrationTaken_ifFree :
    CalibratedIfFree { s with scu := { s.scu with heads := headsJudged h k ga s } } (calibrationTaken h k ga s) := by
  have hbelt : (judgeCalibration h k ga (linkAnswered h s)).trk.belt = s.trk.belt := by simp [linkAnswered]
  unfold calibrationTaken
  dsimp only
  rw [hbelt]
  refine tryCalibrate_ifFree_moved (judged_scu h k ga s) (by simp [linkAnswered]) ?_
  exact judgeCalibration_move h k ga (linkAnswered h s)

/-- Each head record after a calibration answer, the pulses apart (R36, R37). -/
theorem calibrationTaken_head (g : Head) :
    let r' := (calibrationTaken h k ga s).scu.heads.get g
    r' = { (if g = h then judgedRec h k ga s else s.scu.heads.get g) with out := r'.out, waiting := r'.waiting } := by
  intro r'
  have hbelt : (judgeCalibration h k ga (linkAnswered h s)).trk.belt = s.trk.belt := by simp [linkAnswered]
  have hget : (updHead h (sendNext s.trk.belt) (judgeCalibration h k ga (linkAnswered h s))).scu.heads.get g =
      if g = h then nextSent s.trk.belt (judgedRec h k ga s) else s.scu.heads.get g := by
    rw [judged_scu]
    exact PerHead.get_set _ _ _ _
  have hr := tryCalibrate_head (updHead h (sendNext s.trk.belt) (judgeCalibration h k ga (linkAnswered h s))) g
  have hr' : r' = (tryCalibrate (updHead h (sendNext s.trk.belt) (judgeCalibration h k ga (linkAnswered h s)))).scu.heads.get g := by
    show (calibrationTaken h k ga s).scu.heads.get g = _
    unfold calibrationTaken
    dsimp only
    rw [hbelt]
  rw [← hr', hget] at hr
  rw [hr]
  split
  · rw [nextSent_rest]
  · rfl

end

theorem eq_withScan {v w : State} (h : v = { w with scu := v.scu }) : v = withScan v w := by
  have ht : v.trk = w.trk := by rw [h]
  have hm : v.mkf = w.mkf := by rw [h]
  rw [withScan, ht, hm]
  exact h

theorem calGood_eq (lnom ga : Nat) : calGood lnom ga = decide (lnom ≤ ga * 2 ∧ ga ≤ 1022) := by
  rw [calGood, Bool.decide_and]

section
variable {h : Head} {k ga : Nat} {s : State}

theorem judgeLinked_eq : judgeCalibration h k ga (linkAnswered h s) =
    if (judgedRec h k ga s).state = (s.scu.heads.get h).state then
      updHead h (calibratedRec s.pfs.profile.lnom k ga) (linkAnswered h s)
    else headTo h (judgedRec h k ga s).state (updHead h (calibratedRec s.pfs.profile.lnom k ga) (linkAnswered h s)) := by
  have hj := judgeCalibration_eq h k ga (linkAnswered h s)
  rw [linkAnswered_get] at hj
  exact hj

/-- An answer that leaves the head's state changes its record only (R37, R42). -/
theorem calibrationTaken_same (he : (judgedRec h k ga s).state = (s.scu.heads.get h).state) :
    calibrationTaken h k ga s = { s with scu := (calibrationTaken h k ga s).scu } := by
  rw [calibrationTaken_eq, judgeLinked_eq, if_pos he]
  rfl

/-- An answer that changes the head's state is a change of state (R37). -/
theorem calibrationTaken_moved (he : (judgedRec h k ga s).state ≠ (s.scu.heads.get h).state) :
    ∃ c : Scu, (∀ g, g ≠ h → c.heads.get g = s.scu.heads.get g) ∧
      calibrationTaken h k ga s =
        withScan (calibrationTaken h k ga s) (headTo h (judgedRec h k ga s).state { s with scu := c }) := by
  refine ⟨(updHead h (calibratedRec s.pfs.profile.lnom k ga) (linkAnswered h s)).scu, fun g hg => ?_, eq_withScan ?_⟩
  · rw [linkAnswered, updHead_updHead, updHead_get, if_neg hg]
  · refine (calibrationTaken_eq h k ga s).trans ?_
    rw [judgeLinked_eq, if_neg he]
    rfl

end

/-- No calibration takes a head to FAILED (R37). -/
theorem calibratedState_unfailed {good : Bool} {x : HeadState} {n : Nat} (h : (calibratedState good x n).1 ≠ x) :
    (calibratedState good x n).1 ≠ .failed := by
  revert h
  unfold calibratedState
  split <;> (try split) <;> simp

/-- Settles O26: the answer is `calibrationTaken`, which keeps the head's state or is a change of it. -/
theorem calibrationAnswerJudged : Obligations.CalibrationAnswerJudged := by
  refine ⟨wordGood_iff, fun s h w k hw hout => ?_⟩
  have hans : answerHead h (wordSample w) s = calibrationTaken h k (w.toNat / 1024 % 1024) s := answerHead_out hout _
  refine ⟨_, (exec_headAnswer hw h s).trans (by rw [hans]), ?_⟩
  generalize w.toNat / 1024 % 1024 = level
  generalize ht : endEvent s (calibrationTaken h k level s) = t
  intro r r' lnom ga good u warm drains
  have hscu : t.scu = (calibrationTaken h k level s).scu := by rw [← ht]; simp
  have hheads : ∀ g, t.scu.heads.get g = { (if g = h then judgedRec h k level s else s.scu.heads.get g) with
      out := (t.scu.heads.get g).out, waiting := (t.scu.heads.get g).waiting } := by
    rw [hscu]
    exact calibrationTaken_head h k level s
  have hr' : r' = { judgedRec h k level s with out := r'.out, waiting := r'.waiting } := by
    have hh := hheads h
    rwa [if_pos rfl] at hh
  have hstate : r'.state = (judgedRec h k level s).state := by rw [hr']
  have hgood : calGood lnom level = good := calGood_eq lnom level
  obtain ⟨hgoods, hbads, -, hwaiting⟩ := calibratedRec_levels lnom k level { r with out := none }
  refine ⟨?_, fun hg => ?_, fun hb => ?_, ?_, fun hsame => ?_, ?_⟩
  · rw [hr', ← hgood]; rfl
  · rw [hr']; exact hgoods (hgood.trans hg)
  · rw [hr']; exact hbads (hgood.trans hb)
  · have hnext : nextSent s.trk.belt { r' with waiting := r.waiting } = nextSent s.trk.belt (judgedRec h k level s) := by
      rw [hr', ← nextSent_out _ (judgedRec h k level s) r'.out]
      exact congrArg (fun l => nextSent s.trk.belt { judgedRec h k level s with out := r'.out, waiting := l }) hwaiting.symm
    rw [hnext]
    exact calibratedIfFree_of (calibrationTaken_ifFree h k level s) rfl rfl rfl hscu (by rw [← ht]; simp) (by rw [← ht]; simp)
  · have hkept := calibrationTaken_same (hstate.symm.trans hsame.symm)
    rw [endEvent_same (by rw [hkept])] at ht
    rw [← ht]
    refine ⟨(pump_llk_only _).trans ?_, LinkKept_pump (.of_eq (by rw [hkept]))⟩
    rw [ht, hscu]
    exact congrArg (fun v : State => { v with llk := t.llk }) hkept
  · by_cases hne : r.state = r'.state
    · exact ⟨fun h' => absurd hne h', fun h' => absurd hne h', fun h' => absurd hne h', fun h' => absurd hne h'⟩
    have hmoved : (judgedRec h k level s).state ≠ r.state := fun h' => hne (hstate.trans h').symm
    obtain ⟨c, hc, hv⟩ := calibrationTaken_moved hmoved
    have hwarm : warm ↔ WarmsTo h (judgedRec h k level s).state { s with scu := c } := by
      refine and_congr_right fun _ => ⟨fun hall => ⟨hstate.symm.trans (hall h), fun g hg => ?_⟩, fun ⟨hx, hall⟩ g => ?_⟩
      · have hg' := hall g
        rw [hheads g, if_neg hg] at hg'
        exact (congrArg HeadRec.state (hc g hg)).trans hg'
      · rw [hheads g]
        split
        next => exact hx
        next hg => exact (congrArg HeadRec.state (hc g hg)).symm.trans (hall g hg)
    have hdrains : drains ↔ Degrades (judgedRec h k level s).state s := by
      rw [← hstate]
      exact and_congr_left fun _ => ⟨.inl, fun hx => hx.resolve_right (hstate ▸ calibratedState_unfailed hmoved)⟩
    have htrk : (calibrationTaken h k level s).trk = s.trk := by rw [calibrationTaken_eq]; simp [linkAnswered]
    have hmkf : (calibrationTaken h k level s).mkf = s.mkf := by rw [calibrationTaken_eq]; simp [linkAnswered]
    have hu : withScan (calibrationTaken h k level s) (setFlag .headState (.head h (judgedRec h k level s).state) s) = u := by
      show _ = { setFlag .headState (.head h r'.state) s with scu := t.scu }
      rw [withScan, htrk, hmkf, hscu, hstate]
      rfl
    rw [← hstate] at hv hwarm hdrains hu
    refine ⟨fun _ => ht ▸ headTo_headFlag hv, fun _ hw => ?_, fun _ hd => ?_, fun _ hw hd => ?_⟩
    · have hundegraded : ¬ Degrades r'.state s := fun ⟨_, _, hl⟩ => by rw [hw.1] at hl; simp at hl
      obtain ⟨heq, hmoved, hflag, hlink⟩ := headTo_end_warms hv hundegraded (hwarm.1 hw)
      rw [ht] at heq hmoved hflag hlink
      refine ⟨heq.trans ?_, hmoved, hflag, hlink⟩
      have hcnb : t.cnb = s.cnb := by rw [heq]
      rw [withHolds, hcnb, htrk, hmkf, hscu]
    · rw [← ht, ← hu]
      exact headTo_end_drains hv (hdrains.1 hd) (by rw [htrk]) (by rw [htrk])
    · rw [← hu, ← ht]
      exact headTo_end_stays hv (mt hdrains.2 hd) (mt hwarm.2 hw)

/-! ### A scan answer (O27) -/

theorem PerBuf.set_set {α : Type} (t : PerBuf α) (b : Buf) (x y : α) : (t.set b x).set b y = t.set b y := by
  cases b <;> rfl

theorem allCells_iff (l : Latched) (b : BufRec) :
    allCells l b = true ↔ ∀ g, l.usable.get g = true → l.n ≤ (b.cells.get g).length := by
  have hmem : ∀ g : Head, g ∈ Head.all := fun g => by cases g <;> decide
  simp only [allCells, List.all_eq_true, hmem, true_implies, Bool.or_eq_true, Bool.not_eq_true', decide_eq_true_eq]
  exact forall_congr' fun g => by cases l.usable.get g <;> simp

theorem awaits_iff (b : BufRec) (h : Head) (p : Pulse) : awaits b h p = true ↔
    b.phase = .filling ∧ b.letter = some p.letter ∧ b.lost.get h = none ∧ (b.cells.get h).length = p.cell := by
  simp [awaits, and_assoc]

/-- The item of the work list that the scan in a buffer becomes (R53). -/
def workItem (b : Buf) (n : LetterNo) (s : State) : WorkItem where
  buf := b
  letter := n
  time := s.now

section
variable {b : Buf} {n : LetterNo} {l : Latched} {e : Entry} {s : State} (hc : ScanComplete s b n l) (he : s.entry? n = some e)
include hc he

/-- A scan completed while a computation runs waits for it (R49, R53). -/
theorem checkComplete_waits (hs : s.mkf.slot ≠ none) : checkComplete b s =
    { withEntry n { e with scan := .waiting } s with
      scu := { s.scu with bufs := s.scu.bufs.set b { s.scu.bufs.get b with phase := .waiting } }
      mkf := { s.mkf with work := s.mkf.work ++ [workItem b n s] } } := by
  rw [checkComplete_complete hc, takeUp_busy (s := scanJoined b n s) (.inl hs),
    ← updEntry_eq_withEntry (fun e => { e with scan := .waiting }) he]
  rfl

/-- A scan completed with the computing slot empty is taken up at once (R53). -/
theorem checkComplete_taken (hs : s.mkf.slot = none) (hw : s.mkf.work = []) : checkComplete b s =
    { withEntry n { e with scan := .computing } s with
      scu := { s.scu with bufs := s.scu.bufs.set b { s.scu.bufs.get b with phase := .computing } }
      mkf := { s.mkf with slot := some { buf := b, letter := n, time := s.now, params := some l } } } := by
  obtain ⟨-, -, hl, -⟩ := id hc
  have hwork : (scanJoined b n s).mkf.work = [workItem b n s] := congrArg (· ++ [workItem b n s]) hw
  have hentry : (scanJoined b n s).entry? n = some { e with scan := .waiting } := by
    have h := entry_upd n n (fun e => { e with scan := .waiting }) (fun _ => rfl) s
    rw [if_pos rfl, he] at h
    exact h
  have hparams : ((scanJoined b n s).entry? n).bind (·.latched) = some l := by
    rw [he] at hl
    rw [hentry]
    exact hl
  have hitem : slotItem (scanJoined b n s) (workItem b n s) = { buf := b, letter := n, time := s.now, params := some l } :=
    congrArg (fun q => ({ buf := b, letter := n, time := s.now, params := q } : SlotItem)) hparams
  have htwice := updEntry_updEntry (n := n) (f := fun e => { e with scan := .waiting }) (g := fun e => { e with scan := .computing })
    (fun _ => rfl) s
  rw [checkComplete_complete hc, takeUp_next (s := scanJoined b n s) hs hwork, hitem,
    ← updEntry_eq_withEntry (fun e => { e with scan := .computing }) he]
  have htrk : (updEntry n (fun e => { e with scan := .computing }) (updEntry n (fun e => { e with scan := .waiting }) s)).trk =
      (updEntry n (fun e => { e with scan := .computing }) s).trk := congrArg State.trk htwice
  have hbufs : (s.scu.bufs.upd b fun r => { r with phase := .waiting }).upd b (fun r => { r with phase := .computing }) =
      s.scu.bufs.set b { s.scu.bufs.get b with phase := .computing } := by
    cases b <;> rfl
  have hmkf : ({ s.mkf with
      work := [], slot := some { buf := b, letter := n, time := s.now, params := some l } } : Mkf) =
      { s.mkf with slot := some { buf := b, letter := n, time := s.now, params := some l } } := by
    rw [← hw]
  exact congr (congr (congrArg (fun k x m => ({ s with trk := k, scu := { s.scu with bufs := x }, mkf := m } : State)) htrk) hbufs)
    hmkf

end

/-- The head records after the answer to an outstanding pulse (R36, R48). -/
def headsAnswered (h : Head) (s : State) : PerHead HeadRec :=
  s.scu.heads.set h (nextSent s.trk.belt (s.scu.heads.get h))

/-- A state with other head records. -/
def withHeads (l : PerHead HeadRec) (s : State) : State :=
  { s with scu := { s.scu with heads := l } }

/-- The next waiting pulse is sent on the link of the answered head (R36). -/
theorem updHead_linkAnswered {h : Head} {s t : State} (ht : t.scu.heads = (linkAnswered h s).scu.heads) :
    updHead h (sendNext s.trk.belt) t = withHeads (headsAnswered h s) t := by
  have hset : t.scu.heads.upd h (sendNext s.trk.belt) = headsAnswered h s := by
    have htwice := updHead_updHead h (sendNext s.trk.belt) (fun r => { r with out := none }) s
    rw [ht, headsAnswered, ← nextSent_out _ _ none, ← sendNext_idle (by rfl)]
    exact congrArg (fun u : State => u.scu.heads) htwice
  rw [withHeads, ← hset]
  rfl

/-- An answer other than a calibration's: the next pulse, and a calibration that is due, at the end of the event (R36, R41). -/
theorem answer_end {h : Head} {o : Outstanding} {v : Sample} {s y : State} (ho : (s.scu.heads.get h).out = some o)
    (hy : y = withHeads (headsAnswered h s) (answerTaken h o v s)) (hheads : (answerTaken h o v s).scu.heads = (linkAnswered h s).scu.heads)
    (hf : y.flc = s.flc) (hl : y.llk = s.llk) :
    let t := endEvent s (answerHead h v s)
    (t = { y with scu := t.scu, llk := t.llk } ∧ CalibratedIfFree y t) ∧ LinkKept [] s t := by
  have ha : answerHead h v s = tryCalibrate y := by
    rw [answerHead_out ho, answerTaken_belt, updHead_linkAnswered hheads, ← hy]
  have hc := tryCalibrate_scu y
  have hend : endEvent s (tryCalibrate y) = pump (tryCalibrate y) := endEvent_same (by rw [hc, hf])
  have hpump := pump_llk_only (tryCalibrate y)
  intro t
  have ht : t = pump (tryCalibrate y) := (congrArg (endEvent s) ha).trans hend
  rw [ht]
  refine ⟨⟨hpump.trans ?_, ?_⟩, LinkKept_pump (.of_eq (by rw [hc, hl]))⟩
  · have hscu : (pump (tryCalibrate y)).scu = (tryCalibrate y).scu := by rw [hpump]
    rw [hscu]
    exact congrArg (fun u : State => { u with llk := (pump (tryCalibrate y)).llk }) hc
  · exact calibratedIfFree_of (tryCalibrate_ifFree rfl rfl rfl) rfl rfl rfl (by rw [hpump]) (by rw [hpump]) (by rw [hpump])

/-- The state in which the answer to a scan pulse has been written to the buffer that awaits it (R49). -/
def scanWritten (h : Head) (p : Pulse) (v : Sample) (s : State) : State :=
  updBuf p.buf (fun r => { r with cells := r.cells.upd h (· ++ [v]) }) (linkAnswered h s)

section
variable {h : Head} {p : Pulse} {v : Sample} {s : State}

theorem scanWritten_buf : (scanWritten h p v s).scu.bufs.get p.buf =
    { s.scu.bufs.get p.buf with
      cells := (s.scu.bufs.get p.buf).cells.set h (((s.scu.bufs.get p.buf).cells.get h) ++ [v]) } := by
  rw [scanWritten, updBuf_get, if_pos rfl]
  rfl

/-- The scan complete, in the buffer just written (R49). -/
theorem scanWritten_complete {n : LetterNo} {l : Latched} (hn : (s.scu.bufs.get p.buf).letter = some p.letter) :
    ScanComplete (scanWritten h p v s) p.buf n l ↔ n = p.letter ∧ (s.scu.bufs.get p.buf).phase = .filling ∧
      (s.entry? p.letter).bind (·.latched) = some l ∧ ∀ g, l.usable.get g = true →
        l.n ≤ (((s.scu.bufs.get p.buf).cells.set h (((s.scu.bufs.get p.buf).cells.get h) ++ [v])).get g).length := by
  rw [ScanComplete, scanWritten_buf, allCells_iff]
  show _ ∧ (s.scu.bufs.get p.buf).letter = some n ∧ (s.entry? n).bind (·.latched) = some l ∧ _ ↔ _
  rw [hn]
  constructor
  · rintro ⟨hp, hl, he, hc⟩
    cases hl
    exact ⟨rfl, hp, he, hc⟩
  · rintro ⟨rfl, hp, he, hc⟩
    exact ⟨hp, rfl, he, hc⟩

end

/-- Settles O27: what the answer brings to the buffer, by whether it is awaited and whether it is the last. -/
theorem scanAnswerWritten : Obligations.ScanAnswerWritten := by
  intro s h w r heads left
  refine ⟨fun hw => congrArg Host.Outcome.next (if_neg (by simp [hw])), fun hout => ?_, fun k hw hout => ?_, fun p k hw hout => ?_⟩
  · by_cases hw : wordGood w = true
    · have hans : answerHead h (wordSample w) s = s := by
        have hnone : (s.scu.heads.get h).out = none := hout
        rw [answerHead, hnone]
      refine ⟨_, exec_headAnswer hw h s, ?_⟩
      rw [hans, endEvent_same rfl]
      exact ⟨pump_llk_only s, pump_kept [] s⟩
    · exact ⟨s, congrArg Host.Outcome.next (if_neg hw), rfl, .of_eq rfl⟩
  · exact ⟨_, exec_headAnswer hw h s, answer_end hout rfl rfl rfl rfl⟩
  · refine ⟨_, exec_headAnswer hw h s, ?_⟩
    intro v b awaited cells done
    have hframe := scanAnswer_frame h p v (linkAnswered h s)
    obtain ⟨hleft, hlink⟩ := answer_end (v := v) (y := withHeads (headsAnswered h s) (scanAnswer h p v (linkAnswered h s))) hout rfl
      (show (scanAnswer h p v (linkAnswered h s)).scu.heads = _ by simp)
      (show (scanAnswer h p v (linkAnswered h s)).flc = s.flc by simp [linkAnswered])
      (show (scanAnswer h p v (linkAnswered h s)).llk = s.llk by simp [linkAnswered])
    have hwritten : awaited → scanAnswer h p v (linkAnswered h s) = checkComplete p.buf (scanWritten h p v s) :=
      fun ha => if_pos ((awaits_iff _ h p).2 ha)
    have hcomplete : ∀ l, awaited → done l → ScanComplete (scanWritten h p v s) p.buf p.letter l :=
      fun l ⟨hp, hn, _⟩ ⟨hl, hd⟩ => (scanWritten_complete hn).2 ⟨rfl, hp, hl, hd⟩
    have hbufs : ∀ x, (scanWritten h p v s).scu.bufs.set p.buf x = s.scu.bufs.set p.buf x := PerBuf.set_set _ _ _
    refine ⟨hlink, fun ha => ?_, fun ha hd => ?_, fun l e ha hd he hw hs => ?_, fun l e ha hd he hs => ?_⟩
    · have hnot : scanAnswer h p v (linkAnswered h s) = linkAnswered h s := if_neg (mt (awaits_iff _ h p).1 ha)
      rw [hnot] at hleft
      exact hleft
    · rw [hwritten ha, checkComplete_incomplete fun n l hc => ?_] at hleft
      · exact hleft
      · obtain ⟨-, -, hl, hc⟩ := (scanWritten_complete ha.2.1).1 hc
        exact hd l ⟨hl, hc⟩
    · rw [hwritten ha, checkComplete_taken (hcomplete l ha hd) he hs hw, scanWritten_buf, hbufs] at hleft
      exact hleft
    · rw [hwritten ha, checkComplete_waits (hcomplete l ha hd) he hs, scanWritten_buf, hbufs] at hleft
      exact hleft

end Sys2Proof.Proofs
end

