-- ==== Sys2Proof/Proofs/HeadFailures.lean ====
section
/-! PROOF. A head that fails (O28): the scans that lose it, those of them that this completes, and what its change of state brings. -/

namespace Sys2Proof.Proofs

open Sys2Proof Sys2Proof.Machine Sys2Proof.Safety Sys2Proof.Laws

/-! ### What one scan loses (R49) -/

/-- The letter of the scan in a buffer and its latched parameters, where the head is lost to that scan (R49; log entry 50). -/
def losing (h : Head) (s : State) (b : Buf) : Option (LetterNo × Latched) :=
  let r := s.scu.bufs.get b
  match r.phase, r.letter with
  | .filling, some n =>
    match (s.entry? n).bind (·.latched) with
    | some l => if l.usable.get h && decide ((r.cells.get h).length < l.n) then some (n, l) else none
    | none => none
  | _, _ => none

/-- A buffer whose scan has lost a head: the unanswered cells written as 0, the first of them recorded (R49). -/
def withLost (h : Head) (l : Latched) (r : BufRec) : BufRec :=
  let got := (r.cells.get h).length
  { r with
    cells := r.cells.upd h (· ++ List.replicate (l.n - got) { gp := 0, ga := 0, rp := 0 })
    lost := r.lost.set h (some got) }

/-- A buffer after a head has been lost to its scan, or not, its phase apart. -/
def lostBuf (h : Head) (s : State) (b : Buf) : BufRec :=
  match losing h s b with
  | some (_, l) => withLost h l (s.scu.bufs.get b)
  | none => s.scu.bufs.get b

/-- The item that joins the work list where the loss completes a scan (R49, R53). -/
def lostItem (h : Head) (s : State) (b : Buf) : Option WorkItem :=
  match losing h s b with
  | some (n, l) => if allCells l (withLost h l (s.scu.bufs.get b)) then some (workItem b n s) else none
  | none => none

section
variable {h : Head} {b : Buf} {s t : State} {n : LetterNo} {l : Latched}

theorem losing_some : losing h s b = some (n, l) ↔
    (s.scu.bufs.get b).phase = .filling ∧ (s.scu.bufs.get b).letter = some n ∧ (s.entry? n).bind (·.latched) = some l ∧
      l.usable.get h = true ∧ ((s.scu.bufs.get b).cells.get h).length < l.n := by
  unfold losing
  dsimp only
  split
  next m hp hm =>
    simp only [hp, hm, true_and, Option.some.injEq]
    split
    next k hk =>
      split
      next hif =>
        simp only [Bool.and_eq_true, decide_eq_true_eq] at hif
        simp only [Option.some.injEq, Prod.mk.injEq]
        constructor
        · rintro ⟨rfl, rfl⟩; exact ⟨rfl, hk, hif⟩
        · rintro ⟨rfl, he, -⟩
          rw [hk] at he
          exact ⟨rfl, Option.some.inj he⟩
      next hif =>
        simp only [Bool.and_eq_true, decide_eq_true_eq] at hif
        refine ⟨(nofun), ?_⟩
        rintro ⟨rfl, he, hx⟩
        rw [hk] at he
        cases he
        exact absurd hx hif
    next hk =>
      refine ⟨(nofun), ?_⟩
      rintro ⟨rfl, he, -⟩
      rw [hk] at he
      cases he
  next hno => exact ⟨(nofun), fun ⟨hp, hn, _⟩ => absurd hn (hno n hp)⟩

theorem losing_congr (hb : t.scu.bufs.get b = s.scu.bufs.get b)
    (he : ∀ n, (t.entry? n).bind (·.latched) = (s.entry? n).bind (·.latched)) : losing h t b = losing h s b := by
  refine Option.ext fun ⟨n, l⟩ => ?_
  rw [losing_some, losing_some, hb, he]

theorem loseHead_losing (hl : losing h s b = some (n, l)) : loseHead h b s = checkComplete b (updBuf b (withLost h l) s) := by
  obtain ⟨hp, hn, he, hu, hlen⟩ := losing_some.1 hl
  simp only [loseHead, hp, hn, he, hu, hlen, decide_true, Bool.and_self, if_true]
  rfl

theorem loseHead_unlosing (hl : losing h s b = none) : loseHead h b s = s := by
  unfold losing at hl
  unfold loseHead
  dsimp only at hl ⊢
  split
  next n hp hn =>
    simp only [hp, hn] at hl
    split
    next l he =>
      simp only [he] at hl
      split
      next hif => rw [if_pos hif] at hl; cases hl
      next => rfl
    next => rfl
  next => rfl

theorem lostItem_some {i : WorkItem} (hi : lostItem h s b = some i) :
    ∃ l, losing h s b = some (i.letter, l) ∧ allCells l (withLost h l (s.scu.bufs.get b)) = true ∧ i = workItem b i.letter s := by
  unfold lostItem at hi
  split at hi
  next n l hl =>
    split at hi
    next hc =>
      cases hi
      exact ⟨l, hl, hc, rfl⟩
    next => cases hi
  next => cases hi

theorem lostItem_of (hl : losing h s b = some (n, l)) (hc : allCells l (withLost h l (s.scu.bufs.get b)) = true) :
    lostItem h s b = some (workItem b n s) := by
  simp only [lostItem, hl, hc, if_true]

theorem lostItem_buf {i : WorkItem} (hi : lostItem h s b = some i) : i.buf = b := by
  obtain ⟨l, -, -, he⟩ := lostItem_some hi
  rw [he]
  rfl

/-- A loss completes a scan whose other heads have answered every cell (R49). -/
theorem allCells_withLost {r : BufRec} (hlen : (r.cells.get h).length < l.n) :
    allCells l (withLost h l r) = true ↔ ∀ g, l.usable.get g = true → g = h ∨ l.n ≤ (r.cells.get g).length := by
  rw [allCells_iff]
  refine forall_congr' fun g => imp_congr_right fun _ => ?_
  by_cases hg : g = h
  · subst hg
    have hget : (withLost g l r).cells.get g =
        r.cells.get g ++ List.replicate (l.n - (r.cells.get g).length) { gp := 0, ga := 0, rp := 0 } := PerHead.get_upd_self _ _ _
    rw [hget, List.length_append, List.length_replicate]
    simp only [true_or, iff_true]
    omega
  · have hget : (withLost h l r).cells.get g = r.cells.get g := PerHead.get_upd_ne _ _ (Ne.symm hg)
    rw [hget]
    simp [hg]

end

/-! ### Where the completed scans stand (R53) -/

/-- Where a scan stands among those that a failure completes: none of them, waiting in the work list, or taken up. -/
inductive Standing where
  | none | waiting | computing

/-- The standing of the scan with the key `k`, the completed scans having the keys `ks` and the computing slot being free or not before. -/
def standing {κ : Type} [DecidableEq κ] (free : Bool) (ks : List κ) (k : κ) : Standing :=
  if free = true ∧ ks.head? = some k then .computing else if k ∈ ks then .waiting else .none

/-- The phase of a buffer by the standing of its scan. -/
def Standing.phase (p : BufPhase) : Standing → BufPhase
  | .none => p
  | .waiting => .waiting
  | .computing => .computing

/-- The scan state of an entry by the standing of its scan. -/
def Standing.scan (x : ScanState) : Standing → ScanState
  | .none => x
  | .waiting => .waiting
  | .computing => .computing

section
variable {κ : Type} [DecidableEq κ] {free : Bool} {ks : List κ} {k x : κ}

theorem standing_absent (hk : k ∉ ks) : standing free ks k = .none := by
  have hhead : ks.head? ≠ some k := fun h => hk (List.mem_of_mem_head? h)
  rw [standing, if_neg fun h => hhead h.2, if_neg hk]

theorem standing_append_ne (hk : k ≠ x) : standing free (ks ++ [x]) k = standing free ks k := by
  cases ks with
  | nil => simp [standing, hk, Ne.symm hk]
  | cons y ys => simp [standing, hk]

theorem standing_append_self (hx : x ∉ ks) :
    standing free (ks ++ [x]) x = if free = true ∧ ks = [] then .computing else .waiting := by
  cases ks with
  | nil => simp [standing]
  | cons y ys =>
    have hy : y ≠ x := fun h => hx (h ▸ List.mem_cons_self)
    simp [standing, hy]

end

/-- The Mark Finder after the scans `items` have been completed in turn (R53). -/
def mkfJoined (items : List WorkItem) (s : State) : Mkf :=
  match s.mkf.slot, items with
  | none, i :: rest => { s.mkf with work := rest, slot := some (slotItem s i) }
  | none, [] => s.mkf
  | some _, _ => { s.mkf with work := s.mkf.work ++ items }

theorem mkfJoined_busy {items : List WorkItem} {s : State} (hs : s.mkf.slot ≠ none) :
    mkfJoined items s = { s.mkf with work := s.mkf.work ++ items } := by
  unfold mkfJoined
  split
  next h => exact absurd h hs
  next h => exact absurd h hs
  next => rfl

theorem mkfJoined_nil (s : State) : mkfJoined [] s = s.mkf := by
  unfold mkfJoined
  split
  next h => cases h
  next => rfl
  next => exact congrArg (fun w => { s.mkf with work := w }) (List.append_nil _)

theorem mkfJoined_free {i : WorkItem} {rest : List WorkItem} {s : State} (hs : s.mkf.slot = none) :
    mkfJoined (i :: rest) s = { s.mkf with work := rest, slot := some (slotItem s i) } := by
  unfold mkfJoined
  split
  next h => cases h; rfl
  next h => cases h
  next h => rw [hs] at h; cases h

/-- The items of the scans that are completed in the buffers `bs`. -/
def lostItems (h : Head) (s : State) (bs : List Buf) : List WorkItem :=
  bs.filterMap (lostItem h s)

section
variable {h : Head} {s : State} {bs : List Buf}

theorem mem_lostItems {i : WorkItem} : i ∈ lostItems h s bs ↔ i.buf ∈ bs ∧ lostItem h s i.buf = some i := by
  rw [lostItems, List.mem_filterMap]
  constructor
  · rintro ⟨b, hb, hi⟩
    rw [lostItem_buf hi]
    exact ⟨hb, hi⟩
  · exact fun ⟨hb, hi⟩ => ⟨_, hb, hi⟩

theorem lostItems_append (b : Buf) : lostItems h s (bs ++ [b]) = lostItems h s bs ++ (lostItem h s b).toList := by
  rw [lostItems, List.filterMap_append]
  refine congrArg (_ ++ ·) ?_
  cases hi : lostItem h s b <;> simp [hi]

theorem lostItems_unlisted {b : Buf} (hb : b ∉ bs) : b ∉ (lostItems h s bs).map (·.buf) := by
  intro hm
  obtain ⟨i, hi, rfl⟩ := List.mem_map.1 hm
  exact hb (mem_lostItems.1 hi).1

end

/-- An entry without its scan state. -/
def unscanned (e : Entry) : Entry :=
  { e with scan := .none }

theorem map_updTable {α : Type} {n : LetterNo} {f : Entry → Entry} {g : Entry → α} (hg : ∀ e, g (f e) = g e) (l : List Entry) :
    (updTable n f l).map g = l.map g := by
  induction l with
  | nil => rfl
  | cons e l ih =>
    unfold updTable
    split
    · rw [List.map_cons, List.map_cons, hg]
    · rw [List.map_cons, List.map_cons, ih]

/-- The scans in the buffers `bs` have lost the head, those that this completed having joined the work list in that order. -/
structure ScansLost (h : Head) (bs : List Buf) (s t : State) : Prop where
  rest   : t = { s with trk := { s.trk with table := t.trk.table }, scu := { s.scu with bufs := t.scu.bufs }, mkf := t.mkf }
  done   : ∀ b ∈ bs, t.scu.bufs.get b = { lostBuf h s b with
    phase := (standing s.mkf.slot.isNone ((lostItems h s bs).map (·.buf)) b).phase (s.scu.bufs.get b).phase }
  todo   : ∀ b, b ∉ bs → t.scu.bufs.get b = s.scu.bufs.get b
  marks  : t.mkf = mkfJoined (lostItems h s bs) s
  table  : t.trk.table.map unscanned = s.trk.table.map unscanned
  letter : ∀ n, t.entry? n = (s.entry? n).map fun e => { e with
    scan := (standing s.mkf.slot.isNone ((lostItems h s bs).map (·.letter)) n).scan e.scan }

theorem scansLost_none (h : Head) (s : State) : ScansLost h [] s s where
  rest := rfl
  done := nofun
  todo _ _ := rfl
  marks := (mkfJoined_nil s).symm
  table := rfl
  letter n := by
    have hstand : standing s.mkf.slot.isNone ((lostItems h s []).map (·.letter)) n = .none := standing_absent (by simp [lostItems])
    rw [hstand]
    exact Option.map_id'.symm

/-- A buffer's change within the area of a loss. -/
theorem updBuf_area {s t : State}
    (ht : t = { s with trk := { s.trk with table := t.trk.table }, scu := { s.scu with bufs := t.scu.bufs }, mkf := t.mkf })
    (b : Buf) (f : BufRec → BufRec) : updBuf b f t = { s with
      trk := { s.trk with table := t.trk.table }, scu := { s.scu with bufs := t.scu.bufs.upd b f }, mkf := t.mkf } :=
  congrArg (fun u : State => { u with scu := { u.scu with bufs := t.scu.bufs.upd b f } }) ht

section
variable {h : Head} {bs : List Buf} {b : Buf} {s t : State} (hl : ScansLost h bs s t) (hb : b ∉ bs)
include hl

theorem ScansLost.latched (n : LetterNo) : (t.entry? n).bind (·.latched) = (s.entry? n).bind (·.latched) := by
  rw [hl.letter]
  cases s.entry? n <;> rfl

theorem ScansLost.slot : t.mkf.slot = none ↔ s.mkf.slot = none ∧ lostItems h s bs = [] := by
  rw [hl.marks]
  by_cases hs : s.mkf.slot = none
  · cases hi : lostItems h s bs with
    | nil => simp [mkfJoined_nil, hs]
    | cons i rest => simp [mkfJoined_free hs]
  · rw [mkfJoined_busy hs]
    simp [hs]

include hb

theorem ScansLost.losing : Proofs.losing h t b = Proofs.losing h s b :=
  losing_congr (hl.todo b hb) hl.latched

/-- A buffer whose scan is not completed. -/
theorem ScansLost.incomplete (hi : lostItem h s b = none) : ScansLost h (bs ++ [b]) s (updBuf b (fun _ => lostBuf h s b) t) := by
  have hitems : lostItems h s (bs ++ [b]) = lostItems h s bs := by rw [lostItems_append, hi, Option.toList_none, List.append_nil]
  refine ⟨updBuf_area hl.rest _ _, fun d hd => ?_, fun d hd => ?_, ?_, hl.table, fun n => ?_⟩
  · rw [updBuf_get, hitems]
    split
    next hdb =>
      subst hdb
      rw [standing_absent (lostItems_unlisted hb)]
      unfold lostBuf
      split <;> rfl
    next hdb => exact hl.done d ((List.mem_append.1 hd).resolve_right (by simpa using hdb))
  · rw [List.mem_append, not_or, List.mem_singleton] at hd
    rw [updBuf_get, if_neg hd.2, hl.todo d hd.1]
  · rw [hitems]; exact hl.marks
  · rw [hitems]; exact hl.letter n

/-- A buffer whose scan is completed: it joins the work list, or the empty computing slot. -/
theorem ScansLost.joined {i : WorkItem} (hi : lostItem h s b = some i) (hfresh : i.letter ∉ (lostItems h s bs).map (·.letter))
    {st : Standing} (hst : st = if s.mkf.slot.isNone = true ∧ lostItems h s bs = [] then .computing else .waiting) :
    ScansLost h (bs ++ [b]) s { updEntry i.letter (fun e => { e with scan := st.scan e.scan }) t with
      scu := { t.scu with bufs := t.scu.bufs.set b { lostBuf h s b with phase := st.phase (s.scu.bufs.get b).phase } }
      mkf := mkfJoined (lostItems h s bs ++ [i]) s } := by
  have hitems : lostItems h s (bs ++ [b]) = lostItems h s bs ++ [i] := by rw [lostItems_append, hi, Option.toList_some]
  have hbuf : i.buf = b := lostItem_buf hi
  have hbufs : (lostItems h s (bs ++ [b])).map (·.buf) = (lostItems h s bs).map (·.buf) ++ [b] := by
    rw [hitems, List.map_append, List.map_singleton, hbuf]
  have hletters : (lostItems h s (bs ++ [b])).map (·.letter) = (lostItems h s bs).map (·.letter) ++ [i.letter] := by
    rw [hitems, List.map_append, List.map_singleton]
  have hunlisted := lostItems_unlisted (h := h) (s := s) hb
  constructor
  case rest => exact congrArg (fun u : State => { updEntry i.letter (fun e => { e with scan := st.scan e.scan }) u with
    scu := { u.scu with bufs := t.scu.bufs.set b { lostBuf h s b with phase := st.phase (s.scu.bufs.get b).phase } }
    mkf := mkfJoined (lostItems h s bs ++ [i]) s }) hl.rest
  case done =>
    intro d hd
    show (t.scu.bufs.set b _).get d = _
    rw [PerBuf.get_set, hbufs]
    split
    next hdb =>
      subst hdb
      rw [standing_append_self hunlisted, hst]
      simp only [List.map_eq_nil_iff]
    next hdb =>
      rw [standing_append_ne hdb]
      exact hl.done d ((List.mem_append.1 hd).resolve_right (by simpa using hdb))
  case todo =>
    intro d hd
    rw [List.mem_append, not_or, List.mem_singleton] at hd
    show (t.scu.bufs.set b _).get d = _
    rw [PerBuf.get_set, if_neg hd.2, hl.todo d hd.1]
  case marks => rw [hitems]
  case table =>
    refine Eq.trans ?_ hl.table
    exact map_updTable (n := i.letter) (f := fun e => { e with scan := st.scan e.scan }) (fun _ => rfl) t.trk.table
  case letter =>
    intro n
    have hent := entry_upd i.letter n (fun e => { e with scan := st.scan e.scan }) (fun _ => rfl) t
    refine Eq.trans hent ?_
    rw [hletters]
    split
    next hn =>
      subst hn
      rw [standing_append_self hfresh, hl.letter, standing_absent hfresh, hst]
      simp only [List.map_eq_nil_iff]
      cases s.entry? i.letter <;> rfl
    next hn => rw [standing_append_ne hn, hl.letter]

/-- A loss that completes a scan is the joining of its item. -/
theorem ScansLost.completes {n : LetterNo} {l : Latched} (hw : s.mkf.slot = none → s.mkf.work = [])
    (hi : lostItem h s b = some (workItem b n s)) (hfresh : n ∉ (lostItems h s bs).map (·.letter))
    (he : (s.entry? n).bind (·.latched) = some l) (hc : ScanComplete (updBuf b (fun _ => lostBuf h s b) t) b n l) :
    ScansLost h (bs ++ [b]) s (checkComplete b (updBuf b (fun _ => lostBuf h s b) t)) := by
  obtain ⟨e, hse⟩ : ∃ e, s.entry? n = some e := by
    cases hs : s.entry? n with
    | none => rw [hs] at he; cases he
    | some e => exact ⟨e, rfl⟩
  have hentry : (updBuf b (fun _ => lostBuf h s b) t).entry? n = some e := by
    refine (hl.letter n).trans ?_
    rw [standing_absent hfresh, hse]
    rfl
  have hget : (updBuf b (fun _ => lostBuf h s b) t).scu.bufs.get b = lostBuf h s b := by rw [updBuf_get, if_pos rfl]
  have hset : ∀ x, (updBuf b (fun _ => lostBuf h s b) t).scu.bufs.set b x = t.scu.bufs.set b x := PerBuf.set_set _ _ _
  have hnow : t.now = s.now := by rw [hl.rest]
  by_cases hslot : t.mkf.slot = none
  · obtain ⟨hs, hnil⟩ := hl.slot.1 hslot
    have hmarks : t.mkf = s.mkf := by rw [hl.marks, hnil, mkfJoined_nil]
    have hitem : slotItem s (workItem b n s) = { buf := b, letter := n, time := t.now, params := some l } := by
      rw [hnow, ← he]; rfl
    have hmkf : ({ t.mkf with slot := some { buf := b, letter := n, time := t.now, params := some l } } : Mkf) =
        mkfJoined (lostItems h s bs ++ [workItem b n s]) s := by
      rw [hmarks, hnil, List.nil_append, mkfJoined_free hs, hitem]
      exact congrArg (fun w => { s.mkf with
        work := w, slot := some { buf := b, letter := n, time := t.now, params := some l } }) (hw hs)
    have hjoined := hl.joined hb hi hfresh (st := .computing) (by rw [if_pos ⟨by rw [hs]; rfl, hnil⟩])
    rw [checkComplete_taken hc hentry hslot ((congrArg Mkf.work hmarks).trans (hw hs)), hget, hset,
      ← updEntry_eq_withEntry (fun e => { e with scan := .computing }) hentry]
    rw [← hmkf] at hjoined
    exact hjoined
  · have hmkf : ({ t.mkf with work := t.mkf.work ++ [workItem b n t] } : Mkf) = mkfJoined (lostItems h s bs ++ [workItem b n s]) s := by
      have hitem : workItem b n t = workItem b n s := congrArg (fun x => ({ buf := b, letter := n, time := x } : WorkItem)) hnow
      rw [hitem, hl.marks]
      by_cases hs : s.mkf.slot = none
      · cases hx : lostItems h s bs with
        | nil => exact absurd (hl.slot.2 ⟨hs, hx⟩) hslot
        | cons i rest =>
          rw [List.cons_append, mkfJoined_free hs, mkfJoined_free hs]
      · rw [mkfJoined_busy hs, mkfJoined_busy hs, List.append_assoc]
    have hjoined := hl.joined hb hi hfresh (st := .waiting) (by
      rw [if_neg]
      rintro ⟨hs, hnil⟩
      exact hslot (hl.slot.2 ⟨Option.isNone_iff_eq_none.1 hs, hnil⟩))
    rw [checkComplete_waits hc hentry hslot, hget, hset, ← updEntry_eq_withEntry (fun e => { e with scan := .waiting }) hentry]
    rw [← hmkf] at hjoined
    exact hjoined

/-- The scan of one more buffer has lost the head. -/
theorem ScansLost.step (hw : s.mkf.slot = none → s.mkf.work = [])
    (hfresh : ∀ i, lostItem h s b = some i → i.letter ∉ (lostItems h s bs).map (·.letter)) :
    ScansLost h (bs ++ [b]) s (loseHead h b t) := by
  cases hx : Proofs.losing h s b with
  | none =>
    have hitem : lostItem h s b = none := by simp only [lostItem, hx]
    have hsame : updBuf b (fun _ => lostBuf h s b) t = t := by
      have hbuf : lostBuf h s b = t.scu.bufs.get b := by rw [hl.todo b hb]; simp only [lostBuf, hx]
      rw [hbuf]
      cases b <;> rfl
    rw [loseHead_unlosing ((hl.losing hb).trans hx), ← hsame]
    exact hl.incomplete hb hitem
  | some nl =>
    obtain ⟨n, l⟩ := nl
    obtain ⟨hp, hn, he, -, -⟩ := losing_some.1 hx
    have hbuf : lostBuf h s b = withLost h l (t.scu.bufs.get b) := by rw [hl.todo b hb]; simp only [lostBuf, hx]
    have hz : updBuf b (withLost h l) t = updBuf b (fun _ => lostBuf h s b) t := by rw [hbuf]; rfl
    have hget : (updBuf b (fun _ => lostBuf h s b) t).scu.bufs.get b = lostBuf h s b := by rw [updBuf_get, if_pos rfl]
    have hphase : (lostBuf h s b).phase = .filling := by rw [hbuf, hl.todo b hb]; exact hp
    have hletter : (lostBuf h s b).letter = some n := by rw [hbuf, hl.todo b hb]; exact hn
    rw [loseHead_losing ((hl.losing hb).trans hx), hz]
    by_cases hc : allCells l (lostBuf h s b) = true
    · have hi : lostItem h s b = some (workItem b n s) := lostItem_of hx (by rw [← hl.todo b hb, ← hbuf]; exact hc)
      have hscan : ScanComplete (updBuf b (fun _ => lostBuf h s b) t) b n l :=
        ⟨by rw [hget]; exact hphase, by rw [hget]; exact hletter, (hl.latched n).trans he, by rw [hget]; exact hc⟩
      exact hl.completes hb hw hi (hfresh _ hi) he hscan
    · have hi : lostItem h s b = none := by
        simp only [lostItem, hx]
        rw [if_neg]
        rw [← hl.todo b hb, ← hbuf]; exact hc
      rw [checkComplete_incomplete]
      · exact hl.incomplete hb hi
      · rintro m k ⟨-, hm, hk, hck⟩
        rw [hget] at hm hck
        cases hletter.symm.trans hm
        cases he.symm.trans ((hl.latched n).symm.trans hk)
        exact hc hck

end

/-! ### Every scan loses the head (R49) -/

/-- No two buffers are filling for the same letter (R46). -/
def ScansApart (s : State) : Prop :=
  ∀ b d n, (s.scu.bufs.get b).phase = .filling → (s.scu.bufs.get d).phase = .filling → (s.scu.bufs.get b).letter = some n →
    (s.scu.bufs.get d).letter = some n → b = d

/-- Every scan in progress loses the head, in the order of the buffers (R49; log entry 20). -/
def loseScans (h : Head) (s : State) : State :=
  loseHead h .b2 (loseHead h .b1 (loseHead h .b0 s))

theorem ScansApart.fresh {h : Head} {s : State} {bs : List Buf} {b : Buf} (ha : ScansApart s) (hb : b ∉ bs) :
    ∀ i, lostItem h s b = some i → i.letter ∉ (lostItems h s bs).map (·.letter) := by
  intro i hi hm
  obtain ⟨j, hj, hletter⟩ := List.mem_map.1 hm
  obtain ⟨hjb, hji⟩ := mem_lostItems.1 hj
  obtain ⟨_, hli, -⟩ := lostItem_some hi
  obtain ⟨_, hlj, -⟩ := lostItem_some hji
  obtain ⟨hpi, hni, -⟩ := losing_some.1 hli
  obtain ⟨hpj, hnj, -⟩ := losing_some.1 hlj
  rw [hletter] at hnj
  exact hb (ha b j.buf i.letter hpi hpj hni hnj ▸ hjb)

theorem loseScans_lost {h : Head} {s : State} (hw : s.mkf.slot = none → s.mkf.work = []) (ha : ScansApart s) :
    ScansLost h [.b0, .b1, .b2] s (loseScans h s) := by
  have h0 := (scansLost_none h s).step (b := .b0) (by decide) hw (ha.fresh (by decide))
  have h1 := h0.step (b := .b1) (by decide) hw (ha.fresh (by decide))
  exact h1.step (b := .b2) (by decide) hw (ha.fresh (by decide))

/-- The scans look at the buffers, the entries, the Mark Finder and the clock only. -/
theorem ScansLost.of_scan {h : Head} {bs : List Buf} {s s' t : State} (hl : ScansLost h bs s t) (hb : s'.scu.bufs = s.scu.bufs)
    (ht : s'.trk = s.trk) (hm : s'.mkf = s.mkf) (hn : s'.now = s.now) :
    ScansLost h bs s' { s' with trk := t.trk, scu := { s'.scu with bufs := t.scu.bufs }, mkf := t.mkf } := by
  have hentry : ∀ n, s'.entry? n = s.entry? n := fun n => by rw [State.entry?, ht]; rfl
  have hlosing : ∀ b, Proofs.losing h s' b = Proofs.losing h s b := fun b => losing_congr (by rw [hb]) fun n => by rw [hentry]
  have hbuf : ∀ b, lostBuf h s' b = lostBuf h s b := fun b => by rw [lostBuf, lostBuf, hlosing, hb]
  have hitem : lostItem h s' = lostItem h s := funext fun b => by simp only [lostItem, hlosing, hb, workItem, hn]
  have hitems : lostItems h s' bs = lostItems h s bs := by rw [lostItems, hitem]; rfl
  have hslot : ∀ i, slotItem s' i = slotItem s i := fun i => by simp only [slotItem, hentry]
  constructor
  case rest =>
    have htrk : t.trk = { s'.trk with table := t.trk.table } := by rw [ht, hl.rest]
    exact congrArg (fun k => { s' with trk := k, scu := { s'.scu with bufs := t.scu.bufs }, mkf := t.mkf }) htrk
  case done =>
    intro b hmem
    rw [hm, hitems, hbuf, hb]
    exact hl.done b hmem
  case todo =>
    intro b hmem
    rw [hb]
    exact hl.todo b hmem
  case marks =>
    refine hl.marks.trans ?_
    simp only [mkfJoined, hm, hitems, hslot]
  case table => exact hl.table.trans (by rw [ht])
  case letter =>
    intro n
    rw [hm, hitems, hentry]
    exact hl.letter n

/-! ### The failure of a head -/

/-- A head's record at its failure (R36, R37). -/
def failedRec (r : HeadRec) : HeadRec :=
  { r with state := .failed, run := 0, out := none, waiting := [] }

/-- The heads at a failure, before its other effects. -/
def linkFailed (h : Head) (s : State) : State :=
  updHead h (fun r => { r with out := none, waiting := [] }) s

theorem failHead_eq (h : Head) (s : State) : failHead h s = loseScans h (headTo h .failed (linkFailed h s)) := rfl

theorem checkComplete_area (b : Buf) (s : State) : checkComplete b s = { s with
    trk := { s.trk with table := (checkComplete b s).trk.table }
    scu := { s.scu with bufs := (checkComplete b s).scu.bufs }
    mkf := (checkComplete b s).mkf } := by
  by_cases hc : ∃ n l, ScanComplete s b n l
  · obtain ⟨n, l, hc⟩ := hc
    rw [checkComplete_complete hc]
    unfold takeUp
    split <;> rfl
  · rw [checkComplete_incomplete fun n l h => hc ⟨n, l, h⟩]

theorem loseHead_area (h : Head) (b : Buf) (s : State) : loseHead h b s = { s with
    trk := { s.trk with table := (loseHead h b s).trk.table }
    scu := { s.scu with bufs := (loseHead h b s).scu.bufs }
    mkf := (loseHead h b s).mkf } := by
  cases hl : losing h s b with
  | none => rw [loseHead_unlosing hl]
  | some nl =>
    rw [loseHead_losing hl]
    exact (checkComplete_area b _).trans rfl

theorem loseScans_area (h : Head) (s : State) : loseScans h s = { s with
    trk := { s.trk with table := (loseScans h s).trk.table }
    scu := { s.scu with bufs := (loseScans h s).scu.bufs }
    mkf := (loseScans h s).mkf } := by
  have h0 := loseHead_area h .b0 s
  have h1 := loseHead_area h .b1 (loseHead h .b0 s)
  have h2 := loseHead_area h .b2 (loseHead h .b1 (loseHead h .b0 s))
  unfold loseScans
  generalize loseHead h .b2 (loseHead h .b1 (loseHead h .b0 s)) = u at h2 ⊢
  generalize loseHead h .b1 (loseHead h .b0 s) = v at h1 h2
  rw [h1, h0] at h2
  exact h2

section
variable (h : Head) (s : State)

theorem failHead_scu : (failHead h s).scu =
    { s.scu with heads := s.scu.heads.set h (failedRec (s.scu.heads.get h)), bufs := (failHead h s).scu.bufs } := by
  have hmoved : (headTo h .failed (linkFailed h s)).scu = { s.scu with heads := s.scu.heads.set h (failedRec (s.scu.heads.get h)) } := by
    rw [headTo_scu, linkFailed, updHead_updHead]
    rfl
  have harea := congrArg State.scu (loseScans_area h (headTo h .failed (linkFailed h s)))
  rw [← failHead_eq] at harea
  refine harea.trans ?_
  rw [hmoved]

theorem failHead_withScan :
    failHead h s = withScan (failHead h s) (headTo h .failed { s with scu := (linkFailed h s).scu }) := by
  have harea := loseScans_area h (headTo h .failed (linkFailed h s))
  rw [← failHead_eq] at harea
  have htrk := congrArg State.trk harea
  have hscu := congrArg State.scu harea
  have hbuild : ∀ (w : State) k x, (failHead h s).trk = k → (failHead h s).scu = x →
      ({ w with trk := k, scu := x, mkf := (failHead h s).mkf } : State) = withScan (failHead h s) w := by
    rintro w _ _ rfl rfl
    rfl
  exact harea.trans (hbuild _ _ _ htrk hscu)

theorem failHead_trk : (failHead h s).trk = { s.trk with table := (failHead h s).trk.table } := by
  have harea := congrArg State.trk (loseScans_area h (headTo h .failed (linkFailed h s)))
  have hmoved : (headTo h .failed (linkFailed h s)).trk = s.trk := by simp [linkFailed]
  rw [← failHead_eq, hmoved] at harea
  exact harea

theorem failHead_table : (failHead h s).trk.table = [] ↔ s.trk.table = [] := by
  have hcores : (failHead h s).trk.table.map Entry.core = s.trk.table.map Entry.core := by simp
  rw [← List.map_eq_nil_iff (f := Entry.core), hcores, List.map_eq_nil_iff]

end

/-- A FAILED head takes no part in a calibration (R42). -/
theorem tryCalibrate_failed {s : State} {g : Head} (hf : (s.scu.heads.get g).state = .failed) :
    (tryCalibrate s).scu.heads.get g = s.scu.heads.get g := by
  by_cases h : s.scu.calDue = true ∧ stationFree s = true ∧ s.flc.line ≠ .powerup ∧ s.flc.line ≠ .fault
  · obtain ⟨hd, hs, hp, hl⟩ := h
    rw [(tryCalibrate_taken hd hs hp hl).heads g, if_pos hf]
  · rw [tryCalibrate_kept]
    simp only [not_and_or, Bool.not_eq_true, not_not] at h
    tauto

theorem tryCalibrate_bufs (s : State) : (tryCalibrate s).scu.bufs = s.scu.bufs := by simp

/-- The state a failure comes to, at the end of its event (R36, R41). -/
def headFailed (h : Head) (s : State) : State :=
  tryCalibrate (failHead h s)

section
variable (h : Head) (s : State)

theorem headFailed_withScan :
    headFailed h s = withScan (headFailed h s) (headTo h .failed { s with scu := (linkFailed h s).scu }) := by
  have hcal := tryCalibrate_scu (failHead h s)
  have hfail := failHead_withScan h s
  have hv := eq_withScan hcal
  have htrk : (tryCalibrate (failHead h s)).trk = (failHead h s).trk := by rw [hcal]
  exact hv.trans ((congrArg (withScan (headFailed h s)) hfail).trans rfl)

/-- Every record but for the pulses of a calibration (R36, R42). -/
theorem headFailed_head : (headFailed h s).scu.heads.get h = failedRec (s.scu.heads.get h) := by
  have hget : (failHead h s).scu.heads.get h = failedRec (s.scu.heads.get h) := by
    rw [failHead_scu]
    exact PerHead.get_set_self _ _ _
  rw [headFailed, tryCalibrate_failed (by rw [hget]; rfl), hget]

theorem headFailed_ifFree : CalibratedIfFree { s with scu := { s.scu with
    heads := s.scu.heads.set h (failedRec (s.scu.heads.get h)), bufs := (headFailed h s).scu.bufs } } (headFailed h s) := by
  refine tryCalibrate_ifFree_moved ?_ ?_ (failHead_move h s)
  · rw [headFailed, tryCalibrate_bufs]
    exact failHead_scu h s
  · simp

end

/-! ### The outcome, as the statement gives it -/

theorem standing_computing {κ : Type} [DecidableEq κ] {free : Bool} {ks : List κ} {k : κ} (hf : free = true) (hk : ks.head? = some k) :
    standing free ks k = .computing := if_pos ⟨hf, hk⟩

theorem standing_waiting {κ : Type} [DecidableEq κ] {free : Bool} {ks : List κ} {k : κ} (hn : ¬ (free = true ∧ ks.head? = some k))
    (hk : k ∈ ks) : standing free ks k = .waiting := by
  rw [standing, if_neg hn, if_pos hk]

/-- The items of all three buffers. -/
def allLost (h : Head) (s : State) : List WorkItem :=
  lostItems h s [.b0, .b1, .b2]

section
variable {h : Head} {s t : State}

theorem mem_allLost {i : WorkItem} : i ∈ allLost h s ↔ lostItem h s i.buf = some i := by
  rw [allLost, mem_lostItems]
  exact and_iff_right (by cases i.buf <;> decide)

theorem mem_allLost_buf {b : Buf} : b ∈ (allLost h s).map (·.buf) ↔ ∃ i ∈ allLost h s, i.buf = b := List.mem_map

/-- The completed scans, in the order of their buffers. -/
theorem allLost_ordered : (allLost h s).Pairwise fun i j => i.buf = .b0 ∧ j.buf ≠ .b0 ∨ i.buf = .b1 ∧ j.buf = .b2 := by
  refine List.Pairwise.filterMap (R := fun b d : Buf => b = .b0 ∧ d ≠ .b0 ∨ b = .b1 ∧ d = .b2) _ (fun b d hbd i hi j hj => ?_) (by decide)
  rw [lostItem_buf hi, lostItem_buf hj]
  exact hbd

/-- A scan that the loss completes (R49). -/
theorem lostItem_iff {b : Buf} {n : LetterNo} : (∃ i ∈ allLost h s, i.buf = b ∧ i.letter = n) ↔
    ∃ l, losing h s b = some (n, l) ∧ ∀ g, l.usable.get g = true → g = h ∨ l.n ≤ ((s.scu.bufs.get b).cells.get g).length := by
  constructor
  · rintro ⟨i, hi, rfl, rfl⟩
    obtain ⟨l, hl, hc, -⟩ := lostItem_some (mem_allLost.1 hi)
    obtain ⟨-, -, -, -, hlen⟩ := losing_some.1 hl
    exact ⟨l, hl, (allCells_withLost hlen).1 hc⟩
  · rintro ⟨l, hl, hc⟩
    obtain ⟨-, -, -, -, hlen⟩ := losing_some.1 hl
    exact ⟨workItem b n s, mem_allLost.2 (lostItem_of hl ((allCells_withLost hlen).2 hc)), rfl, rfl⟩

theorem allLost_time {i : WorkItem} (hi : i ∈ allLost h s) : i.time = s.now := by
  obtain ⟨-, -, -, he⟩ := lostItem_some (mem_allLost.1 hi)
  rw [he]
  rfl

/-- Among the completed scans the buffer and the letter tell the same (R46). -/
theorem allLost_head (ha : ScansApart s) {i : WorkItem} (hi : i ∈ allLost h s) :
    (allLost h s).head?.map (·.letter) = some i.letter ↔ (allLost h s).head?.map (·.buf) = some i.buf := by
  cases hx : allLost h s with
  | nil => simp
  | cons j rest =>
    have hj : j ∈ allLost h s := by rw [hx]; exact List.mem_cons_self
    obtain ⟨_, hli, -⟩ := lostItem_some (mem_allLost.1 hi)
    obtain ⟨_, hlj, -⟩ := lostItem_some (mem_allLost.1 hj)
    obtain ⟨hpi, hni, -⟩ := losing_some.1 hli
    obtain ⟨hpj, hnj, -⟩ := losing_some.1 hlj
    simp only [List.head?_cons, Option.map_some, Option.some.injEq]
    constructor
    · intro hletter
      rw [hletter] at hnj
      exact ha _ _ _ hpj hpi hnj hni
    · intro hbuf
      rw [hbuf, hni] at hnj
      exact (Option.some.inj hnj).symm

section
variable (hl : ScansLost h [.b0, .b1, .b2] s t)
include hl

/-- Every buffer after the loss (R49, R53). -/
theorem ScansLost.buf (b : Buf) : t.scu.bufs.get b = { lostBuf h s b with
    phase := (standing s.mkf.slot.isNone ((allLost h s).map (·.buf)) b).phase (s.scu.bufs.get b).phase } :=
  hl.done b (by cases b <;> decide)

theorem ScansLost.lost {b : Buf} {n : LetterNo} {l : Latched} (hx : Proofs.losing h s b = some (n, l)) :
    (t.scu.bufs.get b).cells = (withLost h l (s.scu.bufs.get b)).cells ∧
      (t.scu.bufs.get b).lost = (withLost h l (s.scu.bufs.get b)).lost := by
  rw [hl.buf, lostBuf, hx]
  exact ⟨rfl, rfl⟩

theorem ScansLost.unlost {b : Buf} (hx : Proofs.losing h s b = none) : t.scu.bufs.get b = s.scu.bufs.get b := by
  have habsent : b ∉ (allLost h s).map (·.buf) := by
    rw [mem_allLost_buf]
    rintro ⟨i, hi, rfl⟩
    obtain ⟨_, hli, -⟩ := lostItem_some (mem_allLost.1 hi)
    rw [hx] at hli
    cases hli
  rw [hl.buf, standing_absent habsent, lostBuf, hx]
  rfl

theorem ScansLost.phases (b : Buf) :
    let taken := fun b => s.mkf.slot = none ∧ (allLost h s).head?.map WorkItem.buf = some b
    (t.scu.bufs.get b).letter = (s.scu.bufs.get b).letter ∧ (t.scu.bufs.get b).next = (s.scu.bufs.get b).next ∧
      (taken b → (t.scu.bufs.get b).phase = .computing) ∧
      (¬ taken b → (∃ i ∈ allLost h s, i.buf = b) → (t.scu.bufs.get b).phase = .waiting) ∧
      ((∀ i ∈ allLost h s, i.buf ≠ b) → (t.scu.bufs.get b).phase = (s.scu.bufs.get b).phase) := by
  have hsame : (lostBuf h s b).letter = (s.scu.bufs.get b).letter ∧ (lostBuf h s b).next = (s.scu.bufs.get b).next := by
    unfold lostBuf
    split <;> exact ⟨rfl, rfl⟩
  have hhead : ((allLost h s).map (·.buf)).head? = (allLost h s).head?.map WorkItem.buf := List.head?_map
  rw [hl.buf]
  refine ⟨hsame.1, hsame.2, fun ht => ?_, fun ht hi => ?_, fun hi => ?_⟩
  · exact congrArg (Standing.phase _) (standing_computing (Option.isNone_iff_eq_none.2 ht.1) (hhead.trans ht.2))
  · refine congrArg (Standing.phase _) (standing_waiting (fun hx => ht ?_) (mem_allLost_buf.2 hi))
    exact ⟨Option.isNone_iff_eq_none.1 hx.1, hhead.symm.trans hx.2⟩
  · refine congrArg (Standing.phase _) (standing_absent fun hx => ?_)
    obtain ⟨i, hmem, hb⟩ := mem_allLost_buf.1 hx
    exact hi i hmem hb

theorem ScansLost.letters (ha : ScansApart s) {n : LetterNo} {e : Entry} (he : s.entry? n = some e) :
    let taken := fun b => s.mkf.slot = none ∧ (allLost h s).head?.map WorkItem.buf = some b
    (∀ i ∈ allLost h s, i.letter = n →
      (taken i.buf → (t.entry? n).map (·.scan) = some .computing) ∧ (¬ taken i.buf → (t.entry? n).map (·.scan) = some .waiting)) ∧
    ((∀ i ∈ allLost h s, i.letter ≠ n) → t.entry? n = some e) := by
  have hent : t.entry? n = some { e with
      scan := (standing s.mkf.slot.isNone ((allLost h s).map (·.letter)) n).scan e.scan } := by
    rw [hl.letter n, he]
    rfl
  have hhead : ((allLost h s).map (·.letter)).head? = (allLost h s).head?.map WorkItem.letter := List.head?_map
  rw [hent]
  refine ⟨fun i hi hin => ⟨fun ht => ?_, fun ht => ?_⟩, fun hi => ?_⟩
  · refine congrArg (fun x => some (Standing.scan e.scan x)) (standing_computing (Option.isNone_iff_eq_none.2 ht.1) ?_)
    rw [hhead, ← hin]
    exact (allLost_head ha hi).2 ht.2
  · refine congrArg (fun x => some (Standing.scan e.scan x)) (standing_waiting (fun hx => ht ⟨Option.isNone_iff_eq_none.1 hx.1, ?_⟩)
      (List.mem_map.2 ⟨i, hi, hin⟩))
    rw [hhead, ← hin] at hx
    exact (allLost_head ha hi).1 hx.2
  · rw [standing_absent]
    · rfl
    · intro hx
      obtain ⟨i, hmem, hin⟩ := List.mem_map.1 hx
      exact hi i hmem hin

end

end

section
variable {h : Head} {s : State}

/-- The scans after a failure, at the end of its event. -/
theorem headFailed_lost (hw : s.mkf.slot = none → s.mkf.work = []) (ha : ScansApart s) :
    ScansLost h [.b0, .b1, .b2] s { s with
      trk := (headFailed h s).trk, scu := { s.scu with bufs := (headFailed h s).scu.bufs }, mkf := (headFailed h s).mkf } := by
  have hbufs : (headTo h .failed (linkFailed h s)).scu.bufs = s.scu.bufs := by simp [linkFailed]
  have htrk : (headTo h .failed (linkFailed h s)).trk = s.trk := by simp [linkFailed]
  have hmkf : (headTo h .failed (linkFailed h s)).mkf = s.mkf := by simp [linkFailed]
  have hnow : (headTo h .failed (linkFailed h s)).now = s.now := by simp [linkFailed]
  have hlost := (loseScans_lost (h := h) (s := headTo h .failed (linkFailed h s)) (by rw [hmkf]; exact hw)
    (by unfold ScansApart; rw [hbufs]; exact ha)).of_scan hbufs.symm htrk.symm hmkf.symm hnow.symm
  have hcal := tryCalibrate_scu (failHead h s)
  have h1 : (headFailed h s).trk = (failHead h s).trk := by rw [headFailed, hcal]
  have h2 : (headFailed h s).mkf = (failHead h s).mkf := by rw [headFailed, hcal]
  rw [h1, h2, headFailed, tryCalibrate_bufs]
  exact hlost

theorem exec_headAnswerTimeout (ho : (s.scu.heads.get h).out.isSome = true) :
    exec (.headAnswerTimeout h) s = .next (endEvent s (headFailed h s)) :=
  congrArg Host.Outcome.next (if_pos ho)

theorem not_warmsTo_failed {s : State} : ¬ WarmsTo h .failed s := fun hw => by cases hw.2.1

/-- What the failure of one head does to the line (R39, R146). -/
theorem headFailed_line (hd : s.pfs.profile.degradePolicy = .drain ∧ (s.flc.line = .starting ∨ s.flc.line = .run)) :
    DrainEntered .head (withScan (headFailed h s) (setFlag .headState (.head h .failed) s)) (endEvent s (headFailed h s)) := by
  have htrk : (headFailed h s).trk = (failHead h s).trk := by rw [headFailed, tryCalibrate_scu]
  refine headTo_end_drains (headFailed_withScan h s) ⟨.inr rfl, hd⟩ ?_ ?_
  · rw [htrk, failHead_trk]
  · rw [htrk]; exact failHead_table h s

end

/-! ### The warm-up limit (R39, R143) -/

/-- A head's record at the warm-up limit (R39). -/
def limitedRec (r : HeadRec) : HeadRec :=
  if r.state = .ready ∨ r.state = .failed then r else failedRec r

theorem limitHead_stays {h : Head} {s : State} (hr : (s.scu.heads.get h).state = .ready ∨ (s.scu.heads.get h).state = .failed) :
    limitHead s h = s := by
  unfold limitHead
  rcases hr with hr | hr <;> rw [hr]

theorem limitHead_fails {h : Head} {s : State} (hr : ¬ ((s.scu.heads.get h).state = .ready ∨ (s.scu.heads.get h).state = .failed)) :
    limitHead s h = failHead h s := by
  unfold limitHead
  split
  next => rfl
  next => rfl
  next => rfl
  next hx => exact absurd (.inl hx) hr
  next hx => exact absurd (.inr hx) hr

/-- In WARMUP a failure has no part in the line (R143). -/
theorem failHead_warmup {h : Head} {s : State} (hl : s.flc.line = .warmup) :
    failHead h s = loseScans h (headMoved h .failed (linkFailed h s)) := by
  have hundegraded : ¬ Degrades .failed (linkFailed h s) := fun ⟨_, _, hx⟩ => by
    have hx : s.flc.line = .starting ∨ s.flc.line = .run := hx
    rw [hl] at hx
    simp at hx
  rw [failHead_eq, headTo_undegraded hundegraded, checkWarm_stays (mt warm_headMoved.1 not_warmsTo_failed)]

theorem loseHead_empty {h : Head} {b : Buf} {s : State} (ht : s.trk.table = []) : loseHead h b s = s := by
  refine loseHead_unlosing (Option.eq_none_iff_forall_ne_some.2 fun ⟨n, l⟩ hx => ?_)
  obtain ⟨-, -, he, -⟩ := losing_some.1 hx
  rw [State.entry?, ht] at he
  cases he

/-- The heads `hs` have come to the warm-up limit in WARMUP, in that order (R39; log entry 20). -/
structure Limited (hs : List Head) (s t : State) : Prop where
  rest  : t = { s with
    trk := { s.trk with table := t.trk.table }, scu := { s.scu with heads := t.scu.heads, bufs := t.scu.bufs }
    mkf := t.mkf, llk := t.llk }
  empty : s.trk.table = [] → t.trk.table = [] ∧ t.mkf = s.mkf ∧ t.scu.bufs = s.scu.bufs
  heads : ∀ g, t.scu.heads.get g = if g ∈ hs then limitedRec (s.scu.heads.get g) else s.scu.heads.get g
  link  : LinkKept [.headState] s t
  last  : ∀ l h m, hs = l ++ h :: m → limitedRec (s.scu.heads.get h) ≠ s.scu.heads.get h →
    (∀ g ∈ m, limitedRec (s.scu.heads.get g) = s.scu.heads.get g) → FlagSet .headState (.head h .failed) s t
  shape : ∃ b d, t.llk.flags.get .headState = { s.llk.flags.get .headState with set := b, detail := d }
  same  : (∀ h ∈ hs, limitedRec (s.scu.heads.get h) = s.scu.heads.get h) → t.llk.flags.get .headState = s.llk.flags.get .headState

theorem limited_none (s : State) : Limited [] s s :=
  ⟨rfl, fun h => ⟨h, rfl, rfl⟩, fun _ => rfl, .of_eq rfl, fun l h m hx => by simp at hx, ⟨_, _, rfl⟩, fun _ => rfl⟩

/-- A record that changes at the limit is not READY and not FAILED. -/
theorem limitedRec_eq {r : HeadRec} : limitedRec r = r ↔ r.state = .ready ∨ r.state = .failed := by
  unfold limitedRec
  split
  next h => simp [h]
  next h =>
    refine ⟨fun he => ?_, fun hx => absurd hx h⟩
    have hs := congrArg HeadRec.state he
    exact .inr hs.symm

section
variable {hs : List Head} {h : Head} {s t : State} (hl : Limited hs s t) (hh : h ∉ hs) (hw : s.flc.line = .warmup)
include hl hh

theorem Limited.todo : t.scu.heads.get h = s.scu.heads.get h := by rw [hl.heads, if_neg hh]

/-- A head that stays at the limit. -/
theorem Limited.stays (hr : limitedRec (s.scu.heads.get h) = s.scu.heads.get h) : Limited (hs ++ [h]) s t := by
  refine ⟨hl.rest, hl.empty, fun g => ?_, hl.link, fun l g m hx hg hm => ?_, hl.shape, fun hall => hl.same fun g hg => hall g ?_⟩
  · rw [hl.heads]
    by_cases hg : g = h
    · subst hg; simp [hh, hr]
    · simp [hg]
  · rcases List.eq_nil_or_concat m with rfl | ⟨m', x, rfl⟩
    · obtain ⟨-, hgh⟩ := List.append_inj' hx rfl
      cases hgh
      exact absurd hr hg
    · rw [List.concat_eq_append] at hx hm
      rw [← List.cons_append, ← List.append_assoc] at hx
      obtain ⟨hhs, -⟩ := List.append_inj' hx rfl
      exact hl.last l g m' hhs hg fun y hy => hm y (List.mem_append_left _ hy)
  · exact List.mem_append_left _ hg

include hw

/-- A head that fails at the limit. -/
theorem Limited.fails (hr : limitedRec (s.scu.heads.get h) ≠ s.scu.heads.get h) : Limited (hs ++ [h]) s (failHead h t) := by
  have hwt : t.flc.line = .warmup := by rw [hl.rest]; exact hw
  have harea := loseScans_area h (headMoved h .failed (linkFailed h t))
  rw [← failHead_warmup hwt] at harea
  have hscu := failHead_scu h t
  have hset : FlagSet .headState (.head h .failed) t (headMoved h .failed (linkFailed h t)) :=
    setFlag_set .headState _ (updHead h (fun r => { r with state := .failed, run := 0 }) (linkFailed h t))
  have hmlink : LinkKept [.headState] t (headMoved h .failed (linkFailed h t)) := setFlag_kept' (by rfl) (List.mem_singleton.2 rfl)
  have hllk : (failHead h t).llk = (headMoved h .failed (linkFailed h t)).llk := by rw [harea]
  have hget : limitedRec (s.scu.heads.get h) = failedRec (t.scu.heads.get h) := by
    rw [hl.todo hh]
    exact if_neg (mt limitedRec_eq.2 hr)
  refine ⟨?_, fun hempty => ?_, fun g => ?_, hl.link.trans (linkKept_of_llk hmlink rfl hllk), fun l g m hx hg hm => ?_, ?_,
    fun hall => ?_⟩
  · have hheads := congrArg (fun u : State => u.scu.heads) harea
    have hbuild : ∀ a b, (failHead h t).scu.heads = a → (failHead h t).llk = b → failHead h t = { t with
        trk := { t.trk with table := (failHead h t).trk.table }, scu := { t.scu with heads := a, bufs := (failHead h t).scu.bufs }
        mkf := (failHead h t).mkf, llk := b } → failHead h t = { t with
        trk := { t.trk with table := (failHead h t).trk.table }
        scu := { t.scu with heads := (failHead h t).scu.heads, bufs := (failHead h t).scu.bufs }
        mkf := (failHead h t).mkf, llk := (failHead h t).llk } := by
      rintro _ _ rfl rfl hx
      exact hx
    refine (hbuild _ _ hheads hllk harea).trans ?_
    exact congrArg (fun u : State => { u with
      trk := { u.trk with table := (failHead h t).trk.table }
      scu := { u.scu with heads := (failHead h t).scu.heads, bufs := (failHead h t).scu.bufs }
      mkf := (failHead h t).mkf, llk := (failHead h t).llk }) hl.rest
  · obtain ⟨ht, hm, hb⟩ := hl.empty hempty
    have hlose : failHead h t = headMoved h .failed (linkFailed h t) := by
      rw [failHead_warmup hwt, loseScans, loseHead_empty (s := headMoved h .failed (linkFailed h t)) ht,
        loseHead_empty (s := headMoved h .failed (linkFailed h t)) ht, loseHead_empty (s := headMoved h .failed (linkFailed h t)) ht]
    rw [hlose]
    exact ⟨ht, hm, hb⟩
  · have hgets : (failHead h t).scu.heads.get g = if g = h then failedRec (t.scu.heads.get h) else t.scu.heads.get g := by
      rw [hscu]; exact PerHead.get_set _ _ _ _
    rw [hgets]
    by_cases hg : g = h
    · subst hg; simp [hget]
    · rw [if_neg hg, hl.heads]; simp [hg]
  · rcases List.eq_nil_or_concat m with rfl | ⟨m', x, rfl⟩
    · obtain ⟨-, hgh⟩ := List.append_inj' hx rfl
      cases hgh
      obtain ⟨b, d, hshape⟩ := hl.shape
      unfold FlagSet at hset ⊢
      rw [hllk, hset, hshape]
    · rw [List.concat_eq_append] at hx hm
      rw [← List.cons_append, ← List.append_assoc] at hx
      obtain ⟨-, hxh⟩ := List.append_inj' hx rfl
      cases hxh
      exact absurd (hm h (by simp)) hr
  · obtain ⟨b, d, hshape⟩ := hl.shape
    refine ⟨true, some (.head h .failed), ?_⟩
    rw [hllk, hset, hshape]
  · exact absurd (hall h (by simp)) hr

theorem Limited.step : Limited (hs ++ [h]) s (limitHead t h) := by
  by_cases hr : limitedRec (s.scu.heads.get h) = s.scu.heads.get h
  · have hx := limitedRec_eq.1 hr
    rw [← hl.todo hh] at hx
    rw [limitHead_stays hx]
    exact hl.stays hh hr
  · have hx := mt limitedRec_eq.2 hr
    rw [← hl.todo hh] at hx
    rw [limitHead_fails hx]
    exact hl.fails hh hw hr

end

theorem limitHeads {s : State} (hw : s.flc.line = .warmup) : Limited Head.all s (Head.all.foldl limitHead s) := by
  have h0 := (limited_none s).step (h := .ft) (by simp) hw
  have h1 := h0.step (h := .fb) (by decide) hw
  have h2 := h1.step (h := .bt) (by decide) hw
  exact h2.step (h := .bb) (by decide) hw

/-- The end of WARMUP at its limit (R143). -/
def limitPassed (s : State) : State :=
  setHold .cancel false
    (setFlag .lineState (.line .standby .warmupLimit none) { s with flc := { s.flc with line := .standby, warmup := none } })

theorem exec_warmupLimit {s : State} {t0 : Nat} (hl : s.flc.line = .warmup) (ht : s.flc.warmup = some t0) : exec .warmupLimit s =
    .next (endEvent s (tryCalibrate (limitPassed (Head.all.foldl limitHead (waitUntil (t0 + 60000) s))))) := by
  have hline := setLine_off .standby .warmupLimit none { Head.all.foldl limitHead (waitUntil (t0 + 60000) s) with
    flc := { (Head.all.foldl limitHead (waitUntil (t0 + 60000) s)).flc with warmup := none } } (by decide) (by decide)
  show execWarmupLimit s = _
  simp only [execWarmupLimit, hl, ht]
  rw [hline]
  rfl

theorem PerHead.eq_of_get {α : Type} {t u : PerHead α} (h : ∀ g, t.get g = u.get g) : t = u := by
  cases t
  cases u
  exact (PerHead.mk.injEq ..).mpr ⟨h .ft, h .fb, h .bt, h .bb⟩

section
variable {s f : State} {now : Nat} (hL : Limited Head.all (waitUntil now s) f)
include hL

theorem Limited.scu : f.scu = { s.scu with heads := s.scu.heads.map limitedRec, bufs := f.scu.bufs } := by
  have hheads : f.scu.heads = s.scu.heads.map limitedRec := PerHead.eq_of_get fun g => by
    rw [hL.heads, if_pos (by cases g <;> decide), PerHead.get_map]
    rfl
  rw [← hheads]
  exact congrArg State.scu hL.rest

theorem Limited.calibrated : tryCalibrate (limitPassed f) = { s with
      now := max s.now now
      flc := { s.flc with line := .standby, warmup := none, holds := { s.flc.holds with cancel := false } }
      trk := { s.trk with table := f.trk.table }
      scu := (tryCalibrate (limitPassed f)).scu, mkf := f.mkf, llk := (limitPassed f).llk } := by
  refine (tryCalibrate_scu (limitPassed f)).trans ?_
  have hw : limitPassed f = { f with
    flc := { f.flc with line := .standby, warmup := none, holds := { f.flc.holds with cancel := false } }
    llk := (limitPassed f).llk } := rfl
  refine (congrArg (fun u : State => { u with scu := (tryCalibrate (limitPassed f)).scu }) hw).trans ?_
  exact congrArg (fun u : State => { u with
    flc := { u.flc with line := .standby, warmup := none, holds := { u.flc.holds with cancel := false } }
    scu := (tryCalibrate (limitPassed f)).scu, llk := (limitPassed f).llk }) hL.rest

theorem Limited.ifFree (hl : s.flc.line = .warmup) : CalibratedIfFree { s with
    now := max s.now now, scu := { s.scu with heads := s.scu.heads.map limitedRec, bufs := f.scu.bufs } }
    (tryCalibrate (limitPassed f)) := by
  refine tryCalibrate_ifFree_moved hL.scu ?_ (.inr (.inr ⟨hl, rfl⟩))
  show f.now = _
  rw [hL.rest]
  rfl

theorem Limited.passed_llk : (tryCalibrate (limitPassed f)).llk = (limitPassed f).llk := by
  rw [hL.calibrated]

theorem Limited.passed_link : LinkKept [.lineState] f (tryCalibrate (limitPassed f)) := by
  have hset : LinkKept [.lineState] f (limitPassed f) :=
    (setFlag_kept' (by rfl) (List.mem_singleton.2 rfl)).trans (setHold_kept _ _ _ _)
  exact linkKept_of_llk hset rfl hL.passed_llk

theorem Limited.link_all : LinkKept [.headState, .lineState] s (tryCalibrate (limitPassed f)) :=
  linkKept_of_llk ((hL.link.mono (by simp)).trans (hL.passed_link.mono (by simp))) rfl rfl

/-- The line is in STANDBY at the end of the event, and the cause CANCEL is lowered (R117, R143, R152). -/
theorem Limited.ended : let t := endEvent s (tryCalibrate (limitPassed f))
    HoldMoved .cancel false s t ∧ t = { s with
      now := max s.now now
      flc := { s.flc with line := .standby, warmup := none, holds := { s.flc.holds with cancel := false } }
      trk := { s.trk with table := f.trk.table }
      scu := t.scu, mkf := f.mkf, llk := t.llk } := by
  intro t
  have hv := hL.calibrated
  obtain ⟨hmoved, hend⟩ := endEvent_lowered (c := .cancel) (s := s) (t := tryCalibrate (limitPassed f)) (by rw [hv]; rfl)
    (hL.link_all.flags _ (by simp)) (by rw [hv])
  have hscu : t.scu = (tryCalibrate (limitPassed f)).scu := by simp [t]
  rw [hscu]
  exact ⟨hmoved, hend.trans (congrArg (fun u : State => { u with llk := t.llk }) hv)⟩

theorem Limited.headFlag :
    (endEvent s (tryCalibrate (limitPassed f))).llk.flags.get .headState = f.llk.flags.get .headState :=
  ((endEvent_kept (ks := [.feedHold]) s _ (by simp)).flags _ (by simp)).trans (hL.passed_link.flags _ (by simp))

theorem Limited.lineFlag :
    FlagSet .lineState (.line .standby .warmupLimit none) s (endEvent s (tryCalibrate (limitPassed f))) := by
  have hset : FlagSet .lineState (.line .standby .warmupLimit none) f (limitPassed f) :=
    setFlag_set .lineState _ { f with flc := { f.flc with line := .standby, warmup := none } }
  exact FlagSet_end s nofun ((flagSet_of_left hset (hL.link.flags _ (by simp))).of_eq (by rw [hL.passed_llk]))

theorem Limited.endLink :
    LinkKept [.headState, .lineState, .feedHold] s (endEvent s (tryCalibrate (limitPassed f))) :=
  LinkKept_end s (by simp) (hL.link_all.mono (by simp))

end

/-- Settles O28: a failure is `headFailed`, and the warm-up limit is `limitPassed` after the failures of `limitHeads`. -/
theorem headsFailWithoutAnswers : Obligations.HeadsFailWithoutAnswers := by
  intro s
  refine ⟨fun h hheld ho ha => ?_, fun t0 hline ht0 => ?_⟩
  · have hv := headFailed_withScan h s
    have hl := headFailed_lost (h := h) hheld.taken ha
    refine ⟨_, allLost h s, exec_headAnswerTimeout ho, ?_⟩
    generalize ht : endEvent s (headFailed h s) = t
    have hscu : t.scu = (headFailed h s).scu := by rw [← ht]; simp
    have htrk : t.trk = (headFailed h s).trk := by rw [← ht]; simp
    have hmkf : t.mkf = (headFailed h s).mkf := by rw [← ht]; simp
    have hpcm : t.pcm = (headFailed h s).pcm := by rw [← ht]; simp
    rw [← hscu, ← htrk, ← hmkf] at hl
    intro r loses completes taken u
    have hcompletes : ∀ b n, completes b n ↔ ∃ i ∈ allLost h s, i.buf = b ∧ i.letter = n := fun b n =>
      (exists_congr fun l => and_congr_left fun _ => losing_some.symm).trans lostItem_iff.symm
    have hu : u = withScan t (setFlag .headState (.head h .failed) s) := rfl
    have hwith : withScan (headFailed h s) (setFlag .headState (.head h .failed) s) = u := by rw [hu, withScan, withScan, htrk, hscu, hmkf]
    refine ⟨?_, ?_, ?_, fun b n l hx => ?_, fun b hx => ?_, fun i hi => ?_, fun b n hx => ?_, allLost_ordered, hl.phases, fun hs => ?_,
      fun hs hi => ?_, fun i rest hs hi => ?_, hl.table, fun n e he => hl.letters ha he, ?_, ?_⟩
    · rw [hscu]; exact headFailed_head h s
    · have hfree := headFailed_ifFree h s
      rw [← hscu] at hfree
      exact calibratedIfFree_of hfree rfl rfl rfl hscu (by rw [htrk]) hpcm
    · rw [← ht]; exact headTo_headFlag hv
    · have hx := losing_some.2 hx
      obtain ⟨hcells, hlost⟩ := hl.lost hx
      refine ⟨?_, hlost, fun g hg => ?_⟩
      · refine (congrArg (fun c => c.get h) hcells).trans ?_
        exact PerHead.get_upd_self _ _ _
      · refine (congrArg (fun c => c.get g) hcells).trans ?_
        exact PerHead.get_upd_ne _ _ (Ne.symm hg)
    · refine hl.unlost (Option.eq_none_iff_forall_ne_some.2 fun ⟨n, l⟩ hx' => hx n l (losing_some.1 hx'))
    · exact ⟨(hcompletes _ _).2 ⟨i, hi, rfl, rfl⟩, allLost_time hi⟩
    · obtain ⟨i, hi, hb, -⟩ := (hcompletes b n).1 hx
      exact ⟨i, hi, hb⟩
    · exact hl.marks.trans (mkfJoined_busy hs)
    · exact hl.marks.trans ((congrArg (mkfJoined · s) hi).trans (mkfJoined_nil s))
    · refine hl.marks.trans ((congrArg (mkfJoined · s) hi).trans ((mkfJoined_free hs).trans ?_))
      have htime := allLost_time (h := h) (s := s) (i := i) (by rw [hi]; exact List.mem_cons_self)
      rw [slotItem, htime]
    · exact congrArg State.trk hl.rest
    · split
      next hd =>
        rw [← hwith, ← ht]
        exact headFailed_line hd
      next hd =>
        obtain ⟨heq, hlink⟩ := headTo_end_stays hv (fun hx => hd hx.2) not_warmsTo_failed
        rw [hwith, ht] at heq
        rw [ht] at hlink
        exact ⟨heq, hlink⟩
  · have hL := limitHeads (s := waitUntil (t0 + 60000) s) hline
    refine ⟨_, exec_warmupLimit hline ht0, ?_⟩
    generalize Head.all.foldl limitHead (waitUntil (t0 + 60000) s) = f at hL ⊢
    have hv := hL.calibrated
    have hfree := hL.ifFree hline
    have hbufs : (tryCalibrate (limitPassed f)).scu.bufs = f.scu.bufs := tryCalibrate_bufs _
    have hheads := tryCalibrate_head (limitPassed f)
    obtain ⟨hmoved, hvt⟩ := hL.ended
    have hheadFlag := hL.headFlag
    have hlineFlag := hL.lineFlag
    have hlink := hL.endLink
    have hscu : (endEvent s (tryCalibrate (limitPassed f))).scu = (tryCalibrate (limitPassed f)).scu := by simp
    generalize endEvent s (tryCalibrate (limitPassed f)) = t at hmoved hvt hheadFlag hlineFlag hlink hscu ⊢
    have htrk : t.trk = { s.trk with table := f.trk.table } := by rw [hvt]
    have hcnb : t.cnb = s.cnb := by rw [hvt]
    have hnow : t.now = max s.now (t0 + 60000) := by rw [hvt]
    have hmkf : t.mkf = f.mkf := by rw [hvt]
    refine ⟨fun h => ?_, ?_, ?_, fun hempty => ?_, ⟨fun l h m hlist hf hm => ?_, fun hnone => ?_⟩, hmoved, hlineFlag, hlink⟩
    · rw [hscu, hheads h]
      refine (congrArg HeadRec.state (hL.heads h)).trans ?_
      rw [if_pos (by cases h <;> decide), limitedRec]
      show (if _ then s.scu.heads.get h else failedRec (s.scu.heads.get h)).state = _
      by_cases hr : (s.scu.heads.get h).state = .ready
      · rw [if_pos (.inl hr), if_pos hr, hr]
      · rw [if_neg hr]
        split
        next hx => exact hx.resolve_left hr
        next => rfl
    · rw [← hbufs, ← hscu, ← hnow] at hfree
      exact calibratedIfFree_of hfree rfl rfl rfl hscu (by rw [htrk, hv]) (by rw [hvt, hv])
    · refine hvt.trans ?_
      rw [withHolds, hcnb, htrk, hmkf]
    · obtain ⟨ht, hm, hb⟩ := hL.empty hempty
      refine ⟨htrk.trans ?_, hmkf.trans hm, ?_⟩
      · rw [ht, ← hempty]
      · rw [hscu, hbufs]; exact hb
    · have hset := hL.last l h m hlist (fun he => ?_) fun g hg => limitedRec_eq.2 ?_
      · exact FlagSet.of_eq hset hheadFlag
      · rcases limitedRec_eq.1 he with hx | hx
        · exact hf.1 hx
        · exact hf.2 hx
      · exact not_and_or.1 (hm g hg) |>.imp not_not.1 not_not.1
    · rw [hheadFlag]
      exact hL.same fun h _ => limitedRec_eq.2 (not_and_or.1 (hnone h) |>.imp not_not.1 not_not.1)

end Sys2Proof.Proofs
end

