-- ==== Sys2Proof/Proofs/ProfileLoad.lean ====
section
/-! PROOF. PROFILE_LOAD_COMPLETE (O17): the working profile, the entry to WARMUP, and the second line after a reset. -/

namespace Sys2Proof.Proofs

open Sys2Proof Sys2Proof.Machine Sys2Proof.Safety Sys2Proof.Laws

/-! ### Reports that are told -/

/-- Between `s` and `t` flags were set and no line was begun: the pending reports only grow, none twice (R187). -/
structure Told (s t : State) : Prop where
  tx      : t.llk.tx = s.llk.tx
  answers : t.llk.answers = s.llk.answers
  opening : t.llk.opening = s.llk.opening
  reports : s.llk.reports <+: t.llk.reports
  once    : s.llk.reports.Nodup → t.llk.reports.Nodup

theorem Told.of_llk {s t : State} (h : t.llk = s.llk) : Told s t := by
  constructor <;> rw [h]
  exact id

theorem Told.trans {s t u : State} (h : Told s t) (k : Told t u) : Told s u :=
  ⟨k.tx.trans h.tx, k.answers.trans h.answers, k.opening.trans h.opening, h.reports.trans k.reports, fun hn => k.once (h.once hn)⟩

theorem setFlag_told (k : Kind) (d : Detail) (s : State) : Told s (setFlag k d s) := by
  unfold setFlag
  refine ⟨rfl, rfl, rfl, ?_, fun hn => ?_⟩ <;> dsimp only <;> split
  next => exact List.prefix_rfl
  next => exact List.prefix_append _ _
  next => exact hn
  next hk =>
    rw [Bool.or_eq_true, not_or, List.contains_iff_mem] at hk
    exact List.nodup_append.2 ⟨hn, List.nodup_singleton k, fun x hx y hy hxy => hk.2 (List.mem_singleton.1 hy ▸ hxy ▸ hx)⟩

/-- An unmasked flag that is set has its report pending (R187). -/
theorem setFlag_pending {k : Kind} (d : Detail) {s : State} (hm : (s.llk.flags.get k).masked = false) :
    k ∈ (setFlag k d s).llk.reports := by
  unfold setFlag
  dsimp only
  split
  next hk => simpa [hm] using hk
  next => simp

theorem judgeHold_told (b : Bool) (s : State) : Told s (judgeHold b s) := by
  unfold judgeHold
  split
  next => exact .of_llk rfl
  next =>
    split
    next => exact (Told.of_llk (s := s) (t := countCrossing s) rfl).trans (setFlag_told .feedHold _ _)
    next => exact setFlag_told .feedHold _ s

theorem pickAvailable_reply {r : Reply} {rest : List Item} {s : State} (h : s.llk.answers = .answered r :: rest) :
    pickAvailable s = begin' (.reply r) s := by
  simp only [pickAvailable, h]

theorem pickAvailable_report {k : Kind} {rest : List Kind} {s : State} (h : ¬ ∃ r rest, s.llk.answers = .answered r :: rest)
    (hk : s.llk.reports = k :: rest) :
    pickAvailable s = begin' (.report k (s.llk.flags.get k).detail) { s with llk := { s.llk with reports := rest } } := by
  unfold pickAvailable
  split
  next r rest' hr => exact absurd ⟨r, rest', hr⟩ h
  next hk' _ => rw [hk] at hk'; cases hk'; rfl
  all_goals simp_all

/-! ### Repeat timers stopped (R187) -/

/-- Repeat timers stopped where `z` says so. -/
def timersStoppedIf (z : Bool) (s : State) : State :=
  if z then timersStopped s else s

theorem stopRepeats_eq (s : State) : stopRepeats s = timersStoppedIf (decide (s.pfs.profile.eventRepeat = 0)) s := by
  unfold stopRepeats timersStoppedIf
  by_cases h : s.pfs.profile.eventRepeat = 0 <;> simp [h, timersStopped]

section
variable {z : Bool} {s t : State}

theorem timersStoppedIf_llk (z : Bool) (s : State) :
    timersStoppedIf z s = { s with llk := (timersStoppedIf z s).llk } := by
  unfold timersStoppedIf
  split <;> rfl

theorem timersStoppedIf_told (z : Bool) (s : State) : Told s (timersStoppedIf z s) := by
  unfold timersStoppedIf
  split
  · exact ⟨rfl, rfl, rfl, List.prefix_rfl, id⟩
  · exact .of_llk rfl

/-- The flags with the repeat timers stopped (R187). -/
theorem timersStoppedIf_flag (z : Bool) (s : State) (k : Kind) : (timersStoppedIf z s).llk.flags.get k =
    { s.llk.flags.get k with repeating := if z then none else (s.llk.flags.get k).repeating } := by
  unfold timersStoppedIf
  cases z
  · rfl
  · exact PerKind.get_map _ _ _

theorem flagSet_stopped {k : Kind} {d : Detail} (h : FlagSet k d s t) : FlagSet k d (timersStoppedIf z s) (timersStoppedIf z t) := by
  unfold FlagSet at h ⊢
  rw [timersStoppedIf_flag, timersStoppedIf_flag, h]

theorem linkKept_stopped {ks : List Kind} (h : LinkKept ks s t) : LinkKept ks (timersStoppedIf z s) (timersStoppedIf z t) := by
  cases z
  · exact h
  · refine ⟨?_, fun k hk => ?_, h.reports, h.sending, h.opening⟩
    · exact congrArg (fun l : Llk => { l with flags := (timersStoppedIf true t).llk.flags }) h.rest
    · rw [timersStoppedIf_flag, timersStoppedIf_flag, h.flags k hk]

end

/-! ### The load (R195) -/

/-- The working profile that the load leaves (R195). -/
def loadedProfile (s : State) : Profile :=
  if ImagePasses s.pfs.image then s.pfs.image.contents else Profile.factory

theorem imageFault_passes {i : Image} (h : ImagePasses i) : imageFault i = none := by
  rw [imageFault, if_neg (not_not.2 h.1), if_pos h.2]

/-- The fault of an image that fails its check: its format, and where that is right its check value (R194). -/
theorem imageFault_fails {i : Image} (h : ¬ ImagePasses i) : imageFault i = some (if i.format = 1 then .crc else .format) := by
  unfold imageFault
  split
  next => rfl
  next hf =>
    have hf := not_not.1 hf
    rw [if_neg fun hc => h ⟨hf, hc⟩, if_pos hf]

section
variable {s : State}

theorem loadProfile_passes (h : ImagePasses s.pfs.image) :
    loadProfile s = { s with pfs := { s.pfs with profile := loadedProfile s } } := by
  rw [loadProfile, imageFault_passes h, loadedProfile, if_pos h]

theorem loadProfile_fails (h : ¬ ImagePasses s.pfs.image) : loadProfile s =
    setFlag .profileDefaulted (.defaulted (if s.pfs.image.format = 1 then .crc else .format))
      { s with pfs := { s.pfs with profile := loadedProfile s } } := by
  rw [loadProfile, imageFault_fails h, loadedProfile, if_neg h]

theorem loadProfile_eq (s : State) :
    loadProfile s = { s with pfs := { s.pfs with profile := loadedProfile s }, llk := (loadProfile s).llk } := by
  by_cases h : ImagePasses s.pfs.image
  · rw [loadProfile_passes h]
  · rw [loadProfile_fails h]; rfl

end

/-- Where the opening stands at the end of the load (R195). -/
def loadedOpening (s : State) : Opening :=
  if ImagePasses s.pfs.image ∨ Config.defaultedSecond = false then .done else .due

/-- The line on its entry to WARMUP, the profile loaded and a calibration due (R41, R143). -/
def warming (s : State) : State :=
  { loadProfile s with
    flc := { s.flc with line := .warmup, warmup := some s.now }
    scu := { s.scu with calDue := true }
    llk := { (loadProfile s).llk with opening := loadedOpening s } }

/-- The state before the calibration and the repeat timers. -/
def warmedIn (s : State) : State :=
  judgeBlocked (setHold .cancel false (setFlag .lineState (.line .warmup .loaded none) (warming s)))

/-- The loaded profile stops the repeat timers (R187). -/
def stops (s : State) : Bool :=
  decide ((loadedProfile s).eventRepeat = 0)

theorem profileLoaded_eq (s : State) :
    profileLoaded s = timersStoppedIf (stops s) (tryCalibrate (warmedIn s)) := by
  have hload := loadProfile_eq s
  have hwarm : setLine .warmup .loaded none { loadProfile s with
      flc := { (loadProfile s).flc with warmup := some (loadProfile s).now }
      scu := { (loadProfile s).scu with calDue := true }
      llk := { (loadProfile s).llk with opening := openingAt .due (imageFault s.pfs.image).isSome } } =
      setHold .cancel false (setFlag .lineState (.line .warmup .loaded none) (warming s)) := by
    rw [setLine_off _ _ _ _ (by decide) (by decide), openingAt_imageFault]
    refine congrArg (fun u => setHold .cancel false (setFlag .lineState (.line .warmup .loaded none) u)) ?_
    have hflc : (loadProfile s).flc = s.flc := by rw [hload]
    have hnow : (loadProfile s).now = s.now := by rw [hload]
    have hscu : (loadProfile s).scu = s.scu := by rw [hload]
    rw [warming, hflc, hnow, hscu]
    rfl
  have hprofile : (tryCalibrate (warmedIn s)).pfs.profile = loadedProfile s := by
    rw [tryCalibrate_scu]
    show (warmedIn s).pfs.profile = _
    have hpfs : (warmedIn s).pfs = (loadProfile s).pfs := by simp [warmedIn, warming]
    rw [hpfs, hload]
  have hdef : profileLoaded s = stopRepeats (tryCalibrate (warmedIn s)) :=
    congrArg (fun u => stopRepeats (tryCalibrate (judgeBlocked u))) hwarm
  rw [hdef, stopRepeats_eq, hprofile, stops]

/-- The state in which the load finds the link, the opening past (R195). -/
def opened (s : State) : State :=
  { s with llk := { s.llk with opening := loadedOpening s } }

theorem opened_stopped (z : Bool) (s : State) :
    (timersStoppedIf z (opened s)).llk = { (timersStoppedIf z s).llk with opening := loadedOpening s } := by
  cases z <;> rfl

section
variable (s : State)

/-- The load's part in the link (R187, R195). -/
theorem warming_llk : (warming s).llk = if ImagePasses s.pfs.image then (opened s).llk
    else (setFlag .profileDefaulted (.defaulted (if s.pfs.image.format = 1 then .crc else .format)) (opened s)).llk := by
  unfold warming
  by_cases h : ImagePasses s.pfs.image
  · rw [loadProfile_passes h, if_pos h]; rfl
  · rw [loadProfile_fails h, if_neg h]; rfl

theorem warming_link : LinkKept [.profileDefaulted] (opened s) (warming s) := by
  have hllk := warming_llk s
  split at hllk
  · exact .of_eq hllk
  · exact linkKept_of_llk (setFlag_kept _ (opened s) (by simp)) rfl hllk

theorem judgeBlocked_on {s : State} (h : s.flc.line ≠ .powerup) : judgeBlocked s =
    setHold .pockets (!(BlockClass.all.filter (isBlocked s)).isEmpty)
      { s with pkc := { s.pkc with blocked := BlockClass.all.filter (isBlocked s) } } := if_neg h

/-- The blocked set that WARMUP begins with (R138). -/
def warmBlocked : List BlockClass :=
  BlockClass.all.filter (isBlocked (setHold .cancel false (setFlag .lineState (.line .warmup .loaded none) (warming s))))

theorem warmedIn_eq : warmedIn s = { s with
    pfs := { s.pfs with profile := loadedProfile s }
    flc := { s.flc with
      line := .warmup, warmup := some s.now
      holds := { s.flc.holds with cancel := false, pockets := !(warmBlocked s).isEmpty } }
    pkc := { s.pkc with blocked := warmBlocked s }
    scu := { s.scu with calDue := true }
    llk := (setFlag .lineState (.line .warmup .loaded none) (warming s)).llk } := by
  have hjudge : warmedIn s = setHold .pockets (!(warmBlocked s).isEmpty)
      { setHold .cancel false (setFlag .lineState (.line .warmup .loaded none) (warming s)) with
        pkc := { (warming s).pkc with blocked := warmBlocked s } } :=
    judgeBlocked_on (s := setHold .cancel false (setFlag .lineState (.line .warmup .loaded none) (warming s))) nofun
  have hload := loadProfile_eq s
  have hrest : ∀ l : Llk, ({ warming s with llk := l } : State) = { s with
      pfs := { s.pfs with profile := loadedProfile s }
      flc := { s.flc with line := .warmup, warmup := some s.now }
      scu := { s.scu with calDue := true }
      llk := l } := fun l =>
    congrArg (fun u : State => { u with
      flc := { s.flc with line := .warmup, warmup := some s.now }, scu := { s.scu with calDue := true }, llk := l }) hload
  rw [hjudge]
  exact congrArg (fun u : State => { u with
    flc := { u.flc with holds := { u.flc.holds with cancel := false, pockets := !(warmBlocked s).isEmpty } }
    pkc := { u.pkc with blocked := warmBlocked s } }) (hrest (setFlag .lineState (.line .warmup .loaded none) (warming s)).llk)

theorem warmedIn_blocked (c : BlockClass) : c ∈ warmBlocked s ↔ isBlocked (warmedIn s) c = true := by
  rw [warmBlocked, mem_judged]
  have hsame : isBlocked (setHold .cancel false (setFlag .lineState (.line .warmup .loaded none) (warming s))) = isBlocked (warmedIn s) :=
    isBlocked_of_states (by simp [warmedIn]) fun q => by simp [warmedIn]
  rw [hsame]

theorem warmedIn_told : Told (warming s) (warmedIn s) := by
  rw [warmedIn_eq]
  exact (setFlag_told .lineState _ (warming s)).trans (.of_llk rfl)

theorem warmedIn_link : LinkKept [.lineState, .profileDefaulted] (opened s) (warmedIn s) := by
  have hset : LinkKept [.lineState, .profileDefaulted] (warming s) (setFlag .lineState (.line .warmup .loaded none) (warming s)) :=
    setFlag_kept _ _ (by simp)
  exact ((warming_link s).mono (by simp)).trans (linkKept_of_llk hset rfl (by rw [warmedIn_eq]))

theorem warmedIn_line : FlagSet .lineState (.line .warmup .loaded none) s (warmedIn s) := by
  have hset := setFlag_set .lineState (.line .warmup .loaded none) (warming s)
  have hleft : (warming s).llk.flags.get .lineState = s.llk.flags.get .lineState := (warming_link s).flags _ (by simp)
  rw [warmedIn_eq]
  exact flagSet_of_left hset hleft

theorem warmedIn_default :
    (warmedIn s).llk.flags.get .profileDefaulted = (warming s).llk.flags.get .profileDefaulted := by
  rw [warmedIn_eq]
  exact (setFlag_kept (ks := [.lineState]) _ (warming s) (by simp)).flags _ (by simp)

theorem warming_passes (h : ImagePasses s.pfs.image) : (warming s).llk = (opened s).llk := by
  rw [warming_llk, if_pos h]

theorem warming_defaulted (h : ¬ ImagePasses s.pfs.image) :
    FlagSet .profileDefaulted (.defaulted (if s.pfs.image.format = 1 then .crc else .format)) s (warming s) := by
  have hset := setFlag_set .profileDefaulted (.defaulted (if s.pfs.image.format = 1 then .crc else .format)) (opened s)
  unfold FlagSet at hset ⊢
  rw [warming_llk, if_neg h]
  exact hset

end

/-! ### The transmitter at the end of the load (R185, R195) -/

section
variable {s y : State} (hf : ¬ ImagePasses s.pfs.image) (hm : (s.llk.flags.get .profileDefaulted).masked = false)
  (hy : Told (warming s) y)
include hf hm hy

theorem defaulted_pending : .profileDefaulted ∈ y.llk.reports := by
  refine hy.reports.subset ?_
  rw [warming_llk, if_neg hf]
  exact setFlag_pending _ hm

/-- The reports of POWERUP come first, and with none of them the report of PROFILE_DEFAULTED. -/
theorem defaulted_reports : s.llk.reports <+: y.llk.reports ∧
    (s.llk.reports = [] → ∃ rest, y.llk.reports = .profileDefaulted :: rest ∧ .profileDefaulted ∉ rest) := by
  have htold := (setFlag_told .profileDefaulted (.defaulted (if s.pfs.image.format = 1 then .crc else .format)) (opened s))
  have hreports : (warming s).llk.reports =
      (setFlag .profileDefaulted (.defaulted (if s.pfs.image.format = 1 then .crc else .format)) (opened s)).llk.reports := by
    rw [warming_llk, if_neg hf]
  have hpre := hy.reports
  have honce := hy.once
  rw [hreports] at hpre honce
  refine ⟨htold.reports.trans hpre, fun hnil => ?_⟩
  have hsingle : (setFlag .profileDefaulted (.defaulted (if s.pfs.image.format = 1 then .crc else .format)) (opened s)).llk.reports =
      [.profileDefaulted] := by
    have hm' : ((opened s).llk.flags.get .profileDefaulted).masked = false := hm
    have hnil' : (opened s).llk.reports = [] := hnil
    simp [setFlag, hm', hnil']
  rw [hsingle] at hpre honce
  obtain ⟨rest, hrest⟩ := hpre
  have hnodup := honce (List.nodup_singleton _)
  rw [← hrest] at hnodup
  exact ⟨rest, hrest.symm, (List.nodup_cons.1 hnodup).1⟩

/-- The next line after the load (R185, R195; log entry 49). -/
theorem defaulted_line
    (hd : (y.llk.flags.get .profileDefaulted).detail = some (.defaulted (if s.pfs.image.format = 1 then .crc else .format))) :
    let t := pump y
    let line := TxLine.report .profileDefaulted (some (.defaulted (if s.pfs.image.format = 1 then .crc else .format)))
    let begun := t.llk.tx = some line ∧ .profileDefaulted ∉ t.llk.reports ∧ t.llk.opening = .done
    let waits := .profileDefaulted ∈ t.llk.reports
    let replyReady := ∃ r rest, s.llk.answers = .answered r :: rest;
    (s.llk.tx = none → ¬ replyReady → s.llk.reports = [] → begun) ∧
    (∀ r rest, s.llk.tx = none → s.llk.answers = .answered r :: rest →
      begun ∧ Config.defaultedSecond = true ∨ t.llk.tx = some (.reply r) ∧ waits ∧ Config.defaultedSecond = false) ∧
    (∀ k rest, s.llk.tx = none → ¬ replyReady → s.llk.reports = k :: rest → k ≠ .profileDefaulted →
      begun ∧ Config.defaultedSecond = true ∨
        t.llk.tx = some (.report k (t.llk.flags.get k).detail) ∧ waits ∧ Config.defaultedSecond = false) ∧
    (∀ l, s.llk.tx = some l → t.llk.tx = some l ∧ waits ∧
      t.llk.opening = if Config.defaultedSecond = false then .done else .due) := by
  intro t line begun waits replyReady
  have htold : Told (opened s) (warming s) := by
    have hset := setFlag_told .profileDefaulted (.defaulted (if s.pfs.image.format = 1 then .crc else .format)) (opened s)
    exact hset.trans (.of_llk (by rw [warming_llk, if_neg hf]))
  have hwhole := htold.trans hy
  have htx : y.llk.tx = s.llk.tx := hwhole.tx
  have hans : y.llk.answers = s.llk.answers := hwhole.answers
  have hopen : y.llk.opening = if Config.defaultedSecond = false then .done else .due := by
    refine hwhole.opening.trans ?_
    show loadedOpening s = _
    simp [loadedOpening, hf]
  have hmem := defaulted_pending hf hm hy
  obtain ⟨hpre, hsingle⟩ := defaulted_reports hf hm hy
  have hsecond : s.llk.tx = none → Config.defaultedSecond = true → begun := by
    intro hx hc
    have hp := pump_due (s := y) (by rw [hopen, hc]; rfl) (htx.trans hx) hmem
    show (pump y).llk.tx = _ ∧ _ ∉ (pump y).llk.reports ∧ (pump y).llk.opening = _
    rw [hp, hd]
    exact ⟨rfl, by simp, rfl⟩
  have hlast : s.llk.tx = none → Config.defaultedSecond = false → t = pickAvailable y := by
    intro hx hc
    exact pump_done (by rw [hopen, if_pos hc]) (htx.trans hx)
  have hready : ¬ replyReady → ¬ ∃ r rest, y.llk.answers = .answered r :: rest := by rw [hans]; exact id
  refine ⟨fun hx hr hnil => ?_, fun r rest hx hr => ?_, fun k rest hx hr hk hne => ?_, fun l hx => ?_⟩
  · cases hc : Config.defaultedSecond with
    | true => exact hsecond hx hc
    | false =>
      obtain ⟨rest, hrest, hnot⟩ := hsingle hnil
      show t.llk.tx = _ ∧ _ ∉ t.llk.reports ∧ t.llk.opening = _
      rw [hlast hx hc, pickAvailable_report (hready hr) hrest, hd]
      exact ⟨rfl, hnot, by rw [begin']; exact hopen.trans (if_pos hc)⟩
  · cases hc : Config.defaultedSecond with
    | true => exact .inl ⟨hsecond hx hc, rfl⟩
    | false =>
      refine .inr ⟨?_, ?_, rfl⟩
      · rw [hlast hx hc, pickAvailable_reply (hans.trans hr)]; rfl
      · show _ ∈ t.llk.reports
        rw [hlast hx hc, pickAvailable_reply (hans.trans hr)]; exact hmem
  · cases hc : Config.defaultedSecond with
    | true => exact .inl ⟨hsecond hx hc, rfl⟩
    | false =>
      rw [hk] at hpre
      obtain ⟨more, hmore⟩ := hpre
      have hpick := pickAvailable_report (hready hr) (k := k) (rest := rest ++ more) (by rw [← hmore]; rfl)
      refine .inr ⟨?_, ?_, rfl⟩
      · rw [hlast hx hc, hpick]; rfl
      · show _ ∈ t.llk.reports
        rw [hlast hx hc, hpick]
        rw [← hmore] at hmem
        exact (List.mem_cons.1 hmem).resolve_left (Ne.symm hne)
  · have hp : t = y := by
      show pump y = y
      unfold pump
      rw [htx, hx]
      rfl
    refine ⟨(congrArg (·.llk.tx) hp).trans (htx.trans hx), ?_, (congrArg (·.llk.opening) hp).trans hopen⟩
    show _ ∈ t.llk.reports
    rw [hp]
    exact hmem

end

/-! ### The whole load -/

section
variable (s : State)

theorem profileLoaded_warmed : profileLoaded s =
    { warmedIn s with scu := (tryCalibrate (warmedIn s)).scu, llk := (profileLoaded s).llk } := by
  have hstop := timersStoppedIf_llk (stops s) (tryCalibrate (warmedIn s))
  rw [← profileLoaded_eq] at hstop
  exact hstop.trans (congrArg (fun u : State => { u with llk := (profileLoaded s).llk }) (tryCalibrate_scu (warmedIn s)))

theorem profileLoaded_scu : (profileLoaded s).scu = (tryCalibrate (warmedIn s)).scu := by
  rw [profileLoaded_warmed]

theorem profileLoaded_state : profileLoaded s = { s with
    pfs := { s.pfs with profile := loadedProfile s }
    flc := { s.flc with
      line := .warmup, warmup := some s.now
      holds := { s.flc.holds with cancel := false, pockets := !(warmBlocked s).isEmpty } }
    pkc := { s.pkc with blocked := warmBlocked s }
    scu := (profileLoaded s).scu, llk := (profileLoaded s).llk } := by
  rw [profileLoaded_scu]
  exact (profileLoaded_warmed s).trans (congrArg (fun u : State => { u with
    scu := (tryCalibrate (warmedIn s)).scu, llk := (profileLoaded s).llk }) (warmedIn_eq s))

/-- The link after the load is that before the calibration, the repeat timers stopped or not. -/
theorem profileLoaded_llk : (profileLoaded s).llk = (timersStoppedIf (stops s) (warmedIn s)).llk := by
  have hv := congrArg State.llk (profileLoaded_eq s)
  refine hv.trans ?_
  rw [tryCalibrate_scu]
  unfold timersStoppedIf
  split <;> rfl

theorem profileLoaded_link :
    LinkKept [.lineState, .profileDefaulted] (timersStoppedIf (stops s) (opened s)) (profileLoaded s) :=
  linkKept_of_llk (linkKept_stopped (warmedIn_link s)) rfl (profileLoaded_llk s)

theorem profileLoaded_line : FlagSet .lineState (.line .warmup .loaded none) (timersStoppedIf (stops s) s) (profileLoaded s) :=
  (flagSet_stopped (warmedIn_line s)).of_eq (by rw [profileLoaded_llk])

theorem profileLoaded_told : Told (warming s) (profileLoaded s) :=
  ((warmedIn_told s).trans (timersStoppedIf_told (stops s) _)).trans (.of_llk (profileLoaded_llk s))

theorem profileLoaded_passes (h : ImagePasses s.pfs.image) :
    (profileLoaded s).llk.flags.get .profileDefaulted = (timersStoppedIf (stops s) s).llk.flags.get .profileDefaulted := by
  rw [profileLoaded_llk, timersStoppedIf_flag, timersStoppedIf_flag, warmedIn_default, warming_passes s h]
  rfl

theorem profileLoaded_defaulted (h : ¬ ImagePasses s.pfs.image) :
    FlagSet .profileDefaulted (.defaulted (if s.pfs.image.format = 1 then .crc else .format)) (timersStoppedIf (stops s) s)
      (profileLoaded s) := by
  have hwarm := (warming_defaulted s h).of_eq (u := warmedIn s) (warmedIn_default s)
  exact (flagSet_stopped hwarm).of_eq (by rw [profileLoaded_llk])

end

/-- Settles O17: the load is `warmedIn`, then the calibration that is due, the repeat timers and the end of the event. -/
theorem profileLoadEntersWarmup : Obligations.ProfileLoadEntersWarmup := by
  intro s hl
  refine ⟨_, congrArg Host.Outcome.next (if_pos hl), ?_⟩
  have hstate := profileLoaded_state s
  have hend := endEvent_eq s (profileLoaded s)
  have hlink := LinkKept_end (ks := [.lineState, .profileDefaulted, .feedHold]) s (by simp) ((profileLoaded_link s).mono (by simp))
  have hflags := (endEvent_kept (ks := [.feedHold]) s (profileLoaded s) (by simp)).flags
  have hjudged : HoldJudged (timersStoppedIf (stops s) s) (endEvent s (profileLoaded s)) := by
    rw [endEvent_from (s := timersStoppedIf (stops s) s) _ (by rw [timersStoppedIf_llk])]
    refine endEvent_judged (((profileLoaded_link s).flags .feedHold (by simp)).trans ?_) ?_
    · rw [timersStoppedIf_flag, timersStoppedIf_flag]; rfl
    · rw [hstate, timersStoppedIf_llk]
  have hlast : endEvent s (profileLoaded s) = pump (judgeHold s.flc.holds.any (profileLoaded s)) := rfl
  have htold := (profileLoaded_told s).trans (judgeHold_told s.flc.holds.any _)
  have hpumped := (pump_kept [] (judgeHold s.flc.holds.any (profileLoaded s))).flags .profileDefaulted (by simp)
  rw [← hlast] at hpumped
  have hline := FlagSet_end s (by decide) (profileLoaded_line s)
  have hnext := fun hf hm hd => defaulted_line hf hm htold hd
  rw [← hlast] at hnext
  have hflc : (endEvent s (profileLoaded s)).flc = (profileLoaded s).flc := by simp
  have hpkc : (endEvent s (profileLoaded s)).pkc = (profileLoaded s).pkc := by simp
  have hpfs : (endEvent s (profileLoaded s)).pfs = (profileLoaded s).pfs := by simp
  have hscu : (endEvent s (profileLoaded s)).scu = (tryCalibrate (warmedIn s)).scu := by rw [← profileLoaded_scu]; simp
  generalize endEvent s (profileLoaded s) = t at hend hlink hflags hjudged hline hpumped hnext hflc hpkc hpfs hscu ⊢
  have hblocked : t.pkc.blocked = warmBlocked s := by rw [hpkc, hstate]
  have hholds : t.flc.holds = { s.flc.holds with cancel := false, pockets := !(warmBlocked s).isEmpty } := by rw [hflc, hstate]
  have hprofile : t.pfs.profile = loadedProfile s := by rw [hpfs, hstate]
  have hu : (if t.pfs.profile.eventRepeat = 0 then timersStopped s else s) = timersStoppedIf (stops s) s := by
    rw [hprofile, stops, timersStoppedIf]
    simp only [decide_eq_true_eq]
  have hdefaulted : ¬ ImagePasses s.pfs.image →
      FlagSet .profileDefaulted (.defaulted (if s.pfs.image.format = 1 then .crc else .format)) (timersStoppedIf (stops s) s) t :=
    fun h => (profileLoaded_defaulted s h).of_eq (hflags _ (by simp))
  intro u
  have hu : u = timersStoppedIf (stops s) s := hu
  rw [hu]
  refine ⟨?_, ?_, hjudged, fun c => ?_, hline, fun hf => ?_, fun hf hp => ?_, fun hp => ?_, ?_, fun hf hm => ?_, fun hf => ?_, fun hf => ?_⟩
  · refine hend.trans ((congrArg (fun v : State => { withHolds v t with llk := t.llk }) hstate).trans ?_)
    rw [hblocked, hscu, ← profileLoaded_scu, hholds, withHolds, hholds]
    rfl
  · rw [hholds, hblocked]
  · have hsame : isBlocked t = isBlocked (warmedIn s) :=
      isBlocked_of_states (by rw [hpfs, hstate, warmedIn_eq]) fun q => by rw [hpkc, hstate, warmedIn_eq]
    rw [hblocked, warmedIn_blocked, hsame]
  · have hset := hdefaulted fun hp => hf hp.1
    rwa [if_neg hf] at hset
  · have hset := hdefaulted hp
    rwa [if_pos hf] at hset
  · exact (hflags _ (by simp)).trans (profileLoaded_passes s hp)
  · exact linkKept_of_llk hlink (opened_stopped (stops s) s).symm rfl
  · refine hnext hf hm ?_
    rw [← hpumped, hdefaulted hf]
  · have hwarm : (warmedIn s).scu = { s.scu with calDue := true } := by rw [warmedIn_eq]
    have hfree : stationFree (warmedIn s) = true := by
      rw [warmedIn_eq]
      exact hf
    obtain ⟨hheads, hrest⟩ := tryCalibrate_taken (s := warmedIn s) (by rw [hwarm]) hfree (by rw [warmedIn_eq]; nofun)
      (by rw [warmedIn_eq]; nofun)
    rw [← hscu, hwarm] at hheads hrest
    exact ⟨hheads, hrest.trans (by rw [warmedIn_eq])⟩
  · rw [hscu, tryCalibrate_kept, warmedIn_eq]
    rw [warmedIn_eq]
    exact .inr (.inr (.inr hf))

end Sys2Proof.Proofs
end

