-- ==== Sys2Proof/Proofs/Revival.lean ====
section
/-! PROOF. HEADRETRY, CANCELLER CLEAR, CAPTURE and RESTART (O60). -/

namespace Sys2Proof.Proofs

open Sys2Proof Sys2Proof.Machine Sys2Proof.Safety Sys2Proof.Laws

/-! ### Requests that leave the hold cause set -/

theorem effect_same {s u : State} (h : u.flc.holds = s.flc.holds) : effect s u = unanswered u := by
  rw [effect, judgeHold_same (by rw [h])]

theorem unanswered_link {ks : List Kind} {r : Request} {s u : State} (hi : LinkIdle s) (h : LinkKept ks (taking r s) u) :
    LinkKept ks (heard s) (unanswered u) where
  rest := by
    show ({ u.llk with answers := [] } : Llk) = _
    rw [h.rest, ← show (heard s).llk.answers = [] from hi.answers]
    rfl
  flags := h.flags
  reports := h.reports
  sending := h.sending
  opening := h.opening

/-! ### CAPTURE and RESTART (R51, R71, R74, R184) -/

/-- A link at rest has no answers to empty. -/
theorem unanswered_heard {s : State} (h : s.llk.answers = []) : unanswered (heard s) = heard s := by
  show ({ heard s with llk := { (heard s).llk with answers := [] } } : State) = heard s
  rw [← show (heard s).llk.answers = [] from h]

theorem capture_armed {s : State} (hi : LinkIdle s) (w : Option MarkClass) (hc : s.mkf.capture = .off) :
    Answers (.capture w) s (.ok (text "CAPTURE") [text "ARMED"]) (heard { s with mkf := { s.mkf with capture := .armed w } }) := by
  have hcap : (taking (.capture w) s).mkf.capture = .off := hc
  have ha := answers_of_perform (c := .capture w) hi rfl (show perform (.capture w) (taking (.capture w) s) = (_, .answered _) by
    simp only [perform, doCapture, hcap]; rfl)
  rw [effect_same (by rfl)] at ha
  have hu := unanswered_heard (s := { s with mkf := { s.mkf with capture := .armed w } }) hi.answers
  rw [← hu]
  exact ha

theorem capture_busy {s : State} (hi : LinkIdle s) (w : Option MarkClass) (hc : s.mkf.capture ≠ .off) :
    Answers (.capture w) s (.deny (text "CAPTURE") .busy none) (heard s) := by
  refine answers_unchanged hi rfl ?_
  show doCapture w (taking (.capture w) s) = _
  unfold doCapture
  split
  next h => exact absurd h hc
  next => rfl
  next => rfl

/-- The buffers after CAPTURE OFF: one in CAPTURE is freed (R74). -/
def uncapturedBufs (s : State) : PerBuf BufRec :=
  match s.mkf.capture with
  | .draining d => s.scu.bufs.set d.buf freeBuf
  | .armed _ => s.scu.bufs
  | .off => s.scu.bufs

/-- What CAPTURE OFF leaves of the slot and of a buffer in CAPTURE (R71, R74). -/
def uncapture (s : State) : State :=
  { s with mkf := { s.mkf with capture := .off }, scu := { s.scu with bufs := uncapturedBufs s } }

theorem uncapture_draining {s : State} {d : Draining} (h : s.mkf.capture = .draining d) : uncapture s =
    { s with mkf := { s.mkf with capture := .off }, scu := { s.scu with bufs := s.scu.bufs.set d.buf freeBuf } } := by
  rw [uncapture, uncapturedBufs, h]

theorem uncapture_undraining {s : State} (h : ∀ d, s.mkf.capture ≠ .draining d) :
    uncapture s = { s with mkf := { s.mkf with capture := .off } } := by
  rw [uncapture, uncapturedBufs]
  split
  next d hd => exact absurd hd (h d)
  next => rfl
  next => rfl

theorem doCaptureOff_eq (s : State) : doCaptureOff s = (uncapture s, .answered (.ok (text "CAPTURE") [text "OFF"])) := by
  unfold doCaptureOff uncapture uncapturedBufs
  cases h : s.mkf.capture with
  | off =>
    refine Prod.ext_iff.2 ⟨?_, rfl⟩
    exact congrArg (fun c => { s with mkf := { s.mkf with capture := c } }) h
  | armed w => rfl
  | draining d => rfl

theorem captureOff_answers {s : State} (hi : LinkIdle s) :
    Answers .captureOff s (.ok (text "CAPTURE") [text "OFF"]) (heard (uncapture s)) := by
  have ha := answers_of_perform (c := .captureOff) hi rfl (show perform .captureOff (taking .captureOff s) = _ from doCaptureOff_eq _)
  rw [effect_same (by rfl)] at ha
  rw [← unanswered_heard (s := uncapture s) hi.answers]
  exact ha

/-! A request taken while a line is being sent: its reply waits behind those before it (R180, R185). -/

section
variable {answers : List Item} (ha : ∀ x ∈ answers, ∃ a, x = Item.answered a)
include ha

theorem firstTakeable_behind (r : Request) : firstTakeable (answers ++ [.waiting r]) = some (answers, r, []) := by
  induction answers with
  | nil => rfl
  | cons x l ih =>
    obtain ⟨a, rfl⟩ := ha x List.mem_cons_self
    rw [List.cons_append, firstTakeable, ih fun y hy => ha y (List.mem_cons_of_mem _ hy)]
    rfl

theorem firstTakeable_answered : firstTakeable answers = none := by
  induction answers with
  | nil => rfl
  | cons x l ih =>
    obtain ⟨a, rfl⟩ := ha x List.mem_cons_self
    rw [firstTakeable, ih fun y hy => ha y (List.mem_cons_of_mem _ hy)]
    rfl

theorem waitingCount_answered : waitingCount answers = 0 := by
  refine List.countP_eq_zero.2 fun x hx => ?_
  obtain ⟨a, rfl⟩ := ha x hx
  simp

/-- A link with a line being sent and only answered items. -/
def busyWith (l : TxLine) (answers : List Item) (s : State) : State :=
  { s with llk := { s.llk with answers := answers, tx := some l } }

theorem submit_busy {s u : State} {r : Request} {a : Reply} {l : TxLine} (hr : s.llk.restarting = false) (hn : answers.length < 8)
    (hu : u.llk.restarting = false)
    (hp : perform r (busyWith l (answers ++ [.waiting r]) (heard s)) = (busyWith l (answers ++ [.waiting r]) u, .answered a)) :
    submit r (busyWith l answers s) = busyWith l (answers ++ [.answered a]) u := by
  have hall : ∀ x ∈ answers ++ [Item.answered a], ∃ b, x = Item.answered b := by
    intro x hx
    rcases List.mem_append.1 hx with hx | hx
    · exact ha x hx
    · exact ⟨a, List.mem_singleton.1 hx⟩
  have hjoin : join (.waiting r) (restartSilence (busyWith l answers s)) = busyWith l (answers ++ [.waiting r]) (heard s) := rfl
  have hanswers : (restartSilence (busyWith l answers s)).llk.answers = answers := rfl
  have hrest : (restartSilence (busyWith l answers s)).llk.restarting = false := hr
  have hlast : ∀ n, takeRequests n (busyWith l (answers ++ [.answered a]) u) = busyWith l (answers ++ [.answered a]) u := by
    intro n
    cases n with
    | zero => rfl
    | succ n =>
      have hnone : firstTakeable (busyWith l (answers ++ [.answered a]) u).llk.answers = none := firstTakeable_answered hall
      have hu' : (busyWith l (answers ++ [.answered a]) u).llk.restarting = false := hu
      rw [takeRequests, hu', hnone]
      rfl
  have hfirst : firstTakeable (busyWith l (answers ++ [.waiting r]) (heard s)).llk.answers = some (answers, r, []) :=
    firstTakeable_behind ha r
  have hr' : (busyWith l (answers ++ [.waiting r]) (heard s)).llk.restarting = false := hr
  unfold submit
  dsimp only
  rw [hrest, hanswers, waitingCount_answered ha, hjoin, if_neg nofun, if_neg (by omega), if_neg (by omega), takeRequests, hr', hfirst]
  simp only [hp, Bool.false_eq_true, if_false]
  exact hlast 7

end

theorem captureOff_busy {s : State} (hi : LinkIdle s) {l : TxLine} {answers : List Item} (hn : answers.length < 8)
    (ha : ∀ x ∈ answers, ∃ a, x = Item.answered a) : exec .captureOff (busyWith l answers s) =
      .next (busyWith l (answers ++ [.answered (.ok (text "CAPTURE") [text "OFF"])]) (heard (uncapture s))) := by
  have hs := submit_busy (l := l) (r := .captureOff) (u := heard (uncapture s)) ha hi.restarting hn hi.restarting (doCaptureOff_eq _)
  have hexec : exec .captureOff (busyWith l answers s) =
      .next (endEvent (busyWith l answers s) (submit .captureOff (busyWith l answers s))) := rfl
  rw [hexec, hs, endEvent_same (by rfl)]
  rfl

theorem restart_accepted {s : State} (hi : LinkIdle s) (hr : running s = false) :
    Answers .restart s (.ok (text "RESTART") []) { s with llk := { (heard s).llk with restarting := true } } := by
  have hline : s.flc.line = .powerup ∨ s.flc.line = .warmup ∨ s.flc.line = .standby ∨ s.flc.line = .fault := by
    unfold running at hr
    cases h : s.flc.line <;> simp [h] at hr ⊢
  have hp : perform .restart (taking .restart s) = ({ taking .restart s with llk := { (taking .restart s).llk with
      restarting := true } }, .answered (.ok (text "RESTART") [])) := by
    have hl : (taking .restart s).flc.line = s.flc.line := rfl
    rcases hline with h | h | h | h <;> simp only [perform, doRestart, hl, h] <;> rfl
  have ha := answers_of_perform (c := .restart) hi rfl hp
  rw [effect_same (by rfl)] at ha
  have hu : unanswered { taking .restart s with llk := { (taking .restart s).llk with restarting := true } } =
      { s with llk := { (heard s).llk with restarting := true } } := by
    show ({ heard s with llk := { (heard s).llk with answers := [], restarting := true } } : State) = _
    rw [← show (heard s).llk.answers = [] from hi.answers]
    rfl
  rwa [hu] at ha

theorem restart_refused {s : State} (hi : LinkIdle s) (hr : running s = true) :
    Answers .restart s (.deny (text "RESTART") .wrongState none) (heard s) := by
  have hline : s.flc.line = .starting ∨ s.flc.line = .run ∨ s.flc.line = .drain := by
    unfold running at hr
    cases h : s.flc.line <;> simp [h] at hr ⊢
  refine answers_unchanged hi rfl ?_
  have hl : (taking .restart s).flc.line = s.flc.line := rfl
  rcases hline with h | h | h <;> simp only [perform, doRestart, hl, h] <;> rfl

/-! ### HEADRETRY (R38) -/

/-- A head made COLD, with a calibration due (R38, R41). -/
def headRevived (h : Head) (s : State) : State :=
  let t := headMoved h .cold s
  { t with scu := { t.scu with calDue := true } }

section
variable {h : Head} {s : State}

theorem headRetry_refused (hi : LinkIdle s) (hr : (s.scu.heads.get h).state ≠ .failed) :
    Answers (.headRetry h) s (.deny (text "HEADRETRY") .wrongState none) (heard s) :=
  answers_unchanged hi rfl (if_neg hr)

theorem headTo_cold (h : Head) (s : State) : headTo h .cold s = headMoved h .cold s := by
  have hundegraded : ¬ Degrades .cold s := fun ⟨hx, _⟩ => by simp at hx
  rw [headTo_undegraded hundegraded, checkWarm_stays]
  exact fun hw => by cases (warm_headMoved.1 hw).2.1

/-- A head's state and run count have no part in the station (R40). -/
theorem stationFree_revived : stationFree (headRevived h s) = stationFree s := by
  have hget : ∀ g, ((headRevived h s).scu.heads.get g).out = (s.scu.heads.get g).out ∧
      ((headRevived h s).scu.heads.get g).waiting = (s.scu.heads.get g).waiting := by
    intro g
    have hg : (headRevived h s).scu.heads.get g =
        if g = h then { s.scu.heads.get h with state := .cold, run := 0 } else s.scu.heads.get g := updHead_get h g _ s
    rw [hg]
    split
    next hgh => rw [hgh]; exact ⟨rfl, rfl⟩
    next => exact ⟨rfl, rfl⟩
  rw [Bool.eq_iff_iff, stationFree_iff, stationFree_iff]
  simp only [hget]
  rfl

theorem headRetry_accepted (hi : LinkIdle s) (hr : (s.scu.heads.get h).state = .failed) :
    Answers (.headRetry h) s (.ok (text "HEADRETRY") [headName h, text "COLD"])
      (unanswered (tryCalibrate (headRevived h (taking (.headRetry h) s)))) := by
  have hp : perform (.headRetry h) (taking (.headRetry h) s) = (tryCalibrate (headRevived h (taking (.headRetry h) s)),
      .answered (.ok (text "HEADRETRY") [headName h, text "COLD"])) := by
    have hif : doHeadRetry h (taking (.headRetry h) s) = _ := if_pos hr
    refine hif.trans ?_
    rw [headTo_cold]
    rfl
  have ha := answers_of_perform (c := .headRetry h) hi rfl hp
  rwa [effect_same (by rw [tryCalibrate_scu]; rfl)] at ha

/-- What HEADRETRY leaves (R38, R41). -/
theorem headRetry_effect (hi : LinkIdle s) :
    let u := unanswered (tryCalibrate (headRevived h (taking (.headRetry h) s)))
    let v := { s with scu := { s.scu with heads := s.scu.heads.set h { s.scu.heads.get h with state := .cold, run := 0 } } };
    FlagSet .headState (.head h .cold) s u ∧ LinkKept [.headState] (heard s) u ∧ u = { s with scu := u.scu, llk := u.llk } ∧
      ((stationFree s = false ∨ s.flc.line = .powerup ∨ s.flc.line = .fault) → u.scu = { v.scu with calDue := true }) ∧
      (stationFree s = true → s.flc.line ≠ .powerup → s.flc.line ≠ .fault → Calibrated v u) := by
  intro u v
  have hcal := tryCalibrate_scu (headRevived h (taking (.headRetry h) s))
  have hfree : stationFree (headRevived h (taking (.headRetry h) s)) = stationFree s := stationFree_revived
  have hlink : LinkKept [.headState] (taking (.headRetry h) s) (headRevived h (taking (.headRetry h) s)) :=
    linkKept_of_llk (setFlag_kept _ (taking (.headRetry h) s) (by simp)) rfl rfl
  refine ⟨?_, unanswered_link hi (hlink.trans (.of_eq (by rw [hcal]))), ?_, fun hx => ?_, fun hf hp hl => ?_⟩
  · have hset := setFlag_set .headState (.head h .cold) s
    refine FlagSet.of_eq hset ?_
    show (tryCalibrate (headRevived h (taking (.headRetry h) s))).llk.flags.get .headState = _
    rw [hcal]
    rfl
  · have hllk : (tryCalibrate (headRevived h (taking (.headRetry h) s))).llk = (headRevived h (taking (.headRetry h) s)).llk := by
      rw [hcal]
    refine (congrArg unanswered hcal).trans ?_
    show _ = ({ s with
      scu := (tryCalibrate (headRevived h (taking (.headRetry h) s))).scu
      llk := { (tryCalibrate (headRevived h (taking (.headRetry h) s))).llk with answers := [] } } : State)
    rw [hllk]
    rfl
  · show (tryCalibrate (headRevived h (taking (.headRetry h) s))).scu = _
    rw [tryCalibrate_kept]
    · rfl
    · rw [hfree]
      rcases hx with hx | hx | hx
      · exact .inr (.inr (.inr hx))
      · exact .inr (.inl hx)
      · exact .inr (.inr (.inl hx))
  · obtain ⟨hheads, hrest⟩ := tryCalibrate_taken (s := headRevived h (taking (.headRetry h) s)) rfl (hfree.trans hf) hp hl
    exact ⟨hheads, hrest⟩

end

/-! ### CANCELLER CLEAR (R114) -/

/-- A canceller's record after CLEAR (R114). -/
def clearedRec (s : State) (r : CancRec) : CancRec :=
  if running s then
    { r with state := .priming, cause := none, parityRun := 0, primeTimer := some s.now, frames := r.frames ++ [.prime] }
  else { r with state := .off, cause := none, frames := r.frames ++ [.standby] }

/-- A canceller in FAULT cleared, the hold cause CANCEL apart (R114, R119). -/
def cancCleared (c : Stream) (s : State) : State :=
  setFlag .cancellerState (.canceller c (if running s then .priming else .off) none) (updCanc c (clearedRec s) s)

section
variable {c : Stream} {s : State}

theorem cancTo_unfaulted {x : CancState} (hx : x ≠ .fault) (hs : (s.can.recs.get c).state = .fault) : cancTo c x s =
    refreshCancel (setFlag .cancellerState (.canceller c x none) (updCanc c (fun r => { r with state := x }) s)) := by
  have hreported : (s.can.recs.get c).state ≠ x ∧ (cancReported (s.can.recs.get c).state = true ∨ cancReported x = true) := by
    rw [hs]
    exact ⟨Ne.symm hx, .inl rfl⟩
  unfold cancTo
  dsimp only
  rw [if_pos hreported, if_neg hx]

theorem cancellerClear_refused (hi : LinkIdle s) (hr : (s.can.recs.get c).state ≠ .fault) :
    Answers (.cancellerClear c) s (.deny (text "CANCELLER") .wrongState none) (heard s) :=
  answers_unchanged hi rfl (if_neg hr)

/-- The steps of CLEAR, as one change of the record. -/
theorem cancellerClear_steps (hr : (s.can.recs.get c).state = .fault) :
    (if running s then cancPrime c (updCanc c (fun r => { r with cause := none }) s)
      else cancTo c .off (sendFrame c .standby (updCanc c (fun r => { r with cause := none }) s))) =
    refreshCancel (cancCleared c s) := by
  have hfault : ∀ f : CancRec → CancRec, (f (s.can.recs.get c)).state = (s.can.recs.get c).state →
      ((updCanc c f s).can.recs.get c).state = .fault := fun f hf => by rw [updCanc_get, hf, hr]
  unfold cancPrime cancCleared clearedRec sendFrame
  dsimp only
  split
  next =>
    rw [updCanc_updCanc, updCanc_updCanc, cancTo_unfaulted (by decide) (hfault _ rfl), updCanc_updCanc]
    rfl
  next =>
    rw [updCanc_updCanc, cancTo_unfaulted (by decide) (hfault _ rfl), updCanc_updCanc]
    rfl

/-- The change that CLEAR makes, with the hold cause CANCEL after it (R114, R117). -/
theorem doCancellerClear_eq (hr : (s.can.recs.get c).state = .fault) : doCancellerClear c s =
    (refreshCancel (cancCleared c s),
      .answered (.ok (text "CANCELLER") [streamName c, if running s then text "PRIMING" else text "OFF"])) := by
  have hsteps := cancellerClear_steps hr
  have hget : ((refreshCancel (cancCleared c s)).can.recs.get c).state = if running s then .priming else .off := by
    have hrec : (refreshCancel (cancCleared c s)).can.recs.get c = clearedRec s (s.can.recs.get c) := updCanc_get c (clearedRec s) s
    rw [hrec, clearedRec]
    split <;> rfl
  have hname : cancStateName (if running s then .priming else .off) = if running s then text "PRIMING" else text "OFF" := by
    split <;> rfl
  have hif : doCancellerClear c s = _ := if_pos hr
  refine hif.trans ?_
  show ((if running s then _ else _ : State),
    accept .canceller [streamName c, cancStateName ((if running s then _ else _ : State).can.recs.get c).state]) = _
  rw [hsteps, hget, hname]
  rfl

theorem cancellerClear_accepted (hi : LinkIdle s) (hr : (s.can.recs.get c).state = .fault) : Answers (.cancellerClear c) s
    (.ok (text "CANCELLER") [streamName c, if running s then text "PRIMING" else text "OFF"])
    (effect s (refreshCancel (cancCleared c (taking (.cancellerClear c) s)))) :=
  answers_of_perform (c := .cancellerClear c) hi rfl (doCancellerClear_eq (s := taking (.cancellerClear c) s) hr)

/-- What CLEAR leaves (R114, R117, R119). -/
theorem cancellerClear_effect (hi : LinkIdle s) :
    let u := effect s (refreshCancel (cancCleared c (taking (.cancellerClear c) s)))
    CancellerKept c (heard s) u ∧ u.trk.table = s.trk.table ∧ LinkKept [.cancellerState, .feedHold] (heard s) u ∧
      FlagSet .cancellerState (.canceller c (if running s then .priming else .off) none) s u ∧
      u.can.recs.get c = clearedRec s (s.can.recs.get c) := by
  rw [refreshCancel_owed]
  generalize hw : setHold .cancel (cancelOwed (cancCleared c (taking (.cancellerClear c) s)))
    (cancCleared c (taking (.cancellerClear c) s)) = w
  intro u
  have hu : u = effect s w := rfl
  have heq := effect_eq s w
  rw [← hu] at heq
  have hcan : u.can = { s.can with recs := s.can.recs.upd c (clearedRec s) } := by rw [heq, ← hw]; rfl
  have hlink : LinkKept [.cancellerState] (taking (.cancellerClear c) s) w := by
    rw [← hw]
    exact linkKept_of_llk (setFlag_kept _ (taking (.cancellerClear c) s) (by simp)) rfl rfl
  have howed : cancelOwed (cancCleared c (taking (.cancellerClear c) s)) =
      decide (s.pfs.profile.cancelPolicy = .hold ∧ (s.flc.line = .starting ∨ s.flc.line = .run) ∧ cancellerOut u = true) := by
    have hout : cancellerOut u = cancellerOut (cancCleared c (taking (.cancellerClear c) s)) := by
      unfold cancellerOut
      rw [hcan]
      rfl
    rw [hout]
    rfl
  have hmoved : HoldMoved .cancel (decide (s.pfs.profile.cancelPolicy = .hold ∧ (s.flc.line = .starting ∨ s.flc.line = .run) ∧
      cancellerOut u = true)) s u := by
    refine effect_moved ?_ (hlink.flags .feedHold (by simp)) ?_
    · rw [← howed, ← hw]; rfl
    · rw [← hw]; rfl
  have hrest : u = { withHolds (heard s) u with trk := { s.trk with table := u.trk.table }, can := u.can, llk := u.llk } := by
    rw [heq, ← hw]
    rfl
  have htable : u.trk.table = s.trk.table := by rw [heq, ← hw]; rfl
  refine ⟨⟨hrest, by rw [htable]; rfl, fun n e _ _ he => ?_, fun d hd => ?_, by rw [hcan]; rfl, ?_⟩, htable,
    effect_kept hi (by simp) (hlink.mono (by simp)), ?_, ?_⟩
  · rw [entry_of_table (s := heard s) htable, he]
    rfl
  · rw [hcan]
    exact PerStream.get_upd_ne _ _ (Ne.symm hd)
  · exact ⟨⟨hmoved.flag, hmoved.count⟩, hmoved.holds⟩
  · have hset := setFlag_set .cancellerState (.canceller c (if running s then .priming else .off) none) s
    refine FlagSet.of_eq hset ((effect_flags s w (by decide)).trans ?_)
    rw [← hw]
    rfl
  · rw [hcan]
    exact PerStream.get_upd_self _ _ _

end

/-- Settles O60: each request, accepted and refused. -/
theorem revivalCaptureAndRestart : Obligations.RevivalCaptureAndRestart := by
  refine ⟨fun s hi => ⟨fun h => ⟨headRetry_refused hi, fun hr => ⟨_, headRetry_accepted hi hr, headRetry_effect hi⟩⟩, fun c =>
    ⟨cancellerClear_refused hi, fun hr => ⟨_, cancellerClear_accepted hi hr, cancellerClear_effect hi⟩⟩⟩,
    fun s hi => ⟨capture_armed hi, capture_busy hi, fun hd => ?_, fun d hd => ?_, fun d l answers hd hn ha => ?_, fun hr =>
      ⟨_, restart_accepted hi hr, rfl⟩, restart_refused hi⟩⟩
  · rw [← uncapture_undraining hd]
    exact captureOff_answers hi
  · rw [← uncapture_draining hd]
    exact captureOff_answers hi
  · rw [← uncapture_draining hd]
    exact captureOff_busy hi hn ha

end Sys2Proof.Proofs
end

