-- ==== Sys2Proof/Proofs/MarkFinder.lean ====
section
/-! PROOF. The mark computation (O31): net values, windows and candidates, the choice among them, and the mark result. -/

namespace Sys2Proof.Proofs

open Sys2Proof Sys2Proof.Machine Sys2Proof.Safety Sys2Proof.Laws

/-! ### Normalising and background (R56, R57) -/

theorem normalise_le (lnom lref v : Nat) : normalise lnom lref v ≤ 1023 := by
  unfold normalise
  split <;> omega

theorem normalise_unlimited {lnom lref v : Nat} (hv : v ≠ 1023) (hq : v * lnom / lref ≤ 1023) :
    normalise lnom lref v = v * lnom / lref := by
  rw [normalise, if_neg hv, min_eq_right hq]

theorem normalise_limited {lnom lref v : Nat} (h : v = 1023 ∨ 1023 < v * lnom / lref) : normalise lnom lref v = 1023 := by
  unfold normalise
  split <;> omega

/-- The smallest value found from a starting value on: none is smaller, and it is the starting value or that of some cell. -/
theorem smallest_spec (c : Channel) (cells : List Sample) (m : Nat) :
    let b := cells.foldl (fun m v => min m (v.get c)) m
    b ≤ m ∧ (∀ v ∈ cells, b ≤ v.get c) ∧ (b = m ∨ ∃ v ∈ cells, v.get c = b) := by
  induction cells generalizing m with
  | nil => exact ⟨le_rfl, nofun, .inl rfl⟩
  | cons v cells ih =>
    obtain ⟨hle, hall, hsome⟩ := ih (min m (v.get c))
    refine ⟨hle.trans (min_le_left _ _), List.forall_mem_cons.2 ⟨hle.trans (min_le_right _ _), hall⟩, ?_⟩
    rw [List.foldl_cons, List.exists_mem_cons_iff]
    rcases hsome with hb | hb
    · rcases min_choice m (v.get c) with hm | hm
      · exact .inl (hb.trans hm)
      · exact .inr (.inl (hm.symm.trans hb.symm))
    · exact .inr (.inr hb)

theorem background_le {c : Channel} {cells : List Sample} {v : Sample} (hv : v ∈ cells) : background c cells ≤ v.get c :=
  (smallest_spec c cells 1023).2.1 v hv

/-- Some cell has the background value (R57). -/
theorem background_attained {c : Channel} {cells : List Sample} (hne : cells ≠ []) (hle : ∀ v ∈ cells, v.get c ≤ 1023) :
    ∃ v ∈ cells, v.get c = background c cells := by
  obtain ⟨-, hall, hb | hb⟩ := smallest_spec c cells 1023
  · obtain ⟨v, hv⟩ := List.exists_mem_of_ne_nil cells hne
    exact ⟨v, hv, le_antisymm ((hle v hv).trans hb.ge) (hall v hv)⟩
  · exact hb

theorem normalSample_get (lnom lref : Nat) (v : Sample) (c : Channel) :
    (normalSample lnom lref v).get c = normalise lnom lref (v.get c) := by
  cases c <;> rfl

/-- A normalised sample less the backgrounds of its head's cells (R57). -/
def netSample (normal : List Sample) (v : Sample) : Sample where
  gp := v.gp - background .gp normal
  ga := v.ga - background .ga normal
  rp := v.rp - background .rp normal

theorem netSample_get (normal : List Sample) (v : Sample) (c : Channel) :
    (netSample normal v).get c = v.get c - background c normal := by
  cases c <;> rfl

theorem netCells_eq (lnom lref : Nat) (raw : List Sample) : netCells lnom lref raw =
    (raw.map (normalSample lnom lref)).map (netSample (raw.map (normalSample lnom lref))) := rfl

/-- The net values of a channel are the normalised ones less their smallest (R57). -/
theorem netCells_spec (lnom lref : Nat) {raw : List Sample} (c : Channel) (hne : raw ≠ []) :
    ∃ b, (netCells lnom lref raw).map (fun v => v.get c + b) = raw.map (fun v => normalise lnom lref (v.get c)) ∧
      (∃ v ∈ netCells lnom lref raw, v.get c = 0) ∧ ∀ v ∈ netCells lnom lref raw, v.get c ≤ 1023 := by
  have hnormal : ∀ v ∈ raw.map (normalSample lnom lref), v.get c ≤ 1023 := by
    intro v hv
    obtain ⟨x, -, rfl⟩ := List.mem_map.1 hv
    rw [normalSample_get]
    exact normalise_le ..
  have hvalues : raw.map (fun v => normalise lnom lref (v.get c)) = (raw.map (normalSample lnom lref)).map fun v => v.get c := by
    rw [List.map_map]
    exact List.map_congr_left fun v _ => (normalSample_get lnom lref v c).symm
  have hcells : raw.map (normalSample lnom lref) ≠ [] := mt List.map_eq_nil_iff.1 hne
  rw [netCells_eq, hvalues]
  generalize raw.map (normalSample lnom lref) = cells at hnormal hcells
  refine ⟨background c cells, ?_, ?_, fun v hv => ?_⟩
  · rw [List.map_map]
    refine List.map_congr_left fun v hv => ?_
    rw [Function.comp_apply, netSample_get, Nat.sub_add_cancel (background_le hv)]
  · obtain ⟨v, hv, hb⟩ := background_attained hcells hnormal
    exact ⟨_, List.mem_map_of_mem hv, by rw [netSample_get, hb, Nat.sub_self]⟩
  · obtain ⟨x, hx, rfl⟩ := List.mem_map.1 hv
    rw [netSample_get]
    exact (Nat.sub_le _ _).trans (hnormal x hx)

/-! ### The afterglow ratio (R58) -/

theorem q_unlit {x : Window} (h : x.sGp = 0) : x.q = 0 := if_pos h

theorem q_lit {x : Window} (h : x.sGp ≠ 0) :
    (256 * x.sGa / x.sGp ≤ 255 → x.q = 256 * x.sGa / x.sGp) ∧ (255 < 256 * x.sGa / x.sGp → x.q = 255) := by
  rw [Window.q, if_neg h]
  exact ⟨min_eq_right, fun hq => min_eq_left hq.le⟩

/-! ### The first of greatest strength (R61, R63) -/

/-- `m` is the first of the elements with `p` that are strongest among those with `p`. -/
def FirstStrongest {α : Type} (strength : α → Nat) (p : α → Prop) (l : List α) (m : α) : Prop :=
  ∃ a b, l = a ++ m :: b ∧ p m ∧ (∀ x ∈ a, p x → strength x < strength m) ∧ ∀ x ∈ b, p x → strength x ≤ strength m

section
variable {α β : Type} {f : α → Nat} {p : α → Prop} {l : List α} {m : α}

theorem strongest_eq_none : strongest f l = none ↔ l = [] := by
  cases l with
  | nil => exact iff_of_true rfl rfl
  | cons x l =>
    refine iff_of_false ?_ nofun
    unfold strongest
    split
    next => nofun
    next => split <;> nofun

theorem strongest_map (g : β → α) (l : List β) : strongest f (l.map g) = (strongest (f ∘ g) l).map g := by
  induction l with
  | nil => rfl
  | cons x l ih =>
    rw [List.map_cons, strongest, strongest, ih]
    cases strongest (f ∘ g) l with
    | none => rfl
    | some y => exact (apply_ite (Option.map g) (f (g x) < f (g y)) (some y) (some x)).symm

theorem strongest_first (h : strongest f l = some m) : FirstStrongest f (fun _ => True) l m := by
  induction l generalizing m with
  | nil => cases h
  | cons x l ih =>
    unfold strongest at h
    split at h
    next hnone =>
      cases h
      rw [strongest_eq_none.1 hnone]
      exact ⟨[], [], rfl, trivial, nofun, nofun⟩
    next y hy =>
      obtain ⟨a, b, rfl, -, ha, hb⟩ := ih hy
      split at h <;> cases h
      next hlt => exact ⟨x :: a, b, rfl, trivial, List.forall_mem_cons.2 ⟨fun _ => hlt, ha⟩, hb⟩
      next hge =>
        have hyx := Nat.not_lt.1 hge
        refine ⟨[], a ++ y :: b, rfl, trivial, nofun, fun z hz _ => ?_⟩
        rcases List.mem_append.1 hz with hz | hz
        · exact (ha z hz trivial).le.trans hyx
        · rcases List.mem_cons.1 hz with rfl | hz
          · exact hyx
          · exact (hb z hz trivial).trans hyx

/-- Among the elements a test keeps, the first strongest stands in the whole list. -/
theorem strongest_filter {t : α → Bool} (ht : ∀ x, t x = true ↔ p x) (h : strongest f (l.filter t) = some m) :
    FirstStrongest f p l m := by
  obtain ⟨a, b, hl, -, ha, hb⟩ := strongest_first h
  obtain ⟨l1, l2, rfl, rfl, h2⟩ := List.filter_eq_append_iff.1 hl
  obtain ⟨c, d, rfl, hc, hm, rfl⟩ := List.filter_eq_cons_iff.1 h2
  refine ⟨l1 ++ c, d, (List.append_assoc ..).symm, (ht m).1 hm, fun x hx hp => ?_, fun x hx hp =>
    hb x (List.mem_filter.2 ⟨hx, (ht x).2 hp⟩) trivial⟩
  rcases List.mem_append.1 hx with hx | hx
  · exact ha x (List.mem_filter.2 ⟨hx, (ht x).2 hp⟩) trivial
  · exact absurd ((ht x).2 hp) (hc x hx)

theorem FirstStrongest.mem (h : FirstStrongest f p l m) : m ∈ l ∧ p m := by
  obtain ⟨a, b, rfl, hm, -, -⟩ := h
  exact ⟨List.mem_append_right _ List.mem_cons_self, hm⟩

theorem FirstStrongest.le (h : FirstStrongest f p l m) {x : α} (hx : x ∈ l) (hp : p x) : f x ≤ f m := by
  obtain ⟨a, b, rfl, -, ha, hb⟩ := h
  rcases List.mem_append.1 hx with hx | hx
  · exact (ha x hx hp).le
  · rcases List.mem_cons.1 hx with rfl | hx
    · exact le_rfl
    · exact hb x hx hp

/-- A strongest element there is exactly where some element passes. -/
theorem strongest_filter_none {t : α → Bool} (ht : ∀ x, t x = true ↔ p x) : strongest f (l.filter t) = none ↔ ∀ x ∈ l, ¬ p x := by
  rw [strongest_eq_none, List.filter_eq_nil_iff]
  exact forall₂_congr fun x _ => not_congr (ht x)

end

/-- Among the numbers below a bound, the first strongest is stronger than every smaller one. -/
theorem FirstStrongest.of_range {f : Nat → Nat} {p : Nat → Prop} {k j : Nat} (h : FirstStrongest f p (List.range k) j) :
    j < k ∧ p j ∧ ∀ i < k, p i → f i ≤ f j ∧ (i < j → f i < f j) := by
  refine ⟨List.mem_range.1 h.mem.1, h.mem.2, fun i hi hp => ⟨h.le (List.mem_range.2 hi) hp, fun hij => ?_⟩⟩
  obtain ⟨a, b, hl, -, ha, -⟩ := h
  have hmem : i ∈ a ++ j :: b := hl ▸ List.mem_range.2 hi
  have hrise : (j :: b).Pairwise (· < ·) := (List.pairwise_append.1 (hl ▸ List.pairwise_lt_range)).2.1
  rcases List.mem_append.1 hmem with hia | hib
  · exact ha i hia hp
  · rcases List.mem_cons.1 hib with rfl | hib
    · exact absurd hij (lt_irrefl _)
    · exact absurd hij (List.rel_of_pairwise_cons hrise hib).not_gt

/-! ### Windows and candidates (R58 to R61) -/

/-- The window starting at a cell lies in the cells scanned and belongs to a zone (R58, R59). -/
def WindowIn (l : Latched) (zn : Zone) (j : Nat) : Prop :=
  j + l.w ≤ l.n ∧ if zn = .lead then j + l.w ≤ l.z else l.n ≤ j + l.z

theorem inZone_iff (l : Latched) (zn : Zone) (j : Nat) :
    (j < l.n + 1 - l.w ∧ inZone l j zn = true) ↔ WindowIn l zn j := by
  unfold WindowIn
  cases zn <;> simp [inZone] <;> omega

/-- The start of the strongest window of a zone that passes the test of a kind, the first at equal strength (R61). -/
def StrongestAt (l : Latched) (net : List Sample) (zn : Zone) (k : MarkKind) (j : Nat) : Prop :=
  WindowIn l zn j ∧ passesKind l (window l.w j net) k = true ∧ ∀ i, WindowIn l zn i → passesKind l (window l.w i net) k = true →
    strengthOf (window l.w i net) k ≤ strengthOf (window l.w j net) k ∧
      (i < j → strengthOf (window l.w i net) k < strengthOf (window l.w j net) k)

section
variable {l : Latched} {net : List Sample} {zn : Zone} {k : MarkKind}

theorem StrongestAt.unique {i j : Nat} (hi : StrongestAt l net zn k i) (hj : StrongestAt l net zn k j) : i = j := by
  obtain ⟨hin, hip, himax⟩ := hi
  obtain ⟨hjn, hjp, hjmax⟩ := hj
  have := himax j hjn hjp
  have := hjmax i hin hip
  omega

/-- The strongest window of a zone, by its start. -/
theorem strongest_window (l : Latched) (net : List Sample) (zn : Zone) (k : MarkKind) :
    strongest (fun x => strengthOf x k) ((zoneWindows l net zn).filter fun x => passesKind l x k) =
      (strongest (fun j => strengthOf (window l.w j net) k) ((List.range (l.n + 1 - l.w)).filter fun j =>
        passesKind l (window l.w j net) k && inZone l j zn)).map fun j => window l.w j net := by
  unfold zoneWindows
  rw [List.filter_map, strongest_map, List.filter_filter]
  rfl

theorem strongestAt_of {j : Nat} (h : strongest (fun j => strengthOf (window l.w j net) k) ((List.range (l.n + 1 - l.w)).filter fun j =>
    passesKind l (window l.w j net) k && inZone l j zn) = some j) : StrongestAt l net zn k j := by
  obtain ⟨hj, ⟨hp, hz⟩, hmax⟩ := (strongest_filter (fun _ => Bool.and_eq_true_iff) h).of_range
  refine ⟨(inZone_iff l zn j).1 ⟨hj, hz⟩, hp, fun i hi hpi => ?_⟩
  obtain ⟨hlt, hzi⟩ := (inZone_iff l zn i).2 hi
  exact hmax i hlt ⟨hpi, hzi⟩

/-- The candidate of a head, zone and kind is its strongest window, the first at equal strength (R61). -/
theorem candidate_iff {h : Head} {c : Candidate} : candidate l h zn (zoneWindows l net zn) k = some c ↔
    ∃ j, StrongestAt l net zn k j ∧
      c = { kind := k, head := h, zone := zn, strength := strengthOf (window l.w j net) k, win := window l.w j net } := by
  rw [candidate, strongest_window, Option.map_map, Option.map_eq_some_iff]
  refine ⟨fun ⟨j, hj, hc⟩ => ⟨j, strongestAt_of hj, hc.symm⟩, fun ⟨j, hj, hc⟩ => ⟨j, ?_, hc.symm⟩⟩
  cases hs : strongest (fun j => strengthOf (window l.w j net) k) ((List.range (l.n + 1 - l.w)).filter fun j =>
      passesKind l (window l.w j net) k && inZone l j zn) with
  | none =>
    obtain ⟨hlt, hz⟩ := (inZone_iff l zn j).2 hj.1
    exact absurd ⟨hj.2.1, hz⟩ ((strongest_filter_none fun _ => Bool.and_eq_true_iff).1 hs j (List.mem_range.2 hlt))
  | some i => rw [(strongestAt_of hs).unique hj]

end

/-- The zones and kinds of a head's candidates, in their order. -/
def candidatePlaces : List (Zone × MarkKind) :=
  [(.lead, .phosphor), (.lead, .meter), (.lead, .bright), (.trail, .phosphor), (.trail, .meter), (.trail, .bright)]

theorem mem_candidatePlaces (q : Zone × MarkKind) : q ∈ candidatePlaces := by
  obtain ⟨_ | _, _ | _ | _⟩ := q <;> decide

theorem headCandidates_eq (l : Latched) (h : Head) (net : List Sample) : headCandidates l h net =
    candidatePlaces.filterMap fun q => candidate l h q.1 (zoneWindows l net q.1) q.2 := rfl

theorem mem_headCandidates {l : Latched} {h : Head} {net : List Sample} {c : Candidate} : c ∈ headCandidates l h net ↔
    c.head = h ∧ ∃ j, StrongestAt l net c.zone c.kind j ∧ c.win = window l.w j net ∧ c.strength = strengthOf (window l.w j net) c.kind := by
  rw [headCandidates_eq, List.mem_filterMap]
  constructor
  · rintro ⟨q, -, hq⟩
    obtain ⟨j, hj, rfl⟩ := candidate_iff.1 hq
    exact ⟨rfl, j, hj, rfl, rfl⟩
  · rintro ⟨rfl, j, hj, hwin, hstrength⟩
    refine ⟨(c.zone, c.kind), mem_candidatePlaces _, candidate_iff.2 ⟨j, hj, ?_⟩⟩
    rw [← hstrength, ← hwin]

/-- R61: the candidates are those of the usable heads. -/
theorem mem_candidates {l : Latched} {net : PerHead (List Sample)} {c : Candidate} : c ∈ candidates l net ↔
    l.usable.get c.head = true ∧ ∃ j, StrongestAt l (net.get c.head) c.zone c.kind j ∧ c.win = window l.w j (net.get c.head) ∧
      c.strength = strengthOf (window l.w j (net.get c.head)) c.kind := by
  rw [candidates, List.mem_flatMap]
  constructor
  · rintro ⟨h, -, hc⟩
    split at hc
    next hu =>
      obtain ⟨rfl, hj⟩ := mem_headCandidates.1 hc
      exact ⟨hu, hj⟩
    next => cases hc
  · rintro ⟨hu, hj⟩
    refine ⟨c.head, by cases c.head <;> decide, ?_⟩
    rw [if_pos hu]
    exact mem_headCandidates.2 ⟨rfl, hj⟩

theorem pairwise_split {α : Type} (l : List α) : l.Pairwise fun a b => ∃ x y z, l = x ++ a :: y ++ b :: z := by
  induction l with
  | nil => exact .nil
  | cons a l ih =>
    refine List.pairwise_cons.2 ⟨fun b hb => ?_, ih.imp fun ⟨x, y, z, h⟩ => ⟨_ :: x, y, z, congrArg _ h⟩⟩
    obtain ⟨y, z, rfl⟩ := List.append_of_mem hb
    exact ⟨[], y, z, rfl⟩

/-- Candidate `a` comes before `b` in the order of R61. -/
def CandidateBefore (a b : Candidate) : Prop :=
  (∃ x y z, [Head.ft, .fb, .bt, .bb] = x ++ a.head :: y ++ b.head :: z) ∨
    a.head = b.head ∧ (a.zone = .lead ∧ b.zone = .trail ∨ a.zone = b.zone ∧ a.kind ≠ b.kind)

theorem headCandidates_ordered (l : Latched) (h : Head) (net : List Sample) : (headCandidates l h net).Pairwise CandidateBefore := by
  have hplaces : candidatePlaces.Pairwise fun p q => p.1 = .lead ∧ q.1 = .trail ∨ p.1 = q.1 ∧ p.2 ≠ q.2 := by decide
  rw [headCandidates_eq, List.pairwise_filterMap]
  refine hplaces.imp fun hpq a ha b hb => ?_
  obtain ⟨_, -, rfl⟩ := candidate_iff.1 ha
  obtain ⟨_, -, rfl⟩ := candidate_iff.1 hb
  exact .inr ⟨rfl, hpq⟩

theorem candidates_ordered (l : Latched) (net : PerHead (List Sample)) : (candidates l net).Pairwise CandidateBefore := by
  have hhead : ∀ h, ∀ c ∈ (if l.usable.get h = true then headCandidates l h (net.get h) else []), c.head = h := by
    intro h c hc
    split at hc
    next => exact (mem_headCandidates.1 hc).1
    next => cases hc
  refine List.pairwise_flatMap.2 ⟨fun h _ => ?_, (pairwise_split _).imp fun hsplit a ha b hb => ?_⟩
  · split
    next => exact headCandidates_ordered ..
    next => exact .nil
  · rw [← hhead _ a ha, ← hhead _ b hb] at hsplit
    exact .inl hsplit

/-! ### The tests and strengths of the kinds (R60) -/

theorem passesKind_iff (l : Latched) (x : Window) (k : MarkKind) : passesKind l x k = true ↔ match k with
    | .phosphor => l.tPh ≤ x.sGa ∧ l.qMin ≤ x.q
    | .meter => l.tMt ≤ x.sRp ∧ x.sGp ≤ x.sRp
    | .bright => l.tBr ≤ x.sGp ∧ x.q < l.qMin := by
  cases k <;> simp [passesKind]

/-! ### The choice (R63 to R65) -/

/-- A candidate of the kind at a valid corner (R62, R64). -/
def ValidCorner (k : MarkKind) (x : Candidate) : Prop := x.kind = k ∧ (orientOf x.head x.zone).isSome = true

/-- R63: the top class is the highest-ranked class any candidate has. -/
theorem topKind_some {cs : List Candidate} {k : MarkKind} (hk : ∃ x ∈ cs, x.kind = k)
    (hmeter : k = .meter → ¬ ∃ x ∈ cs, x.kind = .phosphor)
    (hbright : k = .bright → (¬ ∃ x ∈ cs, x.kind = .phosphor) ∧ ¬ ∃ x ∈ cs, x.kind = .meter) : topKind cs = some k := by
  have hany : ∀ k, (cs.any fun c => decide (c.kind = k)) = decide (∃ x ∈ cs, x.kind = k) := fun k => by
    rw [Bool.eq_iff_iff, List.any_eq_true, decide_eq_true_iff]
    exact exists_congr fun c => and_congr_right fun _ => decide_eq_true_iff
  unfold topKind
  simp only [hany]
  cases k with
  | phosphor => simp only [List.find?_cons, hk, decide_true]
  | meter => simp only [List.find?_cons, hk, hmeter rfl, decide_true, decide_false]
  | bright => simp only [List.find?_cons, hk, hbright rfl, decide_true, decide_false]

section
variable {cs : List Candidate} {k : MarkKind} (ambig : Nat)

theorem isKind_iff (x : Candidate) : decide (x.kind = k) = true ↔ x.kind = k := decide_eq_true_iff

theorem isValid_iff (x : Candidate) : ((orientOf x.head x.zone).isSome && decide (x.kind = k)) = true ↔ ValidCorner k x := by
  rw [Bool.and_eq_true, decide_eq_true_iff, and_comm, ValidCorner]

theorem isRival_iff (m x : Candidate) :
    (decide (x.head ≠ m.head) && ((orientOf x.head x.zone).isSome && decide (x.kind = k))) = true ↔
      ValidCorner k x ∧ x.head ≠ m.head := by
  rw [Bool.and_eq_true, isValid_iff, decide_eq_true_iff, and_comm]

/-- The valid corners of a kind among candidates. -/
def validCorners (k : MarkKind) (cs : List Candidate) : List Candidate :=
  cs.filter fun c => (orientOf c.head c.zone).isSome && decide (c.kind = k)

/-- The valid corners of a kind on other heads than that of `m`. -/
def rivals (k : MarkKind) (m : Candidate) (cs : List Candidate) : List Candidate :=
  cs.filter fun c => decide (c.head ≠ m.head) && ((orientOf c.head c.zone).isSome && decide (c.kind = k))

theorem choose_unmarked (hk : topKind cs = some k) (hv : strongest (·.strength) (validCorners k cs) = none) : choose ambig cs =
    { cls := .offcorner, chosen := strongest (·.strength) (cs.filter fun c => decide (c.kind = k)), orient := none } := by
  unfold validCorners at hv
  simp only [choose, hk, List.filter_filter, hv]

theorem choose_unrivalled {m : Candidate} (hk : topKind cs = some k) (hv : strongest (·.strength) (validCorners k cs) = some m)
    (hr : strongest (·.strength) (rivals k m cs) = none) :
    choose ambig cs = { cls := k.cls, chosen := some m, orient := orientOf m.head m.zone } := by
  unfold validCorners at hv
  unfold rivals at hr
  simp only [choose, hk, List.filter_filter, hv, hr]

theorem choose_rivalled {m second : Candidate} (hk : topKind cs = some k) (hv : strongest (·.strength) (validCorners k cs) = some m)
    (hr : strongest (·.strength) (rivals k m cs) = some second) : choose ambig cs =
      if m.strength * ambig ≤ second.strength * 16 then { cls := .ambiguous, chosen := some m, orient := none }
      else { cls := k.cls, chosen := some m, orient := orientOf m.head m.zone } := by
  unfold validCorners at hv
  unfold rivals at hr
  simp only [choose, hk, List.filter_filter, hv, hr]

/-- R64: without a valid corner the class is OFFCORNER, and the strongest candidate is reported. -/
theorem choose_offcorner (hk : topKind cs = some k) (hsome : ∃ x ∈ cs, x.kind = k) (hnone : ∀ x ∈ cs, ¬ ValidCorner k x) :
    let c := choose ambig cs
    c.cls = .offcorner ∧ c.orient = none ∧ ∃ m, c.chosen = some m ∧ FirstStrongest (·.strength) (fun x => x.kind = k) cs m := by
  rw [choose_unmarked ambig hk ((strongest_filter_none isValid_iff).2 hnone)]
  cases hs : strongest (·.strength) (cs.filter fun c => decide (c.kind = k)) with
  | none =>
    obtain ⟨x, hx, hxk⟩ := hsome
    exact absurd hxk ((strongest_filter_none isKind_iff).1 hs x hx)
  | some m => exact ⟨rfl, rfl, m, rfl, strongest_filter isKind_iff hs⟩

/-- R63, R65: the mark is the strongest valid corner, AMBIGUOUS where another head's comes close to it. -/
theorem choose_valid (hk : topKind cs = some k) (hvalid : ∃ x ∈ cs, ValidCorner k x) :
    let c := choose ambig cs
    ∃ m, c.chosen = some m ∧ FirstStrongest (·.strength) (ValidCorner k) cs m ∧
      ((∃ x ∈ cs, ValidCorner k x ∧ x.head ≠ m.head ∧ m.strength * ambig ≤ x.strength * 16) → c.cls = .ambiguous ∧ c.orient = none) ∧
      ((∀ x ∈ cs, ValidCorner k x → x.head ≠ m.head → x.strength * 16 < m.strength * ambig) →
        c.cls = k.cls ∧ c.orient = orientOf m.head m.zone) := by
  cases hs : strongest (·.strength) (validCorners k cs) with
  | none =>
    obtain ⟨x, hx, hxv⟩ := hvalid
    exact absurd hxv ((strongest_filter_none isValid_iff).1 hs x hx)
  | some m =>
    have hm := strongest_filter isValid_iff hs
    cases hr : strongest (·.strength) (rivals k m cs) with
    | none =>
      have hno := (strongest_filter_none (isRival_iff m)).1 hr
      rw [choose_unrivalled ambig hk hs hr]
      exact ⟨m, rfl, hm, fun ⟨x, hx, hxv, hxh, _⟩ => absurd ⟨hxv, hxh⟩ (hno x hx), fun _ => ⟨rfl, rfl⟩⟩
    | some second =>
      have hsecond := strongest_filter (isRival_iff m) hr
      obtain ⟨hmem, hsv, hsh⟩ := hsecond.mem
      rw [choose_rivalled ambig hk hs hr]
      by_cases hclose : m.strength * ambig ≤ second.strength * 16
      · rw [if_pos hclose]
        exact ⟨m, rfl, hm, fun _ => ⟨rfl, rfl⟩, fun hfar => absurd hclose (hfar second hmem hsv hsh).not_ge⟩
      · rw [if_neg hclose]
        refine ⟨m, rfl, hm, fun ⟨x, hx, hxv, hxh, hxc⟩ => absurd (hxc.trans ?_) hclose, fun _ => ⟨rfl, rfl⟩⟩
        exact Nat.mul_le_mul_right 16 (hsecond.le hx ⟨hxv, hxh⟩)

end

/-! ### The mark result (R55, R66, R67) -/

theorem netOf_get {l : Latched} (raw : PerHead (List Sample)) {h : Head} (hu : l.usable.get h = true) :
    (netOf l raw).get h = netCells l.lnom (l.lref.get h) (raw.get h) := by
  cases h <;> exact if_pos hu

theorem degradedOf_iff (l : Latched) (lost : PerHead (Option Nat)) :
    degradedOf l lost = true ↔ ∃ h, l.usable.get h = false ∨ (lost.get h).isSome = true := by
  have hall : ∀ h, h ∈ Head.all := fun h => by cases h <;> decide
  simp [degradedOf, hall]

theorem saturatedIn_iff (l : Latched) (raw : PerHead (List Sample)) (m : Candidate) : saturatedIn l raw m = true ↔
    ∃ v ∈ ((raw.get m.head).drop m.win.start).take l.w, match m.kind with
      | .phosphor => v.ga = 1023 ∨ v.gp = 1023
      | .meter => v.rp = 1023
      | .bright => v.gp = 1023 := by
  unfold saturatedIn
  rw [List.any_eq_true]
  refine exists_congr fun v => and_congr_right fun _ => ?_
  cases m.kind <;> simp

theorem markResult_saturated (l : Latched) (raw : PerHead (List Sample)) (lost : PerHead (Option Nat)) :
    (markResult l raw lost).saturated = true ↔
      ∃ m, (choose l.ambig (candidates l (netOf l raw))).chosen = some m ∧ saturatedIn l raw m = true := by
  unfold markResult
  dsimp only
  cases (choose l.ambig (candidates l (netOf l raw))).chosen <;> simp

/-- Settles O31, stage by stage: net values, windows, candidates and their order, the choice, the corners, the result. -/
theorem markChosenFromNetValues : Obligations.MarkChosenFromNetValues := by
  refine ⟨fun lnom lref v => ⟨normalise_le .., normalise_unlimited, normalise_limited⟩, fun lnom lref raw c => netCells_spec lnom lref c,
    fun w j net => ⟨rfl, rfl, rfl, rfl, q_unlit, q_lit⟩, fun l net c => ?_, candidates_ordered, fun ambig cs => ?_,
    ⟨rfl, rfl, rfl, rfl, rfl, rfl, rfl, rfl⟩, fun l raw lost => ?_⟩
  · refine mem_candidates.trans (and_congr_right fun _ => exists_congr fun j => ?_)
    simp only [StrongestAt, passesKind_iff, strengthOf]
    exact ⟨fun ⟨⟨hj, hp, hmax⟩, hwin, hst⟩ => ⟨hj, hp, hwin, hst, hmax⟩, fun ⟨hj, hp, hwin, hst, hmax⟩ => ⟨⟨hj, hp, hmax⟩, hwin, hst⟩⟩
  · refine ⟨fun hnil => ?_, fun k hk hmeter hbright => ?_⟩
    · rw [hnil]; rfl
    · have htop := topKind_some hk hmeter hbright
      exact ⟨choose_offcorner ambig htop hk, choose_valid ambig htop⟩
  · refine ⟨fun h => netOf_get raw, rfl, rfl, rfl, rfl, rfl, degradedOf_iff l lost, ?_⟩
    refine (markResult_saturated l raw lost).trans (exists_congr fun m => and_congr_right fun _ => saturatedIn_iff l raw m)

end Sys2Proof.Proofs
end

