-- ==== Sys2Proof/Proofs/Delivery.lean ====
section
/-! PROOF. RESULT_DELIVERY (O32): the result written and counted, the buffer returned or kept, the next item taken up, and the capture
lines. -/

namespace Sys2Proof.Proofs

open Sys2Proof Sys2Proof.Machine Sys2Proof.Safety Sys2Proof.Laws

/-! ### The counters of a result (R164) -/

theorem countResult_classes (r : MarkResult) (b : Bank) (c : MarkClass) : (countResult r b).marks.classes.get c =
    if c = r.cls then b.marks.classes.get c + 1 else b.marks.classes.get c := by
  split
  next h => rw [h]; exact PerClass.get_upd_self ..
  next h => exact PerClass.get_upd_ne _ _ (Ne.symm h)

theorem countResult_orients (r : MarkResult) (b : Bank) (o : Orient) : (countResult r b).marks.orients.get o =
    if r.orient = some o then b.marks.orients.get o + 1 else b.marks.orients.get o := by
  obtain ⟨_, orient, _, _, _, _, _⟩ := r
  cases orient with
  | none => rfl
  | some p =>
    by_cases h : p = o
    · rw [h, if_pos rfl]
      exact PerOrient.get_upd_self ..
    · rw [if_neg fun hp => h (Option.some.inj hp)]
      exact PerOrient.get_upd_ne _ _ h

theorem countResult_eq (r : MarkResult) (b : Bank) : countResult r b = { b with
    flow := { b.flow with scanned := b.flow.scanned + 1 }
    marks := { (countResult r b).marks with
      degraded := b.marks.degraded + (if r.degraded then 1 else 0)
      saturated := b.marks.saturated + (if r.saturated then 1 else 0) } } := by
  have hadd : ∀ (x : Counter) (d : Bool), (if d then x + 1 else x) = x + if d then 1 else 0 := fun x d => by cases d <;> simp
  unfold countResult
  simp only [hadd]

/-! ### The result written (R68 to R70) -/

theorem writeResult_gone {n : LetterNo} {s : State} (h : s.entry? n = none) (r : MarkResult) : writeResult n r s = s := by
  rw [writeResult, h]

/-- The entry of a letter whose result has been delivered (R68, R69). -/
def withResult (r : MarkResult) (e : Entry) : Entry :=
  { e with result := some r, late := e.path.isSome, scan := .done }

theorem writeResult_written {n : LetterNo} {s : State} {e : Entry} (he : s.entry? n = some e) (hc : e.scan = .computing) (r : MarkResult) :
    writeResult n r s = { withEntry n (withResult r e) s with
      cnb := { s.cnb with bank := countResult r s.cnb.bank } } := by
  rw [writeResult, he]
  dsimp only
  rw [if_pos hc, updEntry_eq_withEntry _ he]
  rfl

/-! ### The buffer returned or kept (R72) -/

theorem wants_iff (c : Capture) (k : MarkClass) : wants c k = true ↔ c = .armed none ∨ c = .armed (some k) := by
  cases c with
  | off => exact iff_of_false nofun nofun
  | draining d => exact iff_of_false nofun nofun
  | armed w =>
    cases w with
    | none => exact iff_of_true rfl (.inl rfl)
    | some w => simp [wants]

/-- The buffer a delivery leaves: FREE, or kept with the net values where the capture wants the class (R72). -/
def returnedBuf (l : Latched) (r : MarkResult) (c : Capture) (b : BufRec) : BufRec :=
  if c = .armed none ∨ c = .armed (some r.cls) then { b with phase := .capture, cells := netOf l b.cells } else freeBuf

/-- The capture slot a delivery leaves: draining where it wants the class, and otherwise as it was (R72). -/
def returnedCapture (i : SlotItem) (l : Latched) (r : MarkResult) (c : Capture) : Capture :=
  if c = .armed none ∨ c = .armed (some r.cls) then
    .draining { buf := i.buf, letter := i.letter, cls := r.cls, lines := captureKeys l }
  else c

/-- The computing slot emptied, the buffer of its item at `r` and the capture slot at `c`. -/
def slotReleased (i : SlotItem) (r : BufRec) (c : Capture) (s : State) : State :=
  { s with
    scu := { s.scu with bufs := s.scu.bufs.set i.buf r }
    mkf := { s.mkf with slot := none, capture := c } }

theorem returnBuf_released (i : SlotItem) (l : Latched) (r : MarkResult) (s : State) :
    { returnBuf i l r s with mkf := { (returnBuf i l r s).mkf with slot := none } } =
      slotReleased i (returnedBuf l r s.mkf.capture (s.scu.bufs.get i.buf)) (returnedCapture i l r s.mkf.capture) s := by
  unfold returnBuf returnedBuf returnedCapture
  simp only [wants_iff]
  split <;> rfl

theorem deliver_latched {i : SlotItem} {l : Latched} {s v : State} {r : MarkResult} (hp : i.params = some l)
    (hr : markResult l (s.scu.bufs.get i.buf).cells (s.scu.bufs.get i.buf).lost = r) (hv : writeResult i.letter r s = v) :
    deliver i s = takeUp (slotReleased i (returnedBuf l r v.mkf.capture (v.scu.bufs.get i.buf))
      (returnedCapture i l r v.mkf.capture) v) := by
  rw [← returnBuf_released, deliver, hp]
  dsimp only
  rw [hr, hv]

theorem deliver_unlatched {i : SlotItem} {s : State} (hp : i.params = none) :
    deliver i s = takeUp (slotReleased i freeBuf s.mkf.capture s) := by
  rw [deliver, hp]
  rfl

/-! ### The next item taken up (R53) -/

/-- A delivery of the item `i` of `s` came to `t`: `base` but for the counters and the link, with the item's buffer at `r`, the capture slot
at `c`, and the computing slot empty or holding the oldest item of the work list. -/
def Delivered (i : SlotItem) (s t base : State) (r : BufRec) (c : Capture) : Prop :=
  (s.mkf.work = [] →
    t = { base with
      scu := { s.scu with bufs := s.scu.bufs.set i.buf r }
      mkf := { work := [], slot := none, capture := c }
      cnb := t.cnb, llk := t.llk }) ∧
  (∀ w rest f, s.mkf.work = w :: rest → w.letter ≠ i.letter → w.buf ≠ i.buf → s.entry? w.letter = some f →
    t = { withEntry w.letter { f with scan := .computing } base with
      scu := { s.scu with bufs := (s.scu.bufs.set i.buf r).set w.buf { s.scu.bufs.get w.buf with phase := .computing } }
      mkf := { work := rest, slot := some { buf := w.buf, letter := w.letter, time := w.time, params := f.latched }
               capture := c }
      cnb := t.cnb, llk := t.llk })

section
variable {i : SlotItem} {s : State} {track : Trk} {counts : Cnb}

/-- The transmitter's pick leaves everything but the link, so the counters too. -/
theorem pump_counts (s : State) : pump s = { s with cnb := (pump s).cnb, llk := (pump s).llk } := by
  have h := pump_llk_only s
  generalize pump s = t at h
  rw [h]

theorem takeUp_released {w : WorkItem} {rest : List WorkItem} {f : Entry} {r : BufRec} {c : Capture} (hw : s.mkf.work = w :: rest)
    (hb : w.buf ≠ i.buf) (hf : s.entry? w.letter = some f) : takeUp (slotReleased i r c s) =
      { withEntry w.letter { f with scan := .computing } s with
        scu := { s.scu with bufs := (s.scu.bufs.set i.buf r).set w.buf { s.scu.bufs.get w.buf with phase := .computing } }
        mkf := { work := rest, slot := some { buf := w.buf, letter := w.letter, time := w.time, params := f.latched }
                 capture := c } } := by
  have hentry : (slotReleased i r c s).entry? w.letter = some f := hf
  have hget : (s.scu.bufs.set i.buf r).get w.buf = s.scu.bufs.get w.buf := PerBuf.get_set_ne _ _ (Ne.symm hb)
  rw [takeUp_next (s := slotReleased i r c s) rfl hw, slotItem, hentry, ← hget]
  refine (updEntry_eq_withEntry (e := f) _ ?_).trans rfl
  exact hf

/-- What follows the return of the buffer, where the track and the counters stand as the result left them. -/
theorem delivered (hentry : ∀ n, n ≠ i.letter → ({ s with trk := track } : State).entry? n = s.entry? n) (r : BufRec) (c : Capture) :
    Delivered i s (pump (takeUp (slotReleased i r c { s with trk := track, cnb := counts }))) { s with trk := track } r c := by
  refine ⟨fun hw => ?_, fun w rest f hw hl hb hf => ?_⟩
  · rw [takeUp_busy (s := slotReleased i r c { s with trk := track, cnb := counts }) (.inr hw), pump_counts, ← hw]
    rfl
  · rw [takeUp_released (s := { s with trk := track, cnb := counts }) hw hb ((hentry w.letter hl).trans hf), pump_counts]
    rfl

theorem delivered_link (r : BufRec) (c : Capture) :
    LinkKept [] s (pump (takeUp (slotReleased i r c { s with trk := track, cnb := counts }))) :=
  .left_eq (by simp [slotReleased]) (pump_kept [] _)

theorem delivered_counts (r : BufRec) (c : Capture) :
    (pump (takeUp (slotReleased i r c { s with trk := track, cnb := counts }))).cnb = counts := by
  simp [slotReleased]

end

theorem exec_resultDelivery {s v : State} {i : SlotItem} (hi : s.mkf.slot = some i) (hd : deliver i s = v) (hf : v.flc = s.flc) :
    exec .resultDelivery s = .next (pump v) := by
  have hexec : exec .resultDelivery s = execResultDelivery s := rfl
  have hholds : (deliver i s).flc.holds = s.flc.holds := by rw [hd, hf]
  rw [hexec, execResultDelivery, hi]
  dsimp only
  rw [endEvent_same hholds, hd]

theorem takeUp_released_line (i : SlotItem) (r : BufRec) (c : Capture) (s : State) : (takeUp (slotReleased i r c s)).flc = s.flc := by
  simp [slotReleased]

theorem withEntry_other {n m : LetterNo} {s : State} {e f : Entry} (he : s.entry? n = some e) (hf : f.number = e.number) (hm : m ≠ n) :
    (withEntry n f s).entry? m = s.entry? m := by
  have h := entry_upd n m (fun x => { f with number := x.number }) (fun _ => rfl) s
  rw [updEntry_eq_withEntry _ he, if_neg hm, ← hf] at h
  exact h

/-! ### The capture lines (R73) -/

section
variable {α β : Type} {f : α → List β} {n : Nat}

theorem flatMap_if (p : α → Bool) (l : List α) : (l.flatMap fun x => if p x then f x else []) = (l.filter p).flatMap f := by
  induction l with
  | nil => rfl
  | cons x l ih =>
    rw [List.flatMap_cons, ih, List.filter_cons]
    split <;> rfl

variable (hn : ∀ x, (f x).length = n)
include hn

theorem length_flatMap_blocks (l : List α) : (l.flatMap f).length = l.length * n := by
  simp [List.length_flatMap, hn]

/-- In blocks of equal length the place of a value is that of its block and that in the block. -/
theorem getElem?_flatMap_blocks {l : List α} {i m : Nat} {x : α} (hx : l[i]? = some x) (hm : m < n) :
    (l.flatMap f)[i * n + m]? = (f x)[m]? := by
  induction l generalizing i with
  | nil => cases hx
  | cons y l ih =>
    rw [List.flatMap_cons]
    cases i with
    | zero =>
      cases hx
      rw [Nat.zero_mul, Nat.zero_add, List.getElem?_append_left (by rw [hn]; exact hm)]
    | succ i =>
      have hi : (i + 1) * n + m = n + (i * n + m) := by ring
      rw [hi, List.getElem?_append_right (by rw [hn]; omega), hn, Nat.add_sub_cancel_left]
      exact ih hx

end

/-- The capture lines of one channel of a head. -/
def channelKeys (l : Latched) (h : Head) (c : Channel) : List CaptureKey :=
  (captureFirsts l.n).map fun f => { head := h, channel := c, first := f }

/-- The capture lines of one head. -/
def headKeys (l : Latched) (h : Head) : List CaptureKey :=
  [Channel.gp, .ga, .rp].flatMap (channelKeys l h)

theorem captureKeys_eq (l : Latched) : captureKeys l = ([Head.ft, .fb, .bt, .bb].filter fun h => l.usable.get h).flatMap (headKeys l) :=
  flatMap_if _ _

theorem channelKeys_length (l : Latched) (h : Head) (c : Channel) : (channelKeys l h c).length = (l.n + 31) / 32 := by
  simp [channelKeys, captureFirsts]

theorem headKeys_length (l : Latched) (h : Head) : (headKeys l h).length = 3 * ((l.n + 31) / 32) :=
  length_flatMap_blocks (channelKeys_length l h) _

theorem channelKeys_get (l : Latched) (h : Head) (c : Channel) {m : Nat} (hm : m < (l.n + 31) / 32) :
    (channelKeys l h c)[m]? = some { head := h, channel := c, first := 32 * m } := by
  simp [channelKeys, captureFirsts, hm]

theorem captureKeys_length (l : Latched) :
    (captureKeys l).length = ([Head.ft, .fb, .bt, .bb].filter fun h => l.usable.get h).length * 3 * ((l.n + 31) / 32) := by
  rw [captureKeys_eq, length_flatMap_blocks (headKeys_length l), Nat.mul_assoc]

/-- R73: the capture lines stand by usable head, channel and first cell. -/
theorem captureKeys_get {l : Latched} {i j m : Nat} {h : Head} {c : Channel}
    (hh : ([Head.ft, .fb, .bt, .bb].filter fun h => l.usable.get h)[i]? = some h) (hc : [Channel.gp, .ga, .rp][j]? = some c)
    (hm : m < (l.n + 31) / 32) :
    (captureKeys l)[(3 * i + j) * ((l.n + 31) / 32) + m]? = some { head := h, channel := c, first := 32 * m } := by
  have hj : j < 3 := (List.getElem?_eq_some_iff.1 hc).1
  have hplace : (3 * i + j) * ((l.n + 31) / 32) + m = i * (3 * ((l.n + 31) / 32)) + (j * ((l.n + 31) / 32) + m) := by ring
  have hin : j * ((l.n + 31) / 32) + m < 3 * ((l.n + 31) / 32) :=
    calc j * ((l.n + 31) / 32) + m < j * ((l.n + 31) / 32) + (l.n + 31) / 32 := Nat.add_lt_add_left hm _
      _ = (j + 1) * ((l.n + 31) / 32) := (Nat.succ_mul _ _).symm
      _ ≤ 3 * ((l.n + 31) / 32) := Nat.mul_le_mul_right _ hj
  rw [hplace, captureKeys_eq, getElem?_flatMap_blocks (headKeys_length l) hh hin, headKeys,
    getElem?_flatMap_blocks (channelKeys_length l h) hc hm, channelKeys_get l h c hm]

/-- Settles O32: the result of a letter in the table, of one that has left it, and an item without parameters. -/
theorem resultDelivered : Obligations.ResultDelivered := by
  refine ⟨fun s i hi => ⟨fun l hl => ⟨fun e he hc => ?_, fun he => ?_⟩, fun hl => ?_⟩,
    fun l => ⟨captureKeys_length l, fun i h j c m hh hc => captureKeys_get hh hc⟩⟩
  · have hd := deliver_latched hl rfl (writeResult_written he hc _)
    refine ⟨_, exec_resultDelivery hi hd (takeUp_released_line ..), delivered_link .., fun c => ?_, fun o => ?_, ?_,
      delivered (track := (withEntry i.letter (withResult _ e) s).trk) (fun n hn => withEntry_other he rfl hn) _ _⟩
    · rw [delivered_counts]
      exact countResult_classes ..
    · rw [delivered_counts]
      exact countResult_orients ..
    · rw [delivered_counts]
      exact congrArg (fun b => { s.cnb with bank := b }) (countResult_eq ..)
  · have hd := deliver_latched hl rfl (writeResult_gone he _)
    exact ⟨_, exec_resultDelivery hi hd (takeUp_released_line ..), delivered_link .., delivered_counts ..,
      delivered (fun _ _ => rfl) _ _⟩
  · exact ⟨_, exec_resultDelivery hi (deliver_unlatched hl) (takeUp_released_line ..), delivered_link .., delivered_counts ..,
      delivered (fun _ _ => rfl) _ _⟩

end Sys2Proof.Proofs
end

