-- ==== Sys2Proof/Proofs/LineEnds.lean ====
section
/-! PROOF. The completion of `= RESTART` and of capture lines, the repeat timers, the end of a write, and the conditions of the kinds
(O49). -/

namespace Sys2Proof.Proofs

open Sys2Proof Sys2Proof.Machine Sys2Proof.Safety Sys2Proof.Laws

/-! ### The reset by RESTART (R184, R198) -/

theorem exec_restartReply {s : State} (h : s.llk.tx = some (.reply (.ok (text "RESTART") []))) :
    exec .transmitLineComplete s = .next (resetPart .restart s) := by
  have hexec : exec .transmitLineComplete s = .next (transmitComplete s) := rfl
  rw [hexec, transmitComplete, h]
  exact congrArg _ (if_pos (decide_eq_true rfl))

/-- The two resets differ in the flag of RESET and in the line begun (R189, R198). -/
theorem resetPart_restart (s : State) : resetPart .restart s = { resetPart .power s with llk := { (resetPart .power s).llk with
    flags := (resetPart .restart s).llk.flags, tx := some (.report .reset (some (.reset .restart))) } } := rfl

theorem resetPart_flags (s : State) (k : Kind) : (resetPart .restart s).llk.flags.get k =
    if k = .reset then { set := true, detail := some (.reset .restart), masked := false, repeating := none }
    else (resetPart .power s).llk.flags.get k := by
  cases k <;> rfl

/-! ### What an idle transmitter picks (R185) -/

/-- The state `s` with every line that follows picked by R185 alone. -/
def pastOpening (s : State) : State := { s with llk := { s.llk with opening := .done } }

/-- Past POWERUP, with no report of PROFILE_DEFAULTED pending, the pick is that of R185 alone. -/
theorem pump_picks {s : State} (ho : s.llk.opening ≠ .loading) (hx : s.llk.tx = none) (hk : .profileDefaulted ∉ s.llk.reports) :
    pump s = pickAvailable (pastOpening s) := by
  cases h : s.llk.opening with
  | loading => exact absurd h ho
  | due => simp [pump, pick, h, hx, hk, pastOpening]
  | done => rw [pump_done h hx, pastOpening, ← h]

theorem pump_onlyReport {s : State} {k : Kind} (ho : s.llk.opening ≠ .loading) (hx : s.llk.tx = none) (ha : s.llk.answers = [])
    (hr : s.llk.reports = [k]) (hk : k ≠ .profileDefaulted) :
    (pump s).llk.tx = some (.report k (s.llk.flags.get k).detail) ∧ (pump s).llk.reports = [] := by
  have hnone : .profileDefaulted ∉ s.llk.reports := by
    rw [hr, List.mem_singleton]
    exact Ne.symm hk
  have hidle : ¬ ∃ r rest, (pastOpening s).llk.answers = .answered r :: rest := by simp [pastOpening, ha]
  rw [pump_picks ho hx hnone, pickAvailable_report hidle hr]
  exact ⟨rfl, rfl⟩

theorem pickAvailable_capture {s : State} {d : Draining} {k : CaptureKey} {ks : List CaptureKey}
    (ha : ∀ a rest, s.llk.answers ≠ .answered a :: rest) (hr : s.llk.reports = []) (hq : s.cnb.records = [])
    (hd : s.mkf.capture = .draining d) (hl : d.lines = k :: ks) :
    pickAvailable s = begin' (.capture (captureLine d k s)) s := by
  unfold pickAvailable
  split
  next a rest h => exact absurd h (ha a rest)
  next h _ => rw [hr] at h; cases h
  next h _ => rw [hq] at h; cases h
  next h _ =>
    rw [hd] at h
    cases h
    rw [hl]
  next h _ => rw [hd] at h; cases h
  next h _ => rw [hd] at h; cases h

/-- The transmitter's pick leaves everything but the link, so the Scan Control Unit and the Mark Finder too. -/
theorem pump_scan (s : State) : pump s = { s with mkf := (pump s).mkf, scu := (pump s).scu, llk := (pump s).llk } := by
  have h := pump_llk_only s
  generalize pump s = t at h
  rw [h]

/-! ### A capture line sent (R74) -/

/-- The transmitter idle after the line it was sending. -/
def lineEnded (s : State) : State := { s with llk := { s.llk with tx := none } }

theorem exec_captureComplete {s : State} {c : CaptureLine} (h : s.llk.tx = some (.capture c)) :
    exec .transmitLineComplete s = .next (pump (captureSent c (lineEnded s))) := by
  have hexec : exec .transmitLineComplete s = .next (transmitComplete s) := rfl
  have hholds : (captureSent c (lineEnded s)).flc.holds = s.flc.holds := congrArg Flc.holds (by simp [lineEnded])
  rw [hexec, transmitComplete, h, ← endEvent_same hholds]
  rfl

section
variable {s : State} {c : CaptureLine} {d : Draining}

theorem captureSent_more {k : CaptureKey} {ks : List CaptureKey} (hd : s.mkf.capture = .draining d) (hn : d.letter = c.letter)
    (hl : d.lines = c.key :: k :: ks) :
    captureSent c s = { s with mkf := { s.mkf with capture := .draining { d with lines := k :: ks } } } := by
  rw [captureSent, hd]
  dsimp only
  rw [if_pos ⟨hn, by rw [hl]; rfl⟩, hl]
  rfl

theorem captureSent_last (hd : s.mkf.capture = .draining d) (hn : d.letter = c.letter) (hl : d.lines = [c.key]) :
    captureSent c s = setFlag .captureDone (.captured d.letter d.cls)
      { s with scu := { s.scu with bufs := s.scu.bufs.set d.buf freeBuf }, mkf := { s.mkf with capture := .off } } := by
  rw [captureSent, hd]
  dsimp only
  rw [if_pos ⟨hn, by rw [hl]; rfl⟩, hl]
  rfl

theorem captureSent_ended (h : ∀ d, s.mkf.capture = .draining d → d.letter ≠ c.letter) : captureSent c s = s := by
  unfold captureSent
  split
  next d hd => exact if_neg fun hc => h d hd hc.1
  next => rfl
  next => rfl

end

/-- The state after a capture line that was not the last. -/
def captureGoesOn (d : Draining) (ks : List CaptureKey) (s : State) : State :=
  { lineEnded s with mkf := { s.mkf with capture := .draining { d with lines := ks } } }

/-- The next capture line is picked where nothing is available ahead of it (R185). -/
theorem captureGoesOn_next {d : Draining} {m : CaptureKey} {ks : List CaptureKey} {s : State} (ho : s.llk.opening ≠ .loading)
    (ha : ∀ a rest, s.llk.answers ≠ .answered a :: rest) (hr : s.llk.reports = []) (hq : s.cnb.records = []) :
    (pump (captureGoesOn d (m :: ks) s)).llk.tx = some (.capture
      { letter := d.letter, key := m
        values := ((((s.scu.bufs.get d.buf).cells.get m.head).drop m.first).take 32).map fun v => v.get m.channel }) := by
  have hnone : .profileDefaulted ∉ (captureGoesOn d (m :: ks) s).llk.reports := fun hk => by
    rw [show (captureGoesOn d (m :: ks) s).llk.reports = [] from hr] at hk
    cases hk
  rw [pump_picks (s := captureGoesOn d (m :: ks) s) ho rfl hnone]
  exact congrArg (fun t : State => t.llk.tx) (pickAvailable_capture (s := pastOpening (captureGoesOn d (m :: ks) s))
    (d := { d with lines := m :: ks }) ha hr hq rfl rfl)

/-- The state in which the last capture line has been sent: the buffer FREE, the slot OFF, CAPTURE_DONE set (R74). -/
def captureEnds (d : Draining) (s : State) : State :=
  setFlag .captureDone (.captured d.letter d.cls)
    { lineEnded s with scu := { s.scu with bufs := s.scu.bufs.set d.buf freeBuf }, mkf := { s.mkf with capture := .off } }

theorem captureEnds_link (d : Draining) (s : State) : LinkKept [.captureDone] (lineEnded s) (pump (captureEnds d s)) :=
  .trans (t := captureEnds d s) (setFlag_kept' rfl List.mem_cons_self) (pump_kept _ _)

theorem captureEnds_flag (d : Draining) (s : State) : FlagSet .captureDone (.captured d.letter d.cls) s (pump (captureEnds d s)) :=
  .of_eq (t := captureEnds d s) (setFlag_set .captureDone _ (lineEnded s)) (by rw [pump_llk])

/-- The report of CAPTURE_DONE competes at the boundary of the last capture line (R74, R185; log entry 41). -/
theorem captureEnds_report {d : Draining} {s : State} (ho : s.llk.opening ≠ .loading) (ha : s.llk.answers = [])
    (hr : s.llk.reports = []) (hm : (s.llk.flags.get .captureDone).masked = false) :
    (pump (captureEnds d s)).llk.tx = some (.report .captureDone (some (.captured d.letter d.cls))) ∧
      (pump (captureEnds d s)).llk.reports = [] := by
  have hreports : (captureEnds d s).llk.reports = [.captureDone] := by simp [captureEnds, setFlag, lineEnded, hm, hr]
  have h := pump_onlyReport (s := captureEnds d s) ho rfl ha hreports nofun
  rwa [show ((captureEnds d s).llk.flags.get .captureDone).detail = some (.captured d.letter d.cls) by simp [captureEnds, setFlag]] at h

/-! ### The repeat timers (R187) -/

/-- A report of a kind is due at the end of its repeat timer (R187). -/
def RepeatDue (k : Kind) (s : State) : Prop :=
  (s.llk.flags.get k).set = true ∧ (s.llk.flags.get k).masked = false ∧ condition s k = true ∧ k ∉ s.llk.reports

/-- A report of a kind queued behind the others. -/
def reportQueued (k : Kind) (s : State) : State := { s with llk := { s.llk with reports := s.llk.reports ++ [k] } }

section
variable {k : Kind} {s : State}

theorem repeatDue_iff : ((s.llk.flags.get k).set && !(s.llk.flags.get k).masked && condition s k && !s.llk.reports.contains k) = true ↔
    RepeatDue k s := by
  simp [RepeatDue, and_assoc]

theorem repeatAct_due (h : RepeatDue k s) : repeatAct k s = reportQueued k (stopRepeat k s) := by
  rw [repeatAct, repeatDue_iff.2 h]
  rfl

theorem repeatAct_undue (h : ¬ RepeatDue k s) : repeatAct k s = stopRepeat k s := by
  rw [repeatAct, Bool.eq_false_iff.2 (mt repeatDue_iff.1 h)]
  rfl

theorem reportQueued_link : LinkKept [k] s (reportQueued k s) :=
  ⟨rfl, fun _ _ => rfl, fun _ => List.mem_append.1, fun _ hl => ⟨hl, List.prefix_append _ _⟩, .inl rfl⟩

theorem condition_waitUntil (t : Nat) : condition (waitUntil t s) k = condition s k := by
  cases k <;> rfl

theorem repeatDue_waitUntil (t : Nat) : RepeatDue k (waitUntil t s) ↔ RepeatDue k s := by
  unfold RepeatDue
  rw [condition_waitUntil]
  rfl

theorem stopRepeat_flag : (stopRepeat k s).llk.flags.get k = { s.llk.flags.get k with repeating := none } := by
  simp [stopRepeat]

theorem exec_repeatOff {t0 : Nat} (h : (s.llk.flags.get k).repeating = some t0) (hz : s.pfs.profile.eventRepeat = 0) :
    exec (.eventRepeatExpiry k) s = .next (stopRepeat k s) := by
  have hexec : exec (.eventRepeatExpiry k) s = execEventRepeatExpiry k s := rfl
  rw [hexec, execEventRepeatExpiry, h]
  exact congrArg _ (if_pos hz)

theorem exec_repeatExpiry {t0 : Nat} (h : (s.llk.flags.get k).repeating = some t0) (hz : s.pfs.profile.eventRepeat ≠ 0) :
    exec (.eventRepeatExpiry k) s = .next (pump (repeatAct k (waitUntil (t0 + s.pfs.profile.eventRepeat * 1000) s))) := by
  have hexec : exec (.eventRepeatExpiry k) s = execEventRepeatExpiry k s := rfl
  rw [hexec, execEventRepeatExpiry, h]
  dsimp only
  rw [if_neg hz, endEvent_same (by simp)]

/-- A condition holds only of a kind that has one (R186). -/
theorem condition_ne_defaulted (h : condition s k = true) : k ≠ .profileDefaulted := by
  rintro rfl
  cases h

end

/-- What an expiry that is no stop leaves: the timer of the kind stopped, the clock at its end, and the report queued where it is due. -/
structure RepeatTaken (k : Kind) (time : Nat) (s t : State) : Prop where
  rest   : t = { s with now := max s.now time, llk := t.llk }
  due    : RepeatDue k s → LinkKept [k] (stopRepeat k s) t
  undue  : ¬ RepeatDue k s → LinkKept [] (stopRepeat k s) t
  flag   : t.llk.flags.get k = { s.llk.flags.get k with repeating := none }
  queued : RepeatDue k s → s.llk.tx ≠ none → t.llk.reports = s.llk.reports ++ [k]
  begun  : RepeatDue k s → s.llk.opening ≠ .loading → s.llk.tx = none → s.llk.answers = [] → s.llk.reports = [] →
    t.llk.tx = some (.report k (s.llk.flags.get k).detail)

theorem repeat_taken (k : Kind) (time : Nat) (s : State) : RepeatTaken k time s (pump (repeatAct k (waitUntil time s))) := by
  by_cases hd : RepeatDue k s
  · rw [repeatAct_due ((repeatDue_waitUntil time).2 hd)]
    refine ⟨pump_llk_only _, fun _ => ?_, fun h => absurd hd h, ?_, fun _ hx => ?_, fun _ ho hx ha hr => ?_⟩
    · have hqueued : LinkKept [k] (stopRepeat k (waitUntil time s)) (reportQueued k (stopRepeat k (waitUntil time s))) := reportQueued_link
      exact .left_eq (t := stopRepeat k (waitUntil time s)) rfl (hqueued.trans (pump_kept _ _))
    · rw [pump_llk]
      exact stopRepeat_flag
    · have hbusy : (reportQueued k (stopRepeat k (waitUntil time s))).llk.tx.isSome = true := Option.isSome_iff_ne_none.2 hx
      rw [pump, if_pos hbusy]
      rfl
    · obtain ⟨-, -, hcondition, -⟩ := hd
      have hdetail : ((stopRepeat k s).llk.flags.get k).detail = (s.llk.flags.get k).detail := by rw [stopRepeat_flag]
      have hbegun := (pump_onlyReport (s := reportQueued k (stopRepeat k (waitUntil time s))) ho hx ha (congrArg (· ++ [k]) hr)
        (condition_ne_defaulted hcondition)).1
      exact hbegun.trans (congrArg (fun x => some (TxLine.report k x)) hdetail)
  · rw [repeatAct_undue (mt (repeatDue_waitUntil time).1 hd)]
    refine ⟨pump_llk_only _, fun h => absurd h hd, fun _ => ?_, ?_, fun h => absurd h hd, fun h => absurd h hd⟩
    · exact .left_eq (t := stopRepeat k (waitUntil time s)) rfl (pump_kept _ _)
    · rw [pump_llk]
      exact stopRepeat_flag

/-! ### The end of a write (R196) -/

theorem takeRequests_none {s : State} (h : firstTakeable s.llk.answers = none) (fuel : Nat) : takeRequests fuel s = s := by
  cases fuel with
  | zero => rfl
  | succ n =>
    rw [takeRequests, h]
    exact ite_self _

/-- The stored image written with the fixed content, and no write in progress (R194, R196). -/
def imageWritten (p : Profile) (s : State) : State :=
  { s with pfs := { s.pfs with image := { format := 1, contents := p, crc := Config.imageCrc 1 p }, saving := none } }

/-- The reply of a SAVE (R196). -/
def savedReply (p : Profile) : Reply := .ok (text "SAVE") [hexDigits 4 (Config.imageCrc 1 p).toNat]

section
variable {p : Profile} {s : State}

theorem exec_saveWriteEnd (hp : s.pfs.saving = some p) : exec .saveWriteEnd s = .next (endEvent s (writeEnd p s)) := by
  have hexec : exec .saveWriteEnd s = execSaveWriteEnd s := rfl
  rw [hexec, execSaveWriteEnd, hp]

theorem writeEnd_alone (ha : s.llk.answers = [.inProgress]) : writeEnd p s = answered (savedReply p) (imageWritten p s) := by
  rw [writeEnd, ha]
  exact takeRequests_answered 8 (savedReply p) (imageWritten p s)

/-- The request behind the SAVE taken, as it stands in the answer list after it (R180). -/
def behindSave (p : Profile) (r : Request) (s : State) : State :=
  { imageWritten p s with llk := { s.llk with answers := [.answered (savedReply p), .waiting r] } }

theorem firstTakeable_taken (a : Reply) {i : Item} (h : i = .inProgress ∨ ∃ b, i = .answered b) :
    firstTakeable [.answered a, i] = none := by
  rcases h with rfl | ⟨b, rfl⟩ <;> rfl

theorem writeEnd_behind {r : Request} (hr : s.llk.restarting = false) (ha : s.llk.answers = [.inProgress, .waiting r]) :
    writeEnd p s = { (perform r (behindSave p r s)).1 with llk := { (perform r (behindSave p r s)).1.llk with
      answers := [.answered (savedReply p), (perform r (behindSave p r s)).2] } } := by
  have htaken := perform_taken r (behindSave p r s)
  have hstart : writeEnd p s = takeRequests 8 (behindSave p r s) := by
    rw [writeEnd, ha]
    rfl
  have hrest : (behindSave p r s).llk.restarting = false := hr
  have hfirst : firstTakeable (behindSave p r s).llk.answers = some ([.answered (savedReply p)], r, []) := rfl
  rw [hstart, takeRequests, hrest, hfirst]
  exact takeRequests_none (firstTakeable_taken _ htaken) 7

/-- With the SAVE alone in the answer list its reply is begun (R185, R196). -/
theorem saveWriteEnd_alone (hp : s.pfs.saving = some p) (hx : s.llk.tx = none) (ho : s.llk.opening = .done)
    (ha : s.llk.answers = [.inProgress]) : exec .saveWriteEnd s = .next (replying (savedReply p) (imageWritten p s)) := by
  have hopening : (imageWritten p s).llk.opening ≠ .due := fun h => by cases ho.symm.trans h
  rw [exec_saveWriteEnd hp, writeEnd_alone ha, endEvent_same (by rfl),
    pump_answered (s := imageWritten p s) hx hopening]

/-- The reply is begun ahead of that of the request behind the SAVE (R180, R185). -/
theorem saveWriteEnd_behind {r : Request} (hp : s.pfs.saving = some p) (hr : s.llk.restarting = false) (hx : s.llk.tx = none)
    (ho : s.llk.opening = .done) (ha : s.llk.answers = [.inProgress, .waiting r]) :
    let w := judgeHold s.flc.holds.any { (perform r (behindSave p r s)).1 with llk := { (perform r (behindSave p r s)).1.llk with
      answers := [.answered (savedReply p), (perform r (behindSave p r s)).2] } }
    exec .saveWriteEnd s = .next { w with llk := { w.llk with tx := some (.reply (savedReply p)) } } := by
  intro w
  have htx : w.llk.tx = none := by simpa [w, behindSave] using hx
  have hopening : w.llk.opening = .done := by simpa [w, behindSave] using ho
  have hanswers : w.llk.answers = [.answered (savedReply p), (perform r (behindSave p r s)).2] := by simp [w]
  rw [exec_saveWriteEnd hp, writeEnd_behind hr ha, endEvent, pump_done hopening htx, pickAvailable_reply hanswers]
  rfl

end

/-! ### The conditions of the kinds (R186) -/

theorem holds_any_iff (h : Machine.Holds) : h.any = true ↔ h ≠ ⟨false, false, false, false, false⟩ := by
  obtain ⟨_ | _, _ | _, _ | _, _ | _, _ | _⟩ := h <;> simp [Holds.any]

theorem headAttention_iff (s : State) : headAttention s = true ↔ ∃ h, (s.scu.heads.get h).state ≠ .ready := by
  rw [← not_iff_not, Bool.not_eq_true, headAttention_false, not_exists]
  exact forall_congr' fun _ => not_not.symm

theorem cancellerOut_iff (s : State) : cancellerOut s = true ↔ ∃ c, (s.can.recs.get c).state = .off ∨
    (s.can.recs.get c).state = .priming ∨ (s.can.recs.get c).state = .overheat ∨ (s.can.recs.get c).state = .fault := by
  have hout : ∀ x, (!available x) = true ↔ x = .off ∨ x = .priming ∨ x = .overheat ∨ x = .fault := by
    intro x
    cases x <;> simp [available]
  unfold cancellerOut
  rw [Bool.or_eq_true, hout, hout]
  refine ⟨fun h => h.elim (⟨.a, ·⟩) (⟨.b, ·⟩), fun ⟨c, h⟩ => ?_⟩
  cases c with
  | a => exact .inl h
  | b => exact .inr h

theorem pocketAttention_iff (s : State) : pocketAttention s = true ↔ ∃ q, (s.pkc.recs.get q).state = .nearFull ∨
    (s.pkc.recs.get q).state = .full ∨ (s.pkc.recs.get q).state = .sweepPending := by
  have hlist : s.pkc.recs.toList = Pocket.all.map s.pkc.recs.get := rfl
  have hall : ∀ q, q ∈ Pocket.all := fun q => by cases q <;> decide
  simp [pocketAttention, hlist, hall]

theorem endBin_iff (s : State) : condition s .endBin = true ↔
    ∃ q, (q = .ea ∨ q = .eb ∨ q = .er) ∧ (s.pkc.recs.get q).sensor = .active := by
  simp [condition, or_and_right, exists_or, PerPocket.get]

/-- Settles O49, event by event: the reset, a capture line (the last one, one with others behind it, one of an ended capture), an expiry,
the end of a write; and the kinds. -/
theorem restartRepeatsAndWritesEnd : Obligations.RestartRepeatsAndWritesEnd := by
  refine ⟨fun s => ⟨fun h => ⟨_, _, exec_restartReply h, rfl, resetPart_restart s, resetPart_flags s⟩,
    fun c d k ks hx hd hn hl hk => ?_, fun c hx hd => ?_⟩, fun s => ⟨fun k t0 h => ?_, fun p hp hr hx ho =>
    ⟨⟨rfl, rfl⟩, saveWriteEnd_alone hp hx ho, fun r => saveWriteEnd_behind hp hr hx ho⟩⟩, fun s k => ?_⟩
  · subst hk
    have hexec := exec_captureComplete hx
    cases ks with
    | nil =>
      rw [captureSent_last (s := lineEnded s) hd hn hl] at hexec
      exact ⟨pump (captureEnds d s), hexec, fun h => absurd rfl h, fun _ => ⟨by simp [captureEnds], by simp [captureEnds],
        captureEnds_flag d s, captureEnds_report⟩, nofun, pump_scan _, captureEnds_link d s⟩
    | cons m ks =>
      rw [captureSent_more (s := lineEnded s) hd hn hl] at hexec
      refine ⟨pump (captureGoesOn d (m :: ks) s), hexec, fun _ => ⟨by simp [captureGoesOn], by simp [captureGoesOn, lineEnded]⟩, nofun,
        fun m' ho hm ha hr hq => ?_, pump_scan _,
        .left_eq (t := captureGoesOn d (m :: ks) s) rfl (pump_kept _ _)⟩
      cases hm
      exact captureGoesOn_next ho ha hr hq
  · have hexec := exec_captureComplete hx
    rw [captureSent_ended (s := lineEnded s) hd] at hexec
    exact ⟨_, hexec, pump_llk_only _, pump_kept _ _⟩
  · by_cases hz : s.pfs.profile.eventRepeat = 0
    · exact ⟨_, exec_repeatOff h hz, fun _ => rfl, fun hn => absurd hz hn⟩
    · have ht := repeat_taken k (t0 + s.pfs.profile.eventRepeat * 1000) s
      refine ⟨_, exec_repeatExpiry h hz, fun hn => absurd hn hz, fun _ => ⟨ht.rest, ?_, ht.flag, ht.queued, ht.begun⟩⟩
      split
      next hd => exact ht.due hd
      next hd => exact ht.undue hd
  · cases k with
    | fault => exact decide_eq_true_iff
    | feedHold => exact holds_any_iff _
    | headState => exact headAttention_iff s
    | cancellerState => exact cancellerOut_iff s
    | pocketState => exact pocketAttention_iff s
    | endBin => exact endBin_iff s
    | recordsLost => exact decide_eq_true_iff
    | linkSilent => exact Iff.rfl
    | lineState | parity | linkError | profileDefaulted | reset | captureDone => exact iff_of_false nofun nofun

end Sys2Proof.Proofs
end
